-- ==== Sys2Proof/Word.lean ====
section
/-!
DEFINITION. The word types of the Ectil and their plainest arithmetic (R2, R3, R21).
-/
namespace Sys2Proof

/-- A 64-bit register value (R21). -/
abbrev Word := BitVec 64
/-- A 32-bit value: an instruction word, an accumulator element, a serial (R21, R33, R353). -/
abbrev W32 := BitVec 32
/-- A byte of any space (R3). -/
abbrev Byte := BitVec 8

namespace Word

/-- The greater of two words read as unsigned numbers. -/
def maxU (a b : Word) : Word := if a.toNat < b.toNat then b else a

end Word

end Sys2Proof
end

