-- ==== Sys2Proof/Syntax.lean ====
section
/-!
DEFINITION. The syntax of every operation of the Ectil: the instructions of the lane, uniform and fabric sets
(R32 to R50) and the steps that its engines, links, timers and host take (spec/95_what_each_step_holds.md).
One constructor of `Instr` for each row of the table of operations.
-/
namespace Sys2Proof

/-! ## Operand types of the lane set -/

/-- Integer-class fmt codes 0 to 7 (R22, Table 2); also the width/type names of the memory opcodes. -/
inductive IFmt where
  | i64 | i32 | i16 | i8 | n64 | n32 | n16 | n8
  deriving DecidableEq, Repr

/-- Float-class fmt codes 0 to 4 (R22, Table 2). -/
inductive FFmt where
  | f64 | f32 | h16 | e16 | s32
  deriving DecidableEq, Repr

/-- Rounding codes of the prefix word (R35, Table 7); `dyn` takes the mode of FP.MODE. -/
inductive Rnd where
  | rne | rtz | rup | rdn | rna | dyn
  deriving DecidableEq, Repr

/-- A register source field (R34, Table 6). -/
inductive Src where
  | v (r : Fin 64)
  | s (r : Fin 32)
  | x (r : Fin 4)
  deriving DecidableEq, Repr

/-- Source B: a register source or the literal word that follows the base word (R34). -/
inductive SrcB where
  | src (a : Src)
  | lit (w : W32)
  deriving DecidableEq, Repr

/-- The lead word P (R35, Table 7). -/
structure PWord where
  inv   : Bool
  guard : Fin 8
  zero  : Bool
  rnd   : Rnd
  c     : Option Src
  mask  : BitVec 8
  deriving DecidableEq, Repr

/-- The modifier word M (R36, Table 8). -/
structure MWord where
  sat   : Bool
  clamp : Bool
  negA  : Bool
  negB  : Bool
  absA  : Bool
  absB  : Bool
  scale : BitVec 6
  deriving DecidableEq, Repr

/-- The lead words before a lane base word (R39). -/
structure Lead where
  pw : Option PWord
  mw : Option MWord
  deriving DecidableEq, Repr

/-- No lead words. -/
def Lead.bare : Lead := ⟨none, none⟩

/-- Format LR with two sources (R33). -/
structure Lr2 (F : Type) where
  lead : Lead
  fmt  : F
  a    : Src
  b    : SrcB
  d    : Fin 64
  k    : Bool
  deriving DecidableEq, Repr

/-- Format LR with source A alone; field B is 0 (R45). -/
structure Lr1 (F : Type) where
  lead : Lead
  fmt  : F
  a    : Src
  d    : Fin 64
  k    : Bool
  deriving DecidableEq, Repr

/-- Format LI (R33). -/
structure Lri where
  lead : Lead
  fmt  : IFmt
  a    : Src
  imm  : BitVec 7
  d    : Fin 64
  k    : Bool
  deriving DecidableEq, Repr

/-- Conditions of VCMP (R98). -/
inductive ICond where
  | eq | ne | lt | le | gt | ge | tst | ntst
  deriving DecidableEq, Repr

/-- Conditions of VFCMP (R116) and VSCMP (R125). -/
inductive FCond where
  | eq | ne | lt | le | gt | ge | uo | ord
  deriving DecidableEq, Repr

/-- A compare: sources, condition, destination predicate, any or all (R98, R116, R125). -/
structure LCmp (F C B : Type) where
  lead : Lead
  fmt  : F
  a    : Src
  b    : B
  cond : C
  pd   : Fin 8
  any  : Bool
  deriving DecidableEq, Repr

/-- VMOVI (R100). -/
structure LMovi where
  lead : Lead
  fmt  : IFmt
  imm  : BitVec 7
  d    : Fin 64
  k    : Bool
  deriving DecidableEq, Repr

/-- VPLOG (R101). -/
structure LPlog where
  lead : Lead
  pa   : Fin 8
  fn   : BitVec 4
  pb   : Fin 8
  pd   : Fin 8
  deriving DecidableEq, Repr

/-- KIND and CODE of VFCVT (R119). -/
inductive FCvtKind where
  | ff (src : FFmt)
  | fromInt (src : IFmt)
  | toInt (dst : IFmt)
  deriving DecidableEq, Repr

/-- The two directions of VSCVT with the other side's format (R126). -/
inductive SCvtKind where
  | fromF (f : FFmt) | toF (f : FFmt)
  | fromI (f : IFmt) | toI (f : IFmt)
  deriving DecidableEq, Repr

/-- Integer reduction operators (R108). -/
inductive IRed where
  | add | min | max | and | or | xor
  deriving DecidableEq, Repr

/-- Float-class reduction operators (R108). -/
inductive FRed where
  | add | min | max
  deriving DecidableEq, Repr

/-- Modes of VSHFLI (R106). -/
inductive ShflMode where
  | xor | up | down | rot
  deriving DecidableEq, Repr

/-- A unary lane operation with one more item `X` in field B. -/
structure LrX (F X : Type) where
  lead : Lead
  fmt  : F
  a    : Src
  x    : X
  d    : Fin 64
  k    : Bool
  deriving DecidableEq, Repr

/-- The operator and the EXCL bit of VSCAN (R109). -/
structure ScanOp (O : Type) where
  op   : O
  excl : Bool
  deriving DecidableEq, Repr

/-- Mode and distance of VSHFLI (R106). -/
structure ShflOp where
  mode : ShflMode
  dist : Fin 32
  deriving DecidableEq, Repr

/-- Format LM: lane loads, stores and VPRF (R33, R180, R181). -/
structure Lm where
  lead : Lead
  w    : IFmt
  a    : Fin 64
  off  : BitVec 8
  d    : Fin 64
  sp   : Bool
  deriving DecidableEq, Repr

/-- Atomic operations (R182, Table 3). -/
inductive AOp where
  | add | and | or | xor | min | max | exch | cas
  deriving DecidableEq, Repr

/-- Scope codes (R156, Table 2). -/
inductive Scope where
  | gang | team | pair | die | device | domain | system
  deriving DecidableEq, Repr

/-- ORD of an atomic (R182, Table 2). -/
structure Ord where
  acq : Bool
  rel : Bool
  deriving DecidableEq, Repr

/-- The lane atomics (R182). -/
structure La where
  lead  : Lead
  w     : IFmt
  a     : Fin 64
  op    : AOp
  ord   : Ord
  scope : Scope
  d     : Fin 64
  sp    : Bool
  deriving DecidableEq, Repr

/-- QZERO (R145). -/
structure QZeroOp where
  lead : Lead
  lo   : Fin 8
  hi   : Fin 8
  deriving DecidableEq, Repr

/-- QWIDE (R146). -/
structure QWideOp where
  lead : Lead
  a    : Src
  q    : Fin 8
  part : Fin 4
  add  : Bool
  deriving DecidableEq, Repr

/-- SRC of QNARR (R147). -/
inductive QSrc where
  | f32 | i32 | raw
  deriving DecidableEq, Repr

/-- QNARR (R147). -/
structure QNarrOp where
  lead : Lead
  fmt  : FFmt
  q    : Fin 8
  src  : QSrc
  part : Fin 4
  d    : Fin 64
  deriving DecidableEq, Repr

/-! ## Operand types of the uniform set (R37) -/

/-- Format UR with three registers. -/
structure Ur3 where
  sd : Fin 64
  sa : Fin 64
  sb : Fin 64
  deriving DecidableEq, Repr

/-- Format UR with three registers and the U bit (R239). -/
structure Ur3u where
  sd : Fin 64
  sa : Fin 64
  sb : Fin 64
  u  : Bool
  deriving DecidableEq, Repr

/-- Format UR with a destination and one source. -/
structure Ur2 where
  sd : Fin 64
  sa : Fin 64
  deriving DecidableEq, Repr

/-- Format UI. -/
structure Ui where
  sd  : Fin 64
  sa  : Fin 64
  imm : BitVec 12
  deriving DecidableEq, Repr

/-- ULD and UST (R187): a signed offset of nine bits. -/
structure UMem where
  w   : IFmt
  sd  : Fin 64
  sa  : Fin 64
  off : BitVec 9
  deriving DecidableEq, Repr

/-- ULDS and USTS (R187): the space bit and a signed offset of eight bits. -/
structure UMemS where
  w   : IFmt
  sd  : Fin 64
  sa  : Fin 64
  sp  : Bool
  off : BitVec 8
  deriving DecidableEq, Repr

/-- UATM (R188). -/
structure UAtm where
  sd    : Fin 64
  sa    : Fin 64
  scope : Scope
  ord   : Ord
  n     : Bool
  op    : AOp
  ld    : Bool
  st    : Bool
  deriving DecidableEq, Repr

/-- Modes of UVOTE (R242). -/
inductive VoteMode where
  | ballot | all | any | count
  deriving DecidableEq, Repr

/-- The count of ARRIVE (R191). -/
inductive ArrCnt where
  | one | run | reg (sb : Fin 64)
  deriving DecidableEq, Repr

/-- Kinds of WAITPH objects (R193). -/
inductive WaitKind where
  | bar | tl | gate
  deriving DecidableEq, Repr

/-- The count of ULOOP (R256): a register or a constant. -/
inductive LoopCnt where
  | reg (sa : Fin 64)
  | const (c : BitVec 11)
  deriving DecidableEq, Repr

/-- Registers of an engine command with its context (R198, R203). -/
structure Eng where
  sd  : Fin 64
  sa  : Fin 64
  sb  : Fin 64
  ctx : Fin 4
  bar : Bool
  deriving DecidableEq, Repr

/-- The fields of TMMA and TMMAS (R134). -/
structure Mma where
  sd   : Fin 64
  sa   : Fin 64
  sb   : Fin 64
  acc  : Bool
  grp  : Bool
  deriving DecidableEq, Repr

/-! ## Operand types of the fabric set (R38, R291) -/

/-- Second operand of FADD, FSUB and FCMP (R292). -/
inductive FOpnd where
  | reg (fb : Fin 16)
  | imm (e : BitVec 47)
  deriving DecidableEq, Repr

/-- The three forms of FMOV (R292). -/
inductive FMovKind where
  | reg (fa : Fin 16)
  | imm (e : BitVec 46)
  | hi (e : W32)
  deriving DecidableEq, Repr

/-- The value of TLSIG and TLWAIT (R301, R302). -/
inductive FVal where
  | imm (e : BitVec 47)
  | reg (f : Fin 16)
  deriving DecidableEq, Repr

/-- Port states (R281). -/
inductive PortSt where
  | dark | locking | trained | live
  deriving DecidableEq, Repr

/-- Destination of EMSG (R299). -/
inductive EDst where
  | script (dev : BitVec 10) (ctx : Fin 8)
  | cm
  deriving DecidableEq, Repr

/-! ## Messages and targets that the events carry -/

/-- The header of a request or a chunk (R355, Table 4). -/
structure Header where
  addr      : Word
  operand   : Word
  comparand : Word
  ident     : Word
  serial    : W32
  digest    : W32
  floor     : W32
  inc       : W32
  kind      : BitVec 4
  padb      : BitVec 6
  st        : Bool
  width     : BitVec 2
  op        : BitVec 3
  commid    : BitVec 16
  attempt   : BitVec 16
  len       : BitVec 16
  cseq      : W32
  deriving DecidableEq, Repr

/-- A reply (R357, Table 5). -/
structure Reply where
  ident  : Word
  serial : W32
  inc    : W32
  result : Word
  status : BitVec 8
  cseq   : W32
  deriving DecidableEq, Repr

/-- A chunk on its way: header, destination barrier, element type, the runs of destination addresses that its data bytes
go to, the span code of their lines, the tile bytes that it counts, and the data (R204, R212, R355, R399). -/
structure Chunk where
  hdr    : Header
  dstBar : Word
  etype  : BitVec 4
  segs   : List (Word × Nat)
  span   : Nat
  count  : Nat
  data   : List Byte
  deriving DecidableEq, Repr

/-- A reservation message (R213). -/
structure ResvMsg where
  ctx    : Nat
  commid : Nat
  sender : Nat
  window : Nat
  chunk  : Nat
  trees  : Nat
  deriving DecidableEq, Repr

/-- An FSQ message (R286, Table 2). -/
structure FsqMsg where
  payload  : BitVec 128
  serial   : W32
  digest   : W32
  ident    : Word
  type     : BitVec 8
  dev      : BitVec 10
  port     : BitVec 5
  peerDev  : BitVec 10
  peerPort : BitVec 5
  reqno    : BitVec 16
  deriving DecidableEq, Repr

/-- A plain access that arrives from another device (R328). -/
structure RemoteAcc where
  ctx   : Nat
  frame : Nat
  off   : Nat
  size  : Nat
  data  : Option (List Byte)
  deriving DecidableEq, Repr

/-- Where a storage error strikes (R336): a correctable one on a die, or the granule of one that is not. -/
inductive StoreSite where
  | corrected (die : Nat)
  | vreg (g lane reg half : Nat)
  | sreg (g reg half : Nat)
  | acc (g lane q e : Nat)
  | spad (core granule : Nat)
  | l1 (core line : Nat)
  | l2 (line : Nat)
  | l2Match (line : Nat)
  | far (burst : Nat)
  deriving DecidableEq, Repr

/-- What a check of execution finds a mismatch in (R335): the instruction that a gang is executing, or the array pass of the
operation that the gang has issued. -/
inductive CheckSite where
  | pipes (g : Nat)
  | array (g : Nat)
  deriving DecidableEq, Repr

/-- What the host gives a frozen gang that it resumes (R334): trap-state registers by their numbers. -/
structure HostResume where
  g  : Nat
  ts : List (Nat × Word)
  deriving DecidableEq, Repr

/-- A flit that fails its CRC at a port (R283), and whether it has not failed before. -/
structure FlitError where
  port  : Nat
  first : Bool
  deriving DecidableEq, Repr

/-- The address space of a host transfer (R392, Table 1). -/
inductive HostSpace where
  | physical
  | virt (ctx : Nat)
  | mgmt
  deriving DecidableEq, Repr

/-- Groups of execution units that are gated alone (R231, R275). -/
inductive UnitCls where
  | matrix | vfloat | sli | memory
  deriving DecidableEq, Repr

/-- Every operation of the Ectil: one constructor for each row of the table of operations. -/
inductive Instr where
  /-- VADD (R90): Adds sources A and B per sub-element, with register or literal B. -/
  | vadd (o : Lr2 IFmt)
  /-- VADD_LI (R90): Adds a signed 7-bit immediate to source A per sub-element. -/
  | vaddLi (o : Lri)
  /-- VSUB (R90): Subtracts B from A per sub-element. -/
  | vsub (o : Lr2 IFmt)
  /-- VNEG (R90): Negates A per sub-element. -/
  | vneg (o : Lr1 IFmt)
  /-- VABS (R90): Takes the absolute value of A per sub-element. -/
  | vabs (o : Lr1 IFmt)
  /-- VMUL (R90): Multiplies A by B per sub-element. -/
  | vmul (o : Lr2 IFmt)
  /-- VMUL_LI (R90): Multiplies A by a 7-bit immediate per sub-element. -/
  | vmulLi (o : Lri)
  /-- VMULH (R90): Delivers the high w bits of the 2w-bit product. -/
  | vmulh (o : Lr2 IFmt)
  /-- VMULW (R91): Widening multiply of the low half sub-elements into double-width results. -/
  | vmulw (o : Lr2 IFmt)
  /-- VMAD (R90): Computes a times b plus c with the fourth operand from the prefix. -/
  | vmad (o : Lr2 IFmt)
  /-- VDIV (R92): Integer division truncated towards zero with the divide-by-zero cases. -/
  | vdiv (o : Lr2 IFmt)
  /-- VREM (R92): Integer remainder with the sign of the dividend. -/
  | vrem (o : Lr2 IFmt)
  /-- VMIN (R90): Minimum of A and B per sub-element. -/
  | vmin (o : Lr2 IFmt)
  /-- VMIN_LI (R90): Minimum of A and an immediate. -/
  | vminLi (o : Lri)
  /-- VMAX (R90): Maximum of A and B per sub-element. -/
  | vmax (o : Lr2 IFmt)
  /-- VMAX_LI (R90): Maximum of A and an immediate. -/
  | vmaxLi (o : Lri)
  /-- VABSD (R90): Absolute difference of A and B. -/
  | vabsd (o : Lr2 IFmt)
  /-- VAND (R93): Bitwise AND. -/
  | vand (o : Lr2 IFmt)
  /-- VAND_LI (R93): Bitwise AND with an immediate. -/
  | vandLi (o : Lri)
  /-- VOR (R93): Bitwise OR. -/
  | vor (o : Lr2 IFmt)
  /-- VOR_LI (R93): Bitwise OR with an immediate. -/
  | vorLi (o : Lri)
  /-- VXOR (R93): Bitwise XOR. -/
  | vxor (o : Lr2 IFmt)
  /-- VXOR_LI (R93): Bitwise XOR with an immediate. -/
  | vxorLi (o : Lri)
  /-- VANDN (R93): A AND NOT B. -/
  | vandn (o : Lr2 IFmt)
  /-- VNOT (R93): Bitwise NOT of A. -/
  | vnot (o : Lr1 IFmt)
  /-- VSHL (R94): Shift left by a per-sub-element count. -/
  | vshl (o : Lr2 IFmt)
  /-- VSHL_LI (R94): Shift left by an immediate count. -/
  | vshlLi (o : Lri)
  /-- VSHR (R94): Logical shift right. -/
  | vshr (o : Lr2 IFmt)
  /-- VSHR_LI (R94): Logical shift right by an immediate. -/
  | vshrLi (o : Lri)
  /-- VSAR (R94): Arithmetic shift right. -/
  | vsar (o : Lr2 IFmt)
  /-- VSAR_LI (R94): Arithmetic shift right by an immediate. -/
  | vsarLi (o : Lri)
  /-- VROT (R94): Rotate left. -/
  | vrot (o : Lr2 IFmt)
  /-- VROT_LI (R94): Rotate left by an immediate. -/
  | vrotLi (o : Lri)
  /-- VPOPC (R95): Population count per sub-element. -/
  | vpopc (o : Lr1 IFmt)
  /-- VCLZ (R95): Count leading zeros. -/
  | vclz (o : Lr1 IFmt)
  /-- VCTZ (R95): Count trailing zeros. -/
  | vctz (o : Lr1 IFmt)
  /-- VBREV (R95): Bit reversal per sub-element. -/
  | vbrev (o : Lr1 IFmt)
  /-- VBFX (R96): Extracts a bit field with position from B and length from C. -/
  | vbfx (o : Lr2 IFmt)
  /-- VBFI (R96): Inserts a bit field of A into D. -/
  | vbfi (o : Lr2 IFmt)
  /-- VBYTP (R97): Permutes bytes within each sub-element by selectors in B. -/
  | vbytp (o : Lr2 IFmt)
  /-- VFADD (R113): Floating-point add with one rounding. -/
  | vfadd (o : Lr2 FFmt)
  /-- VFSUB (R113): Floating-point subtract. -/
  | vfsub (o : Lr2 FFmt)
  /-- VFMUL (R113): Floating-point multiply. -/
  | vfmul (o : Lr2 FFmt)
  /-- VFMA (R113): Fused multiply-add with one rounding. -/
  | vfma (o : Lr2 FFmt)
  /-- VFDIV (R113): Floating-point divide. -/
  | vfdiv (o : Lr2 FFmt)
  /-- VFSQRT (R114): Correctly rounded square root. -/
  | vfsqrt (o : Lr1 FFmt)
  /-- VFRCP (R114): Correctly rounded reciprocal. -/
  | vfrcp (o : Lr1 FFmt)
  /-- VFRSQ (R114): Correctly rounded reciprocal square root. -/
  | vfrsq (o : Lr1 FFmt)
  /-- VFMIN (R115): Floating-point minimum with NaN rules. -/
  | vfmin (o : Lr2 FFmt)
  /-- VFMAX (R115): Floating-point maximum with NaN rules. -/
  | vfmax (o : Lr2 FFmt)
  /-- VFCMP (R116): Floating-point compare writing a predicate. -/
  | vfcmp (o : LCmp FFmt FCond SrcB)
  /-- VFCLS (R117): Classifies each float into a one-hot class word. -/
  | vfcls (o : Lr1 FFmt)
  /-- VFEX2 (R120): Correctly rounded 2 to the power a. -/
  | vfex2 (o : Lr1 FFmt)
  /-- VFLG2 (R120): Correctly rounded base-2 logarithm. -/
  | vflg2 (o : Lr1 FFmt)
  /-- VFSIN (R120): Correctly rounded sin of pi times a. -/
  | vfsin (o : Lr1 FFmt)
  /-- VFCOS (R120): Correctly rounded cos of pi times a. -/
  | vfcos (o : Lr1 FFmt)
  /-- VFTNH (R120): Correctly rounded hyperbolic tangent. -/
  | vftnh (o : Lr1 FFmt)
  /-- VFCVT (R119): Converts between float formats and between float and integer. -/
  | vfcvt (o : LrX FFmt FCvtKind)
  /-- VFRND (R118): Rounds to an integral float value. -/
  | vfrnd (o : LrX FFmt Bool)
  /-- VSADD (R123): SLI32 addition rounded in index space. -/
  | vsadd (o : Lr2 FFmt)
  /-- VSSUB (R123): SLI32 subtraction. -/
  | vssub (o : Lr2 FFmt)
  /-- VSMUL (R123): SLI32 multiplication. -/
  | vsmul (o : Lr2 FFmt)
  /-- VSDIV (R123): SLI32 division. -/
  | vsdiv (o : Lr2 FFmt)
  /-- VSCMP (R125): SLI32 compare writing a predicate. -/
  | vscmp (o : LCmp FFmt FCond SrcB)
  /-- VSEXP (R124): SLI32 exponential, exact by index shift where possible. -/
  | vsexp (o : Lr1 FFmt)
  /-- VSLN (R124): SLI32 natural logarithm. -/
  | vsln (o : Lr1 FFmt)
  /-- VSCVT (R126): Converts to and from SLI32. -/
  | vscvt (o : LrX Unit SCvtKind)
  /-- VSLVL (R125): Writes the signed level of each SLI32 code. -/
  | vslvl (o : Lr1 FFmt)
  /-- VCMP (R98): Integer compare writing a predicate. -/
  | vcmp (o : LCmp IFmt ICond SrcB)
  /-- VCMP_LI (R98): Integer compare against an immediate. -/
  | vcmpLi (o : LCmp IFmt ICond (BitVec 7))
  /-- VSEL (R99): Selects A or B per lane by the prefix predicate. -/
  | vsel (o : Lr2 IFmt)
  /-- VMOV (R100): Moves source A into a vector register. -/
  | vmov (o : Lr1 IFmt)
  /-- VMOVI (R100): Moves a sign-extended 7-bit immediate into every sub-element. -/
  | vmovi (o : LMovi)
  /-- VPLOG (R101): Computes a two-input predicate function by truth table. -/
  | vplog (o : LPlog)
  /-- VCVT (R102): Converts between integer formats. -/
  | vcvt (o : LrX IFmt IFmt)
  /-- VPACK (R103): Narrows two registers into half-width values. -/
  | vpack (o : Lr2 IFmt)
  /-- VUNPK (R103): Widens half-width values selected by B. -/
  | vunpk (o : Lr2 IFmt)
  /-- VSHFL (R106): Cross-lane shuffle by per-sub-element index. -/
  | vshfl (o : Lr2 IFmt)
  /-- VSHFLI (R106): Cross-lane shuffle by mode and distance. -/
  | vshfli (o : LrX IFmt ShflOp)
  /-- VBCAST (R107): Broadcasts one lane's sub-element to all active lanes. -/
  | vbcast (o : Lr2 IFmt)
  /-- VRDC (R108): Integer tree reduction across active lanes. -/
  | vrdc (o : LrX IFmt IRed)
  /-- VRDC_FLOAT (R108): Float or SLI tree reduction across active lanes. -/
  | vrdcFloat (o : LrX FFmt FRed)
  /-- VSCAN (R109): Integer serial prefix scan over active lanes. -/
  | vscan (o : LrX IFmt (ScanOp IRed))
  /-- VSCAN_FLOAT (R109): Float or SLI serial prefix scan. -/
  | vscanFloat (o : LrX FFmt (ScanOp FRed))
  /-- VMATCH (R107): Writes the set and lowest of lanes with equal values. -/
  | vmatch (o : Lr2 IFmt)
  /-- VLD (R180): Lane load at a generic address, decoding on formatted pages. -/
  | vld (o : Lm)
  /-- VST (R180): Lane store into the gang's store queue. -/
  | vst (o : Lm)
  /-- VLDS (R180): Lane load by scratchpad offset. -/
  | vlds (o : Lm)
  /-- VSTS (R180): Lane store by scratchpad offset. -/
  | vsts (o : Lm)
  /-- VATM (R183): Lane atomic read-modify-write or atomic read at a generic address. -/
  | vatm (o : La)
  /-- VATMS (R185): Lane atomic on own or partner scratchpad. -/
  | vatms (o : La)
  /-- VRED (R183): Lane atomic modify or write without return. -/
  | vred (o : La)
  /-- VPRF (R181): Prefetches lines into L1 or L2 without faulting. -/
  | vprf (o : Lm)
  /-- QZERO (R145): Clears a range of accumulators. -/
  | qzero (o : QZeroOp)
  /-- QWIDE (R146): Writes or adds two accumulator elements from a vector source. -/
  | qwide (o : QWideOp)
  /-- QNARR (R147): Reads accumulator elements into a vector register with one rounding. -/
  | qnarr (o : QNarrOp)
  /-- UADD (R239): Uniform 64-bit add. -/
  | uadd (o : Ur3)
  /-- UADD_UI (R239): Uniform add of an immediate. -/
  | uaddUi (o : Ui)
  /-- USUB (R239): Uniform subtract. -/
  | usub (o : Ur3)
  /-- UMUL (R239): Uniform low 64-bit product. -/
  | umul (o : Ur3)
  /-- UMUL_UI (R239): Uniform multiply by an immediate. -/
  | umulUi (o : Ui)
  /-- UMULH (R239): Uniform high 64 bits of the product. -/
  | umulh (o : Ur3u)
  /-- UDIV (R240): Uniform division with divide-by-zero cases. -/
  | udiv (o : Ur3u)
  /-- UREM (R240): Uniform remainder. -/
  | urem (o : Ur3u)
  /-- UAND (R239): Uniform AND. -/
  | uand (o : Ur3)
  /-- UAND_UI (R239): Uniform AND with an immediate. -/
  | uandUi (o : Ui)
  /-- UOR (R239): Uniform OR. -/
  | uor (o : Ur3)
  /-- UOR_UI (R239): Uniform OR with an immediate. -/
  | uorUi (o : Ui)
  /-- UXOR (R239): Uniform XOR. -/
  | uxor (o : Ur3)
  /-- UXOR_UI (R239): Uniform XOR with an immediate. -/
  | uxorUi (o : Ui)
  /-- UANDN (R239): Uniform AND NOT. -/
  | uandn (o : Ur3)
  /-- USHL (R239): Uniform shift left. -/
  | ushl (o : Ur3)
  /-- USHL_UI (R239): Uniform shift left by an immediate. -/
  | ushlUi (o : Ui)
  /-- USHR (R239): Uniform logical shift right. -/
  | ushr (o : Ur3)
  /-- USHR_UI (R239): Uniform logical shift right by an immediate. -/
  | ushrUi (o : Ui)
  /-- USAR (R239): Uniform arithmetic shift right. -/
  | usar (o : Ur3)
  /-- USAR_UI (R239): Uniform arithmetic shift right by an immediate. -/
  | usarUi (o : Ui)
  /-- UMIN (R239): Uniform minimum, signed or unsigned. -/
  | umin (o : Ur3u)
  /-- UMIN_UI (R239): Uniform signed minimum with an immediate. -/
  | uminUi (o : Ui)
  /-- UMAX (R239): Uniform maximum, signed or unsigned. -/
  | umax (o : Ur3u)
  /-- UMAX_UI (R239): Uniform signed maximum with an immediate. -/
  | umaxUi (o : Ui)
  /-- UCMP (R241): Writes the 12-bit condition word of a comparison. -/
  | ucmp (o : Ur3)
  /-- UCMP_UI (R241): Condition word against an immediate. -/
  | ucmpUi (o : Ui)
  /-- USEL (R239): Selects a or b by a third register. -/
  | usel (o : Ur3) (sc : Fin 64)
  /-- UMOV (R239): Copies one uniform register to another. -/
  | umov (o : Ur2)
  /-- UPOPC (R239): Uniform population count. -/
  | upopc (o : Ur2)
  /-- UCLZ (R239): Uniform count of leading zeros. -/
  | uclz (o : Ur2)
  /-- UMOVI (R239): Loads a sign-extended 12-bit immediate. -/
  | umovi (sd : Fin 64) (imm : BitVec 12)
  /-- ULIT (R239): Loads a 64-bit constant from two literal words. -/
  | ulit (sd : Fin 64) (lo hi : W32)
  /-- ULD (R187): Uniform load at a generic address. -/
  | uld (o : UMem)
  /-- UST (R187): Uniform store at a generic address. -/
  | ust (o : UMem)
  /-- UATM (R188): One 64-bit uniform atomic at a generic address. -/
  | uatm (o : UAtm)
  /-- ULDS (R187): Uniform load by scratchpad offset. -/
  | ulds (o : UMemS)
  /-- USTS (R187): Uniform store by scratchpad offset. -/
  | usts (o : UMemS)
  /-- UVOTE (R242): Ballot, all, any or count of a predicate over the run. -/
  | uvote (sd : Fin 64) (p : Fin 8) (mode : VoteMode)
  /-- ULANE_GET (R243): Reads one lane's vector register into a uniform register. -/
  | ulaneGet (sd va sb : Fin 64)
  /-- ULANE_PUT (R243): Writes a uniform register into one lane's vector register. -/
  | ulanePut (vd sa sb : Fin 64)
  /-- UBR (R247): Branches the whole run when a predicate holds in any thread. -/
  | ubr (p : Fin 8) (off : BitVec 21)
  /-- UBRZ (R248): Branches when a tested uniform value or bit is zero. -/
  | ubrz (sel sa : Fin 64) (off : BitVec 12)
  /-- UBRNZ (R248): Branches when a tested uniform value or bit is non-zero. -/
  | ubrnz (sel sa : Fin 64) (off : BitVec 12)
  /-- BRV (R249): Branch on a vote, splitting a divergent run between two targets. -/
  | brv (p : Fin 8) (off : BitVec 21)
  /-- BRV_DIVERGENT (R249): Branch on a vote with a third target for divergent outcomes. -/
  | brvDivergent (p : Fin 8) (off : BitVec 21) (dv : W32)
  /-- UJMP (R247): Unconditional jump of the whole run. -/
  | ujmp (off : BitVec 21)
  /-- CALL (R250): Writes the return address to a link register and branches. -/
  | call (l : Fin 8) (off : BitVec 21)
  /-- CALLI (R250): Indirect call to a uniform register target. -/
  | calli (vl sa : Fin 64)
  /-- RET (R250): Moves each thread to the address in its own register. -/
  | ret (va : Fin 64)
  /-- DISPATCH (R251): Lane-varying call: queues items for workers or runs inline. -/
  | dispatch (va : Fin 64)
  /-- DRET (R252): Returns a dispatched item's results to its caller lane. -/
  | dret
  /-- ULOOP (R256): Starts a hardware loop over a body. -/
  | uloop (cnt : LoopCnt) (last : W32)
  /-- EXIT (R259): Exits the run's threads. -/
  | exit
  /-- YIELD (R260): Gives one issue turn to the next run. -/
  | yield
  /-- ELECT (R244): Names the lowest thread of the run and sets its predicate. -/
  | elect (sd : Fin 64) (p : Fin 8)
  /-- NOP (R260): Does nothing but count as issued. -/
  | nop
  /-- SPAWN (R261): Pushes a code record, optionally raising a join counter. -/
  | spawn (sa : Fin 64) (inc : Bool)
  /-- BINIT (R190): Initialises a phase barrier. -/
  | binit (sa sb : Fin 64) (scope : BitVec 3)
  /-- ARRIVE (R191): Counts an arrival on a phase barrier. -/
  | arrive (sd sa : Fin 64) (cnt : ArrCnt) (rel : Bool)
  /-- BEXPECT (R192): Adds expected bytes to a barrier, optionally arriving. -/
  | bexpect (o : Ur3) (arr rel : Bool)
  /-- WAITPH (R193): Waits on a barrier phase, a timeline or a port gate. -/
  | waitph (sa sb : Fin 64) (kind : WaitKind) (acq : Bool)
  /-- WAITPH_COMPLETE (R193): A waiting WAITPH completes or fails when its rule holds. -/
  | waitphComplete (g lane : Nat)
  /-- FENCE (R194): Orders the gang's accesses at a scope. -/
  | fence (scope : Scope)
  /-- TLADV (R195): Raises a completion timeline to a maximum. -/
  | tladv (o : Ur3)
  /-- TCOPY_LD (R205): Commands a tile copy from tensor to scratchpad. -/
  | tcopyLd (o : Eng)
  /-- TCOPY_ST (R205): Commands a tile copy from scratchpad to tensor. -/
  | tcopySt (o : Eng)
  /-- TKICK (R206): Issues a list of copy requests from scratchpad. -/
  | tkick (o : Ur3) (ctx : Fin 4)
  /-- TXFER (R207): Sends a scratchpad tile to ranks of a communicator. -/
  | txfer (o : Eng)
  /-- TXFER_ABORT (R218): Aborts a communicator's attempt at every rank. -/
  | txferAbort (sd sa : Fin 64) (ctx : Fin 4)
  /-- TMMA (R134): Accepts a dense matrix operation into the pair's queue. -/
  | tmma (o : Mma)
  /-- TMMAS (R134): Accepts a sparse matrix operation into the pair's queue. -/
  | tmmas (o : Mma)
  /-- TCANCEL (R208): Cancels incomplete commands of a TCU context. -/
  | tcancel (sd sa : Fin 64) (ctx : Fin 4)
  /-- TPROBE (R209): Reads a TCU context's timeline and progress. -/
  | tprobe (sd : Fin 64) (ctx : Fin 4)
  /-- UGET (R245): Reads a state register into a uniform register. -/
  | uget (sd : Fin 64) (num : BitVec 12)
  /-- USET (R245): Writes a state register from a uniform register. -/
  | uset (sd : Fin 64) (num : BitVec 12)
  /-- CACHE_L1DROP (R196): Drops a range's lines from the core's L1. -/
  | cacheL1drop (sa sb : Fin 64)
  /-- CACHE_L2FETCH (R196): Brings a range's global lines into L2. -/
  | cacheL2fetch (sa sb : Fin 64)
  /-- CACHE_FARHINT (R196): Marks a range's pages as far-memory candidates. -/
  | cacheFarhint (sa sb : Fin 64)
  /-- CACHE_ZERO (R196): Stores zero to every byte of a range. -/
  | cacheZero (sa sb : Fin 64)
  /-- PAGEQ (R197): Writes a snapshot of a page's placement. -/
  | pageq (o : Ur2)
  /-- TRAP (R332): Raises a software trap with a code. -/
  | trap (code : BitVec 12)
  /-- ERET (R333): Returns from the handler to TS.RPC. -/
  | eret
  /-- BKPT (R380): Triggers a debug stop or a BKPT fault. -/
  | bkpt (code : BitVec 12)
  /-- EVENT_WINDOW_EXPIRE (R82): The window position reaches 2^WLOG and a fresh window opens. -/
  | eventWindowExpire (g cls : Nat)
  /-- CREQ (R294): Arms a port and requests a circuit. -/
  | creq (fd : Fin 16) (port : Fin 32) (peerDev : BitVec 10) (peerPort : Fin 32)
  /-- CWAIT (R295): Starts waiting for a port state with timeout. -/
  | cwait (fd : Fin 16) (port : Fin 32) (st : PortSt) (t : BitVec 14) (off : BitVec 24)
  /-- CWAIT_COMPLETE (R295): A waiting CWAIT falls through when the port reaches the state. -/
  | cwaitComplete (c : Nat)
  /-- CWAIT_TIMEOUT (R295): A CWAIT's limit passes and it takes the else branch. -/
  | cwaitTimeout (c : Nat)
  /-- CUSE (R296): Binds a LIVE port to a communicator rank. -/
  | cuse (fd : Fin 16) (port : Fin 32) (rank : BitVec 10) (comm : BitVec 16)
  /-- CREL (R297): Releases a port, draining it if LIVE. -/
  | crel (fd : Fin 16) (port : Fin 32)
  /-- CSTAT (R298): Writes a port's status word. -/
  | cstat (fd : Fin 16) (port : Fin 32)
  /-- EMSG (R299): Sends a message to a script context or the circuit manager. -/
  | emsg (fd fa : Fin 16) (dst : EDst) (tag : BitVec 16)
  /-- EMSG_TIMEOUT (R299): An EMSG unacknowledged after 64 sends writes 1. -/
  | emsgTimeout (c : Nat)
  /-- ERECV (R300): Takes a mailbox message or waits for one. -/
  | erecv (fd fa : Fin 16) (tag : BitVec 16) (off : BitVec 24)
  /-- ERECV_TIMEOUT (R300): An ERECV's timeout expires and it takes the else branch. -/
  | erecvTimeout (c : Nat)
  /-- FMOV (R292): Moves a register or constant into an f register. -/
  | fmov (fd : Fin 16) (k : FMovKind)
  /-- FADD (R292): Adds f registers modulo 2^64. -/
  | fadd (fd fa : Fin 16) (o : FOpnd)
  /-- FSUB (R292): Subtracts f registers modulo 2^64. -/
  | fsub (fd fa : Fin 16) (o : FOpnd)
  /-- FCMP (R292): Writes the condition word of a comparison. -/
  | fcmp (fd fa : Fin 16) (o : FOpnd)
  /-- FBR (R293): Unconditional script branch. -/
  | fbr (off : BitVec 24)
  /-- FBRC (R293): Conditional script branch on a register or bit. -/
  | fbrc (z : Bool) (fa : Fin 16) (sel : BitVec 6) (off : BitVec 24)
  /-- TLSIG (R301): Raises the script context's timeline as a release. -/
  | tlsig (val : FVal)
  /-- TLWAIT (R302): Waits until a timeline reaches a value. -/
  | tlwait (fa : Fin 16) (val : FVal)
  /-- TLWAIT_COMPLETE (R302): A waiting TLWAIT completes when the timeline reaches the value. -/
  | tlwaitComplete (c : Nat)
  /-- FTIME (R303): Reads CLK.NS into an f register. -/
  | ftime (fd : Fin 16)
  /-- FINT (R303): Interrupts the host with a code. -/
  | fint (fa : Fin 16) (code : W32)
  /-- FNOP (R303): Does nothing. -/
  | fnop
  /-- FHALT (R303): Ends the script, optionally reporting failure. -/
  | fhalt (err : Bool) (fa : Fin 16)
  /-- LAUNCH (R222): Parses a launch: checks the LPB and pushes range records. -/
  | launch (q : Nat)
  /-- SCRIPT (R287): Parses a script command, waiting for an idle context. -/
  | script (q : Nat)
  /-- SCRIPT_FORWARD (R287): Copies script words into an idle context and starts it. -/
  | scriptForward (q : Nat)
  /-- WAIT (R222): Halts a queue until a timeline reaches a value. -/
  | wait (q : Nat)
  /-- WAIT_RELEASE (R222): A halted WAIT is released when its timeline is raised enough. -/
  | waitRelease (q : Nat)
  /-- SIGNAL (R222): Raises a completion timeline and optionally messages the host. -/
  | signal (q : Nat)
  /-- TEAM_ADMIT (R229): The dispatcher pops a record and admits a team or pair to a core. -/
  | teamAdmit (die : Nat)
  /-- RESIDENT_ADMIT (R230): A resident launch is admitted all at once when the device has room. -/
  | residentAdmit (launch : Nat)
  /-- DIE_QUEUE_STEAL (R228): A dispatcher takes from another die's queue after 2 microseconds. -/
  | dieQueueSteal (die victim : Nat)
  /-- WORKER_FORMATION (R236): An idle worker gang takes queued dispatch items. -/
  | workerFormation (g : Nat)
  /-- DISPATCH_LATE_QUEUE (R236): A lane waiting for a free dispatch queue is queued when one empties. -/
  | dispatchLateQueue (g lane : Nat)
  /-- GANG_OVERDUE (R231): A gang eligible and unchosen for 256 cycles becomes overdue. -/
  | gangOverdue (g : Nat)
  /-- YIELD_BOUND (R233): After 4,096 head-run issues the next run takes one turn. -/
  | yieldBound (g : Nat)
  /-- SLICE_END (R237): A context's slice of 2^22 instructions on a core ends. -/
  | sliceEnd (core : Nat)
  /-- SLICE_IDLE_TIMEOUT (R237): A slice ends after 2^20 cycles without issue. -/
  | sliceIdleTimeout (core : Nat)
  /-- QUIESCE_TIMEOUT (R344): Commands unfinished 2 microseconds into a save are cancelled. -/
  | quiesceTimeout (team : Nat)
  /-- SAVE_COMPLETE (R344): The store queue drains and the save area and checkpoint are written. -/
  | saveComplete (team : Nat)
  /-- TEAM_RESUME (R344): A saved team is readmitted, restored, rebased and its copies reissued. -/
  | teamResume (team core : Nat)
  /-- GANG_EXIT_COMPLETE (R259): A gang exits once its matrix operations retire and store queue drains. -/
  | gangExitComplete (g : Nat)
  /-- TEAM_RETIRE (R259): A team retires and its join counter is decremented. -/
  | teamRetire (team : Nat)
  /-- TEAM_KILL (R348): Stops every gang of a team and its pair without trap. -/
  | teamKill (team : Nat)
  /-- GANG_HOST_RESUME (R334): The host resumes a frozen gang at TS.RPC. -/
  | gangHostResume (r : HostResume)
  /-- TOKEN_RESERVATION_PAID (R266): Arriving tokens complete the oldest reservation. -/
  | tokenReservationPaid (core : Nat)
  /-- RING_REVOLUTION (R262): At a revolution boundary entitlements are fixed and surplus discarded. -/
  | ringRevolution (die : Nat)
  /-- BUDGET_INTERVAL (R270): A 1 microsecond byte-budget interval opens. -/
  | budgetInterval (die : Nat)
  /-- CLASS_TRANSITION_END (R273): A 40 microsecond class transition ends. -/
  | classTransitionEnd (island : Nat)
  /-- ISLAND_DRAINED (R274): A draining island empties and is reassigned to the wanted pool. -/
  | islandDrained (die : Nat)
  /-- UNIT_GATE (R275): An execution unit idle for 64 cycles is gated. -/
  | unitGate (core quarter : Nat) (cls : UnitCls)
  /-- THERMAL_READING (R277): The hottest die sensor is read and the cap set. -/
  | thermalReading (die temp : Nat)
  /-- POWER_REMOVAL (R278): Power is removed at most 2 ms after a trip. -/
  | powerRemoval
  /-- LOAD_DATA_RETURN (R180): Data of an outstanding load arrives and is written. -/
  | loadDataReturn (g id : Nat) (data : Option (List Byte)) (refusal : Word)
  /-- STORE_VISIBLE (R158): A queued store drains to its point of visibility. -/
  | storeVisible (core : Nat) (g : Option Nat) (idx : Nat)
  /-- MATRIX_ARRAY_START (R134): The paid and checked operation starts on the arrays. -/
  | matrixArrayStart (pair : Nat)
  /-- MATRIX_RETIRE (R136): A matrix operation writes accumulators and advances the timeline. -/
  | matrixRetire (pair : Nat)
  /-- MATRIX_OPERAND_FAULT (R143): A memory check during operand fetch removes the operation. -/
  | matrixOperandFault (pair : Nat)
  /-- COPY_BYTES_LAND (R204): Copy bytes land and are subtracted from the barrier. -/
  | copyBytesLand (core ctx num first count : Nat)
  /-- COPY_COMPLETE (R205): A copy command's last byte lands and its number completes. -/
  | copyComplete (core ctx num : Nat)
  /-- COPY_FAULT (R210): A command faults after acceptance and sets barrier FAULT. -/
  | copyFault (core ctx num : Nat)
  /-- RESERVATION_REQUEST_RECEIVE (R213): A receiving CXE reserves staging and answers with credits. -/
  | reservationRequestReceive (die path : Nat) (msg : ResvMsg)
  /-- RESERVATION_ANSWER_RECEIVE (R213): The sender receives credits or a refusal for a reservation. -/
  | reservationAnswerReceive (die path peer : Nat) (msg : ResvMsg) (credits : Option Nat)
  /-- RESERVATION_RESEND (R213): An unanswered reservation message is resent after 10 microseconds. -/
  | reservationResend (die path peer ctx commid : Nat)
  /-- CHUNK_BOUNDARY (R215): A port finishes a chunk and starts the next eligible one. -/
  | chunkBoundary (die path : Nat)
  /-- CHUNK_RECEIVE (R399): A receiving CXE admits, stages or answers an arriving chunk. -/
  | chunkReceive (die path sender : Nat) (ch : Chunk)
  /-- CHUNK_APPLY (R400): A staged chunk is checked, applied, counted and answered. -/
  | chunkApply (die idx : Nat)
  /-- CHUNK_REPLY_RECEIVE (R357): The sender takes a chunk's reply and credit. -/
  | chunkReplyReceive (die path peer : Nat) (r : Reply) (credit : Bool) (combined : Option (List Byte))
  /-- CHUNK_RESEND (R219): An unacknowledged E-plane chunk is resent after 10 microseconds. -/
  | chunkResend (die path peer ctx commid cseq : Nat)
  /-- CIRCUIT_TIMEOUT (R219): A waiting chunk's clock reaches TIMEOUT and the command faults. -/
  | circuitTimeout (core ctx num : Nat)
  /-- ABORT_TOKEN_RECEIVE (R218): A CXE raises its attempt and discards older chunks. -/
  | abortTokenReceive (die ctx commid attempt sender : Nat) (descr : Word)
  /-- ABORT_ACK_RECEIVE (R218): A rank acknowledges an abort token. -/
  | abortAckReceive (core ctx num dev : Nat)
  /-- REQUEST_SERVE (R359): An owner serves a serial-carrying request through the rind. -/
  | requestServe (die sender : Nat) (h : Header)
  /-- REMOTE_ACCESS_SERVE (R328): An owning device performs or refuses a remote access. -/
  | remoteAccessServe (die sender : Nat) (r : RemoteAcc)
  /-- REPLY_RECEIVE (R357): The requester takes a reply by its status. -/
  | replyReceive (r : Reply)
  /-- REQUEST_RETRANSMIT (R364): An unanswered request is sent again on its backoff. -/
  | requestRetransmit (g serial : Nat)
  /-- FULL_RETRY (R357): A request answered FULL is resent after 10 microseconds. -/
  | fullRetry (g serial : Nat)
  /-- ACKF_SEND (R361): A quiet gang sends its raised floor to an owner. -/
  | ackfSend (g dest : Nat)
  /-- ACKF_RECEIVE (R361): An owner raises a requester record and retires entries. -/
  | ackfReceive (die : Nat) (ident : Word) (floor : W32)
  /-- REQUESTER_RECORD_EXPIRE (R358): A requester record is dropped 1 ms after its last entry retires. -/
  | requesterRecordExpire (die : Nat) (ident : Word)
  /-- INCARNATION_ANNOUNCE (R367): A device records a peer's announced incarnation. -/
  | incarnationAnnounce (dev : Nat) (inc : W32)
  /-- WARM_RESTART (R367): The device restarts keeping far memory and the rind. -/
  | warmRestart
  /-- COLD_RESTART (R367): A cold reset or power loss empties the rind. -/
  | coldRestart
  /-- BOOT (R396): Boot ROM verifies firmware and raises the incarnation. -/
  | boot
  /-- TLB_MISS (R321): A lookup misses and waits for a walker or a shared walk. -/
  | tlbMiss (core ctx page : Nat)
  /-- WALK_COMPLETE (R319): A walk yields a leaf or a page fault. -/
  | walkComplete (die ctx page : Nat)
  /-- INVALIDATE_DONE (R322): A translation invalidation finishes and BUSY falls. -/
  | invalidateDone
  /-- PAGE_MOVE (R154): The placement engine changes a page's home or residency. -/
  | pageMove (frame home res : Nat)
  /-- STORAGE_ERROR (R336): A storage error is corrected or poisons its granule. -/
  | storageError (site : StoreSite)
  /-- CHECKER_MISMATCH (R335): A residue or parity mismatch re-executes or rolls back. -/
  | checkerMismatch (site : CheckSite)
  /-- ROLLBACK (R340): A team restores its checkpoint and replays. -/
  | rollback (team : Nat)
  /-- LIGHT_DETECTED (R281): Light on an armed port starts locking. -/
  | lightDetected (port : Nat)
  /-- WAVELENGTH_LOCK (R281): All eight wavelengths lock and the port is TRAINED. -/
  | wavelengthLock (port : Nat)
  /-- LOCK_TIMEOUT (R281): No lock 25 microseconds after detection returns the port to DARK. -/
  | lockTimeout (port : Nat)
  /-- TRAINING_COMPLETE (R281): Link training completes and the port enters LIVE. -/
  | trainingComplete (port : Nat)
  /-- TRAINING_TIMEOUT (R281): Training incomplete after 3 microseconds returns the port to DARK. -/
  | trainingTimeout (port : Nat)
  /-- LIGHT_LOST (R281): Loss of light sends the port to DARK. -/
  | lightLost (port : Nat)
  /-- FLIT_CRC_ERROR (R283): A flit fails CRC and is retried at link level. -/
  | flitCrcError (e : FlitError)
  /-- DRAIN_END (R284): A release drain ends when its last chunk lands. -/
  | drainEnd (port : Nat)
  /-- DRAIN_TIMEOUT (R284): A release drain ends 2 microseconds after the CREL. -/
  | drainTimeout (port : Nat)
  /-- CM_GRANT (R286): A circuit grant sets the port's REQST when it matches. -/
  | cmGrant (m : FsqMsg)
  /-- CM_REFUSE (R286): A circuit refusal sets REQST refused when it matches. -/
  | cmRefuse (m : FsqMsg)
  /-- CM_DROP (R286): The circuit manager announces a torn-down circuit. -/
  | cmDrop (m : FsqMsg)
  /-- SCRIPT_MESSAGE_RECEIVE (R300): A message to a script context enters its mailbox. -/
  | scriptMessageReceive (m : FsqMsg)
  /-- FSQ_ACK_RECEIVE (R286): An acknowledgement of an FSQ message arrives. -/
  | fsqAckReceive (ident : Word) (serial : W32)
  /-- FSQ_MESSAGE_RESEND (R286): An unacknowledged FSQ message is resent after 10 microseconds. -/
  | fsqMessageResend (idx : Nat)
  /-- WRITE (R392): Host transport write to physical, virtual or management space. -/
  | write (seq : Nat) (space : HostSpace) (addr : Nat) (data : List Byte)
  /-- READ (R392): Host transport read answered with DATA. -/
  | read (seq : Nat) (space : HostSpace) (addr len : Nat)
  /-- MOVE (R392): Starts a copy between device memory and a registered host buffer. -/
  | move (seq : Nat) (space : HostSpace) (addr slot off len : Nat) (toHost : Bool) (data : List Byte)
  /-- MOVE_COMPLETE (R392): A MOVE finishes and NOTIFY 0x0C is sent. -/
  | moveComplete (seq : Nat)
  /-- TRANSPORT_ACK (R392): The host acknowledges a device message. -/
  | transportAck (seq : Nat)
  /-- TRANSPORT_RESEND (R392): An unacknowledged transport message is resent after 20 microseconds. -/
  | transportResend (seq : Nat)
  /-- MGMT_REGISTER_WRITE (R397): Writes a management register that has no row of its own. -/
  | mgmtRegisterWrite (off : Nat) (val : Word)
  /-- QUEUE_SKIP (R393): Skips the command at which a halted queue stands. -/
  | queueSkip (q : Nat)
  /-- QUEUE_DISABLE (R393): Clearing EN stops parsing after the current command. -/
  | queueDisable (q : Nat)
  /-- VERDICT_PARSE (R394): A host verdict lets the waiting command be parsed. -/
  | verdictParse (q : Nat)
  /-- VERDICT_SKIP (R394): A host verdict skips the waiting command. -/
  | verdictSkip (q : Nat)
  /-- POOL_WRITE (R273): A new POOL value starts an island class transition. -/
  | poolWrite (island : Nat) (val : Word)
  /-- PACING_DISABLE (R276): Writing EN 0 disables pacing and clears OFFSET. -/
  | pacingDisable
  /-- INVALIDATE_GO (R322): Starts a translation invalidation. -/
  | invalidateGo (val : Word)
  /-- PAGE_FAULT_RETRY (R325): Makes every master sharing a fault walk again. -/
  | pageFaultRetry (id : Nat)
  /-- PAGE_FAULT_REFUSE (R325): Makes every master sharing a fault raise PAGEF. -/
  | pageFaultRefuse (id : Nat)
  /-- SCRIPT_RESET (R289): Ends any script and makes the context idle. -/
  | scriptReset (c : Nat)
  /-- SCRIPT_TIMELINE_WRITE (R289): Raises a script timeline to a maximum as a release. -/
  | scriptTimelineWrite (c : Nat) (val : Word)
  /-- PORT_ARM (R395): Arms a port as CREQ with the FSQ as owner. -/
  | portArm (port peerDev peerPort : Nat)
  /-- PORT_RELEASE (R395): Releases a port as CREL. -/
  | portRelease (port : Nat)
  /-- PORT_BIND (R395): Binds a port as CUSE. -/
  | portBind (port ctx commid rank : Nat)
  /-- RIND_EXTENSION_GRANT (R360): Grants further rind overflow space to a die. -/
  | rindExtensionGrant (die amount : Nat)
  /-- ATTESTATION_NONCE (R396): A nonce write yields signed attestation evidence. -/
  | attestationNonce (nonce : BitVec 256)
  /-- DBG_RESUME (R383): Resumes every gang the core's last stop froze. -/
  | dbgResume (core : Nat)
  /-- DBG_STEP (R386): Issues one instruction or chain of a frozen gang. -/
  | dbgStep (core slot : Nat)
  /-- STEP_END (R386): A step ends and DBG.STEPST is written. -/
  | stepEnd (core : Nat)
  /-- STOP_ARRIVE (R384): A stop reaches a core and freezes its gangs, recording skid. -/
  | stopArrive (core : Nat)
  /-- SAMPLE_TRIGGER (R388): The sampling period expires and a gang or instruction is sampled. -/
  | sampleTrigger (core : Nat)
  /-- SAMPLE_COMPLETE (R388): A tagged instruction completes and its sample record is written. -/
  | sampleComplete (core id : Nat)
  /-- ATTESTATION_EVIDENCE_SIGNED (R396): Signing of the attestation evidence finishes and NOTIFY 0x0B with status 0 is sent for the last nonce written. -/
  | attestationEvidenceSigned
  /-- SLI_OCCUPANCY_END (R127): The quarter's SLI unit becomes free after its 2P × (L + 1), 8 or 4 cycles of occupancy, so another SLI-class instruction may issue. -/
  | sliOccupancyEnd (core quarter : Nat)
  /-- PAGE_MOVE_DONE (R154): A page move between L2 residency and far memory, reported by PAGEQ as RES 2 'moving', finishes and the page takes its new residency. -/
  | pageMoveDone (frame : Nat)
  deriving DecidableEq, Repr

end Sys2Proof
end

