-- ==== Sys2Proof/Machine/Bits.lean ====
section
/-!
DEFINITION. Bit fields, sign extension and byte order (R2, R3, R22), and the CRC-32C of R356.
-/
namespace Sys2Proof.Machine

/-- The field of `n` bits of `w` that starts at bit `lo`. -/
def fld (w lo n : Nat) : Nat := w / 2 ^ lo % 2 ^ n

/-- Bit `i` of `w`. -/
def bitOf (w i : Nat) : Bool := w / 2 ^ i % 2 == 1

/-- `w` with the field of `n` bits at `lo` replaced by `x`. -/
def setFld (w lo n x : Nat) : Nat := w - fld w lo n * 2 ^ lo + x % 2 ^ n * 2 ^ lo

/-- 1 for true. -/
def b2n (b : Bool) : Nat := if b then 1 else 0

/-- `x`, read as an `n`-bit two's complement number. -/
def sext (n x : Nat) : Int := if x % 2 ^ n < 2 ^ (n - 1) then (x % 2 ^ n : Nat) else (x % 2 ^ n : Nat) - 2 ^ n

/-- The low `n` bits of an integer. -/
def wrapN (n : Nat) (x : Int) : Nat := (x % (2 ^ n : Nat)).toNat

/-- A word from an integer, modulo 2^64. -/
def wordOf (x : Int) : Word := BitVec.ofNat 64 (wrapN 64 x)

/-- A field of a word. -/
def Word.fld (w : Word) (lo n : Nat) : Nat := Machine.fld w.toNat lo n

/-- A 32-bit set with lane `l` in it. -/
def laneBit (l : Nat) : W32 := BitVec.ofNat 32 (2 ^ l)

/-- Whether lane `l` is in the set. -/
def hasLane (m : W32) (l : Nat) : Bool := m.getLsbD l

/-- The lanes of a gang. -/
def lanes : List Nat := List.range 32

/-- The lanes of a set, rising. -/
def lanesOf (m : W32) : List Nat := lanes.filter (hasLane m)

/-- The set of the lanes that meet a condition. -/
def laneSet (f : Nat → Bool) : W32 := lanes.foldl (fun m l => if f l then m ||| laneBit l else m) 0

/-- The lowest lane of a set; 0xFF for the empty set. -/
def lowLane (m : W32) : Nat := ((lanesOf m).head?).getD 0xFF

/-- Little-endian bytes of `x`, `n` of them (R3). -/
def leBytes : Nat → Nat → List Byte
  | 0, _ => []
  | n + 1, x => BitVec.ofNat 8 x :: leBytes n (x / 256)

/-- The number that little-endian bytes hold (R3). -/
def leNat : List Byte → Nat
  | [] => 0
  | b :: t => b.toNat + 256 * leNat t

/-- The number that 32-bit words hold, the first lowest. -/
def wordsNat : List Nat → Nat
  | [] => 0
  | w :: t => w % 2 ^ 32 + 2 ^ 32 * wordsNat t

/-- One bit step of the reflected CRC-32C. -/
def crcBit (c : Nat) : Nat := if c % 2 == 1 then (c / 2) ^^^ 0x82F63B78 else c / 2

/-- One byte of the CRC-32C. -/
def crcByte (c : Nat) (b : Byte) : Nat := (List.range 8).foldl (fun a _ => crcBit a) (c ^^^ b.toNat)

/-- The CRC-32C of bytes taken in order (R286, R356). -/
def crc32c (bs : List Byte) : W32 := BitVec.ofNat 32 (bs.foldl crcByte 0xFFFFFFFF ^^^ 0xFFFFFFFF)

/-- Element `k` of width `w` of a word (R22). -/
def elem (x : Word) (w k : Nat) : Nat := fld x.toNat (k * w) w

/-- A word with element `k` of width `w` replaced (R22). -/
def setElem (x : Word) (w k e : Nat) : Word := BitVec.ofNat 64 (setFld x.toNat (k * w) w e)

/-- Serial `a` lies below serial `b`, modulo 2^32 (R353). -/
def serialBelow (a b : W32) : Bool := let d := (b - a).toNat; 1 ≤ d && d < 2 ^ 31

end Sys2Proof.Machine

namespace Sys2Proof

/-- Codes of atomic operations. -/
def AOp.code : AOp → Nat
  | .add => 0 | .and => 1 | .or => 2 | .xor => 3 | .min => 4 | .max => 5 | .exch => 6 | .cas => 7

def AOp.ofCode (n : Nat) : AOp :=
  match n % 8 with
  | 0 => .add | 1 => .and | 2 => .or | 3 => .xor | 4 => .min | 5 => .max | 6 => .exch | _ => .cas

/-- Bits of a width/type code. -/
def IFmt.bits : IFmt → Nat
  | .i64 | .n64 => 64 | .i32 | .n32 => 32 | .i16 | .n16 => 16 | .i8 | .n8 => 8

/-- Whether a width/type is signed. -/
def IFmt.signed : IFmt → Bool
  | .i64 | .i32 | .i16 | .i8 => true
  | _ => false

/-- The value of a `w`-bit pattern under a fmt (R86). -/
def IFmt.val (f : IFmt) (x : Nat) : Int := if f.signed then Machine.sext f.bits x else (x % 2 ^ f.bits : Nat)

/-- A loaded pattern extended to 64 bits by the signedness of its type (R180). -/
def IFmt.extend (f : IFmt) (x : Nat) : Word := Machine.wordOf (f.val x)

/-- WIDTH of a request header (R355). -/
def IFmt.widthCode : IFmt → Nat
  | .i64 => 0 | .i32 => 1 | .n64 => 2 | _ => 3

def IFmt.ofWidth (n : Nat) : IFmt :=
  match n with
  | 0 => .i64 | 1 => .i32 | 2 => .n64 | _ => .n32

end Sys2Proof
end

