-- ==== Sys2Proof/Config.lean ====
section
/-!
DEFINITION. What one implementation of the Ectil fixes, and the free values: values that the specification leaves
open. Each is an opaque constant, so no proof can rest on what it is (assumption log 4).
-/
namespace Sys2Proof.Config

/-- Free value number `n` of the state's counter of free values (log 4). -/
opaque freeWord : Nat → Word

/-- A byte that an engine reads from another device's frame at a step (log 18): the device, the address, the step. -/
opaque farByte : Nat → Nat → Nat → Byte

/-- Nanoseconds that pass with step number `n` (log 3): the specification gives no length to a step. -/
opaque stepNs : Nat → Nat

/-- Core-clock cycles that pass on core `c` with step number `n` (log 3). -/
opaque stepCycles : Nat → Nat → Nat

/-- ID.DEV: the device's position in the load-store domain, set at boot (R9). -/
opaque deviceId : BitVec 10

/-- Whether the firmware image in the module's flash passes the check of boot ROM (R396). -/
opaque bootGood : Nat → Bool

/-- How many records the record queue memory of a context holds (R228, R261): the specification gives no size (log 9). -/
opaque recordCap : Nat → Nat

/-- The firmware's SHA-256 digest (R396). -/
opaque firmwareDigest : BitVec 256

/-- The device serial number (R396). -/
opaque deviceSerial : Word

/-- The evidence's signature under the device identity key (R396): a function of the evidence. -/
opaque signature : List Byte → List Byte

/-- The result of a transcendental function, or of a level-index operation, where no enclosure decides it (log 12): the
function's number, the rounding mode's code, the operands and the width. -/
opaque hardCase : Nat → Nat → Nat → Nat → Nat → Nat

/-- The module region of the management space (R397): rail, junction and coolant readings. -/
opaque moduleReading : Nat → Nat → Word

end Sys2Proof.Config
end

