-- ==== Sys2Proof/Machine/State.lean ====
section
/-!
DEFINITION. The state of the Ectil: everything the specification gives the machine, as plain data. Sparse collections
are lists of (key, value) pairs with rising keys that hold no entry equal to what an absent key reads as.
-/
namespace Sys2Proof.Machine

/-- A sparse map: (key, value) pairs with rising keys. -/
abbrev SMap (α : Type) := List (Nat × α)

/-- Roles of a gang (R31, ID.ROLE). -/
inductive Role where
  | general | copy | matrix | epilogue | worker
  deriving DecidableEq, Repr

/-- Causes of faults (R329, Table 1). -/
inductive Cause where
  | illenc | illchain | pagef | prot | mmioatm | fmtst | rfue | spue | pipeerr | evtthr | swtrap | bkpt | watch | stepped
  | circuit | copyf | replay | indoubt | attempt
  deriving DecidableEq, Repr

/-- Event classes in the order of their registers (R31, R81). -/
inductive Evt where
  | inv | dz | ovf | unf | inx | sat | lvc | idz | bfx
  deriving DecidableEq, Repr

/-- A fault record (R330, Table 2); a stop record has the same layout (R385). -/
structure FaultRec where
  pc      : Word
  addr    : Word
  tl      : Word
  team    : Nat
  core    : Nat
  gang    : Nat
  dev     : Nat
  ctx     : Nat
  lane    : Nat
  field   : Nat
  sub     : Nat
  cause   : Cause
  master  : Nat
  unit    : Nat
  restart : Bool
  dbl     : Bool
  extra   : Word
  deriving DecidableEq, Repr

/-- Where one byte lives: physical memory of this device, a scratchpad (core × 2^18 + offset), or another device's
frame (R151, R319, R328). -/
inductive Loc where
  | phys (a : Nat)
  | spad (a : Nat)
  | remote (dev ctx a : Nat)
  deriving DecidableEq, Repr

/-- A store in a queue (R158): where each byte goes, the gang and the issue that made it, and whether its page is MMIO
(R179). -/
structure StoreEnt where
  bytes : List (Loc × Byte)
  va    : Word
  lane  : Nat
  pc    : Word
  by_   : Nat
  nth   : Nat
  mmio  : Bool
  deriving DecidableEq, Repr

/-- Bytes that a lane has read ahead of a load that may take them (R105, R159): `stale` once a store to them has become
visible in the core since, and the register of the load that has been performed in between. -/
structure EarlyRead where
  lane   : Nat
  locs   : List Loc
  bytes  : List Byte
  stale  : Bool
  passed : Option Nat
  deriving DecidableEq, Repr

/-- A lane's load that may still read its bytes again (R159): its register, and whether a later access of its lane has gone
before it. -/
structure OpenRead where
  lane   : Nat
  reg    : Nat
  w      : IFmt
  locs   : List Loc
  bytes  : List Byte
  va     : Word
  passed : Bool
  deriving DecidableEq, Repr

/-- What a thread waits for (R166, R193, R232, R251, R253); one whose wait has failed while its gang could not trap keeps the
record (R169). -/
inductive Wait where
  | none
  | phase (kind : WaitKind) (obj val : Word) (acq : Bool)
  | failed (r : FaultRec)
  | dispatch
  | dispatchLate (target : Word)
  | inlineCall
  deriving DecidableEq, Repr

/-- An entry of the PC table (R232). -/
structure Thread where
  pc   : Word
  held : Bool
  wait : Wait
  deriving DecidableEq, Repr

/-- An inline DISPATCH under way (R253): its return address, the group that runs, those of it that returned, and the
groups still to run. -/
structure InlineCall where
  ret     : Word
  active  : W32
  done    : W32
  returned : W32
  pending : List (Nat × W32)
  deriving DecidableEq, Repr

/-- The latch chain under way (R28, R29): its head, how many members it has, what they read and the events that wait
for its end. -/
structure Chain where
  head    : Word
  run     : W32
  members : Nat
  joins   : Bool
  vRead   : List Nat
  pRead   : List Nat
  events  : List (Evt × Nat)
  deriving DecidableEq, Repr

/-- How the gang's last issue stands towards a following latch read (R28, checks 0x01 and 0x03). -/
inductive ChainEnd where
  | never | closed | broken
  deriving DecidableEq, Repr

/-- Where the answer of a request or a remote load goes. -/
inductive Dest where
  | none
  | lane (lane reg : Nat) (w : IFmt)
  | uni (reg : Nat) (w : IFmt)
  deriving DecidableEq, Repr

/-- A continuation record (R226, Table 4), with the launch it stands for and, for a requeued team, its number. -/
structure Record where
  queue  : Nat
  pfloor : Nat
  cls    : Nat
  kind   : Nat
  ngang  : Nat
  budget : Nat
  hv     : Bool
  hint   : Nat
  join   : Word
  frame  : Word
  code   : Word
  launch : Option Nat
  number : Option Nat
  deriving DecidableEq, Repr

/-- A request that awaits its reply (R186, R364, R365); the reply of one that is `quiet`, a killed team's, is discarded
(R347, R362), and one that acquires keeps its gang's later accesses until it has its reply (R162), as does every one for
accesses to the bytes it names (R157). A SPAWN's carries its record as at issue (R261). -/
structure OutReq where
  hdr     : Header
  dest    : Dest
  owner   : Nat
  pc      : Word
  sentAt  : Nat
  wait    : Nat
  full    : Bool
  quiet   : Bool
  acq     : Bool
  locs    : List Loc
  item    : Option Record
  nth     : Nat
  deriving DecidableEq, Repr

/-- One lane's part of a load that awaits data from another device (R150, R180, R328): where its bytes lie, how a
formatted page's elements are named, and the answer once it is there (the bytes, or the refusal's RESULT). -/
structure PendLoad where
  id   : Nat
  lane : Nat
  dest : Dest
  loc  : List Loc
  fmt  : Nat
  sel  : List (Nat × Bool)
  va   : Word
  pc   : Word
  run  : W32
  zer  : W32
  len  : Nat
  got  : Option (List Byte)
  no   : Option Word
  deriving DecidableEq, Repr

/-- A refusal or a doubt that a later instruction receives (R366, R368). -/
structure LateFault where
  dest   : Dest
  cause  : Cause
  sub    : Nat
  serial : W32
  addr   : Word
  deriving DecidableEq, Repr

/-- A page fault that stalls a gang, or its refusal (R323, R325). -/
inductive PfState where
  | none
  | waiting (id : Nat)
  | refused (page : Nat)
  deriving DecidableEq, Repr

/-- A worker lane's caller (R236, R252). -/
structure Caller where
  gang : Nat
  lane : Nat
  deriving DecidableEq, Repr

/-- What a gang last wrote to an owner: when, and the floor that went with it (R361). -/
structure OwnerAck where
  at_   : Nat
  floor : W32
  deriving DecidableEq, Repr

/-- A gang that has retired or was killed, until its owners have had the final acknowledgement (R362). -/
structure FinalAck where
  g      : Nat
  next   : W32
  owners : List Nat
  deriving DecidableEq, Repr

/-- A gang (R21, R31, R158, R225, R232). -/
structure Gang where
  core     : Nat
  slot     : Nat
  role     : Role
  budget   : Nat
  v        : SMap Word
  sr       : SMap Word
  p        : SMap W32
  q        : SMap W32
  x        : SMap Word
  sreg     : SMap Word
  winPos   : SMap Nat
  chain    : Option Chain
  chainEnd : ChainEnd
  threads  : SMap Thread
  calls    : List InlineCall
  formed   : SMap Caller
  storeQ   : List StoreEnt
  reqs     : List OutReq
  loads    : List PendLoad
  early    : List EarlyRead
  openRds  : List OpenRead
  late     : List LateFault
  pin      : Bool
  ckSerial : W32
  handler  : Option W32
  frozen   : Option FaultRec
  frozenRun : W32
  stopped  : Bool
  stopTrap : Bool
  stopPc   : Option Word
  pf       : PfState
  poisonV  : SMap Nat
  poisonS  : SMap Nat
  poisonQ  : SMap Nat
  wroteV   : SMap Nat
  wroteS   : SMap Nat
  wroteQ   : SMap Nat
  lastRun  : Option Word
  turns    : Nat
  single   : Option Word
  idle     : Nat
  overdue  : Bool
  stallAt  : Nat
  age      : Nat
  exiting  : Bool
  acks     : SMap OwnerAck
  lastPc   : Word
  issuedN  : Nat
  deriving DecidableEq, Repr

/-- One item of a dispatch queue (R236). -/
structure DispItem where
  caller : Caller
  regs   : List Word
  deriving DecidableEq, Repr

/-- Phases of a team's life on and off the cores (R343, R344); a team that is `rolling` issues nothing until it can be rolled
back, and then moves to another core where R335 asks it. -/
inductive TeamSt where
  | running
  | quiescing (until_ : Nat)
  | saving
  | saved
  | rolling (move : Bool)
  deriving DecidableEq, Repr

/-- A cancelled copy kept for the resume (R344, R345). -/
structure CutCopy where
  tctx   : Nat
  num    : Nat
  gang   : Nat
  pc     : Word
  lane   : Nat
  dir    : Nat
  kick   : Bool
  bar    : Option Word
  words  : List Word
  shape  : List Byte
  landed : Nat
  deriving DecidableEq, Repr

/-- A checkpoint (R338): the gangs, the scratchpad, the TCU numbers and the matrix number at its instant. -/
structure Ckpt where
  gangs : SMap Gang
  spad  : SMap Byte
  tcu   : SMap Nat
  mat   : Nat
  items : List (Nat × List DispItem)
  bad   : SMap Nat
  deriving DecidableEq, Repr

/-- A fault of an engine command, kept for the gangs that have not seen it (R170, R210): `reported` names those told of it
before their team's checkpoint, `fresh` those told since (R340). -/
structure EngFault where
  num      : Nat
  team     : Nat
  bar      : Option Loc
  fault    : FaultRec
  reported : List Nat
  fresh    : List Nat
  deriving DecidableEq, Repr

/-- Events of a complete command, added at the issuing gang's WAITPH (R82); those `taken` since the team's checkpoint are
kept for a rollback (R84, R340). -/
structure DoneEvents where
  gang   : Nat
  num    : Nat
  lane   : Nat
  events : List (Evt × Nat)
  taken  : Bool
  deriving DecidableEq, Repr

/-- The faults and events of a team's engine commands while it is saved, with the numbers as the team sees them: of each TCU
context, and under 4 of the matrix timeline (R346). -/
structure Books where
  faults : List (Nat × EngFault)
  events : List (Nat × DoneEvents)
  deriving DecidableEq, Repr

/-- A team (R17, R18, R225, R318, R338 to R346). -/
structure Team where
  core     : Nat
  ctx      : Nat
  number   : Nat
  index    : Nat
  launch   : Option Nat
  record   : Record
  prio     : Nat
  ngang    : Nat
  spBase   : Nat
  spSize   : Nat
  prBase   : Word
  prSize   : Nat
  partner  : Option Nat
  leader   : Bool
  resident : Bool
  idem     : Bool
  st       : TeamSt
  queues   : List (Nat × List DispItem)
  mIssued  : Nat
  taint    : Bool
  everTaint : Bool
  readLines : List Nat
  wroteSp  : SMap Nat
  otherSp  : SMap Nat
  landed   : SMap Nat
  ckpt     : Option Ckpt
  issued   : Nat
  tlOff    : SMap Int
  tlHigh   : SMap Nat
  cut      : List CutCopy
  books    : Books
  savedAt  : Nat
  deriving DecidableEq, Repr

/-- Progress of one chunk of a TXFER (R212, R217, R219). -/
inductive ChunkPhase where
  | waiting (since : Nat)
  | flying (path cseq : Nat)
  | done
  deriving DecidableEq, Repr

/-- One chunk of a TXFER (R212, R217), with its message from the first time that it is sent (R399). -/
structure ChunkSt where
  rank   : Nat
  idx    : Nat
  serial : W32
  phase  : ChunkPhase
  held   : Option Chunk
  deriving DecidableEq, Repr

/-- Kinds of TCU commands. -/
inductive CmdKind where
  | ld | st | xfer | abort
  deriving DecidableEq, Repr

/-- A part of a copy's tile on its way to another device: its bytes, those that count when they are there, and the accesses
that have no answer yet (R205, R328). -/
structure CopyOut where
  first : Nat
  count : Nat
  inb   : Nat
  ids   : List Nat
  deriving DecidableEq, Repr

/-- A command of a TCU context that is not complete (R198, R203 to R207): the record and the words as read at issue, a
fault known then, the bytes of its tile that have not landed, and for a TXFER its communicator's descriptor and map; with the
bytes of other devices that it has been answered, those that it was refused, what is on its way there (R328), and the gang
whose TCANCEL waits until it cannot write again (R208). -/
structure Cmd where
  num    : Nat
  order  : Nat
  kind   : CmdKind
  kick   : Bool
  gang   : Nat
  team   : Nat
  lane   : Nat
  pc     : Word
  recAddr : Word
  shape  : List Byte
  words  : List Word
  bar    : Option Word
  bad    : Option (Cause × Nat × Word)
  left   : List (Nat × Nat)
  landed : Nat
  chunks : List ChunkSt
  acks   : List Nat
  sent   : Bool
  issuedAt : Nat
  comm   : List Byte
  events : List (Evt × Nat)
  far    : SMap Byte
  farNo  : List Nat
  outs   : List CopyOut
  cut    : Option Nat
  deriving DecidableEq, Repr

/-- A TCU context (R198). -/
structure TcuCtx where
  issued : Nat
  cmds   : List Cmd
  faults : List EngFault
  events : List DoneEvents
  deriving DecidableEq, Repr

/-- An accepted matrix operation (R135 to R137): its operands, memory and span codes as at acceptance, the pages that were
absent then, the lines that it pins once it runs, and its operands' bytes of other devices that it has been answered or
refused (R328); `gone` once its pair was killed while it was on the array (R348). -/
structure MatOp where
  num    : Nat
  team   : Nat
  gang   : Nat
  lane   : Nat
  pc     : Word
  aBase  : Word
  aLay   : Word
  bBase  : Word
  bLay   : Word
  acc    : Bool
  grp    : Bool
  sparse : Bool
  image  : List Host.Cell
  spans  : SMap Nat
  late   : List Nat
  pins   : List Nat
  far    : SMap Byte
  farNo  : List Nat
  running : Bool
  struck : Bool
  gone : Bool
  deriving DecidableEq, Repr

/-- The matrix queue of a core pair (R130, R135), with the faults and events of operations that are gone. -/
structure MatQueue where
  ops    : List MatOp
  faults : List (Nat × EngFault)
  events : List (Nat × DoneEvents)
  deriving DecidableEq, Repr

/-- Who holds a token reservation (R266). -/
inductive Holder where
  | gang (g : Nat)
  | matrix
  deriving DecidableEq, Repr

/-- A token reservation (R266). -/
structure Resv where
  holder : Holder
  price  : Nat
  paid   : Nat
  placed : Nat
  deriving DecidableEq, Repr

/-- A cached translation (R321): the leaf of a 64 KiB or a 32 MiB page. -/
structure TlbEnt where
  ctx  : Nat
  page : Nat
  big  : Bool
  leaf : Word
  deriving DecidableEq, Repr

/-- A tagged instruction that is followed (R388, Table 7); `nth` counts its gang's earlier issues once it has issued. -/
structure Sample where
  id   : Nat
  g    : Nat
  pc   : Word
  tl   : Word
  mask : W32
  slot : Nat
  time : Nat
  nth  : Option Nat
  deriving DecidableEq, Repr

/-- A step under way (R386): the slot, whether the gang was in handler mode, how many instructions it had issued, and
whether it would have blocked. -/
structure StepRun where
  slot    : Nat
  handler : Bool
  base    : Nat
  blocked : Bool
  deriving DecidableEq, Repr

/-- What a lane-set instruction has read and written, and its length in bytes: what a uniform instruction that co-issues with
it must be independent of (R238). -/
structure LaneDid where
  vRead  : List Nat
  sRead  : List Nat
  pRead  : List Nat
  vWrote : Option Nat
  pWrote : Option Nat
  len    : Nat
  deriving DecidableEq, Repr

/-- The run that issues the instruction under execution, or has just issued it (R238). -/
structure Issue where
  g      : Nat
  run    : W32
  pc     : Word
  issued : Bool
  did    : Option LaneDid := none
  deriving DecidableEq, Repr

/-- A core (R10, R13, R263, R237, R321, R335, R388): among the rest the entitlement of the revolution under way and what of it
the ring has delivered (R262), and for each execution unit the cycle of its last instruction (R275). -/
structure Core where
  tokens  : Int
  ringEnt : Nat
  ringGot : Nat
  resv    : List Resv
  tcu     : SMap TcuCtx
  suspect : Bool
  tlb     : List TlbEnt
  outb    : List StoreEnt
  sliceN  : Nat
  sliceAt : Nat
  curCls  : SMap Nat
  sliBusy : SMap Nat
  gated   : SMap Nat
  unitAt  : SMap Nat
  stepOf  : Option StepRun
  samples : List Sample
  tag     : Option Issue
  sampN   : Nat
  sampSlot : Nat
  gone    : SMap Word
  lastCtx : Option Nat
  deriving DecidableEq, Repr

/-- A command queue with its control block (R221, R393), the command that it waits at, and the page whose fault was
refused for it (R325). -/
structure CmdQueue where
  en      : Bool
  halt    : Bool
  head    : W32
  tail    : W32
  ring    : Nat
  rlog    : Nat
  ctx     : Nat
  prio    : Nat
  waiting : Bool
  asked   : Bool
  verdict : Nat
  cmd     : List Word
  pfNo    : Option Nat
  deriving DecidableEq, Repr

/-- A record in a record queue (R228): its order of pushing and the instant it arrived. -/
structure Queued where
  item  : Record
  order : Nat
  at_   : Nat
  deriving DecidableEq, Repr

/-- A launch that has been parsed (R223, R227, R351). -/
structure Launch where
  ctx     : Nat
  queue   : Nat
  lpbAddr : Word
  lpb     : Nat
  image   : List Word
  value   : Word
  counter : Word
  tbase   : Nat
  killed  : Bool
  retired : List Nat
  complete : Bool
  deriving DecidableEq, Repr

/-- States of a script context (R289, Table 3). -/
inductive ScriptSt where
  | idle | running | waiting | stopped
  deriving DecidableEq, Repr

/-- A script context of the FSQ (R287, R288, R289), with the word it waits in, and since when. -/
structure Script where
  f       : SMap Word
  store   : List Word
  pc      : Nat
  st      : ScriptSt
  wait    : Option Instr
  since   : Nat
  mailbox : List FsqMsg
  tl      : Word
  actx    : Nat
  base    : Word
  serial  : W32
  cause   : Nat
  deriving DecidableEq, Repr

/-- An optical port (R281 to R284, R298). -/
structure Port where
  st       : PortSt
  armed    : Bool
  owner    : Nat
  drain    : Option Nat
  peerDev  : Nat
  peerPort : Nat
  reqst    : Nat
  reqno    : Nat
  fails    : Nat
  gate     : W32
  light    : Bool
  tried    : Bool
  since    : Nat
  crc      : Nat
  deriving DecidableEq, Repr

/-- An entry of the binding table (R285). -/
structure Binding where
  ctx    : Nat
  commid : Nat
  rank   : Nat
  port   : Nat
  deriving DecidableEq, Repr

/-- An FSQ message that awaits its acknowledgement (R286, R299). -/
structure FsqOut where
  msg    : FsqMsg
  sentAt : Nat
  sends  : Nat
  deriving DecidableEq, Repr

/-- A staging reservation at a receiving CXE (R213, R399): its slots, the credits lent that no chunk has used, what was last
lent on each path, the lowest number that it waits for, the highest number received, and the numbers answered with their
answers. -/
structure RxResv where
  ctx    : Nat
  commid : Nat
  sender : Nat
  bytes  : Nat
  slots  : Nat
  free   : Nat
  lent   : Nat
  asked  : SMap Nat
  base   : Option Nat
  high   : Option Nat
  seen   : List (Nat × Reply)
  deriving DecidableEq, Repr

/-- A chunk staged at a receiving CXE (R213, R398), the paths on which it came again (R399), the accesses without an answer by
which its bytes go to another device's pages (R328), and the refusal that it has met (R400). -/
structure Staged where
  path   : Nat
  sender : Nat
  chunk  : Chunk
  more   : List Nat
  ids    : Option (List Nat)
  no     : Option Word
  deriving DecidableEq, Repr

/-- A chunk sent and not answered (R219, R357, R399): its path and when it was last sent, whether FULL answered it, and
whether it was lost with its port. -/
structure Unans where
  cseq   : Nat
  path   : Nat
  sentAt : Nat
  full   : Bool
  lost   : Bool
  chunk  : Chunk
  deriving DecidableEq, Repr

/-- The sending side of a reservation at the receiving CXE of die `die` of device `peer` (R213, R399): the paths on which
it has been answered, and the one on which a message waits for its answer. -/
structure TxResv where
  ctx     : Nat
  commid  : Nat
  peer    : Nat
  die     : Nat
  msg     : ResvMsg
  paths   : List Nat
  ask     : Option (Nat × Nat)
  credits : Nat
  seq     : Nat
  unans   : List Unans
  deriving DecidableEq, Repr

/-- A collective engine (R212 to R215, R218). -/
structure Cxe where
  rx     : List RxResv
  staged : List Staged
  latest : SMap Nat
  lastVc : SMap Nat
  deriving DecidableEq, Repr

/-- A rind entry (R358, Table 6). -/
structure RindEnt where
  addr   : Word
  ident  : Word
  result : Word
  serial : W32
  digest : W32
  inc    : W32
  kind   : BitVec 4
  ref    : Bool
  deriving DecidableEq, Repr

/-- A requester record (R358): the highest floor received; `emptyAt` is when its last entry retired. -/
structure ReqRec where
  ident   : Word
  floor   : W32
  emptyAt : Option Nat
  deriving DecidableEq, Repr

/-- A synchronisation engine's rind (R358, R360). -/
structure Sxe where
  rind  : List RindEnt
  recs  : List ReqRec
  extra : Nat
  warned : Bool
  deriving DecidableEq, Repr

/-- A die: its TLB, its walks with the pages they walk for, its hottest reading, its drain, the class that the host was last asked
for, and the last revolution and
budget interval that began (R262, R270, R274, R277, R321). -/
structure Die where
  tlb    : List TlbEnt
  walks  : List (Nat × Nat)
  temp   : Nat
  drain  : Option Nat
  drainCls : Nat
  told   : Option Nat
  revAt  : Nat
  budgetAt : Nat
  deriving DecidableEq, Repr

/-- A core island (R263, R273). -/
structure Island where
  cls     : Nat
  pool    : Nat
  moving  : Option Nat
  oldCls  : Nat
  nextPool : Option Nat
  ent     : Nat
  l2b     : Nat
  farb    : Nat
  l2Used  : Nat
  farUsed : Nat
  deriving DecidableEq, Repr

/-- Page faults that the host is serving (R325). -/
structure PageFault where
  id   : Nat
  ctx  : Nat
  page : Nat
  deriving DecidableEq, Repr

/-- Who awaits the answer of an access to another device that is no gang's load (R328): a gang for the stores it has sent, a
SIGNAL, a launch for the writing of its timeline, the push of a record, the waits that read a timeline again and again
until it holds enough (R170, R222, R302), a matrix operation and a copy for bytes that they read or write, a CXE for those of a
chunk, and a host message for its bytes. -/
inductive FarWho where
  | none
  | store (g core lane : Nat) (pc : Word)
  | signal (q : Nat)
  | launch (k : Nat)
  | record (ctx : Nat)
  | waitph (g lane : Nat) (need : Word)
  | queue (q : Nat) (need : Word)
  | script (c : Nat) (need : Word)
  | matrix (pair num : Nat)
  | copy (core x num : Nat)
  | chunk (die : Nat)
  | host (seq : Nat)
  deriving DecidableEq, Repr

/-- An access to another device that awaits its answer (R328). -/
structure FarOp where
  id  : Nat
  who : FarWho
  dev : Nat
  ctx : Nat
  loc : Nat
  len : Nat
  va  : Word
  deriving DecidableEq, Repr

/-- A stop on its way to the cores of its group (R384, R385), and whether its record has been delivered. -/
structure Stop where
  cores  : List Nat
  ctx    : Nat
  fault  : FaultRec
  base   : List (Nat × Nat)
  told   : Bool
  deriving DecidableEq, Repr

/-- Placement of a 64 KiB page (R12, R154): its home die, its residency (0 far, 1 in L2, 2 moving) and the residency that a
move leads to. -/
structure Placement where
  home : Nat
  res  : Nat
  dest : Nat
  deriving DecidableEq, Repr

/-- A registered host buffer (R392). -/
structure HostBuf where
  base : Nat
  len  : Nat
  deriving DecidableEq, Repr

/-- A MOVE under way (R392): where the bytes lie in device memory and in the registered buffer, and for a move to the device
the buffer's bytes. -/
structure HostMove where
  seq    : Nat
  space  : HostSpace
  addr   : Nat
  slot   : Nat
  off    : Nat
  len    : Nat
  toHost : Bool
  data   : List Byte
  deriving DecidableEq, Repr

/-- A byte of a host message that is performed before the rest of it (R172): its address, and what a READ or a MOVE to the
host has read there; none where another device refused it. -/
structure Torn where
  seq  : Nat
  at_  : Nat
  byte : Option Byte
  deriving DecidableEq, Repr

/-- Messages that leave the device: to the host (R392), to other devices and to the circuit manager. -/
inductive Msg where
  | notify (kind : Nat) (body : List Nat) (words : List Word)
  | fault (kind : Nat) (rec : FaultRec)
  | data (seq : Nat) (bytes : List Byte)
  | moveDone (seq status : Nat) (bytes : List Byte)
  | ack (seq : Nat)
  | evidence (status : Nat) (bytes : List Byte)
  | fate (ctx : Nat) (bytes : List Byte)
  | request (dev : Nat) (h : Header)
  | reply (dev : Nat) (r : Reply)
  | remote (dev id : Nat) (r : RemoteAcc)
  | remoteData (dev : Nat) (bytes : Option (List Byte))
  | chunk (path dev : Nat) (c : Chunk)
  | chunkReply (path dev : Nat) (r : Reply) (credit : Bool)
  | resvReq (path dev : Nat) (m : ResvMsg)
  | resvAns (path dev : Nat) (m : ResvMsg) (credits : Option Nat)
  | abort (dev ctx commid attempt : Nat) (descr : Word)
  | abortAck (dev ctx commid attempt : Nat)
  | fsq (m : FsqMsg)
  | fsqAck (ident : Word) (serial : W32)
  | ackf (dev : Nat) (ident : Word) (floor : W32)
  | announce (inc : W32)
  deriving DecidableEq, Repr

/-- A message to the host that is not yet acknowledged (R392). -/
structure HostOut where
  seq    : Nat
  msg    : Msg
  sentAt : Nat
  deriving DecidableEq, Repr

/-- What the outside world, the engines and the timers bring next, which quarter's gang issues (log 2), a gang whose next
instruction lacks its operands or its pipe for now (R231), the loads that are performed out of their order: bytes read ahead,
a turn whose load stays open, and an open load that reads some of its bytes again (R159, log 44); bytes of a host message that
are performed before the rest of it, those that the bits of `which` name (R172); and what the power controller writes to an
island's register (R264). -/
inductive Input where
  | event (i : Instr)
  | turn (g : Nat)
  | stall (g : Nat)
  | script (c : Nat)
  | early (g lane : Nat) (va : Word) (n : Nat)
  | late (g : Nat)
  | reread (g k which : Nat)
  | hostPart (i : Instr) (which : Nat)
  | rail (island : Nat) (val : Word)
  deriving DecidableEq, Repr

/-- How the device stands (R278, R396). -/
inductive Power where
  | on | booting (cold : Bool) | bootFailed | tripped (at_ : Nat) | off
  deriving DecidableEq, Repr

/-- The whole machine. -/
structure State where
  power     : Power
  now       : Nat
  tick      : Nat
  tick0     : Nat
  free      : Nat
  progress  : Nat
  inputs    : List Input
  cur       : Option Issue
  script    : Option Nat
  mem       : List Host.Cell
  span      : SMap Nat
  spad      : SMap Byte
  poisonSp  : SMap Nat
  poisonL2  : SMap Nat
  poisonFar : SMap Nat
  place     : SMap Placement
  gangs     : SMap Gang
  teams     : SMap Team
  cores     : SMap Core
  dies      : SMap Die
  islands   : SMap Island
  matrix    : SMap MatQueue
  queues    : SMap CmdQueue
  lastQ     : SMap Nat
  recQ      : SMap (List Queued)
  pushed    : Nat
  launches  : SMap Launch
  nextLaunch : Nat
  teamCnt   : SMap Nat
  waiting   : List Nat
  scripts   : SMap Script
  ports     : SMap Port
  binds     : List Binding
  fsqSerial : W32
  reqno     : Nat
  fsqSeen   : List (Word × W32)
  fsqOut    : List FsqOut
  cxes      : SMap Cxe
  sendRes   : List TxResv
  sxes      : SMap Sxe
  orphans   : List OutReq
  finals    : List FinalAck
  incarnation : W32
  warmBase  : W32
  incTable  : SMap W32
  faultsOut : List PageFault
  pfWaiters : List (Nat × Nat)
  nextPf    : Nat
  pfNo      : List (Nat × Nat × Nat)
  farOps    : List FarOp
  farTl     : SMap Word
  privTaken : List (Nat × Nat × Nat)
  invalid   : Option Word
  stops     : List Stop
  mgmt      : SMap Word
  bufs      : SMap HostBuf
  cave      : SMap Nat
  pacing    : Word
  paceDown  : Nat
  paceUp    : Nat
  paceAt    : Option Nat
  paceComm  : Option Nat
  lastStep  : Option Nat
  nonce     : Option (BitVec 256)
  hostSeen  : List Nat
  torn      : List Torn
  moves     : List HostMove
  hostSeq   : Nat
  hostOut   : List HostOut
  out       : List Msg
  age       : Nat
  nextId    : Nat
  deriving DecidableEq, Repr

/-- Why a step can stop. -/
inductive Fault where
  /-- Raised by a meaning of a lane or uniform instruction when no run issues it: no step does that, it arises only when
  `exec` is applied to a state without an issuing run. Safe: the hardware never executes an instruction without one. -/
  | noIssuer
  /-- Raised by a meaning of a fabric instruction when no script context executes it. Safe, as `noIssuer`. -/
  | noScript
  deriving DecidableEq, Repr

/-- Why a step can be refused. -/
inductive Refusal where
  /-- Raised by `exec` for an instruction that has no meaning yet. Safe: nothing can be proved of it. -/
  | notModelled (mnemonic : String)
  deriving DecidableEq, Repr

/-- A step's answer. -/
abbrev Res := Host.Outcome State Fault Refusal

/-- The machine right after a cold reset (R5 and the Reset columns): no team, no command and no message anywhere;
the values that no rule gives are those of the assumption log, entries 1, 2, 5 and 6. -/
def State.reset : State where
  power := .booting true
  now := 0
  tick := 0
  tick0 := 0
  free := 0
  progress := 0
  inputs := []
  cur := none
  script := none
  mem := []
  span := []
  spad := []
  poisonSp := []
  poisonL2 := []
  poisonFar := []
  place := []
  gangs := []
  teams := []
  cores := []
  dies := []
  islands := []
  matrix := []
  queues := []
  lastQ := []
  recQ := []
  pushed := 0
  launches := []
  nextLaunch := 0
  teamCnt := []
  waiting := []
  scripts := []
  ports := []
  binds := []
  fsqSerial := 0
  reqno := 1
  fsqSeen := []
  fsqOut := []
  cxes := []
  sendRes := []
  sxes := []
  orphans := []
  finals := []
  incarnation := 0
  warmBase := 0
  incTable := []
  faultsOut := []
  pfWaiters := []
  nextPf := 0
  pfNo := []
  farOps := []
  farTl := []
  privTaken := []
  invalid := none
  stops := []
  mgmt := []
  bufs := []
  cave := []
  pacing := 0x8000000000000000#64
  paceDown := 0
  paceUp := 0
  paceAt := none
  paceComm := none
  lastStep := none
  nonce := none
  hostSeen := []
  torn := []
  moves := []
  hostSeq := 0
  hostOut := []
  out := []
  age := 0
  nextId := 0

end Sys2Proof.Machine
end

