-- ==== Sys2Proof/Machine/Maps.lean ====
section
/-!
DEFINITION. Sparse maps in canonical form, and memory as one of them: keys rise strictly, and no entry equals what an
unlisted key reads as, so equal contents are equal data.
-/
namespace Sys2Proof.Machine

namespace SMap

/-- The value listed at key `k`. -/
def find {α : Type} : SMap α → Nat → Option α
  | [], _ => none
  | (j, v) :: t, k => if j = k then some v else find t k

/-- The value at key `k`, `d` where none is listed. -/
def getD {α : Type} (m : SMap α) (k : Nat) (d : α) : α := (find m k).getD d

/-- The map without key `k`. -/
def erase {α : Type} : SMap α → Nat → SMap α
  | [], _ => []
  | (j, v) :: t, k => if j = k then erase t k else (j, v) :: erase t k

/-- The map with `v` at key `k`. -/
def put {α : Type} : SMap α → Nat → α → SMap α
  | [], k, v => [(k, v)]
  | (j, u) :: t, k, v => if j = k then (k, v) :: t else if j < k then (j, u) :: put t k v else (k, v) :: (j, u) :: t

/-- The map with `v` at key `k`, where an unlisted key reads as `d`. -/
def putD {α : Type} [DecidableEq α] (m : SMap α) (d : α) (k : Nat) (v : α) : SMap α :=
  if v = d then erase m k else put m k v

/-- All keys of the map lie above `k`. -/
def above {α : Type} (k : Nat) (m : SMap α) : Bool := m.all (fun e => decide (k < e.1))

/-- The keys rise strictly. -/
def sorted {α : Type} : SMap α → Bool
  | [] => true
  | (k, _) :: t => above k t && sorted t

/-- Canonical form for default `d`. -/
def wf {α : Type} [DecidableEq α] (d : α) (m : SMap α) : Bool := sorted m && m.all (fun e => decide (e.2 ≠ d))

/-- The values of a map. -/
def vals {α : Type} (m : SMap α) : List α := m.map (·.2)

end SMap

namespace Memory

/-- What a byte that nothing has written reads as (log 1). -/
def empty : Byte := 0

/-- One byte of memory. -/
def read (m : List Host.Cell) (a : Nat) : Byte := SMap.getD m a empty

/-- Memory with one byte written. -/
def write (m : List Host.Cell) (a : Nat) (b : Byte) : List Host.Cell := SMap.putD m empty a b

/-- `n` bytes from address `a`. -/
def readN (m : List Host.Cell) : Nat → Nat → List Byte
  | _, 0 => []
  | a, n + 1 => read m a :: readN m (a + 1) n

/-- Bytes written from address `a` on. -/
def writeN (m : List Host.Cell) : Nat → List Byte → List Host.Cell
  | _, [] => m
  | a, b :: t => writeN (write m a b) (a + 1) t

/-- The canonical form of memory. -/
def wf (m : List Host.Cell) : Bool := SMap.wf empty m

end Memory

end Sys2Proof.Machine
end

