-- ==== Sys2Proof/Machine/Access.lean ====
section
/-!
DEFINITION. Reading and changing the parts of the state by their names: gangs, teams, cores, dies, islands, queues,
script contexts, ports, and the registers of the management space.
-/
namespace Sys2Proof.Machine

/-- What keeps an instruction from having its effect at issue: a precise fault with its cause, field, sub-code, lane and
address (R42); a wait at issue; a page fault at an address (R323); consumed poison, and whether the granule was written
in the team's interval (R337); or an answer that faults the instruction reading its destination (R366, R368). -/
inductive Halt where
  | bad (cause : Cause) (field sub lane : Nat) (addr : Word)
  | hold
  | page (va : Word) (kind lane field : Nat)
  | poison (cause : Cause) (field sub lane : Nat) (addr : Word) (repair : Bool)
  | late (f : LateFault) (field lane : Nat)
  deriving DecidableEq, Repr

/-- A checked computation. -/
abbrev Chk := Except Halt

/-- A precise fault unless `c` holds. -/
def need (c : Bool) (h : Halt) : Chk Unit := if c then .ok () else .error h

/-- PROT naming a field and no lane. -/
def prot (field : Nat) (addr : Word := 0) (lane : Nat := 0xFF) : Halt := .bad .prot field 0 lane addr

/-! ## Values that an absent entry reads as -/

/-- A gang before anything is set in it. -/
def Gang.blank : Gang :=
  { core := 0, slot := 0, role := .general, budget := 7, v := [], sr := [], p := [], q := [], x := [], sreg := [],
    winPos := [], chain := none, chainEnd := .never, threads := [], calls := [], formed := [], storeQ := [], reqs := [],
    loads := [], early := [], openRds := [], late := [], pin := false, ckSerial := 0, handler := none, frozen := none, frozenRun := 0,
    stopped := false, stopTrap := false, stopPc := none, pf := .none, poisonV := [], poisonS := [], poisonQ := [], wroteV := [],
    wroteS := [], wroteQ := [], lastRun := none, turns := 0, single := none, idle := 0, overdue := false, stallAt := 0,
    age := 0, exiting := false, acks := [], lastPc := 0, issuedN := 0 }

/-- A continuation record of zeros. -/
def Record.blank : Record :=
  { queue := 0, pfloor := 0, cls := 0, kind := 0, ngang := 0, budget := 0, hv := false, hint := 0, join := 0, frame := 0,
    code := 0, launch := none, number := none }

/-- A team before anything is set in it. -/
def Team.blank : Team :=
  { core := 0, ctx := 0, number := 0, index := 0, launch := none, record := Record.blank, prio := 0, ngang := 1,
    spBase := 0, spSize := 0, prBase := 0, prSize := 0, partner := none, leader := false, resident := false,
    idem := false, st := .running, queues := [], mIssued := 0, taint := false, everTaint := false, readLines := [],
    wroteSp := [], otherSp := [], landed := [], ckpt := none, issued := 0, tlOff := [], tlHigh := [], cut := [],
    books := { faults := [], events := [] }, savedAt := 0 }

/-- A core after a cold reset (R263). -/
def Core.blank : Core :=
  { tokens := 0, ringEnt := 1024, ringGot := 0, unitAt := [], resv := [], tcu := [], suspect := false, tlb := [], outb := [], sliceN := 0, sliceAt := 0,
    curCls := [], sliBusy := [], gated := [], stepOf := none, samples := [], tag := none, sampN := 0, sampSlot := 31,
    gone := [], lastCtx := none }

/-- A TCU context with no command. -/
def TcuCtx.blank : TcuCtx := { issued := 0, cmds := [], faults := [], events := [] }

/-- A die after a cold reset. -/
def Die.blank : Die := { tlb := [], walks := [], temp := 0, drain := none, drainCls := 0, told := none, revAt := 0, budgetAt := 0 }

/-- A core island after a cold reset (R263, Table 1; R271). -/
def Island.blank : Island :=
  { cls := 2, pool := 2, moving := none, oldCls := 2, nextPool := none, ent := 1024, l2b := 1152, farb := 54,
    l2Used := 0, farUsed := 0 }

/-- A command queue after a cold reset (R393, Table 3). -/
def CmdQueue.blank : CmdQueue :=
  { en := false, halt := false, head := 0, tail := 0, ring := 0, rlog := 4, ctx := 0, prio := 7, waiting := false,
    asked := false, verdict := 0, cmd := [], pfNo := none }

/-- A script context when it is created (R287). -/
def Script.blank : Script :=
  { f := [], store := [], pc := 0, st := .idle, wait := none, since := 0, mailbox := [], tl := 0, actx := 0, base := 0, serial := 0,
    cause := 0 }

/-- A port after a cold reset (R281, R298). -/
def Port.blank : Port :=
  { st := .dark, armed := false, owner := 0, drain := none, peerDev := 0, peerPort := 0, reqst := 0, reqno := 0,
    fails := 0, gate := 0, light := false, tried := false, since := 0, crc := 0 }

/-- A collective engine with nothing under way. -/
def Cxe.blank : Cxe := { rx := [], staged := [], latest := [], lastVc := [] }

/-- An empty rind (R358). -/
def Sxe.blank : Sxe := { rind := [], recs := [], extra := 0, warned := false }

/-- An empty matrix queue. -/
def MatQueue.blank : MatQueue := { ops := [], faults := [], events := [] }

/-! ## Getting and changing -/

def gangOf (s : State) (g : Nat) : Gang := SMap.getD s.gangs g Gang.blank
def setGang (s : State) (g : Nat) (G : Gang) : State := { s with gangs := SMap.put s.gangs g G }
def modGang (s : State) (g : Nat) (f : Gang → Gang) : State := setGang s g (f (gangOf s g))
def teamOf (s : State) (t : Nat) : Team := SMap.getD s.teams t Team.blank
def setTeam (s : State) (t : Nat) (T : Team) : State := { s with teams := SMap.put s.teams t T }
def modTeam (s : State) (t : Nat) (f : Team → Team) : State := setTeam s t (f (teamOf s t))
def coreOf (s : State) (c : Nat) : Core := SMap.getD s.cores c Core.blank
def modCore (s : State) (c : Nat) (f : Core → Core) : State := { s with cores := SMap.putD s.cores Core.blank c (f (coreOf s c)) }
def dieOf (s : State) (d : Nat) : Die := SMap.getD s.dies d Die.blank
def modDie (s : State) (d : Nat) (f : Die → Die) : State := { s with dies := SMap.putD s.dies Die.blank d (f (dieOf s d)) }
def islandOf (s : State) (i : Nat) : Island := SMap.getD s.islands i Island.blank
def modIsland (s : State) (i : Nat) (f : Island → Island) : State :=
  { s with islands := SMap.putD s.islands Island.blank i (f (islandOf s i)) }
def queueOf (s : State) (q : Nat) : CmdQueue := SMap.getD s.queues q CmdQueue.blank
def modQueue (s : State) (q : Nat) (f : CmdQueue → CmdQueue) : State :=
  { s with queues := SMap.putD s.queues CmdQueue.blank q (f (queueOf s q)) }
def scriptOf (s : State) (c : Nat) : Script := SMap.getD s.scripts c Script.blank
def modScript (s : State) (c : Nat) (f : Script → Script) : State :=
  { s with scripts := SMap.putD s.scripts Script.blank c (f (scriptOf s c)) }
def portOf (s : State) (p : Nat) : Port := SMap.getD s.ports p Port.blank
def modPort (s : State) (p : Nat) (f : Port → Port) : State :=
  { s with ports := SMap.putD s.ports Port.blank p (f (portOf s p)) }
def cxeOf (s : State) (d : Nat) : Cxe := SMap.getD s.cxes d Cxe.blank
def modCxe (s : State) (d : Nat) (f : Cxe → Cxe) : State := { s with cxes := SMap.putD s.cxes Cxe.blank d (f (cxeOf s d)) }
def sxeOf (s : State) (d : Nat) : Sxe := SMap.getD s.sxes d Sxe.blank
def modSxe (s : State) (d : Nat) (f : Sxe → Sxe) : State := { s with sxes := SMap.putD s.sxes Sxe.blank d (f (sxeOf s d)) }
def matOf (s : State) (p : Nat) : MatQueue := SMap.getD s.matrix p MatQueue.blank
def modMat (s : State) (p : Nat) (f : MatQueue → MatQueue) : State :=
  { s with matrix := SMap.putD s.matrix MatQueue.blank p (f (matOf s p)) }
def tcuOf (s : State) (c x : Nat) : TcuCtx := SMap.getD (coreOf s c).tcu x TcuCtx.blank
def modTcu (s : State) (c x : Nat) (f : TcuCtx → TcuCtx) : State :=
  modCore s c fun C => { C with tcu := SMap.putD C.tcu TcuCtx.blank x (f (tcuOf s c x)) }

/-- The cycles of `n` steps from step `k` on. -/
def sumCycles (c k : Nat) : Nat → Nat
  | 0 => 0
  | n + 1 => sumCycles c k n + Config.stepCycles c (k + n)

/-- CLK.CYCLE of a core (R31): the cycles of its clock since the cold reset (log 3). -/
def cyclesOf (s : State) (c : Nat) : Nat := sumCycles c s.tick0 (s.tick - s.tick0)

/-- A message leaves the device. -/
def send (s : State) (m : Msg) : State := { s with out := s.out ++ [m] }

/-- A message goes to the host; the transport keeps it until it is acknowledged (R392). -/
def toHost (s : State) (m : Msg) : State :=
  { s with out := s.out ++ [m], hostSeq := s.hostSeq + 1,
           hostOut := s.hostOut ++ [{ seq := s.hostSeq, msg := m, sentAt := s.now }] }

/-- Draws a free value (log 4). -/
def drawFree (s : State) : Word × State := (Config.freeWord s.free, { s with free := s.free + 1 })

/-! ## Names by position (R9) -/

/-- The team of a gang: a gang's key is its requester identity without the device field (R350). -/
def teamKey (g : Nat) : Nat := g / 32
/-- A gang's place in team gang order. -/
def gangIdx (g : Nat) : Nat := g % 32
/-- The context of a team. -/
def ctxOfTeam (t : Nat) : Nat := t / 2 ^ 37
/-- The key of a team from its context and number (R351). -/
def mkTeam (ctx number : Nat) : Nat := ctx * 2 ^ 37 + number % 2 ^ 37
/-- The key of gang `i` of a team. -/
def mkGang (t i : Nat) : Nat := t * 32 + i
/-- The die of a core (R9). -/
def dieOfCore (c : Nat) : Nat := c / 80
/-- The core pair of a core (R9). -/
def pairOfCore (c : Nat) : Nat := c / 2
/-- The island of a core (R9). -/
def islandOfCore (c : Nat) : Nat := c / 80 * 8 + c % 80 / 10
/-- The quarter of a slot (R9). -/
def quarterOf (slot : Nat) : Nat := slot / 8
/-- The requester identity of a gang (R350). -/
def identOf (g : Nat) : Word := BitVec.ofNat 64 (Config.deviceId.toNat * 2 ^ 54 + g % 2 ^ 54)
/-- The die whose optical engines hold a port (R14). -/
def dieOfPort (p : Nat) : Nat := p / 8
/-- The gangs of a team that exist, in team gang order. -/
def gangsOf (s : State) (t : Nat) : List Nat :=
  (List.range (teamOf s t).ngang).map (mkGang t) |>.filter fun g => (SMap.find s.gangs g).isSome
/-- Changes every gang of a team. -/
def modTeamGangs (s : State) (t : Nat) (f : Gang → Gang) : State :=
  { s with gangs := s.gangs.map fun e => if teamKey e.1 == t then (e.1, f e.2) else e }
/-- The teams that stand on a core. -/
def teamsOn (s : State) (c : Nat) : List Nat :=
  (s.teams.filter fun e => e.2.core == c && (e.2.st != .saved)).map (·.1)
/-- The gangs that stand on a core. -/
def gangsOn (s : State) (c : Nat) : List Nat := (s.gangs.filter fun e => e.2.core == c).map (·.1)

/-! ## Registers of the management space (R397); the offsets inside each block are the model's (log 8) -/

/-- What a register of the management space reads as before anything is written: the Reset columns of R378 to R388. -/
def mgmtReset (off : Nat) : Word :=
  if 0x1000000 ≤ off && off < 0x1000000 + 4096 * 320 then
    let o := off % 4096
    if o < 0xC0 && o % 24 == 0 then 0x0003FC0000000000#64
    else if 0x100 ≤ o && o < 0x140 && o % 16 == 0 then 0x0300000000000000#64
    else if o == 0x180 then 4096 else 0
  else 0

def mgmtGet (s : State) (off : Nat) : Word := SMap.getD s.mgmt off (mgmtReset off)
def mgmtPut (s : State) (off : Nat) (w : Word) : State := { s with mgmt := SMap.putD s.mgmt (mgmtReset off) off w }

def offMode : Nat := 0x18
def offCtxBase : Nat := 0x10000
def offRootBase : Nat := 0x10008
def offFreeBase : Nat := 0x10010
def offFreeIdx : Nat := 0x10018
def offCoreBlk (c : Nat) : Nat := 0x1000000 + 4096 * c
def offBpCtl (c n : Nat) : Nat := offCoreBlk c + 24 * n
def offBpVal (c n : Nat) : Nat := offCoreBlk c + 24 * n + 8
def offBpPc (c n : Nat) : Nat := offCoreBlk c + 24 * n + 16
def offWpCtl (c n : Nat) : Nat := offCoreBlk c + 0x100 + 16 * n
def offWpBase (c n : Nat) : Nat := offCoreBlk c + 0x108 + 16 * n
def offDbg (c : Nat) : Nat := offCoreBlk c + 0x140
def offSkid (c q : Nat) : Nat := offCoreBlk c + 0x148 + 8 * q
def offStepSt (c : Nat) : Nat := offCoreBlk c + 0x168
def offMissed (c : Nat) : Nat := offCoreBlk c + 0x170
def offSamp (c : Nat) : Nat := offCoreBlk c + 0x180
def offSampRing (c : Nat) : Nat := offCoreBlk c + 0x188
def offSampIdx (c : Nat) : Nat := offCoreBlk c + 0x190
def offPmSel (c n : Nat) : Nat := offCoreBlk c + 0x1A0 + 8 * n
def offPmc (c n : Nat) : Nat := offCoreBlk c + 0x1E0 + 8 * n
def offHealth (c : Nat) : Nat := 0x201000 + 8 * c
def offErrCnt (d : Nat) : Nat := 0x202000 + 8 * d
def offRindExt (d : Nat) : Nat := 0x400000 + 8 * d
def offCave (c : Nat) : Nat := 0x2000000 + 64 * c

/-- Bit `f` of the mode block: host-assisted (R394). -/
def hostMode (s : State) (f : Nat) : Bool := bitOf (mgmtGet s offMode).toNat f

/-- Adds `n` to a counter of the management space. -/
def mgmtAdd (s : State) (off n : Nat) : State := mgmtPut s off (mgmtGet s off + BitVec.ofNat 64 n)

/-- Counts `n` of event `code` on the performance counters of core `c` that select it (R389). -/
def pmcCount (s : State) (c code n : Nat) : State :=
  (List.range 8).foldl (fun s i =>
    let sel := (mgmtGet s (offPmSel c i)).toNat
    if bitOf sel 63 && sel % 16 == code then mgmtAdd s (offPmc c i) n else s) s

/-! ## Registers of a gang (R21) -/

def vKey (reg lane : Nat) : Nat := 32 * reg + lane
def vGet (G : Gang) (reg lane : Nat) : Word := SMap.getD G.v (vKey reg lane) 0
def vPut (G : Gang) (reg lane : Nat) (w : Word) : Gang := { G with v := SMap.putD G.v 0 (vKey reg lane) w }
def sGet (G : Gang) (reg : Nat) : Word := SMap.getD G.sr reg 0
def sPut (G : Gang) (reg : Nat) (w : Word) : Gang := { G with sr := SMap.putD G.sr 0 reg w }
/-- p0 to p6 as held; p7 reads 1 (R21). -/
def pGet (G : Gang) (p lane : Nat) : Bool := if p = 7 then true else hasLane (SMap.getD G.p p 0) lane
/-- A write to p7 is ignored (R21). -/
def pPut (G : Gang) (p lane : Nat) (b : Bool) : Gang :=
  if p = 7 then G else
    let m := SMap.getD G.p p 0
    { G with p := SMap.putD G.p 0 p (if b then m ||| laneBit lane else m &&& ~~~(laneBit lane)) }
def qKey (lane q e : Nat) : Nat := (lane * 8 + q) * 8 + e
def qGet (G : Gang) (lane q e : Nat) : W32 := SMap.getD G.q (qKey lane q e) 0
def qPut (G : Gang) (lane q e : Nat) (w : W32) : Gang := { G with q := SMap.putD G.q 0 (qKey lane q e) w }
def xGet (G : Gang) (k lane : Nat) : Word := SMap.getD G.x (vKey k lane) 0

/-- A state register that is held as such (R31); the others are derived. -/
def srGet (G : Gang) (n : Nat) : Word := SMap.getD G.sreg n 0
def srPut (G : Gang) (n : Nat) (w : Word) : Gang := { G with sreg := SMap.putD G.sreg 0 n w }

def rVoteLast : Nat := 0x080
def rVoteUni : Nat := 0x081
def rVoteDiv : Nat := 0x082
def rLoopCount : Nat := 0x0C0
def rLoopStart : Nat := 0x0C1
def rLoopEnd : Nat := 0x0C2
def rLoopCount1 : Nat := 0x0C4
def rLoopStart1 : Nat := 0x0C5
def rLoopEnd1 : Nat := 0x0C6
def rLoopDepth : Nat := 0x0C7
def rTsPc : Nat := 0x100
def rTsRpc : Nat := 0x101
def rTsCause : Nat := 0x102
def rTsLane : Nat := 0x103
def rTsAddr : Nat := 0x104
def rTsInfo : Nat := 0x105
def rTsTl : Nat := 0x106
def rTsVec : Nat := 0x107
def rFpMode : Nat := 0x140
def rSliLx : Nat := 0x141
def rEvt (e : Nat) : Nat := 0x180 + e
def rEvtCnt (e : Nat) : Nat := 0x190 + e
def rTokPrice : Nat := 0x1C0
def rTokWait : Nat := 0x1C1
def rTokSpent : Nat := 0x1C2
def rSerNext : Nat := 0x200
def rCave : Nat := 0x240

/-- Event classes by their numbers (R81). -/
def Evt.num : Evt → Nat
  | .inv => 0 | .dz => 1 | .ovf => 2 | .unf => 3 | .inx => 4 | .sat => 5 | .lvc => 6 | .idz => 7 | .bfx => 8

/-- Codes of causes (R329, Table 1). -/
def Cause.code : Cause → Nat
  | .illenc => 0x01 | .illchain => 0x02 | .pagef => 0x03 | .prot => 0x04 | .mmioatm => 0x05 | .fmtst => 0x06
  | .rfue => 0x07 | .spue => 0x08 | .pipeerr => 0x09 | .evtthr => 0x0A | .swtrap => 0x0B | .bkpt => 0x0C
  | .watch => 0x0D | .stepped => 0x0E | .circuit => 0x0F | .copyf => 0x10 | .replay => 0x11 | .indoubt => 0x12
  | .attempt => 0x13

/-- The cause that a refusal's code names; PROT for a code that no refusal carries (R357). -/
def Cause.ofCode (n : Nat) : Cause :=
  match n with
  | 0x03 => .pagef | 0x05 => .mmioatm | 0x06 => .fmtst | 0x10 => .copyf | 0x11 => .replay | 0x12 => .indoubt | _ => .prot

/-- Codes of roles (R31, ID.ROLE). -/
def Role.code : Role → Nat
  | .general => 0 | .copy => 1 | .matrix => 2 | .epilogue => 3 | .worker => 4

def Role.ofCode (n : Nat) : Role :=
  match n with
  | 1 => .copy | 2 => .matrix | 3 => .epilogue | 4 => .worker | _ => .general

/-- A load awaits data from another device. -/
def Gang.loading (G : Gang) : Bool := G.loads.any fun p => p.got.isNone && p.no.isNone

/-! ## Threads and runs (R232) -/

/-- Thread `l`; an exited thread has no entry. -/
def thr (G : Gang) (l : Nat) : Option Thread := SMap.find G.threads l

/-- The lanes whose thread has not exited. -/
def liveLanes (G : Gang) : W32 := G.threads.foldl (fun m e => m ||| laneBit e.1) 0

/-- Whether thread `l` may issue: not held and not waiting, and in handler mode a thread of the handler's run
(R257, R166, R331). -/
def mayIssue (G : Gang) (l : Nat) : Bool :=
  match thr G l with
  | none => false
  | some t => t.wait == .none && (match G.handler with | none => !t.held | some m => hasLane m l)

/-- The threads at `pc` that may issue. -/
def runAt (G : Gang) (pc : Word) : W32 :=
  G.threads.foldl (fun m e => if e.2.pc == pc && mayIssue G e.1 then m ||| laneBit e.1 else m) 0

/-- The PCs of the runs that may issue, lowest first (R232). -/
def runPcs (G : Gang) : List Word :=
  (G.threads.foldl (fun m e => if mayIssue G e.1 then SMap.put m e.2.pc.toNat e.2.pc else m) ([] : SMap Word)).map (·.2)

/-- A gang's loads are all performed: none may take bytes read ahead, or read its bytes again (R159). -/
def closeReads (G : Gang) : Gang := { G with early := [], openRds := [] }

/-- Threads changed. -/
def modThreads (G : Gang) (m : W32) (f : Thread → Thread) : Gang :=
  { G with threads := G.threads.map fun e => if hasLane m e.1 then (e.1, f e.2) else e }

/-- Threads moved to `pc` (R246). -/
def moveThreads (G : Gang) (m : W32) (pc : Word) : Gang := modThreads G m fun t => { t with pc := pc }

/-- Threads that leave the PC table (R232, R259). -/
def dropThreads (G : Gang) (m : W32) : Gang := { G with threads := G.threads.filter fun e => !hasLane m e.1 }

/-- The matrix timeline's, a TCU timeline's value: one below the lowest incomplete number, or the last number (R170). -/
def tlValue (issued : Nat) (open_ : List Nat) : Nat := match open_ with | [] => issued | n :: t => t.foldl Nat.min n - 1

end Sys2Proof.Machine
end

