-- ==== Sys2Proof/Machine/Xlate.lean ====
section
/-!
DEFINITION. Addresses: the generic windows (R151 to R153), page tables and TLBs (R319 to R321), and what a page grants.
-/
namespace Sys2Proof.Machine

/-- A little-endian dword of physical memory. -/
def mem64 (s : State) (a : Nat) : Nat := leNat (Memory.readN s.mem a 8)

/-! ## Leaves (R319, Table 3) -/

def leafV (e : Word) : Bool := e.getLsbD 63
def leafDz (e : Word) : Bool := e.getLsbD 62
def leafPlace (e : Word) : Nat := Word.fld e 60 2
def leafFmt (e : Word) : Nat := Word.fld e 58 2
def leafRo (e : Word) : Bool := e.getLsbD 55
def leafX (e : Word) : Bool := e.getLsbD 54
def leafMmio (e : Word) : Bool := e.getLsbD 53
def leafAtm (e : Word) : Bool := e.getLsbD 52
def leafSys (e : Word) : Bool := e.getLsbD 51
def leafBig (e : Word) : Bool := e.getLsbD 50
def leafDev (e : Word) : Nat := Word.fld e 40 10
def leafFrame (e : Word) : Nat := Word.fld e 12 28

/-- A leaf of level `level` whose reserved bits are as R319 asks. -/
def leafOk (e : Word) (level : Nat) : Bool :=
  Word.fld e 0 12 == 0 && leafFmt e != 3 && Word.fld e 56 2 == 0 && (leafPlace e == 3 || leafDev e == 0)
    && (if level == 1 then leafFrame e % 512 == 0 else !leafBig e)

/-- An interior entry whose other bits are 0. -/
def interiorOk (e : Word) : Bool := Word.fld e 0 12 == 0 && Word.fld e 44 19 == 0

/-- How a walk ends (R319): a leaf and whether it is a 32 MiB leaf, or no entry with the level and the address of the
entry. -/
inductive Walk where
  | leaf (e : Word) (big : Bool)
  | absent (e : Word) (level : Nat) (at_ : Nat)
  deriving DecidableEq, Repr

/-- The walk from table `t`, `level` levels above the lowest (R319). -/
def walkFrom (s : State) (va : Nat) : Nat → Nat → Walk
  | level, t =>
    let idx := if level == 3 then fld va 45 12 else if level == 2 then fld va 34 11 else if level == 1 then fld va 25 9
               else fld va 16 9
    let a := t + 8 * idx
    let e := BitVec.ofNat 64 (mem64 s a)
    match level with
    | 0 => if leafV e && leafOk e 0 then .leaf e false else .absent e 0 a
    | l + 1 =>
      if !leafV e then .absent e (l + 1) a
      else if l == 0 && leafBig e then (if leafOk e 1 then .leaf e true else .absent e 1 a)
      else if !interiorOk e then .absent e (l + 1) a
      else walkFrom s va l (Word.fld e 12 32 * 4096)

/-- ROOT of a context (R316). -/
def rootOf (s : State) (ctx : Nat) : Nat := mem64 s ((mgmtGet s offRootBase).toNat + 8 * ctx)

/-- The walk of a context's tables. -/
def walk (s : State) (ctx va : Nat) : Walk := walkFrom s va 3 (rootOf s ctx)

/-- The entries of a table with `n` places at `t` that have V set: such an entry's highest byte is listed. -/
def tableEntries (s : State) (t n : Nat) : List (Nat × Word) :=
  (s.mem.filter fun e => t ≤ e.1 && e.1 < t + 8 * n && (e.1 - t) % 8 == 7).filterMap fun e =>
    let w := BitVec.ofNat 64 (mem64 s (e.1 - 7))
    if leafV w then some ((e.1 - t) / 8, w) else none

/-- The virtual pages below a table at which one of the context's own leaves maps a frame, with the leaf (R319). -/
def mapsFrame (s : State) (frame : Nat) : Nat → Nat → Nat → List (Nat × Word)
  | 0, t, va => (tableEntries s t 512).filterMap fun e =>
      if leafOk e.2 0 && leafPlace e.2 != 3 && leafFrame e.2 == frame then some (va + e.1 * 2 ^ 16, e.2) else none
  | 1, t, va => (tableEntries s t 512).flatMap fun e =>
      if leafBig e.2 then
        (if leafOk e.2 1 && leafPlace e.2 != 3 && leafFrame e.2 / 512 == frame / 512
         then [(va + e.1 * 2 ^ 25 + frame % 512 * 2 ^ 16, e.2)] else [])
      else if interiorOk e.2 then mapsFrame s frame 0 (Word.fld e.2 12 32 * 4096) (va + e.1 * 2 ^ 25) else []
  | l + 2, t, va =>
      (tableEntries s t (if l == 0 then 2048 else 4096)).flatMap fun e =>
        if interiorOk e.2 then
          mapsFrame s frame (l + 1) (Word.fld e.2 12 32 * 4096) (va + e.1 * (if l == 0 then 2 ^ 34 else 2 ^ 45))
        else []

/-- The cached leaf for an address (R321): an entry matches only its own context. -/
def tlbFind (tlb : List TlbEnt) (ctx va : Nat) : Option (Word × Bool) :=
  (tlb.find? fun e => e.ctx == ctx && (if e.big then e.page == va / 2 ^ 25 else e.page == va / 2 ^ 16)).map
    fun e => (e.leaf, e.big)

/-- Translation at core `core` (R321): the core TLB, the die TLB, then a walk. -/
def leafAt (s : State) (core ctx va : Nat) : Walk :=
  match tlbFind (coreOf s core).tlb ctx va with
  | some (e, b) => .leaf e b
  | none =>
    match tlbFind (dieOf s (dieOfCore core)).tlb ctx va with
    | some (e, b) => .leaf e b
    | none => walk s ctx va

/-- The physical address that a leaf gives (R319). -/
def leafPhys (e : Word) (big : Bool) (va : Nat) : Nat :=
  leafFrame e * 2 ^ 16 + (if big then va % 2 ^ 25 else va % 2 ^ 16)

/-- Kinds of access (R319, R325): 0 read, 1 write, 2 fetch, 3 atomic, 4 engine read, 5 engine write. -/
abbrev accRead : Nat := 0
abbrev accWrite : Nat := 1
abbrev accFetch : Nat := 2
abbrev accAtomic : Nat := 3
abbrev accEngRead : Nat := 4
abbrev accEngWrite : Nat := 5
/-- An atomic read: it needs ATM and does not write. -/
abbrev accAtomicLd : Nat := 6
/-- A phase barrier's update in global memory: it needs write permission and no ATM. -/
abbrev accBarrier : Nat := 7

/-- Why a page refuses an access, by its leaf (R319, R320, R164, R327); `sysOk` marks the Ectil's own paths. -/
def leafRefuses (e : Word) (kind : Nat) (sysOk : Bool) : Option Cause :=
  if leafSys e && !sysOk then some .prot
  else if kind == accFetch then (if leafMmio e || !leafX e then some .prot else none)
  else if kind == accAtomic then
    if leafMmio e then some .mmioatm else if leafRo e || !leafAtm e then some .prot else none
  else if kind == accAtomicLd then
    if leafMmio e then some .mmioatm else if leafAtm e then none else some .prot
  else if kind == accBarrier then
    if leafMmio e then some .mmioatm else if leafRo e then some .prot else none
  else if kind == accWrite then (if leafRo e then some .prot else none)
  else if kind == accEngWrite then (if leafRo e || leafMmio e then some .prot else none)
  else if kind == accEngRead then (if leafMmio e then some .prot else none)
  else none

/-- The place of a global byte for an access from a core (R319, R323, R328). -/
def globalByte (s : State) (core ctx va kind lane field : Nat) (sysOk : Bool) : Chk Loc :=
  match leafAt s core ctx va with
  | .absent .. => .error (.page (BitVec.ofNat 64 va) kind lane field)
  | .leaf e big =>
    match leafRefuses e kind sysOk with
    | some c => .error (.bad c field 0 lane (BitVec.ofNat 64 va))
    | none =>
      let a := leafPhys e big va
      if leafPlace e == 3 then .ok (.remote (leafDev e) ctx a) else .ok (.phys a)

/-! ## Windows (R151) -/

/-- Where a generic address falls. -/
inductive Window where
  | global (va : Nat)
  | priv (off : Nat)
  | own (off : Nat)
  | pair (off : Nat)
  | bad
  deriving DecidableEq, Repr

/-- The window of a generic address (R151, Table 1). -/
def windowOf (va : Word) : Window :=
  let a := va.toNat
  if a < 0x01F0000000000000 then .global a
  else if 0x01FE000000000000 ≤ a && a < 0x01FF000000000000 then .priv (a - 0x01FE000000000000)
  else if 0x01FF000000000000 ≤ a && a < 0x01FF800000000000 then .own (a - 0x01FF000000000000)
  else if 0x01FF800000000000 ≤ a && a < 0x0200000000000000 then .pair (a - 0x01FF800000000000)
  else .bad

/-- The place of byte `off` of the team's own scratchpad (R151, R175). -/
def ownByte (T : Team) (off field lane : Nat) (va : Word) : Chk Loc :=
  if off < T.spSize then .ok (.spad (T.core * 2 ^ 18 + T.spBase + off)) else .error (prot field va lane)

/-- The place of byte `off` of the partner team's scratchpad (R153, R175). -/
def pairByte (s : State) (T : Team) (off field lane : Nat) (va : Word) : Chk Loc :=
  match T.partner with
  | none => .error (prot field va lane)
  | some p => ownByte (teamOf s p) off field lane va

/-- The private block's global address of an offset (R318). -/
def privAddr (T : Team) (gi lane off : Nat) : Nat := T.prBase.toNat + (32 * gi + lane) * T.prSize + off

/-- The place of one byte of a generic address, as the named lane of a gang presents it (R151, R152, R318, R320). -/
def genByte (s : State) (g lane : Nat) (va : Word) (kind field : Nat) : Chk Loc :=
  let T := teamOf s (teamKey g)
  match windowOf va with
  | .bad => .error (prot field va lane)
  | .own off => ownByte T off field lane va
  | .pair off => pairByte s T off field lane va
  | .priv off =>
    if off < T.prSize then
      match globalByte s T.core T.ctx (privAddr T (gangIdx g) lane off) kind lane field true with
      | .error (.bad c f b l _) => .error (.bad c f b l va)
      | .error (.page _ k l f) => .error (.page va k l f)
      | r => r
    else .error (prot field va lane)
  | .global a => globalByte s T.core T.ctx a kind lane field false

/-- The places of `n` bytes from a generic address; the first that fails is the lowest inaccessible byte (R177). -/
def genBytes (s : State) (g lane : Nat) (va : Word) (kind field : Nat) : Nat → Chk (List Loc)
  | 0 => .ok []
  | n + 1 => do
    let l ← genByte s g lane va kind field
    let t ← genBytes s g lane (va + 1) kind field n
    .ok (l :: t)

/-- The places of `n` bytes from a scratchpad offset; `pairSp` names the partner's scratchpad (R175). -/
def spadBytes (s : State) (g lane : Nat) (off : Word) (pairSp : Bool) (field : Nat) : Nat → Chk (List Loc)
  | 0 => .ok []
  | n + 1 => do
    let T := teamOf s (teamKey g)
    let l ← if pairSp then pairByte s T off.toNat field lane off else ownByte T off.toNat field lane off
    let t ← spadBytes s g lane (off + 1) pairSp field n
    .ok (l :: t)

/-- The leaf behind a generic global address, when there is one. -/
def genLeaf (s : State) (g lane : Nat) (va : Word) : Option Word :=
  let T := teamOf s (teamKey g)
  match windowOf va with
  | .global a => match leafAt s T.core T.ctx a with | .leaf e _ => some e | _ => none
  | .priv off => match leafAt s T.core T.ctx (privAddr T (gangIdx g) lane off) with | .leaf e _ => some e | _ => none
  | _ => none

/-! ## Placement (R12, R154) -/

/-- Where a frame stands: without a placement of its own, it is homed on die `frame mod 4`, far only (log 7). -/
def placeOf (s : State) (frame : Nat) : Placement := SMap.getD s.place frame { home := frame % 4, res := 0, dest := 0 }

/-- The home die of a physical address. -/
def homeDie (s : State) (a : Nat) : Nat := (placeOf s (a / 2 ^ 16)).home

/-! ## Context descriptors and page faults (R316, R323 to R325) -/

/-- The physical address of a context's descriptor. -/
def ctxDesc (s : State) (ctx : Nat) : Nat := (mgmtGet s offCtxBase).toNat + 64 * ctx

/-- A field of a context descriptor. -/
def ctxField (s : State) (ctx lo n : Nat) : Nat := fld (leNat (Memory.readN s.mem (ctxDesc s ctx) 64)) lo n

/-- Changes a field of `n` bytes of a context descriptor. -/
def ctxPut (s : State) (ctx byteOff n x : Nat) : State :=
  { s with mem := Memory.writeN s.mem (ctxDesc s ctx + byteOff) (leBytes n x) }

/-- Zero bytes, as many as a page holds, written from `a` on. -/
def zeroPage (m : List Host.Cell) (a : Nat) : List Host.Cell :=
  m.filter fun e => e.1 < a || a + 65536 ≤ e.1

/-- What is kept of the lines of a frame, once it has been written with zeros as a whole (R324, R336). -/
def otherLines (frame : Nat) (m : SMap Nat) : SMap Nat := m.filter fun e => e.1 / 1024 != frame

/-- The walker's own service of a DZ fault in hardware mode (R324): a frame of the free frame list, zeroed, which ends what its
lines held of poison, and the leaf written with V and FRAME. `none` where the fault is refused. -/
def zeroFill (s : State) (ctx va : Nat) : Option State :=
  match walk s ctx va with
  | .absent e 0 a =>
    if leafDz e && !leafV e && !leafBig e && leafOk e 0 then
      let idx := mgmtGet s offFreeIdx
      let head := Word.fld idx 0 32
      let tail := Word.fld idx 32 32
      if head == tail then none
      else
        let frame := mem64 s ((mgmtGet s offFreeBase).toNat + 8 * head) % 2 ^ 28
        let leaf := setFld (setFld e.toNat 63 1 1) 12 28 frame
        let s := mgmtPut s offFreeIdx (BitVec.ofNat 64 (setFld idx.toNat 0 32 (head + 1)))
        some { s with mem := Memory.writeN (zeroPage s.mem (frame * 2 ^ 16)) a (leBytes 8 leaf),
                      span := otherLines frame s.span, poisonL2 := otherLines frame s.poisonL2,
                      poisonFar := otherLines frame s.poisonFar }
    else none
  | _ => none

/-- A page fault of a master in host-assisted mode (R325): it shares the identifier of a message outstanding for the
page, or a message goes to the host. -/
def raisePageFault (s : State) (ctx va kind master : Nat) : Nat × State :=
  match s.faultsOut.find? (fun f => f.ctx == ctx && f.page == va / 2 ^ 16) with
  | some f => (f.id, { s with pfWaiters := s.pfWaiters ++ [(f.id, master)] })
  | none =>
    let id := s.nextPf
    let s := { s with nextPf := (id + 1) % 2 ^ 16, faultsOut := s.faultsOut ++ [{ id := id, ctx := ctx, page := va / 2 ^ 16 }],
                      pfWaiters := s.pfWaiters ++ [(id, master)] }
    let code := if 6 ≤ kind then accAtomic else if kind == accEngWrite then accEngRead else kind
    (id, toHost s (.notify 0x04 [id, ctx, code, master] [BitVec.ofNat 64 va]))

end Sys2Proof.Machine
end

