-- ==== Sys2Proof/Machine/Mem.lean ====
section
/-!
DEFINITION. Loads, the store queue and its way to memory, checkpoints and taint, watchpoints and stops, and phase
barriers (R155, R158, R159, R167, R168, R336 to R341, R381 to R385).
-/
namespace Sys2Proof.Machine

/-! ## Stops (R383 to R385) -/

/-- The cores of the stop group of core `c` (R384). -/
def stopGroup (s : State) (c : Nat) : List Nat :=
  match Word.fld (mgmtGet s (offDbg c)) 61 2 with
  | 0 => [c / 2 * 2, c / 2 * 2 + 1]
  | 1 => (List.range 10).map (c / 10 * 10 + ·)
  | 2 => (List.range 80).map (c / 80 * 80 + ·)
  | _ => List.range 320

/-- The STOPPED bit of a slot (R383, Table 3). -/
def setStopped (s : State) (c slot : Nat) (b : Bool) : State :=
  mgmtPut s (offDbg c) (BitVec.ofNat 64 (setFld (mgmtGet s (offDbg c)).toNat slot 1 (b2n b)))

/-- A trigger on core `c` (R384, R385): the stop sets out for every core of the group, with the issue counts from which
the skids are taken; in host-assisted mode its record goes to the host. -/
def trigger (s : State) (c ctx : Nat) (rec_ : FaultRec) (told : Bool) : State :=
  let grp := stopGroup s c
  let base := (s.gangs.filter fun e => grp.contains e.2.core).map fun e => (e.1, e.2.issuedN)
  let s := if !told && hostMode s 6 then toHost s (.fault 0x06 rec_) else s
  { s with stops := s.stops ++ [{ cores := grp, ctx := ctx, fault := rec_, base := base, told := told || hostMode s 6 }] }

/-- The record of a stop (R385). -/
def stopRec (s : State) (g : Option Nat) (pc addr : Word) (lane cause unit origin : Nat) : FaultRec :=
  let G := (g.map (gangOf s)).getD Gang.blank
  let T := (g.map fun g => teamOf s (teamKey g)).getD Team.blank
  { pc := pc, addr := addr, tl := 0, team := T.index, core := (g.map fun _ => G.core).getD 0x1FF, gang := G.slot,
    dev := Config.deviceId.toNat, ctx := T.ctx, lane := lane, field := 0, sub := 0,
    cause := if cause == 0 then .bkpt else .watch, master := 0, unit := 0, restart := false, dbl := false,
    extra := BitVec.ofNat 64 (unit * 2 ^ 0 + origin * 2 ^ 8) }

/-- The cores and numbers of the watchpoints that have been written. -/
def watchList (s : State) : List (Nat × Nat) :=
  s.mgmt.filterMap fun e =>
    let o := e.1 - 0x1000000
    if 0x1000000 ≤ e.1 && o < 4096 * 320 && 0x100 ≤ o % 4096 && o % 4096 < 0x140 && o % 16 == 0
    then some (o / 4096, (o % 4096 - 0x100) / 16) else none

/-- Whether watchpoint `n` of core `c` matches an access of kind `k` (0 read, 1 write, 2 atomic) by a master of
context `ctx` at address `va` to the bytes at `locs` (R382). -/
def watchMatches (s : State) (c n k ctx : Nat) (va : Word) (locs : List Loc) : Bool :=
  let ctl := (mgmtGet s (offWpCtl c n)).toNat
  let len := 2 ^ fld ctl 56 4
  let base := (mgmtGet s (offWpBase c n)).toNat / len * len
  bitOf ctl 63 && bitOf (mgmtGet s (offDbg c)).toNat 63
    && (if k == 0 then bitOf ctl 55 else if k == 1 then bitOf ctl 54 else bitOf ctl 53)
    && (if fld ctl 61 2 == 1 then
          locs.any fun l => match l with
            | .spad a => a / 2 ^ 18 == c && base ≤ a % 2 ^ 18 && a % 2 ^ 18 < base + len
            | _ => false
        else (teamsOn s c).any (fun t => ctxOfTeam t == ctx) &&
          (List.range locs.length).any fun i => base ≤ va.toNat + i && va.toNat + i < base + len &&
            match locs[i]? with | some (.spad _) => false | _ => true)

/-- A performed access against every watchpoint (R382, R387): the lowest unit of a core stops its group; on a core that
is stopped already the match only counts. `mk` gives the record for a core and a unit. -/
def watchBy (s : State) (k ctx : Nat) (va : Word) (locs : List Loc) (mk : State → Nat → Nat → FaultRec) : State :=
  (watchList s).foldl (fun s cn =>
    let c := cn.1
    if watchMatches s c cn.2 k ctx va locs then
      if Word.fld (mgmtGet s (offDbg c)) 0 32 != 0 || s.stops.any (fun t => t.cores.contains c)
      then mgmtAdd s (offMissed c) 1
      else trigger s c ctx (mk s c (8 + cn.2)) false
    else s) s

/-- An access of a gang of this device, or of an engine, against every watchpoint (R382, R385). -/
def watchCheck (s : State) (g : Option Nat) (k ctx lane : Nat) (pc va : Word) (locs : List Loc) : State :=
  watchBy s k ctx va locs fun s c unit =>
    let gc := (g.map fun g => (gangOf s g).core).getD 0x1FF
    let origin := if g.isNone then 3 else if gc == c then 0 else if gc / 2 == c / 2 then 1 else 2
    stopRec s g pc va lane 1 unit origin

/-! ## Checkpoints, taint and the brine (R338, R339, R341) -/

/-- The team whose allotment holds a scratchpad byte. -/
def spadOwner (s : State) (a : Nat) : Option Nat :=
  (s.teams.find? fun e => e.2.st != .saved && e.2.core == a / 2 ^ 18 && e.2.spBase ≤ a % 2 ^ 18
    && a % 2 ^ 18 < e.2.spBase + e.2.spSize).map (·.1)

/-- The bytes of a team's allotment. -/
def spadOf (s : State) (T : Team) : SMap Byte :=
  s.spad.filter fun e => T.core * 2 ^ 18 + T.spBase ≤ e.1 && e.1 < T.core * 2 ^ 18 + T.spBase + T.spSize

/-- The interval is tainted (R341); PIN falls, since the team is no longer flushable (R354). -/
def taintTeam (s : State) (t : Nat) : State :=
  let s := modTeam s t fun T => { T with taint := true, everTaint := true }
  modTeamGangs s t fun G => { G with pin := false }

/-- What a checkpoint leaves of a team's engine books: events taken before it are gone for good, and faults told before it
stay told (R84, R340). -/
def sealFault (t : Nat) (f : EngFault) : EngFault :=
  { f with reported := f.fresh.filter (fun g => teamKey g == t) ++ f.reported, fresh := f.fresh.filter fun g => teamKey g != t }
def sealEvents (t : Nat) (es : List DoneEvents) : List DoneEvents := es.filter fun e => teamKey e.gang != t || !e.taken

/-- The engine books of a team at its checkpoint. -/
def sealBooks (s : State) (t : Nat) : State :=
  let T := teamOf s t
  { s with
    cores := s.cores.map fun e => if e.1 == T.core then
      (e.1, { e.2 with tcu := e.2.tcu.map fun x =>
        (x.1, { x.2 with faults := x.2.faults.map (sealFault t), events := sealEvents t x.2.events }) }) else e,
    matrix := s.matrix.map fun e => if e.1 == pairOfCore T.core then
      (e.1, { e.2 with faults := e.2.faults.map fun f => (f.1, sealFault t f.2),
                       events := e.2.events.filter fun d => teamKey d.2.gang != t || !d.2.taken }) else e }

/-- A checkpoint of a team (R338): its state is kept, and the brine is emptied. -/
def takeCkpt (s : State) (t : Nat) : State :=
  let s := sealBooks s t
  let s := modTeamGangs s t fun G =>
    { closeReads G with ckSerial := BitVec.ofNat 32 (srGet G rSerNext).toNat, wroteV := [], wroteS := [], wroteQ := [] }
  let T := teamOf s t
  let ck : Ckpt :=
    { gangs := s.gangs.filter fun e => teamKey e.1 == t, spad := spadOf s T,
      tcu := (coreOf s T.core).tcu.map fun e => (e.1, e.2.issued), mat := T.mIssued, items := T.queues,
      bad := s.poisonSp }
  let T' : Team := { T with ckpt := some ck, taint := false, readLines := [], wroteSp := [], otherSp := [], landed := [] }
  setTeam s t T'

/-- A write of a scratchpad byte by team `t`, or by another writer (R339). -/
def noteSpad (s : State) (by_ : Option Nat) (a : Nat) : State :=
  match spadOwner s a with
  | none => s
  | some o =>
    let k := a / 16;
    if by_ == some o then
      let s := modTeam s o fun T => { T with wroteSp := SMap.put T.wroteSp k 1 }
      if (SMap.find (teamOf s o).otherSp k).isSome then taintTeam s o else s
    else
      let s := modTeam s o fun T => { T with otherSp := SMap.put T.otherSp k 1 }
      if (SMap.find (teamOf s o).wroteSp k).isSome then taintTeam s o else s

/-- The number of a global line: of this device's memory, or of another device's frame. -/
def lineOf : Loc → Option Nat
  | .phys a => some (a / 64)
  | .remote d _ a => some ((d + 1) * 2 ^ 50 + a / 64)
  | .spad _ => none

/-- A plain read of global lines by a team (R341). -/
def noteReads (s : State) (t : Nat) (locs : List Loc) : State :=
  let ls := locs.filterMap lineOf
  match ls with
  | [] => s
  | _ => modTeam s t fun T => { T with readLines := ls.foldl (fun r l => if r.contains l then r else l :: r) T.readLines }

/-- A plain store by a team to global lines: it taints the interval when it stores to a line it read (R341). -/
def noteStores (s : State) (t : Nat) (locs : List Loc) : State :=
  if locs.any (fun l => match lineOf l with | some k => (teamOf s t).readLines.contains k | none => false)
  then taintTeam s t else s

/-! ## Bytes at their places -/

/-- The byte held at a place of this device. DESIGN CHOICE (log 55): a frame at or above 1,536 GiB, past far memory (R12), which a
leaf's FRAME can name, holds bytes as any other. -/
def locRead (s : State) : Loc → Byte
  | .phys a => Memory.read s.mem a
  | .spad a => SMap.getD s.spad a 0
  | .remote .. => 0

/-- A byte written at a place of this device. -/
def locWrite (s : State) (l : Loc) (b : Byte) : State :=
  match l with
  | .phys a => { s with mem := Memory.write s.mem a b, span := SMap.erase s.span (a / 64) }
  | .spad a => { s with spad := SMap.putD s.spad 0 a b }
  | .remote .. => s

/-- Bytes written at their places. -/
def locWrites (s : State) (bs : List (Loc × Byte)) : State := bs.foldl (fun s e => locWrite s e.1 e.2) s

/-- The poison that a read of a place consumes: the SUB of SPUE (R332's storage, R336 Table 3). -/
def locPoison (s : State) : Loc → Option Nat
  | .spad a => if (SMap.find s.poisonSp (a / 16)).isSome then some 1 else none
  | .phys a => if (SMap.find s.poisonL2 (a / 64)).isSome then some 3
               else if (SMap.find s.poisonFar (a / 64)).isSome then some 4 else none
  | .remote .. => none

/-- Whether `bs` covers the `n` bytes of granule `k` in the space that `f` selects. -/
def coversGranule (bs : List (Loc × Byte)) (f : Loc → Option Nat) (n k : Nat) : Bool :=
  (List.range n).all fun i => bs.any fun e => f e.1 == some (k * n + i)

def physOf : Loc → Option Nat | .phys a => some a | _ => none
def spadIdx : Loc → Option Nat | .spad a => some a | _ => none

/-- Poison that a write of whole granules clears (R337). -/
def clearPoison (s : State) (bs : List (Loc × Byte)) : State :=
  { s with poisonSp := s.poisonSp.filter fun e => !coversGranule bs spadIdx 16 e.1,
           poisonL2 := s.poisonL2.filter fun e => !coversGranule bs physOf 64 e.1,
           poisonFar := s.poisonFar.filter fun e => !coversGranule bs physOf 64 e.1 }

/-! ## The store queue (R158, R159) -/

/-- The youngest byte for a place in a queue, oldest first. -/
def queuedByte (q : List StoreEnt) (l : Loc) : Option Byte :=
  q.foldl (fun r e => e.bytes.foldl (fun r p => if p.1 == l then some p.2 else r) r) none

/-- The byte that a load of gang `g` returns (R158): its own queue, then the stores visible in its core, then the
place itself; `none` for a byte of another device that neither holds. -/
def gangByte (s : State) (g : Nat) (l : Loc) : Option Byte :=
  let G := gangOf s g
  match queuedByte G.storeQ l with
  | some b => some b
  | none =>
    match queuedByte (coreOf s G.core).outb l with
    | some b => some b
    | none => match l with | .remote .. => none | _ => some (locRead s l)

/-- The bytes that a load of gang `g` returns. -/
def gangBytes (s : State) (g : Nat) : List Loc → Option (List Byte)
  | [] => some []
  | l :: t => do
    let b ← gangByte s g l
    let r ← gangBytes s g t
    some (b :: r)

/-- Messages that carry stored bytes to another device: neighbours of one device go together (R328). -/
def remoteRuns : List (Loc × Byte) → List (Nat × Nat × Nat × List Byte)
  | [] => []
  | (.remote d c a, b) :: t =>
    match remoteRuns t with
    | (d', c', a', bs) :: r => if d' == d && c' == c && a' == a + 1 then (d, c, a, b :: bs) :: r
                               else (d, c, a, [b]) :: (d', c', a', bs) :: r
    | [] => [(d, c, a, [b])]
  | _ :: t => remoteRuns t

/-- An access to another device is noted, until its answer comes, under the identifier that its message carries. -/
def noteFar (s : State) (who : FarWho) (dev ctx loc len : Nat) (va : Word) : Nat × State :=
  (s.nextId, { s with nextId := s.nextId + 1,
                      farOps := s.farOps ++ [{ id := s.nextId, who := who, dev := dev, ctx := ctx, loc := loc, len := len, va := va }] })

/-- A store leaves its core (R159): its bytes are written, or sent to the device that owns them, which answers (R328);
watchpoints see it. -/
def performStore (s : State) (core : Nat) (e : StoreEnt) : State :=
  let s := clearPoison (locWrites s e.bytes) e.bytes
  let s := (remoteRuns e.bytes).foldl (fun s m =>
    let r := noteFar s (.store e.by_ core e.lane e.pc) m.1 m.2.1 m.2.2.1 m.2.2.2.length e.va
    send r.2 (.remote m.1 r.1 { ctx := m.2.1, frame := m.2.2.1 / 65536, off := m.2.2.1 % 65536, size := m.2.2.2.length,
                                data := some m.2.2.2 })) s
  watchCheck s (if (SMap.find s.gangs e.by_).isSome then some e.by_ else none) 1 (ctxOfTeam (teamKey e.by_)) e.lane e.pc e.va
    (e.bytes.map (·.1))

/-- What a store that becomes visible in a core leaves of a gang's loads that are performed out of their order: it keeps them
in order for the core's own observers (R159, Table 3). -/
def staleReads (locs : List Loc) (G : Gang) : Gang :=
  { G with
    early := G.early.map fun r => if r.locs.any locs.contains then { r with stale := true } else r,
    openRds := G.openRds.filter fun r => !(r.passed && r.locs.any locs.contains) }

/-- What a store that a gang issues leaves of its loads that are performed out of their order: none of them may take its
bytes from before it, or from it (R158). -/
def ownStore (locs : List Loc) (G : Gang) : Gang :=
  { G with early := G.early.filter fun r => !r.locs.any locs.contains,
           openRds := G.openRds.filter fun r => !r.locs.any locs.contains }

/-- The oldest store of a gang's queue becomes visible in its core (R159): scratchpad bytes are written, the rest waits
in the core's outbound stores. -/
def popGang (s : State) (g : Nat) : State :=
  let G := gangOf s g
  match G.storeQ with
  | [] => s
  | e :: t =>
    let s := setGang s g { G with storeQ := t }
    let locs := e.bytes.map (·.1)
    let s := { s with gangs := s.gangs.map fun x => if x.2.core == G.core then (x.1, staleReads locs x.2) else x }
    let sp := e.bytes.filter fun p => (spadIdx p.1).isSome
    let gl := e.bytes.filter fun p => (spadIdx p.1).isNone
    let s := if sp.isEmpty then s else
      let s := sp.foldl (fun s p => match p.1 with | .spad a => noteSpad s (some (teamKey g)) a | _ => s) s
      performStore s G.core { e with bytes := sp }
    if gl.isEmpty then s else modCore s G.core fun C => { C with outb := C.outb ++ [{ e with bytes := gl }] }

/-- `n` stores of a gang's queue become visible in the core. -/
def popGangN (s : State) (g : Nat) : Nat → State
  | 0 => s
  | n + 1 => popGangN (popGang s g) g n

/-- A gang's queue drains into its core. -/
def drainGang (s : State) (g : Nat) : State := popGangN s g (gangOf s g).storeQ.length

/-- The context of a core's teams. -/
def coreCtx (s : State) (c : Nat) : Nat := (((teamsOn s c).head?).map ctxOfTeam).getD 0

/-- Whether a matrix operation on the array has pinned one of these bytes' lines: stores, copies and atomics to them wait until
it has retired (R137). -/
def pinned (s : State) (locs : List Loc) : Bool :=
  s.matrix.any fun e => e.2.ops.any fun o => o.running && locs.any fun l => match l with
    | .phys a => o.pins.contains (a / 64)
    | _ => false

/-- Whether outbound store `i` of a core has to wait: for a pinned line (R137), for an earlier one to a common byte (R155),
and a gang's store to an MMIO page for those before it (R179). -/
def outWaits (s : State) (c i : Nat) (e : StoreEnt) : Bool :=
  pinned s (e.bytes.map (·.1)) || ((coreOf s c).outb.take i).any fun f =>
    (f.mmio && e.mmio && f.by_ == e.by_) || f.bytes.any fun p => e.bytes.any fun r => r.1 == p.1

/-- Outbound store `i` of a core is performed (R159), unless it has to wait. -/
def popCore (s : State) (c i : Nat) : State :=
  match (coreOf s c).outb[i]? with
  | none => s
  | some e =>
    if outWaits s c i e then s
    else performStore (modCore s c fun C => { C with outb := C.outb.eraseIdx i }) c e

/-- The outbound stores from `i` on, `n` of them, are performed in their order, but for those that have to wait. -/
def popCoreN (s : State) (c i : Nat) : Nat → State
  | 0 => s
  | n + 1 =>
    match (coreOf s c).outb[i]? with
    | none => s
    | some e => if outWaits s c i e then popCoreN s c (i + 1) n else popCoreN (popCore s c i) c i n

/-- Every store visible in a core is performed, but for those that have to wait. -/
def drainCore (s : State) (c : Nat) : State := popCoreN s c 0 (coreOf s c).outb.length

/-- Whether a store of a gang, or one visible in its core, waits for a pinned line (R137). -/
def keptBack (s : State) (g : Nat) : Bool :=
  ((gangOf s g).storeQ ++ (coreOf s (gangOf s g).core).outb).any fun e => pinned s (e.bytes.map (·.1))

/-- Every store of a gang, and every store visible in its core, is performed: the drain of a fence of scope wider than
team (R161, R194), and what an engine command's operands include (R165). -/
def drainAll (s : State) (g : Nat) : State :=
  let s := drainGang s g
  drainCore s (gangOf s g).core

/-- A gang's stores become visible in its core, and where one that waits there is to a byte of `locs` they are all performed:
what an access that is performed at its place does to keep program order (R157, R158, R164). -/
def drainOver (s : State) (g : Nat) (locs : List Loc) : State :=
  let s := drainGang s g
  let c := (gangOf s g).core
  if (coreOf s c).outb.any (fun e => e.bytes.any fun p => locs.contains p.1) then drainCore s c else s

/-- Whether stores of a gang, or stores visible in its core, go to another device. -/
def owesFar (s : State) (g : Nat) : Bool :=
  ((gangOf s g).storeQ ++ (coreOf s (gangOf s g).core).outb).any fun e =>
    e.bytes.any fun p => match p.1 with | .remote .. => true | _ => false

/-- Stores to other devices set out before what must wait for their answers is tried (R161, R162). -/
def sendFar (s : State) (g : Nat) : State := if owesFar s g then drainAll s g else s

/-- Whether a store that the core of gang `g` has sent to another device still awaits its answer. -/
def awaitsFar (s : State) (g : Nat) : Bool :=
  s.farOps.any fun o => match o.who with | .store _ c .. => c == (gangOf s g).core | _ => false

/-- Whether such a store wrote one of these bytes. -/
def farOver (s : State) (g : Nat) (locs : List Loc) : Bool :=
  s.farOps.any fun o => match o.who with
    | .store _ c _ _ => c == (gangOf s g).core && locs.any fun l => match l with
        | .remote d x a => d == o.dev && x == o.ctx && o.loc ≤ a && a < o.loc + o.len
        | _ => false
    | _ => false

/-- What an access meets at issue of the gang's own operations under way: one that acquires keeps back every later access
(R162), and one that has no answer yet those to its bytes (R157). -/
def orderGate (s : State) (g : Nat) (locs : List Loc) : Chk Unit :=
  need (!((gangOf s g).reqs.any fun r => r.acq || r.locs.any locs.contains) && !farOver s g locs) .hold

/-- What an access that changes its bytes where they lie meets at issue: the order with its gang's own accesses, and pinned
lines (R137). -/
def writeGate (s : State) (g : Nat) (locs : List Loc) : Chk Unit := do
  orderGate s g locs
  need (!pinned s locs) .hold

/-! ## Phase barriers (R167, R168) -/

/-- A phase barrier object (R167, Table 4). -/
structure Bar where
  phase  : Nat
  expect : Nat
  pend   : Nat
  bytes  : Int
  init   : Bool
  fault  : Bool
  scope  : Nat
  low    : Nat
  deriving DecidableEq, Repr

/-- The fields of a barrier in its sixteen bytes. -/
def barOf (n : Nat) : Bar :=
  { phase := fld n 96 32, expect := fld n 80 16, pend := fld n 64 16, bytes := sext 32 (fld n 32 32), init := bitOf n 31,
    fault := bitOf n 30, scope := fld n 27 3, low := fld n 0 27 }

/-- The sixteen bytes of a barrier. -/
def barNat (b : Bar) : Nat :=
  b.phase * 2 ^ 96 + b.expect * 2 ^ 80 + b.pend * 2 ^ 64 + wrapN 32 b.bytes * 2 ^ 32 + b2n b.init * 2 ^ 31
    + b2n b.fault * 2 ^ 30 + b.scope * 2 ^ 27 + b.low

/-- The phase advances when both counts are 0 (R168). -/
def Bar.settle (b : Bar) : Bar :=
  if b.pend = 0 ∧ b.bytes = 0 then { b with phase := (b.phase + 1) % 2 ^ 32, pend := b.expect } else b

/-- The barrier at sixteen places. -/
def readBar (s : State) (locs : List Loc) : Bar := barOf (leNat (locs.map (locRead s)))

/-- One atomic update of a barrier (R168). An advance in a team's own scratchpad is a checkpoint of that team (R338). -/
def writeBar (s : State) (locs : List Loc) (b : Bar) : State :=
  let old := readBar s locs
  let s := locWrites s (locs.zip (leBytes 16 (barNat b)))
  if b.phase != old.phase && b.init && old.init then
    match locs.head? with
    | some (.spad a) => match spadOwner s a with | some t => takeCkpt s t | none => s
    | _ => s
  else s

/-- An engine subtracts landed bytes (R168, R192): below −2^31 it sets FAULT instead. -/
def barLand (s : State) (locs : List Loc) (n : Nat) : State :=
  let b := readBar s locs
  if b.bytes - n < -(2 ^ 31) then writeBar s locs { b with fault := true }
  else writeBar s locs { b with bytes := b.bytes - n }.settle

/-- An engine operation that counts on the barrier faults (R168). -/
def barFault (s : State) (locs : List Loc) : State := writeBar s locs { readBar s locs with fault := true }

/-- Bytes taken off a barrier's account by a cancellation (R208). -/
def barRaise (s : State) (locs : List Loc) (n : Nat) : State :=
  let b := readBar s locs
  writeBar s locs { b with bytes := b.bytes + n }.settle

end Sys2Proof.Machine
end

