-- ==== Sys2Proof/Machine/Ops.lean ====
section
/-!
DEFINITION. The shared operations of a gang: taking a fault and returning from one (R329 to R334), counting events
(R81 to R84), retiring an instruction (R82, R233, R237, R390), hardware loops (R257, R258) and branches (R246).
-/
namespace Sys2Proof.Machine

/-- Runs a meaning with the run that issues it. -/
def issuing (s : State) (f : Issue → State) : Res :=
  match s.cur with
  | none => .fault .noIssuer
  | some c => .next (f c)

/-! ## Writing registers (R336, R339) -/

/-- Whether a destination is register `reg` of a lane. -/
def Dest.isLane (d : Dest) (lane reg : Nat) : Bool := match d with | .lane l r _ => l == lane && r == reg | _ => false

/-- Whether a destination is uniform register `reg`. -/
def Dest.isUni (d : Dest) (reg : Nat) : Bool := match d with | .uni r _ => r == reg | _ => false

/-- The 32-bit halves of 64 used bits. -/
def halvesOf (bits : Nat) : List Nat := (if fld bits 0 32 != 0 then [0] else []) ++ (if fld bits 32 32 != 0 then [1] else [])

/-- A vector register written in a lane: the brine notes it, and halves wholly written lose their poison (R336, R339). -/
def wrV (G : Gang) (reg lane : Nat) (x : Word) (bits : Nat) : Gang :=
  let G := vPut { G with late := G.late.filter fun f => !f.dest.isLane lane reg } reg lane x
  (halvesOf bits).foldl (fun G h =>
    let k := 2 * (64 * lane + reg) + h
    { G with wroteV := SMap.put G.wroteV k 1,
             poisonV := if fld bits (32 * h) 32 == 0xFFFFFFFF then SMap.erase G.poisonV k else G.poisonV }) G

/-- A uniform register written: the brine notes it, and its poison ends (R336, R339). -/
def wrS (G : Gang) (reg : Nat) (x : Word) : Gang :=
  { sPut G reg x with late := G.late.filter fun f => !f.dest.isUni reg,
                      wroteS := SMap.put (SMap.put G.wroteS (2 * reg) 1) (2 * reg + 1) 1,
                      poisonS := SMap.erase (SMap.erase G.poisonS (2 * reg)) (2 * reg + 1) }

/-- An accumulator element written. -/
def wrQ (G : Gang) (lane q e : Nat) (x : W32) : Gang :=
  { qPut G lane q e x with wroteQ := SMap.put G.wroteQ (qKey lane q e) 1, poisonQ := SMap.erase G.poisonQ (qKey lane q e) }

/-! ## Fault records (R330) -/

/-- The 64 bytes of a fault record (R330, Table 2). -/
def recBytes (r : FaultRec) : List Byte :=
  leBytes 64 (r.pc.toNat * 2 ^ 448 + r.addr.toNat * 2 ^ 384 + r.tl.toNat * 2 ^ 320 + r.team % 2 ^ 37 * 2 ^ 283
    + r.core % 2 ^ 9 * 2 ^ 274 + r.gang % 2 ^ 5 * 2 ^ 269 + r.dev % 2 ^ 10 * 2 ^ 259 + r.ctx % 2 ^ 12 * 2 ^ 247
    + r.lane % 2 ^ 8 * 2 ^ 239 + r.field % 2 ^ 4 * 2 ^ 235 + r.sub % 2 ^ 8 * 2 ^ 227 + r.cause.code * 2 ^ 219
    + r.master % 2 ^ 3 * 2 ^ 216 + r.unit % 2 ^ 8 * 2 ^ 208 + b2n r.restart * 2 ^ 207 + b2n r.dbl * 2 ^ 206
    + r.extra.toNat * 2 ^ 136)

/-- The record of an instruction's fault (R330). -/
def gangRec (s : State) (g : Nat) (pc : Word) (cause : Cause) (field sub lane : Nat) (addr : Word) (restart : Bool) :
    FaultRec :=
  let G := gangOf s g
  let T := teamOf s (teamKey g)
  { pc := pc, addr := addr, tl := 0, team := T.index, core := G.core, gang := G.slot, dev := Config.deviceId.toNat,
    ctx := T.ctx, lane := lane, field := field, sub := sub, cause := cause, master := 0, unit := 0, restart := restart,
    dbl := false, extra := 0 }

/-- Appends a record to a ring of 2^`log` records of 64 bytes. -/
def ringPut (s : State) (ring idx log : Nat) (bytes : List Byte) : State :=
  { s with mem := Memory.writeN s.mem (ring + 64 * (idx % 2 ^ log)) bytes }

/-- A record enters its context's fault ring, or is dropped and counted in LOST when the ring is full (R326). -/
def faultRing (s : State) (r : FaultRec) : State :=
  let head := ctxField s r.ctx 352 32
  let tail := ctxField s r.ctx 320 32
  let log := ctxField s r.ctx 427 5
  if (head + 2 ^ 32 - tail) % 2 ^ 32 == 2 ^ log then
    let lost := ctxField s r.ctx 432 16
    ctxPut s r.ctx 54 2 (if lost == 0xFFFF then lost else lost + 1)
  else
    let s := ringPut s (ctxField s r.ctx 256 64) head log (recBytes r)
    ctxPut s r.ctx 44 4 ((head + 1) % 2 ^ 32)

/-- The ring and the host receive a record (R326, R334). -/
def reportFault (s : State) (r : FaultRec) : State := toHost (faultRing s r) (.fault 0x03 r)

/-! ## Trap entry and return (R331 to R334) -/

/-- TS.INFO (R41, Table 10). DEDUCED (log 54): SUB is the record's for every cause, as R331 has it, where Table 10 gives 0 for
causes other than ILLCHAIN and ILLENC. -/
def tsInfo (r : FaultRec) : Word := BitVec.ofNat 64 (b2n r.restart * 2 ^ 15 + r.field % 16 * 2 ^ 8 + r.sub % 256)

/-- The TS registers of a record (R331). -/
def setTs (G : Gang) (r : FaultRec) (rpc : Word) : Gang :=
  let G := srPut G rTsPc r.pc
  let G := srPut G rTsRpc rpc
  let G := srPut G rTsCause (BitVec.ofNat 64 r.cause.code)
  let G := srPut G rTsLane (BitVec.ofNat 64 r.lane)
  let G := srPut G rTsAddr r.addr
  let G := srPut G rTsTl r.tl
  srPut G rTsInfo (tsInfo r)

/-- The latches and the chain under way are discarded (R30). -/
def dropChain (G : Gang) : Gang := { G with x := [], chain := none, chainEnd := .never }

/-- Whether a chain is under way that its next instruction joins (R30). -/
def midChain (G : Gang) : Bool := match G.chain with | some k => k.joins | none => false

/-- Whether a run's chain is under way that its next lane-set instruction joins. -/
def midRun (G : Gang) (run : W32) : Bool := match G.chain with | some k => k.joins && k.run == run | none => false

/-- The members that a restart discards do not count (R390). -/
def uncount (G : Gang) : Gang :=
  match G.chain with | some k => srPut G rCave (srGet G rCave - BitVec.ofNat 64 k.members) | none => G

/-- A chain that would go on restarts at its head (R30, R384, R390). -/
def chainBack (G : Gang) : Gang :=
  match G.chain with
  | some k => if k.joins then dropChain (moveThreads (uncount G) k.run k.head) else G
  | none => G

/-- A gang's chain that would go on restarts at its head, counted by counter event 7 (R30, R389). -/
def restartChain (s : State) (g : Nat) : State :=
  let s := if midChain (gangOf s g) then pmcCount s (gangOf s g).core 7 1 else s
  modGang s g chainBack

/-- The tokens that a station holds, with those set aside for its reservations. -/
def heldTokens (C : Core) : Int := C.tokens + (C.resv.map (·.paid)).sum

/-- A reservation ends; its tokens return to the station (R266). -/
def endResv (C : Core) (h : Holder) : Core :=
  { C with tokens := C.tokens + ((C.resv.filter fun r => r.holder == h).map (·.paid)).sum,
           resv := C.resv.filter fun r => r.holder != h }

/-- A gang's token reservation ends (R266). -/
def dropResv (s : State) (g : Nat) : State := modCore s (gangOf s g).core fun C => endResv C (.gang g)

/-- Taking a fault in a gang (R331, R326): the handler is entered when TS.VEC is not 0 and error recovery is in hardware
mode; otherwise the gang is frozen and the host has the record. In handler mode it is a double fault. The chain's members that
a restart discards do not count (R390). -/
def takeTrap (s : State) (g : Nat) (run : W32) (r : FaultRec) (rpc : Word) : State :=
  let s := dropResv s g
  let s := if r.restart then pmcCount s (gangOf s g).core 7 1 else s
  let G := if r.restart then uncount (gangOf s g) else gangOf s g
  let G := { G with loads := G.loads.filter fun p => p.dest != .none }
  if G.handler.isSome then
    reportFault (setGang s g { dropChain G with frozen := some { r with dbl := true }, frozenRun := run })
      { r with dbl := true }
  else if srGet G rTsVec != 0 && !hostMode s 5 then
    let G := dropChain (setTs G r rpc)
    let G := modThreads G run fun t => { t with pc := srGet G rTsVec, wait := .none }
    setGang s g { G with handler := some run }
  else
    let G := dropChain (setTs G r rpc)
    let G := modThreads G run fun t => { t with wait := .none }
    reportFault (setGang s g { G with frozen := some r, frozenRun := run }) r

/-- Where a fault of run `run` at `pc` resumes: at the head of the chain that it strikes, when the instruction is a
member or stands between members (R30). -/
def restartPc (G : Gang) (member : Bool) (run : W32) (pc : Word) : Word :=
  match G.chain with
  | some k => if (member || midRun G run) && G.chainEnd == .never then k.head else pc
  | none => pc

/-- A precise fault of the instruction being issued: TS.RPC names it, or the head of the chain it would have joined when
`member` says that it reads a latch (R30, R329). ILLCHAIN names the head, but for sub-code 0x01 (R329, Table 1). -/
def trapHere (s : State) (c : Issue) (member : Bool) (cause : Cause) (field sub lane : Nat) (addr : Word) : State :=
  let G := gangOf s c.g
  let head := (G.chain.map (·.head)).getD c.pc
  let rpc := if cause == .illchain then (if sub == 1 then c.pc else head) else restartPc G member c.run c.pc
  takeTrap s c.g c.run (gangRec s c.g c.pc cause field sub lane addr (rpc != c.pc)) rpc

/-- The return from a fault: the run's threads go to TS.RPC, handler mode ends and every run issues again
(R333, R334). -/
def leaveTrap (G : Gang) (run : W32) : Gang :=
  let G := modThreads G run fun t => { t with pc := srGet G rTsRpc }
  { G with handler := none, frozen := none, frozenRun := 0 }

/-! ## Waiting at issue, and the outcome of a check -/

/-- The instruction waits at issue: nothing changes but the note of when it was tried. -/
def waitHere (s : State) (c : Issue) : State := modGang s c.g fun G => { G with stallAt := s.progress + 1 }

/-- A page that a gang needs is served (R323 to R325): the gang stalls for the host, or the page is zero-filled; none where
it is not to be had. -/
def gangPage (s : State) (g a kind : Nat) : Option State :=
  let ctx := (teamOf s (teamKey g)).ctx
  if hostMode s 1 then
    let r := raisePageFault s ctx a kind g
    some (modGang r.2 g fun G => { G with pf := .waiting r.1 })
  else zeroFill s ctx a

/-- A page fault of a gang (R323 to R325): it is served and the instruction is replayed, the gang stalls for the host, or
PAGEF is raised. -/
def gangPageFault (s : State) (c : Issue) (member : Bool) (va : Word) (kind lane field : Nat) : State :=
  let G := gangOf s c.g
  let T := teamOf s (teamKey c.g)
  let a := match windowOf va with | .priv off => privAddr T (gangIdx c.g) lane off | _ => va.toNat
  if G.pf == .refused (a / 2 ^ 16) then
    trapHere (setGang s c.g { G with pf := .none }) c member .pagef field 0 lane va
  else match gangPage s c.g a kind with
    | some s => s
    | none => trapHere s c member .pagef field 0 lane va

/-- What follows from a check that did not pass. -/
def halted (s : State) (c : Issue) (member : Bool) : Halt → State
  | .bad cause field sub lane addr => trapHere s c member cause field sub lane addr
  | .hold => waitHere s c
  | .poison cause field sub lane addr _ => trapHere s c member cause field sub lane addr
  | .late f field lane => trapHere s c member f.cause field f.sub lane f.addr
  | .page va kind lane field => gangPageFault s c member va kind lane field

/-! ## Events (R81 to R83) -/

/-- How many events of a class a list holds. -/
def countEvt (evs : List (Evt × Nat)) (e : Nat) : Nat := (evs.filter fun x => x.1.num == e).length

/-- The events of one class added to its count, whether the count crossed its threshold, and the action (R82, R83). -/
def addClass (G : Gang) (evs : List (Evt × Nat)) (e : Nat) : Gang × Bool × Nat :=
  let n := countEvt evs e
  if n == 0 then (G, false, 0) else
    let ctl := (srGet G (rEvt e)).toNat
    let old := (srGet G (rEvtCnt e)).toNat
    let new := Nat.min (old + n) 0xFFFFFFFF
    (srPut G (rEvtCnt e) (BitVec.ofNat 64 new), decide (old ≤ fld ctl 16 32 ∧ fld ctl 16 32 < new), fld ctl 8 2)

/-- The lowest lane that an event of a class is counted against. -/
def evtLane (evs : List (Evt × Nat)) (e : Nat) : Nat := ((evs.filter fun x => x.1.num == e).map (·.2)).foldl Nat.min 31

/-- The events of one class are added to a gang's count; a crossing with ACT 2 interrupts the host, and one with ACT 1 traps in
its lowest lane (R83). -/
def addOne (g : Nat) (evs : List (Evt × Nat)) (pc tl : Word) (acc : State × Option Nat) (e : Nat) : State × Option Nat :=
  let G := gangOf acc.1 g
  let r := addClass G evs e
  let s := if countEvt evs e == 0 then acc.1 else setGang acc.1 g r.1
  if r.2.1 && r.2.2 == 2 then
    (toHost s (.notify 0x05 [e, (srGet r.1 (rEvtCnt e)).toNat, gangIdx g, (teamOf s (teamKey g)).index, G.core] [pc, tl]), acc.2)
  else if r.2.1 && r.2.2 == 1 then (s, some (Nat.min (acc.2.getD 31) (evtLane evs e)))
  else (s, acc.2)

/-- Adds events to a gang's counts (R83). The second part is the lane that TS.LANE names when a crossing traps. -/
def addEvents (s : State) (g : Nat) (evs : List (Evt × Nat)) (pc tl : Word) : State × Option Nat :=
  (List.range 9).foldl (addOne g evs pc tl) (s, none)

/-! ## Hardware loops (R254 to R258) -/

def loopSet (G : Gang) : W32 := BitVec.ofNat 32 (Word.fld (srGet G rLoopCount) 32 32)
def loopCnt (G : Gang) : Nat := Word.fld (srGet G rLoopCount) 0 32
def loopDepth (G : Gang) : Nat := (srGet G rLoopDepth).toNat

/-- A LOOP.COUNT value (R254, Table 3). -/
def loopWord (set : W32) (n : Nat) : Word := BitVec.ofNat 64 (set.toNat * 2 ^ 32 + n % 2 ^ 32)

/-- Threads held in the loop. -/
def isHeld (G : Gang) (l : Nat) : Bool := match thr G l with | some t => t.held | none => false

/-- The end action (R257), when every thread of SET is held, and then that of the outer loop: threads that were held at a
LOOP.END which both loops share arrive at it at once, and those held there before stay so. -/
def endAction (G : Gang) : Nat → Gang
  | 0 => G
  | fuel + 1 =>
    let set := loopSet G
    if loopDepth G == 0 || !(lanesOf set).all (isHeld G) then G
    else if loopCnt G > 1 && set != 0 then
      let G := srPut G rLoopCount (loopWord set (loopCnt G - 1))
      modThreads G set fun t => { t with pc := srGet G rLoopStart, held := false }
    else
      let G := modThreads G set fun t => { t with held := false }
      if loopDepth G == 2 then
        let ended := srGet G rLoopEnd
        let G := srPut (srPut (srPut G rLoopCount (srGet G rLoopCount1)) rLoopStart (srGet G rLoopStart1)) rLoopEnd
          (srGet G rLoopEnd1)
        let G := srPut (srPut (srPut (srPut G rLoopCount1 0) rLoopStart1 0) rLoopEnd1 0) rLoopDepth 1
        endAction (if srGet G rLoopEnd == ended then modThreads G (set &&& loopSet G) fun t => { t with held := true } else G) fuel
      else srPut (srPut (srPut (srPut G rLoopCount 0) rLoopStart 0) rLoopEnd 0) rLoopDepth 0

/-- The end action, when a loop is active and it is due; it ends a latch chain as a closing instruction (R257). -/
def loopSettle (G : Gang) : Gang :=
  if loopDepth G != 0 && (lanesOf (loopSet G)).all (isHeld G) then
    endAction { G with chainEnd := if G.chain.isSome then .closed else G.chainEnd } 3
  else G

/-- Threads of `run` that issued the instruction at LOOP.END and stand at its fall-through arrive and are held (R257). -/
def loopArrive (G : Gang) (run : W32) (pc fall : Word) : Gang :=
  if loopDepth G == 0 || srGet G rLoopEnd != pc then G
  else
    let m := laneSet fun l => hasLane run l && hasLane (loopSet G) l
      && (match thr G l with | some t => t.pc == fall && !t.held | none => false)
    loopSettle (modThreads G m fun t => { t with held := true })

/-- Threads are taken out of SET and of the outer loop's set (R258, R259). -/
def loopDrop (G : Gang) (m : W32) : Gang :=
  if loopDepth G == 0 then G
  else
    let o := srGet G rLoopCount1
    let G := srPut G rLoopCount (loopWord (loopSet G &&& ~~~m) (loopCnt G))
    let G := if loopDepth G == 2 then srPut G rLoopCount1 (loopWord (BitVec.ofNat 32 (Word.fld o 32 32) &&& ~~~m) (Word.fld o 0 32))
             else G
    loopSettle G

/-- Those of the threads that belong to SET leave it, and with it the outer loop's set (R258). -/
def loopLeave (G : Gang) (m : W32) : Gang := if (loopSet G &&& m) == 0 then G else loopDrop G (loopSet G &&& m)

/-- Moves threads to a target. With `leave`, those that leave the loop's body leave its set (R246, R258). -/
def branchTo (G : Gang) (m : W32) (target : Word) (leave : Bool) : Gang :=
  let G := moveThreads G m target
  if leave && (target.toNat < (srGet G rLoopStart).toNat || (srGet G rLoopEnd).toNat < target.toNat)
  then loopLeave G m else G

/-! ## Retiring an instruction -/

/-- A window position advances; at 2^WLOG a fresh window opens (R82). -/
def stepWindow (G : Gang) (e : Nat) : Gang :=
  let pos := SMap.getD G.winPos e 0 + 1
  if pos == 2 ^ Word.fld (srGet G (rEvt e)) 0 6 then
    srPut { G with winPos := SMap.putD G.winPos 0 e 0 } (rEvtCnt e) 0
  else { G with winPos := SMap.putD G.winPos 0 e pos }

/-- The run counts of R233: an issue while another run exists adds one; the count restarts with another run's issue, and a single
turn leaves it at 0. -/
def countTurn (G : Gang) (run : W32) : Gang :=
  let me := BitVec.zeroExtend 64 run
  if G.single.isSome then { G with single := none, turns := 0, lastRun := some me }
  else if G.lastRun == some me && (runPcs G).length ≥ 2 then { G with turns := G.turns + 1 }
  else { G with turns := if 2 ≤ (runPcs G).length then 1 else 0, lastRun := some me }

/-- An issued instruction is counted (R82, R233, R237, R343, R389, R390), and the run that issued it has issued. DEDUCED (log 51):
a window position counts instructions that retire, so that one that faults, which issues again, counts once, and a WAITPH that
waits counts when it completes. -/
def countIssue (s : State) (c : Issue) : State :=
  let G := (List.range 9).foldl stepWindow (gangOf s c.g)
  let G := srPut G rCave (srGet G rCave + 1)
  let G := countTurn { G with issuedN := G.issuedN + 1, idle := 0, overdue := false, lastPc := c.pc, stopPc := none } c.run
  let s := setGang s c.g G
  let s := modTeam s (teamKey c.g) fun T => { T with issued := T.issued + 1 }
  let s := modCore s G.core fun C => { C with sliceN := C.sliceN + 1, sliceAt := cyclesOf s G.core }
  let s := pmcCount s G.core 0 1
  { s with progress := s.progress + 1, cur := some { c with issued := true } }

/-- The instruction at `c.pc`, whose fall-through is `fall`, is complete: it is counted, and its threads that stand at the
fall-through arrive at a loop's end (R257). -/
def retire (s : State) (c : Issue) (fall : Word) : State :=
  let s := countIssue s c
  modGang s c.g fun G => loopArrive G c.run c.pc fall

/-- The run falls through to the next instruction, which retires this one. -/
def fallThrough (s : State) (c : Issue) (len : Nat) : State :=
  let fall := c.pc + BitVec.ofNat 64 len
  retire (modGang s c.g fun G => moveThreads G c.run fall) c fall

/-- The instruction retires with events (R82, R83): they are added before the window positions advance, and a crossing
with ACT 1 traps after the results stand, with TS.RPC where the lowest thread of the run then stands. -/
def fallEvents (s : State) (c : Issue) (len : Nat) (evs : List (Evt × Nat)) : State :=
  let r := addEvents s c.g evs c.pc 0
  let s := fallThrough r.1 c len
  match r.2 with
  | none => s
  | some l =>
    let rpc := ((thr (gangOf s c.g) (lowLane c.run)).map (·.pc)).getD (c.pc + BitVec.ofNat 64 len)
    takeTrap s c.g c.run (gangRec s c.g c.pc .evtthr 0 0 l 0 false) rpc

/-- What a uniform-set instruction does to a latch chain: issued by another run it ends it (R28, check 0x01); one of the
arithmetic group may stand between members, any other closes the chain (R28, check 0x03; R238). -/
def uniChain (G : Gang) (run : W32) (arith : Bool) : Gang :=
  match G.chain with
  | none => G
  | some k =>
    if k.run != run then { G with chain := none }
    else if arith then { G with chainEnd := if G.chainEnd == .closed then .broken else G.chainEnd }
    else { G with chainEnd := .closed }

/-! ## Tokens (R265 to R268) -/

/-- What leaves a station for a price (R265 to R267): all of it on credit, nothing where the gang's paid reservation covers it,
all of it where nothing is reserved and the station holds it; `none` where the gang has to wait. -/
def tokensDue (C : Core) (g price : Nat) (credit : Bool) : Option Nat :=
  if credit then some price
  else match C.resv.find? fun r => r.holder == .gang g with
    | some r => if r.price ≤ r.paid && r.price == price then some 0 else none
    | none => if C.resv.isEmpty && (price : Int) ≤ C.tokens then some price else none

/-- A gang spends a price, of which `n` tokens leave the station (R265, R268). -/
def spendTokens (s : State) (g price n : Nat) : State :=
  let s := modCore s (gangOf s g).core fun C =>
    { C with tokens := C.tokens - n, resv := C.resv.filter fun r => r.holder != .gang g }
  modGang s g fun G => srPut (srPut G rTokPrice (BitVec.ofNat 64 price)) rTokSpent (srGet G rTokSpent + BitVec.ofNat 64 price)

/-- A gang pays a price (R265, R266); `none` where it waits. -/
def payTokens (s : State) (g price : Nat) (credit : Bool) : Option State :=
  if price == 0 then some s
  else (tokensDue (coreOf s (gangOf s g).core) g price credit).map (spendTokens s g price)

/-- Whether a reservation goes before another (R266): it was placed earlier, or in the same cycle by the matrix queue, or by an
older gang. -/
def resvBefore (s : State) (r q : Resv) : Bool :=
  let rank := fun (x : Resv) => match x.holder with | .matrix => 0 | .gang g => (gangOf s g).age + 1
  decide (r.placed < q.placed) || (r.placed == q.placed && decide (rank r ≤ rank q))

/-- A reservation of this price (R266): one that its holder has for another price, of an instruction that it no longer issues
next, ends, and its tokens return. -/
def placeResv (s : State) (h : Holder) (core price : Nat) : State :=
  modCore s core fun C =>
    if C.resv.any fun r => r.holder == h && r.price == price then C
    else
      let C := endResv C h
      let q : Resv := { holder := h, price := price, paid := 0, placed := cyclesOf s core }
      { C with resv := C.resv.takeWhile (resvBefore s · q) ++ q :: C.resv.dropWhile (resvBefore s · q) }

/-- Tokens set against the oldest unpaid reservations, after the debt (R266, R267): what is left of `n`, and the
reservations. -/
def payResv : Nat → List Resv → Nat × List Resv
  | n, [] => (n, [])
  | n, r :: t =>
    let k := Nat.min n (r.price - r.paid)
    let rest := payResv (n - k) t
    (rest.1, { r with paid := r.paid + k } :: rest.2)

/-- The tokens a station holds go to its reservations (R266). -/
def serveResv (C : Core) : Core :=
  if C.tokens ≤ 0 then C else
    let r := payResv C.tokens.toNat C.resv
    { C with tokens := r.1, resv := r.2 }

/-! ## Choosing a run -/

/-- The run that issues next (R232, R233): the one with a single turn, or the lowest that may issue. -/
def chooseRun (G : Gang) : Option (Word × W32) :=
  match G.single with
  | some pc => if runAt G pc != 0 then some (pc, runAt G pc) else (runPcs G).head?.map fun p => (p, runAt G p)
  | none => (runPcs G).head?.map fun p => (p, runAt G p)

/-- The run of the next higher PC that may issue (R233, R260). -/
def nextRun (G : Gang) (pc : Word) : Option Word := (runPcs G).find? fun p => pc.toNat < p.toNat

/-! ## The cave (R390, R391) -/

/-- The entry of a synchronising operation of a gang (R391). -/
def caveEntry (s : State) (g kind : Nat) (pc : Word) : Nat :=
  (srGet (gangOf s g) rCave).toNat % 2 ^ 48 * 2 ^ 80 + kind * 2 ^ 76 + gangIdx g * 2 ^ 71
    + (teamOf s (teamKey g)).number * 2 ^ 34 + pc.toNat % 2 ^ 34

/-- The first entry of gang `g` from entry `i` on, within `fuel` entries; an entry of kind 0 ends the record. -/
def caveNext (s : State) (base g : Nat) : Nat → Nat → Option (Nat × Nat)
  | 0, _ => none
  | fuel + 1, i =>
    let e := leNat (Memory.readN s.mem (base + 16 * i) 16)
    if fld e 76 4 == 0 then none
    else if fld e 71 5 == gangIdx g && fld e 34 37 == (teamOf s (teamKey g)).number then some (i, e)
    else caveNext s base g fuel (i + 1)

/-- The key of a gang's position in the cave; a context's count of entries stands at the context's number. -/
def cavePos (g : Nat) : Nat := 2 ^ 60 + g

/-- A synchronising operation completes (R391): it is recorded, or compared with the gang's next entry; the first
mismatch is a divergence, a stop with UNIT 13. -/
def caveNote (s : State) (g kind : Nat) (pc : Word) : State :=
  let ctx := ctxOfTeam (teamKey g)
  let ctl := (mgmtGet s (offCave ctx)).toNat
  let base := fld ctl 12 32 * 4096
  let size := 2 ^ fld ctl 47 5 / 16
  if fld ctl 62 2 == 1 then
    let n := SMap.getD s.cave ctx 0
    if bitOf ctl 61 then s
    else if size ≤ n then mgmtPut s (offCave ctx) (BitVec.ofNat 64 (setFld ctl 61 1 1))
    else
      { s with mem := Memory.writeN s.mem (base + 16 * n) (leBytes 16 (caveEntry s g kind pc)),
               cave := SMap.put s.cave ctx (n + 1) }
  else if fld ctl 62 2 == 2 then
    let i := SMap.getD s.cave (cavePos g) 0
    match caveNext s base g (size - i) i with
    | none => s
    | some (j, e) =>
      let s := { s with cave := SMap.put s.cave (cavePos g) (j + 1) }
      let count := (srGet (gangOf s g) rCave).toNat % 2 ^ 48
      if fld e 80 48 == count && fld e 76 4 == kind then s
      else
        let r := stopRec s (some g) pc (BitVec.ofNat 64 (fld e 80 48)) 0xFF 0 13 0
        trigger s (gangOf s g).core ctx { r with extra := r.extra + BitVec.ofNat 64 (count * 2 ^ 16) } false
  else s

/-- Entries of a gang kept in record order, without those at or past `count` (R391). -/
def caveKeep (s : State) (base : Nat) (drop : Nat → Nat → Bool) : Nat → Nat → List Nat
  | 0, _ => []
  | n + 1, i =>
    let e := leNat (Memory.readN s.mem (base + 16 * i) 16)
    if drop (fld e 34 37 * 32 + fld e 71 5) (fld e 80 48) then caveKeep s base drop n (i + 1)
    else e :: caveKeep s base drop n (i + 1)

/-- The cave after a rollback of a team (R391): entries past the checkpoint are discarded in record mode and compared
afresh in replay mode. `count` gives each gang's restored CAVE.COUNT. -/
def caveBack (s : State) (t : Nat) (gangs : SMap Gang) : State :=
  let ctx := ctxOfTeam t
  let ctl := (mgmtGet s (offCave ctx)).toNat
  let base := fld ctl 12 32 * 4096
  let num := (teamOf s t).number
  let past := fun (who count : Nat) =>
    gangs.any fun e => num * 32 + gangIdx e.1 == who && (srGet e.2 rCave).toNat % 2 ^ 48 ≤ count
  if fld ctl 62 2 == 1 then
    let n := SMap.getD s.cave ctx 0
    let es := caveKeep s base past n 0
    { s with mem := Memory.writeN s.mem base ((es ++ List.replicate (n - es.length) 0).flatMap (leBytes 16)),
             cave := SMap.putD s.cave 0 ctx es.length }
  else if fld ctl 62 2 == 2 then
    let all := 2 ^ fld ctl 47 5 / 16
    gangs.foldl (fun s e =>
      let i := (List.range (SMap.getD s.cave (cavePos e.1) 0)).find? fun i =>
        let x := leNat (Memory.readN s.mem (base + 16 * i) 16)
        past (fld x 34 37 * 32 + fld x 71 5) (fld x 80 48) && fld x 71 5 == gangIdx e.1
      match i with
      | some i => { s with cave := SMap.putD s.cave 0 (cavePos e.1) (Nat.min i all) }
      | none => s) s
  else s

/-- Whether a gang can take an issue turn at all. -/
def gangReady (s : State) (g : Nat) : Bool :=
  let G := gangOf s g
  let T := teamOf s (teamKey g)
  G.frozen.isNone && !G.stopped && (T.st == .running) && (match G.pf with | .waiting _ => false | _ => true)
    && !G.loading && !(G.threads.isEmpty) && !(runPcs G).isEmpty

end Sys2Proof.Machine
end

