-- ==== Sys2Proof/Machine/Rind.lean ====
section
/-!
DEFINITION. Exactly-once remote operations (R350 to R370): identities, digests, the rind and its service, the floor a
gang advertises, and the atomic operations that owners perform (R183).
-/
namespace Sys2Proof.Machine

/-! ## Atomic operations (R182, Table 3) -/

/-- The new value of a location (R182, Table 3). -/
def newVal (op : AOp) (f : IFmt) (m d c : Nat) : Nat :=
  let w := f.bits
  match op with
  | .add => (m + d) % 2 ^ w
  | .and => m &&& d
  | .or => m ||| d
  | .xor => m ^^^ d
  | .min => if f.val d < f.val m then d else m
  | .max => if f.val m < f.val d then d else m
  | .exch => d
  | .cas => if m = c then d else m

/-- An atomic at the places of its location, as one step (R155, R164, R183): the old value, and the state after it. -/
def atomicAt (s : State) (locs : List Loc) (op : AOp) (f : IFmt) (d c : Nat) (readOnly : Bool) : Nat × State :=
  let m := leNat (locs.map (locRead s))
  if readOnly then (m, s)
  else (m, locWrites s (locs.zip (leBytes (f.bits / 8) (newVal op f m (d % 2 ^ f.bits) (c % 2 ^ f.bits)))))

/-! ## Headers and digests (R355, R356) -/

/-- The 64 bytes of a request header (R355, Table 4). -/
def headerBytes (h : Header) : List Byte :=
  leBytes 64 (h.addr.toNat * 2 ^ 448 + h.operand.toNat * 2 ^ 384 + h.comparand.toNat * 2 ^ 320 + h.ident.toNat * 2 ^ 256
    + h.serial.toNat * 2 ^ 224 + h.digest.toNat * 2 ^ 192 + h.floor.toNat * 2 ^ 160 + h.inc.toNat * 2 ^ 128
    + h.kind.toNat * 2 ^ 124 + h.padb.toNat * 2 ^ 118 + b2n h.st * 2 ^ 117 + h.width.toNat * 2 ^ 115
    + h.op.toNat * 2 ^ 112 + h.commid.toNat * 2 ^ 96 + h.attempt.toNat * 2 ^ 80 + h.len.toNat * 2 ^ 64
    + h.cseq.toNat * 2 ^ 32)

/-- DIGEST (R356): header bytes [127:64] and [511:320], then a chunk's data and padding. -/
def digestOf (h : Header) (data : List Byte) : W32 :=
  let b := headerBytes h
  crc32c ((b.drop 8).take 8 ++ b.drop 40 ++ data ++ List.replicate h.padb.toNat 0)

/-- A header of zeros but for what every request sets. -/
def Header.blank : Header :=
  { addr := 0, operand := 0, comparand := 0, ident := 0, serial := 0, digest := 0, floor := 0, inc := 0, kind := 0,
    padb := 0, st := false, width := 0, op := 0, commid := 0, attempt := 0, len := 0, cseq := 0 }

/-- The incarnation of a device as this device knows it (R367). -/
def incOf (s : State) (dev : Nat) : W32 :=
  if dev == Config.deviceId.toNat then s.incarnation else SMap.getD s.incTable dev 0

/-- A device's incarnation as a reply carries it (R367). -/
def hearInc (s : State) (dev : Nat) (inc : W32) : State := { s with incTable := SMap.put s.incTable dev inc }

/-! ## Serials and floors (R353, R354) -/

/-- The serials of a gang that have no answer: its requests', the chunks of its reducing TXFERs, and the chunks that a
faulted TXFER had sent (R354, R372). -/
def openSerials (s : State) (g : Nat) : List W32 :=
  ((gangOf s g).reqs.map (·.hdr.serial))
    ++ ((coreOf s (gangOf s g).core).tcu.flatMap fun e => e.2.cmds.flatMap fun c =>
        if c.gang == g && c.kind == .xfer && fld (leNat c.shape) 115 3 != 0 then
          c.chunks.filterMap fun k => if k.phase == .done then none else some k.serial else [])
    ++ (s.sendRes.flatMap fun r => r.unans.filterMap fun u =>
        if u.chunk.hdr.kind == 2 && u.chunk.hdr.ident == identOf g then some u.chunk.hdr.serial else none)

/-- The lower of two serials. -/
def lowSerial (a b : W32) : W32 := if serialBelow b a then b else a

/-- The lowest serial without an answer; SER.NEXT when there is none. -/
def lowOpen (s : State) (g : Nat) : W32 :=
  (openSerials s g).foldl lowSerial (BitVec.ofNat 32 (srGet (gangOf s g) rSerNext).toNat)

/-- PIN (R353, R354): it falls when the team is tainted, when an issue cannot wait for it, and when the team has issued 2^20
instructions, for R343 flushes it no more. -/
def pinOn (s : State) (g : Nat) : Bool := (gangOf s g).pin && (teamOf s (teamKey g)).issued < 2 ^ 20

/-- The floor a gang advertises (R354). -/
def floorOf (s : State) (g : Nat) : W32 :=
  let G := gangOf s g
  if pinOn s g then 0 else lowSerial (lowOpen s g) G.ckSerial

/-- Whether `n` more serials stay within 2^20 of the floor; otherwise, when only a checkpoint or PIN holds the floor
back, the taint and PIN are cleared so that it rises (R186, R354). -/
def serialRoom (s : State) (g n : Nat) : Option State :=
  let next := BitVec.ofNat 32 (srGet (gangOf s g) rSerNext).toNat
  let after := (next + BitVec.ofNat 32 n)
  if (after - floorOf s g).toNat ≤ 2 ^ 20 then some s
  else if (after - lowOpen s g).toNat ≤ 2 ^ 20 then
    let s := taintTeam s (teamKey g)
    some (modGang s g fun G => { G with ckSerial := lowOpen s g })
  else none

/-- Room for `n` serials, `far` of them for requests that await replies from elsewhere: a gang has at most 128 of those
(R345). -/
def requestRoom (s : State) (g n far : Nat) : Option State :=
  if far != 0 && 128 < (gangOf s g).reqs.length + far then none else serialRoom s g n

/-- Takes `n` serials: SER.NEXT advances (R186). -/
def takeSerials (s : State) (g n : Nat) : State :=
  modGang s g fun G => srPut G rSerNext (BitVec.ofNat 64 (((srGet G rSerNext).toNat + n) % 2 ^ 32))

/-- A gang writes to an owner with the floor that its request carries (R361). -/
def noteOwner (s : State) (g dev : Nat) (floor : W32) : State :=
  if (SMap.find s.gangs g).isSome then
    modGang s g fun G => { G with acks := SMap.put G.acks dev { at_ := s.now, floor := floor } }
  else s

/-! ## The rind (R358 to R360) -/

/-- Entries that the overflow area holds (R358), with what the host has granted (R360): 5,592,405 per 256 MiB. -/
def rindCapacity (x : Sxe) : Nat := (1 + x.extra) * 5592405

/-- A reply to a request (R357). -/
def replyTo (s : State) (h : Header) (status : Nat) (result : Word) : Reply :=
  { ident := h.ident, serial := h.serial, inc := s.incarnation, result := result, status := BitVec.ofNat 8 status,
    cseq := h.cseq }

/-- The entry of an identity and a serial. -/
def rindFind (x : Sxe) (ident : Word) (serial : W32) : Option RindEnt :=
  x.rind.find? fun e => e.ident == ident && e.serial == serial

/-- The floor of an identity rises and its entries below it retire (R359). -/
def rindFloor (now : Nat) (x : Sxe) (ident : Word) (f : W32) : Sxe :=
  let old := (x.recs.find? fun r => r.ident == ident).map (·.floor)
  let f := match old with | some o => if serialBelow o f then f else o | none => f
  let rind := x.rind.filter fun e => !(e.ident == ident && serialBelow e.serial f)
  let has := rind.any fun e => e.ident == ident
  let had := x.rind.any fun e => e.ident == ident
  if old.isNone && !had then { x with rind := rind }
  else
    let was := (x.recs.find? fun r => r.ident == ident).bind (·.emptyAt)
    let r : ReqRec := { ident := ident, floor := f, emptyAt := if has then none else some (was.getD now) }
    { x with rind := rind, recs := r :: x.recs.filter fun r => r.ident != ident }

/-- RESULT of a refusal (R357). -/
def refusalWord (c : Cause) (detail : Nat) : Word := BitVec.ofNat 64 (detail * 256 + c.code)

/-- Serve (R359): one step that answers a request from the rind or performs it and records its result. `refusal` is the
RESULT of a refusal by R328 or R400 that takes the operation's place. -/
def serveWith (s : State) (die : Nat) (h : Header) (refusal : Option Word) (perform : State → State × Word) :
    State × Reply :=
  let x := sxeOf s die
  let old := (x.recs.find? fun r => r.ident == h.ident).map (·.floor)
  if (match old with | some f => serialBelow h.serial f | none => false) then (s, replyTo s h 5 0)
  else
    let finish := fun (s : State) => modSxe s die fun x => rindFloor s.now x h.ident h.floor
    match rindFind x h.ident h.serial with
    | some e =>
      if e.digest != h.digest then (finish s, replyTo s h 2 0)
      else (finish s, replyTo s h (if e.ref then 6 else 1) e.result)
    | none =>
      if serialBelow h.inc s.warmBase then (finish s, replyTo s h 3 0)
      else if rindCapacity x ≤ x.rind.length then (finish s, replyTo s h 4 0)
      else
        let r := match refusal with | some w => (s, w) | none => perform s
        let s := modSxe r.1 die fun x =>
          { x with rind := x.rind ++ [{ addr := h.addr, ident := h.ident, result := r.2, serial := h.serial,
                                        digest := h.digest, inc := s.incarnation, kind := h.kind, ref := refusal.isSome }] }
        let x := sxeOf s die
        let s := if hostMode s 2 && !x.warned && rindCapacity x * 7 / 8 ≤ x.rind.length then
          toHost (modSxe s die fun x => { x with warned := true }) (.notify 0x08 [die] []) else s
        (finish s, replyTo s h (if refusal.isSome then 6 else 0) r.2)

/-! ## Answers (R357, R366, R368) -/

/-- The value of an answer reaches its destination (R183). -/
def deliver (G : Gang) (d : Dest) (x : Word) : Gang :=
  match d with
  | .none => G
  | .lane l r w => if (thr G l).isSome then wrV G r l (w.extend x.toNat) (2 ^ 64 - 1) else G
  | .uni r w => wrS G r (w.extend x.toNat)

/-- A request of a gang is answered (R357): its value is delivered, or a later instruction faults, or the request is
kept to be sent again. -/
def answer (s : State) (g : Nat) (r : OutReq) (p : Reply) : State :=
  let drop := fun (G : Gang) => { G with reqs := G.reqs.filter fun q => q.hdr.serial != r.hdr.serial }
  let late := fun (c : Cause) (sub : Nat) =>
    modGang s g fun G => { drop G with late := (drop G).late ++
      [{ dest := r.dest, cause := c, sub := sub, serial := r.hdr.serial, addr := r.hdr.addr }] }
  match p.status.toNat with
  | 0 | 1 => modGang s g fun G => deliver (drop G) r.dest p.result
  | 2 => late .replay 0
  | 3 =>
    let lane := match r.dest with | .lane l _ _ => l | _ => 0xFF
    let s' := late .indoubt 0
    reportFault s' { gangRec s' g r.pc .indoubt 0 0 lane r.hdr.addr false with
                   extra := BitVec.zeroExtend 64 r.hdr.serial }
  | 4 => modGang s g fun G => { G with reqs := G.reqs.map fun q =>
      if q.hdr.serial == r.hdr.serial then { q with full := true, sentAt := s.now } else q }
  | 6 => late (Cause.ofCode (Word.fld p.result 0 8)) (Word.fld p.result 8 8)
  | _ => s

/-- A late fault that a read of a register meets, or that a fence, a release or an EXIT meets (R366, R368). -/
def lateFor (G : Gang) (f : Dest → Bool) : Option LateFault := G.late.find? fun l => f l.dest

end Sys2Proof.Machine
end

