-- ==== Sys2Proof/Machine/Engine.lean ====
section
/-!
DEFINITION. What every engine command shares: timelines (R170), completion, cancellation (R208) and faults (R210) of TCU
commands, and global bytes that the Ectil's own paths reach (R320).
-/
namespace Sys2Proof.Machine

/-! ## Global bytes without a core's TLB -/

/-- The place of a global byte of a context by its tables alone (R319). -/
def ctxByte (s : State) (ctx va kind : Nat) (sysOk : Bool) : Except Cause Loc :=
  match walk s ctx va with
  | .absent .. => .error .pagef
  | .leaf e big =>
    match leafRefuses e kind sysOk with
    | some c => .error c
    | none => .ok (if leafPlace e == 3 then .remote (leafDev e) ctx (leafPhys e big va) else .phys (leafPhys e big va))

/-- The places of `n` global bytes of a context. -/
def ctxBytes (s : State) (ctx va kind : Nat) (sysOk : Bool) : Nat → Except Cause (List Loc)
  | 0 => .ok []
  | n + 1 => do
    let l ← ctxByte s ctx va kind sysOk
    let t ← ctxBytes s ctx (va + 1) kind sysOk n
    .ok (l :: t)

/-- The number that `n` readable global bytes of a context hold. -/
def ctxRead (s : State) (ctx va n : Nat) (sysOk : Bool) : Option Nat :=
  match ctxBytes s ctx va accRead sysOk n with
  | .ok ls => some (leNat (ls.map (locRead s)))
  | .error _ => none

/-- A page that a part of the device itself needs for its work: there, awaited from the host, or refused (R323 to R325). -/
inductive PageRes where
  | there | wait | refused
  deriving DecidableEq, Repr

/-- A page fault of master `m` at a page of a context (R323 to R325): the walker serves it, the host is asked once, or it is
refused; a refusal by the host is used up here. -/
def ownPage (s : State) (ctx va kind m : Nat) (sysOk : Bool) : State × PageRes :=
  match ctxByte s ctx va kind sysOk with
  | .error .pagef =>
    if hostMode s 1 then
      if s.pfNo.contains (m, ctx, va / 2 ^ 16) then ({ s with pfNo := s.pfNo.filter (· != (m, ctx, va / 2 ^ 16)) }, .refused)
      else if s.pfWaiters.any fun w => w.2 == m then (s, .wait)
      else ((raisePageFault s ctx va kind m).2, .wait)
    else match zeroFill s ctx va with
      | some s => (s, .there)
      | none => (s, .refused)
  | _ => (s, .there)

/-- The pages of `n` bytes from `va` on, one after the other, until one is not there. -/
def ownPages (s : State) (ctx va n kind m : Nat) (sysOk : Bool) : State × PageRes :=
  let pages := (List.range (if n == 0 then 0 else (va + n - 1) / 65536 - va / 65536 + 1)).map fun i => Nat.max va ((va / 65536 + i) * 65536)
  pages.foldl (fun r a => if r.2 == .there then ownPage r.1 ctx a kind m sysOk else r) (s, .there)

/-! ## Accesses to other devices that are no gang's loads (R328) -/

/-- The key of a place of another device. -/
def farKey (dev a : Nat) : Nat := dev * 2 ^ 48 + a

/-- The identity of an access that no gang makes: its device and its context (R328, R350). -/
def ctxIdent (ctx : Nat) : Word := BitVec.ofNat 64 (Config.deviceId.toNat % 1024 * 2 ^ 54 + ctx % 4096 * 2 ^ 42)

/-- `n` bytes of another device's frame are asked for (R328). -/
def askFarRead (s : State) (who : FarWho) (dev ctx a n : Nat) (va : Word) : State :=
  let r := noteFar s who dev ctx a n va
  send r.2 (.remote dev r.1 { ctx := ctx, frame := a / 65536, off := a % 65536, size := n, data := none })

/-- A timeline on another device is to become max(current, value): its owner is asked, as a TLADV asks it (R195). -/
def askTimeline (s : State) (who : FarWho) (dev ctx a : Nat) (va value : Word) : State :=
  send (noteFar s who dev ctx a 8 va).2
    (.request dev { Header.blank with addr := BitVec.ofNat 64 a, operand := value, ident := ctxIdent ctx, width := 2, op := 5 })

/-- What was last read of a timeline on another device; a timeline never falls (R170). -/
def farValue (s : State) (dev a : Nat) : Word := SMap.getD s.farTl (farKey dev a) 0

/-- The timeline at eight places: on this device what they hold, on another what was last read of it. -/
def tlRead (s : State) (ls : List Loc) : Word :=
  match ls with
  | .remote d _ a :: _ => farValue s d a
  | _ => BitVec.ofNat 64 (leNat (ls.map (locRead s)))

/-- A wait on a timeline of another device that does not hold enough reads it there (R170, R328), unless it is being read for
the same wait. -/
def pollFar (s : State) (ls : List Loc) (who : FarWho) (va : Word) : State :=
  match ls with
  | .remote d x a :: _ => if s.farOps.any fun o => o.who == who then s else askFarRead s who d x a 8 va
  | _ => s

/-- The die that homes a global address of a context; die 0 where it does not translate. -/
def homeOf (s : State) (ctx va : Nat) : Nat :=
  match ctxByte s ctx va accRead true with
  | .ok (.phys a) => homeDie s a
  | _ => 0

/-- A completion timeline becomes max(current, value) (R170, R195, R222, R227); a SYS page is not written (R320), and the cause
of a refusal is answered. Where it lies on another device its owner is asked, and `who` awaits the answer; the second part
says so. -/
def raiseTimeline (s : State) (ctx : Nat) (va value : Word) (who : FarWho) : Except Cause (State × Bool) :=
  match windowOf va with
  | .global a =>
    if a % 8 != 0 then .error .prot
    else match ctxBytes s ctx a accWrite false 8 with
      | .error c => .error c
      | .ok (.remote d x p :: _) => .ok (askTimeline s who d x p va value, true)
      | .ok ls =>
        let old := BitVec.ofNat 64 (leNat (ls.map (locRead s)))
        .ok (locWrites s (ls.zip (leBytes 8 (Word.maxU old value).toNat)), false)
  | _ => .error .prot

/-! ## Timelines (R170, Table 5) -/

/-- The value of a TCU context's timeline. -/
def tcuValue (x : TcuCtx) : Nat := tlValue x.issued (x.cmds.map (·.num))

/-- The leader of a team's pair. -/
def leaderOf (s : State) (t : Nat) : Nat := if (teamOf s t).leader then t else ((teamOf s t).partner).getD t

/-- The value of the matrix timeline of the pair that team `t` belongs to (R135); either team keeps it, so it ends with the
pair (R348). -/
def matValue (s : State) (t : Nat) : Nat :=
  let T := teamOf s t
  tlValue T.mIssued (((matOf s (pairOfCore T.core)).ops.filter fun o => o.team == leaderOf s t && !o.gone).map (·.num))

/-- A change of a team and of its partner, where they stand. -/
def modPair (s : State) (t : Nat) (f : Team → Team) : State :=
  (t :: ((teamOf s t).partner).toList).foldl (fun s k => if (SMap.find s.teams k).isSome then modTeam s k f else s) s

/-- The offset D of a team's timeline numbers in a TCU context (R346). -/
def tlOffOf (T : Team) (x : Nat) : Int := SMap.getD T.tlOff x 0

/-- A core number as the team sees it (R346). -/
def teamNum (T : Team) (x num : Nat) : Word := wordOf ((num : Int) - tlOffOf T x)

/-! ## Commands of a TCU context (R198) -/

/-- The places of a command's barrier. -/
def cmdBar (s : State) (m : Cmd) : Option (List Loc) :=
  match m.bar with
  | none => none
  | some a => match genBytes s m.gang m.lane a accWrite 9 16 with | .ok l => some l | .error _ => none

/-- A command leaves its context. -/
def dropCmd (s : State) (core x num : Nat) : State :=
  modTcu s core x fun t => { t with cmds := t.cmds.filter fun m => m.num != num }

/-- A command changes. -/
def modCmd (s : State) (core x num : Nat) (f : Cmd → Cmd) : State :=
  modTcu s core x fun t => { t with cmds := t.cmds.map fun m => if m.num == num then f m else m }

/-- The command with a number. -/
def cmdOf (s : State) (core x num : Nat) : Option Cmd := (tcuOf s core x).cmds.find? fun m => m.num == num

/-- A command completes: its number is passed and its events wait for the issuing gang (R82, R170). -/
def finishCmd (s : State) (core x : Nat) (m : Cmd) : State :=
  modTcu (dropCmd s core x m.num) core x fun t =>
    if m.events.isEmpty then t
    else { t with events := t.events ++ [{ gang := m.gang, num := m.num, lane := m.lane, events := m.events, taken := false }] }

/-- The record of an engine command's fault (R210, R330). -/
def cmdRec (s : State) (x : Nat) (m : Cmd) (cause : Cause) (sub : Nat) (addr : Word) (extra : Word) : FaultRec :=
  { gangRec s m.gang m.pc cause 0 sub 0xFF addr false with
    tl := teamNum (teamOf s m.team) x m.num, unit := x, extra := extra,
    master := match m.kind with | .ld | .st => 1 | .xfer | .abort => 2 }

/-- The path of a chunk to a rank of this device: no port and not the E-plane (R398). -/
abbrev pathOwn : Nat := 33

/-- A chunk of a command that is on its way on a path. -/
def ChunkSt.on (k : ChunkSt) (path : Nat) : Bool := match k.phase with | .flying p _ => p == path | _ => false

/-- The chunks of a command that are staged on this device's own path write no more: they leave the staging (R208, R210). -/
def dropOwn (s : State) (m : Cmd) : State :=
  { s with cxes := s.cxes.map fun e => (e.1, { e.2 with staged := e.2.staged.filter fun t =>
      !(t.path == pathOwn && m.chunks.any fun k => k.on pathOwn && k.held == some t.chunk) }) }

/-- A command is cancelled (R208): nothing more lands, its counted bytes return to the barrier, its number completes. -/
def cancelCmd (s : State) (core x : Nat) (m : Cmd) : State :=
  let s := match cmdBar s m with | some ls => if m.landed == 0 then s else barRaise s ls m.landed | none => s
  dropCmd (dropOwn s m) core x m.num

/-- Whether bytes of a command are on their way to another device, which may still write them. -/
def inFlight (m : Cmd) : Bool :=
  !m.outs.isEmpty || m.chunks.any fun k => k.phase != .done && k.held.isSome && !k.on pathOwn

/-- A command that a TCANCEL of gang `g` stops: what it has not sent is given up (R208). -/
def cutCmd (g : Nat) (m : Cmd) : Cmd :=
  { m with cut := some g, left := [], chunks := m.chunks.filter fun k => k.phase != .done && k.held.isSome && !k.on pathOwn }

/-- Whether TCANCEL may cancel a command (R208): not a reducing TXFER that has sent its first chunk. -/
def cancellable (m : Cmd) : Bool := !(m.kind == .xfer && m.sent && fld (leNat m.shape) 115 3 != 0)

/-- A gang has been told of a fault. -/
def EngFault.told (f : EngFault) (g : Nat) : Bool := f.reported.contains g || f.fresh.contains g

/-- The lowest-numbered fault at or below `n` that a gang has not been told of (R170). -/
def engFaultFor (fs : List EngFault) (g n : Nat) : Option EngFault :=
  fs.foldl (fun r f => if f.num ≤ n && !f.told g then
    (match r with | some h => if f.num < h.num then some f else r | none => some f) else r) none

/-- A fault is marked as told to a gang. -/
def tellFault (fs : List EngFault) (g num : Nat) : List EngFault :=
  fs.map fun f => if f.num == num then { f with fresh := g :: f.fresh } else f

end Sys2Proof.Machine
end

