-- ==== Sys2Proof/Machine/Dispatcher.lean ====
section
/-!
DEFINITION. From a record to a team on a core, and back: launch parameter blocks (R223), continuation records (R226),
record queues (R228), admission (R18, R20, R229, R317, R318), join counters (R227), retirement, kill and flush
(R259, R343, R347, R348, R362).
-/
namespace Sys2Proof.Machine

/-! ## Launch parameter blocks (R223, Table 2) -/

def lpbNgang (b : Nat) : Nat := fld b 559 5 + 1
def lpbBudget (b r : Nat) : Nat := fld b (544 + 3 * r) 3
def lpbRole (b g : Nat) : Nat := fld b (448 + 3 * g) 3
def lpbScratch (b : Nat) : Nat := fld b 424 20
def lpbPrivate (b : Nat) : Nat := fld b 400 24
def lpbClass (b : Nat) : Nat := fld b 398 2
def lpbResident (b : Nat) : Bool := bitOf b 397
def lpbIdem (b : Nat) : Bool := bitOf b 396
def lpbPair (b : Nat) : Bool := bitOf b 395
def lpbPfloor (b : Nat) : Nat := fld b 392 3
def lpbTeams (b : Nat) : Nat := fld b 320 37
def lpbUimg (b : Nat) : Nat := fld b 256 64
def lpbTrap (b : Nat) : Nat := fld b 192 64
def lpbTimeline (b : Nat) : Nat := fld b 128 64
def lpbFrame (b : Nat) : Nat := fld b 64 64
def lpbEntry (b : Nat) : Nat := fld b 0 64
/-- Matrix-role gangs of a team. -/
def lpbMatrix (b : Nat) : Nat := ((List.range (lpbNgang b)).filter fun g => lpbRole b g == 2).length

/-! ## Continuation records (R226, Table 4) -/

/-- The fields of a record's 32 bytes. -/
def recordOf (n : Nat) : Record :=
  { queue := fld n 250 6, pfloor := fld n 247 3, cls := fld n 245 2, kind := fld n 244 1, ngang := fld n 239 5,
    budget := fld n 236 3, hv := bitOf n 235, hint := fld n 192 41, join := BitVec.ofNat 64 (fld n 128 64),
    frame := BitVec.ofNat 64 (fld n 64 64), code := BitVec.ofNat 64 (fld n 0 64), launch := none, number := none }

/-- The 32 bytes of a record as a number. -/
def recordNat (r : Record) : Nat :=
  r.queue % 64 * 2 ^ 250 + r.pfloor % 8 * 2 ^ 247 + r.cls % 4 * 2 ^ 245 + r.kind % 2 * 2 ^ 244 + r.ngang % 32 * 2 ^ 239
    + r.budget % 8 * 2 ^ 236 + b2n r.hv * 2 ^ 235 + r.hint % 2 ^ 41 * 2 ^ 192 + r.join.toNat * 2 ^ 128
    + r.frame.toNat * 2 ^ 64 + r.code.toNat

/-- First team index and count of a range record. -/
def rangeFirst (r : Record) : Nat := Word.fld r.frame 0 37
def rangeCount (r : Record) : Nat := Word.fld r.frame 37 27 + 1
/-- FRAME of a range record. -/
def rangeFrame (first count : Nat) : Word := BitVec.ofNat 64 ((count - 1) % 2 ^ 27 * 2 ^ 37 + first % 2 ^ 37)

/-- The effective priority number of a record at this moment (R228). -/
def effPrio (s : State) (r : Record) : Nat := Nat.max (queueOf s r.queue).prio r.pfloor

/-- The record queue of a context: die 0 to 3, or 4 for the device queue. -/
def rqKey (ctx d : Nat) : Nat := ctx * 5 + d

/-- The queue a record is pushed to (R228): the die that homes the hinted page, or the device queue. -/
def rqFor (s : State) (ctx : Nat) (r : Record) : Nat :=
  if r.hv then
    match ctxByte s ctx (r.hint * 2 ^ 16) accRead true with
    | .ok (.phys a) => rqKey ctx (homeDie s a)
    | _ => rqKey ctx 4
  else rqKey ctx 4

/-- A record is pushed (R228). -/
def pushRecord (s : State) (ctx : Nat) (r : Record) : State :=
  let k := rqFor s ctx r
  { s with recQ := SMap.put s.recQ k (SMap.getD s.recQ k [] ++ [{ item := r, order := s.pushed, at_ := s.now }]),
           pushed := s.pushed + 1 }

/-- A record is requeued at the head of its queue (R343). -/
def requeue (s : State) (ctx : Nat) (r : Record) : State :=
  let k := rqFor s ctx r
  { s with recQ := SMap.put s.recQ k ({ item := r, order := 0, at_ := s.now } :: SMap.getD s.recQ k []) }

/-- A context's record queue memory has room for one more record (R261): the specification leaves its size open (log 9), but for
the 64 records of each queue that are held on chip (R228). -/
def recordRoom (s : State) (ctx : Nat) : Bool :=
  let n := ((List.range 5).map fun d => (SMap.getD s.recQ (rqKey ctx d) []).length).sum
  n < 64 || n < Config.recordCap ctx

/-! ## The private pool (R316, R318, R345) -/

/-- Bytes of the gang blocks of a save area (R345, Table 4). -/
def gangBlocks (roles : List Role) (budgets : List Nat) : Nat :=
  ((roles.zip budgets).map fun e => 6144 + 2048 * (e.2 + 1) + (if e.1 == .matrix then 8192 else 0)).sum

/-- Bytes of the brine with its written-granule map, the last part of a save area (R345, Table 4). -/
def brineBytes (roles : List Role) (budgets : List Nat) (scratch : Nat) : Nat :=
  let n := gangBlocks roles budgets + scratch
  n + n / 32

/-- Bytes of the save area of a team (R345, Table 4). -/
def saveBytes (roles : List Role) (budgets : List Nat) (scratch : Nat) : Nat :=
  let gb := gangBlocks roles budgets
  let base := 256 + gb
  let sp := (base + 255) / 256 * 256 + scratch
  let tabs := sp + 256 * 192 + roles.length * 8192
  let pm := (tabs + 63) / 64 * 64 + (scratch / 128 + 63) / 64 * 64
  let items := pm + (if roles.contains .worker then 2097152 else 0)
  items + brineBytes roles budgets scratch

/-- The lowest free block of `n` bytes in a context's private pool, as an offset. -/
def poolFind (s : State) (ctx n : Nat) : Option Nat :=
  let size := ctxField s ctx 32 32 * 65536
  let taken := (s.privTaken.filter fun e => e.1 == ctx).map (·.2)
  let starts := 0 :: taken.map fun e => (e.1 + e.2 + 255) / 256 * 256
  let ok := starts.filter fun a => a + n ≤ size && taken.all fun e => a + n ≤ e.1 || e.1 + e.2 ≤ a
  match ok with | [] => none | a :: t => some (t.foldl Nat.min a)

/-! ## Admission -/

/-- What a record asks of a core: roles, budgets, scratch, private bytes, entry, frame, image, trap. -/
structure Ask where
  roles   : List Role
  budgets : List Nat
  scratch : Nat
  priv    : Nat
  entry   : Word
  frame   : Word
  image   : List Word
  trap    : Word
  idem    : Bool
  pair    : Bool
  resident : Bool
  deriving DecidableEq, Repr

/-- The team that a record stands for (R223, R226, R316). -/
def askOf (s : State) (ctx : Nat) (r : Record) : Ask :=
  match r.launch.bind (SMap.find s.launches) with
  | some L =>
    let roles := (List.range (lpbNgang L.lpb)).map fun g => Role.ofCode (lpbRole L.lpb g)
    { roles := roles, budgets := roles.map fun r => lpbBudget L.lpb r.code, scratch := lpbScratch L.lpb,
      priv := lpbPrivate L.lpb, entry := BitVec.ofNat 64 (lpbEntry L.lpb), frame := BitVec.ofNat 64 (lpbFrame L.lpb),
      image := L.image, trap := BitVec.ofNat 64 (lpbTrap L.lpb), idem := lpbIdem L.lpb, pair := lpbPair L.lpb,
      resident := lpbResident L.lpb }
  | none =>
    let n := r.ngang + 1
    { roles := List.replicate n .general, budgets := List.replicate n r.budget, scratch := 0,
      priv := ctxField s ctx 168 24, entry := r.code, frame := r.frame, image := [],
      trap := BitVec.ofNat 64 (ctxField s ctx 192 64), idem := false, pair := false, resident := false }

/-- The free slots of a quarter of a core, lowest first. -/
def freeSlots (s : State) (core q : Nat) : List Nat :=
  let used := (s.gangs.filter fun e => e.2.core == core && (teamOf s (teamKey e.1)).st != .saved).map (·.2.slot)
  ((List.range 8).map (8 * q + ·)).filter fun x => !used.contains x

/-- The slots of a team's gangs, in team gang order (R20). -/
def slotsFor (s : State) (core n : Nat) : Option (List Nat) :=
  (List.range n).mapM fun i => (freeSlots s core (i % 4))[i / 4]?

/-- The lowest free scratchpad block of a core: an allotment is one run of bytes at the lowest start that is free, which the
specification leaves open (log 9, DESIGN CHOICE). -/
def spadFind (s : State) (core n : Nat) : Option Nat :=
  let taken := ((teamsOn s core).map (teamOf s)).map fun T => (T.spBase, T.spSize)
  let starts := 0 :: taken.map fun e => e.1 + e.2
  let ok := starts.filter fun a => a + n ≤ 262144 && taken.all fun e => a + n ≤ e.1 || e.1 + e.2 ≤ a
  match ok with | [] => none | a :: t => some (t.foldl Nat.min a)

/-- Matrix-role gangs on a core (R11). -/
def matrixOn (s : State) (core : Nat) : Nat :=
  (s.gangs.filter fun e => e.2.core == core && e.2.role == .matrix && (teamOf s (teamKey e.1)).st != .saved).length

/-- Free gang slots of a core. -/
def freeCount (s : State) (core : Nat) : Nat := ((List.range 4).map fun q => (freeSlots s core q).length).sum

/-- Whether a core can take a team now (R9, R229, R317, R335, R274). -/
def fits (s : State) (ctx core : Nat) (cls : Nat) (a : Ask) : Bool :=
  let C := coreOf s core
  let I := islandOf s (islandOfCore core)
  core < 320 && !C.suspect && (teamsOn s core).all (fun t => ctxOfTeam t == ctx) && I.pool == cls
    && (dieOf s (dieOfCore core)).drain != some (islandOfCore core)
    && (slotsFor s core a.roles.length).isSome && (spadFind s core a.scratch).isSome
    && matrixOn s core + (a.roles.filter (· == .matrix)).length ≤ 16

/-- The core with the most free slots, the lowest number among equals. -/
def bestCore (s : State) (cores : List Nat) : Option Nat :=
  cores.foldl (fun r c => match r with | none => some c | some b => if freeCount s b < freeCount s c then some c else r) none

/-- The core for a record's team on a die (R229); for a pair its leader core. -/
def coreFor (s : State) (ctx die cls : Nat) (a : Ask) : Option Nat :=
  let cores := (List.range 80).map (80 * die + ·)
  if a.pair then
    (cores.filter fun c => c % 2 == 0 && fits s ctx c cls a && fits s ctx (c + 1) cls a).foldl (fun r c =>
      match r with
      | none => some c
      | some b => if freeCount s b + freeCount s (b + 1) < freeCount s c + freeCount s (c + 1) then some c else r) none
  else bestCore s (cores.filter fun c => fits s ctx c cls a)

/-- A gang at its start (R25, R225, R353): worker gangs start idle. -/
def startGang (a : Ask) (core slot age : Nat) (role : Role) (budget : Nat) : Gang :=
  let G := { Gang.blank with core := core, slot := slot, role := role, budget := budget, age := age, pin := a.idem }
  let G := sPut G 0 a.frame
  let G := (List.range 64).foldl (fun G i => if i == 0 then G else sPut G i ((a.image[i]?).getD 0)) G
  let G := srPut (srPut (srPut G rVoteLast 3) rTsLane 0xFF) rTsVec a.trap
  if role == .worker then G
  else { G with threads := lanes.map fun l => (l, { pc := a.entry, held := false, wait := .none }) }

/-- A context comes to a core that holds no team: its slice starts there (R237), and of another context that was there before
nothing stays in the TCU contexts (R317). -/
def enterCore (s : State) (core ctx : Nat) : State :=
  if (teamsOn s core).isEmpty then
    modCore s core fun C => { C with sliceN := 0, sliceAt := cyclesOf s core, lastCtx := some ctx,
                                     tcu := if C.lastCtx == some ctx then C.tcu else [] }
  else s

/-- Scratchpad granules without the poison of those in an allotment at `base`, which reads 0 at first (R317). -/
def cleanSpad (bad : SMap Nat) (base n : Nat) : SMap Nat := bad.filter fun e => !(base ≤ 16 * e.1 && 16 * e.1 < base + n)

/-- Admits one team to a core (R18, R20, R225, R317, R318, R338); `none` when its private block does not fit. -/
def admitTeam (s : State) (ctx core number index : Nat) (r : Record) (partner : Option Nat) (leader : Bool) :
    Option (Nat × State) := do
  let a := askOf s ctx r
  let slots ← slotsFor s core a.roles.length
  let sp ← spadFind s core a.scratch
  let size := a.roles.length * 32 * a.priv + saveBytes a.roles a.budgets a.scratch
  let needPool := a.priv != 0 || ctxField s ctx 32 32 != 0
  let off ← if needPool then poolFind s ctx size else some 0
  let t := mkTeam ctx number
  let T : Team := { Team.blank with
    core := core, ctx := ctx, number := number, index := index, launch := r.launch, record := r, prio := effPrio s r,
    ngang := a.roles.length, spBase := sp, spSize := a.scratch,
    prBase := BitVec.ofNat 64 (ctxField s ctx 64 64 + off), prSize := a.priv, partner := partner, leader := leader,
    resident := a.resident, idem := a.idem }
  let gangs := ((slots.zip a.roles).zip a.budgets).zipIdx.map fun e =>
    (mkGang t e.2, startGang a core e.1.1.1 (s.age + e.2) e.1.1.2 e.1.2)
  let s := enterCore s core ctx
  let s := { s with
    poisonSp := cleanSpad s.poisonSp (core * 2 ^ 18 + sp) a.scratch,
    gangs := gangs.foldl (fun m e => SMap.put m e.1 e.2) s.gangs, age := s.age + gangs.length,
    spad := s.spad.filter fun e => !(core * 2 ^ 18 + sp ≤ e.1 && e.1 < core * 2 ^ 18 + sp + a.scratch),
    privTaken := if needPool then (ctx, off, size) :: s.privTaken else s.privTaken }
  let s := setTeam s t T
  let s := modCore s core fun C => { C with gone := C.gone.filter fun e => !slots.contains e.1 }
  some (t, takeCkpt s t)

/-- The next number of a context's team counter (R351). -/
def nextNumber (s : State) (ctx : Nat) : Nat × State :=
  let n := SMap.getD s.teamCnt ctx 0
  (n, { s with teamCnt := SMap.putD s.teamCnt 0 ctx ((n + 1) % (2 ^ 37 - 1)) })

/-- Admits the first team of a record, or its first pair, to core `core`; the record that remains, if any. -/
def admitHead (s : State) (ctx core : Nat) (r : Record) : Option (State × Option Record) :=
  let a := askOf s ctx r
  match r.launch.bind (SMap.find s.launches) with
  | none =>
    let n := match r.number with | some n => (n, s) | none => nextNumber s ctx
    (admitTeam n.2 ctx core n.1 0 r none false).map fun e => (e.2, none)
  | some L =>
    let first := rangeFirst r
    let num := fun i => (r.number.getD ((L.tbase + i) % (2 ^ 37 - 1)))
    let one := fun i => { r with frame := rangeFrame i 1 }
    let k := if a.pair then 2 else 1
    let left := if rangeCount r ≤ k then none else some { r with frame := rangeFrame (first + k) (rangeCount r - k) }
    if a.pair then do
      let ta := mkTeam ctx (num first)
      let tb := mkTeam ctx ((L.tbase + first + 1) % (2 ^ 37 - 1))
      let e ← admitTeam s ctx core (num first) first (one first) (some tb) true
      let f ← admitTeam e.2 ctx (core + 1) ((L.tbase + first + 1) % (2 ^ 37 - 1)) (first + 1) (one (first + 1)) (some ta) false
      some (f.2, left)
    else (admitTeam s ctx core (num first) first (one first) none false).map fun e => (e.2, left)

/-! ## Join counters and completion (R227) -/

/-- A launch completes: its completion message (R224, R227). -/
def launchDone (s : State) (k : Nat) (written : Bool) : State :=
  match SMap.find s.launches k with
  | none => s
  | some L =>
    let status := if L.killed then 3 else if written then 0 else 4
    let off := L.counter.toNat - ctxField s L.ctx 64 64
    let s := { s with launches := SMap.put s.launches k { L with complete := true },
                      privTaken := s.privTaken.filter fun e => !(e.1 == L.ctx && e.2.1 == off && e.2.2 == 32) }
    toHost s (.notify 0x01 [L.queue, status] [BitVec.ofNat 64 (lpbTimeline L.lpb), L.value])

/-- The key by which page faults of a decrement are known among the masters. -/
def masterJoin (h : Header) : Nat := 2 ^ 58 + h.ident.toNat % 2 ^ 54

/-- The launch whose counter stands at an address (R227). -/
def counterOf (s : State) (ctx : Nat) (va : Word) : Option Nat :=
  (s.launches.find? fun e => e.2.counter == va && e.2.ctx == ctx && !e.2.complete).map (·.1)

/-- A decrement answered REPLAY or INDOUBT completes the launch of its counter with status 3 (R366, R368). -/
def joinDoubt (s : State) (ctx : Nat) (counter : Word) : State :=
  match counterOf s ctx counter, (counterOf s ctx counter).bind (SMap.find s.launches) with
  | some k, some L => launchDone { s with launches := SMap.put s.launches k { L with killed := true } } k true
  | _, _ => s

/-- A decrement in the hands of the dispatcher: it is sent again until it is answered (R362, R364). -/
def joinReq (s : State) (h : Header) (dev : Nat) (full : Bool) : State :=
  { s with orphans := s.orphans ++ [{ hdr := h, dest := .none, owner := dev, pc := 0, sentAt := s.now, wait := 10000,
                                      full := full, quiet := false, acq := false, locs := [], item := none, nth := 0 }] }

/-- The record of a refused decrement or of a refused action of a counter (R326, R330): it names the requester's team and
gang, and the address. -/
def joinRefused (s : State) (ctx : Nat) (h : Header) (c : Cause) (va : Word) : State :=
  reportFault s { pc := 0, addr := va, tl := 0, team := Word.fld h.ident 5 37, core := 0, gang := Word.fld h.ident 0 5,
                  dev := Word.fld h.ident 54 10, ctx := ctx, lane := 0xFF, field := 0, sub := 0, cause := c, master := 0, unit := 0,
                  restart := false, dbl := false, extra := 0 }

/-- The record at the TARGET of a counter of KIND 1 is pushed (R227); it is asked for where another device holds it. -/
def pushTarget (s : State) (ctx : Nat) (h : Header) (target : Word) : State :=
  let r := ownPages s ctx target.toNat 32 accRead (masterJoin h) false
  match ctxBytes r.1 ctx target.toNat accRead false 32 with
  | .error c => joinRefused r.1 ctx h c target
  | .ok (.remote d x a :: _) => askFarRead r.1 (.record ctx) d x a 32 target
  | .ok ls => pushRecord r.1 ctx (recordOf (leNat (ls.map (locRead r.1))))

/-- The action that a counter takes at 0 (R227, Table 5): its KIND, then CMPEV, by which every WAIT is evaluated afresh, and
INTR. `mine` is the launch whose counter it is: it completes. -/
def joinAction (s : State) (ctx : Nat) (h : Header) (n : Nat) (mine : Option Nat) : State :=
  let target := BitVec.ofNat 64 (fld n 128 64)
  let s := match fld n 252 2, mine with
    | 1, none => pushTarget s ctx h target
    | 2, some k =>
      let pg := ownPage s ctx target.toNat accWrite (masterJoin h) false
      match raiseTimeline pg.1 ctx target (BitVec.ofNat 64 (fld n 192 60)) (.launch k) with
      | .ok (s, true) => s
      | .ok (s, false) => launchDone s k true
      | .error _ => launchDone pg.1 k false
    | 2, none =>
      let pg := ownPage s ctx target.toNat accWrite (masterJoin h) false
      match raiseTimeline pg.1 ctx target (BitVec.ofNat 64 (fld n 192 60)) .none with
      | .ok (s, _) => s
      | .error c => joinRefused pg.1 ctx h c target
    | 1, some k => launchDone (pushTarget s ctx h target) k true
    | _, some k => launchDone s k true
    | _, none => s
  let s := if bitOf n 254 then { s with progress := s.progress + 1 } else s
  if bitOf n 255 then toHost s (.notify 0x05 [ctx] [h.addr]) else s

/-- One decrement of the counter whose 32 bytes lie at `ls` (R227): a counter at 0 stays there and the host is told. -/
def joinTake (s : State) (ctx : Nat) (h : Header) (ls : List Loc) (mine : Option Nat) : State :=
  let n := leNat (ls.map (locRead s))
  let pending := fld n 0 64
  if pending == 0 then toHost s (.notify 0x05 [ctx] [h.addr])
  else
    let s := locWrites s ((ls.take 8).zip (leBytes 8 (pending - 1)))
    if pending == 1 then joinAction s ctx h n mine else s

/-- The counter to decrement next: PARENT, where the decrement of this counter takes it to 0 (R227). -/
def joinParent (s : State) (ls : List Loc) : Word :=
  let n := leNat (ls.map (locRead s))
  if fld n 0 64 == 1 then BitVec.ofNat 64 (fld n 64 64) else 0

/-- The header of the decrement of a parent: the child's identity with the serial after the child's (log 22). -/
def parentHdr (s : State) (h : Header) (parent : Word) : Header :=
  let p := { h with addr := parent, serial := h.serial + 1, inc := s.incarnation }
  { p with digest := digestOf p [] }

/-- A decrement as its counter's home or owner takes it (R227, R352, R359): the page is served, the SXE of the counter's home
serves the request in one step and the counter's parent follows; on another device the owner is asked. What the rind cannot
take now is kept to be served again. -/
def joinGo : Nat → State → Nat → Header → State
  | 0, s, _, _ => s
  | fuel + 1, s, ctx, h =>
    let mine := counterOf s ctx h.addr
    let pg := ownPage s ctx h.addr.toNat accWrite (masterJoin h) mine.isSome
    let s := pg.1
    let places : Except Cause (List Loc) :=
      match windowOf h.addr with | .global a => ctxBytes s ctx a accWrite mine.isSome 32 | _ => .error .prot
    match pg.2, places with
    | .wait, _ => joinReq s h Config.deviceId.toNat true
    | .refused, _ => joinRefused s ctx h .pagef h.addr
    | .there, .error c => joinRefused s ctx h c h.addr
    | .there, .ok (.remote d _ a :: _) =>
      let h := { h with addr := BitVec.ofNat 64 a, inc := incOf s d }
      let h := { h with digest := digestOf h [] }
      send (joinReq s h d false) (.request d h)
    | .there, .ok ls =>
      let parent := joinParent s ls
      let r := serveWith s (homeOf s ctx h.addr.toNat) h none fun s => (joinTake s ctx h ls mine, 0)
      match r.2.status.toNat with
      | 0 => if parent == 0 then r.1 else joinGo fuel r.1 ctx (parentHdr r.1 h parent)
      | 4 => joinReq r.1 h Config.deviceId.toNat true
      | 2 | 3 => joinDoubt r.1 ctx h.addr
      | _ => r.1

/-- How far a chain of parents is followed. -/
def joinFuel : Nat := 65536

/-! ## Retirement, kill and flush -/

/-- The matrix reservation of a core pair, whose operation is gone, ends (R266). -/
def dropMatResv (s : State) (pair : Nat) : State := modCore s (2 * pair) fun C => endResv C .matrix

/-- The matrix operations of a team's pair are removed, and with the one at the head its reservation; one on the array runs on
without results (R348). -/
def dropMatrix (s : State) (t : Nat) : State :=
  let l := leaderOf s t
  let p := pairOfCore (teamOf s t).core
  let s := if (matOf s p).ops.head?.any fun o => o.team == l && !o.running then dropMatResv s p else s
  modMat s p fun q =>
    { q with ops := (q.ops.filter fun o => o.team != l || o.running).map fun o => if o.team == l then { o with gone := true } else o,
             faults := q.faults.filter fun f => f.1 != l, events := q.events.filter fun f => f.1 != l }

/-- A copy that lands in its team's partner's scratchpad (R203). -/
def pairLoad (m : Cmd) : Bool := m.kind == .ld && (m.words.getD 2 0).getLsbD 63

/-- The TCU commands of a team end (R347): copies into its scratchpad, its partner's among them, are cancelled without an
adjustment, and the others with it. -/
def dropTeamCmds (s : State) (t : Nat) : State :=
  let s := match (teamOf s t).partner.bind (SMap.find s.teams) with
    | none => s
    | some P => modCore s P.core fun C =>
        { C with tcu := C.tcu.map fun e =>
            (e.1, { e.2 with cmds := e.2.cmds.filter fun m => !(some m.team == (teamOf s t).partner && pairLoad m) }) }
  modCore s (teamOf s t).core fun C =>
    { C with tcu := C.tcu.map fun e =>
        (e.1, { e.2 with cmds := e.2.cmds.filter fun m => m.team != t,
                         faults := e.2.faults.filter fun f => f.team != t,
                         events := e.2.events.filter fun d => teamKey d.gang != t }) }

/-- The matrix books of a pair that ends with team `t` (R348). -/
def endPair (s : State) (t : Nat) : State :=
  let T := teamOf s t
  if (T.partner.bind (SMap.find s.teams)).isSome then s
  else modMat s (pairOfCore T.core) fun q =>
    { q with faults := q.faults.filter fun f => f.1 != leaderOf s t, events := q.events.filter fun f => f.1 != leaderOf s t }

/-- A team leaves the machine (R347): its stores are performed, its resources are reclaimed; with `keep`, the dispatcher takes
over the requests that have no answer (R362), whose replies are discarded for a killed team. -/
def endTeam (s : State) (t : Nat) (keep killed : Bool) : State :=
  let T := teamOf s t
  let gs := gangsOf s t
  let s := gs.foldl drainAll s
  let s := gs.foldl dropResv s
  let orphans := if keep then gs.flatMap fun g => (gangOf s g).reqs.map fun r => { r with dest := .none, quiet := killed } else []
  let finals := if keep then gs.filterMap fun g =>
      let G := gangOf s g
      if G.acks.isEmpty then none
      else some { g := g, next := BitVec.ofNat 32 (srGet G rSerNext).toNat, owners := G.acks.map (·.1) : FinalAck }
    else []
  let s := endPair (dropTeamCmds s t) t
  let s := gs.foldl (fun s g => if (gangOf s g).stopped then setStopped s T.core (gangOf s g).slot false else s) s
  let size := saveBytes (gs.map fun g => (gangOf s g).role) (gs.map fun g => (gangOf s g).budget) T.spSize
    + T.ngang * 32 * T.prSize
  let off := T.prBase.toNat - ctxField s T.ctx 64 64
  { s with
    gangs := s.gangs.filter fun e => teamKey e.1 != t, teams := SMap.erase s.teams t, orphans := s.orphans ++ orphans, finals := s.finals ++ finals,
    privTaken := s.privTaken.filter fun e => !(e.1 == T.ctx && e.2.1 == off && e.2.2 == size),
    pfWaiters := s.pfWaiters.filter fun e => teamKey e.2 != t }

/-- The decrement of a retired or killed team's join counter, with team gang 0's last serial (R227, R352). -/
def joinServe (s : State) (t : Nat) : State :=
  let T := teamOf s t
  if T.record.join == 0 then s
  else
    let g := mkGang t 0
    let dev := match ctxByte s T.ctx T.record.join.toNat accWrite true with | .ok (.remote d _ _) => d | _ => Config.deviceId.toNat
    let h := { Header.blank with
      addr := T.record.join, ident := identOf g, kind := 4, inc := s.incarnation,
      serial := BitVec.ofNat 32 (srGet (gangOf s g) rSerNext).toNat, floor := floorOf s g }
    let h := { h with digest := digestOf h [] }
    joinGo joinFuel (noteOwner (takeSerials s g 1) g dev h.floor) T.ctx h

/-- The index of a team is noted as retired in its launch (R279). -/
def noteRetired (s : State) (t : Nat) (killed : Bool) : State :=
  let T := teamOf s t
  match T.launch with
  | none => s
  | some k => match SMap.find s.launches k with
    | none => s
    | some L =>
      let L' : Launch :=
        { L with killed := L.killed || killed, retired := if killed then L.retired else L.retired ++ [T.index] }
      { s with launches := SMap.put s.launches k L' }

/-- The teams that a kill takes (R348): both of a pair. -/
def killSet (s : State) (t : Nat) : List Nat := t :: ((teamOf s t).partner).toList

/-- A kill (R348): both teams of a pair stop at once; each counts as retired towards its join counter, and its launch
ends with status 3. -/
def killTeam (s : State) (t : Nat) (r : Option FaultRec) : State :=
  let ts := killSet s t
  let s := ts.foldl dropMatrix s
  let s := ts.foldl (fun s t =>
    if (SMap.find s.teams t).isSome then
      let s := noteRetired s t true
      let s := joinServe s t
      endTeam s t true true
    else s) s
  match r with | some r => toHost s (.fault 0x03 r) | none => s

/-- The range record of one team (R343), which keeps its number (R351). -/
def ownRecord (T : Team) : Record := { T.record with number := some T.number }

/-- A flush (R343): killed without a report, its record back at the head of its queue, its requests abandoned. -/
def flushTeam (s : State) (t : Nat) : State :=
  let ts := killSet s t
  let rs := ((if (teamOf s t).leader || (teamOf s t).partner.isNone then [t] else ts.drop 1)).map fun t => teamOf s t
  let rs := rs.map fun T => (T.ctx, if T.partner.isSome then { ownRecord T with frame := rangeFrame T.index 2 } else ownRecord T)
  let s := ts.foldl dropMatrix s
  let s := { s with cave := s.cave.filter fun e => !(2 ^ 60 ≤ e.1 && ts.contains (teamKey (e.1 - 2 ^ 60))) }
  let s := ts.foldl (fun s t => endTeam s t false false) s
  rs.foldl (fun s e => requeue s e.1 e.2) s

/-- Whether a team may be flushed (R343). -/
def flushable (T : Team) : Bool := T.idem && !T.everTaint && T.issued < 2 ^ 20

/-- Whether a team and its partner, which a flush takes with it, may both be flushed (R343, R348). -/
def pairFlushable (s : State) (t : Nat) : Bool := (killSet s t).all fun u => flushable (teamOf s u)

end Sys2Proof.Machine
end

