-- ==== Sys2Proof/Machine/Shape.lean ====
section
/-!
DEFINITION. Shape records, command words and communicator descriptors (R199 to R203, R207, R212), the faults that they
raise alone (R211), and the acceptance of a command by a TCU context (R198, R217).
-/
namespace Sys2Proof.Machine

/-- The XOR swizzle of an address (R133). -/
def swizzle (a span : Nat) : Nat :=
  let c := a % span / 16
  a - a % span + 16 * (c ^^^ (a / span % (span / 16))) + a % 16

/-! ## The shape record (R199, Table 1), as a number -/

def shBase (n : Nat) : Nat := fld n 0 64
def shAllr (n : Nat) : Bool := bitOf n 106
def shSfmt (n : Nat) : Nat := fld n 107 2
def shRepl (n : Nat) : Nat := fld n 109 4
def shDecode (n : Nat) : Bool := bitOf n 113
def shEncode (n : Nat) : Bool := bitOf n 114
def shReduce (n : Nat) : Nat := fld n 115 3
def shSpan (n : Nat) : Nat := fld n 118 3
def shDims (n : Nat) : Nat := fld n 121 3
def shEtype (n : Nat) : Nat := fld n 124 4
def shSize (n d : Nat) : Nat := fld n (128 + 32 * d) 32
def shBox (n d : Nat) : Nat := fld n (288 + 16 * d) 16
def shStride (n d : Nat) : Int := sext 64 (fld n (384 + 64 * (d - 1)) 64)
def shGrid (n g : Nat) : Nat := fld n (640 + 16 * g) 16
def shComm (n : Nat) : Nat := fld n 704 64
def shDstBar (n : Nat) : Nat := fld n 768 64
def shReserved (n : Nat) : Bool := fld n 64 42 != 0 || fld n 368 16 != 0 || fld n 832 192 != 0

/-- The page format that a tensor of an element type lies on (R201): 1 b8, 2 b4, 0 none. -/
def shFmt (n : Nat) : Nat := match shEtype n with | 9 => 1 | 10 => 2 | _ => 0

/-- Bytes of an element in memory, for the types 0 to 8 (R199). -/
def elemBytes (etype : Nat) : Nat :=
  match etype with
  | 0 => 1 | 1 => 2 | 2 => 4 | 3 => 8 | 4 => 4 | 5 => 4 | 6 => 2 | 7 => 2 | 8 => 4 | _ => 1

/-- Half bytes of an element in scratchpad (R200: ssz). -/
def spadHalves (n : Nat) : Nat :=
  if shDecode n then 4 else if shEncode n then (if shSfmt n == 1 then 8 else 4)
  else if shEtype n == 10 then 1 else 2 * elemBytes (shEtype n)

/-- Elements of the tile. -/
def tileElems (n : Nat) : Nat := (List.range (shDims n)).foldl (fun a d => a * shBox n d) 1

/-- N, the tile's byte count (R200). -/
def tileBytes (n : Nat) : Nat := spadHalves n * tileElems n / 2

/-! ## Command words (R203) -/

def cmdWord (ws : List Word) (i : Nat) : Word := (ws[i]?).getD 0
/-- Coordinate c_d. -/
def cmdCoord (ws : List Word) (d : Nat) : Nat := Word.fld (cmdWord ws (d / 2)) (32 * (d % 2)) 32
def cmdOff (ws : List Word) : Nat := Word.fld (cmdWord ws 2) 32 31
def cmdPair (ws : List Word) : Bool := (cmdWord ws 2).getLsbD 63

/-! ## Communicator descriptors (R212, Table 3): 256 bytes, followed by the rank map -/

def coRanks (c : Nat) : Nat := fld c 0 16
def coId (c : Nat) : Nat := fld c 16 16
def coVc (c : Nat) : Nat := fld c 32 4
def coPrio (c : Nat) : Nat := fld c 36 3
def coEplane (c : Nat) : Bool := bitOf c 39
def coWindow (c : Nat) : Nat := fld c 40 7
def coChunk (c : Nat) : Nat := fld c 47 5
def coAttempt (c : Nat) : Nat := fld c 64 16
def coTrees (c : Nat) : Nat := fld c 80 4
def coTimeout (c : Nat) : Nat := fld c 96 32
def coGrid (c g : Nat) : Nat := fld c (128 + 16 * g) 16
def coMap (c : Nat) : Nat := fld c 192 64
/-- Entry `r` of the rank map. -/
def coEntry (c r : Nat) : Nat := fld c (2048 + 16 * r) 16
/-- The device of rank `r`. -/
def coDev (c r : Nat) : Nat := coEntry c r % 1024

/-- This device's rank; `none` unless it appears exactly once. -/
def ownRank (c : Nat) : Option Nat :=
  match (List.range (coRanks c)).filter fun r => coDev c r == Config.deviceId.toNat with
  | [r] => some r
  | _ => none

/-- A descriptor with its map is valid (R212; R211, detail 0x06). -/
def commOk (c : Nat) : Bool :=
  1 ≤ coRanks c && coRanks c ≤ 1024 && 1 ≤ coWindow c && coWindow c ≤ 64 && 12 ≤ coChunk c && coChunk c ≤ 20
    && 1 ≤ coTrees c && coGrid c 0 * coGrid c 1 * coGrid c 2 * coGrid c 3 == coRanks c
    && fld c 52 12 == 0 && fld c 84 12 == 0 && fld c 256 1792 == 0
    && (List.range (coRanks c)).all (fun r => coEntry c r < 1024) && (ownRank c).isSome

/-- The destination ranks of a TXFER, rising (R207). -/
def destRanks (n c : Nat) : List Nat :=
  let ax := fun g => if bitOf (shRepl n) g then List.range (coGrid c g) else [shGrid n g]
  (ax 3).flatMap fun g3 => (ax 2).flatMap fun g2 => (ax 1).flatMap fun g1 => (ax 0).map fun g0 =>
    g0 + coGrid c 0 * (g1 + coGrid c 1 * (g2 + coGrid c 2 * g3))

/-! ## Faults of the record alone (R211, Table 2) -/

/-- Table 4 of R216: the element types that a REDUCE code accepts. -/
def reduceOk (code etype : Nat) : Bool :=
  match code with
  | 0 => true | 1 => etype == 2 || etype == 4 | 2 => etype == 5 | 3 => etype == 7 | 4 => etype == 8
  | _ => [2, 4, 5, 6, 7, 8].contains etype

/-- What R205 and R207 forbid (detail 0x04). -/
def forbidden (kind : CmdKind) (n : Nat) (comm : Option Nat) : Bool :=
  let fm := shFmt n != 0
  !reduceOk (shReduce n) (shEtype n) || ((shEncode n || shDecode n) && !fm)
    || (match kind with
        | .xfer => shEncode n || shDecode n || shComm n == 0
            || (shAllr n && ((List.range 4).any (fun g => shGrid n g != 0) || shRepl n != 0 || 65536 < tileBytes n
                  || match comm with | some c => 2 ^ coChunk c < tileBytes n | none => false))
        | _ => shReduce n != 0 || shAllr n || shRepl n != 0 || shComm n != 0 || (shDecode n && kind == .st)
            || (shEncode n && kind == .ld))

/-- The rule of R201 for a formatted tensor's geometry (detail 0x05). -/
def formattedBad (kind : CmdKind) (n : Nat) (ws : List Word) : Bool :=
  shFmt n != 0 && (shBase n % 65536 != 0 || cmdCoord ws 0 % 32 != 0 || shBox n 0 % 32 != 0 || shSize n 0 % 32 != 0
    || (List.range (shDims n)).any (fun d => d != 0 && shStride n d % 32 != 0) || (kind != .ld && !shEncode n))

/-- The detail of COPYF that a record raises, the lowest first (log 13). `allot` is the allotment that the command names,
`comm` the descriptor with its map. -/
def shapeDetail (kind : CmdKind) (n : Nat) (ws : List Word) (allot : Nat) (comm : Option Nat) : Option Nat :=
  let dims := shDims n
  if 11 ≤ shEtype n || shSfmt n == 3 || shReduce n == 7 || shReserved n then some 1
  else if dims == 0 || 5 < dims || (List.range 5).any (fun d => if d < dims then shBox n d == 0 else shBox n d != 0 || shSize n d != 0)
    then some 2
  else if 262144 < tileBytes n || allot < cmdOff ws + tileBytes n then some 3
  else if forbidden kind n comm then some 4
  else if formattedBad kind n ws then some 5
  else if kind == .xfer && (match comm with | some c => !commOk c | none => true) then some 6
  else if kind == .xfer && (match comm with
      | some c => (List.range 4).any (fun g => !bitOf (shRepl n) g && coGrid c g ≤ shGrid n g) | none => false) then some 7
  else none

/-! ## Acceptance -/

/-- The allotment of the scratchpad that a command names. -/
def cmdAllot (s : State) (team : Nat) (ws : List Word) : Nat :=
  let T := teamOf s team
  if cmdPair ws then ((T.partner.map fun p => (teamOf s p).spSize)).getD 0 else T.spSize

/-- The byte that a collective engine reads of a descriptor or a map: another device's frame gives a byte that this device does
not know (log 18). -/
def engByte (s : State) (l : Loc) : Byte :=
  match l with | .remote d _ a => Config.farByte d a s.tick | l => locRead s l

/-- The places of `n` bytes of the global window, for an engine. -/
def engGlobal (s : State) (ctx : Nat) (va : Word) (kind n : Nat) : Except Cause (List Loc) :=
  match windowOf va with
  | .global a => ctxBytes s ctx a kind false n
  | _ => .error .prot

/-- A communicator's descriptor and map, as the collective engine reads them (R212), as a number. -/
def readComm (s : State) (ctx : Nat) (addr : Word) : Except (Cause × Nat × Word) Nat :=
  if addr.toNat % 256 != 0 then .error (.copyf, 6, addr)
  else match engGlobal s ctx addr accEngRead 256 with
    | .error c => .error (c, 0, addr)
    | .ok ls =>
      let c := leNat (ls.map (engByte s))
      let map := BitVec.ofNat 64 (coMap c)
      if coRanks c == 0 || 1024 < coRanks c then .error (.copyf, 6, addr)
      else match engGlobal s ctx map accEngRead (2 * coRanks c) with
        | .error e => .error (e, 0, map)
        | .ok ms => .ok (c + leNat (ms.map (engByte s)) * 2 ^ 2048)

/-- The descriptor with its map that a command holds. -/
def cmdComm (m : Cmd) : Option Nat := if m.comm.isEmpty then none else some (leNat m.comm)

/-- The TXFERs outstanding in a context, on every core. -/
def ctxXfers (s : State) (ctx : Nat) : List Cmd :=
  s.cores.flatMap fun e => e.2.tcu.flatMap fun x => x.2.cmds.filter fun m => m.kind == .xfer && ctxOfTeam m.team == ctx

/-- The descriptor that a TXFER brings, or why it cannot be used: two descriptors of one COMMID in use by a context are
identical (R212). -/
def commFor (s : State) (ctx : Nat) (addr : Word) : Except (Cause × Nat × Word) Nat :=
  match readComm s ctx addr with
  | .error e => .error e
  | .ok c =>
    let clash := (ctxXfers s ctx).any fun m => match cmdComm m with
      | some k => coId k == coId c && k % 2 ^ 2048 != c % 2 ^ 2048 | none => false
    if clash then .error (.copyf, 6, addr) else .ok c

/-- The chunks of a TXFER: rank order, then chunk order, with serials under REDUCE (R212, R217). An all-reduce sends its
one chunk towards the tree, which the model places at rank 0 (log 14). -/
def chunksOf (now n c : Nat) (serial : Nat) : List ChunkSt :=
  let k := (tileBytes n + 2 ^ coChunk c - 1) / 2 ^ coChunk c
  let red := shReduce n != 0
  ((destRanks n c).flatMap fun r => (List.range k).map fun i => (r, i)).zipIdx.map fun e =>
    { rank := e.1.1, idx := e.1.2, serial := if red then BitVec.ofNat 32 (serial + e.2) else 0, phase := .waiting now, held := none }

/-- What a command needs before it is taken: the descriptor of a TXFER, and a fault known at issue. -/
structure Prep where
  comm  : Option Nat
  bad   : Option (Cause × Nat × Word)
  count : Nat
  deriving DecidableEq, Repr

/-- The acceptance checks of a command (R212, R217): its descriptor, and how many serials it takes. -/
def prepare (s : State) (ctx team : Nat) (kind : CmdKind) (n : Nat) (ws : List Word) (bad : Option (Cause × Nat × Word)) : Prep :=
  match kind, bad with
  | .xfer, none =>
    if shComm n == 0 then { comm := none, bad := none, count := 0 }
    else match commFor s ctx (BitVec.ofNat 64 (shComm n)) with
      | .error e => { comm := none, bad := some e, count := 0 }
      | .ok c =>
        let fine := (shapeDetail .xfer n ws (cmdAllot s team ws) (some c)).isNone
        { comm := some c, bad := none, count := if fine && shReduce n != 0 then (chunksOf 0 n c 0).length else 0 }
  | _, b => { comm := none, bad := b, count := 0 }

/-- A command takes its number and its serials and enters its context (R198, R217). -/
def acceptCmd (s : State) (core x : Nat) (m : Cmd) (p : Prep) : State :=
  let n := leNat m.shape
  let fine := p.bad.isNone && m.kind == .xfer && (shapeDetail .xfer n m.words (cmdAllot s m.team m.words) p.comm).isNone
  let first := (srGet (gangOf s m.gang) rSerNext).toNat
  let chunks := match p.comm with | some c => if fine then chunksOf s.now n c first else [] | none => []
  let s := if p.count == 0 then s else takeSerials s m.gang p.count
  let comm := match p.comm with | some c => leBytes (256 + 2 * coRanks c) c | none => m.comm
  let left := match m.kind with | .ld | .st => [(0, tileBytes n)] | _ => []
  let m : Cmd := { m with bad := p.bad, comm := comm, chunks := chunks, left := left, issuedAt := s.now, order := s.nextId }
  let s := { s with nextId := s.nextId + 1 }
  let s := modTcu s core x fun t => { t with issued := Nat.max t.issued m.num, cmds := t.cmds ++ [m] }
  modTeam s m.team fun T =>
    { T with tlHigh := SMap.putD T.tlHigh 0 x (Nat.max (SMap.getD T.tlHigh x 0) (teamNum T x m.num).toNat) }

/-- A command before its acceptance. -/
def blankCmd (kind : CmdKind) (num gang lane : Nat) (pc : Word) : Cmd :=
  { num := num, order := 0, kind := kind, kick := false, gang := gang, team := teamKey gang, lane := lane, pc := pc, recAddr := 0,
    shape := [], words := [], bar := none, bad := none, left := [], landed := 0, chunks := [], acks := [], sent := false,
    issuedAt := 0, comm := [], events := [], far := [], farNo := [], outs := [], cut := none }

/-! ## Faults after acceptance (R210) -/

/-- The places of DSTBAR, when it is one that R400 accepts. -/
def dstBarPlaces (s : State) (ctx : Nat) (va : Word) : Option (List Loc) :=
  if va.toNat % 16 != 0 then none
  else match windowOf va with
    | .global a =>
      match ctxBytes s ctx a accBarrier false 16 with
      | .ok ls => if ls.all (fun l => (physOf l).isSome) && (readBar s ls).init then some ls else none
      | .error _ => none
    | _ => none

/-- The DSTBAR of a TXFER that has this device among its destinations (R204). -/
def ownDstBar (s : State) (m : Cmd) : Option (List Loc) :=
  let n := leNat m.shape
  let here := match cmdComm m with
    | some c => m.chunks.any fun k => coDev c k.rank == Config.deviceId.toNat || shAllr n
    | none => false
  if m.kind == .xfer && here && shDstBar n != 0 then dstBarPlaces s (ctxOfTeam m.team) (BitVec.ofNat 64 (shDstBar n)) else none

/-- A command faults after acceptance (R210): FAULT on the barriers of this device that it counts on, its number completes with
the fault attached, and the record enters the context's ring (R326). -/
def faultCmd (s : State) (core x : Nat) (m : Cmd) (cause : Cause) (sub : Nat) (addr : Word) (extra : Word := 0) : State :=
  let r := cmdRec s x m cause sub addr extra
  let s := match cmdBar s m with | some ls => barFault s ls | none => s
  let s := match ownDstBar s m with | some ls => barFault s ls | none => s
  let s := dropCmd (dropOwn s m) core x m.num
  let bar := (cmdBar s m).bind (·.head?)
  let s := modTcu s core x fun t =>
    { t with faults := t.faults ++ [{ num := m.num, team := m.team, bar := bar, fault := r, reported := [], fresh := [] }] }
  reportFault s r

end Sys2Proof.Machine
end

