-- ==== Sys2Proof/Machine/Recovery.lean ====
section
/-!
DEFINITION. Recovery (R334 to R349): consumed poison, rollback, the fallback, save and resume, and the events that start
them.
-/
namespace Sys2Proof.Machine

/-! ## Rollback (R337, R340, R341) -/

/-- Whether matrix operations naming a team's accumulators are under way (R140, R142). -/
def matrixBusy (s : State) (t : Nat) : Bool :=
  let T := teamOf s t
  (matOf s (pairOfCore T.core)).ops.any fun o => o.team == leaderOf s t && !o.gone

/-- Where a team's save area starts: behind its private block (R318, R345). -/
def saveAddr (T : Team) : Nat := T.prBase.toNat + T.ngang * 32 * T.prSize

/-- Poison stands in `n` bytes of a team's save area from `off` on (R336). -/
def areaBad (s : State) (t off n : Nat) : Bool :=
  let T := teamOf s t
  let a := saveAddr T + off
  !(s.poisonL2.isEmpty && s.poisonFar.isEmpty) && (List.range (n / 64 + 1)).any fun i =>
    match ctxByte s T.ctx (Nat.min (a + 64 * i) (a + n - 1)) accRead true with
    | .ok l => (locPoison s l).isSome
    | .error _ => false

/-- The whole save area of a team, and the brine at its end (R345). -/
def saveSize (s : State) (t : Nat) : Nat :=
  saveBytes ((gangsOf s t).map fun g => (gangOf s g).role) ((gangsOf s t).map fun g => (gangOf s g).budget) (teamOf s t).spSize
def brineSize (s : State) (t : Nat) : Nat :=
  brineBytes ((gangsOf s t).map fun g => (gangOf s g).role) ((gangsOf s t).map fun g => (gangOf s g).budget) (teamOf s t).spSize

/-- Whether a team's interval can be rolled back (R341): it is not tainted, and its brine is not poisoned. -/
def canRollback (s : State) (t : Nat) : Bool :=
  (teamOf s t).ckpt.isSome && !(teamOf s t).taint && !areaBad s t (saveSize s t - brineSize s t) (brineSize s t)

/-- A command was issued before the team's checkpoint (R340). -/
def beforeCkpt (T : Team) (x num : Nat) : Bool :=
  match T.ckpt with | none => false | some k => num ≤ SMap.getD k.tcu x 0

/-- The commands of a team on its core, with their contexts. -/
def teamCmds (s : State) (t : Nat) : List (Nat × Cmd) :=
  ((coreOf s (teamOf s t).core).tcu.flatMap fun e => e.2.cmds.map fun m => (e.1, m)).filter fun e => e.2.team == t

/-- The bytes taken off a restored barrier for what landed since the checkpoint (R340). -/
def rebar (s : State) (e : Nat × Nat) : State :=
  let locs := (List.range 16).map fun i => Loc.spad (e.1 + i)
  let b := readBar s locs
  locWrites s (locs.zip (leBytes 16 (barNat { b with bytes := b.bytes - e.2 })))

/-- The engine books of a team after a rollback (R84, R340): what commands issued before the checkpoint left is to be told
again, and what later commands left goes with them. -/
def reopenFault (t : Nat) (f : EngFault) : EngFault := { f with fresh := f.fresh.filter fun g => teamKey g != t }
def reopenBooks (s : State) (t : Nat) (k : Ckpt) : State :=
  let T := teamOf s t
  let fs := fun (upTo : Nat) (fs : List EngFault) => (fs.filter fun f => f.team != t || f.num ≤ upTo).map (reopenFault t)
  let es := fun (upTo : Nat) (es : List DoneEvents) =>
    (es.filter fun e => teamKey e.gang != t || e.num ≤ upTo).map (fun e => if teamKey e.gang == t then { e with taken := false } else e)
  { s with
    cores := s.cores.map fun e => if e.1 == T.core then
      (e.1, { e.2 with tcu := e.2.tcu.map fun x =>
        let n := SMap.getD k.tcu x.1 0
        (x.1, { x.2 with faults := fs n x.2.faults, events := es n x.2.events }) }) else e,
    matrix := s.matrix.map fun e => if e.1 == pairOfCore T.core then
      (e.1, { e.2 with faults := e.2.faults.filterMap fun f =>
                         if f.2.team == t && k.mat < f.2.num then none else some (f.1, reopenFault t f.2),
                       events := e.2.events.filterMap fun d =>
                         if teamKey d.2.gang != t then some d
                         else if k.mat < d.2.num then none else some (d.1, { d.2 with taken := false }) }) else e }

/-- The poison of granules after a rollback (R339, R340): a granule written in the interval has its earlier poison back. -/
def mendBad (wrote was now : SMap Nat) : SMap Nat :=
  was.foldl (fun m e => if (SMap.find wrote e.1).isSome then SMap.put m e.1 e.2 else m)
    (now.filter fun e => !(SMap.find wrote e.1).isSome)

/-- Rollback (R340): the team's last checkpoint is restored, but for the TOK registers (R268), and commands issued since
it are cancelled. A chain that was under way at the checkpoint starts again at its head (R30). -/
def rollbackTeam (s : State) (t : Nat) : State :=
  let s := (gangsOf s t).foldl drainGang s
  let s := (gangsOf s t).foldl dropResv s
  let T := teamOf s t
  match T.ckpt with
  | none => s
  | some k =>
    let s := (teamCmds s t).foldl (fun s e =>
      if beforeCkpt T e.1 e.2.num then s else if cancellable e.2 then cancelCmd s T.core e.1 e.2 else s) s
    let base := T.core * 2 ^ 18
    let mine := fun (a : Nat) => (SMap.find T.wroteSp (a / 16)).isSome && base + T.spBase ≤ a && a < base + T.spBase + T.spSize
    let spad := k.spad.foldl (fun m e => if mine e.1 then SMap.putD m 0 e.1 e.2 else m)
      (s.spad.filter fun e => !mine e.1)
    let back := fun (g : Nat) (G : Gang) =>
      let now := gangOf s g
      let G := srPut (srPut (srPut G rTokPrice (srGet now rTokPrice)) rTokWait (srGet now rTokWait)) rTokSpent (srGet now rTokSpent)
      { dropChain (chainBack G) with
        core := now.core, slot := now.slot, age := now.age, storeQ := [], loads := [], issuedN := now.issuedN,
        poisonV := mendBad now.wroteV G.poisonV now.poisonV, poisonS := mendBad now.wroteS G.poisonS now.poisonS,
        poisonQ := mendBad now.wroteQ G.poisonQ now.poisonQ,
        stopped := now.stopped, stopTrap := now.stopTrap, acks := now.acks, pin := now.pin, reqs := G.reqs.map fun r => { r with sentAt := s.now, full := true } }
    let s := { s with spad := spad, poisonSp := mendBad T.wroteSp k.bad s.poisonSp, gangs := k.gangs.foldl (fun m e => SMap.put m e.1 (back e.1 e.2)) s.gangs }
    let s := caveBack s t k.gangs
    let s := reopenBooks s t k
    let s := T.landed.foldl (fun s e => if (SMap.find T.wroteSp (e.1 / 16)).isSome then rebar s e else s) s
    let s := setTeam s t { T with queues := k.items }
    takeCkpt s t

/-- The team falls back (R341): flushed when it may start afresh, otherwise the consuming gang traps. -/
def fallBack (s : State) (c : Issue) (member : Bool) (cause : Cause) (field sub lane : Nat) (addr extra : Word) : State :=
  let t := teamKey c.g
  let T := teamOf s t
  if T.idem && !T.everTaint then { flushTeam s t with cur := none }
  else
    let G := gangOf s c.g
    let rpc := restartPc G member c.run c.pc
    takeTrap s c.g c.run { gangRec s c.g c.pc cause field sub lane addr (rpc != c.pc) with extra := extra } rpc

/-- Consumed poison (R337): rollback when the granule lies in the team's state and was written in the interval, once
matrix operations have retired; otherwise the fallback. -/
def consumePoison (s : State) (c : Issue) (member repair : Bool) (cause : Cause) (field sub lane : Nat) (addr : Word) :
    State :=
  let t := teamKey c.g
  if repair && canRollback s t then
    if matrixBusy s t then waitHere s c else { rollbackTeam s t with cur := none }
  else fallBack s c member cause field sub lane addr 0

/-- A refusal or a doubt reaches the instruction that reads its destination (R366, R368): the serial stands in EXTRA, and
after REPLAY the team falls back. -/
def lateTrap (s : State) (c : Issue) (member : Bool) (f : LateFault) (field lane : Nat) : State :=
  let s := modGang s c.g fun G => { G with late := G.late.filter fun x => x != f }
  let extra := BitVec.zeroExtend 64 f.serial
  if f.cause == .replay then fallBack s c member f.cause field f.sub lane f.addr extra
  else
    let G := gangOf s c.g
    let rpc := restartPc G member c.run c.pc
    takeTrap s c.g c.run { gangRec s c.g c.pc f.cause field f.sub lane f.addr (rpc != c.pc) with extra := extra } rpc

/-- What follows from a check that did not pass. -/
def settle (s : State) (c : Issue) (member : Bool) : Halt → State
  | .poison cause field sub lane addr repair => consumePoison s c member repair cause field sub lane addr
  | .late f field lane => lateTrap s c member f field lane
  | h => halted s c member h

/-! ## Save (R343 to R346) -/

/-- The state registers in access-number order (R345, offset 0x1000): 53 dwords. -/
def saveRegs : List Nat :=
  [0x000, 0x001, 0x002, 0x003, 0x004, 0x005, 0x006, 0x040, 0x041, 0x080, 0x081, 0x082, 0x0C0, 0x0C1, 0x0C2, 0x0C4, 0x0C5,
   0x0C6, 0x0C7, 0x100, 0x101, 0x102, 0x103, 0x104, 0x105, 0x106, 0x107, 0x140, 0x141]
  ++ (List.range 9).map (0x180 + ·) ++ (List.range 9).map (0x190 + ·) ++ [0x1C0, 0x1C1, 0x1C2, 0x200, 0x201, 0x240]

/-- SER.FLOOR (R353, Table 3). -/
def serFloorWord (s : State) (g : Nat) : Word :=
  BitVec.ofNat 64 (b2n (pinOn s g) * 2 ^ 32 + (floorOf s g).toNat)

/-- ID.PAIR (R31). -/
def idPair (T : Team) : Word := BitVec.ofNat 64 (b2n T.partner.isSome + 2 * b2n T.leader)

/-- A state register's value (R31, Table 4); `none` for an unassigned number. -/
def stateReg (s : State) (g n : Nat) : Option Word :=
  let G := gangOf s g
  let T := teamOf s (teamKey g)
  if n == 0x000 then some (BitVec.ofNat 64 G.slot)
  else if n == 0x001 then some (BitVec.ofNat 64 T.index)
  else if n == 0x002 then some (BitVec.ofNat 64 G.core)
  else if n == 0x003 then some (BitVec.zeroExtend 64 Config.deviceId)
  else if n == 0x004 then some (BitVec.ofNat 64 T.ctx)
  else if n == 0x005 then some (BitVec.ofNat 64 G.role.code)
  else if n == 0x006 then some (idPair T)
  else if n == 0x040 then some (BitVec.ofNat 64 (cyclesOf s G.core))
  else if n == 0x041 then some (BitVec.ofNat 64 s.now)
  else if n == 0x201 then some (serFloorWord s g)
  else if [0x080, 0x081, 0x082, 0x0C0, 0x0C1, 0x0C2, 0x0C4, 0x0C5, 0x0C6, 0x0C7, 0x100, 0x101, 0x102, 0x103, 0x104, 0x105,
           0x106, 0x107, 0x140, 0x141, 0x1C0, 0x1C1, 0x1C2, 0x200, 0x240].contains n
       || (0x180 ≤ n && n ≤ 0x188) || (0x190 ≤ n && n ≤ 0x198) then some (srGet G n)
  else none

/-- The PC-table bytes of a thread in the save area (R345). -/
def saveThread (G : Gang) (l : Nat) : List Byte :=
  let rets := (G.calls.filter fun c => hasLane (c.active ||| c.done) l).map fun c => c.ret.toNat
  let depth := rets.length
  let st := match thr G l with
    | none => 1
    | some t => 2 * b2n t.held + 4 * b2n (match t.wait with | .phase .. | .failed _ => true | _ => false)
        + 8 * b2n (match t.wait with | .dispatch | .dispatchLate _ | .inlineCall => true | _ => false)
        + 16 * b2n (match G.handler with | some m => hasLane m l | none => false)
  let link := match SMap.find G.formed l with | some c => c.gang * 32 + c.lane | none => 0
  leBytes 8 (((thr G l).map (·.pc.toNat)).getD 0) ++ leBytes 8 (st + depth % 8 * 32)
    ++ ((List.range 8).flatMap fun i => leBytes 8 ((rets[i]?).getD 0)) ++ leBytes 8 link ++ List.replicate 40 0

/-- A set of small numbers as a bit map of `n` bytes. -/
def bitMap (n : Nat) (keys : List Nat) : List Byte := leBytes n (keys.foldl (fun a k => a ||| 2 ^ k) 0)

/-- A gang's block of the save area (R345, Table 4). -/
def saveGang (s : State) (g : Nat) : List Byte :=
  let G := gangOf s g
  lanes.flatMap (saveThread G)
    ++ (saveRegs.flatMap fun n => leBytes 8 ((stateReg s g n).getD 0).toNat)
    ++ ((List.range 9).flatMap fun e => leBytes 8 (SMap.getD G.winPos e 0)) ++ leBytes 8 0 ++ leBytes 8 (b2n G.handler.isSome)
    ++ ((List.range 64).flatMap fun i => leBytes 8 (sGet G i).toNat)
    ++ (lanes.flatMap fun l => leBytes 1 ((List.range 7).foldl (fun a p => a + b2n (pGet G p l) * 2 ^ p) 0))
    ++ List.replicate 32 0
    ++ bitMap 512 (G.poisonV.map (·.1)) ++ bitMap 16 (G.poisonS.map (·.1)) ++ bitMap 256 (G.poisonQ.map (·.1))
    ++ List.replicate 176 0
    ++ ((List.range (8 * (G.budget + 1))).flatMap fun k => lanes.flatMap fun l => leBytes 8 (vGet G k l).toNat)
    ++ (if G.role == .matrix then lanes.flatMap fun t => (List.range 8).flatMap fun m => (List.range 8).flatMap fun e =>
          leBytes 4 (qGet G t m e).toNat else [])

/-- The save area's header (R345, Table 5). -/
def saveHeader (s : State) (t : Nat) : List Byte :=
  let T := teamOf s t
  let h := fun x => SMap.getD T.tlHigh x 0
  let b := fun x => ((T.cut.filter fun m => m.tctx == x).map (·.num)).foldl (fun a n => Nat.min a n) (h x + 1)
  let nser := ((gangsOf s t).map fun g => (gangOf s g).reqs.length).sum
  let nitem := (T.queues.map fun q => q.2.length).sum
  leBytes 256 (((List.range 4).foldl (fun a x => a + (b x + h x * 2 ^ 64) * 2 ^ (1536 + 128 * x)) 0)
    + matValue s t * 2 ^ 1472 + recordNat T.record * 2 ^ 1216 + T.cut.length * 2 ^ 1184 + nser * 2 ^ 1152
    + nitem * 2 ^ 1120 + s.now % 2 ^ 64 * 2 ^ 1056 + T.core * 2 ^ 1047 + b2n T.everTaint * 2 ^ 1046)

/-- Bytes padded with zeros to a length. -/
def padTo (n : Nat) (b : List Byte) : List Byte := b ++ List.replicate (n - b.length) 0

/-- KIND of a cancelled copy's flags (R375, Table 2). -/
def cutKind (m : CutCopy) : Nat := if m.dir == 2 || m.dir == 3 then 3 else if m.kick then 2 else 1

/-- A cancelled copy's entry (R345, R375): record, words, flags and landed bytes. -/
def saveCut (m : CutCopy) : List Byte :=
  padTo 128 m.shape ++ padTo 32 (m.words.flatMap fun w => leBytes 8 w.toNat)
    ++ leBytes 16 (m.num * 2 ^ 64 + gangIdx m.gang * 2 ^ 16 + cutKind m * 2 ^ 8 + m.tctx * 2 ^ 4 + m.dir % 2 * 2 ^ 2
        + b2n m.bar.isSome * 2)
    ++ leBytes 8 m.landed ++ leBytes 8 0

/-- An outstanding request's entry (R345, R365). -/
def saveReq (r : OutReq) : List Byte :=
  leBytes 8 r.hdr.serial.toNat ++ leBytes 8 r.hdr.digest.toNat ++ leBytes 8 r.hdr.addr.toNat
    ++ leBytes 8 r.hdr.operand.toNat ++ leBytes 8 r.hdr.comparand.toNat
    ++ leBytes 8 (r.hdr.kind.toNat + r.hdr.width.toNat * 16 + r.hdr.op.toNat * 64 + b2n r.hdr.st * 512
        + r.hdr.inc.toNat * 2 ^ 32) ++ leBytes 16 0

/-- The image of a team's save area (R345), up to the dispatch items. -/
def saveImage (s : State) (t : Nat) : List Byte :=
  let T := teamOf s t
  let gs := gangsOf s t
  let base := T.core * 2 ^ 18 + T.spBase
  let a := saveHeader s t ++ gs.flatMap (saveGang s)
  let a := padTo ((a.length + 255) / 256 * 256) a
  let a := a ++ (List.range T.spSize).map fun i => SMap.getD s.spad (base + i) 0
  let a := a ++ padTo (256 * 192) (T.cut.flatMap saveCut)
  let a := a ++ gs.flatMap fun g => padTo 8192 ((gangOf s g).reqs.flatMap saveReq)
  let a := padTo ((a.length + 63) / 64 * 64) a
  let bits := (s.poisonSp.filter fun e => base / 16 ≤ e.1 && e.1 < (base + T.spSize) / 16).map fun e => e.1 - base / 16
  let a := a ++ bitMap ((T.spSize / 128 + 63) / 64 * 64) bits
  let items := T.queues.flatMap fun q => q.2.flatMap fun i =>
    leBytes 8 q.1 ++ leBytes 8 (i.caller.lane + 32 * gangIdx i.caller.gang) ++ leBytes 48 0
      ++ i.regs.flatMap fun w => leBytes 8 w.toNat
  if gs.any (fun g => (gangOf s g).role == .worker) then a ++ items else a

/-- The faults and the events of a team's commands leave the books of its core with the team, under the numbers that the team
sees (R346). -/
def takeBooks (s : State) (t : Nat) : State :=
  let T := teamOf s t
  let p := pairOfCore T.core
  let seen := fun (x num : Nat) => (teamNum T x num).toNat
  let xs := (coreOf s T.core).tcu
  let l := leaderOf s t
  let mine := T.leader || (T.partner.isSome && (T.partner.bind (SMap.find s.teams)).isNone)
  let b : Books :=
    { faults := (xs.flatMap fun e => (e.2.faults.filter fun f => f.team == t).map fun f => (e.1, { f with num := seen e.1 f.num }))
        ++ ((matOf s p).faults.filter fun f => f.1 == l && mine).map fun f => (4, f.2),
      events := (xs.flatMap fun e => (e.2.events.filter fun d => teamKey d.gang == t).map fun d => (e.1, { d with num := seen e.1 d.num }))
        ++ ((matOf s p).events.filter fun d => d.1 == l && mine).map fun d => (4, d.2) }
  let s := modCore s T.core fun C => { C with tcu := C.tcu.map fun e =>
    (e.1, { e.2 with faults := e.2.faults.filter fun f => f.team != t, events := e.2.events.filter fun d => teamKey d.gang != t }) }
  let s := if mine then
      modMat s p fun q => { q with faults := q.faults.filter fun f => f.1 != l, events := q.events.filter fun d => d.1 != l } else s
  modTeam s t fun T => { T with books := b }

/-- The books of a resumed team are opened on its new core, under that core's numbers (R346). -/
def putBooks (s : State) (t : Nat) : State :=
  let T := teamOf s t
  let here := fun (x num : Nat) => ((num : Int) + tlOffOf T x).toNat
  let s := [0, 1, 2, 3].foldl (fun s x =>
    let fs := (T.books.faults.filter fun f => f.1 == x).map fun f => { f.2 with num := here x f.2.num }
    let es := (T.books.events.filter fun d => d.1 == x).map fun d => { d.2 with num := here x d.2.num }
    if fs.isEmpty && es.isEmpty then s
    else modTcu s T.core x fun u => { u with faults := u.faults ++ fs, events := u.events ++ es }) s
  let fs := (T.books.faults.filter fun f => f.1 == 4).map fun f => (leaderOf s t, f.2)
  let es := (T.books.events.filter fun d => d.1 == 4).map fun d => (leaderOf s t, d.2)
  let s := if fs.isEmpty && es.isEmpty then s
    else modMat s (pairOfCore T.core) fun q => { q with faults := q.faults ++ fs, events := q.events ++ es }
  modTeam s t fun T => { T with books := { faults := [], events := [] } }

/-- Bytes written at a context's own pages from a virtual address on; a byte whose page is absent is left out. -/
def sysWrite (s : State) (ctx va : Nat) (bs : List Byte) : State :=
  bs.zipIdx.foldl (fun s e =>
    match ctxByte s ctx (va + e.2) accWrite true with | .ok l => locWrite s l e.1 | .error _ => s) s

/-- A team starts to be saved (R344): its gangs stop issuing, and its commands have 2 µs. -/
def startSave (s : State) (t : Nat) : State :=
  let s := (gangsOf s t).foldl (fun s g => dropResv (modGang (restartChain s g) g fun G => closeReads (dropChain G)) g) s
  modTeam s t fun T => { T with st := .quiescing (s.now + 2000) }

/-- A team is pre-empted (R343): flushed when it may be, otherwise saved. A gang frozen by a stop delays a save (R387). -/
def preempt (s : State) (t : Nat) : State :=
  match SMap.find s.teams t with
  | none => s
  | some T =>
    if T.st != .running then s
    else if pairFlushable s t then flushTeam s t
    else if (gangsOf s t).any (fun g => (gangOf s g).stopped) then toHost s (.notify 0x06 [t] [])
    else startSave s t

/-! ## The events -/

/-- What is kept of a cancelled copy (R345, R375): its number is the one the team sees. -/
def cutOf (s : State) (x : Nat) (m : Cmd) : CutCopy :=
  let dir := match m.kind with | .ld => 0 | .st => 1 | .xfer => 2 | .abort => 3
  { tctx := x, num := (teamNum (teamOf s m.team) x m.num).toNat, gang := m.gang, pc := m.pc, lane := m.lane, dir := dir,
    kick := m.kick, bar := m.bar, words := m.words, shape := m.shape, landed := m.landed }

/-- QUIESCE_TIMEOUT (R344): 2 µs after the quiesce began, unfinished commands are cancelled and kept for the resume; a
reducing TXFER that has sent is waited for. -/
def execQuiesceTimeout (t : Nat) (s : State) : Res :=
  let T := teamOf s t
  match T.st with
  | .quiescing u =>
    if s.now < u then .next s
    else
      let cs := (teamCmds s t).filter fun e => cancellable e.2
      let cut := cs.map fun e => cutOf s e.1 e.2
      let s := cs.foldl (fun s e => cancelCmd s T.core e.1 e.2) s
      .next (modTeam s t fun T => { T with st := .saving, cut := T.cut ++ cut })
  | _ => .next s

/-- How page faults of a save are known among the masters. -/
def masterSave (t : Nat) : Nat := 2 ^ 57 + t

/-- A save area that cannot be written ends the team as R341 lays down (R344). -/
def saveFails (s : State) (t : Nat) : State :=
  let T := teamOf s t
  if T.idem && !T.everTaint then flushTeam s t else killTeam s t none

/-- Whether a save can end (R344): the team's commands and matrix operations are done. -/
def saveDue (s : State) (t : Nat) : Bool :=
  (match (teamOf s t).st with | .quiescing _ | .saving => true | _ => false) && (teamCmds s t).isEmpty && !matrixBusy s t

/-- Whether every store of a team has been performed: none waits for a pinned line (R137), or for another device's answer
(R328). -/
def storesDone (s : State) (t : Nat) : Bool :=
  (gangsOf s t).all (fun g => !keptBack s g)
    && !s.farOps.any fun o => match o.who with | .store g .. => teamKey g == t | _ => false

/-- SAVE_COMPLETE (R344, R345): once commands and matrix operations are done, the stores drain, the save area is
written, and the team leaves its core with its engine books (R346). A page fault of the save area is served first; an area
that is poisoned or refused ends the team as R341 lays down. -/
def execSaveComplete (t : Nat) (s : State) : Res :=
  if !saveDue s t then .next s
  else
    let T := teamOf s t
    let s := (gangsOf s t).foldl drainAll s
    if !storesDone s t then .next s else
    let n := (saveImage s t).length
    let pg := ownPages s T.ctx (saveAddr T) n accWrite (masterSave t) true
    match pg.2, ctxBytes pg.1 T.ctx (saveAddr T) accWrite true n with
    | .wait, _ => .next pg.1
    | .refused, _ => .next (saveFails pg.1 t)
    | .there, .error _ => .next (saveFails pg.1 t)
    | .there, .ok ls =>
      if ls.any fun l => (locPoison pg.1 l).isSome then .next (saveFails pg.1 t)
      else
        let s := modTeam pg.1 t fun T => { T with savedAt := s.now }
        let s := sysWrite s T.ctx (saveAddr T) (saveImage s t)
        let s := takeCkpt (takeBooks s t) t
        .next (modTeam s t fun T => { T with st := .saved })

/-- A cancelled command is issued again under number `num` (R344). -/
def reissueOne (s : State) (t c x num : Nat) (m : CutCopy) : State :=
  let kind : CmdKind := match m.dir with | 0 => .ld | 1 => .st | 2 => .xfer | _ => .abort
  let d : Cmd := { blankCmd kind num m.gang m.lane m.pc with kick := m.kick, shape := m.shape, words := m.words, bar := m.bar }
  acceptCmd s c x d (prepare s (ctxOfTeam t) t kind (leNat m.shape) m.words none)

/-- The numbers of a team in TCU context `x` are rebased to core `c`, and its cancelled commands are issued again there, in
their order (R344, R346). -/
def reissue (s : State) (t c x : Nat) : State :=
  let T := teamOf s t
  let h := SMap.getD T.tlHigh x 0
  let mine := T.cut.filter fun m => m.tctx == x
  let b := (mine.map (·.num)).foldl Nat.min (h + 1)
  let k := (tcuOf s c x).issued
  let s := modTeam s t fun T => { T with tlOff := SMap.putD T.tlOff 0 x ((k : Int) + 1 - b) }
  let s := mine.foldl (fun s m => reissueOne s t c x (m.num + k + 1 - b) m) s
  modTcu s c x fun u => { u with issued := k + (h + 1 - b) }

/-- A gang as it stands on its new core: latches and answers on their way are gone, its requests go again, and an access that
waited for a page starts afresh (R323, R344, R349, R365). -/
def resumeGang (s : State) (G : Gang) (core slot : Nat) : Gang :=
  { G with core := core, slot := slot, x := [], loads := [], chain := none, chainEnd := .never, pf := .none,
           reqs := G.reqs.map fun r => { r with sentAt := s.now, full := true } }

/-- A saved team comes back to a core (R344, R346): its scratchpad, its requests, its engine books and its cancelled commands
come back; `none` where it does not fit. -/
def resumeTeam (s : State) (t core : Nat) : Option State :=
  let T := teamOf s t
  if T.st != .saved || !fits s T.ctx core T.record.cls (askOf s T.ctx T.record) then none
  else match slotsFor s core T.ngang, spadFind s core T.spSize, T.ckpt with
    | some slots, some sp, some k =>
      let s := enterCore s core T.ctx
      let base := core * 2 ^ 18 + sp
      let old := T.core * 2 ^ 18 + T.spBase
      let spad := k.spad.foldl (fun m e => SMap.putD m 0 (base + (e.1 - old)) e.2)
        (s.spad.filter fun e => !(base ≤ e.1 && e.1 < base + T.spSize))
      let bad := k.bad.foldl (fun m e => if old / 16 ≤ e.1 && e.1 < (old + T.spSize) / 16
        then SMap.put m (base / 16 + (e.1 - old / 16)) e.2 else m) (cleanSpad s.poisonSp base T.spSize)
      let gangs := (slots.zipIdx).foldl (fun m e =>
        let g := mkGang t e.2
        if (SMap.find s.gangs g).isSome then SMap.put m g (resumeGang s (gangOf s g) core e.1) else m) s.gangs
      let s := { s with spad := spad, poisonSp := bad, gangs := gangs, pfWaiters := s.pfWaiters.filter fun w => teamKey w.2 != t }
      let s := setTeam s t { T with core := core, spBase := sp, st := .running }
      let s := modCore s core fun C => { C with gone := C.gone.filter fun e => !slots.contains e.1 }
      let s := putBooks ([0, 1, 2, 3].foldl (fun s x => reissue s t core x) s) t
      let s := modTeam s t fun T => { T with cut := [] }
      some (takeCkpt s t)
    | _, _, _ => none

/-- A saved team comes back to a core, a pair to both cores of a pair at once (R17, R18, R344): the leader core is even. -/
def resumeUnit (s : State) (t core : Nat) : Option State :=
  match (teamOf s t).partner with
  | none => resumeTeam s t core
  | some p =>
    if (core % 2 == 0) != (teamOf s t).leader then none
    else if (SMap.find s.teams p).isNone then resumeTeam s t core
    else (resumeTeam s t core).bind fun s => resumeTeam s p (if core % 2 == 0 then core + 1 else core - 1)

/-- A saved team, or its saved partner, whose save area is poisoned (R336). -/
def savedBad (s : State) (t : Nat) : Bool :=
  (killSet s t).any fun u => (teamOf s u).st == .saved && areaBad s u 0 (saveSize s u)

/-- TEAM_RESUME (R344, R346): a saved team, and with it its partner, is admitted to a core of its context. A team of a resident
launch comes back with its whole launch (R230). A save area that is poisoned ends the team as R341 lays down (R336). -/
def execTeamResume (t core : Nat) (s : State) : Res :=
  if (teamOf s t).resident then .next s
  else if (teamOf s t).st == .saved && savedBad s t then .next (saveFails s t)
  else .next ((resumeUnit s t core).getD s)

/-- TEAM_KILL (R348): the host kills a team. -/
def execTeamKill (t : Nat) (s : State) : Res :=
  match SMap.find s.teams t with
  | none => .next s
  | some _ =>
    let r := ((gangsOf s t).filterMap fun g => (gangOf s g).frozen).head?
    .next (killTeam s t r)

/-- A trap-state register that the host may rewrite (R334). -/
def isTsReg (n : Nat) : Bool := 0x100 ≤ n && n ≤ 0x107

/-- GANG_HOST_RESUME (R334): the host rewrites trap-state registers of a frozen gang and resumes it as ERET would; a TS.RPC
that R39 refuses leaves it frozen (log 45). -/
def execGangHostResume (r : HostResume) (s : State) : Res :=
  match (gangOf s r.g).frozen with
  | none => .next s
  | some _ =>
    let G := (r.ts.filter fun e => isTsReg e.1).foldl (fun G e => srPut G e.1 e.2) (gangOf s r.g)
    .next (setGang s r.g (if (srGet G rTsRpc).toNat % 4 == 0 then leaveTrap G G.frozenRun else G))

/-- A core that is marked suspect takes no team until the host clears the mark (R335). -/
def markSuspect (s : State) (core : Nat) : State := modCore s core fun C => { C with suspect := true }

/-- A team that waits to be rolled back is, once its matrix operations have retired; where R335 asks it, it then moves to
another core, once the commands issued before the checkpoint have completed (R335, R340, R346). -/
def rollNow (s : State) (t : Nat) : State :=
  match (teamOf s t).st with
  | .rolling move =>
    if matrixBusy s t then s
    else
      let s := modTeam (rollbackTeam s t) t fun T => { T with st := .running }
      if move then modTeam (startSave s t) t fun T => { T with st := .saving } else s
  | _ => s

/-- A team stops to be rolled back and to move to another core (R335). -/
def rollAway (s : State) (t : Nat) : State := rollNow (modTeam s t fun T => { T with st := .rolling true }) t

/-- A mismatch in the pipes (R335): the first one has the instruction that the gang is executing run again in place, and counts
in the core's health counter; a second one of the same execution makes the core suspect and rolls the team back, or the team
falls back with PIPEERR at the instruction, which has had no effect. -/
def pipeMismatch (s : State) (g : Nat) (G : Gang) : State :=
  match chooseRun G with
  | none => s
  | some (pc, run) =>
    if G.stopPc != some pc then
      modGang (pmcCount (mgmtAdd s (offHealth G.core) 1) G.core 6 1) g fun G => { G with stopPc := some pc }
    else
      let s := markSuspect s G.core
      if canRollback s (teamKey g) then rollAway s (teamKey g)
      else { fallBack s { g := g, run := run, pc := pc, issued := false } (midRun G run) .pipeerr 0 0 0xFF 0 0 with cur := none }

/-- An operation can be undone by a rollback of a team: it was accepted since the team's checkpoint (R339, R341). -/
def undoes (s : State) (num t : Nat) : Bool :=
  canRollback s t && (match (teamOf s t).ckpt with | some k => k.mat < num | none => false)

/-- A mismatch in the array pass of the operation on the array (R335): the pass is run again before the operation retires; a
second mismatch makes both cores suspect, and both teams of the pair are rolled back without the operation's results, or the
issuing team falls back; one whose pair was killed is gone. -/
def arrayMismatch (s : State) (p : Nat) (o : MatOp) : State :=
  if !o.struck then
    let s := [2 * p, 2 * p + 1].foldl (fun s c => pmcCount (mgmtAdd s (offHealth c) 1) c 6 1) s
    modMat s p fun q => { q with ops := q.ops.map fun x => if x == o then { x with struck := true } else x }
  else
    let s := markSuspect (markSuspect s (2 * p)) (2 * p + 1)
    let s := { modMat s p fun q => { q with ops := q.ops.filter fun x => x != o } with progress := s.progress + 1 }
    let ts := killSet s o.team
    if o.gone then s
    else if ts.all (undoes s o.num) then ts.foldl rollAway s
    else
      let G := gangOf s o.gang
      let run := match chooseRun G with | some r => r.2 | none => liveLanes G
      { fallBack s { g := o.gang, run := run, pc := o.pc, issued := false } false .pipeerr 0 0 0xFF 0 0 with cur := none }

/-- CHECKER_MISMATCH (R335): in the instruction that a gang is executing, or in the array pass of its pair's operation. -/
def execCheckerMismatch (site : CheckSite) (s : State) : Res :=
  match site with
  | .pipes g => (match SMap.find s.gangs g with | some G => .next (pipeMismatch s g G) | none => .next s)
  | .array g =>
    match SMap.find s.gangs g with
    | none => .next s
    | some G =>
      let p := pairOfCore G.core
      match (matOf s p).ops.head? with
      | some o => .next (if o.running && o.gang == g then arrayMismatch s p o else s)
      | none => .next s

/-- STORAGE_ERROR (R336): a correctable error is corrected and counted; an uncorrectable one poisons its granule, but for an
L1 line and for an L2 line that matches far memory, which are fetched again. -/
def execStorageError (site : StoreSite) (s : State) : Res :=
  match site with
  | .vreg g l r h => .next (modGang s g fun G => { G with poisonV := SMap.put G.poisonV (2 * (64 * l + r) + h) 1 })
  | .sreg g r h => .next (modGang s g fun G => { G with poisonS := SMap.put G.poisonS (2 * r + h) 1 })
  | .acc g l q e => .next (modGang s g fun G => { G with poisonQ := SMap.put G.poisonQ (64 * l + 8 * q + e) 1 })
  | .spad c k => .next { s with poisonSp := SMap.put s.poisonSp (c * 2 ^ 14 + k) 1 }
  | .corrected d => .next (if d < 4 then mgmtAdd s (offErrCnt d) 1 else s)
  | .l1 c _ => .next (if c < 320 then mgmtAdd s (offErrCnt (dieOfCore c)) 1 else s)
  | .l2 k =>
    let clean := (placeOf s (k / 1024)).res == 0
    if clean then .next (mgmtAdd s (offErrCnt (homeDie s (64 * k))) 1)
    else .next { s with poisonL2 := SMap.put s.poisonL2 k 1 }
  | .l2Match k => .next (mgmtAdd s (offErrCnt (homeDie s (64 * k))) 1)
  | .far k => .next { s with poisonFar := SMap.put s.poisonFar k 1 }

/-- The landed bytes of a cancelled copy are taken off its barrier again, where a rollback has restored the barrier (R340,
R344); `wrote` is what the team had written in the interval. -/
def recut (wrote : SMap Nat) (s : State) (m : CutCopy) : State :=
  match cmdBar s { blankCmd .ld m.num m.gang m.lane m.pc with bar := m.bar } with
  | some (.spad a :: ls) =>
    if m.landed != 0 && (SMap.find wrote (a / 16)).isSome then barRaise s (.spad a :: ls) m.landed else s
  | _ => s

/-- A rollback meets a save in progress (R349): the save starts again from the restored state; copies that it has cancelled
and that were issued since the checkpoint are left to the replay. -/
def rollSaving (s : State) (t : Nat) : State :=
  let T := teamOf s t
  let keep := T.cut.filter fun m => beforeCkpt T m.tctx ((m.num : Int) + tlOffOf T m.tctx).toNat
  let s := modTeam (rollbackTeam s t) t fun T => { T with cut := keep }
  startSave (takeCkpt (keep.foldl (recut T.wroteSp) s) t) t

/-- ROLLBACK (R340, R349): a team is rolled back to its last checkpoint once its matrix operations have retired; a team that is
saved already is not. -/
def execRollback (t : Nat) (s : State) : Res :=
  match (teamOf s t).st with
  | .rolling _ => .next (rollNow s t)
  | .saved => .next s
  | .running => if canRollback s t && !matrixBusy s t then .next (rollbackTeam s t) else .next s
  | .quiescing _ | .saving => if canRollback s t && !matrixBusy s t then .next (rollSaving s t) else .next s

end Sys2Proof.Machine
end

