-- ==== Sys2Proof/Machine/Fetch.lean ====
section
/-!
DEFINITION. Fetching an instruction (R39, R40), and the look ahead that tells whether a latch chain goes on (R28).
-/
namespace Sys2Proof.Machine

/-- Opcode of a word. -/
def wOp (w : Nat) : Nat := fld w 24 7
/-- Whether a word is of the uniform set (R32). -/
def wUni (w : Nat) : Bool := bitOf w 31

/-- Opcodes of format LI (R47). -/
def isLi (op : Nat) : Bool := op == 0x47 || op == 0x51 || (0x60 ≤ op && op ≤ 0x6B)
/-- Opcodes of format LM (R47). -/
def isLm (op : Nat) : Bool := 0x70 ≤ op && op ≤ 0x77
/-- Opcodes of format LR (R47). -/
def isLr (op : Nat) : Bool :=
  (0x01 ≤ op && op ≤ 0x0D) || (0x10 ≤ op && op ≤ 0x32) || (0x38 ≤ op && op ≤ 0x40)
    || (0x44 ≤ op && op ≤ 0x4B && op != 0x47) || op == 0x50 || (0x52 ≤ op && op ≤ 0x57) || (0x78 ≤ op && op ≤ 0x7A)

/-- Literal words after a uniform word (R48). -/
def litWords (op : Nat) : Nat :=
  if op == 0x24 then 2 else if op == 0x3C || op == 0x43 || op == 0x63 || op == 0x64 then 1 else 0

/-- The words after the lead words, and whether there were any (R39). -/
def afterLeads : List Nat → Bool × List Nat
  | [] => (false, [])
  | w :: t =>
    if !wUni w && wOp w == 0x7E then
      (match t with
       | m :: r => if !wUni m && wOp m == 0x7D then (true, r) else (true, t)
       | [] => (true, []))
    else if !wUni w && wOp w == 0x7D then (true, t) else (false, w :: t)

/-- Whether an instruction that begins with these words has more of them (R39). -/
def moreWords (ws : List Nat) : Bool :=
  let r := afterLeads ws
  match r.2 with
  | [] => true
  | w :: t =>
    if wUni w then !r.1 && decide (t.length < litWords (wOp w))
    else isLr (wOp w) && fld w 7 7 == 0x7F && t.isEmpty

/-- The place of a byte that is fetched (R40). -/
def fetchByte (s : State) (core ctx : Nat) (a : Word) : Chk Loc :=
  match windowOf a with
  | .global va => globalByte s core ctx va accFetch 0xFF 0 false
  | _ => .error (.bad .prot 0 0 0xFF a)

/-- The place of a byte of text on this device, whatever its page permits. -/
def textByte (s : State) (core ctx : Nat) (a : Word) : Chk Loc :=
  match windowOf a with
  | .global va => (match leafAt s core ctx va with
    | .absent .. => .error (.page a accFetch 0xFF 0)
    | .leaf e big => if leafPlace e == 3 then .error .hold else .ok (.phys (leafPhys e big va)))
  | _ => .error .hold

/-- One instruction word, with the places of its bytes from `at_` (R39, R40): the lowest byte that has none is named. -/
def wordAt (s : State) (at_ : Word → Chk Loc) (pc : Word) : Chk Nat := do
  let l0 ← at_ pc
  let l1 ← at_ (pc + 1)
  let l2 ← at_ (pc + 2)
  let l3 ← at_ (pc + 3)
  .ok (leNat ([l0, l1, l2, l3].map (locRead s)))

/-- The words of the instruction at `pc`, at most `fuel` more than `ws` (R39). -/
def wordsAt (s : State) (at_ : Word → Chk Loc) (pc : Word) : Nat → List Nat → Chk (List Nat)
  | 0, ws => .ok ws
  | fuel + 1, ws =>
    if moreWords ws then do
      let w ← wordAt s at_ (pc + BitVec.ofNat 64 (4 * ws.length))
      wordsAt s at_ pc fuel (ws ++ [w])
    else .ok ws

/-- The grouped classes of R231. -/
inductive UnitClass where
  | matrix | vfloat | sli | memory
  deriving DecidableEq, Repr

/-- The number of a class, as CurCls and the gates hold it. -/
def UnitClass.num : UnitClass → Nat
  | .matrix => 0 | .vfloat => 1 | .sli => 2 | .memory => 3

/-- The class of an instruction's words (R231). -/
def classOf (ws : List Nat) : Option UnitClass :=
  match (afterLeads ws).2 with
  | [] => none
  | w :: _ =>
    let op := wOp w
    if wUni w then
      if op == 0x63 || op == 0x64 then some .matrix
      else if (0x28 ≤ op && op ≤ 0x2C) || (0x50 ≤ op && op ≤ 0x55) || op == 0x72 || op == 0x73 then some .memory
      else none
    else if (0x20 ≤ op && op ≤ 0x32) || op == 0x54 || op == 0x56 || op == 0x79 || op == 0x7A then some .vfloat
    else if 0x38 ≤ op && op ≤ 0x40 then some .sli
    else if isLm op then some .memory
    else none

/-- Engine commands (R388): TCOPY, TKICK, TXFER, TMMA and TMMAS. -/
def isEngineWord (ws : List Nat) : Bool :=
  match ws with | w :: _ => wUni w && 0x60 ≤ wOp w && wOp w ≤ 0x64 | [] => false

/-- The words of the instruction at `pc` of a gang (R39), as it fetches them. -/
def fetchInstr (s : State) (g : Nat) (pc : Word) : Chk (List Nat) :=
  let T := teamOf s (teamKey g)
  wordsAt s (fetchByte s T.core T.ctx) pc 4 []

/-- The words of the instruction at `pc` of a gang, as they stand in its text. -/
def textInstr (s : State) (g : Nat) (pc : Word) : Chk (List Nat) :=
  let T := teamOf s (teamKey g)
  wordsAt s (textByte s T.core T.ctx) pc 4 []

/-- A source field that names a latch (R34). -/
def isLatch (x : Nat) : Bool := 0x60 ≤ x && x ≤ 0x63

/-- Whether the words are a lane-set instruction with a latch among its source fields A, B and C (R28, R34). -/
def readsLatch (ws : List Nat) : Bool :=
  match (afterLeads ws).2 with
  | [] => false
  | w :: _ =>
    let op := wOp w
    let c := match ws with | p :: _ => !wUni p && wOp p == 0x7E && isLatch (fld p 9 7) | [] => false
    if wUni w || isLm op then false
    else if op == 0x48 || op == 0x78 || op == 0x7A then false
    else if isLi op then isLatch (fld w 14 7) && op != 0x47
    else if isLr op then c || isLatch (fld w 14 7) || (isLatch (fld w 7 7) && !(op == 0x31 || op == 0x32 || op == 0x3F || op == 0x49
      || (0x53 ≤ op && op ≤ 0x56)))
    else false

/-- Uniform arithmetic opcodes (R238, R239). -/
def isUniArith (w : Nat) : Bool := wUni w && 0x01 ≤ wOp w && wOp w ≤ 0x24

/-- What the text after a lane-set instruction says of its chain: its next lane-set instruction joins it, or does not, or the
text goes on in a page that is absent. -/
inductive Ahead where
  | joins | ends | absent (va : Word)
  deriving DecidableEq, Repr

/-- The look ahead from `pc` to the next lane-set instruction, over uniform arithmetic alone (R28, R29). -/
def lookAhead (s : State) (g : Nat) : Nat → Word → Ahead
  | 0, _ => .ends
  | fuel + 1, pc =>
    match textInstr s g pc with
    | .error (.page va ..) => .absent va
    | .error _ => .ends
    | .ok ws =>
      if readsLatch ws then .joins
      else match ws with
        | w :: _ => if isUniArith w then lookAhead s g fuel (pc + BitVec.ofNat 64 (4 * ws.length)) else .ends
        | [] => .ends

/-- How many uniform instructions the look ahead passes: as many as the address space has words. -/
def peekFuel : Nat := 2 ^ 62

/-- Whether the next lane-set instruction at `pc` joins the chain. -/
def peekJoins (s : State) (g : Nat) (pc : Word) : Bool := lookAhead s g peekFuel pc == .joins

end Sys2Proof.Machine
end

