-- ==== Sys2Proof/Machine/Numeric.lean ====
section
/-!
DEFINITION. Exact results and their one rounding (R7, R66 to R71): rationals, floating-point patterns, and the
fixed-point enclosures of irrational results.
-/
namespace Sys2Proof

/-- Significant bits of a floating-point format (R66, Table 2). -/
def FFmt.prec : FFmt → Nat
  | .f64 => 53 | .f32 => 24 | .h16 => 11 | .e16 => 8 | .s32 => 24

/-- Exponent bits of a floating-point format (R66, Table 2). -/
def FFmt.expBits : FFmt → Nat
  | .f64 => 11 | .f32 => 8 | .h16 => 5 | .e16 => 8 | .s32 => 8

/-- Width of a float-class format (R22, Table 2). -/
def FFmt.bits : FFmt → Nat
  | .f64 => 64 | .f32 => 32 | .h16 => 16 | .e16 => 16 | .s32 => 32

/-- The exponent bias (R66, Table 2). -/
def FFmt.bias (f : FFmt) : Nat := 2 ^ (f.expBits - 1) - 1

/-- The exponent of a format's smallest subnormal. -/
def FFmt.minExp (f : FFmt) : Int := 2 - (f.bias : Int) - f.prec

/-- The pattern of +∞. -/
def FFmt.infPat (f : FFmt) : Nat := (2 ^ f.expBits - 1) * 2 ^ (f.prec - 1)

/-- The canonical quiet NaN (R66, Table 2; R67). -/
def FFmt.qnan (f : FFmt) : Nat := f.infPat + 2 ^ (f.prec - 2)

/-- A pattern's sign bit in place. -/
def FFmt.signPat (f : FFmt) (neg : Bool) : Nat := if neg then 2 ^ (f.bits - 1) else 0

namespace Machine

/-- An exact result: a NaN, an infinity, or a signed rational of magnitude `n / d`; `n = 0` is a signed zero. -/
inductive Exact where
  | nan
  | inf (neg : Bool)
  | num (neg : Bool) (n d : Nat)
  deriving DecidableEq, Repr

/-! ## Rounding a magnitude to an integer (R69) -/

/-- Whether the magnitude `(q + r/d)` is rounded away from zero, `0 ≤ r < d` (R69). -/
def roundsUp (m : Rnd) (neg : Bool) (q r d : Nat) : Bool :=
  match m with
  | .rne | .dyn => decide (d < 2 * r) || (2 * r == d && q % 2 == 1)
  | .rna => decide (0 < r) && decide (d ≤ 2 * r)
  | .rtz => false
  | .rup => decide (0 < r) && !neg
  | .rdn => decide (0 < r) && neg

/-- The magnitude `n / d` rounded to an integer. -/
def roundNat (m : Rnd) (neg : Bool) (n d : Nat) : Nat :=
  if roundsUp m neg (n / d) (n % d) d then n / d + 1 else n / d

/-- A signed rational rounded to an integer. -/
def roundInt (m : Rnd) (x : Int) (d : Nat) : Int :=
  if x < 0 then -(roundNat m true x.natAbs d : Int) else (roundNat m false x.natAbs d : Int)

/-- A fraction multiplied by `2^k`. -/
def scaleFrac (n d : Nat) (k : Int) : Nat × Nat := if 0 ≤ k then (n * 2 ^ k.toNat, d) else (n, d * 2 ^ (-k).toNat)

/-- `⌊log₂ (n / d)⌋` for positive `n` and `d`. -/
def floorLog (n d : Nat) : Int :=
  let k : Int := (n.log2 : Int) - d.log2
  let p := scaleFrac n d (-k)
  if p.1 < p.2 then k - 1 else k

/-! ## Floating-point patterns (R66) -/

/-- Whether a pattern is a NaN. -/
def isNan (f : FFmt) (x : Nat) : Bool := decide (f.infPat < x % 2 ^ (f.bits - 1))

/-- Whether a pattern is a signalling NaN. -/
def isSnan (f : FFmt) (x : Nat) : Bool := isNan f x && !bitOf x (f.prec - 2)

/-- The exact value of a pattern (R66): subnormals at their value. -/
def fltVal (f : FFmt) (x : Nat) : Exact :=
  let neg := bitOf x (f.bits - 1)
  let e := fld x (f.prec - 1) f.expBits
  let m := fld x 0 (f.prec - 1)
  if e == 2 ^ f.expBits - 1 then (if m == 0 then .inf neg else .nan)
  else if e == 0 then
    let p := scaleFrac m 1 f.minExp
    .num neg p.1 p.2
  else
    let p := scaleFrac (2 ^ (f.prec - 1) + m) 1 (f.minExp + e - 1)
    .num neg p.1 p.2

/-- A pattern with the absolute value and the negation of R110. -/
def fltSign (f : FFmt) (x : Nat) (ab ng : Bool) : Nat :=
  let x := if ab then fld x 0 (f.bits - 1) else x % 2 ^ f.bits
  if ng then (x + 2 ^ (f.bits - 1)) % 2 ^ f.bits else x

/-- The significand, in units of `2^q`, that a positive rational rounds to, where `q` is at least `lo`. -/
def roundSig (f : FFmt) (m : Rnd) (neg : Bool) (n d : Nat) (lo : Option Int) : Nat × Int :=
  let e := floorLog n d - (f.prec - 1 : Nat)
  let q := match lo with | some l => if e < l then l else e | none => e
  let p := scaleFrac n d (-q)
  (roundNat m neg p.1 p.2, q)

/-! ## Square roots -/

/-- One Newton step of the integer square root, `fuel` at most. -/
def sqrtIter (n : Nat) : Nat → Nat → Nat
  | 0, x => x
  | fuel + 1, x => let y := (x + n / x) / 2; if y < x then sqrtIter n fuel y else x

/-- `⌊√n⌋`. -/
def natSqrt (n : Nat) : Nat := if n == 0 then 0 else sqrtIter n 64 (2 ^ (n.log2 / 2 + 1))

/-- Fraction bits kept of a root: far beyond any format's rounding point. -/
def rootBits : Nat := 700

/-- `√(n/d)`: the exact root, or a point strictly between the two neighbours of `rootBits` fraction bits, which every
rounding treats as it treats the root. -/
def rootOfFrac (n d : Nat) : Nat × Nat :=
  let q := natSqrt (n * 4 ^ rootBits / d)
  if q * q * d == n * 4 ^ rootBits then (q, 2 ^ rootBits) else (2 * q + 1, 2 ^ (rootBits + 1))

/-! ## Fixed-point enclosures

A pair `(lo, hi)` of integers encloses a real in units of `2^-p`. -/

/-- Bounds of a real in units of `2^-p`. -/
abbrev Enc := Int × Int

/-- Working bits beyond the asked precision. -/
def guardBits : Nat := 32

/-- `Σ z^(2i+1) / (2i+1)` for `0 ≤ z < 1/2`, `z` in units of `2^-p`, `n` terms; `w` is the power of `z` reached. -/
def atanhSum (p z2 : Nat) : Nat → Nat → Nat → Nat
  | 0, _, _ => 0
  | n + 1, w, k => w / k + atanhSum p z2 n (w * z2 / 2 ^ p) (k + 2)

/-- `2 · atanh z`, a little below the truth: by at most `2 n + 4` units and the tail. -/
def twoAtanh (p z : Nat) : Nat := 2 * atanhSum p (z * z / 2 ^ p) (p / 2 + 2) z 1

/-- `ln 2` in units of `2^-p`, with its bounds. -/
def lnTwo (p : Nat) : Enc :=
  let g := guardBits
  let v := twoAtanh (p + g) (2 ^ (p + g) / 3)
  ((v / 2 ^ g : Nat), (v / 2 ^ g : Nat) + 2)

/-- Bounds of `ln y` for a positive `y` in units of `2^-p`. -/
def lnPoint (p y : Nat) : Enc :=
  let g := guardBits
  let n : Int := (y.log2 : Int) - p
  let one := 2 ^ (p + g)
  let m := if 0 ≤ n then y * 2 ^ g / 2 ^ n.toNat else y * 2 ^ g * 2 ^ (-n).toNat
  let v : Int := (twoAtanh (p + g) ((m - one) * one / (m + one)) / 2 ^ g : Nat)
  let l := lnTwo p
  if 0 ≤ n then (v + n * l.1 - 1, v + n * l.2 + 3) else (v + n * l.2 - 1, v + n * l.1 + 3)

/-- Bounds of the logarithm over an enclosure whose lower bound is positive. -/
def lnEnc (p : Nat) (x : Enc) : Enc := ((lnPoint p x.1.toNat).1, (lnPoint p x.2.toNat).2)

/-- `Σ r^i / i!` from term `i` with value `t`, in units of `2^-p`. -/
def expSum (p r : Nat) : Nat → Nat → Nat → Nat
  | 0, _, _ => 0
  | n + 1, t, i => t + expSum p r n (t * r / 2 ^ p / i) (i + 1)

/-- Bounds of `e^x`, `x` in units of `2^-p`; outside a range of some thousands the bounds only say how large it is. -/
def expPoint (p : Nat) (x : Int) : Enc :=
  if x < -((p + 8 : Nat) * 2 ^ p) then (0, 1)
  else if 8192 * 2 ^ p < x then (2 ^ (p + 8192), 2 ^ (p + 65536))
  else
    let n := x / (lnTwo p).1
    let g := guardBits + n.toNat
    let l := lnTwo (p + g)
    let r := x * 2 ^ g - n * (l.1 + 1)
    let v := expSum (p + g) r.toNat (p + g) (2 ^ (p + g)) 1
    let err : Nat := 4 * (p + g) + 8 * (n.natAbs + 2) + (if r < 0 then r.natAbs * 2 else 0)
    let lo : Int := (v : Int) - err
    let hi : Int := (v : Int) + err
    if 0 ≤ n then (lo * 2 ^ n.toNat / 2 ^ g, hi * 2 ^ n.toNat / 2 ^ g + 1)
    else (lo / 2 ^ ((-n).toNat + g), hi / 2 ^ ((-n).toNat + g) + 1)

/-- Bounds of the exponential over an enclosure. -/
def expEnc (p : Nat) (x : Enc) : Enc := (max (expPoint p x.1).1 0, (expPoint p x.2).2)

/-- `Σ (−1)^i θ^(2i+j) / (2i+j)!` from the term `t`, in units of `2^-p`. -/
def trigSum (p θ2 : Nat) : Nat → Int → Nat → Int
  | 0, _, _ => 0
  | n + 1, t, i => t + trigSum p θ2 n (-(t * θ2 / 2 ^ p / ((i + 1) * (i + 2) : Nat))) (i + 2)

/-- `16 atan(1/5) − 4 atan(1/239)`: the alternating sum of one arc tangent. -/
def atanInv (p k : Nat) : Nat → Nat → Nat → Int
  | 0, _, _ => 0
  | n + 1, w, i => (w / i : Nat) - atanInv p k n (w / (k * k)) (i + 2)

/-- Bounds of `π` in units of `2^-p`. -/
def piEnc (p : Nat) : Enc :=
  let g := guardBits
  let one := 2 ^ (p + g)
  let v := 16 * atanInv (p + g) 5 (p + g) (one / 5) 1 - 4 * atanInv (p + g) 239 (p + g) (one / 239) 1
  (v / 2 ^ g - 1, v / 2 ^ g + 2)

/-- Bounds of `sin(π t)` (`odd`) or `cos(π t)` for `t = n / d` with `0 ≤ t ≤ 1/2`. -/
def trigPoint (p : Nat) (odd : Bool) (n d : Nat) : Enc :=
  let q := p + guardBits
  let θ := (piEnc q).1.toNat * n / d
  let t0 : Int := if odd then (θ : Int) else 2 ^ q
  let v := trigSum q (θ * θ / 2 ^ q) (q / 2 + 2) t0 (if odd then 1 else 0)
  (v / 2 ^ guardBits - 1, v / 2 ^ guardBits + 2)

/-- `k · x` for an enclosure of a positive real. -/
def mulEnc (k : Int) (x : Enc) : Enc := if 0 ≤ k then (k * x.1, k * x.2) else (k * x.2, k * x.1)

/-- Bounds of `ln (n / d)`. -/
def lnFrac (p n d : Nat) : Enc :=
  let e := floorLog n d
  let q := scaleFrac n d (-e)
  let y := q.1 * 2 ^ p / q.2
  let l := mulEnc e (lnTwo p)
  ((lnPoint p y).1 + l.1, (lnPoint p (y + 1)).2 + l.2)

/-- `e^y` as bounds and the power of two they are scaled by. -/
def expNorm (p : Nat) (y : Enc) : Int × Enc :=
  let n := y.1 / (lnTwo p).1
  let l := mulEnc n (lnTwo p)
  (n, expEnc p (y.1 - l.2, y.2 - l.1))

end Machine

end Sys2Proof
end

