-- ==== Sys2Proof/Machine/Flags.lean ====
section
/-!
DEFINITION. The events of a rounding and of the steps after it (R36, R68 to R71, R82, R88, R110).
-/
namespace Sys2Proof.Machine

/-- A result pattern with the events its sub-element raised. -/
abbrev Out := Nat × List Evt

/-- A class counts at most once for a sub-element (R82). -/
def once (es : List Evt) : List Evt := es.foldr (fun e r => if r.contains e then r else e :: r) []

/-- Whether the rounding mode delivers an infinity on overflow (R69). -/
def overflowsToInf (m : Rnd) (neg : Bool) : Bool :=
  match m with
  | .rne | .rna | .dyn => true
  | .rtz => false
  | .rup => !neg
  | .rdn => neg

/-- The IEEE result of a non-zero rational in a format, with OVF, UNF and INX (R68, R69). -/
def roundFlt (f : FFmt) (m : Rnd) (neg : Bool) (n d : Nat) : Out :=
  if n == 0 then (f.signPat neg, [])
  else
    let r := roundSig f m neg n d (some f.minExp)
    let p := scaleFrac n d (-r.2)
    let inexact := r.1 * p.2 != p.1
    let pat := r.1 + (r.2 - f.minExp).toNat * 2 ^ (f.prec - 1)
    if f.infPat ≤ pat then
      (f.signPat neg + (if overflowsToInf m neg then f.infPat else f.infPat - 1), [.ovf, .inx])
    else
      let u := roundSig f m neg n d none
      let tiny := floorLog u.1 1 + u.2 < f.minExp + (f.prec - 1 : Nat)
      (f.signPat neg + pat, (if tiny && inexact then [Evt.unf] else []) ++ (if inexact then [Evt.inx] else []))

/-- RoundTo of an exact result to a floating-point format (R7, R67, R70). -/
def roundTo (f : FFmt) (m : Rnd) : Exact → Out
  | .nan => (f.qnan, [])
  | .inf neg => (f.signPat neg + f.infPat, [])
  | .num neg n d => roundFlt f m neg n d

/-- Clamp to [0, 1] (R36 step 5, R110): INX when the value changes; −0 gives +0 without INX. -/
def clampUnit (f : FFmt) (x : Nat) : Out :=
  let one := f.bias * 2 ^ (f.prec - 1)
  if bitOf x (f.bits - 1) then (0, if fld x 0 (f.bits - 1) == 0 then [] else [.inx])
  else if one < x then (one, [.inx]) else (x, [])

/-- Sat (R7, R71): an infinity becomes the largest finite value and counts SAT. -/
def satFlt (f : FFmt) (x : Nat) : Out := if fld x 0 (f.bits - 1) == f.infPat then (x - 1, [.sat]) else (x, [])

/-- The exact result scaled by 2^k (R36 step 3). -/
def scaleExact (k : Int) : Exact → Exact
  | .num neg n d => let p := scaleFrac n d k; .num neg p.1 p.2
  | x => x

/-- SCALE of a modifier word as a signed number (R36). -/
def scaleOf (mw : Option MWord) : Int := match mw with | some m => sext 6 m.scale.toNat | none => 0

/-- Fields of a modifier word that may be absent. -/
def mwBit (mw : Option MWord) (f : MWord → Bool) : Bool := match mw with | some m => f m | none => false

/-- Steps 5 and 6 of R36 on a rounded result (R110). -/
def finishRounded (f : FFmt) (mw : Option MWord) (y : Out) : Out :=
  let c := if mwBit mw (·.clamp) && !isNan f y.1 then clampUnit f y.1 else (y.1, [])
  let z := if mwBit mw (·.sat) && !isNan f c.1 then satFlt f c.1 else (c.1, [])
  (z.1, once (y.2 ++ c.2 ++ z.2))

/-- FltFinish (R110). -/
def fltFinish (f : FFmt) (m : Rnd) (mw : Option MWord) (x : Exact) : Out :=
  finishRounded f mw (roundTo f m (scaleExact (scaleOf mw) x))

/-! ## Integers (R88) -/

/-- The least value of an integer format (R64, Table 1). -/
def IFmt.minVal (f : IFmt) : Int := if f.signed then -(2 ^ (f.bits - 1)) else 0
/-- The greatest value of an integer format (R64, Table 1). -/
def IFmt.maxVal (f : IFmt) : Int := if f.signed then 2 ^ (f.bits - 1) - 1 else 2 ^ f.bits - 1

/-- Clamp(x, fmt) (R88). -/
def clampInt (f : IFmt) (x : Int) : Int := max (IFmt.minVal f) (min x (IFmt.maxVal f))

/-- Steps 4 and 6 of R36 on an integer result: Clamp with SAT, Wrap without (R88). -/
def satOrWrap (f : IFmt) (sat : Bool) (x : Int) : Out :=
  if sat then
    let y := clampInt f x
    (wrapN f.bits y, if y != x then [.sat] else [])
  else (wrapN f.bits x, [])

/-- IntFinish (R88). -/
def intFinish (f : IFmt) (m : Rnd) (mw : Option MWord) (x : Int) : Out :=
  let k := scaleOf mw
  let y := if 0 ≤ k then x * 2 ^ k.toNat else roundInt m x (2 ^ (-k).toNat)
  satOrWrap f (mwBit mw (·.sat)) y

/-- A float value rounded to an integer format (R80): NaN to 0, out-of-range values to the extreme of their sign. -/
def toIntOut (f : IFmt) (m : Rnd) : Exact → Out
  | .nan => (0, [.inv])
  | .inf neg => (wrapN f.bits (if neg then IFmt.minVal f else IFmt.maxVal f), [.inv])
  | .num neg n d =>
    let r := roundNat m neg n d
    let x : Int := if neg then -(r : Int) else r
    if x < IFmt.minVal f then (wrapN f.bits (IFmt.minVal f), [.inv])
    else if IFmt.maxVal f < x then (wrapN f.bits (IFmt.maxVal f), [.inv])
    else (wrapN f.bits x, if r * d != n then [.inx] else [])

/-- An integer as an exact value. -/
def exactInt (x : Int) : Exact := .num (decide (x < 0)) x.natAbs 1

end Sys2Proof.Machine
end

