-- ==== Sys2Proof/Machine/Special.lean ====
section
/-!
DEFINITION. The special functions of R114 and R120 on patterns: exact cases, and enclosures that are refined until one
correctly rounded result is left, without an end that any operand reaches (log 12).
-/
namespace Sys2Proof.Machine



/-- The rounding modes' numbers for hard cases. -/
def rndNum : Rnd → Nat
  | .rne => 0 | .rtz => 1 | .rup => 2 | .rdn => 3 | .rna => 4 | .dyn => 5

/-- The one rounded result that every real strictly inside the bounds has, if there is one; `k` scales by 2^k. -/
def encOut (f : FFmt) (m : Rnd) (k : Int) (neg : Bool) (p : Nat) (e : Enc) : Option Out :=
  let a := roundTo f m (scaleExact k (.num neg (max (e.1 * 2 ^ 32 + 1) 1).toNat (2 ^ (p + 32))))
  let b := roundTo f m (scaleExact k (.num neg (max (e.2 * 2 ^ 32 - 1) 1).toNat (2 ^ (p + 32))))
  if a = b then some a else none

/-- The first precision that decides, from `p` on, each twice the one before. -/
def refineFrom {α : Type} (f : Nat → Option α) : Nat → Nat → Option α
  | 0, _ => none
  | n + 1, p => match f p with | some x => some x | none => refineFrom f n (2 * p)

/-- What an enclosure decides once it is fine enough. The values enclosed are irrational, and rounding changes at rational
points alone, so that some precision decides; `none` stands for an enclosure that 2^62 doublings leave open. -/
def refine {α : Type} (f : Nat → Option α) : Option α := refineFrom f (2 ^ 62) 160

/-- The rounded result of an irrational of known sign, enclosed at every precision; `fn` and `x` name a hard case. -/
def roundEnc (f : FFmt) (m : Rnd) (k : Int) (neg : Bool) (fn x : Nat) (enc : Nat → Int × Enc) : Out :=
  match refine fun p => encOut f m (k + (enc p).1) neg p (enc p).2 with
  | some y => y
  | none => (Config.hardCase fn (rndNum m) x 0 f.bits % 2 ^ f.bits, [.inx])

/-- Unary functions of one float (R114, R120). -/
inductive Fn where
  | sqrt | rcp | rsq | ex2 | lg2 | sin | cos | tnh
  deriving DecidableEq, Repr

/-- Numbers of functions for hard cases. -/
def Fn.num : Fn → Nat
  | .sqrt => 0 | .rcp => 1 | .rsq => 2 | .ex2 => 3 | .lg2 => 4 | .sin => 5 | .cos => 6 | .tnh => 7

/-- Bounds of 2^r for the fraction part of a, with its integer part (R120). -/
def ex2Enc (i : Int) (r d : Nat) (p : Nat) : Int × Enc :=
  let l := lnTwo p
  (i, expEnc p (l.1 * r / d, l.2 * r / d + 1))

/-- Bounds of `|log₂ (n/d)|`. -/
def lg2Enc (n d : Nat) (p : Nat) : Int × Enc :=
  let e := floorLog n d
  let q := scaleFrac n d (-e)
  let l := lnFrac p q.1 q.2
  let t := lnTwo p
  let lo := e * 2 ^ p + l.1 * 2 ^ p / t.2 - 1
  let hi := e * 2 ^ p + l.2 * 2 ^ p / t.1 + 1
  (0, if e < 0 then (-hi, -lo) else (lo, hi))

/-- Bounds of `sin(π n/d)` for `0 < n/d < 1/2`, or of the cosine. -/
def quarterEnc (cos : Bool) (n d : Nat) (p : Nat) : Int × Enc :=
  if 4 * n ≤ d then (0, trigPoint p (!cos) n d) else (0, trigPoint p cos (d - 2 * n) (2 * d))

/-- Bounds of `tanh (n/d)`. -/
def tnhEnc (n d : Nat) (p : Nat) : Int × Enc :=
  if 40 * d ≤ n then (0, (2 ^ p - 2 ^ (p - 100), 2 ^ p))
  else if 4096 * n ≤ d then
    let a : Int := n * 2 ^ p / d
    let c : Int := n ^ 3 * 2 ^ p / (3 * d ^ 3)
    let q : Int := 2 * n ^ 5 * 2 ^ p / (15 * d ^ 5)
    (0, (a - c - 1, a - c + q + 2))
  else
    let e := expEnc p (2 * n * 2 ^ p / d, 2 * n * 2 ^ p / d + 1)
    (0, (2 ^ p - 2 * 2 ^ (2 * p) / (e.1 + 2 ^ p) - 1, 2 ^ p - 2 * 2 ^ (2 * p) / (e.2 + 2 ^ p) + 1))

/-- The rounded function of a non-zero finite operand (R114, Table 3; R120, Table 4). -/
def fnFinite (fn : Fn) (f : FFmt) (m : Rnd) (k : Int) (x : Nat) (neg : Bool) (n d : Nat) : Out :=
  let ex := fun (e : Exact) => roundTo f m (scaleExact k e)
  let bad : Out := (f.qnan, [.inv])
  match fn with
  | .sqrt => if neg then bad else let q := rootOfFrac n d; ex (.num false q.1 q.2)
  | .rcp => ex (.num neg d n)
  | .rsq => if neg then bad else let q := rootOfFrac d n; ex (.num false q.1 q.2)
  | .ex2 =>
    if 1000 * d ≤ n then ex (if neg then .num false 1 (2 ^ 1000) else .num false (2 ^ 1000) 1)
    else if n % d == 0 then ex (if neg then .num false 1 (2 ^ (n / d)) else .num false (2 ^ (n / d)) 1)
    else
      let i : Int := if neg then -((n / d : Nat) : Int) - 1 else (n / d : Nat)
      let r := if neg then d - n % d else n % d
      roundEnc f m k false fn.num x (ex2Enc i r d)
  | .lg2 =>
    if neg then bad
    else
      let e := floorLog n d
      let q := scaleFrac n d (-e)
      if q.1 == q.2 then ex (exactInt e)
      else roundEnc f m k (decide (e < 0)) fn.num x (lg2Enc n d)
  | .sin =>
    if n % d == 0 then ex (.num neg 0 1)
    else
      let r := n % (2 * d)
      let s := neg != decide (d < r)
      let r := r % d
      let r := if d < 2 * r then d - r else r
      if 2 * r == d then ex (.num s 1 1) else roundEnc f m k s fn.num x (quarterEnc false r d)
  | .cos =>
    let r := n % (2 * d)
    let r := if d < r then 2 * d - r else r
    if 2 * r == d then ex (.num false 0 1)
    else if r == 0 || r == d then ex (.num (r != 0) 1 1)
    else
      let s := decide (d < 2 * r)
      let r := if s then d - r else r
      roundEnc f m k s fn.num x (quarterEnc true r d)
  | .tnh => roundEnc f m k neg fn.num x (tnhEnc n d)

/-- The function at zeros and infinities (R114, Table 3; R120, Table 4). -/
def fnSpecial (fn : Fn) (neg inf : Bool) : Exact × List Evt :=
  let z := Exact.num neg 0 1
  match fn with
  | .sqrt => if inf then (if neg then (.nan, [.inv]) else (.inf false, [])) else (z, [])
  | .rcp => if inf then (z, []) else (.inf neg, [.dz])
  | .rsq => if inf then (if neg then (.nan, [.inv]) else (.num false 0 1, [])) else (.inf neg, [.dz])
  | .ex2 => if inf then (if neg then (.num false 0 1, []) else (.inf false, [])) else (.num false 1 1, [])
  | .lg2 => if inf then (if neg then (.nan, [.inv]) else (.inf false, [])) else (.inf true, [.dz])
  | .sin => if inf then (.nan, [.inv]) else (z, [])
  | .cos => if inf then (.nan, [.inv]) else (.num false 1 1, [])
  | .tnh => if inf then (.num neg 1 1, []) else (z, [])

/-- A unary function of a pattern, finished (R110, R114, R120). -/
def fnOut (fn : Fn) (f : FFmt) (m : Rnd) (mw : Option MWord) (x : Nat) : Out :=
  let r : Out :=
    match fltVal f x with
    | .nan => (f.qnan, if isSnan f x then [.inv] else [])
    | .inf neg => let e := fnSpecial fn neg true; let y := roundTo f m (scaleExact (scaleOf mw) e.1); (y.1, e.2 ++ y.2)
    | .num neg n d =>
      if n == 0 then
        let e := fnSpecial fn neg false
        let y := roundTo f m (scaleExact (scaleOf mw) e.1)
        (y.1, e.2 ++ y.2)
      else fnFinite fn f m (scaleOf mw) x neg n d
  finishRounded f mw r

end Sys2Proof.Machine
end

