-- ==== Sys2Proof/Machine/Sli.lean ====
section
/-!
DEFINITION. Symmetric level-index arithmetic (R76 to R79, R121 to R126): grid positions, rounding in index space, and
the index of exact sums, products and conversions. Enclosures are refined until they decide (log 12).
-/
namespace Sys2Proof.Machine

/-- The zero code (R76). -/
abbrev sliZero : Nat := 0x40000000
/-- The NaR code (R76). -/
abbrev sliNar : Nat := 0xC0000000

/-- The grid position of a non-zero code (R77): ψ of its magnitude in units of 2^-27. -/
def sliJ (c : Nat) : Int := if bitOf c 30 then -(fld c 0 30 : Nat) else (fld c 0 30 : Nat)

/-- The sign of a code. -/
def sliNeg (c : Nat) : Bool := bitOf c 31

/-- The code at a grid position (R78 step 4). -/
def sliCode (neg : Bool) (j : Int) : Nat := (if j < 0 then 2 ^ 30 + j.natAbs else j.natAbs) + (if neg then 2 ^ 31 else 0)

/-- SliRank (R77). -/
def sliRank (c : Nat) : Nat := if c % 2 ^ 31 == sliZero then 0 else (2 ^ 30 + sliJ c).toNat

/-- The signed order of R77 as an integer. -/
def sliKey (c : Nat) : Int := if sliNeg c then -(sliRank c : Int) else (sliRank c : Nat)

/-- NEG and ABS on an operand (R121): zero and NaR are left unchanged. -/
def sliSign (c : Nat) (ab ng : Bool) : Nat :=
  if c == sliZero || c == sliNar then c
  else
    let c := if ab then c % 2 ^ 31 else c
    if ng then (c + 2 ^ 31) % 2 ^ 32 else c

/-- The level of a code as VSLVL gives it (R125). -/
def sliLevel (c : Nat) : Int :=
  if c == sliZero then 0 else if c == sliNar then -(2 ^ 31)
  else if bitOf c 30 then -((fld c 27 3 + 1 : Nat) : Int) else (fld c 27 3 + 1 : Nat)

/-- RoundTo into SLI32 of an index `t / d` in units of 2^-27, with INX and LVC (R78). -/
def sliRound (m : Rnd) (neg : Bool) (t : Int) (d : Nat) : Out :=
  let q := t / (d : Int)
  let r := (t % (d : Int)).toNat
  let up := match m with
    | .rne | .dyn => decide (d < 2 * r) || (2 * r == d && q % 2 == 1)
    | .rna => decide (0 < r) && decide (d ≤ 2 * r)
    | .rtz => false
    | .rup => decide (0 < r) && !neg
    | .rdn => decide (0 < r) && neg
  let j := if up then q + 1 else q
  let top : Int := 2 ^ 30 - 1
  let lvc := decide (top * d < t) || decide (t < -top * d)
  let j := if lvc then (if t < 0 then -top else top) else j
  (sliCode neg j, (if r != 0 then [Evt.inx] else []) ++ (if lvc then [Evt.lvc] else []))

/-! ## φ and its inverse -/

/-- One application of e^x. -/
def expLevels (p : Nat) : Nat → Enc → Enc
  | 0, x => x
  | n + 1, x => expLevels p n (expEnc p x)

/-- Bounds of φ(j / 2^27) for a position `j ≥ 0` (R76). -/
def phiEnc (p j : Nat) : Enc :=
  let f : Int := (j % 2 ^ 27 : Nat) * 2 ^ (p - 27)
  expLevels p (j / 2 ^ 27) (f, f)

/-- Bounds of `ln |a|` for a code at grid position `j`: φ(|ψ|) with the sign of ψ. -/
def logEnc (p : Nat) (j : Int) : Enc := let e := phiEnc p j.natAbs; if j < 0 then (-e.2, -e.1) else e

/-- A lower bound of φ⁻¹ of a value ≥ 0. -/
def phiInvLo (p : Nat) : Nat → Int → Int
  | 0, x => x
  | n + 1, x => if x < 2 ^ p then x else 2 ^ p + phiInvLo p n (max (lnPoint p x.toNat).1 0)

/-- An upper bound of φ⁻¹ of a value ≥ 0. -/
def phiInvHi (p : Nat) : Nat → Int → Int
  | 0, x => x
  | n + 1, x => if x < 2 ^ p then x else 2 ^ p + phiInvHi p n (max (lnPoint p x.toNat).2 0)

/-- Bounds of ψ from bounds of the logarithm. -/
def idxEnc (p : Nat) (y : Enc) : Enc :=
  (if 0 ≤ y.1 then phiInvLo p 10 y.1 else -(phiInvHi p 10 (-y.1)),
   if 0 ≤ y.2 then phiInvHi p 10 y.2 else -(phiInvLo p 10 (-y.2)))

/-- The index of an exact result: a grid position, a point next to a grid position, or an enclosure. -/
inductive Idx where
  | exact (j : Int)
  | near (j : Int) (above : Bool)
  | enc (e : Nat → Enc)

/-- The one rounded code of every index strictly inside the bounds. -/
def sliEncOut (m : Rnd) (neg : Bool) (p : Nat) (e : Enc) : Option Out :=
  let d := 2 ^ (p + 32 - 27)
  let a := sliRound m neg (e.1 * 2 ^ 32 + 1) d
  let b := sliRound m neg (e.2 * 2 ^ 32 - 1) d
  if a = b then some a else none

/-- An index rounded to a code (R78); `x` and `y` name a hard case. -/
def idxOut (m : Rnd) (neg : Bool) (fn x y : Nat) : Idx → Out
  | .exact j => sliRound m neg j 1
  | .near j above => sliRound m neg (j * 2 ^ 20 + (if above then 1 else -1)) (2 ^ 20)
  | .enc e =>
    match refine fun p => sliEncOut m neg p (e p) with
    | some r => r
    | none => (Config.hardCase fn (rndNum m) x y 32 % 2 ^ 32, [.inx])

/-- Positions up to which φ is computed as a number: index 4.5. -/
def numTop : Nat := 4 * 2 ^ 27 + 2 ^ 26
/-- Positions beyond which nothing but an equal magnitude moves an index by a visible amount: index 5.5. -/
def farTop : Nat := 5 * 2 ^ 27 + 2 ^ 26

/-- An enclosed index, or the point next to `j` when the enclosure lies within 2^-50 of it. -/
def nearOr (j : Int) (above : Bool) (e : Nat → Enc) : Idx :=
  let p := 400
  let at_ := j * 2 ^ (p - 27)
  let r := e p
  if at_ - 2 ^ (p - 50) < r.1 && r.2 < at_ + 2 ^ (p - 50) then .near j above else .enc e

/-- Whether `sB · φ(b) + k · ln 2 > 0`, for a small or absent `b`. -/
def tailUp (sB : Bool) (b : Nat) (k : Int) : Bool :=
  if 3 * 2 ^ 27 + 2 ^ 25 < b then sB
  else if b == 0 then decide (0 < k)
  else if k == 0 then sB
  else
    let e := phiEnc 200 b
    let l := mulEnc k (lnTwo 200)
    decide (0 < (if sB then e.1 else -e.2) + l.1)

/-- The index of a product (R123): logarithms at positions `x` and `y` added, with `k · ln 2` for SCALE. Up to index 1 a
position is the logarithm itself, so such a sum is exact up to 1. -/
def mulIdx (x y : Int) (k : Int) : Idx :=
  let a := if x.natAbs < y.natAbs then y else x
  let b := if x.natAbs < y.natAbs then x else y
  if b == 0 && k == 0 then .exact a
  else if k == 0 && a.natAbs ≤ 2 ^ 27 && (a + b).natAbs ≤ 2 ^ 27 then .exact (a + b)
  else if a == -b then (if k == 0 then .exact 0 else .enc fun p => idxEnc p (mulEnc k (lnTwo p)))
  else
    let pos := decide (0 ≤ a)
    let sB := decide (0 ≤ b) == pos
    let kk := if pos then k else -k
    let above := tailUp sB b.natAbs kk == pos
    let num := fun p =>
      let u := logEnc p a
      let w := logEnc p b
      let l := mulEnc k (lnTwo p)
      idxEnc p (u.1 + w.1 + l.1, u.2 + w.2 + l.2)
    if a.natAbs ≤ numTop then nearOr a above num
    else if farTop < a.natAbs then .near a above
    else
      nearOr a above fun p =>
        let F := phiEnc p (a.natAbs - 2 ^ 27)
        let eF := expEnc p (-F.2, -F.1)
        let r : Enc := if 2 ^ 27 ≤ b.natAbs then
            let G := phiEnc p (b.natAbs - 2 ^ 27)
            expEnc p (min (G.1 - F.2) 0, min (G.2 - F.1) 0)
          else (b.natAbs * eF.1 / 2 ^ 27, b.natAbs * eF.2 / 2 ^ 27 + 1)
        let l := mulEnc kk (lnTwo p)
        let c : Enc := (min (l.1 * eF.1 / 2 ^ p) (l.1 * eF.2 / 2 ^ p) - 1, max (l.2 * eF.1 / 2 ^ p) (l.2 * eF.2 / 2 ^ p) + 1)
        let s : Enc := if sB then (2 ^ p + r.1 + c.1, 2 ^ p + r.2 + c.2) else (2 ^ p - r.2 + c.1, 2 ^ p - r.1 + c.2)
        let n := lnEnc p (max s.1 1, max s.2 1)
        let i : Enc := (2 ^ p + phiInvLo p 10 (max (F.1 + n.1) 0), 2 ^ p + phiInvHi p 10 (max (F.2 + n.2) 0))
        if pos then i else (-i.2, -i.1)

/-- The index of a sum (`plus`) or difference of two magnitudes at positions `x > y`, scaled by 2^k (R123). -/
def addIdx (x y : Int) (plus : Bool) (k : Int) : Idx :=
  let above := if k == 0 then plus else decide (0 < k)
  if x.natAbs ≤ numTop && y.natAbs ≤ numTop then
    let tail := fun p =>
      let u := logEnc p x
      let w := logEnc p y
      let r := expEnc p (min (w.1 - u.2) 0, min (w.2 - u.1) 0)
      let s : Enc := if plus then (2 ^ p + r.1, 2 ^ p + r.2) else (max (2 ^ p - r.2) 1, max (2 ^ p - r.1) 1)
      let n := lnEnc p s
      let l := mulEnc k (lnTwo p)
      (n.1 + l.1, n.2 + l.2)
    let t := tail 400
    nearOr x (if 0 < t.1 then true else if t.2 < 0 then false else above) fun p =>
      let u := logEnc p x
      let t := tail p
      idxEnc p (u.1 + t.1, u.2 + t.2)
  else if x.natAbs ≤ numTop then (if k == 0 then .near x plus else mulIdx x 0 k)
  else .near x above

/-- RoundTo into SLI32 of a non-zero rational magnitude (R78, R80). -/
def fracSli (m : Rnd) (neg : Bool) (n d fn x : Nat) : Out :=
  if n == 0 then (sliZero, [])
  else if n == d then sliRound m neg 0 1
  else idxOut m neg fn x n (.enc fun p => idxEnc p (lnFrac p n d))

/-- VSADD, VSSUB (with the sign of `b` inverted), VSMUL and VSDIV (R123). -/
inductive SOp where
  | add | mul | div
  deriving DecidableEq, Repr

/-- The exact result of an operation on codes that are not NaR, times 2^k, rounded (R123). -/
def sliOut (op : SOp) (m : Rnd) (k : Int) (a b : Nat) : Out :=
  if a == sliNar || b == sliNar then (sliNar, [])
  else match op with
  | .add =>
    if a == sliZero && b == sliZero then (sliZero, [])
    else if b == sliZero then idxOut m (sliNeg a) 8 a b (mulIdx (sliJ a) 0 k)
    else if a == sliZero then idxOut m (sliNeg b) 8 a b (mulIdx (sliJ b) 0 k)
    else
      let x := if sliRank a < sliRank b then b else a
      let y := if sliRank a < sliRank b then a else b
      let same := sliNeg a == sliNeg b
      if sliRank a == sliRank b then
        (if same then idxOut m (sliNeg a) 8 a b (mulIdx (sliJ a) 0 (k + 1)) else (sliZero, []))
      else idxOut m (sliNeg x) 8 a b (addIdx (sliJ x) (sliJ y) same k)
  | .mul =>
    if a == sliZero || b == sliZero then (sliZero, [])
    else idxOut m (sliNeg a != sliNeg b) 9 a b (mulIdx (sliJ a) (sliJ b) k)
  | .div =>
    if b == sliZero then (sliNar, if a == sliZero then [.inv] else [.dz])
    else if a == sliZero then (sliZero, [])
    else idxOut m (sliNeg a != sliNeg b) 10 a b (mulIdx (sliJ a) (-(sliJ b)) k)

/-- The pair (rb, level) of a code. -/
def sliPair (c : Nat) : Nat := fld c 27 4

/-- The level-crossing flag (R79): `a` decides on a tie of ranks. -/
def levelCross (y a b : Nat) : Bool :=
  let o := if sliRank a < sliRank b then b else a
  y != sliZero && y != sliNar && o != sliZero && o != sliNar && sliPair y != sliPair o

/-- VSEXP (R124, Table 6). -/
def sliExp (m : Rnd) (a : Nat) : Out :=
  if a == sliNar then (sliNar, [])
  else if a == sliZero then (0, [])
  else if bitOf a 30 then
    let j := sliJ a
    let neg := sliNeg a
    if numTop < j.natAbs then idxOut m false 11 a 0 (.near 0 (!neg))
    else idxOut m false 11 a 0 (nearOr 0 (!neg) fun p =>
      let e := expEnc p (logEnc p j)
      if neg then (-e.2, -e.1) else e)
  else if fld a 27 3 == 7 then (if sliNeg a then 0x7FFFFFFF else 0x3FFFFFFF, [.inx, .lvc])
  else (sliCode false (if sliNeg a then -(sliJ a + 2 ^ 27) else sliJ a + 2 ^ 27), [])

/-- VSLN (R124, Table 6). -/
def sliLn (m : Rnd) (a : Nat) : Out :=
  if a == sliNar then (sliNar, [])
  else if a == sliZero then (sliNar, [.dz])
  else if sliNeg a then (sliNar, [.inv])
  else if bitOf a 30 then
    (if fld a 27 3 == 0 then fracSli m true (fld a 0 27) (2 ^ 27) 12 a
     else (sliCode true ((sliJ a).natAbs - 2 ^ 27 : Int), []))
  else if fld a 27 3 == 0 then fracSli m false (fld a 0 27) (2 ^ 27) 12 a
  else (sliCode false (sliJ a - 2 ^ 27), [])

/-- A code's magnitude, times 2^k, as an enclosed number: its power of two and bounds. -/
def sliNum (j : Int) (k : Int) (p : Nat) : Int × Enc :=
  let r := expNorm p (logEnc p j)
  (r.1 + k, r.2)

/-- SLI32 to a float (R80, R126), before CLAMP and SAT. -/
def sliToFlt (f : FFmt) (m : Rnd) (k : Int) (c : Nat) : Out :=
  if c == sliNar then (f.qnan, [])
  else if c == sliZero then (0, [])
  else
    let j := sliJ c
    if j == 0 then roundTo f m (scaleExact k (.num (sliNeg c) 1 1))
    else if 3 * 2 ^ 27 + 93952409 < j.natAbs then
      roundTo f m (if j < 0 then .num (sliNeg c) 1 (2 ^ 2500) else .num (sliNeg c) (2 ^ 2500) 1)
    else roundEnc f m 0 (sliNeg c) 13 c (sliNum j k)

/-- SLI32 to an integer (R80, R126). -/
def sliToInt (f : IFmt) (m : Rnd) (k : Int) (c : Nat) : Out :=
  if c == sliNar then (0, [.inv])
  else if c == sliZero then (0, [])
  else
    let j := sliJ c
    let neg := sliNeg c
    let at_ := fun (e : Exact) => toIntOut f m e
    if j == 0 then at_ (scaleExact k (.num neg 1 1))
    else if 3 * 2 ^ 27 + 93952409 < j.natAbs then at_ (if j < 0 then .num neg 1 (2 ^ 2500) else .num neg (2 ^ 2500) 1)
    else
      let try_ := fun p =>
        let r := sliNum j k p
        let a := at_ (scaleExact r.1 (.num neg (max (r.2.1 * 2 ^ 32 + 1) 1).toNat (2 ^ (p + 32))))
        let b := at_ (scaleExact r.1 (.num neg (max (r.2.2 * 2 ^ 32 - 1) 1).toNat (2 ^ (p + 32))))
        if a = b then some a else none
      match refine try_ with
      | some y => y
      | none => (Config.hardCase 14 (rndNum m) c (wrapN 6 k) f.bits % 2 ^ f.bits, [.inx])

end Sys2Proof.Machine
end

