-- ==== Sys2Proof/Machine/Operands.lean ====
section
/-!
DEFINITION. Operand forms of the lane set: source fields and literals (R24, R34), guards and masks (R6, R35), the checks
before an instruction executes (R28, R42, R225, R337), results and latches (R27), and the course of every lane-set
instruction (R42, R265).
-/
namespace Sys2Proof.Machine

/-! ## Sources -/

/-- A source register's 64 bits in a lane (R24, R34). -/
def srcVal (G : Gang) (l : Nat) : Src → Word
  | .v r => vGet G r l
  | .s r => sGet G r
  | .x k => xGet G k l

/-- A pattern of `w` bits in every sub-element. -/
def fill (w x : Nat) : Word :=
  BitVec.ofNat 64 ((List.range (64 / w)).foldl (fun a k => a + x % 2 ^ w * 2 ^ (k * w)) 0)

/-- A literal of the integer class (R24). -/
def litInt (f : IFmt) (w : W32) : Word := if f.bits == 64 then BitVec.signExtend 64 w else fill f.bits w.toNat

/-- A binary32 pattern as the binary64 pattern of the same value (R24). -/
def widen32 (x : Nat) : Nat :=
  if isNan .f32 x then b2n (bitOf x 31) * 2 ^ 63 + 0x7FF * 2 ^ 52 + fld x 0 23 * 2 ^ 29
  else (roundTo .f64 .rne (fltVal .f32 x)).1

/-- A literal of the float class (R24). -/
def litFlt (f : FFmt) (w : W32) : Word :=
  match f with
  | .f64 => BitVec.ofNat 64 (widen32 w.toNat)
  | f => fill f.bits w.toNat

/-- An LI immediate in every sub-element (R24). -/
def immInt (f : IFmt) (i : BitVec 7) : Word := fill f.bits (BitVec.signExtend 64 i).toNat

/-- Source B of the integer class. -/
def bInt (f : IFmt) (G : Gang) (l : Nat) : SrcB → Word
  | .src a => srcVal G l a
  | .lit w => litInt f w

/-- Source B of the float class. -/
def bFlt (f : FFmt) (G : Gang) (l : Nat) : SrcB → Word
  | .src a => srcVal G l a
  | .lit w => litFlt f w

/-! ## Lead words -/

/-- Words of the lead (R39). -/
def leadWords (p : Lead) : Nat := b2n p.pw.isSome + b2n p.mw.isSome

/-- Bytes of an instruction with one base word and, for a literal B, one literal word (R39). -/
def lenOf (p : Lead) (b : Bool) : Nat := 4 * (leadWords p + 1 + b2n b)

/-- Whether source B is a literal word. -/
def SrcB.isLit : SrcB → Bool | .lit _ => true | .src _ => false

/-- The write mask (R35). -/
def maskOf (p : Lead) : Nat := match p.pw with | some w => w.mask.toNat | none => 0xFF

/-- The sub-elements below `n` that the mask selects. -/
def maskKs (p : Lead) (n : Nat) : List Nat := (List.range n).filter fun k => bitOf (maskOf p) k

/-- The lanes of a run whose guard reads 1 (R6, R35). -/
def guardLanes (G : Gang) (p : Lead) (run : W32) : W32 :=
  match p.pw with
  | none => run
  | some w => laneSet fun l => hasLane run l && (pGet G w.guard l != w.inv)

/-- The lanes that zeroing writes: those of the run whose guard reads 0 (R6, R35). -/
def zeroLanes (G : Gang) (p : Lead) (run : W32) : W32 :=
  match p.pw with
  | some w => if w.zero then run &&& ~~~(guardLanes G p run) else 0
  | none => 0

/-- A rounding code with DYN resolved by FP.MODE (R35, R69). -/
def effMode (G : Gang) (p : Lead) : Rnd :=
  match p.pw with
  | none => .rne
  | some w =>
    match w.rnd with
    | .dyn => (match Word.fld (srGet G rFpMode) 0 3 with | 1 => .rtz | 2 => .rup | 3 => .rdn | 4 => .rna | _ => .rne)
    | r => r

/-- The fourth operand (R35). -/
def srcC (p : Lead) : Option Src := p.pw.bind (·.c)

/-! ## What an instruction uses -/

/-- A source that is read: its field (R41, Table 10), and the bits of it that are used. -/
structure Rd where
  fld  : Nat
  src  : Src
  bits : Nat
  deriving DecidableEq, Repr

/-- The bits of sub-elements `ks` of width `w`. -/
def bitsOf (w : Nat) (ks : List Nat) : Nat := ks.foldl (fun a k => a ||| ((2 ^ w - 1) * 2 ^ (k * w))) 0

/-- What a lane-set instruction reads and writes, and what it costs; a source with no bits is checked where the instruction
reads it. With `nowb` the v register named is not written (R27). -/
structure LaneUse where
  lead    : Lead
  price   : Nat
  reads   : List Rd
  preds   : List Nat
  vdst    : Option (Nat × Nat)
  pdst    : Option Nat
  closing : Bool
  len     : Nat
  nowb    : Bool := false
  deriving DecidableEq, Repr

/-- The reads of source B. -/
def rdB (b : SrcB) (bits : Nat) : List Rd := match b with | .src a => [⟨2, a, bits⟩] | .lit _ => []

/-- The reads of the fourth operand. -/
def rdC (p : Lead) (bits : Nat) : List Rd := match srcC p with | some a => [⟨4, a, bits⟩] | none => []

/-- Whether an instruction reads a latch (R28). -/
def LaneUse.member (u : LaneUse) : Bool := u.reads.any fun r => match r.src with | .x _ => true | _ => false

/-- The v registers of a use, with their fields. -/
def LaneUse.vregs (u : LaneUse) : List (Nat × Nat) :=
  (u.reads.filterMap fun r => match r.src with | .v n => some (r.fld, n.val) | _ => none)
    ++ (match u.vdst with | some d => [(d.2, d.1)] | none => [])

/-- The predicates of a use: the guard, p7 without a prefix (R35), and those it reads. -/
def LaneUse.pregs (u : LaneUse) : List Nat := (match u.lead.pw with | some w => w.guard.val | none => 7) :: u.preds

/-! ## Checks before execution (R42) -/

/-- The latch-chain checks (R28, Table 3). -/
def chainCheck (G : Gang) (c : Issue) (u : LaneUse) : Chk Unit :=
  let xs := u.reads.filterMap fun r => match r.src with | .x k => some (r.fld, k.val) | _ => none
  match xs with
  | [] => .ok ()
  | (f, _) :: _ =>
    let bad := fun (field sub : Nat) => (Except.error (.bad .illchain field sub 0xFF 0) : Chk Unit)
    match G.chain with
    | none => bad f 1
    | some k =>
      if k.run != c.run || G.chainEnd == .closed then bad f 1
      else if xs.any fun x => k.members < x.2 + 1 then bad f 2
      else if G.chainEnd == .broken then bad f 3
      else if 4 ≤ k.members then bad f 4
      else if (match u.vdst with | some d => !u.nowb && k.vRead.contains d.1 | none => false)
           || (match u.pdst with | some p => k.pRead.contains p | none => false) then bad 3 5
      else if u.closing then bad f 6
      else .ok ()

/-- The register budget (R225): naming a v register at or above 8b + 8 raises PROT on its field. -/
def budgetCheck (G : Gang) (vs : List (Nat × Nat)) : Chk Unit :=
  match vs.find? fun v => 8 * G.budget + 8 ≤ v.2 with
  | some v => .error (prot v.1)
  | none => .ok ()

/-- Whether an answer is outstanding for a register of the lanes. -/
def awaits (G : Gang) (lns : W32) (vs ss : List Nat) : Bool :=
  let hit := fun (d : Dest) => match d with
    | .lane l r _ => hasLane lns l && vs.contains r
    | .uni r _ => ss.contains r
    | .none => false
  G.reqs.any fun r => hit r.dest

/-- The late fault that a read of the registers meets (R366, R368), with its field and lane. -/
def lateRead (G : Gang) (lns : W32) (rs : List (Nat × Src)) : Option Halt :=
  rs.findSome? fun r => G.late.findSome? fun f =>
    match f.dest, r.2 with
    | .lane l n _, .v m => if n == m.val && hasLane lns l then some (.late f r.1 l) else none
    | .uni n _, .s m => if n == m.val && lns != 0 then some (.late f r.1 (lowLane lns)) else none
    | _, _ => none

/-- Poison of a vector register that a read of it in the lanes consumes (R337). -/
def poisonV (G : Gang) (lns : W32) (reg bits field : Nat) : Option Halt :=
  if G.poisonV.isEmpty then none
  else (lanesOf lns).findSome? fun l => (halvesOf bits).findSome? fun h =>
    let k := 2 * (64 * l + reg) + h
    if (SMap.find G.poisonV k).isSome then some (.poison .rfue field 1 l 0 (SMap.find G.wroteV k).isSome) else none

/-- Poison of a uniform register that a read of it consumes (R337). -/
def poisonS (G : Gang) (lane reg bits field : Nat) : Option Halt :=
  if G.poisonS.isEmpty then none
  else (halvesOf bits).findSome? fun h =>
    let k := 2 * reg + h
    if (SMap.find G.poisonS k).isSome then some (.poison .rfue field 1 lane 0 (SMap.find G.wroteS k).isSome) else none

/-- The first poisoned operand of a use (R337). -/
def readPoison (G : Gang) (lns : W32) (rs : List Rd) : Option Halt :=
  if lns == 0 then none
  else rs.findSome? fun r => match r.src with
    | .v n => poisonV G lns n.val r.bits r.fld
    | .s n => poisonS G (lowLane lns) n.val r.bits r.fld
    | .x _ => none

/-- An optional halt as a check. -/
def noHalt (h : Option Halt) : Chk Unit := match h with | some h => .error h | none => .ok ()

/-- The checks of operand reading, in the order of R42. -/
def laneChecks (G : Gang) (c : Issue) (u : LaneUse) (act : W32) : Chk Unit := do
  chainCheck G c u
  budgetCheck G u.vregs
  noHalt (lateRead G act ((u.reads.filter fun r => r.bits != 0).map fun r => (r.fld, r.src)))
  let ss := u.reads.filterMap fun r => match r.src with | .s n => some n.val | _ => none
  need (!G.loading && !awaits G c.run (u.vregs.map (·.2)) ss) .hold
  noHalt (readPoison G act u.reads)

/-! ## Writing -/

/-- Pushes a result into the latches (R27). -/
def pushLatch (G : Gang) (x : Nat → Word) : Gang :=
  { G with x := (lanes.map fun l => (l, x l)).filter (fun e => e.2 != 0)
                  ++ (G.x.filter fun e => e.1 < 96).map fun e => (e.1 + 32, e.2) }

/-- A register's word with sub-elements replaced. -/
def setElems (x : Word) (w : Nat) (es : List (Nat × Nat)) : Word := es.foldl (fun x e => setElem x w e.1 e.2) x

/-- The outcomes of sub-elements `ks` in the lanes of a set. -/
def laneOuts (act : W32) (ks : List Nat) (val : Nat → Nat → Out) : List (Nat × List (Nat × Out)) :=
  (lanesOf act).map fun l => (l, ks.map fun k => (k, val l k))

/-- What a lane's destination `x` holds once the outcomes of its lane, or zeros in `zks`, are put into it. -/
def putOuts (rs : List (Nat × List (Nat × Out))) (zer : W32) (w : Nat) (zks : List Nat) (x : Word) (l : Nat) : Word :=
  match rs.find? fun r => r.1 == l with
  | some r => setElems x w (r.2.map fun e => (e.1, e.2.1))
  | none => if hasLane zer l then setElems x w (zks.map fun k => (k, 0)) else x

/-- A register written in the lanes of two sets, with the bits that are written in each. -/
def writeLanes (G : Gang) (act zer : W32) (d abits zbits : Nat) (new : Nat → Word) : Gang :=
  lanes.foldl (fun H l =>
    if hasLane act l then wrV H d l (new l) abits else if hasLane zer l then wrV H d l (new l) zbits else H) G

/-- The vector result of an instruction (R6, R27, R35): for each active lane the sub-elements `ks` from `val`, for each
zeroed lane 0 in `zks`; the latch takes what the destination would hold, and `nowb` leaves the destination. -/
def vecResult (G : Gang) (act zer : W32) (d w : Nat) (ks zks : List Nat) (nowb push : Bool) (val : Nat → Nat → Out) :
    Gang × List (Evt × Nat) :=
  let rs := laneOuts act ks val
  let new := fun (l : Nat) => putOuts rs zer w zks (vGet G d l) l
  let evs := rs.flatMap fun r => r.2.flatMap fun e => e.2.2.map fun v => (v, r.1)
  let W := if nowb then G else writeLanes G act zer d (bitsOf w ks) (bitsOf w zks) new
  (if push then pushLatch W new else W, evs)

/-- A predicate result (R98): every active lane from `val`, every zeroed lane 0. -/
def predResult (G : Gang) (act zer : W32) (p : Nat) (val : Nat → Bool × List Evt) : Gang × List (Evt × Nat) :=
  let rs := (lanesOf act).map fun l => (l, val l)
  let G := rs.foldl (fun G r => pPut G p r.1 r.2.1) G
  ((lanesOf zer).foldl (fun G l => pPut G p l false) G, rs.flatMap fun r => r.2.2.map fun v => (v, r.1))

/-! ## The course of a lane-set instruction -/

/-- Quads that hold a lane of the set (R265). -/
def quads (m : W32) : Nat := ((List.range 8).filter fun q => (List.range 4).any fun i => hasLane m (4 * q + i)).length

/-- What an issue pays (R265). -/
def lanePrice (price : Nat) (m : W32) : Nat := (price * quads m + 7) / 8

/-- The other gangs of a quarter lose their latches when it issues a lane-set instruction (R27). -/
def loseLatches (s : State) (g : Nat) : State :=
  let G := gangOf s g
  let q := quarterOf G.slot
  let gone := (s.gangs.filter fun e => e.1 != g && e.2.core == G.core && quarterOf e.2.slot == q
    && (e.2.chain.isSome || !e.2.x.isEmpty)).map (·.1)
  gone.foldl (fun s k => modGang s k dropChain) s

/-- The chain after an instruction (R28). -/
def nextChain (G : Gang) (c : Issue) (u : LaneUse) : Gang :=
  let vs := u.reads.filterMap fun r => match r.src with | .v n => some n.val | _ => none
  if u.closing then { G with chainEnd := if G.chain.isSome then .closed else G.chainEnd }
  else
    let ev := (G.chain.map (·.events)).getD []
    let k : Chain := match u.member, G.chain with
      | true, some k => { k with members := k.members + 1, vRead := k.vRead ++ vs, pRead := k.pRead ++ u.pregs }
      | _, _ => { head := c.pc, run := c.run, members := 1, joins := false, vRead := vs, pRead := u.pregs, events := ev }
    { G with chain := some k, chainEnd := .never }

/-- Whether the next lane-set instruction joins the chain that the instruction of use `u` leaves (R28, R29). -/
def chainGoesOn (s : State) (c : Issue) (u : LaneUse) : Bool :=
  let G := gangOf s c.g
  let fall := c.pc + BitVec.ofNat 64 u.len
  !u.closing && !(loopDepth G != 0 && srGet G rLoopEnd == c.pc)
    && (match G.chain with | some k => decide (k.members < 4) | none => false)
    && runAt (moveThreads G c.run fall) fall == c.run && peekJoins s c.g fall

/-- The chain's events that wait for its end, and whether it goes on (R30). -/
def keepChain (s : State) (g : Nat) (es : List (Evt × Nat)) (j : Bool) : State :=
  modGang s g fun G => { G with chain := G.chain.map fun k => { k with events := es, joins := j } }

/-- What an instruction of use `u` has read and written (R238). -/
def LaneUse.did (u : LaneUse) : LaneDid :=
  { vRead := u.reads.filterMap fun r => match r.src with | .v n => some n.val | _ => none,
    sRead := u.reads.filterMap fun r => match r.src with | .s n => some n.val | _ => none,
    pRead := u.pregs, vWrote := if u.nowb then none else u.vdst.map (·.1), pWrote := u.pdst, len := u.len }

/-- The end of a lane-set instruction: its chain, its events now or at the chain's end (R30, R82), and the fall-through. -/
def laneDone (s : State) (c : Issue) (u : LaneUse) (evs : List (Evt × Nat)) : State :=
  let c := { c with did := some u.did }
  let s := modGang (loseLatches s c.g) c.g fun G => nextChain G c u
  let all := (((gangOf s c.g).chain.map (·.events)).getD []) ++ evs
  if chainGoesOn s c u then fallThrough (keepChain s c.g all true) c u.len else fallEvents (keepChain s c.g [] false) c u.len all

/-- The course of a lane-set instruction whose active and zeroed lanes are given (R42, R265 to R267): the checks, the
effect, the payment for the lanes it writes or accesses, the end. -/
def runLaneOn (s : State) (c : Issue) (u : LaneUse) (act zer : W32)
    (body : State → W32 → W32 → Chk (State × List (Evt × Nat))) : State :=
  let G := gangOf s c.g
  match (do laneChecks G c u act; body s act zer) with
  | .error h => settle s c u.member h
  | .ok r =>
    match payTokens r.1 c.g (lanePrice u.price (act ||| zer)) u.member with
    | none => waitHere (placeResv s (.gang c.g) G.core (lanePrice u.price (act ||| zer))) c
    | some s => laneDone s c u r.2

/-- The course of a lane-set instruction under its guard (R6, R35). -/
def runLane (s : State) (c : Issue) (u : LaneUse) (body : State → W32 → W32 → Chk (State × List (Evt × Nat))) : State :=
  let G := gangOf s c.g
  runLaneOn s c u (guardLanes G u.lead c.run) (zeroLanes G u.lead c.run) body

/-- A lane-set instruction whose whole effect is on its gang. -/
def laneGang (s : State) (u : LaneUse) (f : Gang → W32 → W32 → Gang × List (Evt × Nat)) : Res :=
  issuing s fun c => runLane s c u fun s act zer =>
    let r := f (gangOf s c.g) act zer
    .ok (setGang s c.g r.1, r.2)

/-! ## The course of a uniform-set instruction -/

/-- What a uniform-set instruction reads and writes, and what it costs: its s registers with their fields, its v
registers with theirs, and whether it belongs to the arithmetic group (R238). -/
structure UniUse where
  price : Nat
  reads : List (Nat × Nat)
  dst   : Option Nat
  vregs : List (Nat × Nat)
  arith : Bool
  len   : Nat
  deriving DecidableEq, Repr

/-- A use of s registers alone, four bytes long. -/
def uniUse (price : Nat) (reads : List (Nat × Nat)) (dst : Option Nat) : UniUse :=
  { price := price, reads := reads, dst := dst, vregs := [], arith := false, len := 4 }

/-- The first poisoned s register (R337). -/
def uniPoison (G : Gang) (run : W32) (rs : List (Nat × Nat)) : Option Halt :=
  rs.findSome? fun r => poisonS G (lowLane run) r.2 (2 ^ 64 - 1) r.1

/-- The late fault that a read of an s register meets (R366, R368). -/
def uniLate (G : Gang) (run : W32) (rs : List (Nat × Nat)) : Option Halt :=
  rs.findSome? fun r => G.late.findSome? fun f =>
    match f.dest with
    | .uni n _ => if n == r.2 then some (.late f r.1 (lowLane run)) else none
    | _ => none

/-- The checks of operand reading (R42, R225, R337). -/
def uniChecks (G : Gang) (c : Issue) (u : UniUse) : Chk Unit := do
  budgetCheck G u.vregs
  noHalt (uniLate G c.run u.reads)
  need (!G.loading && !awaits G c.run (u.vregs.map (·.2)) (u.reads.map (·.2) ++ u.dst.toList)) .hold
  noHalt (uniPoison G c.run u.reads)

/-- The course of a uniform-set instruction: the checks, the effect, the payment, the chain, and the end that the effect
names (a branch, or the fall-through). -/
def runUniTo (s : State) (c : Issue) (u : UniUse) (body : State → Chk (State × (State → State))) : State :=
  match (do uniChecks (gangOf s c.g) c u; body s) with
  | .error h => settle s c false h
  | .ok r =>
    match payTokens r.1 c.g u.price false with
    | none => waitHere (placeResv s (.gang c.g) (gangOf s c.g).core u.price) c
    | some s => r.2 (modGang s c.g fun G => uniChain G c.run u.arith)

/-- A uniform-set instruction that falls through. -/
def runUni (s : State) (c : Issue) (u : UniUse) (body : State → Chk (State × List (Evt × Nat))) : State :=
  runUniTo s c u fun s => do
    let r ← body s
    .ok (r.1, fun s => fallEvents s c u.len r.2)

/-- A uniform-set instruction that falls through without events. -/
def runPlain (s : State) (c : Issue) (u : UniUse) (body : State → Chk State) : State :=
  runUni s c u fun s => do
    let r ← body s
    .ok (r, [])

/-- The lowest thread of the issuing run, by which a uniform access is made (R178). -/
def lowThread (c : Issue) : Nat := lowLane c.run

end Sys2Proof.Machine
end

