-- ==== Sys2Proof/Machine/Stop.lean ====
section
/-!
DEFINITION. Debug stops (R383 to R387): freezing a gang with its skid, the stop record's way to a handler or to the host,
and the resume.
-/
namespace Sys2Proof.Machine

/-- DBGEN of a core (R383, Table 3). -/
def dbgEn (s : State) (c : Nat) : Bool := (mgmtGet s (offDbg c)).getLsbD 63

/-- The byte of DBG.SKIDq for a slot (R383, Table 4). -/
def setSkid (s : State) (c slot skid : Nat) : State :=
  let off := offSkid c (slot / 8)
  let b := 128 + (if 63 < skid then 64 else 0) + Nat.min skid 63
  mgmtPut s off (BitVec.ofNat 64 (setFld (mgmtGet s off).toNat (8 * (slot % 8)) 8 b))

/-- The skid registers of a core before a stop records into them (R383: the last stop). -/
def clearSkids (s : State) (c : Nat) : State := [0, 1, 2, 3].foldl (fun s q => mgmtPut s (offSkid c q) 0) s

/-- A gang freezes at its next instruction boundary (R384); a waiting gang has skid 0. -/
def freezeGang (s : State) (g skid : Nat) : State :=
  let G := gangOf s g
  if G.stopped then s
  else
    let s := setStopped (setSkid s G.core G.slot skid) G.core G.slot true
    dropResv (modGang (restartChain s g) g fun G => { closeReads G with stopped := true }) g

/-- A gang issues again after a stop. -/
def unfreezeGang (s : State) (g : Nat) : State :=
  let G := gangOf s g
  setStopped (modGang s g fun G => { G with stopped := false }) G.core G.slot false

/-- The gang that a stop record names on this device. -/
def gangAt (s : State) (core slot : Nat) : Option Nat :=
  (s.gangs.find? fun e => e.2.core == core && e.2.slot == slot && (teamOf s (teamKey e.1)).st != .saved).map (·.1)

/-- A stop record goes to the handler of the gang it names, or to the host (R385). `run` and `rpc` are the run that enters
the handler and the address it resumes at. -/
def stopReport (s : State) (g : Option Nat) (run : W32) (rpc : Word) (r : FaultRec) : State :=
  match g with
  | none => toHost s (.fault 0x06 r)
  | some g =>
    let G := gangOf s g
    if !hostMode s 6 && G.stopped && srGet G rTsVec != 0 && G.handler.isNone && G.frozen.isNone && run != 0 then
      let s := unfreezeGang s g
      modGang s g fun G =>
        { modThreads (setTs G r rpc) run fun t => { t with pc := srGet G rTsVec, wait := .none } with
          handler := some run, stopTrap := true }
    else toHost s (.fault 0x06 r)

/-- A breakpoint, a BKPT: the gang freezes at once with skid 0, the stop sets out for its group, and the record is
delivered (R384, R385). -/
def stopNow (s : State) (g : Nat) (run : W32) (rpc : Word) (r : FaultRec) : State :=
  let G := gangOf s g
  let s := trigger s G.core (ctxOfTeam (teamKey g)) r true
  let s := freezeGang (clearSkids s G.core) g 0
  stopReport s (some g) run rpc r

/-- The gangs of a context that a stop has frozen resume (R383, R385). -/
def resumeStopped (s : State) (cores : List Nat) : State :=
  (s.gangs.filter fun e => cores.contains e.2.core && e.2.stopped).foldl (fun s e => unfreezeGang s e.1) s

end Sys2Proof.Machine
end

