-- ==== Sys2Proof/Machine/IntLane.lean ====
section
/-!
DEFINITION. The integer, bit, compare, move and conversion instructions of the lane set (R86 to R103).
-/
namespace Sys2Proof.Machine

/-! ## Shared operations -/

/-- The absolute value. -/
def absI (x : Int) : Int := x.natAbs

/-- IntSrc (R88): the value of a sub-element after ABS and NEG, wrapped. -/
def intSrc (f : IFmt) (x : Word) (k : Nat) (ab ng : Bool) : Int :=
  let v := f.val (elem x f.bits k)
  let v := if ab then absI v else v
  let v := if ng then -v else v
  f.val (wrapN f.bits v)

/-- Source A of an integer instruction after ABS and NEG. -/
def intA (lead : Lead) (f : IFmt) (x : Word) (k : Nat) : Int := intSrc f x k (mwBit lead.mw (·.absA)) (mwBit lead.mw (·.negA))
/-- Source B of an integer instruction after ABS and NEG. -/
def intB (lead : Lead) (f : IFmt) (x : Word) (k : Nat) : Int := intSrc f x k (mwBit lead.mw (·.absB)) (mwBit lead.mw (·.negB))
/-- A sub-element's pattern of the fourth operand; 0 where there is none. -/
def patC (lead : Lead) (G : Gang) (l w k : Nat) : Nat := match srcC lead with | some c => elem (srcVal G l c) w k | none => 0

/-- The use of a two-source operation. -/
def useLr2 (o : Lr2 IFmt) (price : Nat) (cneed : Bool) : LaneUse :=
  let bits := bitsOf o.fmt.bits (maskKs o.lead (64 / o.fmt.bits))
  { lead := o.lead, price := price, reads := ⟨1, o.a, bits⟩ :: rdB o.b bits ++ (if cneed then rdC o.lead bits else []),
    preds := [], vdst := some (o.d.val, 3), pdst := none, closing := false, len := lenOf o.lead (SrcB.isLit o.b), nowb := o.k }

/-- The use of a one-source operation. -/
def useLr1 (o : Lr1 IFmt) (price : Nat) : LaneUse :=
  { lead := o.lead, price := price, reads := [⟨1, o.a, bitsOf o.fmt.bits (maskKs o.lead (64 / o.fmt.bits))⟩], preds := [],
    vdst := some (o.d.val, 3), pdst := none, closing := false, len := lenOf o.lead false, nowb := o.k }

/-- A result per selected sub-element at the width of the fmt. -/
def intResult (lead : Lead) (f : IFmt) (d : Nat) (nowb : Bool) (act zer : W32) (G : Gang) (val : Nat → Nat → Out) :
    Gang × List (Evt × Nat) :=
  let ks := maskKs lead (64 / f.bits)
  vecResult G act zer d f.bits ks ks nowb true val

/-- Two-source integer arithmetic (R90): IntFinish of an exact result; `c` is the fourth operand. -/
def arith2 (lead : Lead) (f : IFmt) (a : Src) (b : Gang → Nat → Word) (d : Nat) (nowb : Bool) (op : Int → Int → Int → Int)
    (G : Gang) (act zer : W32) : Gang × List (Evt × Nat) :=
  intResult lead f d nowb act zer G fun l k =>
    intFinish f (effMode G lead) lead.mw
      (op (intA lead f (srcVal G l a) k) (intB lead f (b G l) k) (f.val (patC lead G l f.bits k)))

/-- An LR instruction of two-source integer arithmetic. -/
def runArith (o : Lr2 IFmt) (price : Nat) (cneed : Bool) (op : Int → Int → Int → Int) (s : State) : Res :=
  laneGang s (useLr2 o price cneed) fun G act zer =>
    arith2 o.lead o.fmt o.a (fun G l => bInt o.fmt G l o.b) o.d.val o.k op G act zer

/-- The use of an LI operation. -/
def useLi (o : Lri) (price : Nat) : LaneUse :=
  { lead := o.lead, price := price, reads := [⟨1, o.a, bitsOf o.fmt.bits (maskKs o.lead (64 / o.fmt.bits))⟩], preds := [],
    vdst := some (o.d.val, 3), pdst := none, closing := false, len := lenOf o.lead false, nowb := o.k }

/-- An LI instruction of two-source integer arithmetic (R46). -/
def runArithLi (o : Lri) (price : Nat) (op : Int → Int → Int → Int) (s : State) : Res :=
  laneGang s (useLi o price) fun G act zer =>
    arith2 o.lead o.fmt o.a (fun _ _ => immInt o.fmt o.imm) o.d.val o.k op G act zer

/-- One-source integer arithmetic (R90). -/
def runArith1 (o : Lr1 IFmt) (price : Nat) (op : Int → Int) (s : State) : Res :=
  laneGang s (useLr1 o price) fun G act zer =>
    arith2 o.lead o.fmt o.a (fun _ _ => 0) o.d.val o.k (fun x _ _ => op x) G act zer

/-- A bit operation on the patterns of two sub-elements (R86, R93, R94). -/
def bits2 (lead : Lead) (f : IFmt) (a : Src) (b : Gang → Nat → Word) (d : Nat) (nowb : Bool) (op : Nat → Nat → Out)
    (G : Gang) (act zer : W32) : Gang × List (Evt × Nat) :=
  intResult lead f d nowb act zer G fun l k => op (elem (srcVal G l a) f.bits k) (elem (b G l) f.bits k)

/-- An LR bit operation. -/
def runBits (o : Lr2 IFmt) (op : Nat → Nat → Out) (s : State) : Res :=
  laneGang s (useLr2 o 1 false) fun G act zer =>
    bits2 o.lead o.fmt o.a (fun G l => bInt o.fmt G l o.b) o.d.val o.k op G act zer

/-- An LI bit operation (R46). -/
def runBitsLi (o : Lri) (op : Nat → Nat → Out) (s : State) : Res :=
  laneGang s (useLi o 1) fun G act zer =>
    bits2 o.lead o.fmt o.a (fun _ _ => immInt o.fmt o.imm) o.d.val o.k op G act zer

/-- A unary bit operation (R93, R95). -/
def runBits1 (o : Lr1 IFmt) (op : Nat → Nat) (s : State) : Res :=
  laneGang s (useLr1 o 1) fun G act zer =>
    bits2 o.lead o.fmt o.a (fun _ _ => 0) o.d.val o.k (fun x _ => (op x, [])) G act zer

/-! ## Integer arithmetic (R90 to R92) -/

/-- The operation of VADD (R90, Table 2). -/
def opAdd (a b _c : Int) : Int := a + b
def opSub (a b _c : Int) : Int := a - b
def opMul (a b _c : Int) : Int := a * b
def opMad (a b c : Int) : Int := a * b + c
def opMin (a b _c : Int) : Int := min a b
def opMax (a b _c : Int) : Int := max a b
def opAbsd (a b _c : Int) : Int := absI (a - b)
/-- The high half of the product (R90). -/
def opMulh (w : Nat) (a b _c : Int) : Int := a * b / 2 ^ w

/-- VADD (R90). -/
def execVadd (o : Lr2 IFmt) (s : State) : Res := runArith o 1 false opAdd s
/-- VADD, LI form (R90, R46). -/
def execVaddLi (o : Lri) (s : State) : Res := runArithLi o 1 opAdd s
/-- VSUB (R90). -/
def execVsub (o : Lr2 IFmt) (s : State) : Res := runArith o 1 false opSub s
/-- VNEG (R90). -/
def execVneg (o : Lr1 IFmt) (s : State) : Res := runArith1 o 1 (fun a => -a) s
/-- VABS (R90). -/
def execVabs (o : Lr1 IFmt) (s : State) : Res := runArith1 o 1 absI s
/-- VMUL (R90). -/
def execVmul (o : Lr2 IFmt) (s : State) : Res := runArith o 2 false opMul s
/-- VMUL, LI form (R90, R46). -/
def execVmulLi (o : Lri) (s : State) : Res := runArithLi o 2 opMul s
/-- VMULH (R90). -/
def execVmulh (o : Lr2 IFmt) (s : State) : Res := runArith o 2 false (opMulh o.fmt.bits) s
/-- VMAD (R90). -/
def execVmad (o : Lr2 IFmt) (s : State) : Res := runArith o 3 true opMad s
/-- VMIN (R90). -/
def execVmin (o : Lr2 IFmt) (s : State) : Res := runArith o 1 false opMin s
/-- VMIN, LI form (R90, R46). -/
def execVminLi (o : Lri) (s : State) : Res := runArithLi o 1 opMin s
/-- VMAX (R90). -/
def execVmax (o : Lr2 IFmt) (s : State) : Res := runArith o 1 false opMax s
/-- VMAX, LI form (R90, R46). -/
def execVmaxLi (o : Lri) (s : State) : Res := runArithLi o 1 opMax s
/-- VABSD (R90). -/
def execVabsd (o : Lr2 IFmt) (s : State) : Res := runArith o 1 false opAbsd s

/-- The format of twice the width and the same signedness (R91); of half the width (R103). -/
def wider : IFmt → IFmt
  | .i32 => .i64 | .i16 => .i32 | .i8 => .i16 | .n32 => .n64 | .n16 => .n32 | .n8 => .n16 | f => f

/-- The use of VMULW (R91): only the low half sub-elements are read. -/
def useVmulw (o : Lr2 IFmt) : LaneUse :=
  let bits := bitsOf o.fmt.bits (maskKs o.lead (64 / o.fmt.bits / 2))
  { useLr2 o 2 false with reads := ⟨1, o.a, bits⟩ :: rdB o.b bits }

/-- VMULW (R91): the low half sub-elements multiplied into results of twice the width. -/
def execVmulw (o : Lr2 IFmt) (s : State) : Res :=
  let ks := maskKs o.lead (64 / o.fmt.bits / 2)
  laneGang s (useVmulw o) fun G act zer =>
    vecResult G act zer o.d.val (2 * o.fmt.bits) ks ks o.k true fun l k =>
      intFinish (wider o.fmt) (effMode G o.lead) o.lead.mw
        (intA o.lead o.fmt (srcVal G l o.a) k * intB o.lead o.fmt (bInt o.fmt G l o.b) k)

/-- Division of one sub-element (R65, R92). -/
def divOut (f : IFmt) (rem sat : Bool) (a b : Int) : Out :=
  if b == 0 then (if rem then wrapN f.bits a else 2 ^ f.bits - 1, [.idz])
  else if f.signed && a == IFmt.minVal f && b == -1 then
    if rem then (0, [.idz])
    else if sat then (wrapN f.bits (IFmt.maxVal f), [.idz, .sat])
    else (wrapN f.bits a, [.idz])
  else if rem then (wrapN f.bits (Int.tmod a b), []) else (wrapN f.bits (Int.tdiv a b), [])

/-- The common effect of VDIV and VREM (R92). -/
def runDiv (o : Lr2 IFmt) (rem : Bool) (s : State) : Res :=
  laneGang s (useLr2 o 12 false) fun G act zer =>
    intResult o.lead o.fmt o.d.val o.k act zer G fun l k =>
      divOut o.fmt rem (mwBit o.lead.mw (·.sat)) (intA o.lead o.fmt (srcVal G l o.a) k)
        (intB o.lead o.fmt (bInt o.fmt G l o.b) k)

/-- VDIV (R92). -/
def execVdiv (o : Lr2 IFmt) (s : State) : Res := runDiv o false s
/-- VREM (R92). -/
def execVrem (o : Lr2 IFmt) (s : State) : Res := runDiv o true s

/-! ## Bit operations (R93 to R97) -/

def opAnd (a b : Nat) : Out := (a &&& b, [])
def opOr (a b : Nat) : Out := (a ||| b, [])
def opXor (a b : Nat) : Out := (a ^^^ b, [])
/-- a AND NOT b on `w` bits (R93). -/
def opAndn (w a b : Nat) : Out := (a &&& (2 ^ w - 1 - b), [])

/-- VAND (R93). -/
def execVand (o : Lr2 IFmt) (s : State) : Res := runBits o opAnd s
/-- VAND, LI form (R93, R46). -/
def execVandLi (o : Lri) (s : State) : Res := runBitsLi o opAnd s
/-- VOR (R93). -/
def execVor (o : Lr2 IFmt) (s : State) : Res := runBits o opOr s
/-- VOR, LI form (R93, R46). -/
def execVorLi (o : Lri) (s : State) : Res := runBitsLi o opOr s
/-- VXOR (R93). -/
def execVxor (o : Lr2 IFmt) (s : State) : Res := runBits o opXor s
/-- VXOR, LI form (R93, R46). -/
def execVxorLi (o : Lri) (s : State) : Res := runBitsLi o opXor s
/-- VANDN (R93). -/
def execVandn (o : Lr2 IFmt) (s : State) : Res := runBits o (opAndn o.fmt.bits) s
/-- VNOT (R93). -/
def execVnot (o : Lr1 IFmt) (s : State) : Res := runBits1 o (fun a => 2 ^ o.fmt.bits - 1 - a) s

/-- VSHL of one sub-element, with SAT's clamp (R94). -/
def shlOut (f : IFmt) (sat : Bool) (a c : Nat) : Out :=
  let plain := if f.bits ≤ c then 0 else a * 2 ^ c % 2 ^ f.bits
  if sat then
    let y := wrapN f.bits (clampInt f (f.val a * 2 ^ Nat.min c 64))
    (y, if y != plain then [.sat] else [])
  else (plain, [])

/-- VSHR of one sub-element (R94). -/
def shrOut (w a c : Nat) : Out := (if w ≤ c then 0 else a / 2 ^ c, [])

/-- VSAR of one sub-element (R94). -/
def sarOut (w a c : Nat) : Out := (wrapN w (sext w a / 2 ^ Nat.min c w), [])

/-- VROT of one sub-element (R94). -/
def rotOut (w a c : Nat) : Out := ((a * 2 ^ (c % w) + a / 2 ^ (w - c % w)) % 2 ^ w, [])

/-- VSHL (R94). -/
def execVshl (o : Lr2 IFmt) (s : State) : Res := runBits o (shlOut o.fmt (mwBit o.lead.mw (·.sat))) s
/-- VSHL, LI form (R94, R46). -/
def execVshlLi (o : Lri) (s : State) : Res := runBitsLi o (shlOut o.fmt (mwBit o.lead.mw (·.sat))) s
/-- VSHR (R94). -/
def execVshr (o : Lr2 IFmt) (s : State) : Res := runBits o (shrOut o.fmt.bits) s
/-- VSHR, LI form (R94, R46). -/
def execVshrLi (o : Lri) (s : State) : Res := runBitsLi o (shrOut o.fmt.bits) s
/-- VSAR (R94). -/
def execVsar (o : Lr2 IFmt) (s : State) : Res := runBits o (sarOut o.fmt.bits) s
/-- VSAR, LI form (R94, R46). -/
def execVsarLi (o : Lri) (s : State) : Res := runBitsLi o (sarOut o.fmt.bits) s
/-- VROT (R94). -/
def execVrot (o : Lr2 IFmt) (s : State) : Res := runBits o (rotOut o.fmt.bits) s
/-- VROT, LI form (R94, R46). -/
def execVrotLi (o : Lri) (s : State) : Res := runBitsLi o (rotOut o.fmt.bits) s

/-- The number of set bits among the low `w` (R95). -/
def popCount (w x : Nat) : Nat := ((List.range w).filter (bitOf x)).length
/-- The zero bits above the highest set bit (R95). -/
def leadZeros (w x : Nat) : Nat := if x == 0 then w else w - 1 - x.log2
/-- The zero bits below the lowest set bit (R95). -/
def trailZeros (w x : Nat) : Nat := ((List.range w).find? (bitOf x)).getD w
/-- The low `w` bits in reverse order (R95). -/
def reverseBits (w x : Nat) : Nat := (List.range w).foldl (fun a i => a + b2n (bitOf x i) * 2 ^ (w - 1 - i)) 0

/-- VPOPC (R95). -/
def execVpopc (o : Lr1 IFmt) (s : State) : Res := runBits1 o (popCount o.fmt.bits) s
/-- VCLZ (R95). -/
def execVclz (o : Lr1 IFmt) (s : State) : Res := runBits1 o (leadZeros o.fmt.bits) s
/-- VCTZ (R95). -/
def execVctz (o : Lr1 IFmt) (s : State) : Res := runBits1 o (trailZeros o.fmt.bits) s
/-- VBREV (R95). -/
def execVbrev (o : Lr1 IFmt) (s : State) : Res := runBits1 o (reverseBits o.fmt.bits) s

/-- Position and length of a bit field (R96). -/
def fieldOf (w b c : Nat) : Nat × Nat :=
  let pos := Nat.min (b % 256) w
  (pos, Nat.min (c % 256) (w - pos))

/-- VBFX of one sub-element (R96). -/
def bfxOut (f : IFmt) (a b c : Nat) : Out :=
  let p := fieldOf f.bits b c
  let x := fld a p.1 p.2
  (if p.2 == 0 then 0 else if f.signed then wrapN f.bits (sext p.2 x) else x, [])

/-- VBFI of one sub-element (R96): `d` is the destination's. -/
def bfiOut (w d a b c : Nat) : Out :=
  let p := fieldOf w b c
  (setFld d p.1 p.2 a, [])

/-- VBFX (R96). -/
def execVbfx (o : Lr2 IFmt) (s : State) : Res :=
  let w := o.fmt.bits
  laneGang s (useLr2 o 1 true) fun G act zer =>
    intResult o.lead o.fmt o.d.val o.k act zer G fun l k =>
      bfxOut o.fmt (elem (srcVal G l o.a) w k) (elem (bInt o.fmt G l o.b) w k) (patC o.lead G l w k)

/-- The use of VBFI (R96): the destination is read too. -/
def useVbfi (o : Lr2 IFmt) : LaneUse :=
  { useLr2 o 1 true with
    reads := (useLr2 o 1 true).reads ++ [⟨3, .v o.d, bitsOf o.fmt.bits (maskKs o.lead (64 / o.fmt.bits))⟩] }

/-- VBFI (R96): the destination is a fourth source. -/
def execVbfi (o : Lr2 IFmt) (s : State) : Res :=
  let w := o.fmt.bits
  laneGang s (useVbfi o) fun G act zer =>
    intResult o.lead o.fmt o.d.val o.k act zer G fun l k =>
      bfiOut w (elem (vGet G o.d.val l) w k) (elem (srcVal G l o.a) w k) (elem (bInt o.fmt G l o.b) w k)
        (patC o.lead G l w k)

/-- VBYTP of one sub-element of `m` bytes (R97). -/
def bytpOut (m a b : Nat) : Out :=
  ((List.range m).foldl (fun r j =>
    let x := fld b (8 * j) 8
    let y := fld a (8 * (x % 8 % m)) 8
    r + (if bitOf x 7 then 0 else if bitOf x 6 then (if bitOf y 7 then 0xFF else 0) else y) * 2 ^ (8 * j)) 0, [])

/-- VBYTP (R97). -/
def execVbytp (o : Lr2 IFmt) (s : State) : Res := runBits o (bytpOut (o.fmt.bits / 8)) s

/-! ## Compare, select, move and predicate logic (R98 to R101) -/

/-- A condition of VCMP (R98). -/
def icond (c : ICond) (w : Nat) (a b : Int) : Bool :=
  match c with
  | .eq => a == b | .ne => a != b | .lt => decide (a < b) | .le => decide (a ≤ b) | .gt => decide (b < a)
  | .ge => decide (b ≤ a) | .tst => (wrapN w a &&& wrapN w b) != 0 | .ntst => (wrapN w a &&& wrapN w b) == 0

/-- All or any of the selected sub-elements (R98): an empty set gives 1 under all and 0 under any. -/
def allAny (any : Bool) (ks : List Nat) (f : Nat → Bool) : Bool := if any then ks.any f else ks.all f

/-- The use of a compare at width `w` (R98, R116, R125). -/
def useCmp {F C B : Type} (o : LCmp F C B) (w : Nat) (rd : List Rd) (len : Nat) : LaneUse :=
  { lead := o.lead, price := 1, reads := ⟨1, o.a, bitsOf w (maskKs o.lead (64 / w))⟩ :: rd, preds := [], vdst := none,
    pdst := some o.pd.val, closing := false, len := len }

/-- The use of a compare whose source B is a source field. -/
def useCmpB {F C : Type} (o : LCmp F C SrcB) (w : Nat) : LaneUse :=
  useCmp o w (rdB o.b (bitsOf w (maskKs o.lead (64 / w)))) (lenOf o.lead (SrcB.isLit o.b))

/-- The common effect of both forms of VCMP (R98). -/
def runCmp {B : Type} (o : LCmp IFmt ICond B) (b : Gang → Nat → Word) (u : LaneUse) (s : State) : Res :=
  let ks := maskKs o.lead (64 / o.fmt.bits)
  laneGang s u fun G act zer =>
    predResult G act zer o.pd.val fun l =>
      (allAny o.any ks fun k =>
        icond o.cond o.fmt.bits (intA o.lead o.fmt (srcVal G l o.a) k) (intB o.lead o.fmt (b G l) k), [])

/-- VCMP (R98). -/
def execVcmp (o : LCmp IFmt ICond SrcB) (s : State) : Res :=
  runCmp o (fun G l => bInt o.fmt G l o.b) (useCmpB o o.fmt.bits) s
/-- VCMP, LI form (R98, R46). -/
def execVcmpLi (o : LCmp IFmt ICond (BitVec 7)) (s : State) : Res :=
  runCmp o (fun _ _ => immInt o.fmt o.b) (useCmp o o.fmt.bits [] (lenOf o.lead false)) s

/-- The checks of VSEL: source A is read in the lanes `sel` that select it, source B in the other lanes of the run. -/
def selChecks (G : Gang) (c : Issue) (u : LaneUse) (sel : W32) : Chk Unit := do
  laneChecks G c u 0
  noHalt (lateRead G sel (u.reads.filterMap fun r => if r.fld == 1 then some (r.fld, r.src) else none))
  noHalt (lateRead G (c.run &&& ~~~sel) (u.reads.filterMap fun r => if r.fld == 2 then some (r.fld, r.src) else none))
  noHalt (readPoison G sel (u.reads.filter fun r => r.fld == 1))
  noHalt (readPoison G (c.run &&& ~~~sel) (u.reads.filter fun r => r.fld == 2))

/-- VSEL (R99): the prefix names a selector, and every lane of the run is written. -/
def execVsel (o : Lr2 IFmt) (s : State) : Res :=
  let w := o.fmt.bits
  let ks := maskKs o.lead (64 / w)
  let u := useLr2 o 1 false
  issuing s fun c =>
    let G := gangOf s c.g
    let sel := guardLanes G o.lead c.run
    match selChecks G c u sel with
    | .error h => settle s c u.member h
    | .ok _ =>
      let r := vecResult G c.run 0 o.d.val w ks [] o.k true fun l k =>
        (elem (if hasLane sel l then srcVal G l o.a else bInt o.fmt G l o.b) w k, [])
      match payTokens (setGang s c.g r.1) c.g (lanePrice 1 c.run) u.member with
      | none => waitHere (placeResv s (.gang c.g) G.core (lanePrice 1 c.run)) c
      | some s => laneDone s c u r.2

/-- VMOV (R100). -/
def execVmov (o : Lr1 IFmt) (s : State) : Res :=
  laneGang s (useLr1 o 1) fun G act zer =>
    intResult o.lead o.fmt o.d.val o.k act zer G fun l k =>
      (wrapN o.fmt.bits (intA o.lead o.fmt (srcVal G l o.a) k), [])

/-- The use of VMOVI. -/
def useVmovi (o : LMovi) : LaneUse :=
  { lead := o.lead, price := 1, reads := [], preds := [], vdst := some (o.d.val, 3), pdst := none, closing := false,
    len := lenOf o.lead false, nowb := o.k }

/-- VMOVI (R100). -/
def execVmovi (o : LMovi) (s : State) : Res :=
  laneGang s (useVmovi o) fun G act zer =>
    intResult o.lead o.fmt o.d.val o.k act zer G fun _ k => (elem (immInt o.fmt o.imm) o.fmt.bits k, [])

/-- The use of VPLOG. -/
def useVplog (o : LPlog) : LaneUse :=
  { lead := o.lead, price := 1, reads := [], preds := [o.pa.val, o.pb.val], vdst := none, pdst := some o.pd.val,
    closing := false, len := lenOf o.lead false }

/-- VPLOG (R101). -/
def execVplog (o : LPlog) (s : State) : Res :=
  laneGang s (useVplog o) fun G act zer =>
    if bitOf (maskOf o.lead) 0 then
      predResult G act zer o.pd.val fun l => (bitOf o.fn.toNat (2 * b2n (pGet G o.pa.val l) + b2n (pGet G o.pb.val l)), [])
    else (G, [])

/-! ## Integer conversion (R102, R103) -/

/-- The use of a conversion from width `ws` to width `wd`: it reads the positions that both widths have. -/
def useConv {F X : Type} (o : LrX F X) (price ws wd : Nat) : LaneUse :=
  { lead := o.lead, price := price, reads := [⟨1, o.a, bitsOf ws (maskKs o.lead (Nat.min (64 / ws) (64 / wd)))⟩], preds := [],
    vdst := some (o.d.val, 3), pdst := none, closing := false, len := lenOf o.lead false, nowb := o.k }

/-- VCVT (R102). DEDUCED (log 53): in a lane that is zeroed, every sub-element of D that the mask selects is zeroed (R35), those too
that R102 leaves unwritten in an active lane, the ones from the source's count on. -/
def execVcvt (o : LrX IFmt IFmt) (s : State) : Res :=
  let wd := o.fmt.bits
  let ws := o.x.bits
  let ks := maskKs o.lead (Nat.min (64 / ws) (64 / wd))
  laneGang s (useConv o 1 ws wd) fun G act zer =>
    vecResult G act zer o.d.val wd ks (maskKs o.lead (64 / wd)) o.k true fun l k =>
      satOrWrap o.fmt (mwBit o.lead.mw (·.sat)) (o.x.val (elem (srcVal G l o.a) ws k))

/-- A value narrowed to `h` bits (R103). -/
def narrowOut (signed sat : Bool) (h : Nat) (x : Int) : Out :=
  let lo : Int := if signed then -(2 ^ (h - 1)) else 0
  let hi : Int := if signed then 2 ^ (h - 1) - 1 else 2 ^ h - 1
  let y := max lo (min x hi)
  if sat && y != x then (wrapN h y, [.sat]) else (wrapN h x, [])

/-- The results of VPACK that the mask selects: each mask bit covers two (R103). -/
def packKs (p : Lead) (w : Nat) : List Nat := (maskKs p (64 / w)).flatMap fun k => [2 * k, 2 * k + 1]

/-- The use of VPACK (R103). -/
def useVpack (o : Lr2 IFmt) : LaneUse :=
  let n := 64 / o.fmt.bits
  let rs := fun (f : Nat → Bool) => bitsOf o.fmt.bits (((packKs o.lead o.fmt.bits).filter f).map (· % n))
  { useLr2 o 1 false with reads := ⟨1, o.a, rs fun j => decide (j < n)⟩ :: rdB o.b (rs fun j => decide (n ≤ j)) }

/-- VPACK (R103). -/
def execVpack (o : Lr2 IFmt) (s : State) : Res :=
  let w := o.fmt.bits
  let n := 64 / w
  let ks := packKs o.lead w
  laneGang s (useVpack o) fun G act zer =>
    vecResult G act zer o.d.val (w / 2) ks ks o.k true fun l j =>
      narrowOut o.fmt.signed (mwBit o.lead.mw (·.sat)) (w / 2)
        (o.fmt.val (if j < n then elem (srcVal G l o.a) w j else elem (bInt o.fmt G l o.b) w (j - n)))

/-- A half-width pattern extended to the fmt (R103). -/
def unpkOut (f : IFmt) (x : Nat) : Out := (if f.signed then wrapN f.bits (sext (f.bits / 2) x) else x, [])

/-- The use of VUNPK (R103): it reads the whole of A. -/
def useVunpk (o : Lr2 IFmt) : LaneUse :=
  { useLr2 o 1 false with
    reads := ⟨1, o.a, 2 ^ 64 - 1⟩ :: rdB o.b (bitsOf o.fmt.bits (maskKs o.lead (64 / o.fmt.bits))) }

/-- VUNPK (R103). -/
def execVunpk (o : Lr2 IFmt) (s : State) : Res :=
  let w := o.fmt.bits
  let n := 64 / w
  laneGang s (useVunpk o) fun G act zer =>
    intResult o.lead o.fmt o.d.val o.k act zer G fun l k =>
      unpkOut o.fmt (elem (srcVal G l o.a) (w / 2) (k + n * (elem (bInt o.fmt G l o.b) w k % 2)))

end Sys2Proof.Machine
end

