-- ==== Sys2Proof/Machine/FltLane.lean ====
section
/-!
DEFINITION. The floating-point instructions of the lane set (R110 to R120).
-/
namespace Sys2Proof.Machine

/-! ## Exact operations (R111, R113) -/

/-- The exact sum, with the sign of a zero sum (R111); ∞ − ∞ is invalid. -/
def addExact (m : Rnd) : Exact → Exact → Exact × List Evt
  | .nan, _ => (.nan, [])
  | _, .nan => (.nan, [])
  | .inf x, .inf y => if x == y then (.inf x, []) else (.nan, [.inv])
  | .inf x, _ => (.inf x, [])
  | _, .inf y => (.inf y, [])
  | .num a n d, .num b p q =>
    let x : Int := (if a then -((n * q : Nat) : Int) else (n * q : Nat)) + (if b then -((p * d : Nat) : Int) else (p * d : Nat))
    if x == 0 then (.num (if n == 0 && p == 0 && a == b then a else m == .rdn) 0 1, [])
    else (.num (decide (x < 0)) x.natAbs (d * q), [])

/-- The exact value with its sign inverted. -/
def negExact : Exact → Exact
  | .nan => .nan
  | .inf x => .inf !x
  | .num a n d => .num (!a) n d

/-- The exact difference. -/
def subExact (m : Rnd) (a b : Exact) : Exact × List Evt := addExact m a (negExact b)

/-- The exact product; 0 × ∞ is invalid (R113). -/
def mulExact : Exact → Exact → Exact × List Evt
  | .nan, _ => (.nan, [])
  | _, .nan => (.nan, [])
  | .inf x, .inf y => (.inf (x != y), [])
  | .inf x, .num y n _ => if n == 0 then (.nan, [.inv]) else (.inf (x != y), [])
  | .num x n _, .inf y => if n == 0 then (.nan, [.inv]) else (.inf (x != y), [])
  | .num a n d, .num b p q => (.num (a != b) (n * p) (d * q), [])

/-- The exact quotient; 0/0 and ∞/∞ are invalid, a finite non-zero value over zero divides by zero (R113). -/
def divExact : Exact → Exact → Exact × List Evt
  | .nan, _ => (.nan, [])
  | _, .nan => (.nan, [])
  | .inf _, .inf _ => (.nan, [.inv])
  | .inf x, .num y _ _ => (.inf (x != y), [])
  | .num x _ _, .inf y => (.num (x != y) 0 1, [])
  | .num a n d, .num b p q =>
    if p == 0 then (if n == 0 then (.nan, [.inv]) else (.inf (a != b), [.dz]))
    else (.num (a != b) (n * q) (d * p), [])

/-- a × b + c: an invalid product counts whatever c is (R113). -/
def fmaExact (m : Rnd) (a b c : Exact) : Exact × List Evt :=
  let p := mulExact a b
  if p.2.isEmpty then addExact m p.1 c else p

/-! ## Sources and results -/

/-- FltSrc (R110). -/
def fltSrc (f : FFmt) (x : Word) (k : Nat) (ab ng : Bool) : Nat := fltSign f (elem x f.bits k) ab ng

/-- INV for signalling NaN operands (R67). -/
def snanEvt (f : FFmt) (xs : List Nat) : List Evt := if xs.any (isSnan f) then [.inv] else []

/-- The use of a two-source float operation. -/
def useF2 (o : Lr2 FFmt) (price : Nat) (cneed : Bool) : LaneUse :=
  let bits := bitsOf o.fmt.bits (maskKs o.lead (64 / o.fmt.bits))
  { lead := o.lead, price := price, reads := ⟨1, o.a, bits⟩ :: rdB o.b bits ++ (if cneed then rdC o.lead bits else []),
    preds := [], vdst := some (o.d.val, 3), pdst := none, closing := false, len := lenOf o.lead (SrcB.isLit o.b), nowb := o.k }

/-- The use of a one-source float operation. -/
def useF1 (o : Lr1 FFmt) (price : Nat) : LaneUse :=
  { lead := o.lead, price := price, reads := [⟨1, o.a, bitsOf o.fmt.bits (maskKs o.lead (64 / o.fmt.bits))⟩], preds := [],
    vdst := some (o.d.val, 3), pdst := none, closing := false, len := lenOf o.lead false, nowb := o.k }

/-- A price that differs at .f64 (R47). -/
def priceF (f : FFmt) (p p64 : Nat) : Nat := if f == .f64 then p64 else p

/-- A float result per selected sub-element. -/
def fltResult (lead : Lead) (f : FFmt) (d : Nat) (nowb : Bool) (act zer : W32) (G : Gang) (val : Nat → Nat → Out) :
    Gang × List (Evt × Nat) :=
  let ks := maskKs lead (64 / f.bits)
  vecResult G act zer d f.bits ks ks nowb true val

/-- Source A of a float instruction after ABS and NEG. -/
def fltA (lead : Lead) (f : FFmt) (x : Word) (k : Nat) : Nat := fltSrc f x k (mwBit lead.mw (·.absA)) (mwBit lead.mw (·.negA))
/-- Source B of a float instruction after ABS and NEG. -/
def fltB (lead : Lead) (f : FFmt) (x : Word) (k : Nat) : Nat := fltSrc f x k (mwBit lead.mw (·.absB)) (mwBit lead.mw (·.negB))

/-- One sub-element of R113: the exact operation on the values of three patterns, and the one rounding. -/
def fltOp (f : FFmt) (m : Rnd) (mw : Option MWord) (op : Rnd → Exact → Exact → Exact → Exact × List Evt) (a b c : Nat) : Out :=
  let x := op m (fltVal f a) (fltVal f b) (fltVal f c)
  let y := fltFinish f m mw x.1
  (y.1, once (snanEvt f [a, b, c] ++ x.2 ++ y.2))

/-- The common effect of R113. -/
def runFlt (o : Lr2 FFmt) (price : Nat) (cneed : Bool) (op : Rnd → Exact → Exact → Exact → Exact × List Evt) (s : State) :
    Res :=
  laneGang s (useF2 o price cneed) fun G act zer =>
    fltResult o.lead o.fmt o.d.val o.k act zer G fun l k =>
      fltOp o.fmt (effMode G o.lead) o.lead.mw op (fltA o.lead o.fmt (srcVal G l o.a) k)
        (fltB o.lead o.fmt (bFlt o.fmt G l o.b) k) (patC o.lead G l o.fmt.bits k)

/-- VFADD (R113). -/
def execVfadd (o : Lr2 FFmt) (s : State) : Res := runFlt o (priceF o.fmt 3 4) false (fun m a b _ => addExact m a b) s
/-- VFSUB (R113). -/
def execVfsub (o : Lr2 FFmt) (s : State) : Res := runFlt o (priceF o.fmt 3 4) false (fun m a b _ => subExact m a b) s
/-- VFMUL (R113). -/
def execVfmul (o : Lr2 FFmt) (s : State) : Res := runFlt o (priceF o.fmt 3 4) false (fun _ a b _ => mulExact a b) s
/-- VFMA (R113). -/
def execVfma (o : Lr2 FFmt) (s : State) : Res := runFlt o (priceF o.fmt 4 5) true fmaExact s
/-- VFDIV (R113). -/
def execVfdiv (o : Lr2 FFmt) (s : State) : Res := runFlt o (priceF o.fmt 10 14) false (fun _ a b _ => divExact a b) s

/-! ## Unary functions (R114, R120) -/

/-- The common effect of R114 and R120. -/
def runFn (o : Lr1 FFmt) (price : Nat) (fn : Fn) (s : State) : Res :=
  laneGang s (useF1 o price) fun G act zer =>
    let m := effMode G o.lead
    fltResult o.lead o.fmt o.d.val o.k act zer G fun l k =>
      fnOut fn o.fmt m o.lead.mw (fltA o.lead o.fmt (srcVal G l o.a) k)

/-- VFSQRT (R114). -/
def execVfsqrt (o : Lr1 FFmt) (s : State) : Res := runFn o (priceF o.fmt 10 14) .sqrt s
/-- VFRCP (R114). -/
def execVfrcp (o : Lr1 FFmt) (s : State) : Res := runFn o (priceF o.fmt 6 8) .rcp s
/-- VFRSQ (R114). -/
def execVfrsq (o : Lr1 FFmt) (s : State) : Res := runFn o (priceF o.fmt 6 8) .rsq s
/-- VFEX2 (R120). -/
def execVfex2 (o : Lr1 FFmt) (s : State) : Res := runFn o 6 .ex2 s
/-- VFLG2 (R120). -/
def execVflg2 (o : Lr1 FFmt) (s : State) : Res := runFn o 6 .lg2 s
/-- VFSIN (R120). -/
def execVfsin (o : Lr1 FFmt) (s : State) : Res := runFn o 8 .sin s
/-- VFCOS (R120). -/
def execVfcos (o : Lr1 FFmt) (s : State) : Res := runFn o 8 .cos s
/-- VFTNH (R120). -/
def execVftnh (o : Lr1 FFmt) (s : State) : Res := runFn o 8 .tnh s

/-! ## Minimum, maximum, compare, class (R115 to R117) -/

/-- Patterns that are not NaN in order, −0 below +0 (R115). -/
def fltKey (f : FFmt) (x : Nat) : Int :=
  let m := fld x 0 (f.bits - 1)
  if bitOf x (f.bits - 1) then -(m : Int) - 1 else m

/-- The lesser or the greater of two patterns (R115). -/
def minMax (f : FFmt) (max_ : Bool) (a b : Nat) : Out :=
  let y := if isNan f a && isNan f b then f.qnan else if isNan f a then b else if isNan f b then a
    else if max_ then (if fltKey f a < fltKey f b then b else a) else (if fltKey f b < fltKey f a then b else a)
  (y, snanEvt f [a, b])

/-- The common effect of VFMIN and VFMAX (R115). -/
def runMinMax (o : Lr2 FFmt) (max_ : Bool) (s : State) : Res :=
  laneGang s (useF2 o 1 false) fun G act zer =>
    fltResult o.lead o.fmt o.d.val o.k act zer G fun l k =>
      minMax o.fmt max_ (fltA o.lead o.fmt (srcVal G l o.a) k) (fltB o.lead o.fmt (bFlt o.fmt G l o.b) k)

/-- VFMIN (R115). -/
def execVfmin (o : Lr2 FFmt) (s : State) : Res := runMinMax o false s
/-- VFMAX (R115). -/
def execVfmax (o : Lr2 FFmt) (s : State) : Res := runMinMax o true s

/-- A condition on two keys, or on an unordered pair (R116). -/
def fcond (c : FCond) (un : Bool) (a b : Int) : Bool :=
  match c with
  | .eq => !un && a == b | .ne => un || a != b | .lt => !un && decide (a < b) | .le => !un && decide (a ≤ b)
  | .gt => !un && decide (b < a) | .ge => !un && decide (b ≤ a) | .uo => un | .ord => !un

/-- Patterns that are not NaN by value: +0 equals −0 (R116). -/
def fltNumKey (f : FFmt) (x : Nat) : Int :=
  let m := fld x 0 (f.bits - 1)
  if bitOf x (f.bits - 1) then -(m : Int) else m

/-- VFCMP (R116). -/
def execVfcmp (o : LCmp FFmt FCond SrcB) (s : State) : Res :=
  let f := o.fmt
  let ks := maskKs o.lead (64 / f.bits)
  laneGang s (useCmpB o f.bits) fun G act zer =>
    predResult G act zer o.pd.val fun l =>
      let p := fun k => (fltA o.lead f (srcVal G l o.a) k, fltB o.lead f (bFlt f G l o.b) k)
      (allAny o.any ks fun k => fcond o.cond (isNan f (p k).1 || isNan f (p k).2) (fltNumKey f (p k).1) (fltNumKey f (p k).2),
       ks.flatMap fun k => snanEvt f [(p k).1, (p k).2])

/-- The class bit of a pattern (R117). -/
def fltClass (f : FFmt) (x : Nat) : Nat :=
  let neg := bitOf x (f.bits - 1)
  let m := fld x 0 (f.bits - 1)
  if isSnan f x then 0 else if isNan f x then 1
  else if m == f.infPat then (if neg then 2 else 9)
  else if m == 0 then (if neg then 5 else 6)
  else if m < 2 ^ (f.prec - 1) then (if neg then 4 else 7)
  else if neg then 3 else 8

/-- VFCLS (R117). -/
def execVfcls (o : Lr1 FFmt) (s : State) : Res :=
  laneGang s (useF1 o 1) fun G act zer =>
    fltResult o.lead o.fmt o.d.val o.k act zer G fun l k => (2 ^ fltClass o.fmt (elem (srcVal G l o.a) o.fmt.bits k), [])

/-! ## Conversions (R118, R119) -/

/-- VFRND of one pattern (R118). -/
def rndOut (f : FFmt) (m : Rnd) (x : Bool) (a : Nat) : Out :=
  match fltVal f a with
  | .nan => (f.qnan, snanEvt f [a])
  | .inf _ => (a, [])
  | .num neg n d =>
    let r := roundNat m neg n d
    ((roundTo f m (.num neg r 1)).1, if x && r * d != n then [.inx] else [])

/-- VFRND (R118). -/
def execVfrnd (o : LrX FFmt Bool) (s : State) : Res :=
  laneGang s (useConv o 1 o.fmt.bits o.fmt.bits) fun G act zer =>
    let m := effMode G o.lead
    fltResult o.lead o.fmt o.d.val o.k act zer G fun l k => rndOut o.fmt m o.x (fltA o.lead o.fmt (srcVal G l o.a) k)

/-- The widths of source and destination of a VFCVT (R119). -/
def cvtWidths (f : FFmt) : FCvtKind → Nat × Nat
  | .ff src => (src.bits, f.bits)
  | .fromInt src => (src.bits, f.bits)
  | .toInt dst => (f.bits, dst.bits)

/-- VFCVT of one source sub-element (R80, R119). -/
def cvtOut (f : FFmt) (m : Rnd) (lead : Lead) (kind : FCvtKind) (x : Word) (k : Nat) : Out :=
  match kind with
  | .ff src =>
    let a := fltA lead src x k
    let y := fltFinish f m lead.mw (fltVal src a)
    (y.1, once (snanEvt src [a] ++ y.2))
  | .fromInt src =>
    fltFinish f m lead.mw (exactInt (intSrc src x k (mwBit lead.mw (·.absA)) (mwBit lead.mw (·.negA))))
  | .toInt dst => toIntOut dst m (scaleExact (scaleOf lead.mw) (fltVal f (fltA lead f x k)))

/-- VFCVT (R119). -/
def execVfcvt (o : LrX FFmt FCvtKind) (s : State) : Res :=
  let w := cvtWidths o.fmt o.x
  let ks := maskKs o.lead (Nat.min (64 / w.1) (64 / w.2))
  laneGang s (useConv o 2 w.1 w.2) fun G act zer =>
    let m := effMode G o.lead
    vecResult G act zer o.d.val w.2 ks (maskKs o.lead (64 / w.2)) o.k true fun l k =>
      cvtOut o.fmt m o.lead o.x (srcVal G l o.a) k

end Sys2Proof.Machine
end

