-- ==== Sys2Proof/Machine/SliLane.lean ====
section
/-!
DEFINITION. The level-index instructions (R121 to R127).
-/
namespace Sys2Proof.Machine

/-- The level of a code for the occupancy of R127: zero and NaR count as level 1. -/
def occLevel (c : Nat) : Nat := if c % 2 ^ 31 == sliZero then 1 else fld c 27 3 + 1

/-- The greatest level of a list, at least 1. -/
def topLevel (ls : List Nat) : Nat := ls.foldl Nat.max 1

/-- Whether the SLI unit of a gang's quarter is occupied (R127). -/
def sliTaken (s : State) (g : Nat) : Bool :=
  let G := gangOf s g
  match SMap.find (coreOf s G.core).sliBusy (quarterOf G.slot) with | some t => decide (cyclesOf s G.core < t) | none => false

/-- The quarter's SLI unit is occupied for `n` cycles (R127). -/
def occupySli (s : State) (g n : Nat) : State :=
  let G := gangOf s g
  modCore s G.core fun C => { C with sliBusy := SMap.put C.sliBusy (quarterOf G.slot) (cyclesOf s G.core + n) }

/-- A lane-set instruction that runs on the SLI unit: it waits while the unit is occupied, and occupies it (R127). -/
def runSli (s : State) (u : LaneUse) (occ : Gang → W32 → Nat) (f : Gang → W32 → W32 → Gang × List (Evt × Nat)) : Res :=
  issuing s fun c => runLane s c u fun s act zer =>
    if sliTaken s c.g then .error .hold
    else
      let r := f (gangOf s c.g) act zer
      .ok (occupySli (setGang s c.g r.1) c.g (occ (gangOf s c.g) act), r.2)

/-- A code after ABS and NEG of A (R121). -/
def sliA (lead : Lead) (x : Word) (k : Nat) : Nat := sliSign (elem x 32 k) (mwBit lead.mw (·.absA)) (mwBit lead.mw (·.negA))
/-- A code after ABS and NEG of B (R121). -/
def sliB (lead : Lead) (x : Word) (k : Nat) : Nat := sliSign (elem x 32 k) (mwBit lead.mw (·.absB)) (mwBit lead.mw (·.negB))

/-- Sets the bits of SLI.LX (R122). -/
def setLx (G : Gang) (m : W32) : Gang := srPut G rSliLx (srGet G rSliLx ||| BitVec.zeroExtend 64 m)

/-- A result with the flag of R79 on each sub-element: the values, the events and the lanes that cross. -/
def lxResult (G : Gang) (act zer : W32) (d : Nat) (ks : List Nat) (nowb : Bool) (val : Nat → Nat → Out × Bool) :
    Gang × List (Evt × Nat) :=
  let r := vecResult G act zer d 32 ks ks nowb true fun l k => (val l k).1
  (setLx r.1 (laneSet fun l => hasLane act l && ks.any fun k => (val l k).2), r.2)

/-- The common effect of R123; `sub` inverts the sign of B's value. -/
def runSArith (o : Lr2 FFmt) (op : SOp) (sub : Bool) (s : State) : Res :=
  let ks := maskKs o.lead 2
  let pair := fun (G : Gang) (l k : Nat) =>
    (sliA o.lead (srcVal G l o.a) k, sliSign (sliB o.lead (bFlt .s32 G l o.b) k) false sub)
  let res := fun (G : Gang) (l k : Nat) =>
    let p := pair G l k
    sliOut op (effMode G o.lead) (scaleOf o.lead.mw) p.1 p.2
  runSli s (useF2 o 18 false)
    (fun G act => 4 * (1 + topLevel ((lanesOf act).flatMap fun l => ks.flatMap fun k =>
      let p := pair G l k
      [occLevel p.1, occLevel p.2, occLevel (res G l k).1])))
    fun G act zer =>
      lxResult G act zer o.d.val ks o.k fun l k =>
        let p := pair G l k
        let y := res G l k
        (y, p.1 != sliNar && p.2 != sliNar && levelCross y.1 p.1 p.2)

/-- VSADD (R123). -/
def execVsadd (o : Lr2 FFmt) (s : State) : Res := runSArith o .add false s
/-- VSSUB (R123). -/
def execVssub (o : Lr2 FFmt) (s : State) : Res := runSArith o .add true s
/-- VSMUL (R123). -/
def execVsmul (o : Lr2 FFmt) (s : State) : Res := runSArith o .mul false s
/-- VSDIV (R123). -/
def execVsdiv (o : Lr2 FFmt) (s : State) : Res := runSArith o .div false s

/-- The common effect of VSEXP and VSLN (R124). -/
def runSFn (o : Lr1 FFmt) (fn : Rnd → Nat → Out) (s : State) : Res :=
  let ks := maskKs o.lead 2
  runSli s (useF1 o 6) (fun _ _ => 8) fun G act zer =>
    lxResult G act zer o.d.val ks o.k fun l k =>
      let a := sliA o.lead (srcVal G l o.a) k
      let y := fn (effMode G o.lead) a
      (y, a != sliNar && levelCross y.1 a a)

/-- VSEXP (R124). -/
def execVsexp (o : Lr1 FFmt) (s : State) : Res := runSFn o sliExp s
/-- VSLN (R124). -/
def execVsln (o : Lr1 FFmt) (s : State) : Res := runSFn o sliLn s

/-- A condition on two codes (R125): NaR equals itself and is otherwise unordered. -/
def scond (c : FCond) (a b : Nat) : Bool :=
  let un := a == sliNar || b == sliNar
  match c with
  | .eq => a == b
  | .ne => a != b
  | c => fcond c un (sliKey a) (sliKey b)

/-- VSCMP (R125). -/
def execVscmp (o : LCmp FFmt FCond SrcB) (s : State) : Res :=
  let ks := maskKs o.lead 2
  runSli s (useCmpB o 32) (fun _ _ => 4) fun G act zer =>
    predResult G act zer o.pd.val fun l =>
      (allAny o.any ks fun k => scond o.cond (sliA o.lead (srcVal G l o.a) k) (sliB o.lead (bFlt .s32 G l o.b) k), [])

/-- VSLVL (R125). -/
def execVslvl (o : Lr1 FFmt) (s : State) : Res :=
  let ks := maskKs o.lead 2
  runSli s (useF1 o 1) (fun _ _ => 4) fun G act zer =>
    vecResult G act zer o.d.val 32 ks ks o.k true fun l k => (wrapN 32 (sliLevel (elem (srcVal G l o.a) 32 k)), [])

/-- Widths of source and destination of a VSCVT (R126). -/
def scvtWidths : SCvtKind → Nat × Nat
  | .fromF f => (f.bits, 32)
  | .fromI f => (f.bits, 32)
  | .toF f => (32, f.bits)
  | .toI f => (32, f.bits)

/-- VSCVT of one source sub-element (R80, R126). -/
def scvtOut (m : Rnd) (lead : Lead) (kind : SCvtKind) (x : Word) (k : Nat) : Out :=
  let sc := scaleOf lead.mw
  match kind with
  | .fromF f =>
    let a := fltA lead f x k
    (match fltVal f a with
     | .nan => (sliNar, snanEvt f [a])
     | .inf _ => (sliNar, [.inv])
     | .num neg n d => let p := scaleFrac n d sc; fracSli m neg p.1 p.2 15 a)
  | .fromI f =>
    let v := intSrc f x k (mwBit lead.mw (·.absA)) (mwBit lead.mw (·.negA))
    let p := scaleFrac v.natAbs 1 sc
    fracSli m (decide (v < 0)) p.1 p.2 16 v.natAbs
  | .toF f => finishRounded f lead.mw (sliToFlt f m sc (sliA lead x k))
  | .toI f => sliToInt f m sc (sliA lead x k)

/-- The SLI side of a VSCVT for R127. -/
def scvtLevel (kind : SCvtKind) (lead : Lead) (x : Word) (k : Nat) (y : Nat) : Nat :=
  match kind with
  | .fromF _ | .fromI _ => occLevel y
  | .toF _ | .toI _ => occLevel (sliA lead x k)

/-- VSCVT (R126). -/
def execVscvt (o : LrX Unit SCvtKind) (s : State) : Res :=
  let w := scvtWidths o.x
  let ks := maskKs o.lead (Nat.min (64 / w.1) (64 / w.2))
  let p := if w.1 == 64 || w.2 == 64 then 1 else 2
  runSli s (useConv o 4 w.1 w.2)
    (fun G act => 2 * p * (1 + topLevel ((lanesOf act).flatMap fun l => ks.map fun k =>
      scvtLevel o.x o.lead (srcVal G l o.a) k (scvtOut (effMode G o.lead) o.lead o.x (srcVal G l o.a) k).1)))
    fun G act zer =>
      vecResult G act zer o.d.val w.2 ks (maskKs o.lead (64 / w.2)) o.k true fun l k =>
        scvtOut (effMode G o.lead) o.lead o.x (srcVal G l o.a) k

end Sys2Proof.Machine
end

