-- ==== Sys2Proof/Machine/CrossLane.lean ====
section
/-!
DEFINITION. The cross-lane instructions (R104 to R109): they read only active lanes of the issuing run.
-/
namespace Sys2Proof.Machine

/-- The lanes of pairs (lane, sub-element). -/
def pairLanes (ps : List (Nat × Nat)) : W32 := ps.foldl (fun m p => m ||| laneBit p.1) 0

/-- Poison that the reads of sub-elements of a source at pairs (lane, sub-element) consume (R337). DESIGN CHOICE (log 52): TS.LANE
names the lane that holds the poison, not the one that receives the value. -/
def pairPoison (G : Gang) (fld : Nat) (a : Src) (w : Nat) (ps : List (Nat × Nat)) : Option Halt :=
  match a with
  | .v r =>
    if G.poisonV.isEmpty then none
    else ps.findSome? fun p => poisonV G (laneBit p.1) r.val (bitsOf w [p.2]) fld
  | .s n => if ps.isEmpty then none else poisonS G (lowLane (pairLanes ps)) n.val 0xFFFFFFFFFFFFFFFF fld
  | .x _ => none

/-- What the reads of a source at pairs (lane, sub-element) meet: the late fault of a lane that is read (R366, R368), or
poison. -/
def pairRead (G : Gang) (fld : Nat) (a : Src) (w : Nat) (ps : List (Nat × Nat)) : Option Halt :=
  (lateRead G (pairLanes ps) [(fld, a)]).or (pairPoison G fld a w ps)

/-- What the read of B meets in the lowest active lane, at a sub-element (R107). -/
def lowRead (G : Gang) (b : SrcB) (w : Nat) (act : W32) : Option Halt :=
  match b with
  | .src a => if act == 0 then none else pairRead G 2 a w [(lowLane act, 0)]
  | .lit _ => none

/-- The use of a cross-lane instruction: its source A is checked where it is read. -/
def useShuffle (lead : Lead) (a : Src) (rb : List Rd) (d : Nat) (nowb : Bool) (len : Nat) : LaneUse :=
  { lead := lead, price := 2, reads := ⟨1, a, 0⟩ :: rb, preds := [], vdst := some (d, 3), pdst := none, closing := false,
    len := len, nowb := nowb }

/-- A cross-lane instruction whose source A is read at the pairs that `at_` names for each lane and sub-element, after `low` has
been read in the lowest active lane. -/
def runShuffle (s : State) (lead : Lead) (w : Nat) (a : Src) (rb : List Rd) (d : Nat) (nowb : Bool) (len : Nat)
    (low : Gang → W32 → Option Halt) (at_ : Gang → W32 → Nat → Nat → Nat × Nat) : Res :=
  let ks := maskKs lead (64 / w)
  issuing s fun c => runLane s c (useShuffle lead a rb d nowb len) fun s act zer => do
    let G := gangOf s c.g
    noHalt (low G act)
    noHalt (pairRead G 1 a w ((lanesOf act).flatMap fun l => ks.map fun k => at_ G act l k))
    let r := vecResult G act zer d w ks ks nowb true fun l k =>
      let p := at_ G act l k
      (elem (srcVal G p.1 a) w p.2, [])
    .ok (setGang s c.g r.1, r.2)

/-- The lane and sub-element of a cross-lane index at a width with `n` sub-elements (R23). -/
def idxOf (n i : Nat) : Nat × Nat := (i / 8 % 32, i % 8 % n)

/-- VSHFL (R106). -/
def execVshfl (o : Lr2 IFmt) (s : State) : Res :=
  let w := o.fmt.bits
  runShuffle s o.lead w o.a (rdB o.b (bitsOf w (maskKs o.lead (64 / w)))) o.d.val o.k (lenOf o.lead (SrcB.isLit o.b))
    (fun _ _ => none) fun G act l k =>
      let p := idxOf (64 / w) (elem (bInt o.fmt G l o.b) w k % 256)
      if hasLane act p.1 then p else (l, k)

/-- The source lane of VSHFLI; `none` outside 0 to 31 (R106). -/
def shflLane (x : ShflOp) (l : Nat) : Option Nat :=
  match x.mode with
  | .xor => some (l ^^^ x.dist.val)
  | .up => if x.dist.val ≤ l then some (l - x.dist.val) else none
  | .down => if l + x.dist.val < 32 then some (l + x.dist.val) else none
  | .rot => some ((l + x.dist.val) % 32)

/-- VSHFLI (R106). -/
def execVshfli (o : LrX IFmt ShflOp) (s : State) : Res :=
  runShuffle s o.lead o.fmt.bits o.a [] o.d.val o.k (lenOf o.lead false) (fun _ _ => none) fun _ act l k =>
    match shflLane o.x l with
    | some m => if hasLane act m then (m, k) else (l, k)
    | none => (l, k)

/-- VBCAST (R107): the index stands in B of the lowest active lane. -/
def execVbcast (o : Lr2 IFmt) (s : State) : Res :=
  let w := o.fmt.bits
  runShuffle s o.lead w o.a (rdB o.b 0) o.d.val o.k (lenOf o.lead (SrcB.isLit o.b)) (fun G act => lowRead G o.b w act)
    fun G act l k =>
    let p := idxOf (64 / w) (Word.fld (bInt o.fmt G (lowLane act) o.b) 0 8)
    if hasLane act p.1 then p else (l, k)

/-- VMATCH (R107). -/
def execVmatch (o : Lr2 IFmt) (s : State) : Res :=
  let w := o.fmt.bits
  let ks := maskKs o.lead (64 / w)
  issuing s fun c => runLane s c (useShuffle o.lead o.a (rdB o.b 0) o.d.val o.k (lenOf o.lead (SrcB.isLit o.b))) fun s act zer => do
    let G := gangOf s c.g
    let j := Word.fld (bInt o.fmt G (lowLane act) o.b) 0 8 % (64 / w)
    noHalt (lowRead G o.b w act)
    noHalt (pairRead G 1 o.a w ((lanesOf act).map fun l => (l, j)))
    let x := fun l => elem (srcVal G l o.a) w j
    let r := vecResult G act zer o.d.val w ks ks o.k true fun l k =>
      let set := laneSet fun m => hasLane act m && x m == x l
      (fld (lowLane set * 2 ^ 32 + set.toNat) (k * w) w, [])
    .ok (setGang s c.g r.1, r.2)

/-! ## Reductions (R108, R109) -/

/-- An integer operator on two patterns (R108). -/
def iredOp (f : IFmt) (op : IRed) (a b : Nat) : Out :=
  match op with
  | .add => ((a + b) % 2 ^ f.bits, [])
  | .min => (if f.val b < f.val a then b else a, [])
  | .max => (if f.val a < f.val b then b else a, [])
  | .and => (a &&& b, [])
  | .or => (a ||| b, [])
  | .xor => (a ^^^ b, [])

/-- A float-class operator on two patterns, with its one rounding (R108). -/
def fredOp (f : FFmt) (m : Rnd) (op : FRed) (a b : Nat) : Out :=
  if f == .s32 then
    if a == sliNar || b == sliNar then (sliNar, [])
    else match op with
      | .add => sliOut .add m 0 a b
      | .min => (if sliKey b < sliKey a then b else a, [])
      | .max => (if sliKey a < sliKey b then b else a, [])
  else match op with
    | .add =>
      let x := addExact m (fltVal f a) (fltVal f b)
      let y := roundTo f m x.1
      (y.1, once (snanEvt f [a, b] ++ x.2 ++ y.2))
    | .min => minMax f false a b
    | .max => minMax f true a b

/-- One level of the tree: neighbours combine, and a slot without a value passes its partner on (R108). -/
def treeLevel (op : Nat → Nat → Out) : List (Option Nat) → List (Option Nat) × List Evt
  | a :: b :: t =>
    let r := treeLevel op t
    match a, b with
    | some x, some y => let z := op x y; (some z.1 :: r.1, z.2 ++ r.2)
    | some x, none => (some x :: r.1, r.2)
    | none, y => (y :: r.1, r.2)
  | t => (t, [])

/-- TreeReduce over the lane slots, `d` levels (R108). -/
def treeReduce (op : Nat → Nat → Out) : Nat → List (Option Nat) → Option Nat × List Evt
  | 0, t => (t.head?.join, [])
  | d + 1, t =>
    let r := treeLevel op t
    let q := treeReduce op d r.1
    (q.1, r.2 ++ q.2)

/-- A value that no operator has taken as it is delivered: an integer unchanged, a NaN as the canonical one, with the event of
a signalling NaN (R67). -/
def passInt (x : Nat) : Out := (x, [])
def passFlt (f : FFmt) (x : Nat) : Out := if f != .s32 && isNan f x then (f.qnan, snanEvt f [x]) else (x, [])

/-- The reduction of the values of some slots (R108): a lone value is delivered as `pass` has it. -/
def reduceSlots (pass : Nat → Out) (op : Nat → Nat → Out) (xs : List (Option Nat)) : Option Nat × List Evt :=
  match xs.filterMap id with
  | [x] => (some (pass x).1, (pass x).2)
  | _ => treeReduce op 5 xs

/-- The effect of VRDC (R108): every active lane receives the results; the events count against the lowest. -/
def rdcResult (lead : Lead) (w : Nat) (a : Src) (d : Nat) (nowb : Bool) (pass : Nat → Out) (op : Nat → Nat → Out) (G : Gang)
    (act zer : W32) : Gang × List (Evt × Nat) :=
  let ks := maskKs lead (64 / w)
  let t := ks.map fun k =>
    (k, reduceSlots pass op (lanes.map fun l => if hasLane act l then some (elem (srcVal G l a) w k) else none))
  let r := vecResult G act zer d w ks ks nowb true fun _ k =>
    (((t.find? fun e => e.1 == k).bind fun e => e.2.1).getD 0, [])
  (r.1, if act == 0 then [] else t.flatMap fun e => e.2.2.map fun v => (v, lowLane act))

/-- The use of a one-source operation at width `w`. -/
def useX (lead : Lead) (w : Nat) (a : Src) (d price : Nat) (nowb : Bool) : LaneUse :=
  { lead := lead, price := price, reads := [⟨1, a, bitsOf w (maskKs lead (64 / w))⟩], preds := [], vdst := some (d, 3),
    pdst := none, closing := false, len := lenOf lead false, nowb := nowb }

/-- VRDC, integer class (R108). -/
def execVrdc (o : LrX IFmt IRed) (s : State) : Res :=
  laneGang s (useX o.lead o.fmt.bits o.a o.d.val 2 o.k) fun G act zer =>
    rdcResult o.lead o.fmt.bits o.a o.d.val o.k passInt (iredOp o.fmt o.x) G act zer

/-- VRDC, float class (R108). -/
def execVrdcFloat (o : LrX FFmt FRed) (s : State) : Res :=
  laneGang s (useX o.lead o.fmt.bits o.a o.d.val 3 o.k) fun G act zer =>
    rdcResult o.lead o.fmt.bits o.a o.d.val o.k (passFlt o.fmt) (fredOp o.fmt (effMode G o.lead) o.x) G act zer

/-- The inclusive running values in lane order, each with its lane and its step's events (R109). -/
def scanFrom (op : Nat → Nat → Out) (x : Nat → Nat) (u : Nat) : List Nat → List (Nat × Out)
  | [] => []
  | l :: t => let y := op u (x l); (l, y) :: scanFrom op x y.1 t

/-- The values of VSCAN at one position, by lane (R109): the first is delivered as `pass` has it. -/
def scanVals (pass : Nat → Out) (op : Nat → Nat → Out) (excl : Bool) (ident : Nat) (x : Nat → Nat) (ls : List Nat) :
    List (Nat × Out) :=
  match ls with
  | [] => []
  | l :: t =>
    let us := (l, pass (x l)) :: scanFrom op x (pass (x l)).1 t
    if excl then (l, (ident, [])) :: (t.zip us).map fun e => (e.1, e.2.2) else us

/-- The effect of VSCAN (R109). -/
def scanResult (lead : Lead) (w : Nat) (a : Src) (d : Nat) (nowb : Bool) (pass : Nat → Out) (op : Nat → Nat → Out) (excl : Bool)
    (ident : Nat) (G : Gang) (act zer : W32) : Gang × List (Evt × Nat) :=
  let ks := maskKs lead (64 / w)
  let t := ks.map fun k => (k, scanVals pass op excl ident (fun l => elem (srcVal G l a) w k) (lanesOf act))
  vecResult G act zer d w ks ks nowb true fun l k =>
    ((((t.find? fun e => e.1 == k).bind fun e => e.2.find? fun r => r.1 == l).map (·.2)).getD (0, []))

/-- The identity of an integer operator (R109). -/
def iredIdent (f : IFmt) : IRed → Nat
  | .add | .or | .xor => 0
  | .min => wrapN f.bits (IFmt.maxVal f)
  | .max => wrapN f.bits (IFmt.minVal f)
  | .and => 2 ^ f.bits - 1

/-- The identity of a float-class operator (R109). -/
def fredIdent (f : FFmt) (op : FRed) : Nat :=
  match op with
  | .add => if f == .s32 then sliZero else 0
  | .min => if f == .s32 then 0x3FFFFFFF else f.infPat
  | .max => if f == .s32 then 0xBFFFFFFF else f.signPat true + f.infPat

/-- VSCAN, integer class (R109). -/
def execVscan (o : LrX IFmt (ScanOp IRed)) (s : State) : Res :=
  laneGang s (useX o.lead o.fmt.bits o.a o.d.val 2 o.k) fun G act zer =>
    scanResult o.lead o.fmt.bits o.a o.d.val o.k passInt (iredOp o.fmt o.x.op) o.x.excl (iredIdent o.fmt o.x.op) G act zer

/-- VSCAN, float class (R109). -/
def execVscanFloat (o : LrX FFmt (ScanOp FRed)) (s : State) : Res :=
  laneGang s (useX o.lead o.fmt.bits o.a o.d.val 3 o.k) fun G act zer =>
    scanResult o.lead o.fmt.bits o.a o.d.val o.k (passFlt o.fmt) (fredOp o.fmt (effMode G o.lead) o.x.op) o.x.excl
      (fredIdent o.fmt o.x.op) G act zer

end Sys2Proof.Machine
end

