-- ==== Sys2Proof/Machine/MemLane.lean ====
section
/-!
DEFINITION. The lane memory instructions (R175 to R186): loads, stores, prefetches and atomics, and the return of a
load's data from another device.
-/
namespace Sys2Proof.Machine

/-! ## Formatted pages (R72 to R74, R180) -/

/-- Element bytes of a 64 KiB segment (R74, Table 4): fmt 1 is b8, 2 is b4. -/
def segElems (fmt : Nat) : Nat := if fmt == 1 then 61440 else 58240

/-- The exact value of a block element with code `x` under exponent byte `e` (R72); NaN for e = 0xFF. -/
def blkExact (fmt x e : Nat) : Exact :=
  let sign := if fmt == 1 then bitOf x 6 else bitOf x 2
  let m := if fmt == 1 then fld x 0 6 else fld x 0 2
  let z := if fmt == 1 then 32 else 2
  if e == 0xFF then .nan
  else let p := scaleFrac m z ((e : Int) - 127); .num sign p.1 p.2

/-- The selector bit of a block element (R72). -/
def blkSel (fmt x : Nat) : Bool := if fmt == 1 then bitOf x 7 else bitOf x 3

/-- DecodeBlock of one element from its byte, the nibble it takes, and its exponent pair (R73): e16. -/
def decodeElem (fmt : Nat) (hi : Bool) (byte eh el : Nat) : Nat :=
  let x := if fmt == 1 then byte else if hi then byte / 16 else byte % 16
  let e := if blkSel fmt x then eh else el
  match blkExact fmt x e with
  | .nan => 0x7FC0
  | v => (roundTo .e16 .rne v).1

/-- The block of an element: its number in the segment, from the byte offset and the nibble (R74). -/
def blkOf (fmt off : Nat) (hi : Bool) : Nat := if fmt == 1 then off / 32 else (2 * off + b2n hi) / 32

/-- Elements that a load of a width names on a formatted page: the offset of each one's byte and its nibble
(R180, Table 1); `none` for a width or an alignment that the page does not accept. -/
def fmtElems (fmt : Nat) (w : IFmt) (a : Nat) : Option (List (Nat × Bool)) :=
  match fmt, w with
  | 1, .n16 => some [(0, false)]
  | 1, .n64 => if a % 4 == 0 then some [(0, false), (1, false), (2, false), (3, false)] else none
  | 2, .n32 => some [(0, false), (0, true)]
  | 2, .n64 => if a % 2 == 0 then some [(0, false), (0, true), (1, false), (1, true)] else none
  | _, _ => none

/-- The result of a formatted load: the selected sub-elements of `old` replaced, and the bits above the width 0. -/
def decodeWord (fmt : Nat) (w : IFmt) (old : Word) (sel : List (Nat × Bool)) (bs : List Byte) : Word :=
  let es := sel.zipIdx.map fun e =>
    let b := fun i => ((bs[3 * e.2 + i]?).getD 0).toNat
    (e.1.1, decodeElem fmt e.1.2 (b 0) (b 1) (b 2))
  setElems (BitVec.ofNat 64 (old.toNat % 2 ^ w.bits)) 16 es

/-! ## The places of the lanes' accesses -/

/-- What one lane accesses. On a formatted page, `sel` names the elements, of which `locs` holds three places each: the
element's byte and its exponent pair. -/
structure LaneAcc where
  lane : Nat
  va   : Word
  locs : List Loc
  fmt  : Nat
  sel  : List (Nat × Bool)
  deriving DecidableEq, Repr

/-- The format of the page behind a generic address; 0 where there is none. -/
def fmtAt (s : State) (g lane : Nat) (va : Word) : Nat :=
  match genLeaf s g lane va with | some e => leafFmt e | none => 0

/-- The places of a plain access of `n` bytes: on a formatted page it raises FMTST (R177, R180). -/
def plainBytes (s : State) (g lane : Nat) (va : Word) (kind field : Nat) : Nat → Chk (List Loc)
  | 0 => .ok []
  | n + 1 => do
    let l ← genByte s g lane va kind field
    need (fmtAt s g lane va == 0) (.bad .fmtst field 0 lane va)
    let t ← plainBytes s g lane (va + 1) kind field n
    .ok (l :: t)

/-- The places of a formatted load's selected elements (R180). -/
def fmtBytes (s : State) (g lane : Nat) (va : Word) (w : IFmt) (mask : Nat) (field : Nat) : Chk LaneAcc := do
  let fmt := fmtAt s g lane va
  let a := match windowOf va with | .priv off => privAddr (teamOf s (teamKey g)) (gangIdx g) lane off | _ => va.toNat
  let seg := a % 65536
  match fmtElems fmt w a with
  | none => .error (.bad .fmtst field 0 lane va)
  | some es =>
    let sel := es.zipIdx.filter fun e => bitOf mask e.2
    let locs ← sel.mapM fun e => do
      need (seg + e.1.1 < segElems fmt) (.bad .fmtst field 0 lane (va + BitVec.ofNat 64 e.1.1))
      let p := segElems fmt + 2 * blkOf fmt (seg + e.1.1) e.1.2
      let l0 ← genByte s g lane (va + BitVec.ofNat 64 e.1.1) accRead field
      let l1 ← genByte s g lane (va + BitVec.ofNat 64 p - BitVec.ofNat 64 seg) accRead field
      let l2 ← genByte s g lane (va + BitVec.ofNat 64 (p + 1) - BitVec.ofNat 64 seg) accRead field
      .ok [l0, l1, l2]
    .ok { lane := lane, va := va, locs := locs.flatten, fmt := fmt, sel := sel.map fun e => (e.2, e.1.2) }

/-- The address of a lane (R175): v(address register) + offset × (w / 8). -/
def laneAddr (G : Gang) (o : Lm) (l : Nat) : Word :=
  vGet G o.a.val l + BitVec.ofInt 64 (sext 8 o.off.toNat * (o.w.bits / 8 : Nat))

/-- The poison that a read of an access consumes, but for bytes that a store queue forwards (R337). -/
def spuePoison (s : State) (g field : Nat) (a : LaneAcc) : Option Halt :=
  let G := gangOf s g
  let T := teamOf s (teamKey g)
  a.locs.findSome? fun l =>
    match locPoison s l with
    | none => none
    | some sub =>
      if (queuedByte G.storeQ l).isSome || (queuedByte (coreOf s G.core).outb l).isSome then none
      else
        let mend := match l with
          | .spad i => spadOwner s i == some (teamKey g) && (SMap.find T.wroteSp (i / 16)).isSome | _ => false
        some (.poison .spue field sub a.lane a.va mend)

/-- Whether an access touches another device. -/
def LaneAcc.far (a : LaneAcc) : Bool := a.locs.any fun l => match l with | .remote .. => true | _ => false

/-! ## Loads (R180) -/

/-- A performed read: taint and watchpoints see it (R341, R382). -/
def seeRead (s : State) (c : Issue) (a : LaneAcc) : State :=
  watchCheck (noteReads s (teamKey c.g) a.locs) (some c.g) 0 (ctxOfTeam (teamKey c.g)) a.lane c.pc a.va a.locs

/-- The value that a load's bytes give a v register in a lane (R180). -/
def loadWord (w : IFmt) (fmt : Nat) (sel : List (Nat × Bool)) (old : Word) (bs : List Byte) : Word :=
  if fmt == 0 then w.extend (leNat bs) else decodeWord fmt w old sel bs

/-- One lane's load, performed (R158, R180). -/
def loadLane (s : State) (c : Issue) (d : Nat) (w : IFmt) (a : LaneAcc) : State :=
  let s := seeRead s c a
  let bs := (gangBytes s c.g a.locs).getD []
  modGang s c.g fun G => wrV G d a.lane (loadWord w a.fmt a.sel (vGet G d a.lane) bs) (2 ^ 64 - 1)

/-- Zeroed lanes of a load: the whole register (R176). -/
def zeroLoad (G : Gang) (d : Nat) (zer : W32) : Gang := (lanesOf zer).foldl (fun G l => wrV G d l 0 (2 ^ 64 - 1)) G

/-- Whether an access is to an MMIO page (R179). -/
def LaneAcc.onMmio (s : State) (g : Nat) (a : LaneAcc) : Bool :=
  match genLeaf s g a.lane a.va with | some e => leafMmio e && a.locs.any (fun l => (spadIdx l).isNone) | none => false

/-- Stores to other devices' bytes in `locs` set out before an access to them is tried (R157). -/
def sendOver (s : State) (g : Nat) (locs : List Loc) : State :=
  if ((gangOf s g).storeQ ++ (coreOf s (gangOf s g).core).outb).any (fun e => e.bytes.any fun p =>
      match p.1 with | .remote .. => locs.contains p.1 | _ => false) then drainAll s g else s

/-- What a load does first: stores that it must not overtake leave the core, those to bytes of another device (R157) and, for
an MMIO page, all of them (R179). -/
def readyLoad (s : State) (g : Nat) : Chk (List LaneAcc) → State
  | .ok as_ => if as_.any (LaneAcc.onMmio s g) then drainAll s g else sendOver s g (as_.flatMap (·.locs))
  | .error _ => s

/-- Requests for the bytes that lie on other devices, neighbours together (R328). -/
def askRemote (s : State) (id : Nat) (locs : List Loc) : State :=
  (remoteRuns (locs.map fun l => (l, (0 : Byte)))).foldl (fun s m =>
    send s (.remote m.1 id { ctx := m.2.1, frame := m.2.2.1 / 65536, off := m.2.2.1 % 65536, size := m.2.2.2.length,
                             data := none })) s

/-- A load that touches another device (R150, R328): the gang's stores leave first, the requests go out, and the gang
waits with the instruction until every answer is there. -/
def startRemote (s : State) (c : Issue) (zer : W32) (len : Nat) (dest : LaneAcc → Dest) (as_ : List LaneAcc) : State :=
  let s := drainAll s c.g
  let s := as_.foldl (fun s a =>
    let id := s.nextId
    let s := { s with nextId := id + 1 }
    let p : PendLoad := { id := id, lane := a.lane, dest := dest a, loc := a.locs, fmt := a.fmt, sel := a.sel, va := a.va,
                          pc := c.pc, run := c.run, zer := zer, len := len, got := if a.far then none else some [], no := none }
    modGang (askRemote (seeRead s c a) id a.locs) c.g fun G => { G with loads := G.loads ++ [p] }) s
  { s with cur := some { c with issued := false } }

/-- The use of a lane memory instruction: the address register, the data register read or written. -/
def useM (lead : Lead) (price a : Nat) (ra : Fin 64) (reads : List Rd) (d : Option Nat) : LaneUse :=
  { lead := lead, price := price, reads := ⟨5, .v ra, a⟩ :: reads, preds := [], vdst := d.map fun x => (x, 6), pdst := none,
    closing := true, len := lenOf lead false }

/-- Lanes of a set kept when MASK bit 0 is 1 (R176). -/
def bit0 (lead : Lead) (m : W32) : W32 := if bitOf (maskOf lead) 0 then m else 0

/-- The use of a lane load. -/
def useLoad (o : Lm) (price : Nat) : LaneUse := useM o.lead price (2 ^ 64 - 1) o.a [] (some o.d.val)

/-- The lanes of a list of accesses. -/
def accLanes (as_ : List LaneAcc) : W32 := as_.foldl (fun m a => m ||| laneBit a.lane) 0

/-- The lanes that a load of these accesses zeroes (R176, R180). -/
def loadZeros (G : Gang) (o : Lm) (run : W32) (as_ : List LaneAcc) : W32 :=
  if bitOf (maskOf o.lead) 0 || as_.any (fun a => a.fmt != 0) then zeroLanes G o.lead run else 0

/-- The course of a lane load whose accesses are given (R177, R180): they are performed at issue; those that are performed out
of their order are a matter of the step (log 44). -/
def runLoad (s : State) (c : Issue) (o : Lm) (price : Nat) (places : State → W32 → Chk (List LaneAcc)) : State :=
  let G := gangOf s c.g
  let u := useLoad o price
  let run := guardLanes G o.lead c.run
  let s := readyLoad s c.g (places s run)
  match (do
      laneChecks G c u run
      let as_ ← places s run
      orderGate s c.g (as_.flatMap LaneAcc.locs)
      noHalt (as_.findSome? (spuePoison s c.g 5))
      .ok as_) with
  | .error h => settle s c false h
  | .ok as_ =>
    let zer := loadZeros G o c.run as_
    let price := lanePrice u.price (accLanes as_ ||| zer)
    match payTokens s c.g price false with
    | none => waitHere (placeResv s (.gang c.g) G.core price) c
    | some s =>
      if as_.any LaneAcc.far then startRemote s c zer u.len (fun a => .lane a.lane o.d.val o.w) as_
      else
        let s := as_.foldl (fun s a => loadLane s c o.d.val o.w a) s
        laneDone (modGang s c.g fun G => zeroLoad G o.d.val zer) c u []

/-- What one lane of a VLD accesses (R175, R176, R180). -/
def vldLane (o : Lm) (s : State) (c : Issue) (l : Nat) : Chk (List LaneAcc) :=
  let va := laneAddr (gangOf s c.g) o l
  if fmtAt s c.g l va != 0 then do
    let a ← fmtBytes s c.g l va o.w (maskOf o.lead) 5
    .ok (if a.sel.isEmpty then [] else [a])
  else if bitOf (maskOf o.lead) 0 then do
    let locs ← plainBytes s c.g l va accRead 5 (o.w.bits / 8)
    .ok [{ lane := l, va := va, locs := locs, fmt := 0, sel := [] }]
  else .ok []

/-- The accesses of a VLD. -/
def vldAccs (o : Lm) (s : State) (c : Issue) (run : W32) : Chk (List LaneAcc) := do
  let r ← (lanesOf run).mapM (vldLane o s c)
  .ok r.flatten

/-- VLD (R180). -/
def execVld (o : Lm) (s : State) : Res :=
  issuing s fun c => runLoad s c o 2 fun s run => vldAccs o s c run

/-- The scratchpad accesses of the lanes (R175). -/
def spadAccs (s : State) (c : Issue) (o : Lm) (run : W32) : Chk (List LaneAcc) :=
  (lanesOf (bit0 o.lead run)).mapM fun l => do
    let off := laneAddr (gangOf s c.g) o l
    let locs ← spadBytes s c.g l off o.sp 5 (o.w.bits / 8)
    .ok { lane := l, va := off, locs := locs, fmt := 0, sel := [] }

/-- VLDS (R180). -/
def execVlds (o : Lm) (s : State) : Res :=
  issuing s fun c => runLoad s c o 1 fun s run => spadAccs s c o run

/-- The answers to a gang's remote loads are all there (R180, R328): the lowest refused lane traps as if its own leaf had
refused the access, or every destination is written and the instruction completes. An instruction that reads without a
destination (SPAWN, TCOPY, TKICK, TXFER) takes the bytes, or the refusal, when it is tried again. -/
def finishLoads (s : State) (g : Nat) : State :=
  let ps := (gangOf s g).loads
  match ps.head? with
  | none => s
  | some p0 =>
    let c : Issue := { g := g, run := p0.run, pc := p0.pc, issued := false }
    let no := ps.find? fun p => p.no.isSome
    let s := if p0.dest == .none then s else modGang s g fun G => { G with loads := [] }
    let s := if p0.dest == .none then s else match no with
      | some p =>
        let w := p.no.getD 0
        trapHere s c false (Cause.ofCode (Word.fld w 0 8)) (match p.dest with | .lane .. => 5 | _ => 8) (Word.fld w 8 8) p.lane p.va
      | none =>
        let bytes := fun (s : State) (p : PendLoad) =>
          let step := fun (acc : List Byte × List Byte) (l : Loc) =>
            match l with
            | .remote .. => (acc.1 ++ [acc.2.headD 0], acc.2.tail)
            | _ => (acc.1 ++ [(gangByte s g l).getD 0], acc.2)
          (p.loc.foldl step ([], p.got.getD [])).1
        let put := fun (s : State) (p : PendLoad) =>
          match p.dest with
          | .lane l r w => modGang s g fun G => wrV G r l (loadWord w p.fmt p.sel (vGet G r l) (bytes s p)) (2 ^ 64 - 1)
          | .uni r w => modGang s g fun G => wrS G r (w.extend (leNat (bytes s p)))
          | .none => s
        let s := ps.foldl put s
        match p0.dest with
        | .lane _ r _ =>
          laneDone (modGang s g fun G => zeroLoad G r p0.zer) c
            { lead := .bare, price := 0, reads := [], preds := [], vdst := none, pdst := none, closing := true, len := p0.len } []
        | _ => fallEvents (modGang s g fun G => uniChain G c.run false) c p0.len []
    { s with cur := none }

/-- What an instruction has been answered for bytes of another device that it reads without a destination, at an address: the
bytes, or the refusal, which it raises in its register field 8 (R328). -/
def farRecord (G : Gang) (pc va : Word) : Option PendLoad := G.loads.find? fun p => p.pc == pc && p.dest == .none && p.va == va
def farBytes (p : PendLoad) (lane : Nat) : Chk (List Byte) :=
  match p.no with
  | some w => .error (.bad (Cause.ofCode (Word.fld w 0 8)) 8 (Word.fld w 8 8) lane p.va)
  | none => .ok (p.got.getD [])

/-- The data of an outstanding load arrives, or its refusal (R180, R328); with the last one the load completes. -/
def loadReturn (s : State) (g id : Nat) (data : Option (List Byte)) (refusal : Word) : State :=
  let s := modGang s g fun G => { G with loads := G.loads.map fun p =>
    if p.id == id then (match data with | some b => { p with got := some b } | none => { p with no := some refusal }) else p }
  if (gangOf s g).loads.all (fun p => p.got.isSome || p.no.isSome) then finishLoads s g else s

/-! ## Stores (R158, R178, R180) -/

/-- A store as the accesses that it is performed as (R155): one when it is aligned or to an MMIO page (R179), else one for
each byte. -/
def storeParts (e : StoreEnt) : List StoreEnt :=
  if e.mmio || ([1, 2, 4, 8].contains e.bytes.length && e.va.toNat % e.bytes.length == 0) then [e]
  else e.bytes.zipIdx.map fun p => { e with bytes := [p.1], va := e.va + BitVec.ofNat 64 p.2 }

/-- One store enters a gang's queue. -/
def pushStore (s : State) (c : Issue) (lane : Nat) (va : Word) (bs : List (Loc × Byte)) : State :=
  let s := noteStores s (teamKey c.g) (bs.map (·.1))
  let n := (gangOf s c.g).issuedN
  let mmio := LaneAcc.onMmio s c.g { lane := lane, va := va, locs := bs.map (·.1), fmt := 0, sel := [] }
  let e : StoreEnt := { bytes := bs, va := va, lane := lane, pc := c.pc, by_ := c.g, nth := n, mmio := mmio }
  modGang s c.g fun G => { ownStore (bs.map (·.1)) G with storeQ := G.storeQ ++ storeParts e }

/-- The use of a lane store. -/
def useStore (o : Lm) (price : Nat) : LaneUse := useM o.lead price (2 ^ 64 - 1) o.a [⟨6, .v o.d, 2 ^ o.w.bits - 1⟩] none

/-- The bytes that a lane store writes in an access: the low bits of v(D) in its lane (R180). -/
def storeBytes (G : Gang) (o : Lm) (a : LaneAcc) : List (Loc × Byte) :=
  a.locs.zip (leBytes (o.w.bits / 8) (vGet G o.d.val a.lane).toNat)

/-- The stores of these accesses enter the queue, in lane order. -/
def pushStores (s : State) (c : Issue) (o : Lm) (as_ : List LaneAcc) : State :=
  as_.foldl (fun s a => pushStore s c a.lane a.va (storeBytes (gangOf s c.g) o a)) s

/-- The course of a lane store whose accesses are given (R177, R178). -/
def runStore (s : State) (c : Issue) (o : Lm) (price : Nat) (places : State → W32 → Chk (List LaneAcc)) : State :=
  let G := gangOf s c.g
  runLaneOn s c (useStore o price) (bit0 o.lead (guardLanes G o.lead c.run)) 0 fun s act _ => do
    let as_ ← places s act
    orderGate s c.g (as_.flatMap LaneAcc.locs)
    .ok (pushStores s c o as_, [])

/-- The accesses of a VST. -/
def vstAccs (o : Lm) (s : State) (c : Issue) (act : W32) : Chk (List LaneAcc) :=
  (lanesOf act).mapM fun l => do
    let va := laneAddr (gangOf s c.g) o l
    let locs ← plainBytes s c.g l va accWrite 5 (o.w.bits / 8)
    .ok { lane := l, va := va, locs := locs, fmt := 0, sel := [] }

/-- VST (R180). -/
def execVst (o : Lm) (s : State) : Res :=
  issuing s fun c => runStore s c o 2 fun s act => vstAccs o s c act

/-- VSTS (R180). -/
def execVsts (o : Lm) (s : State) : Res :=
  issuing s fun c => runStore s c o 1 fun s act => spadAccs s c o act

/-- VPRF (R181): it asks for lines, changes nothing a program reads and never faults. -/
def execVprf (o : Lm) (s : State) : Res :=
  issuing s fun c =>
    runLaneOn s c (useM o.lead 1 0 o.a [] none) c.run 0 fun s _ _ => .ok (s, [])

/-! ## Releases (R162, R366, R368) -/

/-- What a release, a fence of device scope or wider and an EXIT meet: the refusal or the doubt of an operation without a
destination, an operation that has no answer yet, or a store on its way to another device or to a pinned line (R137, R161,
R162). -/
def releaseGate (s : State) (g : Nat) : Chk Unit := do
  noHalt ((lateFor (gangOf s g) (fun d => d == .none)).map fun f => .late f 0 0xFF)
  need ((gangOf s g).reqs.isEmpty && !awaitsFar s g && !keptBack s g) .hold

/-- The drain that a scope needs (R160, R161, R194): gang and team scope stay in the core. -/
def drainFor (s : State) (g : Nat) : Scope → State
  | .gang | .team => drainGang s g
  | _ => drainAll s g

/-! ## Atomics (R182 to R186) -/

/-- The header of an atomic request (R355). -/
def atomHeader (s : State) (g serial : Nat) (addr : Word) (w : IFmt) (op : AOp) (st : Bool) (d c : Nat) (dev : Nat) : Header :=
  let h : Header := { Header.blank with
    addr := addr, operand := BitVec.ofNat 64 (d % 2 ^ w.bits),
    comparand := if op == .cas then BitVec.ofNat 64 (c % 2 ^ w.bits) else 0, ident := identOf g,
    serial := BitVec.ofNat 32 serial, floor := floorOf s g, inc := incOf s dev, kind := 1, st := st,
    width := BitVec.ofNat 2 w.widthCode, op := BitVec.ofNat 3 op.code }
  { h with digest := digestOf h [] }

/-- One atomic access of a gang. -/
structure AtomAcc where
  lane : Nat
  va   : Word
  locs : List Loc
  d    : Nat
  c    : Nat
  dest : Dest
  deriving DecidableEq, Repr

/-- Whether an access lies in a scratchpad. -/
def AtomAcc.inSpad (a : AtomAcc) : Bool := match a.locs.head? with | some (.spad _) => true | _ => false

/-- The old value reaches its destination at once. -/
def deliverNow (s : State) (g : Nat) (d : Dest) (m : Nat) : State := modGang s g fun G => deliver G d (BitVec.ofNat 64 m)

/-- One atomic performed at its place (R164, R183): in the owning core, at the home SXE under its serial, or sent to the
device that owns the page. `ld` reads only and takes no serial. -/
def doAtomic (s : State) (c : Issue) (w : IFmt) (op : AOp) (ld st acq : Bool) (a : AtomAcc) : State :=
  let t := teamKey c.g
  let s := watchCheck s (some c.g) 2 (ctxOfTeam t) a.lane c.pc a.va a.locs
  match a.locs.head? with
  | some (.spad _) =>
    let r := atomicAt s a.locs op w a.d a.c ld
    let s := if ld then r.2 else a.locs.foldl (fun s l => match l with | .spad i => noteSpad s (some t) i | _ => s) r.2
    deliverNow s c.g a.dest r.1
  | some (.phys p) =>
    if ld then
      let r := atomicAt (noteReads s t a.locs) a.locs op w a.d a.c true
      deliverNow r.2 c.g a.dest r.1
    else
      let h := atomHeader s c.g (srGet (gangOf s c.g) rSerNext).toNat a.va w op st a.d a.c Config.deviceId.toNat
      let q : OutReq := { hdr := h, dest := a.dest, owner := Config.deviceId.toNat, pc := c.pc, sentAt := s.now, wait := 0,
                          full := false, quiet := false, acq := acq, locs := a.locs, item := none, nth := (gangOf s c.g).issuedN }
      let s := noteOwner s c.g Config.deviceId.toNat h.floor
      let s := modGang (takeSerials s c.g 1) c.g fun G => { G with reqs := G.reqs ++ [q] }
      let r := serveWith s (homeDie s p) h none fun s =>
        let r := atomicAt s a.locs op w a.d a.c false
        (r.2, BitVec.ofNat 64 r.1)
      answer r.1 c.g q r.2
  | some (.remote dev _ p) =>
    let h := atomHeader s c.g (srGet (gangOf s c.g) rSerNext).toNat (BitVec.ofNat 64 p) w op st a.d a.c dev
    let q : OutReq := { hdr := h, dest := a.dest, owner := dev, pc := c.pc, sentAt := s.now, wait := 10000, full := false,
                        quiet := false, acq := acq, locs := a.locs, item := none, nth := (gangOf s c.g).issuedN }
    let s := modGang (takeSerials (noteOwner s c.g dev h.floor) c.g 1) c.g fun G => { G with reqs := G.reqs ++ [q] }
    send s (.request dev h)
  | none => s

/-- The atomics of an instruction, in lane order, behind the stores that their core sees before them, and with a release
behind every one (R159, R162, R164, R178, R186). -/
def doAtomics (s : State) (c : Issue) (w : IFmt) (op : AOp) (ld st : Bool) (ord : Ord) (as_ : List AtomAcc) : Chk State := do
  if ord.rel then releaseGate s c.g
  writeGate s c.g (as_.flatMap (·.locs))
  let n := if ld then 0 else (as_.filter fun a => !a.inSpad).length
  let s := if ord.rel then drainAll s c.g else if as_.isEmpty then s else drainOver s c.g (as_.flatMap (·.locs))
  let far := if ld then 0 else (as_.filter fun a => match a.locs.head? with | some (.remote ..) => true | _ => false).length
  match requestRoom s c.g n far with
  | none => .error .hold
  | some s => .ok (as_.foldl (fun s a => doAtomic s c w op ld st ord.acq a) s)

/-- Before an atomic is tried, stores to other devices set out that it must not overtake: all of them before a release
(R162), else those to its bytes (R157). -/
def readyAtomic (s : State) (g : Nat) (rel : Bool) (locs : List Loc) : State :=
  if rel then sendFar s g else sendOver s g locs

/-- The places of one aligned atomic (R177, R182). -/
def atomPlace (s : State) (g lane : Nat) (va : Word) (n kind field : Nat) : Chk (List Loc) := do
  need (va.toNat % n == 0) (prot field va lane)
  let locs ← genBytes s g lane va kind field n
  need (fmtAt s g lane va == 0) (.bad .fmtst field 0 lane va)
  .ok locs

/-- The poison that an atomic's read of its location consumes. -/
def atomPoison (s : State) (g field : Nat) (as_ : List AtomAcc) : Chk Unit :=
  noHalt (as_.findSome? fun a => spuePoison s g field { lane := a.lane, va := a.va, locs := a.locs, fmt := 0, sel := [] })

/-- The use of a lane atomic: `ld` reads no data register, `wr` returns the old value to v(D). -/
def useAtom (o : La) (price : Nat) (ld wr : Bool) : LaneUse :=
  let bits := 2 ^ o.w.bits - 1
  useM o.lead price (2 ^ 64 - 1) o.a (⟨6, .v o.d, if ld then 0 else bits⟩ :: rdC o.lead bits)
    (if wr then some o.d.val else none)

/-- The accesses of a lane atomic, in lane order. -/
def laneAtoms (s : State) (c : Issue) (o : La) (wr : Bool) (places : State → Issue → Nat → Chk (List Loc)) (act : W32) :
    Chk (List AtomAcc) :=
  let G := gangOf s c.g
  (lanesOf act).mapM fun l => do
    let locs ← places s c l
    .ok { lane := l, va := vGet G o.a.val l, locs := locs, d := (vGet G o.d.val l).toNat,
          c := match srcC o.lead with | some x => (srcVal G l x).toNat | none => 0,
          dest := if wr then .lane l o.d.val o.w else .none }

/-- Whether a lane's access begins on another device. -/
def farLane (s : State) (c : Issue) (places : State → Issue → Nat → Chk (List Loc)) (l : Nat) : Bool :=
  match places s c l with | .ok (.remote .. :: _) => true | _ => false

/-- The course of a lane atomic. `wr` says that the old value is returned to v(D). -/
def runAtomic (s : State) (o : La) (price : Nat) (ld st wr : Bool)
    (places : State → Issue → Nat → Chk (List Loc)) : Res :=
  issuing s fun c =>
    let G := gangOf s c.g
    let body : State → W32 → W32 → Chk (State × List (Evt × Nat)) := fun s act _ => do
      let as_ ← laneAtoms s c o wr places act
      if !st then atomPoison s c.g 5 as_
      let s ← doAtomics s c o.w o.op ld st o.ord as_
      .ok (if as_.isEmpty then s else caveNote s c.g 3 c.pc, [])
    let act := bit0 o.lead (guardLanes G o.lead c.run)
    if ld && (lanesOf act).any (farLane s c places) then
      runLoad s c { lead := o.lead, w := o.w, a := o.a, off := 0, d := o.d, sp := false } price fun s run =>
        (lanesOf (bit0 o.lead run)).mapM fun l => do
          let locs ← places s c l
          .ok { lane := l, va := vGet G o.a.val l, locs := locs, fmt := 0, sel := [] }
    else
      let locs := (lanesOf act).flatMap fun l => match places s c l with | .ok ls => ls | .error _ => []
      runLaneOn (readyAtomic s c.g o.ord.rel locs) c (useAtom o price ld wr) act 0 body

/-- A lane's place of VATM, of VATMS and of VRED. -/
def vatmPlace (o : La) (s : State) (c : Issue) (l : Nat) : Chk (List Loc) :=
  atomPlace s c.g l (vGet (gangOf s c.g) o.a.val l) (o.w.bits / 8) (if o.sp then accAtomicLd else accAtomic) 5
def vatmsPlace (o : La) (s : State) (c : Issue) (l : Nat) : Chk (List Loc) := do
  let off := vGet (gangOf s c.g) o.a.val l
  need (off.toNat % (o.w.bits / 8) == 0) (prot 5 off l)
  spadBytes s c.g l off o.sp 5 (o.w.bits / 8)
def vredPlace (o : La) (s : State) (c : Issue) (l : Nat) : Chk (List Loc) :=
  atomPlace s c.g l (vGet (gangOf s c.g) o.a.val l) (o.w.bits / 8) accAtomic 5

/-- VATM (R183). Space bit 1 is `.ld`, a read only. -/
def execVatm (o : La) (s : State) : Res :=
  runAtomic s o 3 o.sp false true (vatmPlace o)

/-- VATMS (R185). -/
def execVatms (o : La) (s : State) : Res :=
  runAtomic s o 2 false false true (vatmsPlace o)

/-- VRED (R183): nothing returns. Space bit 1 is `.st`, a write only. -/
def execVred (o : La) (s : State) : Res :=
  runAtomic s o 3 false o.sp false (vredPlace o)

end Sys2Proof.Machine
end

