-- ==== Sys2Proof/Machine/UniMem.lean ====
section
/-!
DEFINITION. The uniform memory instructions (R187, R188), phase barriers and waits (R189 to R193), fences and completion
timelines (R194, R195), CACHE and PAGEQ (R196, R197), and the drain of a queued store (R158).
-/
namespace Sys2Proof.Machine

/-! ## Loads and stores (R187) -/

/-- The one access of a uniform instruction (R178). -/
def uniAcc (c : Issue) (va : Word) (locs : List Loc) : LaneAcc :=
  { lane := lowThread c, va := va, locs := locs, fmt := 0, sel := [] }

/-- The address of a uniform access: s(Sa) + offset × (w / 8) (R175). -/
def uniAddr (G : Gang) (sa : Fin 64) (w : IFmt) (off : Int) : Word := sGet G sa.val + BitVec.ofInt 64 (off * (w.bits / 8 : Nat))

/-- The course of a uniform load at the places given. -/
def runUniLoad (s : State) (c : Issue) (price : Nat) (sa sd : Fin 64) (w : IFmt) (va : Word) (locs : Chk (List Loc)) : State :=
  let u := uniUse price [(8, sa.val)] (some sd.val)
  let acc := match locs with | .ok ls => .ok [uniAcc c va ls] | .error h => .error h
  let s := readyLoad s c.g acc
  let far := match uniChecks (gangOf s c.g) c u, locs with
    | .ok _, .ok ls => (uniAcc c va ls).far
    | _, _ => false
  if far then
    match orderGate s c.g (match locs with | .ok ls => ls | _ => []) with
    | .error h => settle s c false h
    | .ok _ =>
      match payTokens s c.g price false with
      | none => waitHere (placeResv s (.gang c.g) (gangOf s c.g).core price) c
      | some s => startRemote s c 0 4 (fun _ => .uni sd.val w) [uniAcc c va (match locs with | .ok ls => ls | _ => [])]
  else
    runUni s c u fun s => do
      let ls ← locs
      orderGate s c.g ls
      noHalt (spuePoison s c.g 8 (uniAcc c va ls))
      let s := seeRead s c (uniAcc c va ls)
      let x := leNat ((gangBytes s c.g ls).getD [])
      .ok (modGang s c.g fun G => wrS G sd.val (w.extend x), [])

/-- The course of a uniform store at the places given. -/
def runUniStore (s : State) (c : Issue) (sa sd : Fin 64) (w : IFmt) (va : Word) (locs : Chk (List Loc)) : State :=
  runUni s c (uniUse 1 [(8, sa.val), (7, sd.val)] none) fun s => do
    let ls ← locs
    orderGate s c.g ls
    .ok (pushStore s c (lowThread c) va (ls.zip (leBytes (w.bits / 8) (sGet (gangOf s c.g) sd.val).toNat)), [])

/-- ULD (R187). -/
def execUld (o : UMem) (s : State) : Res :=
  issuing s fun c =>
    let va := uniAddr (gangOf s c.g) o.sa o.w (sext 9 o.off.toNat)
    runUniLoad s c 1 o.sa o.sd o.w va (plainBytes s c.g (lowThread c) va accRead 8 (o.w.bits / 8))

/-- UST (R187). -/
def execUst (o : UMem) (s : State) : Res :=
  issuing s fun c =>
    let va := uniAddr (gangOf s c.g) o.sa o.w (sext 9 o.off.toNat)
    runUniStore s c o.sa o.sd o.w va (plainBytes s c.g (lowThread c) va accWrite 8 (o.w.bits / 8))

/-- ULDS (R187). -/
def execUlds (o : UMemS) (s : State) : Res :=
  issuing s fun c =>
    let va := uniAddr (gangOf s c.g) o.sa o.w (sext 8 o.off.toNat)
    runUniLoad s c 1 o.sa o.sd o.w va (spadBytes s c.g (lowThread c) va o.sp 8 (o.w.bits / 8))

/-- USTS (R187). -/
def execUsts (o : UMemS) (s : State) : Res :=
  issuing s fun c =>
    let va := uniAddr (gangOf s c.g) o.sa o.w (sext 8 o.off.toNat)
    runUniStore s c o.sa o.sd o.w va (spadBytes s c.g (lowThread c) va o.sp 8 (o.w.bits / 8))

/-- The place of a UATM. -/
def uatmPlace (o : UAtm) (c : Issue) (s : State) : Chk (List Loc) :=
  atomPlace s c.g (lowThread c) (sGet (gangOf s c.g) o.sa.val) 8 (if o.ld then accAtomicLd else accAtomic) 8

/-- The use of a UATM. -/
def useUatm (o : UAtm) : UniUse :=
  uniUse 2 ([(8, o.sa.val)] ++ (if o.ld then [] else [(7, o.sd.val)]) ++ (if o.op == .cas then [(7, o.sd.val + 1)] else []))
    (if o.st then none else some o.sd.val)

/-- The one access of a UATM at its place. -/
def uatmAcc (o : UAtm) (c : Issue) (G : Gang) (ls : List Loc) : AtomAcc :=
  { lane := lowThread c, va := sGet G o.sa.val, locs := ls, d := (sGet G o.sd.val).toNat, c := (sGet G (o.sd.val + 1)).toNat,
    dest := if o.st then .none else .uni o.sd.val (if o.n then .n64 else .i64) }

/-- The effect of a UATM. -/
def uatmBody (o : UAtm) (c : Issue) (s : State) : Chk State := do
  let ls ← uatmPlace o c s
  let a := uatmAcc o c (gangOf s c.g) ls
  if !o.st then atomPoison s c.g 8 [a]
  let s ← doAtomics s c (if o.n then .n64 else .i64) o.op o.ld o.st o.ord [a]
  .ok (caveNote s c.g 3 c.pc)

/-- UATM (R188): one 64-bit atomic; LD reads only, ST writes only. -/
def execUatm (o : UAtm) (s : State) : Res :=
  issuing s fun c =>
    let G := gangOf s c.g
    let va := sGet G o.sa.val
    let w : IFmt := if o.n then .n64 else .i64
    let places := uatmPlace o c s
    let far := o.ld && match places with | .ok (.remote .. :: _) => true | _ => false
    if far then runUniLoad s c 2 o.sa o.sd w va places
    else runPlain (readyAtomic s c.g o.ord.rel (match places with | .ok ls => ls | .error _ => [])) c (useUatm o) (uatmBody o c)

/-! ## Phase barriers (R189 to R192) -/

/-- The sixteen places of a barrier (R189): aligned, in a scratchpad window, or for a resident launch in global memory on
a page of this device. -/
def barPlaces (s : State) (g lane : Nat) (va : Word) (field : Nat) : Chk (List Loc) := do
  need (va.toNat % 16 == 0) (prot field va lane)
  match windowOf va with
  | .own _ | .pair _ => genBytes s g lane va accWrite field 16
  | .global _ => do
    need (teamOf s (teamKey g)).resident (prot field va lane)
    let ls ← genBytes s g lane va accBarrier field 16
    need (fmtAt s g lane va == 0 && ls.all fun l => match l with | .remote .. => false | _ => true) (prot field va lane)
    .ok ls
  | _ => .error (prot field va lane)

/-- Whether a barrier lies in a scratchpad. -/
def inSpad (locs : List Loc) : Bool := match locs.head? with | some (.spad _) => true | _ => false

/-- The update of a barrier by a gang (R168): the brine and the watchpoints see it, and one in global memory taints the
interval (R341). -/
def updateBar (s : State) (c : Issue) (va : Word) (locs : List Loc) (b : Bar) : State :=
  let s := locs.foldl (fun s l => match l with | .spad a => noteSpad s (some (teamKey c.g)) a | _ => s) s
  let bs := locs.zip (leBytes 16 (barNat b))
  let s := if (match locs.head? with | some (.phys _) => true | _ => false) then taintTeam s (teamKey c.g) else s
  watchCheck (clearPoison (locWrites s bs) bs) (some c.g) 2 (ctxOfTeam (teamKey c.g)) (lowThread c) c.pc va locs

/-- The team whose checkpoint an advance is (R338): the owner of the scratchpad. -/
def ckptOf (s : State) (locs : List Loc) (old new : Bar) : Option Nat :=
  if old.phase != new.phase && old.init then match locs.head? with | some (.spad a) => spadOwner s a | _ => none else none

/-- The checkpoint of an advance, once the instruction has written everything (R338). -/
def ckptAfter (s : State) (t : Option Nat) : State := match t with | some t => takeCkpt s t | none => s

/-- Poison of a barrier that its update reads. -/
def barPoison (s : State) (c : Issue) (va : Word) (locs : List Loc) : Chk Unit := noHalt (spuePoison s c.g 8 (uniAcc c va locs))

/-- A barrier as BINIT makes it (R190). -/
def freshBar (n scope : Nat) : Bar :=
  { phase := 0, expect := n, pend := n, bytes := 0, init := true, fault := false, scope := scope, low := 0 }

/-- The effect of BINIT. -/
def binitBody (s : State) (c : Issue) (sa sb : Fin 64) (scope : BitVec 3) : Chk State := do
  let G := gangOf s c.g
  let va := sGet G sa.val
  let n := (sGet G sb.val).toNat
  let l := lowThread c
  let ls ← barPlaces s c.g l va 8
  writeGate s c.g ls
  let s := drainOver s c.g ls
  need (1 ≤ n && n ≤ 65535) (prot 9 0 l)
  need (if inSpad ls then scope == 1 || scope == 2 else scope == 4) (prot 10 0 l)
  .ok (updateBar s c va ls (freshBar n scope.toNat))

/-- BINIT (R190). -/
def execBinit (sa sb : Fin 64) (scope : BitVec 3) (s : State) : Res :=
  issuing s fun c =>
    runPlain s c (uniUse 1 [(8, sa.val), (9, sb.val)] none) fun s => binitBody s c sa sb scope

/-- The drain of a release at a barrier's SCOPE (R162, R169). -/
def barRelease (s : State) (g : Nat) (scope : Nat) : State := if scope ≤ 1 then drainGang s g else drainAll s g

/-- The effect of ARRIVE and BEXPECT: the barrier is read behind the gang's stores, the update is made, and s(Sd) receives
the phase before it; with the team whose checkpoint the advance is (R189, R338). -/
def barBody (s : State) (c : Issue) (sd sa : Fin 64) (rel cave : Bool) (f : Gang → Bar → Chk Bar) : Chk (State × Option Nat) := do
  if rel then releaseGate s c.g
  let G := gangOf s c.g
  let va := sGet G sa.val
  let ls ← barPlaces s c.g (lowThread c) va 8
  writeGate s c.g ls
  let s := drainOver s c.g ls
  barPoison s c va ls
  let b := readBar s ls
  need b.init (prot 8 va (lowThread c))
  let n ← f G b
  let s := if rel then barRelease s c.g b.scope else s
  let ck := ckptOf s ls b n
  let s := modGang (updateBar s c va ls n) c.g fun G => wrS G sd.val (BitVec.ofNat 64 b.phase)
  .ok (if cave then caveNote s c.g 1 c.pc else s, ck)

/-- The course of ARRIVE and BEXPECT: an advance is a checkpoint once the instruction has ended (R338). -/
def runBar (s : State) (c : Issue) (u : UniUse) (sd sa : Fin 64) (rel cave : Bool) (f : Gang → Bar → Chk Bar) : State :=
  runUniTo (if rel then sendFar s c.g else s) c u fun s => do
    let r ← barBody s c sd sa rel cave f
    .ok (r.1, fun s => ckptAfter (fallEvents s c u.len []) r.2)

/-- The use of ARRIVE. -/
def useArrive (sd sa : Fin 64) (cnt : ArrCnt) : UniUse :=
  uniUse 1 ((8, sa.val) :: (match cnt with | .reg sb => [(9, sb.val)] | _ => [])) (some sd.val)

/-- The arrivals of an ARRIVE (R191). -/
def arrivals (c : Issue) (G : Gang) : ArrCnt → Nat
  | .one => 1
  | .run => (lanesOf c.run).length
  | .reg sb => (sGet G sb.val).toNat

/-- The barrier after an ARRIVE (R191). -/
def arriveBar (c : Issue) (cnt : ArrCnt) (G : Gang) (b : Bar) : Chk Bar := do
  let n := arrivals c G cnt
  need (1 ≤ n && n ≤ 65535 && n ≤ b.pend) (prot 9 0 (lowThread c))
  .ok { b with pend := b.pend - n }.settle

/-- ARRIVE (R191). -/
def execArrive (sd sa : Fin 64) (cnt : ArrCnt) (rel : Bool) (s : State) : Res :=
  issuing s fun c => runBar s c (useArrive sd sa cnt) sd sa rel true (arriveBar c cnt)

/-- The barrier after a BEXPECT (R192). -/
def expectBar (c : Issue) (sb : Fin 64) (arr : Bool) (G : Gang) (b : Bar) : Chk Bar := do
  let n := (sGet G sb.val).toNat
  need (n ≤ 2 ^ 31 - 1 && decide (b.bytes + n ≤ 2 ^ 31 - 1)) (prot 9 0 (lowThread c))
  need (!arr || 1 ≤ b.pend) (prot 9 0 (lowThread c))
  .ok { b with bytes := b.bytes + n, pend := if arr then b.pend - 1 else b.pend }.settle

/-- BEXPECT (R192). -/
def execBexpect (o : Ur3) (arr rel : Bool) (s : State) : Res :=
  issuing s fun c =>
    runBar s c (uniUse 1 [(8, o.sa.val), (9, o.sb.val)] (some o.sd.val)) o.sd o.sa (rel && arr) arr (expectBar c o.sb arr)

/-! ## Waiting (R166, R169 to R171, R193) -/

/-- A phase has completed (R169). -/
def phaseDone (cur p : Nat) : Bool := let d := (cur + 2 ^ 32 - p % 2 ^ 32) % 2 ^ 32; 1 ≤ d && d < 2 ^ 31

/-- A completion rule's answer. -/
inductive WaitRes where
  | yet
  | done (events : List DoneEvents)
  | fails (r : FaultRec) (told : Option (Nat × Bool × Nat))
  deriving DecidableEq, Repr

/-- CLASS and WHICH of a timeline name (R193, Table 5). -/
def tlClass (n : Word) : Nat := Word.fld n 60 4
def tlWhich (n : Word) : Nat := Word.fld n 0 57

/-- The fault record behind a barrier's FAULT (R169): that of the last command counted on it that faulted; where none is
known, one that names the WAITPH (log 24). -/
def barFaultRec (s : State) (c : Issue) (locs : List Loc) : FaultRec :=
  let fs := s.cores.flatMap fun e => e.2.tcu.flatMap fun x => x.2.faults
  match (fs.filter fun f => f.bar == locs.head?).getLast? with
  | some f => f.fault
  | none => gangRec s c.g c.pc .copyf 0 (Word.fld (Config.freeWord s.free) 0 8) (lowThread c) 0 false

/-- The checks of a WAITPH's operands (R193), and the places of a barrier or of a completion timeline. -/
def waitChecks (s : State) (c : Issue) (kind : WaitKind) (obj val : Word) : Chk (List Loc) := do
  let l := lowThread c
  match kind with
  | .bar => do
    let ls ← barPlaces s c.g l obj 8
    need (val.toNat < 2 ^ 32) (prot 9 0 l)
    barPoison s c obj ls
    need (readBar s ls).init (prot 8 obj l)
    .ok ls
  | .gate => do
    need (obj.toNat < 32) (prot 8 0 l)
    need (val.toNat < 2 ^ 32) (prot 9 0 l)
    .ok []
  | .tl =>
    let T := teamOf s (teamKey c.g)
    let w := tlWhich obj
    let ok := Word.fld obj 57 3 == 0 && (match tlClass obj with
      | 1 => w < 4
      | 2 => w == 0 && T.partner.isSome
      | 3 => w < 8
      | 4 => w % 8 == 0 && (match windowOf (BitVec.ofNat 64 w) with | .global _ => true | _ => false)
      | _ => false)
    need ok (prot 8 0 l)
    if tlClass obj == 4 then genBytes s c.g l (BitVec.ofNat 64 w) accRead 8 8 else .ok []

/-- The faults and the events of the timeline of a wait: those of a TCU context, or of the pair's matrix timeline. -/
def tlBooks (s : State) (g : Nat) (cls x : Nat) : List EngFault × List DoneEvents :=
  let T := teamOf s (teamKey g)
  if cls == 1 then let u := tcuOf s T.core x; (u.faults, u.events)
  else if cls == 2 then
    let q := matOf s (pairOfCore T.core)
    let l := leaderOf s (teamKey g)
    ((q.faults.filter fun f => f.1 == l).map (·.2), (q.events.filter fun f => f.1 == l).map (·.2))
  else ([], [])

/-- The completion rule of a wait at this instant (R169 to R171). -/
def waitRule (s : State) (c : Issue) (kind : WaitKind) (obj val : Word) (locs : List Loc) : WaitRes :=
  match kind with
  | .bar =>
    let b := readBar s locs
    if b.fault then .fails (barFaultRec s c locs) none
    else if phaseDone b.phase val.toNat then .done [] else .yet
  | .gate => if phaseDone (portOf s (obj.toNat % 32)).gate.toNat val.toNat then .done [] else .yet
  | .tl =>
    let T := teamOf s (teamKey c.g)
    let cls := tlClass obj
    let x := tlWhich obj
    let d : Int := if cls == 1 then tlOffOf T x else 0
    let now : Int := match cls with
      | 1 => (tcuValue (tcuOf s T.core x) : Int) - d
      | 2 => matValue s (teamKey c.g)
      | 3 => (scriptOf s x).tl.toNat
      | _ => (tlRead s locs).toNat
    if now < val.toNat then .yet
    else
      let upTo := ((val.toNat : Int) + d).toNat
      let bk := tlBooks s c.g cls x
      match engFaultFor bk.1 c.g upTo with
      | some f => .fails f.fault (some (f.num, cls == 2, x))
      | none => .done (bk.2.filter fun e => e.gang == c.g && !e.taken && e.num ≤ upTo)

/-- A reported fault is marked for the gang (R170). -/
def markTold (s : State) (g : Nat) (t : Option (Nat × Bool × Nat)) : State :=
  match t with
  | none => s
  | some (num, true, _) =>
    let l := leaderOf s (teamKey g)
    modMat s (pairOfCore (teamOf s (teamKey g)).core) fun q =>
      { q with faults := q.faults.map fun f =>
          if f.1 == l && f.2.num == num then (f.1, { f.2 with fresh := g :: f.2.fresh }) else f }
  | some (num, false, x) =>
    modTcu s (teamOf s (teamKey g)).core x fun u => { u with faults := tellFault u.faults g num }

/-- The events of complete operations that a WAITPH acquires are taken from their books (R82); a rollback puts them back
(R84). -/
def takeEvents (s : State) (g : Nat) (obj : Word) (es : List DoneEvents) : State :=
  if es.isEmpty then s
  else
    let core := (teamOf s (teamKey g)).core
    let take := fun (e : DoneEvents) => if es.contains e then { e with taken := true } else e
    if tlClass obj == 1 then modTcu s core (tlWhich obj) fun u => { u with events := u.events.map take }
    else modMat s (pairOfCore core) fun q => { q with events := q.events.map fun e => (e.1, take e.2) }

/-- The events of several operations, in increasing timeline number, which `tl` gives as the team sees it (R346), and the lane
and the number of a crossing that traps (R82, R83). DESIGN CHOICE (log 51): where several operations of one WAITPH make
crossings that trap, the lane is the lowest of them all and the number that of the first. -/
def addEngine (s : State) (g : Nat) (pc : Word) (tl : Nat → Word) (es : List DoneEvents) : State × Option (Nat × Nat) :=
  let sorted := es.foldl (fun m e => SMap.put m e.num e) ([] : SMap DoneEvents)
  sorted.foldl (fun acc e =>
    let r := addEvents acc.1 g e.2.events pc (tl e.1)
    (r.1, match acc.2, r.2 with
      | none, some l => some (l, e.1)
      | some a, some l => some (Nat.min a.1 l, a.2)
      | a, none => a)) (s, none)

/-- A timeline's numbers as the team of a gang sees them (R346). -/
def tlNumber (s : State) (g : Nat) (obj : Word) (n : Nat) : Word :=
  if tlClass obj == 1 then teamNum (teamOf s (teamKey g)) (tlWhich obj) n else BitVec.ofNat 64 n

/-- Whether a rollback repairs the poison that an engine consumed (R337): it stands in the team's own scratchpad, the team wrote
it in this interval, and the command was issued since the checkpoint, so that the replay issues it again (R340). -/
def engineMends (s : State) (t : Nat) (r : FaultRec) : Bool :=
  let T := teamOf s t
  r.cause == .spue && r.master != 3 && canRollback s t && ((gangsOf s t).any fun g => (gangOf s g).slot == r.gang)
    && !beforeCkpt T r.unit ((r.tl.toNat : Int) + tlOffOf T r.unit).toNat
    && match windowOf r.addr with
      | .own off => off < T.spSize && (SMap.find T.wroteSp ((T.core * 2 ^ 18 + T.spBase + off) / 16)).isSome
      | _ => false

/-- A wait's answer takes effect (R166, R169, R170, R193): it completes and the run issues on, or it fails. A failure traps with
the engine's record; an engine's poison counts as consumed here, so that a rollback repairs it or the team falls back (R337,
R341), as it does after REPLAY (R366). Otherwise the run's threads wait, and a timeline of another
device is read there. DESIGN CHOICE (log 51): a WAITPH that waits counts in the window position (R82) when it completes. -/
def settleWait (s : State) (c : Issue) (kind : WaitKind) (obj val : Word) (acq : Bool) (ls : List Loc) (r : WaitRes) : State :=
  match r with
  | .yet =>
    let s := waitHere (if kind == .tl then pollFar s ls (.waitph c.g (lowThread c) val) obj else s) c
    modGang s c.g fun G => modThreads (uniChain G c.run false) c.run fun t => { t with wait := .phase kind obj val acq }
  | .fails rec_ told =>
    let s := markTold s c.g told
    let T := teamOf s (teamKey c.g)
    if engineMends s (teamKey c.g) rec_ then
      { rollNow (modTeam s (teamKey c.g) fun T => { T with st := .rolling false }) (teamKey c.g) with cur := none }
    else if (rec_.cause == .replay || rec_.cause == .spue) && T.idem && !T.everTaint then { flushTeam s (teamKey c.g) with cur := none }
    else takeTrap s c.g c.run rec_ c.pc
  | .done es =>
    let s := modGang (takeEvents s c.g obj es) c.g fun G => modThreads G c.run fun t => { t with wait := .none }
    let e := addEngine s c.g c.pc (tlNumber s c.g obj) es
    let s := caveNote e.1 c.g 2 c.pc
    let s := fallThrough (modGang s c.g fun G => uniChain G c.run false) c 4
    match e.2 with
    | none => s
    | some (l, n) =>
      let rpc := ((thr (gangOf s c.g) (lowLane c.run)).map (·.pc)).getD (c.pc + 4)
      takeTrap s c.g c.run { gangRec s c.g c.pc .evtthr 0 0 l 0 false with tl := tlNumber s c.g obj n } rpc

/-- What a WAITPH does first: the gang's stores, with those that may have written the barrier, are performed (R157). -/
def readyWait (s : State) (c : Issue) (kind : WaitKind) (obj : Word) : State :=
  if kind == .bar then
    match barPlaces s c.g (lowThread c) obj 8 with | .ok ls => drainOver s c.g ls | .error _ => drainGang s c.g
  else s

/-- WAITPH (R193): price 0. -/
def execWaitph (sa sb : Fin 64) (kind : WaitKind) (acq : Bool) (s : State) : Res :=
  issuing s fun c =>
    let G := gangOf s c.g
    let obj := sGet G sa.val
    let val := sGet G sb.val
    let s := readyWait s c kind obj
    match (do
        uniChecks G c (uniUse 0 [(8, sa.val), (9, sb.val)] none)
        let ls ← waitChecks s c kind obj val
        if kind == WaitKind.bar then writeGate s c.g ls else orderGate s c.g ls
        .ok ls) with
    | .error h => settle s c false h
    | .ok ls => settleWait s c kind obj val acq ls (waitRule s c kind obj val ls)

/-- The lanes that wait with thread `lane`: one run with one wait. -/
def waitGroup (G : Gang) (lane : Nat) : W32 :=
  match thr G lane with
  | none => 0
  | some t => laneSet fun l => match thr G l with | some u => u.pc == t.pc && u.wait == t.wait | none => false

/-- Whether a thread that waits cannot go on now: its gang is frozen, stopped or off its core, or another run's handler has the
gang. -/
def waitAway (s : State) (g lane : Nat) : Bool :=
  let G := gangOf s g
  G.frozen.isSome || G.stopped || ((teamOf s (teamKey g)).st != .running)
    || (match G.handler with | some m => !hasLane m lane | none => false)

/-- The fault that a thread meets which waits at a barrier whose FAULT is set (R169); a saved team meets none. -/
def waitFault (s : State) (g lane : Nat) : Option FaultRec :=
  match thr (gangOf s g) lane with
  | none => none
  | some t =>
    match t.wait with
    | .phase .bar obj _ _ =>
      let c : Issue := { g := g, run := waitGroup (gangOf s g) lane, pc := t.pc, issued := false }
      if (teamOf s (teamKey g)).st == .saved then none
      else match barPlaces s g (lowThread c) obj 8 with
        | .ok ls => if (readBar s ls).fault then some (barFaultRec s c ls) else none
        | .error _ => none
    | _ => none

/-- WAITPH_COMPLETE (R166, R169 to R171, R193): a waiting run's WAITPH completes or fails when its rule holds; a gang that
is frozen, stopped or off its core goes on waiting, but for a failure, which it keeps until it can trap (R169). -/
def execWaitphComplete (g lane : Nat) (s : State) : Res :=
  let G := gangOf s g
  match thr G lane with
  | none => .next s
  | some t =>
    let run := waitGroup G lane
    let c : Issue := { g := g, run := run, pc := t.pc, issued := false }
    match t.wait with
    | .phase kind obj val acq =>
      if waitAway s g lane then
        match waitFault s g lane with
        | some r => .next (modGang s g fun G => modThreads G run fun t => { t with wait := .failed r })
        | none => .next s
      else
        match waitChecks s c kind obj val with
        | .error h => .next { settle (modGang s g fun G => modThreads G run fun t => { t with wait := .none }) c false h with cur := none }
        | .ok ls =>
          match waitRule s c kind obj val ls with
          | .yet => .next s
          | r => .next { settleWait s c kind obj val acq ls r with cur := none }
    | .failed r =>
      if waitAway s g lane then .next s else .next { settleWait s c .bar 0 0 false [] (.fails r none) with cur := none }
    | _ => .next s

/-! ## Fences and completion timelines (R194, R195) -/

/-- What a fence awaits (R160, R161, R194): every answer to the gang's operations; where observers outside the core count, the
answers to the stores that its core has sent to other devices; and from device scope on the refusals and doubts too. -/
def fenceGate (s : State) (g : Nat) : Scope → Chk Unit
  | .gang | .team => need (gangOf s g).reqs.isEmpty .hold
  | .device | .domain | .system => releaseGate s g
  | _ => need ((gangOf s g).reqs.isEmpty && !awaitsFar s g && !keptBack s g) .hold

/-- What a fence does before it is tried: stores to other devices set out (R161). -/
def readyFence (s : State) (g : Nat) : Scope → State
  | .gang | .team => s
  | _ => sendFar s g

/-- FENCE (R194): the gang's stores drain as far as the scope needs, and it awaits what the scope needs. -/
def execFence (scope : Scope) (s : State) : Res :=
  issuing s fun c =>
    runPlain (readyFence s c.g scope) c (uniUse 1 [] none) fun s => do
      fenceGate s c.g scope
      .ok (drainFor s c.g scope)

/-- The places of the timeline of a TLADV (R195). -/
def tladvPlaces (s : State) (c : Issue) (va : Word) : Chk (List Loc) := do
  need (va.toNat % 8 == 0 && match windowOf va with | .global _ => true | _ => false) (prot 8 va (lowThread c))
  let ls ← genBytes s c.g (lowThread c) va accBarrier 8 8
  need (fmtAt s c.g (lowThread c) va == 0) (prot 8 va (lowThread c))
  .ok ls

/-- The effect of a TLADV on a timeline of this device. -/
def tladvBody (o : Ur3) (c : Issue) (s : State) : Chk State := do
  releaseGate s c.g
  let ls ← tladvPlaces s c (sGet (gangOf s c.g) o.sa.val)
  need (!pinned s ls) .hold
  let s := drainAll s c.g
  let old := BitVec.ofNat 64 (leNat (ls.map (locRead s)))
  let new := Word.maxU old (sGet (gangOf s c.g) o.sb.val)
  .ok (modGang (locWrites s (ls.zip (leBytes 8 new.toNat))) c.g fun G => wrS G o.sd.val old)

/-- TLADV (R195): a release at system scope; the timeline becomes max(current, s(Sb)) in one step at its home, and s(Sd)
receives the former value. -/
def execTladv (o : Ur3) (s : State) : Res :=
  issuing s fun c =>
    let va := sGet (gangOf s c.g) o.sa.val
    let l := lowThread c
    let u := uniUse 1 [(8, o.sa.val), (9, o.sb.val)] (some o.sd.val)
    let s := sendFar s c.g
    let gate : Chk (List Loc) := do
      uniChecks (gangOf s c.g) c u
      releaseGate s c.g
      tladvPlaces s c va
    match gate with
    | .ok (.remote dev x a :: t) =>
      match payTokens s c.g 1 false with
      | none => waitHere (placeResv s (.gang c.g) (gangOf s c.g).core 1) c
      | some s =>
        let s := drainAll s c.g
        let h : Header := { Header.blank with
          addr := BitVec.ofNat 64 a, operand := sGet (gangOf s c.g) o.sb.val, ident := identOf c.g, width := 2, op := 5 }
        let p : PendLoad := { id := s.nextId, lane := l, dest := .uni o.sd.val .n64, loc := .remote dev x a :: t, fmt := 0, sel := [],
                              va := va, pc := c.pc, run := c.run, zer := 0, len := 4, got := none, no := none }
        let s := modGang { s with nextId := s.nextId + 1 } c.g fun G => { G with loads := G.loads ++ [p] }
        { send s (.request dev h) with cur := some { c with issued := false } }
    | _ => runPlain s c u (tladvBody o c)

/-! ## CACHE and PAGEQ (R196, R197) -/

/-- A CACHE operation that changes no value (R196): l1drop, l2fetch, farhint. -/
def runCacheHint (s : State) (c : Issue) (sa sb : Fin 64) : State :=
  runUni s c (uniUse 2 [(8, sa.val), (9, sb.val)] none) fun s => .ok (s, [])

/-- CACHE.l1drop (R196). -/
def execCacheL1drop (sa sb : Fin 64) (s : State) : Res := issuing s fun c => runCacheHint s c sa sb
/-- CACHE.l2fetch (R196). -/
def execCacheL2fetch (sa sb : Fin 64) (s : State) : Res := issuing s fun c => runCacheHint s c sa sb
/-- CACHE.farhint (R196). -/
def execCacheFarhint (sa sb : Fin 64) (s : State) : Res := issuing s fun c => runCacheHint s c sa sb

/-- The places of a range, line by line, with the address of each line (R177); MMIO pages are left out (R179). -/
def zeroPlaces (s : State) (c : Issue) (va : Word) : Nat → Chk (List (Word × List Loc))
  | 0 => .ok []
  | n + 1 =>
    if (match genLeaf s c.g (lowThread c) va with | some e => leafMmio e | none => false) then zeroPlaces s c (va + 64) n
    else do
    let ls ← plainBytes s c.g (lowThread c) va accWrite 8 64
    let t ← zeroPlaces s c (va + 64) n
    .ok ((va, ls) :: t)

/-- The places of a CACHE.zero, line by line. -/
def zeroLines (s : State) (c : Issue) (sa sb : Fin 64) : Chk (List (Word × List Loc)) := do
  let va := sGet (gangOf s c.g) sa.val
  let n := (sGet (gangOf s c.g) sb.val).toNat
  need (va.toNat % 64 == 0) (prot 8 va (lowThread c))
  need (n % 64 == 0 && 64 ≤ n && n ≤ 65536) (prot 9 0 (lowThread c))
  let ps ← zeroPlaces s c va (n / 64)
  orderGate s c.g (ps.flatMap (·.2))
  .ok ps

/-- The stores of a CACHE.zero. -/
def pushZeros (s : State) (c : Issue) (ps : List (Word × List Loc)) : State :=
  ps.foldl (fun s p => pushStore s c (lowThread c) p.1 (p.2.map fun x => (x, 0))) s

/-- CACHE.zero (R196): plain stores of zero that enter the store queue in address order. -/
def execCacheZero (sa sb : Fin 64) (s : State) : Res :=
  issuing s fun c => runPlain s c (uniUse 2 [(8, sa.val), (9, sb.val)] none) fun s => do
    let ps ← zeroLines s c sa sb
    .ok (pushZeros s c ps)

/-- PAGEQ's result (R197, Table 6). -/
def pageqWord (s : State) (core ctx : Nat) (va : Word) : Word :=
  match windowOf va with
  | .global a =>
    match leafAt s core ctx a with
    | .leaf e big =>
      let far := leafPlace e == 3
      let pl := placeOf s (leafPhys e big a / 65536)
      BitVec.ofNat 64 (2 ^ 63 + (if far then 3 else pl.res) * 2 ^ 61 + (if far then 0 else pl.home) * 2 ^ 59
        + (if far then leafDev e else Config.deviceId.toNat) * 2 ^ 49 + leafFmt e * 2 ^ 47 + b2n big * 2 ^ 46
        + leafPlace e * 2 ^ 44 + b2n (leafRo e) * 2 ^ 43 + b2n (leafAtm e) * 2 ^ 42 + b2n (leafMmio e) * 2 ^ 41)
    | .absent .. => 0
  | _ => 0

/-- PAGEQ (R197). -/
def execPageq (o : Ur2) (s : State) : Res :=
  issuing s fun c =>
    runUni s c (uniUse 1 [(8, o.sa.val)] (some o.sd.val)) fun s =>
      let T := teamOf s (teamKey c.g)
      let w := pageqWord s T.core T.ctx (sGet (gangOf s c.g) o.sa.val)
      .ok (modGang s c.g fun G => wrS G o.sd.val w, [])

/-! ## A queued store drains (R158, R159) -/

/-- STORE_VISIBLE: the oldest store of a gang's queue becomes visible in its core, or an outbound store of a core is
performed. -/
def execStoreVisible (core : Nat) (g : Option Nat) (idx : Nat) (s : State) : Res :=
  match g with
  | some g => .next (popGang s g)
  | none => .next (popCore s core idx)

end Sys2Proof.Machine
end

