-- ==== Sys2Proof/Machine/Uniform.lean ====
section
/-!
DEFINITION. The uniform arithmetic group (R239 to R241), votes and lane moves (R242 to R244), and the state registers
(R31, R245).
-/
namespace Sys2Proof.Machine

/-- The use of a uniform arithmetic instruction: price 0 (R238). -/
def useUarith (sd : Fin 64) (reads : List (Nat × Nat)) (len : Nat) : UniUse :=
  { price := 0, reads := reads, dst := some sd.val, vregs := [], arith := true, len := len }

/-- A uniform arithmetic instruction (R238, R239): it reads s registers and writes s(Sd), with the events it raises
against the lowest thread of the run. -/
def runUarith (s : State) (sd : Fin 64) (reads : List (Nat × Nat)) (len : Nat) (f : Gang → Word × List Evt) : Res :=
  issuing s fun c =>
    runUni s c (useUarith sd reads len) fun s =>
      let r := f (gangOf s c.g)
      .ok (modGang s c.g fun G => wrS G sd.val r.1, r.2.map fun e => (e, lowThread c))

/-- The UR form with two sources. -/
def uarith3 (o : Ur3) (s : State) (f : Word → Word → Word) : Res :=
  runUarith s o.sd [(8, o.sa.val), (9, o.sb.val)] 4 fun G => (f (sGet G o.sa.val) (sGet G o.sb.val), [])

/-- The UR form with two sources and the U bit. -/
def uarith3u (o : Ur3u) (s : State) (f : Bool → Word → Word → Word × List Evt) : Res :=
  runUarith s o.sd [(8, o.sa.val), (9, o.sb.val)] 4 fun G => f o.u (sGet G o.sa.val) (sGet G o.sb.val)

/-- The UI form: b is the sign-extended immediate. -/
def uarithUi (o : Ui) (s : State) (f : Word → Word → Word) : Res :=
  runUarith s o.sd [(8, o.sa.val)] 4 fun G => (f (sGet G o.sa.val) (BitVec.signExtend 64 o.imm), [])

/-- The one-source form. -/
def uarith2 (o : Ur2) (s : State) (f : Word → Word) : Res :=
  runUarith s o.sd [(8, o.sa.val)] 4 fun G => (f (sGet G o.sa.val), [])

/-- Shift counts of 64 and more give 0, or the sign (R239). -/
def ushlW (a b : Word) : Word := if 64 ≤ b.toNat then 0 else a <<< b.toNat
def ushrW (a b : Word) : Word := if 64 ≤ b.toNat then 0 else a >>> b.toNat
def usarW (a b : Word) : Word := BitVec.sshiftRight a (Nat.min b.toNat 64)

/-- The high 64 bits of the product (R239). -/
def umulhW (u : Bool) (a b : Word) : Word :=
  if u then BitVec.ofNat 64 (a.toNat * b.toNat / 2 ^ 64) else BitVec.ofInt 64 (a.toInt * b.toInt / 2 ^ 64)

def uminW (u : Bool) (a b : Word) : Word := if (if u then b.ult a else b.slt a) then b else a
def umaxW (u : Bool) (a b : Word) : Word := if (if u then a.ult b else a.slt b) then b else a

/-- The two corners of division that count IDZ (R240). -/
def divCorner (u : Bool) (a b : Word) : Bool := b == 0 || (!u && a == BitVec.intMin 64 && b == -1)

/-- UDIV's result (R240). -/
def udivW (u : Bool) (a b : Word) : Word × List Evt :=
  let q := if b == 0 then BitVec.allOnes 64 else if u then a / b else BitVec.ofInt 64 (a.toInt.tdiv b.toInt)
  (q, if divCorner u a b then [.idz] else [])

/-- UREM's result (R240). -/
def uremW (u : Bool) (a b : Word) : Word × List Evt :=
  let r := if b == 0 then a else if u then a % b else BitVec.ofInt 64 (a.toInt.tmod b.toInt)
  (r, if divCorner u a b then [.idz] else [])

/-- The condition word of UCMP (R241, Table 2). -/
def condWord (a b : Word) : Word :=
  let cs := [a == b, a != b, a.slt b, !(b.slt a), b.slt a, !(a.slt b), a.ult b, !(b.ult a), b.ult a, !(a.ult b),
             a &&& b != 0, a &&& b == 0]
  BitVec.ofNat 64 (cs.zipIdx.foldl (fun n e => n + b2n e.1 * 2 ^ e.2) 0)

/-- Set bits of a word. -/
def popcW (a : Word) : Word := BitVec.ofNat 64 ((List.range 64).filter fun i => a.getLsbD i).length
/-- Zero bits above the highest set bit. -/
def clzW (a : Word) : Word := BitVec.ofNat 64 (if a == 0 then 64 else 63 - Nat.log2 a.toNat)

/-- UADD (R239). -/
def execUadd (o : Ur3) (s : State) : Res := uarith3 o s fun a b => a + b
/-- UADD, immediate (R239). -/
def execUaddUi (o : Ui) (s : State) : Res := uarithUi o s fun a b => a + b
/-- USUB (R239). -/
def execUsub (o : Ur3) (s : State) : Res := uarith3 o s fun a b => a - b
/-- UMUL (R239). -/
def execUmul (o : Ur3) (s : State) : Res := uarith3 o s fun a b => a * b
/-- UMUL, immediate (R239). -/
def execUmulUi (o : Ui) (s : State) : Res := uarithUi o s fun a b => a * b
/-- UMULH (R239). -/
def execUmulh (o : Ur3u) (s : State) : Res := uarith3u o s fun u a b => (umulhW u a b, [])
/-- UDIV (R240). -/
def execUdiv (o : Ur3u) (s : State) : Res := uarith3u o s udivW
/-- UREM (R240). -/
def execUrem (o : Ur3u) (s : State) : Res := uarith3u o s uremW
/-- UAND (R239). -/
def execUand (o : Ur3) (s : State) : Res := uarith3 o s fun a b => a &&& b
/-- UAND, immediate (R239). -/
def execUandUi (o : Ui) (s : State) : Res := uarithUi o s fun a b => a &&& b
/-- UOR (R239). -/
def execUor (o : Ur3) (s : State) : Res := uarith3 o s fun a b => a ||| b
/-- UOR, immediate (R239). -/
def execUorUi (o : Ui) (s : State) : Res := uarithUi o s fun a b => a ||| b
/-- UXOR (R239). -/
def execUxor (o : Ur3) (s : State) : Res := uarith3 o s fun a b => a ^^^ b
/-- UXOR, immediate (R239). -/
def execUxorUi (o : Ui) (s : State) : Res := uarithUi o s fun a b => a ^^^ b
/-- UANDN (R239). -/
def execUandn (o : Ur3) (s : State) : Res := uarith3 o s fun a b => a &&& ~~~b
/-- USHL (R239). -/
def execUshl (o : Ur3) (s : State) : Res := uarith3 o s ushlW
/-- USHL, immediate (R239). -/
def execUshlUi (o : Ui) (s : State) : Res := uarithUi o s ushlW
/-- USHR (R239). -/
def execUshr (o : Ur3) (s : State) : Res := uarith3 o s ushrW
/-- USHR, immediate (R239). -/
def execUshrUi (o : Ui) (s : State) : Res := uarithUi o s ushrW
/-- USAR (R239). -/
def execUsar (o : Ur3) (s : State) : Res := uarith3 o s usarW
/-- USAR, immediate (R239). -/
def execUsarUi (o : Ui) (s : State) : Res := uarithUi o s usarW
/-- UMIN (R239). -/
def execUmin (o : Ur3u) (s : State) : Res := uarith3u o s fun u a b => (uminW u a b, [])
/-- UMIN, immediate: signed (R239). -/
def execUminUi (o : Ui) (s : State) : Res := uarithUi o s (uminW false)
/-- UMAX (R239). -/
def execUmax (o : Ur3u) (s : State) : Res := uarith3u o s fun u a b => (umaxW u a b, [])
/-- UMAX, immediate: signed (R239). -/
def execUmaxUi (o : Ui) (s : State) : Res := uarithUi o s (umaxW false)
/-- UCMP (R241). -/
def execUcmp (o : Ur3) (s : State) : Res := uarith3 o s condWord
/-- UCMP, immediate (R241). -/
def execUcmpUi (o : Ui) (s : State) : Res := uarithUi o s condWord

/-- USEL (R239). -/
def execUsel (o : Ur3) (sc : Fin 64) (s : State) : Res :=
  runUarith s o.sd [(8, o.sa.val), (9, o.sb.val), (10, sc.val)] 4 fun G =>
    (if sGet G sc.val != 0 then sGet G o.sa.val else sGet G o.sb.val, [])

/-- UMOV (R239). -/
def execUmov (o : Ur2) (s : State) : Res := uarith2 o s fun a => a
/-- UPOPC (R239). -/
def execUpopc (o : Ur2) (s : State) : Res := uarith2 o s popcW
/-- UCLZ (R239). -/
def execUclz (o : Ur2) (s : State) : Res := uarith2 o s clzW
/-- UMOVI (R239). -/
def execUmovi (sd : Fin 64) (imm : BitVec 12) (s : State) : Res :=
  runUarith s sd [] 4 fun _ => (BitVec.signExtend 64 imm, [])
/-- ULIT (R239). -/
def execUlit (sd : Fin 64) (lo hi : W32) (s : State) : Res := runUarith s sd [] 12 fun _ => (hi ++ lo, [])

/-! ## Between lanes and the gang (R242 to R244) -/

/-- The threads of a run whose predicate reads 1. -/
def voters (G : Gang) (run : W32) (p : Nat) : W32 := laneSet fun l => hasLane run l && pGet G p l

/-- UVOTE (R242). -/
def execUvote (sd : Fin 64) (p : Fin 8) (mode : VoteMode) (s : State) : Res :=
  issuing s fun c =>
    runUni s c (uniUse 1 [] (some sd.val)) fun s =>
      let on := voters (gangOf s c.g) c.run p.val
      let x : Word := match mode with
        | .ballot => BitVec.zeroExtend 64 on
        | .all => BitVec.ofNat 64 (b2n (on == c.run))
        | .any => BitVec.ofNat 64 (b2n (on != 0))
        | .count => BitVec.ofNat 64 (lanesOf on).length
      .ok (modGang s c.g fun G => wrS G sd.val x, [])

/-- The uses of ULANE.get and of ULANE.put. -/
def useLaneGet (sd va sb : Fin 64) : UniUse :=
  { price := 1, reads := [(9, sb.val)], dst := some sd.val, vregs := [(8, va.val)], arith := false, len := 4 }
def useLanePut (vd sa sb : Fin 64) : UniUse :=
  { price := 1, reads := [(8, sa.val), (9, sb.val)], dst := none, vregs := [(7, vd.val)], arith := false, len := 4 }

/-- ULANE.get (R243). -/
def execUlaneGet (sd va sb : Fin 64) (s : State) : Res :=
  issuing s fun c =>
    runUni s c (useLaneGet sd va sb) fun s => do
      let G := gangOf s c.g
      let l := Word.fld (sGet G sb.val) 0 5
      if hasLane c.run l then
        noHalt (lateRead G (laneBit l) [(8, .v va)])
        noHalt (poisonV G (laneBit l) va.val (2 ^ 64 - 1) 8)
        .ok (modGang s c.g fun G => wrS G sd.val (vGet G va.val l), [])
      else .ok (modGang s c.g fun G => wrS G sd.val 0, [])

/-- ULANE.put (R243). -/
def execUlanePut (vd sa sb : Fin 64) (s : State) : Res :=
  issuing s fun c =>
    runUni s c (useLanePut vd sa sb) fun s =>
      let G := gangOf s c.g
      let l := Word.fld (sGet G sb.val) 0 5
      .ok (if hasLane c.run l then modGang s c.g fun G => wrV G vd.val l (sGet G sa.val) (2 ^ 64 - 1) else s, [])

/-- ELECT (R244). -/
def execElect (sd : Fin 64) (p : Fin 8) (s : State) : Res :=
  issuing s fun c =>
    runUni s c (uniUse 0 [] (some sd.val)) fun s =>
      let l := lowThread c
      let put := fun (G : Gang) => (lanesOf c.run).foldl (fun G k => pPut G p.val k (k == l)) G
      .ok (modGang s c.g fun G => put (wrS G sd.val (BitVec.ofNat 64 l)), [])

/-! ## State registers (R31, R245) -/

/-- Whether USET accepts an access number (R31, Table 4): the RW registers. -/
def usetOk (n : Nat) : Bool :=
  [0x081, 0x082, 0x0C0, 0x0C1, 0x0C2, 0x0C4, 0x0C5, 0x0C6, 0x100, 0x101, 0x107, 0x140, 0x141].contains n
    || (0x180 ≤ n && n ≤ 0x188) || (0x190 ≤ n && n ≤ 0x198)

/-- Whether UGET accepts an access number: every assigned one (R31, Table 4). -/
def ugetOk (n : Nat) : Bool := saveRegs.contains n

/-- What a register holds after a USET of `x` (R4, R31, R81, R122, R254). -/
def usetValue (G : Gang) (n : Nat) (x : Word) : Word :=
  let old := (srGet G n).toNat
  let v := x.toNat
  if n == rFpMode then BitVec.ofNat 64 (if fld v 0 3 ≤ 4 then fld v 0 3 else old)
  else if n == rSliLx || (0x190 ≤ n && n ≤ 0x198) then BitVec.ofNat 64 (fld v 0 32)
  else if 0x180 ≤ n && n ≤ 0x188 then
    BitVec.ofNat 64 (fld v 16 32 * 2 ^ 16 + (if fld v 8 2 == 3 then fld old 8 2 else fld v 8 2) * 2 ^ 8
      + (if 48 ≤ fld v 0 6 then fld old 0 6 else fld v 0 6))
  else if [0x0C1, 0x0C2, 0x0C5, 0x0C6].contains n then BitVec.ofNat 64 (fld v 0 57)
  else x

/-- A state register written (R82, R245): a write of an event register opens its window, and the loop runs on a new LOOP.COUNT,
whose SET may be all held (R255, R257). -/
def usetGang (G : Gang) (n : Nat) (x : Word) : Gang :=
  let G := srPut G n (usetValue G n x)
  if n == rLoopCount then loopSettle G
  else if 0x180 ≤ n && n ≤ 0x188 then srPut { G with winPos := SMap.putD G.winPos 0 (n - 0x180) 0 } (rEvtCnt (n - 0x180)) 0
  else if 0x190 ≤ n && n ≤ 0x198 then { G with winPos := SMap.putD G.winPos 0 (n - 0x190) 0 }
  else G

/-- UGET (R245). -/
def execUget (sd : Fin 64) (num : BitVec 12) (s : State) : Res :=
  issuing s fun c =>
    runUni s c (uniUse 0 [] (some sd.val)) fun s =>
      match stateReg s c.g num.toNat with
      | none => .error (.bad .illenc 10 0x0A 0xFF 0)
      | some w => .ok (modGang s c.g fun G => wrS G sd.val w, [])

/-- USET (R245). -/
def execUset (sd : Fin 64) (num : BitVec 12) (s : State) : Res :=
  issuing s fun c =>
    runUni s c (uniUse 0 [(7, sd.val)] none) fun s => do
      need (usetOk num.toNat) (.bad .illenc 10 0x0A 0xFF 0)
      .ok (modGang s c.g fun G => usetGang G num.toNat (sGet G sd.val), [])

/-- EVENT_WINDOW_EXPIRE (R82): at position 2^WLOG a fresh window opens. -/
def execEventWindowExpire (g cls : Nat) (s : State) : Res :=
  let G := gangOf s g
  if (SMap.find s.gangs g).isSome && cls < 9 && 2 ^ Word.fld (srGet G (rEvt cls)) 0 6 ≤ SMap.getD G.winPos cls 0 then
    .next (modGang s g fun G => srPut { G with winPos := SMap.putD G.winPos 0 cls 0 } (rEvtCnt cls) 0)
  else .next s

end Sys2Proof.Machine
end

