-- ==== Sys2Proof/Machine/Control.lean ====
section
/-!
DEFINITION. Control (R246 to R261): branches, votes, calls, lane-varying calls and worker gangs, hardware loops, exits,
SPAWN, and TRAP, ERET and BKPT (R332, R333, R380).
-/
namespace Sys2Proof.Machine

/-! ## Branches (R246 to R250) -/

/-- A control instruction's use: price 0, no destination. -/
def ctlUse (reads : List (Nat × Nat)) (len : Nat) : UniUse :=
  { price := 0, reads := reads, dst := none, vregs := [], arith := false, len := len }

/-- The course of an instruction that moves its run: the effect, then the move, then the end of the instruction. -/
def runMove (s : State) (c : Issue) (u : UniUse) (body : State → Chk (State × (Gang → Gang))) : State :=
  runUniTo s c u fun s => do
    let r ← body s
    .ok (r.1, fun s => retire (modGang s c.g r.2) c (c.pc + BitVec.ofNat 64 u.len))

/-- Threads branch to a target; every latch chain of the run ends (R246). -/
def takeBranch (m : W32) (target : Word) (leave : Bool) (G : Gang) : Gang :=
  branchTo { G with chain := none, chainEnd := .never } m target leave

/-- Threads fall through. -/
def fallTo (c : Issue) (m : W32) (len : Nat) (G : Gang) : Gang := moveThreads G m (c.pc + BitVec.ofNat 64 len)

/-- The target of a UB offset. -/
def ubTarget (c : Issue) (off : BitVec 21) : Word := c.pc + BitVec.ofInt 64 (sext 21 off.toNat * 4)

/-- UBR (R247). -/
def execUbr (p : Fin 8) (off : BitVec 21) (s : State) : Res :=
  issuing s fun c => runMove s c (ctlUse [] 4) fun s =>
    .ok (s, if voters (gangOf s c.g) c.run p.val != 0 then takeBranch c.run (ubTarget c off) true else fallTo c c.run 4)

/-- UJMP (R247). -/
def execUjmp (off : BitVec 21) (s : State) : Res :=
  issuing s fun c => runMove s c (ctlUse [] 4) fun s => .ok (s, takeBranch c.run (ubTarget c off) true)

/-- The tested value of UBRZ and UBRNZ is 0 (R248). -/
def testZero (G : Gang) (sel sa : Fin 64) : Bool :=
  if sel.val = 0 then sGet G sa.val == 0 else !((sGet G sa.val).getLsbD (sel.val - 1))

/-- UBRZ and UBRNZ branch on the test (R248). -/
def runTest (s : State) (sel sa : Fin 64) (off : BitVec 12) (onZero : Bool) : Res :=
  issuing s fun c => runMove s c (ctlUse [(8, sa.val)] 4) fun s =>
    let target := c.pc + BitVec.ofInt 64 (sext 12 off.toNat * 4)
    .ok (s, if testZero (gangOf s c.g) sel sa == onZero then takeBranch c.run target true else fallTo c c.run 4)

/-- UBRZ (R248). -/
def execUbrz (sel sa : Fin 64) (off : BitVec 12) (s : State) : Res := runTest s sel sa off true
/-- UBRNZ (R248). -/
def execUbrnz (sel sa : Fin 64) (off : BitVec 12) (s : State) : Res := runTest s sel sa off false

/-- The vote registers after an outcome (R249). -/
def voteRegs (G : Gang) (outcome : Nat) : Gang :=
  let r := if outcome == 2 then rVoteDiv else rVoteUni
  srPut (srPut G rVoteLast (BitVec.ofNat 64 outcome)) r (srGet G r + 1)

/-- The branch on a vote (R235, R249). -/
def runVote (s : State) (p : Fin 8) (off : BitVec 21) (third : Option W32) : Res :=
  let len := if third.isSome then 8 else 4
  issuing s fun c => runMove s c (ctlUse [] len) fun s =>
    let t := voters (gangOf s c.g) c.run p.val
    let f := c.run &&& ~~~t
    if f == 0 then .ok (s, fun G => takeBranch c.run (ubTarget c off) true (voteRegs G 0))
    else if t == 0 then .ok (s, fun G => fallTo c c.run len (voteRegs G 1))
    else
      let s := pmcCount s (gangOf s c.g).core 4 1
      match third with
      | some d => .ok (s, fun G => takeBranch c.run (c.pc + BitVec.signExtend 64 d) true (voteRegs G 2))
      | none => .ok (s, fun G => takeBranch t (ubTarget c off) true (fallTo c f len (voteRegs G 2)))

/-- BRV with two targets (R249). -/
def execBrv (p : Fin 8) (off : BitVec 21) (s : State) : Res := runVote s p off none
/-- BRV with a divergent target (R249). -/
def execBrvDivergent (p : Fin 8) (off : BitVec 21) (dv : W32) (s : State) : Res := runVote s p off (some dv)

/-- A register target must be 4-byte aligned (R39). -/
def alignedTarget (t : Word) (lane field : Nat) : Chk Unit := need (t.toNat % 4 == 0) (prot field t lane)

/-- The link register of each thread (R250). -/
def putLinks (c : Issue) (v : Nat) (len : Nat) (G : Gang) : Gang :=
  (lanesOf c.run).foldl (fun G l => wrV G v l (c.pc + BitVec.ofNat 64 len) (2 ^ 64 - 1)) G

/-- CALL (R250): `l` names v(8l + 7). -/
def execCall (l : Fin 8) (off : BitVec 21) (s : State) : Res :=
  let v := 8 * l.val + 7
  issuing s fun c => runMove s c { ctlUse [] 4 with vregs := [(12, v)] } fun s =>
    .ok (modGang s c.g (putLinks c v 4), takeBranch c.run (ubTarget c off) false)

/-- CALLI (R250). -/
def execCalli (vl sa : Fin 64) (s : State) : Res :=
  issuing s fun c => runMove s c { ctlUse [(8, sa.val)] 4 with vregs := [(7, vl.val)] } fun s => do
    let t := sGet (gangOf s c.g) sa.val
    alignedTarget t (lowThread c) 8
    .ok (modGang s c.g (putLinks c vl.val 4), takeBranch c.run t false)

/-- The v register that a control instruction reads in every thread of its run: late answers and poison first. -/
def readTargets (s : State) (c : Issue) (va : Fin 64) : Chk Unit := do
  let G := gangOf s c.g
  noHalt (lateRead G c.run [(8, .v va)])
  noHalt (poisonV G c.run va.val (2 ^ 64 - 1) 8)
  let bad := (lanesOf c.run).find? fun l => (vGet G va.val l).toNat % 4 != 0
  match bad with
  | some l => alignedTarget (vGet G va.val l) l 8
  | none => .ok ()

/-- RET (R250): every thread to its own address. -/
def execRet (va : Fin 64) (s : State) : Res :=
  issuing s fun c => runMove s c { ctlUse [] 4 with vregs := [(8, va.val)] } fun s => do
    readTargets s c va
    let at_ := fun (l : Nat) => vGet (gangOf s c.g) va.val l
    .ok (s, fun G =>
      let G := (lanesOf c.run).foldl (fun G l => moveThreads G (laneBit l) (at_ l)) { G with chain := none, chainEnd := .never }
      let out := laneSet fun l => hasLane c.run l &&
        ((at_ l).toNat < (srGet G rLoopStart).toNat || (srGet G rLoopEnd).toNat < (at_ l).toNat)
      loopLeave G out)

/-! ## Lane-varying calls (R236, R251 to R253) -/

/-- Whether a team has worker gangs. -/
def hasWorkers (s : State) (t : Nat) : Bool := (gangsOf s t).any fun g => (gangOf s g).role == .worker

/-- The queue of a target (R236). -/
def dispQueue (T : Team) (target : Nat) : Option (List DispItem) := (T.queues.find? fun q => q.1 == target).map (·.2)

/-- An item joins the queue of its target; `none` while the target has no queue and 16 are in use (R236). -/
def queueItem (T : Team) (target : Nat) (i : DispItem) : Option Team :=
  match dispQueue T target with
  | some _ => some { T with queues := T.queues.map fun q => if q.1 == target then (q.1, q.2 ++ [i]) else q }
  | none => if T.queues.length < 16 then some { T with queues := T.queues ++ [(target, [i])] } else none

/-- The item of a lane: its v0 to v7 (R236). -/
def itemOf (G : Gang) (g l : Nat) : DispItem :=
  { caller := { gang := g, lane := l }, regs := (List.range 8).map fun r => vGet G r l }

/-- A lane is queued, or waits for a queue (R236, R251). -/
def queueLane (s : State) (g l : Nat) (target : Word) : State :=
  let t := teamKey g
  let wait := fun (w : Wait) (s : State) => modGang s g fun G => modThreads G (laneBit l) fun x => { x with wait := w }
  match queueItem (teamOf s t) target.toNat (itemOf (gangOf s g) g l) with
  | some T => wait .dispatch (setTeam s t T)
  | none => wait (.dispatchLate target) s

/-- The inline calls that a thread is in (R253). -/
def inlineDepth (G : Gang) (l : Nat) : Nat :=
  (G.calls.filter fun k => hasLane (k.active ||| k.done) l || k.pending.any fun p => hasLane p.2 l).length

/-- The run's lanes grouped by target, in increasing address order (R253). -/
def byTarget (G : Gang) (run : W32) (va : Nat) : List (Nat × W32) :=
  (lanesOf run).foldl (fun m l =>
    let t := (vGet G va l).toNat
    SMap.put m t (SMap.getD m t 0 ||| laneBit l)) []

/-- The first of a list that meets a condition, changed. -/
def modFirst {α : Type} (p : α → Bool) (f : α → α) : List α → List α
  | [] => []
  | x :: t => if p x then f x :: t else x :: modFirst p f t

/-- Advances the innermost inline call whose group has returned or exited (R253): the next group starts, or after the
last one every thread stands at the return address. -/
def settleCalls (G : Gang) : Nat → Gang
  | 0 => G
  | fuel + 1 =>
    let live := liveLanes G
    let ended := fun (k : InlineCall) => (k.active &&& live &&& ~~~k.returned) == 0
    match G.calls.find? ended with
    | none => G
    | some k =>
      let G := modThreads G (k.active &&& live) fun t => { t with pc := k.ret, wait := .inlineCall }
      let done := k.done ||| k.active
      match k.pending with
      | (t, m) :: rest =>
        let G := modThreads G (m &&& live) fun x => { x with pc := BitVec.ofNat 64 t, wait := .none }
        let k' := { k with active := m, done := done, returned := 0, pending := rest }
        settleCalls { G with calls := modFirst ended (fun _ => k') G.calls } fuel
      | [] =>
        let G := modThreads G (done &&& live) fun x => { x with wait := .none }
        let G := { G with calls := G.calls.eraseP ended }
        settleCalls (loopArrive G (done &&& live) (k.ret - 4) k.ret) fuel

/-- The use of DISPATCH. -/
def useDispatch (va : Fin 64) : UniUse :=
  { price := 2, reads := [], dst := none, vregs := [(8, va.val)], arith := false, len := 4 }

/-- The lanes of a run are queued for worker gangs, in lane order (R251). -/
def queueRun (s : State) (c : Issue) (va : Fin 64) : State :=
  (lanesOf c.run).foldl (fun s l => queueLane s c.g l (vGet (gangOf s c.g) va.val l)) s

/-- The lanes of a run call inline, one target at a time, the lowest first (R253). -/
def startInline (c : Issue) (va : Fin 64) (G : Gang) : Gang :=
  match byTarget G c.run va.val with
  | [] => G
  | (t, m) :: rest =>
    let G := { G with chain := none, chainEnd := .never }
    let G := modThreads G c.run fun x => { x with wait := .inlineCall }
    let G := modThreads G m fun x => { x with pc := BitVec.ofNat 64 t, wait := .none }
    { G with calls := { ret := c.pc + 4, active := m, done := 0, returned := 0, pending := rest } :: G.calls }

/-- Whether a gang's DISPATCH goes to worker gangs: its team has some, and it is none of them (R251, R253). -/
def dispatchesAway (s : State) (g : Nat) : Bool := (gangOf s g).role != .worker && hasWorkers s (teamKey g)

/-- DISPATCH (R251, R253): a release at team scope. -/
def execDispatch (va : Fin 64) (s : State) : Res :=
  issuing s fun c =>
    runUniTo (sendFar s c.g) c (useDispatch va) fun s => do
      let G := gangOf s c.g
      readTargets s c va
      releaseGate s c.g
      let away := dispatchesAway s c.g
      match (lanesOf c.run).find? fun l => !away && 8 ≤ inlineDepth G l with
      | some l => .error (prot 0 0 l)
      | none =>
        let s := caveNote (drainGang s c.g) c.g 4 c.pc
        if away then .ok (s, fun s => queueRun (countIssue s c) c va)
        else .ok (s, fun s => modGang (countIssue s c) c.g (startInline c va))

/-- Whether a lane runs in an inline call. -/
def runsIn (l : Nat) (k : InlineCall) : Bool := hasLane (k.active &&& ~~~k.returned) l

/-- The innermost inline call that a lane runs in. -/
def inlineOf (G : Gang) (l : Nat) : Option InlineCall := G.calls.find? (runsIn l)

/-- The caller of an item gets its results and stands after its DISPATCH (R252). -/
def returnItem (s : State) (w l : Nat) (k : Caller) : State :=
  let W := gangOf s w
  modGang s k.gang fun G =>
    let G := [0, 1, 2, 3].foldl (fun G r => wrV G r k.lane (vGet W r l) (2 ^ 64 - 1)) G
    match thr G k.lane with
    | none => G
    | some t =>
      let G := modThreads G (laneBit k.lane) fun x => { x with pc := t.pc + 4, wait := .none }
      loopArrive G (laneBit k.lane) t.pc (t.pc + 4)

/-- DRET of one lane (R252, R253). -/
def dretLane (s : State) (c : Issue) (l : Nat) : State :=
  let G := gangOf s c.g
  match inlineOf G l with
  | some _ =>
    modGang s c.g fun G =>
      { modThreads G (laneBit l) (fun x => { x with wait := .inlineCall }) with
        calls := modFirst (runsIn l) (fun k => { k with returned := k.returned ||| laneBit l }) G.calls }
  | none =>
    match SMap.find G.formed l with
    | none => s
    | some k =>
      let s := returnItem s c.g l k
      modGang s c.g fun G => loopDrop { dropThreads G (laneBit l) with formed := SMap.erase G.formed l } (laneBit l)

/-- DRET (R252, R253): a release at team scope. -/
def execDret (s : State) : Res :=
  issuing s fun c => runUniTo (sendFar s c.g) c (ctlUse [] 4) fun s => do
    let G := gangOf s c.g
    match (lanesOf c.run).find? fun l => (inlineOf G l).isNone && (SMap.find G.formed l).isNone with
    | some l => .error (prot 0 0 l)
    | none =>
      releaseGate s c.g
      .ok (drainGang s c.g, fun s =>
        let s := countIssue s c
        let s := (lanesOf c.run).foldl (fun s l => dretLane s c l) s
        modGang s c.g fun G => settleCalls { G with chain := none, chainEnd := .never } 64)

/-- The queue a worker gang serves: the fullest, the lowest address among equals (R236). -/
def fullestQueue (qs : List (Nat × List DispItem)) : Option (Nat × List DispItem) :=
  qs.foldl (fun r q => match r with
    | none => some q
    | some b => if b.2.length < q.2.length || (b.2.length == q.2.length && q.1 < b.1) then some q else some b) none

/-- WORKER_FORMATION (R236): an idle worker gang takes up to 32 items; its lanes' other registers read 0. -/
def execWorkerFormation (g : Nat) (s : State) : Res :=
  let t := teamKey g
  let G := gangOf s g
  let T := teamOf s t
  let idle := (SMap.find s.gangs g).isSome && G.role == .worker && G.threads.isEmpty && T.st == .running && !G.stopped
    && G.frozen.isNone && !G.exiting
  match idle, fullestQueue T.queues with
  | true, some (target, items) =>
    let take := items.take 32
    let rest := items.drop 32
    let queues := if rest.isEmpty then T.queues.filter fun q => q.1 != target
      else T.queues.map fun q => if q.1 == target then (q.1, rest) else q
    let G := { G with v := [], p := [], x := [], chain := none, chainEnd := .never, poisonV := [] }
    let G := take.zipIdx.foldl (fun G e =>
      let G := (List.range 8).foldl (fun G r => wrV G r e.2 ((e.1.regs[r]?).getD 0) (2 ^ 64 - 1)) G
      { G with threads := G.threads ++ [(e.2, { pc := BitVec.ofNat 64 target, held := false, wait := .none })],
               formed := G.formed ++ [(e.2, e.1.caller)] }) { G with threads := [], formed := [] }
    let s := setGang s g { G with wroteV := (List.range (64 * 32 * 2)).map fun k => (k, 1) }
    .next (setTeam s t { T with queues := queues })
  | _, _ => .next s

/-- DISPATCH_LATE_QUEUE (R236): a lane that waits unqueued is queued once its target has a queue or one is free. -/
def execDispatchLateQueue (g lane : Nat) (s : State) : Res :=
  match thr (gangOf s g) lane with
  | some { wait := .dispatchLate target, .. } => .next (queueLane s g lane target)
  | _ => .next s

/-! ## Hardware loops (R254 to R258) -/

/-- A fetch fault of the instruction at a loop's end, as ULOOP raises it (R256). -/
def loopFetch (h : Halt) : Halt :=
  match h with
  | .bad c _ sub _ a => .bad c 10 sub 0xFF a
  | .page va k _ _ => .page va k 0xFF 10
  | h => h

/-- Bytes of the instruction at an address by R39, with the lead-word fault that it raises (R256). -/
def lengthAt (s : State) (g : Nat) (pc : Word) : Chk Nat :=
  match fetchInstr s g pc with
  | .error h => .error (loopFetch h)
  | .ok ws =>
    let r := afterLeads ws
    match r.2 with
    | w :: _ =>
      if (!wUni w && (wOp w == 0x7D || wOp w == 0x7E)) || (wUni w && r.1) then .error (.bad .illenc 10 0x05 0xFF 0)
      else .ok (4 * ws.length)
    | [] => .ok (4 * ws.length)

/-- ULOOP (R256). -/
def execUloop (cnt : LoopCnt) (last : W32) (s : State) : Res :=
  issuing s fun c =>
    let u := ctlUse (match cnt with | .reg sa => [(8, sa.val)] | .const _ => []) 8
    runMove s c u fun s => do
      let G := gangOf s c.g
      let n := match cnt with | .reg sa => (sGet G sa.val).toNat | .const k => k.toNat
      let off := last.toInt
      let e := c.pc + BitVec.ofInt 64 off
      let l := 0xFF
      need (n < 2 ^ 32) (prot 8 0 l)
      need (8 ≤ off) (prot 10 0 l)
      need (loopDepth G != 2) (prot 0 0 l)
      need (loopDepth G != 1 || ((c.run &&& ~~~(loopSet G)) == 0 && e.toNat ≤ (srGet G rLoopEnd).toNat)) (prot 0 0 l)
      if n == 0 then
        let k ← lengthAt s c.g e
        .ok (s, takeBranch c.run (e + BitVec.ofNat 64 k) false)
      else
        .ok (s, fun G =>
          let G := if loopDepth G == 1 then
            srPut (srPut (srPut G rLoopCount1 (srGet G rLoopCount)) rLoopStart1 (srGet G rLoopStart)) rLoopEnd1 (srGet G rLoopEnd)
            else G
          let d := loopDepth G
          let G := srPut (srPut (srPut G rLoopCount (loopWord c.run n)) rLoopStart (c.pc + 8)) rLoopEnd e
          fallTo c c.run 8 (srPut G rLoopDepth (BitVec.ofNat 64 (d + 1))))

/-! ## Ending, yielding, spawning (R259 to R261) -/

/-- EXIT (R252, R259): the threads leave the PC table and every loop set; the gang exits with its last thread. -/
def execExit (s : State) : Res :=
  issuing s fun c => runUniTo s c (ctlUse [] 4) fun s => do
    let G := gangOf s c.g
    need (G.role != .worker) (prot 0 0 (lowThread c))
    noHalt ((lateFor G (fun d => d == .none)).map fun f => .late f 0 0xFF)
    need (G.reqs.all fun r => r.dest != .none) .hold
    .ok (s, fun s =>
      let s := countIssue s c
      modGang s c.g fun G =>
        let G := loopDrop { dropThreads G c.run with chain := none, chainEnd := .never } c.run
        let G := settleCalls G 64
        { G with exiting := G.threads.isEmpty })

/-- YIELD (R233, R260). -/
def execYield (s : State) : Res :=
  issuing s fun c => runUniTo s c (ctlUse [] 4) fun s =>
    .ok (s, fun s =>
      let next := nextRun (gangOf s c.g) c.pc
      modGang (fallThrough s c 4) c.g fun G => { G with single := next })

/-- NOP (R260). -/
def execNop (s : State) : Res := issuing s fun c => runUni s c (ctlUse [] 4) fun s => .ok (s, [])

/-- PENDING of a join counter rises by 1 (R261); `none` where the counter cannot be written: on a SYS page only the counter of
a launch is (R227, R320). -/
def raiseJoin (s : State) (ctx : Nat) (join : Word) : Option State :=
  match ctxBytes s ctx join.toNat accWrite (counterOf s ctx join).isSome 8 with
  | .ok ls => some (locWrites s (ls.zip (leBytes 8 (leNat (ls.map (locRead s)) + 1))))
  | .error _ => none

/-- What a SPAWN's owner performs (R261): the counter rises with INC, and the record is pushed. -/
def performSpawn (s : State) (ctx : Nat) (inc : Bool) (r : Record) : State :=
  let s := if inc then (raiseJoin s ctx r.join).getD s else s
  pushRecord s ctx r

/-- A SPAWN served by an SXE of this device (R261, R359); a counter that cannot be written refuses it. -/
def serveSpawnHere (s : State) (ctx : Nat) (inc : Bool) (r : Record) (home : Nat) (h : Header) : State × Reply :=
  let no := if inc then
      match ctxBytes s ctx r.join.toNat accWrite (counterOf s ctx r.join).isSome 8 with
      | .error c => some (refusalWord c 0)
      | .ok _ => none
    else none
  serveWith s home h no fun s => (performSpawn s ctx inc r, 0)

/-- The page of a SPAWN's counter is there (R261, R323). -/
def spawnCounter (s : State) (c : Issue) (inc : Bool) (join : Word) : Chk Unit :=
  let ctx := ctxOfTeam (teamKey c.g)
  match ctxByte s ctx join.toNat accWrite (counterOf s ctx join).isSome with
  | .error .pagef => if inc then .error (.page join accWrite (lowThread c) 8) else .ok ()
  | _ => .ok ()

/-- The checks of a code record (R261). -/
def spawnOk (n : Nat) (inc : Bool) : Bool :=
  let r := recordOf n
  r.kind == 0 && r.code.toNat % 4 == 0 && fld n 233 2 == 0 && (!inc || (r.join != 0 && r.join.toNat % 32 == 0))

/-- Where a SPAWN is served (R352): the counter's home with INC, else the record's. -/
def spawnPlace (s : State) (ctx : Nat) (inc : Bool) (join : Word) (ls : List Loc) : Option Loc :=
  if inc then (match ctxByte s ctx join.toNat accWrite (counterOf s ctx join).isSome with | .ok l => some l | .error _ => none)
  else ls.head?

/-- The request of a SPAWN takes its serial and goes to its owner, this device's SXE or another device (R261, R352). -/
def sendSpawn (s : State) (c : Issue) (inc : Bool) (va : Word) (r : Record) (place : Option Loc) : State :=
  let ctx := ctxOfTeam (teamKey c.g)
  let me := Config.deviceId.toNat
  let dev := match place with | some (.remote d _ _) => d | _ => me
  let h : Header := { Header.blank with
    addr := (match place with | some (.remote _ _ a) => BitVec.ofNat 64 a | _ => if inc then r.join else va), operand := va,
    ident := identOf c.g, serial := BitVec.ofNat 32 (srGet (gangOf s c.g) rSerNext).toNat, floor := floorOf s c.g,
    inc := incOf s dev, kind := 3, op := BitVec.ofNat 3 (b2n inc) }
  let h := { h with digest := digestOf h [] }
  let q : OutReq := { hdr := h, dest := .none, owner := dev, pc := c.pc, sentAt := s.now, wait := 10000, full := false, quiet := false,
                      acq := false, locs := [], item := some r, nth := (gangOf s c.g).issuedN }
  let s := modGang (takeSerials (noteOwner s c.g dev h.floor) c.g 1) c.g fun G => { G with reqs := G.reqs ++ [q] }
  match place with
  | some (.remote ..) => send s (.request dev h)
  | _ =>
    let home := match place with | some (.phys a) => homeDie s a | _ => dieOfCore (gangOf s c.g).core
    let e := serveSpawnHere s ctx inc r home h
    answer e.1 c.g q e.2

/-- The places of a SPAWN's record (R261). -/
def spawnPlaces (s : State) (c : Issue) (va : Word) : Chk (List Loc) := do
  need (va.toNat % 32 == 0) (prot 8 va (lowThread c))
  plainBytes s c.g (lowThread c) va accRead 8 32

/-- The effect of a SPAWN whose record is at hand. -/
def spawnBody (sa : Fin 64) (inc : Bool) (c : Issue) (s : State) : Chk State := do
  let ctx := ctxOfTeam (teamKey c.g)
  let va := sGet (gangOf s c.g) sa.val
  let ls ← spawnPlaces s c va
  noHalt (spuePoison s c.g 8 (uniAcc c va ls))
  let bytes ← match farRecord (gangOf s c.g) c.pc va with
    | some p => farBytes p (lowThread c)
    | none => .ok ((gangBytes s c.g ls).getD [])
  let n := leNat bytes
  need (spawnOk n inc) (prot 8 va (lowThread c))
  spawnCounter s c inc (recordOf n).join
  releaseGate s c.g
  need (recordRoom s ctx) .hold
  let s := seeRead (drainAll s c.g) c (uniAcc c va ls)
  let s := modGang s c.g fun G => { G with loads := [] }
  match requestRoom s c.g 1 1 with
  | none => .error .hold
  | some s =>
    let r := recordOf n
    .ok (sendSpawn s c inc va r (spawnPlace s ctx inc r.join ls))

/-- SPAWN (R261): one remote operation with one serial, and a release at device scope. -/
def execSpawn (sa : Fin 64) (inc : Bool) (s : State) : Res :=
  issuing s fun c =>
    let u := uniUse 2 [(8, sa.val)] none
    let va := sGet (gangOf s c.g) sa.val
    let places : Chk (List Loc) := do
      uniChecks (gangOf s c.g) c u
      spawnPlaces s c va
    let far := match places with | .ok ls => (uniAcc c va ls).far | .error _ => false
    if far && (farRecord (gangOf s c.g) c.pc va).isNone then
      startRemote s c 0 4 (fun _ => .none) [uniAcc c va (match places with | .ok ls => ls | .error _ => [])]
    else runPlain (sendFar s c.g) c u (spawnBody sa inc c)

/-! ## TRAP, ERET, BKPT -/

/-- The PC at which the issuing run's lowest thread stands: what TS.RPC calls the next instruction. -/
def nextPc (s : State) (c : Issue) (len : Nat) : Word :=
  ((thr (gangOf s c.g) (lowLane c.run)).map (·.pc)).getD (c.pc + BitVec.ofNat 64 len)

/-- A fault that an instruction raises after it has issued, with TS.RPC at the next instruction (R332, R380). -/
def raiseAfter (s : State) (c : Issue) (cause : Cause) (code : BitVec 12) : State :=
  let s := fallThrough s c 4
  takeTrap s c.g c.run (gangRec s c.g c.pc cause 0 0 0xFF (BitVec.zeroExtend 64 code) false) (nextPc s c 4)

/-- TRAP (R332). -/
def execTrap (code : BitVec 12) (s : State) : Res :=
  issuing s fun c => runUniTo s c (ctlUse [] 4) fun s => .ok (s, fun s => raiseAfter s c .swtrap code)

/-- ERET (R333): outside handler mode it raises PROT; a handler that a stop record entered resumes the stop's other gangs
(R385). -/
def execEret (s : State) : Res :=
  issuing s fun c => runMove s c (ctlUse [] 4) fun s => do
    let G := gangOf s c.g
    need G.handler.isSome (prot 13 0 0xFF)
    let t := srGet G rTsRpc
    alignedTarget t (lowThread c) 13
    let s := if G.stopTrap then resumeStopped s (stopGroup s G.core) else s
    .ok (s, fun G => { leaveTrap { G with chain := none, chainEnd := .never } c.run with stopTrap := false })

/-- BKPT (R380): a stop after it has issued, or with DBGEN 0 the fault BKPT. -/
def execBkpt (code : BitVec 12) (s : State) : Res :=
  issuing s fun c => runUniTo s c (ctlUse [] 4) fun s => .ok (s, fun s =>
    if dbgEn s (gangOf s c.g).core then
      let s := fallThrough s c 4
      let r := stopRec s (some c.g) c.pc (BitVec.zeroExtend 64 code) 0xFF 0 12 0
      stopNow s c.g c.run (nextPc s c 4) r
    else raiseAfter s c .bkpt code)

end Sys2Proof.Machine
end

