-- ==== Sys2Proof/Machine/Accum.lean ====
section
/-!
DEFINITION. The accumulator instructions QZERO, QWIDE and QNARR (R26, R145 to R148).
-/
namespace Sys2Proof.Machine

/-- The matrix-role gangs of a team in team gang order (R129). -/
def matGangs (s : State) (t : Nat) : List Nat := (gangsOf s t).filter fun g => (gangOf s g).role == .matrix

/-- The gangs of group `grp` of a pair: eight of the leader team, eight of the follower (R129). -/
def groupGangs (s : State) (leader : Nat) (grp : Bool) : List Nat :=
  let eight := fun t => ((matGangs s t).drop (8 * b2n grp)).take 8
  eight leader ++ (match (teamOf s leader).partner with | some p => eight p | none => [])

/-- A gang's accumulators are busy (R140). -/
def qBusy (s : State) (g : Nat) : Bool :=
  (matOf s (pairOfCore (teamOf s (teamKey g)).core)).ops.any fun o => !o.gone && (groupGangs s o.team o.grp).contains g

/-- The checks of an accumulator instruction (R26, R140, R148): `field` names its q field. -/
def accChecks (s : State) (g field : Nat) : Chk Unit := do
  need ((gangOf s g).role == .matrix) (prot field)
  need (!qBusy s g) .hold

/-- Poison of accumulator elements that a read consumes (R337). -/
def poisonQ (G : Gang) (act : W32) (q : Nat) (es : List Nat) (field : Nat) : Option Halt :=
  if G.poisonQ.isEmpty then none
  else (lanesOf act).findSome? fun l => es.findSome? fun e =>
    let k := qKey l q e
    if (SMap.find G.poisonQ k).isSome then some (.poison .rfue field 2 l 0 (SMap.find G.wroteQ k).isSome) else none

/-- An accumulator instruction's use: it closes a latch chain and leaves the latches (R148). -/
def useQ (lead : Lead) (price : Nat) (reads : List Rd) (vdst : Option (Nat × Nat)) : LaneUse :=
  { lead := lead, price := price, reads := reads, preds := [], vdst := vdst, pdst := none, closing := true,
    len := lenOf lead false }

/-- QZERO (R145). -/
def execQzero (o : QZeroOp) (s : State) : Res :=
  issuing s fun c => runLane s c (useQ o.lead 1 [] none) fun s act zer => do
    accChecks s c.g 1
    let on := if bitOf (maskOf o.lead) 0 then act ||| zer else 0
    let qs := (List.range 8).filter fun q => o.lo.val ≤ q && q ≤ o.hi.val
    let clear := fun (G : Gang) (l : Nat) =>
      qs.foldl (fun G q => (List.range 8).foldl (fun G e => wrQ G l q e 0) G) G
    .ok (modGang s c.g fun G => (lanesOf on).foldl clear G, [])

/-- QWIDE (R146). -/
def execQwide (o : QWideOp) (s : State) : Res :=
  let ks := maskKs o.lead 2
  issuing s fun c => runLane s c (useQ o.lead 2 [⟨1, o.a, bitsOf 32 ks⟩] none) fun s act zer => do
    accChecks s c.g 3
    let G := gangOf s c.g
    let m := effMode G o.lead
    if o.add then noHalt (poisonQ G act o.q.val (ks.map (2 * o.part.val + ·)) 3)
    let val := fun (l k : Nat) =>
      let a := elem (srcVal G l o.a) 32 k
      if o.add then
        let e := (qGet G l o.q.val (2 * o.part.val + k)).toNat
        let x := addExact m (fltVal .f32 e) (fltVal .f32 a)
        let y := roundTo .f32 m x.1
        (y.1, once (snanEvt .f32 [e, a] ++ x.2 ++ y.2))
      else (a, [])
    let rs := (lanesOf act).flatMap fun l => ks.map fun k => (l, k, val l k)
    let put := fun (G : Gang) (r : Nat × Nat × Out) => wrQ G r.1 o.q.val (2 * o.part.val + r.2.1) (BitVec.ofNat 32 r.2.2.1)
    let G := rs.foldl put G
    let G := (lanesOf zer).foldl (fun G l => ks.foldl (fun G k => wrQ G l o.q.val (2 * o.part.val + k) 0) G) G
    .ok (setGang s c.g G, rs.flatMap fun r => r.2.2.2.map fun v => (v, r.1))

/-- The value that QNARR rounds (R147). -/
def qnarrVal (src : QSrc) (mw : Option MWord) (e : Nat) : Exact :=
  match src with
  | .i32 =>
    let x := sext 32 e
    let x := if mwBit mw (·.absA) then (x.natAbs : Int) else x
    exactInt (if mwBit mw (·.negA) then -x else x)
  | _ => fltVal .f32 (fltSign .f32 e (mwBit mw (·.absA)) (mwBit mw (·.negA)))

/-- QNARR (R147). -/
def execQnarr (o : QNarrOp) (s : State) : Res :=
  let w := o.fmt.bits
  let n := 64 / w
  let ks := maskKs o.lead n
  issuing s fun c => runLane s c (useQ o.lead 3 [] (some (o.d.val, 3))) fun s act zer => do
    accChecks s c.g 1
    let G := gangOf s c.g
    let m := effMode G o.lead
    noHalt (poisonQ G act o.q.val (ks.map (n * o.part.val + ·)) 1)
    let r := vecResult G act zer o.d.val w ks ks false false fun l k =>
      let e := (qGet G l o.q.val (n * o.part.val + k)).toNat
      if o.src == .raw then (e, [])
      else
        let y := fltFinish o.fmt m o.lead.mw (qnarrVal o.src o.lead.mw e)
        (y.1, once ((if o.src == .f32 then snanEvt .f32 [e] else []) ++ y.2))
    .ok (setGang s c.g r.1, r.2)

end Sys2Proof.Machine
end

