-- ==== Sys2Proof/Machine/Matrix.lean ====
section
/-!
DEFINITION. Matrix operations (R128 to R144): acceptance, the array's start, retirement and operand faults.
-/
namespace Sys2Proof.Machine

/-! ## The operand layout word (R131, Table 1) -/

def layFmt (w : Word) : Nat := Word.fld w 61 3
def laySpanCode (w : Word) : Nat := Word.fld w 58 3
def laySpan (w : Word) : Nat := 16 * 2 ^ laySpanCode w
def laySparse (w : Word) : Nat := Word.fld w 56 2
def layStride (w : Word) : Nat := Word.fld w 32 24
def layMoff (w : Word) : Int := sext 32 (Word.fld w 0 32)

/-- An operand's checks at issue (R132): `sp` says whether it may name a sparsity, `same` the other operand's FMT. -/
def operandOk (base lay : Word) (sp : Bool) (same : Nat) : Bool :=
  let f := layFmt lay
  let p := laySparse lay
  f < 5 && f == same && (if sp then (p == 1 || p == 2) && f < 2 else p == 0 && layMoff lay == 0)
    && (match windowOf base with | .global _ => true | _ => false)
    && base.toNat % 32 == 0 && base.toNat % laySpan lay == 0 && layStride lay % 32 == 0 && layStride lay % laySpan lay == 0

/-- Elements stored in a row (R131, Table 2). -/
def rowElems (fmt : Nat) : Nat := if fmt ≤ 2 then (if fmt == 1 then 512 else 256) else 64
/-- Bytes of a stored row. -/
def rowBytes (fmt : Nat) : Nat := match fmt with | 0 | 2 => 256 | 1 => 256 | _ => 128
/-- Bytes of a row's sparsity metadata. -/
def metaBytes (fmt : Nat) : Nat := if fmt == 1 then 384 else 192
/-- Kept elements of a group (R131: N). -/
def keptN (lay : Word) : Nat := if laySparse lay == 1 then 32 else 16
/-- K positions of an operation (R131, Table 2). -/
def kOf (a : Word) (sparse : Bool) : Nat := if sparse then 64 * (rowElems (layFmt a) / keptN a) else rowElems (layFmt a)

/-- The price of an operation (R49, Table 5). -/
def matPrice (lay : Word) (sparse : Bool) : Nat :=
  if sparse then (match layFmt lay, laySparse lay with | 0, 1 => 1840 | 0, _ => 2040 | _, 1 => 2700 | _, _ => 2940)
  else match layFmt lay with | 0 => 1640 | 2 => 1520 | 1 => 2460 | _ => 1360

/-! ## Where an operation's operands lie (R131, R133) -/

/-- The format code of a page that an operand of FMT needs: 1 b8, 2 b4, 0 otherwise. -/
def pageFmt (fmt : Nat) : Nat := match fmt with | 0 => 1 | 1 => 2 | _ => 0

/-- The logical addresses of the 16-byte chunks of rows. -/
def rowChunks (base stride rows bytes : Nat) : List Nat :=
  (List.range rows).flatMap fun r => (List.range (bytes / 16)).map fun c => base + r * stride + 16 * c

/-- The start of A's metadata. -/
def metaBase (o : MatOp) : Nat := (o.aBase + BitVec.ofInt 64 (64 * layMoff o.aLay)).toNat

/-- An operand, or A's metadata, as its chunks are read: the page format, the span code and the chunks' logical addresses. -/
structure Operand where
  fmt    : Nat
  span   : Nat
  chunks : List Nat
  deriving DecidableEq, Repr

/-- A, B and A's metadata. -/
def operandA (o : MatOp) : Operand :=
  { fmt := pageFmt (layFmt o.aLay), span := laySpanCode o.aLay,
    chunks := rowChunks o.aBase.toNat (layStride o.aLay) 256 (rowBytes (layFmt o.aLay)) }
def operandB (o : MatOp) : Operand :=
  { fmt := pageFmt (layFmt o.bLay), span := laySpanCode o.bLay,
    chunks := rowChunks o.bBase.toNat (layStride o.bLay) 128 (rowBytes (layFmt o.bLay)) }
def operandM (o : MatOp) : Operand :=
  { fmt := 0, span := laySpanCode o.aLay,
    chunks := if o.sparse then rowChunks (metaBase o) (metaBytes (layFmt o.aLay)) 256 (metaBytes (layFmt o.aLay)) else [] }

/-- Where a chunk starts once it is swizzled (R133). -/
def chunkAt (p : Operand) (la : Nat) : Nat := swizzle la (16 * 2 ^ p.span)

/-- The address of the exponent pair of a chunk's block (R74); exponent pairs are not swizzled. -/
def chunkPair (p : Operand) (la : Nat) : Option Nat :=
  if p.fmt == 0 then none else some (la - la % 65536 + segElems p.fmt + 2 * blkOf p.fmt (la % 65536) false)

/-- The addresses of a chunk's sixteen bytes and of its exponent pair. -/
def chunkAddrs (p : Operand) (la : Nat) : List Nat :=
  (List.range 16).map (chunkAt p la + ·) ++ (match chunkPair p la with | some q => [q, q + 1] | none => [])

/-- One address on each line that a chunk touches. -/
def chunkMarks (p : Operand) (la : Nat) : List Nat := chunkAt p la :: (chunkPair p la).toList

/-- One address on each line that an operation reads. -/
def opMarks (o : MatOp) : List Nat := [operandA o, operandB o, operandM o].flatMap fun p => p.chunks.flatMap (chunkMarks p)

/-- The core and the context by which an operation's operands translate: the leader's. -/
def opCore (s : State) (o : MatOp) : Nat := (teamOf s o.team).core
def opCtx (o : MatOp) : Nat := ctxOfTeam o.team

/-- The place of an operand byte's address. -/
def opLoc (s : State) (o : MatOp) (a : Nat) : Option Loc :=
  match leafAt s (opCore s o) (opCtx o) a with
  | .leaf e big => some (if leafPlace e == 3 then .remote (leafDev e) (opCtx o) (leafPhys e big a) else .phys (leafPhys e big a))
  | .absent .. => none

/-- The pages of an operation's operands that do not translate. -/
def absentPages (s : State) (o : MatOp) : List Nat :=
  (((opMarks o).map (· / 65536)).eraseDups).filter fun k => (opLoc s o (65536 * k)).isNone

/-! ## Acceptance (R128, R129, R132, R135, R137) -/

/-- The effect of TMMA and TMMAS at issue: a release (R170), with the operands' bytes as the gang would read them then (R137);
those of a page that is absent are read once it is there. -/
def acceptMatrix (s : State) (c : Issue) (o : Mma) (sparse : Bool) : Chk State := do
  let t := teamKey c.g
  let T := teamOf s t
  let l := lowThread c
  let G := gangOf s c.g
  need (G.role == .matrix && T.partner.isSome && T.leader) (prot 13 0 l)
  need ((groupGangs s t o.grp).length == 16) (prot 10 0 l)
  let a := sGet G o.sa.val
  let al := sGet G (o.sa.val + 1)
  let b := sGet G o.sb.val
  let bl := sGet G (o.sb.val + 1)
  need (operandOk a al sparse (layFmt al)) (.bad .copyf 8 0 l 0)
  need (operandOk b bl false (layFmt al)) (.bad .copyf 9 0 l 0)
  releaseGate s c.g
  let p := pairOfCore T.core
  need ((matOf s p).ops.length < 4) .hold
  let s := drainAll s c.g
  let n := T.mIssued + 1
  let op : MatOp := { num := n, team := t, gang := c.g, lane := l, pc := c.pc, aBase := a, aLay := al, bBase := b, bLay := bl,
                      acc := o.acc, grp := o.grp, sparse := sparse, image := s.mem, spans := s.span, late := [], pins := [],
                      far := [], farNo := [], running := false, struck := false, gone := false }
  let s := modMat s p fun q => { q with ops := q.ops ++ [{ op with late := absentPages s op }] }
  let s := modPair s t fun T => { T with mIssued := n }
  .ok (modGang s c.g fun G => wrS G o.sd.val (BitVec.ofNat 64 n))

/-- The use of TMMA and TMMAS: the price is paid when the array starts (R134, R135). -/
def useMma (o : Mma) : UniUse :=
  { uniUse 0 [(8, o.sa.val), (8, o.sa.val + 1), (9, o.sb.val), (9, o.sb.val + 1)] (some o.sd.val) with len := 8 }

/-- The course of TMMA and TMMAS. -/
def runMatrix (s : State) (o : Mma) (sparse : Bool) : Res :=
  issuing s fun c => runPlain (sendFar s c.g) c (useMma o) fun s => acceptMatrix s c o sparse

/-- TMMA (R134). -/
def execTmma (o : Mma) (s : State) : Res := runMatrix s o false
/-- TMMAS (R134). -/
def execTmmas (o : Mma) (s : State) : Res := runMatrix s o true

/-! ## Operand bytes (R137, R328) -/

/-- An operand's byte at an address, as at the acceptance; of a page that was absent then, as it now is, and of another device
what it answered. -/
def opByteAt (s : State) (o : MatOp) (a : Nat) : Nat :=
  match opLoc s o a with
  | some (.phys p) => (Memory.read (if o.late.contains (a / 65536) then s.mem else o.image) p).toNat
  | some (.remote d _ p) => (SMap.getD o.far (farKey d p) 0).toNat
  | _ => 0

/-- An operand's byte at logical address `la`. -/
def opByte (s : State) (o : MatOp) (span la : Nat) : Nat := opByteAt s o (swizzle la span)

/-- The bytes of other devices that an operation has no answer for. -/
def farWanted (s : State) (o : MatOp) : List (Loc × Byte) :=
  [operandA o, operandB o, operandM o].flatMap fun p => (p.chunks.flatMap (chunkAddrs p)).filterMap fun a =>
    match opLoc s o a with
    | some (.remote d x q) =>
      if (SMap.find o.far (farKey d q)).isSome || o.farNo.contains (farKey d q) then none else some (.remote d x q, 0)
    | _ => none

/-- They are asked for, neighbours together, unless answers are awaited already. -/
def askOperands (s : State) (pair : Nat) (o : MatOp) : State :=
  if s.farOps.any fun f => f.who == .matrix pair o.num then s
  else (remoteRuns (farWanted s o)).foldl (fun s m => askFarRead s (.matrix pair o.num) m.1 m.2.1 m.2.2.1 m.2.2.2.length 0) s

/-! ## Operand checks that depend on memory (R143, Table 3) -/

/-- An operand fault: its address, cause and detail. -/
structure OpFault where
  addr  : Nat
  cause : Cause
  sub   : Nat
  deriving DecidableEq, Repr

/-- What stands against the byte at an address once its page is right: an owner's refusal (R328), or poison (R337). -/
def byteFault (s : State) (o : MatOp) (a : Nat) : Option OpFault :=
  match opLoc s o a with
  | some (.remote d _ p) => if o.farNo.contains (farKey d p) then some ⟨a, .prot, 0⟩ else none
  | some l => (locPoison s l).map fun k => ⟨a, .spue, k⟩
  | none => none

/-- The check of one chunk with logical address `la`. -/
def chunkFault (s : State) (o : MatOp) (p : Operand) (la : Nat) : Option OpFault :=
  let a := chunkAt p la
  match leafAt s (opCore s o) (opCtx o) a with
  | .absent .. => some ⟨a, .pagef, 0⟩
  | .leaf e big =>
    match leafRefuses e accEngRead false with
    | some _ => some ⟨a, .prot, 0⟩
    | none =>
      let spans := if o.late.contains (a / 65536) then s.span else o.spans
      if leafFmt e != p.fmt then some ⟨a, .copyf, 0x21⟩
      else if p.fmt != 0 && (segElems p.fmt ≤ la % 65536 || segElems p.fmt ≤ a % 65536) then some ⟨a, .copyf, 0x22⟩
      else if leafPlace e != 3 && SMap.getD spans (leafPhys e big a / 64) 0 != p.span then some ⟨a, .copyf, 0x23⟩
      else (chunkAddrs p la).findSome? (byteFault s o)

/-- The fault at the lowest address. -/
def lowestFault (fs : List OpFault) : Option OpFault :=
  fs.foldl (fun r f => match r with | none => some f | some g => if f.addr < g.addr then some f else r) none

/-- The 6-bit index of kept element `j` of row `r` (R133). -/
def keptIdx (s : State) (o : MatOp) (r j : Nat) : Nat :=
  let mb := metaBytes (layFmt o.aLay)
  let b := fun i => opByte s o (laySpan o.aLay) (metaBase o + r * mb + i)
  let i := 6 * j / 8
  fld (b i + 256 * (if i + 1 < mb then b (i + 1) else 0)) (6 * j % 8) 6

/-- The metadata groups, of those whose bytes can be read, whose indices do not increase strictly: `bad` are the chunks that
cannot be read. -/
def groupFaults (s : State) (o : MatOp) (bad : List Nat) : List OpFault :=
  let n := keptN o.aLay
  let mb := metaBytes (layFmt o.aLay)
  if !o.sparse then []
  else (List.range 256).flatMap fun r => (List.range (rowElems (layFmt o.aLay) / n)).filterMap fun g =>
    let first := metaBase o + r * mb + g * n * 6 / 8
    let last := metaBase o + r * mb + ((g + 1) * n * 6 - 1) / 8
    if bad.any (fun la => first / 16 ≤ la / 16 && la / 16 ≤ last / 16) then none
    else if (List.range (n - 1)).all fun i => keptIdx s o r (g * n + i) < keptIdx s o r (g * n + i + 1) then none
    else some ⟨swizzle first (laySpan o.aLay), .copyf, 0x24⟩

/-- The faults of an operand's chunks. -/
def chunkFaults (s : State) (o : MatOp) (p : Operand) : List OpFault := p.chunks.filterMap (chunkFault s o p)

/-- The fault that an operation's operands raise: A before B before metadata, the lowest address first (R143). -/
def operandFault (s : State) (o : MatOp) : Option OpFault :=
  (lowestFault (chunkFaults s o (operandA o))).or <| (lowestFault (chunkFaults s o (operandB o))).or <|
    let p := operandM o
    let bad := p.chunks.filter fun la => (chunkFault s o p la).isSome
    lowestFault (chunkFaults s o p ++ groupFaults s o bad)

/-! ## The product (R136, R138, R139) -/

/-- The pattern of stored element `k` of row `r` of an h16, e16 or i8 operand (R131). -/
def opPattern (s : State) (o : MatOp) (base lay : Word) (r k : Nat) : Nat :=
  let b := opByte s o (laySpan lay)
  let row := base.toNat + r * layStride lay
  if layFmt lay == 2 then b (row + k) else b (row + 2 * k) + 256 * b (row + 2 * k + 1)

/-- The floating-point format of an h16 or e16 operand. -/
def opFlt (lay : Word) : FFmt := if layFmt lay == 3 then .h16 else .e16

/-- The exact value of stored element `k` of row `r` of an operand (R131, R136). -/
def opElem (s : State) (o : MatOp) (base lay : Word) (r k : Nat) : Exact :=
  let row := base.toNat + r * layStride lay
  let blk := fun (fmt la : Nat) (hi : Bool) =>
    let x := opByte s o (laySpan lay) la
    let x := if fmt == 1 then x else if hi then x / 16 else x % 16
    let p := la - la % 65536 + segElems fmt + 2 * blkOf fmt (la % 65536) hi
    blkExact fmt x (if blkSel fmt x then opByteAt s o p else opByteAt s o (p + 1))
  match layFmt lay with
  | 0 => blk 1 (row + k) false
  | 1 => blk 2 (row + k / 2) (k % 2 == 1)
  | 2 => exactInt (sext 8 (opPattern s o base lay r k))
  | _ => fltVal (opFlt lay) (opPattern s o base lay r k)

/-- The event of a signalling NaN among the elements that are multiplied (R67). -/
def opSnan (s : State) (o : MatOp) (base lay : Word) (r k : Nat) : List Evt :=
  if 3 ≤ layFmt lay then snanEvt (opFlt lay) [opPattern s o base lay r k] else []

/-- A unit's exact sum of products, with the invalid cases of R139. -/
def unitSum (ps : List (Exact × Exact)) : Exact × List Evt :=
  let rs := ps.map fun p => mulExact p.1 p.2
  let inv := rs.any fun r => !r.2.isEmpty
  let nan := rs.any fun r => r.1 == .nan
  let pos := rs.any fun r => r.1 == .inf false
  let neg := rs.any fun r => r.1 == .inf true
  if nan || (pos && neg) then (.nan, if inv || (pos && neg) then [.inv] else [])
  else if pos then (.inf false, [])
  else if neg then (.inf true, [])
  else match rs with
    | [] => (.num false 0 1, [])
    | r :: t => (t.foldl (fun a b => (addExact .rne a b.1).1) r.1, [])

/-- Accumulate (R139) on patterns; a signalling NaN that is accumulated counts INV (R67). -/
def accumulate (i8 : Bool) (acc : Nat) (s : Exact × List Evt) : Out :=
  if i8 then
    let x : Int := sext 32 acc + (match s.1 with | .num n a _ => if n then -(a : Int) else a | _ => 0)
    (wrapN 32 x, if x < -(2 ^ 31) || 2 ^ 31 ≤ x then [.sat] else [])
  else
    let t := roundTo .f32 .rne s.1
    let x := addExact .rne (fltVal .f32 acc) (fltVal .f32 t.1)
    let y := roundTo .f32 .rne x.1
    (y.1, s.2 ++ t.2 ++ snanEvt .f32 [acc] ++ x.2 ++ y.2)

/-- Elements of a summation unit (R139). -/
def unitLen (fmt : Nat) : Nat := if 3 ≤ fmt then 16 else 32

/-- Element (i, j) of C (R136): its new pattern and the classes it counts, each once. -/
def matElem (s : State) (o : MatOp) (old i j : Nat) : Out :=
  let f := layFmt o.aLay
  let u := unitLen f
  let col := fun (k : Nat) => if o.sparse then 64 * (k / keptN o.aLay) + keptIdx s o i k else k
  let pair := fun (k : Nat) => (opElem s o o.aBase o.aLay i k, opElem s o o.bBase o.bLay j (col k))
  let snan := fun (k : Nat) => opSnan s o o.aBase o.aLay i k ++ opSnan s o o.bBase o.bLay j (col k)
  let start : Out := (if o.acc then old else 0, [])
  let r := (List.range (rowElems f / u)).foldl (fun (a : Out) n =>
    let y := accumulate (f == 2) a.1 (unitSum ((List.range u).map fun e => pair (n * u + e)))
    (y.1, a.2 ++ (List.range u).flatMap (fun e => snan (n * u + e)) ++ y.2)) start
  (r.1, once r.2)

/-- Where C[i, j] lies (R138): the place in the group's gangs, thread, register, element. -/
def accSlot (i j : Nat) : Nat × Nat × Nat × Nat :=
  let rho := i % 128
  (8 * (i / 128) + rho / 16, rho % 16 + 16 * (j / 64), j % 64 / 8, j % 8)

/-- The C rows of gang `k` of a group (R138). -/
def gangRows (k : Nat) : List Nat := (List.range 16).map fun r => 128 * (k / 8) + 16 * (k % 8) + r

/-- The elements of C that gang `g`, the `k`-th of its group, holds: thread, register and element, and what each becomes. -/
def matCells (s : State) (o : MatOp) (g k : Nat) : List ((Nat × Nat × Nat) × Out) :=
  (gangRows k).flatMap fun i => (List.range 128).map fun j =>
    let p := (accSlot i j).2
    (p, matElem s o (qGet (gangOf s g) p.1 p.2.1 p.2.2).toNat i j)

/-- A gang's accumulators hold their results; those of a thread that has exited are discarded. -/
def putCells (cs : List ((Nat × Nat × Nat) × Out)) (G : Gang) : Gang :=
  cs.foldl (fun G c => if (thr G c.1.1).isSome then wrQ G c.1.1 c.1.2.1 c.1.2.2 (BitVec.ofNat 32 c.2.1) else G) G

/-- The checkpoint of a team that an operation was accepted before holds its results too: a rollback does not reissue it (R142,
R338). -/
def ckptCells (num g : Nat) (cs : List ((Nat × Nat × Nat) × Out)) (T : Team) : Team :=
  { T with ckpt := T.ckpt.map fun k =>
      if num ≤ k.mat then { k with gangs := k.gangs.map fun e => if e.1 == g then (e.1, putCells cs e.2) else e } else k }

/-- The accumulators that an operation writes, and its events (R136, R138, R139). -/
def matWrite (s : State) (o : MatOp) : State × List (Evt × Nat) :=
  (groupGangs s o.team o.grp).zipIdx.foldl (fun acc e =>
    let cs := matCells s o e.1 e.2
    (modTeam (modGang acc.1 e.1 (putCells cs)) (teamKey e.1) (ckptCells o.num e.1 cs),
     acc.2 ++ cs.flatMap fun c => c.2.2.map fun v => (v, o.lane))) (s, [])

/-! ## The events -/

/-- The operation at the head of a pair's queue. -/
def headOp (s : State) (p : Nat) : Option MatOp := (matOf s p).ops.head?

/-- The array starts an operation, which has paid `price`, `cost` of it from what the station holds now (R134): its operands'
lines are pinned (R137). -/
def startArray (s : State) (pair : Nat) (o : MatOp) (price cost : Nat) : State :=
  let s := modCore s (opCore s o) fun C => { C with tokens := C.tokens - cost, resv := C.resv.filter fun r => r.holder != .matrix }
  let ls := (opMarks o).filterMap (opLoc s o)
  let pins := (ls.filterMap fun l => match l with | .phys a => some (a / 64) | _ => none).eraseDups
  let s := modMat s pair fun q => { q with ops := q.ops.map fun x => if x == o then { x with running := true, pins := pins } else x }
  let s := noteReads s o.team ls
  if (SMap.find s.gangs o.gang).isSome then
    modGang s o.gang fun G => srPut (srPut G rTokPrice (BitVec.ofNat 64 price)) rTokSpent
      (srGet G rTokSpent + BitVec.ofNat 64 price)
  else s

/-- MATRIX_ARRAY_START (R134, R266, R268, R328): the operands' bytes of other devices are asked for; the operation whose checks
have passed pays from the leader core's station, or places the matrix reservation; paid, it runs. -/
def execMatrixArrayStart (pair : Nat) (s : State) : Res :=
  match headOp s pair with
  | none => .next s
  | some o =>
    if o.running then .next s
    else if !(farWanted s o).isEmpty then .next (askOperands s pair o)
    else if (operandFault s o).isSome then .next s
    else
      let core := opCore s o
      let C := coreOf s core
      let price := matPrice o.aLay o.sparse
      match C.resv.find? fun r => r.holder == .matrix with
      | some r =>
        if r.price == price then .next (if r.price ≤ r.paid then startArray s pair o price 0 else s)
        else .next (placeResv (modCore s core fun C => endResv C .matrix) .matrix core price)
      | none =>
        if C.resv.isEmpty && (price : Int) ≤ C.tokens then .next (startArray s pair o price price)
        else .next (placeResv s .matrix core price)

/-- MATRIX_RETIRE (R136, R348): every accumulator of the group holds its result, and the timeline advances; the results of an
operation whose pair was killed are discarded. -/
def execMatrixRetire (pair : Nat) (s : State) : Res :=
  match headOp s pair with
  | none => .next s
  | some o =>
    if !o.running then .next s
    else if o.gone then .next { modMat s pair fun q => { q with ops := q.ops.tail } with progress := s.progress + 1 }
    else
      let r := matWrite s o
      let d : DoneEvents := { gang := o.gang, num := o.num, lane := o.lane, events := r.2, taken := false }
      .next { modMat r.1 pair fun q =>
        { q with ops := q.ops.tail, events := if r.2.isEmpty then q.events else q.events ++ [(o.team, d)] } with
        progress := s.progress + 1 }

/-- How page faults of a matrix queue are named among the masters. -/
def masterMat (pair : Nat) : Nat := 2 ^ 60 + pair

/-- A faulting operation leaves the queue unpaid, and its reservation ends (R266); its number is passed with the fault attached
(R143). -/
def dropMatOp (s : State) (pair : Nat) (o : MatOp) (f : OpFault) : State :=
  let r := { gangRec s o.gang o.pc f.cause 0 f.sub 0xFF (BitVec.ofNat 64 f.addr) false with
             tl := BitVec.ofNat 64 o.num, master := 3 }
  let s := modCore s (opCore s o) fun C => endResv C .matrix
  let s := modMat s pair fun q =>
    { q with ops := q.ops.filter fun x => x != o,
             faults := q.faults ++ [(o.team, { num := o.num, team := o.team, bar := none, fault := r, reported := [], fresh := [] })] }
  reportFault s r

/-- MATRIX_OPERAND_FAULT (R143, R323 to R325): the head operation's operand check fails, once the bytes of other devices have
been answered; a page fault is served first. -/
def execMatrixOperandFault (pair : Nat) (s : State) : Res :=
  match headOp s pair with
  | none => .next s
  | some o =>
    if o.running then .next s
    else if !(farWanted s o).isEmpty then .next (askOperands s pair o)
    else match operandFault s o with
      | none => .next s
      | some f =>
        if f.cause == .pagef then
          if hostMode s 1 then
            if s.pfWaiters.any fun w => w.2 == masterMat pair then .next s
            else .next (raisePageFault s (opCtx o) f.addr accEngRead (masterMat pair)).2
          else match zeroFill s (opCtx o) f.addr with
            | some s => .next s
            | none => .next (dropMatOp s pair o f)
        else .next (dropMatOp s pair o f)

end Sys2Proof.Machine
end

