-- ==== Sys2Proof/Machine/Copies.lean ====
section
/-!
DEFINITION. Tile copies (R198 to R211): TCOPY, TKICK, TXFER and its abort form at issue, TCANCEL, TPROBE, the landing of
copy bytes with DecodeBlock and EncodeBlock, completion and faults.
-/
namespace Sys2Proof.Machine

/-! ## Issue (R198, R203) -/

/-- The places of a shape record, or the fault that its address raises (R203, field 8). -/
def recordPlaces (s : State) (g lane : Nat) (va : Word) : Chk (List Loc) := do
  need (va.toNat % 128 == 0 && match windowOf va with | .global _ | .own _ | .pair _ => true | _ => false) (prot 8 va lane)
  genBytes s g lane va accRead 8 128

/-- The checks of a command block (R203, field 9): PAIR needs a partner, a barrier meets R189. -/
def blockChecks (s : State) (g lane : Nat) (ws : List Word) (bar : Bool) : Chk Unit := do
  need (!cmdPair ws || (teamOf s (teamKey g)).partner.isSome) (prot 9 0 lane)
  if bar then do
    let _ ← barPlaces s g lane (cmdWord ws 3) 9
    .ok ()
  else .ok ()

/-- Whether a page fault at a global address can still be served for a gang (R323 to R325). -/
def servable (s : State) (g : Nat) (va : Word) : Bool :=
  if hostMode s 1 then (gangOf s g).pf != .refused (va.toNat / 2 ^ 16)
  else (zeroFill s (ctxOfTeam (teamKey g)) va.toNat).isSome

/-- A fault found at issue that is reported at the command's number, once a page fault that can be served is served. -/
def lateBad (s : State) (g lane : Nat) (b : Option (Cause × Nat × Word)) : Chk Unit :=
  match b with
  | some (.pagef, _, va) => if servable s g va then .error (.page va accEngRead lane 8) else .ok ()
  | _ => .ok ()

/-- The timeline number that a command will take. -/
def nextNum (s : State) (g x : Nat) : Nat := (tcuOf s (gangOf s g).core x).issued + 1

/-- The places free in a TCU context (R198). -/
def tcuFree (s : State) (g x : Nat) : Nat := 64 - (tcuOf s (gangOf s g).core x).cmds.length

/-- The words of a command block in s(Sb) to s(Sb+3). -/
def blockWords (G : Gang) (sb : Nat) : List Word := [sGet G sb, sGet G (sb + 1), sGet G (sb + 2), sGet G (sb + 3)]

/-- One command enters its context: a TXFER waits while its serials do not fit (R217). -/
def takeCmd (s : State) (x : Nat) (m : Cmd) (bad : Option (Cause × Nat × Word)) : Chk State := do
  let p := prepare s (ctxOfTeam m.team) m.team m.kind (leNat m.shape) m.words bad
  lateBad s m.gang m.lane p.bad
  match (if p.count == 0 then some s else serialRoom s m.gang p.count) with
  | none => .error .hold
  | some s => .ok (acceptCmd s (gangOf s m.gang).core x m p)

/-- The bytes of a record, as the issuing gang reads them once its stores are performed (R165, R199): of another device, what it
answered. -/
def recordBytes (s : State) (c : Issue) (va : Word) (ls : List Loc) : Chk (List Byte) :=
  match farRecord (gangOf s c.g) c.pc va with
  | some p => farBytes p (lowThread c)
  | none => .ok (ls.map (locRead s))

/-- A command's record has been read: what was answered for it is given up. -/
def endLoads (s : State) (g : Nat) : State := modGang s g fun G => { G with loads := [] }

/-- The effect of TCOPY and TXFER at issue: a release (R170), and a command that enters its context. -/
def copyBody (o : Eng) (kind : CmdKind) (c : Issue) (s : State) : Chk State := do
  let l := lowThread c
  let G := gangOf s c.g
  let va := sGet G o.sa.val
  let ls ← recordPlaces s c.g l va
  let ws := blockWords G o.sb.val
  blockChecks s c.g l ws o.bar
  releaseGate s c.g
  need (1 ≤ tcuFree s c.g o.ctx.val) .hold
  let s := drainAll s c.g
  let n := nextNum s c.g o.ctx.val
  let bad := (ls.findSome? (locPoison s)).map fun k => (Cause.spue, k, va)
  let shape ← recordBytes s c va ls
  let s := endLoads s c.g
  let m : Cmd := { blankCmd kind n c.g l c.pc with
    recAddr := va, shape := shape, words := ws, bar := if o.bar then some (cmdWord ws 3) else none }
  let s ← takeCmd s o.ctx.val m bad
  let T := teamOf s (teamKey c.g)
  .ok (modGang s c.g fun G => wrS G o.sd.val (teamNum T o.ctx.val n))

/-- The use of TCOPY and TXFER. -/
def useCopy (o : Eng) (price : Nat) : UniUse :=
  uniUse price ((8, o.sa.val) :: ((List.range (if o.bar then 4 else 3)).map fun i => (9, o.sb.val + i))) (some o.sd.val)

/-- The course of TCOPY and TXFER (R203, R205, R207). -/
def runCopy (s : State) (o : Eng) (kind : CmdKind) (price : Nat) : Res :=
  issuing s fun c =>
    let va := sGet (gangOf s c.g) o.sa.val
    let places : Chk (List Loc) := do
      uniChecks (gangOf s c.g) c (useCopy o price)
      recordPlaces s c.g (lowThread c) va
    let far := match places with | .ok ls => (uniAcc c va ls).far | .error _ => false
    if 60 < o.sb.val then settle s c false (.bad .illenc 9 3 0xFF 0)
    else if far && (farRecord (gangOf s c.g) c.pc va).isNone then
      startRemote s c 0 4 (fun _ => .none) [uniAcc c va (match places with | .ok ls => ls | .error _ => [])]
    else runPlain (sendFar s c.g) c (useCopy o price) (copyBody o kind c)

/-- TCOPY.ld (R205). -/
def execTcopyLd (o : Eng) (s : State) : Res := runCopy s o .ld 4
/-- TCOPY.st (R205). -/
def execTcopySt (o : Eng) (s : State) : Res := runCopy s o .st 4
/-- TXFER (R207). -/
def execTxfer (o : Eng) (s : State) : Res := runCopy s o .xfer 6

/-- Request `i` of a TKICK list (R206) becomes one TCOPY; one whose record address, barrier or flags fail R203 is taken
with that fault, which a barrier that meets R203 shows (R210). -/
def kickOne (s : State) (c : Issue) (x : Nat) (req : Nat) : Chk State := do
  let l := lowThread c
  let va := BitVec.ofNat 64 (fld req 0 64)
  let ws := (List.range 4).map fun i => BitVec.ofNat 64 (fld req (64 + 64 * i) 64)
  let flags := fld req 320 64
  let dir := fld flags 2 2
  let barred := bitOf flags 1
  let n := nextNum s c.g x
  let m : Cmd := { blankCmd (if dir == 1 then .st else .ld) n c.g l c.pc with
    kick := true, recAddr := va, words := ws, bar := if barred then some (cmdWord ws 3) else none }
  if 2 ≤ dir || flags / 16 != 0 || bitOf flags 0 || fld req 384 128 != 0 then
    takeCmd s x m (some (.prot, 0, va))
  else match blockChecks s c.g l ws barred with
    | .error (.page v k l f) =>
      if servable s c.g v then .error (.page v k l f) else takeCmd s x { m with bar := none } (some (.pagef, 0, v))
    | .error _ =>
      let bar := match barPlaces s c.g l (cmdWord ws 3) 9 with | .ok _ => m.bar | .error _ => none
      takeCmd s x { m with bar := bar } (some (.prot, 0, cmdWord ws 3))
    | .ok _ =>
      match recordPlaces s c.g l va with
      | .error (.page v k l f) =>
        if servable s c.g v then .error (.page v k l f) else takeCmd s x m (some (.pagef, 0, v))
      | .error _ => takeCmd s x m (some (.prot, 0, va))
      | .ok ls =>
        let bad := (ls.findSome? (locPoison s)).map fun k => (Cause.spue, k, va)
        match recordBytes s c va ls with
        | .ok bs => takeCmd s x { m with shape := bs } bad
        | .error _ => takeCmd s x m (some (.prot, 0, va))

/-- The places of a TKICK's list (R206). -/
def kickPlaces (o : Ur3) (c : Issue) (s : State) : Chk (List Loc) := do
  let l := lowThread c
  let G := gangOf s c.g
  let a := sGet G o.sa.val
  let n := (sGet G o.sb.val).toNat
  need (1 ≤ n && n ≤ 256) (prot 9 0 l)
  need (a.toNat % 64 == 0) (prot 8 a l)
  spadBytes s c.g l a false 8 (64 * n)

/-- Request `i` of a list's bytes, as a number. -/
def kickReq (bytes : List Byte) (i : Nat) : Nat := leNat ((bytes.drop (64 * i)).take 64)

/-- The effect of TKICK: a release (R170), and one command for each request of its list, read as at issue. -/
def kickBody (o : Ur3) (ctx : Fin 4) (c : Issue) (s : State) : Chk State := do
  let G := gangOf s c.g
  let n := (sGet G o.sb.val).toNat
  let ls ← kickPlaces o c s
  noHalt (spuePoison s c.g 8 (uniAcc c (sGet G o.sa.val) ls))
  releaseGate s c.g
  need (n ≤ tcuFree s c.g ctx.val) .hold
  let s := drainAll s c.g
  let bytes := ls.map (locRead s)
  let s ← (List.range n).foldlM (fun s i => kickOne s c ctx.val (kickReq bytes i)) s
  let s := endLoads s c.g
  let T := teamOf s (teamKey c.g)
  let last := nextNum s c.g ctx.val - 1
  .ok (modGang s c.g fun G => wrS G o.sd.val (teamNum T ctx.val last))

/-- The records of a TKICK's requests that lie on other devices and have not been answered (R328). -/
def kickFar (o : Ur3) (c : Issue) (s : State) : List LaneAcc :=
  match uniChecks (gangOf s c.g) c (uniUse 4 [(8, o.sa.val), (9, o.sb.val)] (some o.sd.val)), kickPlaces o c s with
  | .ok _, .ok ls =>
    let bytes := (gangBytes s c.g ls).getD []
    (List.range (sGet (gangOf s c.g) o.sb.val).toNat).filterMap fun i =>
      let va := BitVec.ofNat 64 (fld (kickReq bytes i) 0 64)
      match recordPlaces s c.g (lowThread c) va with
      | .ok rs => if (uniAcc c va rs).far && (farRecord (gangOf s c.g) c.pc va).isNone then some (uniAcc c va rs) else none
      | .error _ => none
  | _, _ => []

/-- TKICK (R206): the list is read as at issue, and s(Sd) receives the last number. -/
def execTkick (o : Ur3) (ctx : Fin 4) (s : State) : Res :=
  issuing s fun c =>
    let far := kickFar o c s
    if !far.isEmpty then startRemote s c 0 4 (fun _ => .none) far
    else runPlain (sendFar s c.g) c (uniUse 4 [(8, o.sa.val), (9, o.sb.val)] (some o.sd.val)) (kickBody o ctx c)

/-! ## TCANCEL and TPROBE (R208, R209) -/

/-- The commands that a TCANCEL cancels: every incomplete one of the context from number s(Sa) on, but a reducing TXFER that
has sent (R208). -/
def cancelled (s : State) (g : Nat) (sa : Fin 64) (ctx : Fin 4) : List Cmd :=
  let from_ : Int := (sGet (gangOf s g) sa.val).toNat + tlOffOf (teamOf s (teamKey g)) ctx.val
  (tcuOf s (gangOf s g).core ctx.val).cmds.filter fun m => decide (from_ ≤ m.num) && cancellable m

/-- The state after a TCANCEL. -/
def afterCancel (s : State) (g : Nat) (sd sa : Fin 64) (ctx : Fin 4) : State :=
  let cs := cancelled s g sa ctx
  modGang (cs.foldl (fun t m => cancelCmd t (gangOf s g).core ctx.val m) s) g fun G => wrS G sd.val (BitVec.ofNat 64 cs.length)

/-- What a TCANCEL does before it is tried, while bytes of commands that it cancels are on their way: those commands send no
more (R208). -/
def beforeCancel (s : State) (c : Issue) (sd sa : Fin 64) (ctx : Fin 4) : State :=
  let cs := (cancelled s c.g sa ctx).map (·.num)
  match uniChecks (gangOf s c.g) c (uniUse 1 [(8, sa.val)] (some sd.val)) with
  | .error _ => s
  | .ok _ =>
    if (cancelled s c.g sa ctx).any inFlight then
      let s := (cancelled s c.g sa ctx).foldl dropOwn s
      modTcu s (gangOf s c.g).core ctx.val fun u => { u with cmds := u.cmds.map fun m => if cs.contains m.num then cutCmd c.g m else m }
    else s

/-- TCANCEL (R208): it completes once no command that it cancels can write again. -/
def execTcancel (sd sa : Fin 64) (ctx : Fin 4) (s : State) : Res :=
  issuing s fun c => runPlain (beforeCancel s c sd sa ctx) c (uniUse 1 [(8, sa.val)] (some sd.val)) fun s => do
    need (!(cancelled s c.g sa ctx).any inFlight) .hold
    .ok (afterCancel s c.g sd sa ctx)

/-- Bytes of a command that have not landed (R209). -/
def unlanded (m : Cmd) : Nat :=
  match m.kind with
  | .ld | .st => (m.left.map (·.2)).sum + (m.outs.map (·.count)).sum
  | .xfer => (m.chunks.filter fun k => k.phase != .done).foldl (fun a k =>
      let n := tileBytes (leNat m.shape)
      let z := 2 ^ coChunk ((cmdComm m).getD 0)
      a + Nat.min z (n - k.idx * z)) 0
  | .abort => 0

/-- The second word of a TPROBE (R209): the bytes that the oldest command has yet to land, whether a fault is due to the
gang, and the incomplete commands. -/
def probeWord (s : State) (g : Nat) (ctx : Fin 4) : Word :=
  let u := tcuOf s (gangOf s g).core ctx.val
  let oldest := u.cmds.foldl (fun r m => match r with | some k => if k.num ≤ m.num then r else some m | none => some m)
    (none : Option Cmd)
  let left := Nat.min ((oldest.map unlanded).getD 0) 0xFFFFFFFF
  let due := u.faults.any fun f => !f.told g
  BitVec.ofNat 64 (left * 2 ^ 32 + b2n due * 2 ^ 31 + u.cmds.length % 2 ^ 16)

/-- TPROBE (R209). -/
def execTprobe (sd : Fin 64) (ctx : Fin 4) (s : State) : Res :=
  issuing s fun c =>
    if sd.val == 63 then settle s c false (.bad .illenc 7 3 0xFF 0)
    else runPlain s c (uniUse 0 [] (some sd.val)) fun s =>
      let now := teamNum (teamOf s (teamKey c.g)) ctx.val (tcuValue (tcuOf s (gangOf s c.g).core ctx.val))
      .ok (modGang s c.g fun G => wrS (wrS G sd.val now) (sd.val + 1) (probeWord s c.g ctx))

/-! ## The tile (R200, R201) -/

/-- Scratchpad bytes of the least part of a tile that lands at once: an element, a byte of b4 elements, or under ENCODE
a block. -/
def unitBytes (n : Nat) : Nat :=
  if shEncode n then 16 * spadHalves n else if spadHalves n == 1 then 1 else spadHalves n / 2

/-- Elements of that part. -/
def unitElems (n : Nat) : Nat := if shEncode n then 32 else if spadHalves n == 1 then 2 else 1

/-- Index i_d of element `j` in the order of the scratchpad (R200). -/
def tileIdx (n j d : Nat) : Nat := j / (List.range d).foldl (fun a e => a * shBox n e) 1 % shBox n d

/-- The tensor index of element `j` in dimension `d`. -/
def tensorIdx (n : Nat) (ws : List Word) (j d : Nat) : Nat := cmdCoord ws d + tileIdx n j d

/-- Element `j` is in bounds (R200). -/
def inBounds (n : Nat) (ws : List Word) (j : Nat) : Bool :=
  (List.range (shDims n)).all fun d => tensorIdx n ws j d < shSize n d

/-- The part of an address, or of an element number, that the dimensions above 0 give. -/
def strideSum (n : Nat) (ws : List Word) (j : Nat) : Int :=
  ((List.range (shDims n)).map fun d => if d == 0 then 0 else (tensorIdx n ws j d : Int) * shStride n d).sum

/-- The address of element `j` of an unformatted tensor (R200). -/
def elemAddr (n : Nat) (ws : List Word) (j : Nat) : Word :=
  wordOf ((shBase n : Int) + (tensorIdx n ws j 0 : Int) * elemBytes (shEtype n) + strideSum n ws j)

/-- A formatted element: the start of its segment and its position there (R201). -/
def elemSeg (n : Nat) (ws : List Word) (j : Nat) : Word × Nat :=
  let k : Int := (tensorIdx n ws j 0 : Int) + strideSum n ws j
  let per : Int := if shFmt n == 1 then 61440 else 116480
  (wordOf ((shBase n : Int) + 65536 * (k / per)), (k % per).toNat)

/-- The swizzled address of a byte (R202): only the global side is swizzled. -/
def spanAddr (n : Nat) (va : Word) : Word :=
  match windowOf va with
  | .own _ | .pair _ => va
  | _ => BitVec.ofNat 64 (swizzle va.toNat (16 * 2 ^ shSpan n))

/-- What a check that fails says of an engine's access. -/
def haltCause (h : Halt) (va : Word) : Cause × Nat × Word :=
  match h with
  | .bad c _ b _ _ => (c, b, va)
  | .page .. => (.pagef, 0, va)
  | .poison c _ b _ _ _ => (c, b, va)
  | _ => (.prot, 0, va)

/-- The place of a tensor byte (R201, R202, R319): `elem` marks element bytes, which the swizzle and the span check cover. No
engine reaches a private window (R152), and a byte of another device may have been refused by its owner (R328). -/
def tensorByte (s : State) (m : Cmd) (va : Word) (elem : Bool) : Except (Cause × Nat × Word) Loc :=
  let n := leNat m.shape
  let rd := m.kind == .ld
  let a := if elem then spanAddr n va else va
  let place : Chk Loc :=
    match windowOf a with
    | .priv _ => .error (prot 0 a)
    | _ => genByte s m.gang m.lane a (if rd then accEngRead else accEngWrite) 0
  match place with
  | .error h => .error (haltCause h a)
  | .ok l =>
    if (match l with | .remote d _ p => m.farNo.contains (farKey d p) | _ => false) then .error (.prot, 0, a) else
    if fmtAt s m.gang m.lane a != shFmt n then .error (.copyf, 5, a)
    else if rd && elem && (match l with | .phys p => SMap.getD s.span (p / 64) 0 != shSpan n | _ => false)
      then .error (.copyf, 0x23, a)
    else .ok l

/-- One unit of a tile, found: its element bytes, its exponent pair and its scratchpad bytes. -/
structure TileUnit where
  inb   : Bool
  va    : Word
  elems : List Loc
  pair  : List Loc
  sp    : List Loc
  high  : Bool
  deriving DecidableEq, Repr

/-- The element bytes of a unit before the swizzle, with their exponent pair's address, if it is touched. -/
def unitAddrs (n : Nat) (ws : List Word) (u : Nat) : List Word × Option Word :=
  let j := u * unitElems n
  if shFmt n == 0 then ((List.range (elemBytes (shEtype n))).map fun b => elemAddr n ws j + BitVec.ofNat 64 b, none)
  else
    let g := elemSeg n ws j
    let len := if shEncode n then (if shFmt n == 1 then 32 else 16) else 1
    let at_ := if shFmt n == 1 then g.2 else g.2 / 2
    ((List.range len).map fun b => g.1 + BitVec.ofNat 64 (at_ + b),
     if shEncode n || shDecode n then some (g.1 + BitVec.ofNat 64 (segElems (shFmt n) + 2 * (g.2 / 32))) else none)

/-- The scratchpad places of unit `u`. -/
def unitSpad (s : State) (m : Cmd) (u : Nat) : Except (Cause × Nat × Word) (List Loc) :=
  let k := unitBytes (leNat m.shape)
  let off := BitVec.ofNat 64 (cmdOff m.words + u * k)
  match spadBytes s m.gang m.lane off (cmdPair m.words) 0 k with
  | .ok l => .ok l
  | .error h => .error (haltCause h off)

/-- Unit `u` of a command's tile at its places, or the fault that it meets. -/
def findUnit (s : State) (m : Cmd) (u : Nat) : Except (Cause × Nat × Word) TileUnit := do
  let n := leNat m.shape
  let sp ← unitSpad s m u
  if !inBounds n m.words (u * unitElems n) then
    .ok { inb := false, va := 0, elems := [], pair := [], sp := sp, high := false }
  else
    let a := unitAddrs n m.words u
    let es ← a.1.mapM fun v => tensorByte s m v true
    let ps ← match a.2 with
      | none => .ok []
      | some v => [v, v + 1].mapM fun v => tensorByte s m v false
    let high := shFmt n == 2 && (elemSeg n m.words (u * unitElems n)).2 % 2 == 1
    .ok { inb := true, va := spanAddr n ((a.1.head?).getD 0), elems := es, pair := ps, sp := sp, high := high }

/-! ## EncodeBlock (R75) -/

/-- M, z and Tsmall of a block format. -/
def encParams (fmt : Nat) : Nat × Nat × Nat := if fmt == 1 then (63, 32, 8) else (3, 2, 2)

/-- Q(x, E) for the magnitude n / d. -/
def quant (fmt n d e : Nat) : Nat :=
  let p := scaleFrac (n * (encParams fmt).2.1) d (127 - (e : Int))
  roundNat .rne false p.1 p.2

/-- The lowest exponent at which every magnitude fits. -/
def lowestExp (fmt : Nat) (xs : List (Nat × Nat)) : Option Nat :=
  (List.range 255).find? fun e => xs.all fun x => quant fmt x.1 x.2 e ≤ (encParams fmt).1

/-- The error of n / d under an exponent with quantised magnitude `q`, as a fraction: |x| − Q × 2^(E − 127) / z with its sign, as
R75 writes it (log 15). -/
def quantErr (fmt n d q e : Nat) : Int × Nat :=
  let p := scaleFrac q (encParams fmt).2.1 ((e : Int) - 127)
  ((n * p.2 : Nat) - (p.1 * d : Nat), d * p.2)

/-- The exponent pair that a block takes: E_h, E_l and whether E_h clamps. -/
def blockExps (fmt : Nat) (xs : List Exact) : Nat × Nat × Bool :=
  let fin := xs.filterMap fun x => match x with | .num _ n d => some (n, d) | _ => none
  let h := lowestExp fmt fin
  let eh := h.getD 254
  let small := fin.filter fun x => quant fmt x.1 x.2 eh < (encParams fmt).2.2
  let el := if fin.length < xs.length then 0xFF else if small.isEmpty then eh else (lowestExp fmt small).getD eh
  (eh, el, h.isNone)

/-- The code and the events of one element. -/
def encodeElem (fmt eh el : Nat) (clamp : Bool) (x : Exact) : Nat × List Evt :=
  let bit := if fmt == 1 then 7 else 3
  match x with
  | .num neg n d =>
    let top := (encParams fmt).1
    let qh := quant fmt n d eh
    let mh := Nat.min qh top
    let ql := quant fmt n d el
    let low := el != 0xFF && ql ≤ top &&
      (let a := quantErr fmt n d ql el; let b := quantErr fmt n d mh eh; a.1 * b.2 < b.1 * a.2)
    let mant := if low then ql else mh
    let e := if low then el else eh
    let evs := (if clamp && top < qh then [Evt.bfx] else []) ++ (if (quantErr fmt n d mant e).1 != 0 then [Evt.inx] else [])
    (b2n (!low) * 2 ^ bit + b2n neg * 2 ^ (bit - 1) + mant, evs)
  | .inf _ => (0, [.inv])
  | .nan => (0, [])

/-- The bytes of a block, its exponent pair last, and its events. -/
def encodeBlock (fmt : Nat) (xs : List Exact) : List Byte × List Evt :=
  let e := blockExps fmt xs
  let cs := xs.map (encodeElem fmt e.1 e.2.1 e.2.2)
  let code := fun i => ((cs[i]?).map (·.1)).getD 0
  let bytes := if fmt == 1 then (List.range 32).map code else (List.range 16).map fun i => code (2 * i) + 16 * code (2 * i + 1)
  ((bytes ++ [e.1, e.2.1]).map (BitVec.ofNat 8), cs.flatMap (·.2))

/-- The source format of an encode (R199: SFMT). -/
def encodeFmt (n : Nat) : FFmt := match shSfmt n with | 0 => .e16 | 1 => .f32 | _ => .h16

/-! ## Landing (R204, R205) -/

/-- What a unit reads. -/
def unitReads (m : Cmd) (u : TileUnit) : List Loc :=
  match m.kind with | .ld => u.elems ++ u.pair | _ => if u.inb then u.sp else []

/-- A byte that a copy reads: of another device, what its owner has answered (R328). -/
def copyByte (s : State) (m : Cmd) : Loc → Byte
  | .remote d _ a => SMap.getD m.far (farKey d a) 0
  | l => locRead s l

/-- What a unit writes, and its events. -/
def unitWrites (s : State) (m : Cmd) (u : TileUnit) : List (Loc × Byte) × List Evt :=
  let n := leNat m.shape
  let b := fun (i : Nat) (ls : List Loc) => ((ls[i]?).map fun l => (copyByte s m l).toNat).getD 0
  match m.kind with
  | .ld =>
    if !u.inb then (u.sp.map fun l => (l, 0), [])
    else if shDecode n then
      (u.sp.zip (leBytes 2 (decodeElem (shFmt n) u.high (b 0 u.elems) (b 0 u.pair) (b 1 u.pair))), [])
    else (u.sp.zip (u.elems.map (copyByte s m)), [])
  | _ =>
    if !u.inb then ([], [])
    else if shEncode n then
      let w := (encodeFmt n).bits / 8
      let xs := (List.range 32).map fun i => fltVal (encodeFmt n) (leNat (((u.sp.map (locRead s)).drop (w * i)).take w))
      let e := encodeBlock (shFmt n) xs
      ((u.elems ++ u.pair).zip e.1, e.2)
    else (u.elems.zip (u.sp.map (locRead s)), [])

/-- The units of a range of tile bytes. -/
def unitRange (n first count : Nat) : List Nat := (List.range (count / unitBytes n)).map (first / unitBytes n + ·)

/-- Spans of tile bytes without [first, first + count). -/
def cutSpan (first count : Nat) (ls : List (Nat × Nat)) : List (Nat × Nat) :=
  ls.flatMap fun e =>
    let a := Nat.min (first - e.1) e.2
    let hi := first + count
    let b := Nat.min (e.1 + e.2 - hi) e.2
    (if a == 0 then [] else [(e.1, a)]) ++ (if b == 0 then [] else [(e.1 + e.2 - b, b)])

/-- Where a unit writes. -/
def unitDst (m : Cmd) (u : TileUnit) : List Loc := if m.kind == .ld then u.sp else u.elems ++ u.pair

/-- The destination addresses of the tile bytes from `a` to `b` of a TXFER: those of elements in bounds (R200, R202, R207). -/
def xferAddrs (m : Cmd) (a b : Nat) : List Word :=
  let n := leNat m.shape
  let eb := elemBytes (shEtype n)
  ((List.range (b - a)).map (a + ·)).filterMap fun i =>
    if inBounds n m.words (i / eb) then some (spanAddr n (elemAddr n m.words (i / eb) + BitVec.ofNat 64 (i % eb))) else none

/-- The tile bytes that a chunk of a TXFER carries. -/
def chunkRange (m : Cmd) (k : ChunkSt) : Nat × Nat :=
  let z := 2 ^ coChunk ((cmdComm m).getD 0)
  (k.idx * z, Nat.min ((k.idx + 1) * z) (tileBytes (leNat m.shape)))

/-- The chunks of a TXFER that have yet to write on a device: an all-reduce's writes on its own. -/
def chunksFor (m : Cmd) (dev : Nat) : List ChunkSt :=
  m.chunks.filter fun k => k.phase != .done && (if shAllr (leNat m.shape) then dev == Config.deviceId.toNat
    else coDev ((cmdComm m).getD 0) k.rank == dev)

/-- The place of an address that a TXFER writes on this device. -/
def xferPlace (s : State) (m : Cmd) (a : Word) : Option Loc :=
  match windowOf a with
  | .global v => match ctxByte s (ctxOfTeam m.team) v accEngWrite false with | .ok l => some l | .error _ => none
  | _ => none

/-- Where a command will yet write on this device; `none` where that is not known, since a page is not there. -/
def pendingDst (s : State) (m : Cmd) : Option (List Loc) :=
  let n := leNat m.shape
  match m.kind with
  | .ld | .st =>
    let us := m.left.flatMap fun e => unitRange n e.1 e.2
    (us.mapM fun u => match findUnit s m u with | .error _ => none | .ok p => some (unitDst m p)).map List.flatten
  | .xfer => ((chunksFor m Config.deviceId.toNat).flatMap fun k => xferAddrs m (chunkRange m k).1 (chunkRange m k).2).mapM (xferPlace s m)
  | .abort => some []

/-- An earlier command of the context has yet to write one of these places, or may have to (R198). -/
def behind (s : State) (core x : Nat) (m : Cmd) (dst : List Loc) : Bool :=
  (tcuOf s core x).cmds.any fun k => decide (k.num < m.num) &&
    (match pendingDst s k with | some ls => ls.any dst.contains | none => !dst.isEmpty)

/-- 64-byte lines of this device's memory among places. -/
def linesOf (ls : List Loc) : List Nat :=
  ls.foldl (fun r l => match l with | .phys a => if r.contains (a / 64) then r else (a / 64) :: r | _ => r) []

/-- The lines are granted from an island's byte budgets (R270); `none` where they do not fit what remains. -/
def grantLines (s : State) (core : Nat) (ls : List Loc) : Option State :=
  let i := islandOfCore core
  let I := islandOf s i
  let far := ((linesOf ls).filter fun k => (placeOf s (k / 1024)).res == 0).length * 64
  let l2 := ((linesOf ls).filter fun k => (placeOf s (k / 1024)).res != 0).length * 64
  if I.l2Used + l2 ≤ 4096 * I.l2b && I.farUsed + far ≤ 1024 * I.farb then
    some (modIsland s i fun I => { I with l2Used := I.l2Used + l2, farUsed := I.farUsed + far })
  else none

/-- The span code of the lines whose element bytes a copy writes (R202). -/
def recordSpan (s : State) (n : Nat) (ls : List Loc) : State :=
  { s with span := (linesOf ls).foldl (fun m k => SMap.putD m 0 k (shSpan n)) s.span }

/-- Scratchpad bytes written by a command (R339): by the team, unless it was issued before the team's checkpoint. -/
def noteCopy (s : State) (x : Nat) (m : Cmd) (ws : List (Loc × Byte)) : State :=
  let who := if beforeCkpt (teamOf s m.team) x m.num then none else some m.team
  ws.foldl (fun s p => match p.1 with | .spad a => noteSpad s who a | _ => s) s

/-- Tile bytes counted on a command's barrier (R168, R204, R340, R382). -/
def countBytes (s : State) (core x : Nat) (m : Cmd) (k : Nat) : State :=
  match cmdBar s m with
  | none => s
  | some ls =>
    let old := beforeCkpt (teamOf s m.team) x m.num
    let s := match ls.head? with
      | some (.spad a) =>
        if old then (match spadOwner s a with
          | some t => modTeam s t fun T => { T with landed := SMap.put T.landed a (SMap.getD T.landed a 0 + k) }
          | none => s)
        else ls.foldl (fun s l => match l with | .spad a => noteSpad s (some m.team) a | _ => s) s
      | _ => s
    let s := modCmd s core x m.num fun m => { m with landed := m.landed + k }
    let s := watchCheck s none 2 (ctxOfTeam m.team) 0xFF 0 ((m.bar).getD 0) ls
    barLand s ls k

/-- The static fault of a command: one known at issue, or one of its record (R206, R211). -/
def recordFault (s : State) (m : Cmd) : Option (Cause × Nat × Word) :=
  if m.cut.isSome then none
  else match m.bad, m.kind with
  | some b, _ => some b
  | none, .abort => none
  | none, _ =>
    (shapeDetail m.kind (leNat m.shape) m.words (cmdAllot s m.team m.words) (cmdComm m)).map fun d => (.copyf, d, m.recAddr)

/-- The generic address of a place that a command reads: a scratchpad byte's in its team's window or its partner's (R151). -/
def readVa (s : State) (m : Cmd) (va : Word) : Loc → Word
  | .spad a =>
    let T := teamOf s m.team
    let base := T.core * 2 ^ 18 + T.spBase
    if base ≤ a && a < base + T.spSize then BitVec.ofNat 64 (0x01FF000000000000 + (a - base))
    else
      let P := teamOf s (T.partner.getD m.team)
      BitVec.ofNat 64 (0x01FF800000000000 + (a - (P.core * 2 ^ 18 + P.spBase)))
  | _ => va

/-- The poison that units read (R337). -/
def unitsPoison (s : State) (m : Cmd) (us : List TileUnit) : Option (Cause × Nat × Word) :=
  us.findSome? fun u => (unitReads m u).findSome? fun l => (locPoison s l).map fun k => (.spue, k, readVa s m u.va l)

/-- The bytes of other devices that units read and that have no answer yet. -/
def copyWants (m : Cmd) (us : List TileUnit) : List (Loc × Byte) :=
  (us.flatMap (unitReads m)).filterMap fun l => match l with
    | .remote d _ a => if (SMap.find m.far (farKey d a)).isSome then none else some (l, 0)
    | _ => none

/-- They are asked for, neighbours together, unless answers are awaited already (R328). -/
def askCopy (s : State) (core x : Nat) (m : Cmd) (us : List TileUnit) : State :=
  if s.farOps.any fun f => f.who == .copy core x m.num then s
  else (remoteRuns (copyWants m us)).foldl (fun s r => askFarRead s (.copy core x m.num) r.1 r.2.1 r.2.2.1 r.2.2.2.length 0) s

/-- The units of a range at their places, when nothing stands against their landing: no fault, no earlier command of the context
(R198), no pinned line (R137). -/
def landable (s : State) (core x : Nat) (m : Cmd) (first count : Nat) : Option (List TileUnit) :=
  let n := leNat m.shape
  if !(m.kind == .ld || m.kind == .st) || (recordFault s m).isSome || count == 0 || first % unitBytes n != 0
      || count % unitBytes n != 0 || !(m.left.any fun e => e.1 ≤ first && first + count ≤ e.1 + e.2) then none
  else match (unitRange n first count).mapM (findUnit s m) with
    | .error _ => none
    | .ok us =>
      let dst := us.flatMap (unitDst m)
      if (unitsPoison s m us).isSome || behind s core x m dst || pinned s (dst ++ (cmdBar s m).getD []) then none else some us

/-- Copied bytes at their places: memory, span codes, poison, taint, the brine and the watchpoints (R202, R337, R339, R341,
R382). -/
def writeUnits (s : State) (x : Nat) (m : Cmd) (us : List TileUnit) (ws : List (Loc × Byte)) : State :=
  let n := leNat m.shape
  let s := noteCopy s x m ws
  let s := if m.kind == .ld then noteReads s m.team (us.flatMap (unitReads m))
           else noteStores s m.team (us.flatMap fun u => u.elems ++ u.pair)
  let s := clearPoison (locWrites s ws) ws
  let s := if m.kind == .st then recordSpan s n (us.flatMap (·.elems)) else s
  us.foldl (fun s u =>
    let off := BitVec.ofNat 64 (cmdOff m.words)
    let far := watchCheck s none (if m.kind == .ld then 0 else 1) (ctxOfTeam m.team) 0xFF 0 u.va u.elems
    watchCheck far none (if m.kind == .ld then 1 else 0) (ctxOfTeam m.team) 0xFF 0 off u.sp) s

/-- Written bytes that are another device's set out to it, each access with the address of its first byte (R328): the
identifiers of the accesses. -/
def sendOut (s : State) (who : FarWho) (vaOf : Loc → Word) (ws : List (Loc × Byte)) : State × List Nat :=
  (remoteRuns ws).foldl (fun r m =>
    let e := noteFar r.1 who m.1 m.2.1 m.2.2.1 m.2.2.2.length (vaOf (.remote m.1 m.2.1 m.2.2.1))
    (send e.2 (.remote m.1 e.1 { ctx := m.2.1, frame := m.2.2.1 / 65536, off := m.2.2.1 % 65536, size := m.2.2.2.length,
                                 data := some m.2.2.2 }), r.2 ++ [e.1])) (s, [])

/-- Bytes of a copy are there: they are counted on its barrier, with the last of them what was skipped or filled with zeros
(R204). -/
def countLanded (s : State) (core x num inb : Nat) : State :=
  match cmdOf s core x num with
  | none => s
  | some m =>
    let total := if m.left.isEmpty && m.outs.isEmpty && m.cut.isNone then tileBytes (leNat m.shape) - m.landed else inb
    { (if m.bar.isSome then countBytes s core x m total else s) with progress := s.progress + 1 }

/-- COPY_BYTES_LAND (R204, R205): whole units of a copy land and are subtracted from its barrier; skipped and zero-filled
bytes are subtracted with the last. Bytes of another device are asked for first, and those that go there count when its answers
are there (R328). -/
def execCopyBytesLand (core ctx num first count : Nat) (s : State) : Res :=
  match cmdOf s core ctx num with
  | none => .next s
  | some m =>
    match landable s core ctx m first count with
    | none => .next s
    | some us =>
      let n := leNat m.shape
      if !(copyWants m us).isEmpty then .next (askCopy s core ctx m us)
      else match grantLines s core (us.flatMap fun u => u.elems ++ u.pair) with
      | none => .next s
      | some s =>
        let wes := us.map (unitWrites s m)
        let s := writeUnits s ctx m us (wes.flatMap (·.1))
        let vaOf := fun (l : Loc) => ((us.find? fun u => (unitDst m u).contains l).map (·.va)).getD 0
        let r := sendOut s (.copy core ctx num) vaOf (wes.flatMap (·.1))
        let evs := (wes.flatMap (·.2)).map fun e => (e, m.lane)
        let inb := (us.filter (·.inb)).length * unitBytes n
        let out : List CopyOut := if r.2.isEmpty then [] else [{ first := first, count := count, inb := inb, ids := r.2 }]
        let s := modCmd r.1 core ctx num fun m =>
          { m with left := cutSpan first count m.left, events := m.events ++ evs, outs := m.outs ++ out }
        .next (if r.2.isEmpty then countLanded s core ctx num inb else { s with progress := s.progress + 1 })

/-- The answer of another device to an access of a copy (R328): bytes that it reads are kept, a part of the tile that it wrote
counts when every one of its accesses is answered, and a refusal is the command's fault. -/
def copyAnswer (s : State) (core x num : Nat) (o : FarOp) (data : Option (List Byte)) : State :=
  match cmdOf s core x num with
  | none => s
  | some m =>
    match m.outs.find? fun p => p.ids.contains o.id with
    | some p =>
      let rest := p.ids.filter (· != o.id)
      let outs := (m.outs.filter (· != p)) ++ (if rest.isEmpty then [] else [{ p with ids := rest }])
      let s := modCmd s core x num fun m =>
        { m with outs := outs, bad := if data.isNone && m.bad.isNone && m.cut.isNone then some (.prot, 0, o.va) else m.bad }
      if rest.isEmpty && m.bad.isNone && data.isSome then countLanded s core x num p.inb else s
    | none =>
      match data with
      | some bs => modCmd s core x num fun m =>
          { m with far := bs.zipIdx.foldl (fun f b => SMap.put f (farKey o.dev (o.loc + b.2)) b.1) m.far }
      | none => modCmd s core x num fun m => { m with farNo := m.farNo ++ (List.range o.len).map fun i => farKey o.dev (o.loc + i) }

/-- COPY_COMPLETE (R205, R207): every byte has landed, every chunk is answered, or every rank has acknowledged an abort; the
number completes. A command that a TCANCEL of a gang that is gone has stopped ends as cancelled (R208). -/
def execCopyComplete (core ctx num : Nat) (s : State) : Res :=
  match cmdOf s core ctx num with
  | none => .next s
  | some m =>
    let done := match m.kind with
      | .ld | .st => m.left.isEmpty && m.outs.isEmpty
      | .xfer => !m.chunks.isEmpty && m.chunks.all fun k => k.phase == .done
      | .abort => m.sent && m.acks.isEmpty
    match m.cut with
    | some g =>
      if inFlight m || (SMap.find s.gangs g).isSome then .next s
      else .next { cancelCmd s core ctx m with progress := s.progress + 1 }
    | none => if done && (recordFault s m).isNone then .next { finishCmd s core ctx m with progress := s.progress + 1 } else .next s

/-- How page faults of a TCU context are named among the masters. -/
def masterCopy (core x : Nat) : Nat := 2 ^ 61 + core * 4 + x

/-- The first fault of a command's remaining units: the unit of lowest offset in the tile. -/
def unitsFault (s : State) (m : Cmd) : Option (Cause × Nat × Word) :=
  (m.left.flatMap fun e => unitRange (leNat m.shape) e.1 e.2).findSome? fun u =>
    match findUnit s m u with
    | .error e => some e
    | .ok p => unitsPoison s m [p]

/-- The poison in a TXFER's source tile (R337). -/
def sourcePoison (s : State) (m : Cmd) : Option (Cause × Nat × Word) :=
  let n := leNat m.shape
  if m.kind != .xfer || m.cut.isSome || m.chunks.all (fun k => k.held.isSome) then none
  else match spadBytes s m.gang m.lane (BitVec.ofNat 64 (cmdOff m.words)) (cmdPair m.words) 0 (tileBytes n) with
    | .error h => some (haltCause h 0)
    | .ok ls => ls.findSome? fun l => (locPoison s l).map fun k => (.spue, k, readVa s m 0 l)

/-- The fault of a command after acceptance (R210, R211). -/
def copyFault (s : State) (m : Cmd) : Option (Cause × Nat × Word) :=
  match recordFault s m with
  | some f => some f
  | none => match m.kind with | .ld | .st => unitsFault s m | .xfer => sourcePoison s m | .abort => none

/-- COPY_FAULT (R210, R211, R323 to R326): a command's fault is reported at its number; a page fault is served first. -/
def execCopyFault (core ctx num : Nat) (s : State) : Res :=
  match cmdOf s core ctx num with
  | none => .next s
  | some m =>
    match copyFault s m with
    | none => .next s
    | some (c, sub, va) =>
      if c == .pagef && m.bad.isNone then
        if hostMode s 1 then
          if s.pfWaiters.any fun w => w.2 == masterCopy core ctx then .next s
          else .next (raisePageFault s (ctxOfTeam m.team) va.toNat accEngRead (masterCopy core ctx)).2
        else match zeroFill s (ctxOfTeam m.team) va.toNat with
          | some s => .next s
          | none => .next (faultCmd s core ctx m c sub va)
      else .next (faultCmd s core ctx m c sub va)

end Sys2Proof.Machine
end

