-- ==== Sys2Proof/Machine/Power.lean ====
section
/-!
DEFINITION. Power (R262 to R280): the token ring, reservations, byte budgets, operating classes and pools, pacing, and heat.
-/
namespace Sys2Proof.Machine

/-! ## Entitlements and the ring (R262, R263, R277) -/

/-- Nominal entitlement of a class (R264, Table 2). -/
def nominal (cls : Nat) : Nat := match cls with | 0 => 640 | 1 => 832 | 2 => 1024 | _ => 1216

/-- The class whose entitlement and clock hold now: the lower of the two during a transition (R273). -/
def effClass (I : Island) : Nat := if I.moving.isSome then Nat.min I.oldCls I.cls else I.cls

/-- The cap on a core's entitlement at a reading of `t` degrees (R277). -/
def thermalCap (cls t : Nat) : Option Nat := if t < 105 then none else some (Nat.max 160 (nominal cls * (115 - t) / 10))

/-- Tokens of one revolution for a core of island `i` (R262, R273, R277). -/
def entitlement (s : State) (i : Nat) : Nat :=
  let I := islandOf s i
  let e := if I.moving.isSome then Nat.min I.ent (nominal (effClass I)) else I.ent
  let e := match thermalCap (effClass I) (dieOf s (i / 8)).temp with | some c => Nat.min e c | none => e
  Nat.max 160 e

/-- Tokens added to a station, and what does not fit (R263). -/
def fillStation (s : State) (c n : Nat) : State × Nat :=
  let room := (16384 - heldTokens (coreOf s c)).toNat
  (modCore s c fun C => { C with tokens := C.tokens + (Nat.min n room : Nat) }, n - Nat.min n room)

/-- The surplus of a station goes round the ring to stations with a standing reservation (R263). -/
def offerSurplus (s : State) (die c n : Nat) : State :=
  ((List.range 79).foldl (fun (a : State × Nat) k =>
    let c' := 80 * die + (c % 80 + 1 + k) % 80
    if a.2 == 0 || (coreOf a.1 c').resv.isEmpty then a else fillStation a.1 c' a.2) (s, n)).1

/-- The cores of a die. -/
def coresOfDie (die : Nat) : List Nat := (List.range 80).map (80 * die + ·)

/-- What the ring has yet to bring a station of the cycles that have passed of the revolution under way (R262): a cycle of the
die-service clock brings entitlement / 128, and fractions are carried. -/
def ringDue (s : State) (c : Nat) : Nat :=
  let cycles := Nat.min 128 (2 * (s.now - (dieOf s (dieOfCore c)).revAt))
  (coreOf s c).ringEnt * cycles / 128 - (coreOf s c).ringGot

/-- The ring brings one station what is due to it: the state, and what does not fit. -/
def ringStation (s : State) (c : Nat) : State × Nat :=
  let n := ringDue s c
  fillStation (modCore s c fun C => { C with ringGot := C.ringGot + n }) c n

/-- The ring of a die brings its stations what is due to them; what does not fit goes round, and what no station takes is
discarded (R263). -/
def ringDeliver (s : State) (die : Nat) : State :=
  let r := (coresOfDie die).foldl (fun (a : State × List (Nat × Nat)) c =>
    let f := ringStation a.1 c
    (f.1, if f.2 == 0 then a.2 else a.2 ++ [(c, f.2)])) (s, [])
  r.2.foldl (fun s e => offerSurplus s die e.1 e.2) r.1

/-- A revolution begins: the entitlements of a die's cores are fixed (R262). -/
def ringStart (s : State) (die : Nat) : State :=
  let s := modDie s die fun D => { D with revAt := D.revAt + 64 }
  (coresOfDie die).foldl (fun s c => modCore s c fun C => { C with ringEnt := entitlement s (islandOfCore c), ringGot := 0 }) s

/-- RING_REVOLUTION (R262, R263): the ring of a die delivers what is due by now; at the end of a revolution the next one
begins (log 16). -/
def execRingRevolution (die : Nat) (s : State) : Res :=
  if 4 ≤ die || s.power != .on then .next s
  else if s.now < (dieOf s die).revAt + 64 then .next (ringDeliver s die)
  else .next (ringStart (ringDeliver s die) die)

/-- TOKEN_RESERVATION_PAID (R266 to R268): the tokens of a station go to its oldest unpaid reservations, and a gang whose
reservation is paid has its wait added to TOK.WAIT. -/
def execTokenReservationPaid (core : Nat) (s : State) : Res :=
  let C := coreOf s core
  let D := serveResv C
  let paid := (C.resv.zip D.resv).filter fun e => e.1.paid < e.1.price && e.2.price ≤ e.2.paid
  let s := modCore s core fun _ => D
  .next { (paid.foldl (fun s e =>
    match e.1.holder with
    | .gang g => modGang s g fun G => srPut G rTokWait (srGet G rTokWait + BitVec.ofNat 64 (cyclesOf s core - e.1.placed))
    | .matrix => s) s) with progress := s.progress + 1 }

/-- BUDGET_INTERVAL (R270): a new interval of CLK.NS opens with every budget unspent. -/
def execBudgetInterval (die : Nat) (s : State) : Res :=
  if s.now / 1000 ≤ (dieOf s die).budgetAt then .next s
  else
    let s := modDie s die fun D => { D with budgetAt := s.now / 1000 }
    .next ((List.range 8).foldl (fun s k => modIsland s (8 * die + k) fun I => { I with l2Used := 0, farUsed := 0 }) s)

/-! ## Classes and pools (R271 to R274) -/

/-- OFFSET of the pacing register (R276, Table 3). -/
def paceOffset (s : State) : Nat := Word.fld s.pacing 61 2

/-- The running class of a pool under the pacing offset (R272). -/
def runClass (s : State) (pool : Nat) : Nat := pool - paceOffset s

/-- An island is to run pool `p` at the present offset: a transition of 40 µs begins, or is noted to follow the one under
way (R273). -/
def moveIsland (s : State) (i p : Nat) : State :=
  modIsland s i fun I =>
    if I.moving.isSome then { I with nextPool := some p }
    else { I with pool := p, oldCls := I.cls, cls := runClass s p, moving := some (s.now + 40000) }

/-- CLASS_TRANSITION_END (R264, R273): the transition ends; in hardware mode ENT becomes the class's nominal figure; a
reassignment asked for meanwhile begins. -/
def execClassTransitionEnd (island : Nat) (s : State) : Res :=
  let I := islandOf s island
  match I.moving with
  | none => .next s
  | some e =>
    if s.now < e then .next s
    else
      let ent := if hostMode s 4 then I.ent else nominal I.cls
      let s := modIsland s island fun I => { I with moving := none, oldCls := I.cls, ent := ent, nextPool := none }
      .next (match I.nextPool with
        | some p => if p != I.pool || runClass s p != I.cls then moveIsland s island p else s
        | none => s)

/-- POOL, ENT, L2B and FARB of an island are written (R263, R264). -/
def writeIsland (s : State) (island : Nat) (val : Word) : State :=
  let old := (islandOf s island).pool
  let s := [0, 1, 2, 3].foldl (fun s d => modDie s d fun D => { D with told := none }) s
  let s := modIsland s island fun I =>
    { I with ent := Nat.max 160 (Word.fld val 36 12), l2b := Nat.max 1 (Word.fld val 22 12),
             farb := Nat.max 1 (Word.fld val 10 12) }
  if Word.fld val 60 2 == old && (islandOf s island).nextPool.isNone then s else moveIsland s island (Word.fld val 60 2)

/-- POOL_WRITE (R263, R264): the host writes an island's register; in hardware mode the write is ignored. -/
def execPoolWrite (island : Nat) (val : Word) (s : State) : Res :=
  if !hostMode s 4 || 32 ≤ island then .next s else .next (writeIsland s island val)

/-- In hardware mode the power controller writes an island's register from rail and thermal readings (R264); no rule says with
which values, and the inputs bring any (log 60). -/
def railWrite (s : State) (island : Nat) (val : Word) : State :=
  if hostMode s 4 || 32 ≤ island || s.power != .on then s else writeIsland s island val

/-- An island's register as it reads (R263, Table 1). -/
def islandWord (I : Island) : Word :=
  BitVec.ofNat 64 (I.cls * 2 ^ 62 + I.pool * 2 ^ 60 + b2n I.moving.isSome * 2 ^ 59 + I.ent * 2 ^ 36 + I.l2b * 2 ^ 22 + I.farb * 2 ^ 10)

/-- The teams that stand on an island. -/
def teamsOnIsland (s : State) (i : Nat) : List Nat :=
  (s.teams.filter fun e => islandOfCore e.2.core == i && e.2.st != .saved).map (·.1)

/-- The island that a die's power controller chooses for a class that no pool has (R274). -/
def drainChoice (s : State) (die : Nat) : Nat :=
  (List.range 8).foldl (fun b k =>
    if (teamsOnIsland s (8 * die + k)).length < (teamsOnIsland s b).length then 8 * die + k else b) (8 * die)

/-- A record's class is the pool of no core island of the device, nor about to be (R274). -/
def noPool (s : State) (cls : Nat) : Bool :=
  (List.range 32).all fun i => let I := islandOf s i; I.pool != cls && I.nextPool != some cls

/-- The die that acts for a record with an unserved class (R274): an island drains, or the host is told. -/
def wantPool (s : State) (die cls : Nat) : State :=
  if hostMode s 4 then
    if (dieOf s die).told == some cls then s
    else toHost (modDie s die fun D => { D with told := some cls }) (.notify 0x05 [die, cls] [])
  else if (dieOf s die).drain.isSome then s
  else
    let i := drainChoice s die
    if (teamsOnIsland s i).isEmpty then moveIsland s i cls
    else modDie s die fun D => { D with drain := some i, drainCls := cls }

/-- ISLAND_DRAINED (R274): a draining island that is empty is reassigned to the wanted pool. -/
def execIslandDrained (die : Nat) (s : State) : Res :=
  match (dieOf s die).drain with
  | none => .next s
  | some i =>
    if !(teamsOnIsland s i).isEmpty then .next s
    else
      let cls := (dieOf s die).drainCls
      .next (moveIsland (modDie s die fun D => { D with drain := none }) i cls)

/-- UNIT_GATE (R275): a unit without an instruction of its class for 64 cycles is gated; latency alone changes. -/
def execUnitGate (core quarter : Nat) (cls : UnitCls) (s : State) : Res :=
  let k := 4 * quarter + (match cls with | .matrix => 0 | .vfloat => 1 | .sli => 2 | .memory => 3)
  if cyclesOf s core < SMap.getD (coreOf s core).unitAt k 0 + 64 then .next s
  else .next (modCore s core fun C => { C with gated := SMap.put C.gated k 1 })

/-! ## Pacing (R276) -/

/-- An island follows the present OFFSET (R272, R273): one whose running class stays as it is has no transition. -/
def followOffset (s : State) (i : Nat) : State :=
  let I := islandOf s i
  let p := I.nextPool.getD I.pool
  if I.moving.isNone && p == I.pool && runClass s p == I.cls then s else moveIsland s i p

/-- Every core island follows a change of OFFSET (R272). -/
def setOffset (s : State) (o : Nat) : State :=
  let s := { s with pacing := BitVec.ofNat 64 (setFld s.pacing.toNat 61 2 o), paceDown := 0, paceUp := 0, paceAt := some s.now }
  (List.range 32).foldl followOffset s

/-- The communicator that the pacing register follows, when `commid` with `ranks` ranks has just completed (R276). -/
def followed (s : State) (commid ranks : Nat) : Bool × State :=
  let f := Word.fld s.pacing 16 16
  if f != 0 then (f == commid, s)
  else match s.paceComm with
    | some c => (c == commid, s)
    | none => if 1 < ranks then (true, { s with paceComm := some commid }) else (false, s)

/-- One step (R276): the completion of an all-reduce on the followed communicator, issued at `issued`. -/
def pacingStep (s : State) (commid ranks issued : Nat) : State :=
  if !s.pacing.getLsbD 63 then s
  else
    let f := followed s commid ranks
    let s := f.2
    if !f.1 then s
    else match s.lastStep with
      | none => { s with lastStep := some s.now }
      | some last =>
        let w := s.now - issued
        let i := s.now - last
        let down := if i < 5 * w then s.paceDown + 1 else 0
        let up := if 20 * w < i then s.paceUp + 1 else 0
        let slack := if i == 0 then 100 else Nat.min 100 (100 * w / i)
        let s := { s with lastStep := some s.now, paceDown := down, paceUp := up,
                          pacing := BitVec.ofNat 64 (setFld s.pacing.toNat 0 8 slack) }
        let still : Bool := match s.paceAt with | some a => decide (s.now < a + 50000000) | none => false
        if still then s
        else if 8 ≤ down && paceOffset s < 3 then setOffset s (paceOffset s + 1)
        else if 4 ≤ up && 0 < paceOffset s then setOffset s (paceOffset s - 1)
        else s

/-- PACING_DISABLE (R276): EN is written 0, and OFFSET becomes 0 with it. -/
def execPacingDisable (s : State) : Res :=
  let s := { s with pacing := BitVec.ofNat 64 (setFld s.pacing.toNat 63 1 0) }
  .next (if paceOffset s == 0 then s else setOffset s 0)

/-! ## Heat (R277 to R279) -/

/-- Runs of consecutive numbers: first and length (R279). -/
def runsOf (xs : List Nat) : List (Nat × Nat) :=
  let m := xs.foldl (fun m x => SMap.put m x ()) ([] : SMap Unit)
  (m.map (·.1)).foldr (fun x r => match r with | (a, n) :: t => if a == x + 1 then (x, n + 1) :: t else (x, 1) :: r | [] => [(x, 1)]) []

/-- PENDING of a join counter of a context. -/
def pendingOf (s : State) (ctx : Nat) (va : Word) : Nat := (ctxRead s ctx va.toNat 8 true).getD 0

/-- The entries of a fate record (R279): launch entries, each with its range entries, then join entries. -/
def fateEntries (s : State) (ctx : Nat) : List (List Byte) × Nat × Nat :=
  let here := s.teams.filter fun e => e.2.ctx == ctx && e.2.st != .saved
  let ls := s.launches.filter fun e => here.any fun t => t.2.launch == some e.1
  let launch := ls.flatMap fun e =>
    let rs := runsOf e.2.retired
    (leBytes 8 e.2.lpbAddr.toNat ++ leBytes 8 e.2.value.toNat ++ leBytes 8 (pendingOf s ctx e.2.counter) ++ leBytes 8 (rs.length % 2 ^ 32))
      :: rs.map fun r => leBytes 8 r.1 ++ leBytes 8 r.2
  let joins := (here.foldl (fun m t => if t.2.record.join == 0 then m else SMap.put m t.2.record.join.toNat ()) ([] : SMap Unit)).map (·.1)
  let js := joins.map fun a => leBytes 8 a ++ leBytes 8 (pendingOf s ctx (BitVec.ofNat 64 a))
  (launch ++ js, ls.length, joins.length)

/-- Entries that fit in `n` bytes, whole. -/
def wholeEntries : Nat → List (List Byte) → List Byte × Bool
  | _, [] => ([], false)
  | n, e :: t => if n < e.length then ([], true) else let r := wholeEntries (n - e.length) t; (e ++ r.1, r.2)

/-- A context's fate record (R279, Table 4). -/
def fateRecord (s : State) (ctx die : Nat) : List Byte :=
  let e := fateEntries s ctx
  let b := wholeEntries (65536 - 64) e.1
  leBytes 64 (s.now % 2 ^ 64 * 2 ^ 448 + Config.deviceId.toNat * 2 ^ 438 + ctx * 2 ^ 426 + b2n b.2 * 2 ^ 425 + die % 4 * 2 ^ 423
    + e.2.1 % 2 ^ 16 * 2 ^ 400 + e.2.2 % 2 ^ 16 * 2 ^ 384) ++ b.1

/-- A trip (R278, R279): quarters and engines stop, copies and chunks in flight are lost, and the host receives a fate
record for each context with resident work. A trip ends every debug stop (R387). -/
def tripDevice (s : State) (die : Nat) : State :=
  let ctxs := (s.teams.foldl (fun m e => if e.2.st != .saved then SMap.put m e.2.ctx () else m) ([] : SMap Unit)).map (·.1)
  let s : State := ctxs.foldl (fun s c => toHost s (.fate c (fateRecord s c die))) s
  let s : State := { s with gangs := s.gangs.map fun e => (e.1, { e.2 with stopped := false }) }
  let s : State := s.cores.foldl (fun s e => mgmtPut s (offDbg e.1) (BitVec.ofNat 64 (setFld (mgmtGet s (offDbg e.1)).toNat 0 32 0))) s
  { s with power := .tripped s.now, cores := s.cores.map fun e => (e.1, { e.2 with tcu := [] }), matrix := [], cxes := [], sendRes := [], stops := [] }

/-- THERMAL_READING (R277, R278): the hottest sensor of a die is read; at 118 degrees the device trips. -/
def execThermalReading (die temp : Nat) (s : State) : Res :=
  if s.power != .on || 4 ≤ die then .next s
  else
    let s := modDie s die fun D => { D with temp := temp }
    .next (if 118 ≤ temp then tripDevice s die else s)

/-- POWER_REMOVAL (R278): after a trip, power goes. -/
def execPowerRemoval (s : State) : Res :=
  match s.power with
  | .tripped _ => .next { s with power := .off }
  | _ => .next s

end Sys2Proof.Machine
end

