-- ==== Sys2Proof/Machine/Ports.lean ====
section
/-!
DEFINITION. Optical ports (R281 to R285, R298), the messages of the FSQ (R286, R299), and the course of a script context
(R287 to R289).
-/
namespace Sys2Proof.Machine

/-! ## Script contexts (R287 to R289) -/

def fGet (S : Script) (i : Nat) : Word := SMap.getD S.f i 0
def fPut (S : Script) (i : Nat) (w : Word) : Script := { S with f := SMap.putD S.f 0 i w }

/-- The word index is `pc`; past the last word the script ends (R288). -/
def scriptAt (S : Script) (pc : Nat) : Script :=
  { S with pc := pc, wait := none, st := if pc < S.store.length then .running else .idle }

/-- The word is done and the next follows. -/
def scriptNext (S : Script) : Script := scriptAt S (S.pc + 1)

/-- The target of a branch: `off` words from the branch word (R291). -/
def scriptTarget (S : Script) (off : BitVec 24) : Int := (S.pc : Int) + sext 24 off.toNat

/-- A target lies in the script (R288, R293). -/
def targetOk (S : Script) (off : BitVec 24) : Bool :=
  decide (0 ≤ scriptTarget S off ∧ scriptTarget S off < S.store.length)

/-- A taken branch. -/
def scriptJump (S : Script) (off : BitVec 24) : Script := scriptAt S (scriptTarget S off).toNat

/-- A script context stops on a fault (R288, R326): the two-level name is the word's address and the timeline's value. -/
def scriptFault (s : State) (c : Nat) (cause : Cause) (sub : Nat) : State :=
  let S := scriptOf s c
  let r : FaultRec :=
    { pc := S.base + BitVec.ofNat 64 (8 * S.pc), addr := 0, tl := S.tl, team := 0, core := 0, gang := 0,
      dev := Config.deviceId.toNat, ctx := S.actx, lane := 0xFF, field := 0, sub := sub, cause := cause, master := 5, unit := c,
      restart := false, dbl := false, extra := 0 }
  reportFault (modScript s c fun S => { S with st := .stopped, wait := none, cause := cause.code }) r

/-- Runs the meaning of a fabric word in the script context that executes it. -/
def fabric (s : State) (f : Nat → State) : Res :=
  match s.script with
  | none => .fault .noScript
  | some c => .next { f c with progress := s.progress + 1 }

/-- A word waits (R288, R289). -/
def scriptWait (s : State) (c : Nat) (i : Instr) : State :=
  modScript s c fun S => { S with st := .waiting, wait := some i, since := s.now }

/-! ## Messages (R286) -/

/-- The identity of a script context (R286). -/
def scriptIdent (s : State) (c : Nat) : Word :=
  BitVec.ofNat 64 (Config.deviceId.toNat * 2 ^ 54 + (scriptOf s c).actx % 2 ^ 12 * 2 ^ 42 + (2 ^ 37 - 1) * 2 ^ 5 + c)

/-- Bits [127:0] of a message (R286, Table 2). -/
def fsqLow (m : FsqMsg) : Nat :=
  m.type.toNat * 2 ^ 120 + m.dev.toNat * 2 ^ 110 + m.port.toNat * 2 ^ 105 + m.peerDev.toNat * 2 ^ 95 + m.peerPort.toNat * 2 ^ 90
    + m.reqno.toNat

/-- DIGEST of a message (R286). -/
def fsqDigest (m : FsqMsg) : W32 := crc32c (leBytes 16 (fsqLow m) ++ leBytes 16 m.payload.toNat)

/-- A message of a script context leaves with its next serial, and is kept until it is acknowledged (R286). The FSQ's own
messages, for the host's port commands, stand as context 8. -/
def fsqSend (s : State) (c : Nat) (m : FsqMsg) : State :=
  let own := c == 8
  let serial := if own then s.fsqSerial else (scriptOf s c).serial
  let m := { m with serial := serial, ident := scriptIdent s c }
  let m := { m with digest := fsqDigest m }
  let s := if own then { s with fsqSerial := s.fsqSerial + 1 } else modScript s c fun S => { S with serial := S.serial + 1 }
  let s := { s with fsqOut := s.fsqOut ++ [{ msg := m, sentAt := s.now, sends := 1 }] }
  send s (.fsq m)

/-- A message to the circuit manager about a port. -/
def cmMsg (type : Nat) (p peerDev peerPort reqno : Nat) : FsqMsg :=
  { payload := 0, serial := 0, digest := 0, ident := 0, type := BitVec.ofNat 8 type, dev := Config.deviceId,
    port := BitVec.ofNat 5 p, peerDev := BitVec.ofNat 10 peerDev, peerPort := BitVec.ofNat 5 peerPort,
    reqno := BitVec.ofNat 16 reqno }

/-- A received message is acknowledged; `none` where it has been accepted before (R286). -/
def fsqAccept (s : State) (m : FsqMsg) : State × Bool :=
  let s' := send s (.fsqAck m.ident m.serial)
  if s.fsqSeen.contains (m.ident, m.serial) then (s', false)
  else ({ s' with fsqSeen := (m.ident, m.serial) :: s.fsqSeen }, true)

/-! ## Ports (R281 to R285, R298) -/

def PortSt.code : PortSt → Nat
  | .dark => 0 | .locking => 1 | .trained => 2 | .live => 3

/-- The port status word (R298, Table 4). -/
def portWord (P : Port) : Word :=
  BitVec.ofNat 64 (PortSt.code P.st * 2 ^ 62 + b2n P.armed * 2 ^ 61 + b2n P.drain.isSome * 2 ^ 60 + P.peerDev % 1024 * 2 ^ 50
    + P.peerPort % 32 * 2 ^ 45 + P.reqst % 32 * 2 ^ 40 + P.fails % 256 * 2 ^ 32 + P.gate.toNat)

/-- The chunks on their way on a port (R284), those of commands that have faulted or were cancelled among them. -/
def portBusy (s : State) (p : Nat) : Bool :=
  (s.cores.any fun e => e.2.tcu.any fun x => x.2.cmds.any fun m => m.chunks.any fun k =>
    match k.phase with | .flying q _ => q == p | _ => false)
  || s.sendRes.any fun r => r.unans.any fun u => u.path == p && !u.lost && !u.full

/-- The port that a communicator's rank is bound to (R285). -/
def bindingOf (s : State) (ctx commid rank : Nat) : Option Nat :=
  (s.binds.find? fun b => b.ctx == ctx && b.commid == commid && b.rank == rank).map (·.port)

/-- A chunk after its port has left LIVE: it waits, and its wait clock restarts (R219). -/
def chunkDown (s : State) (ctx p : Nat) (m : Cmd) (k : ChunkSt) : ChunkSt :=
  match k.phase with
  | .flying q _ => if q == p then { k with phase := .waiting s.now } else k
  | .waiting _ =>
    if (cmdComm m).any fun c => bindingOf s ctx (coId c) k.rank == some p then { k with phase := .waiting s.now } else k
  | .done => k

/-- Unanswered chunks after a port has left LIVE: those in flight on it are lost (R219). -/
def unansDown (p : Nat) (r : TxResv) : TxResv :=
  { r with unans := r.unans.map fun u => if u.path == p then { u with lost := true } else u }

/-- The chunks of every TXFER after a port has left LIVE (R219). -/
def chunksDown (s : State) (p : Nat) : State :=
  { s with sendRes := s.sendRes.map (unansDown p), cores := s.cores.map fun e => (e.1, { e.2 with tcu := e.2.tcu.map fun x =>
      (x.1, { x.2 with cmds := x.2.cmds.map fun m => { m with chunks := m.chunks.map (chunkDown s (ctxOfTeam m.team) p m) } }) }) }

/-- The wait clocks of the chunks bound to a LIVE port whose bindings go (R219). -/
def waitAnew (s : State) (p : Nat) : State :=
  let one := fun (ctx : Nat) (m : Cmd) (k : ChunkSt) =>
    match k.phase with
    | .waiting _ =>
      if (cmdComm m).any fun c => bindingOf s ctx (coId c) k.rank == some p then { k with phase := .waiting s.now } else k
    | _ => k
  { s with cores := s.cores.map fun e => (e.1, { e.2 with tcu := e.2.tcu.map fun x =>
      (x.1, { x.2 with cmds := x.2.cmds.map fun m => { m with chunks := m.chunks.map (one (ctxOfTeam m.team) m) } }) }) }

/-- The state that a CWAIT waits for on port `p` is reached, or its request is refused (R295). -/
def cwaitReady (P : Port) (p : Nat) (i : Option Instr) : Option (Fin 16 × Bool × BitVec 24) :=
  match i with
  | some (.cwait fd port st _ off) =>
    if port.val != p then none
    else if P.st == st then some (fd, true, off)
    else if P.reqst == 3 then some (fd, false, off) else none
  | _ => none

/-- A waiting CWAIT completes: fd receives the status word, and execution falls through or takes the else branch (R295). -/
def finishCwait (s : State) (c : Nat) (fd : Fin 16) (port : Nat) (fell : Bool) (off : BitVec 24) : State :=
  modScript s c fun S =>
    let S := fPut S fd.val (portWord (portOf s port))
    if fell then scriptNext S else scriptJump S off

/-- The script contexts that wait for port `p` at this instant (R295). -/
def wakeCwaits (s : State) (p : Nat) : State :=
  (List.range 8).foldl (fun s c =>
    let S := scriptOf s c
    if S.st != .waiting then s
    else match cwaitReady (portOf s p) p S.wait with
      | some (fd, fell, off) => finishCwait s c fd p fell off
      | none => s) s

/-- A port moves to another state (R281): its gate advances at every entry to and exit from LIVE (R171). -/
def movePort (s : State) (p : Nat) (dst : PortSt) : State :=
  let P := portOf s p
  let was := P.st == .live
  let is := dst == .live
  let s := modPort s p fun P => { P with st := dst, since := s.now, gate := if was != is then P.gate + 1 else P.gate, crc := 0 }
  let s := if was && !is then chunksDown s p else s
  wakeCwaits s p

/-- Light on an armed dark port starts one attempt to lock (R281, R282). -/
def tryLock (s : State) (p : Nat) : State :=
  let P := portOf s p
  if P.light && P.armed && P.st == .dark && !P.tried then movePort (modPort s p fun P => { P with tried := true }) p .locking
  else s

/-- A port is armed (R282, R294): its request is pending, and light that is present counts as detected. -/
def armPort (s : State) (p owner peerDev peerPort : Nat) : State :=
  let n := s.reqno
  let s := { s with reqno := if n == 65535 then 1 else n + 1 }
  let s := modPort s p fun P =>
    { P with armed := true, owner := owner, peerDev := peerDev, peerPort := peerPort, reqst := 1, reqno := n, fails := 0, tried := false }
  tryLock (fsqSend s owner (cmMsg 0x01 p peerDev peerPort n)) p

/-- A release's last steps (R284, R297): the port is unarmed, one that was LIVE goes dark, and CM_REL is queued. A port that
locks or trains goes on to do so, since Table 1 of R281 lists no other way (log 61). -/
def finishRelease (s : State) (p : Nat) : State :=
  let P := portOf s p
  let s := modPort s p fun P =>
    { P with armed := false, owner := 0, drain := none, reqst := 0, peerDev := 0, peerPort := 0, tried := false }
  let s := if P.st == .live then movePort s p .dark else s
  fsqSend s P.owner (cmMsg 0x04 p P.peerDev P.peerPort P.reqno)

/-- A release begins (R284, R297): the bindings go; a LIVE port with chunks in flight drains. The second part is whether it
is done. -/
def releasePort (s : State) (p : Nat) : State × Bool :=
  let s := if (portOf s p).st == .live then waitAnew s p else s
  let s := { s with binds := s.binds.filter fun b => b.port != p }
  if (portOf s p).st == .live && portBusy s p then (modPort s p fun P => { P with drain := some (s.now + 2000) }, false)
  else (finishRelease s p, true)

/-- The CREL that waits for a drain completes, writing 0 (R297). -/
def endCrel (s : State) (p owner : Nat) : State :=
  let S := scriptOf s owner
  match S.wait with
  | some (.crel fd q) =>
    if q.val == p && S.st == .waiting then modScript s owner fun S => scriptNext (fPut S fd.val 0) else s
  | _ => s

/-- The end of a drain (R284). -/
def endDrain (s : State) (p : Nat) : State :=
  let owner := (portOf s p).owner
  endCrel (finishRelease s p) p owner

/-- LIGHT_DETECTED (R281, R282). -/
def execLightDetected (port : Nat) (s : State) : Res :=
  .next (tryLock (modPort s port fun P => { P with light := true, tried := if P.light then P.tried else false }) port)

/-- A failed lock or training (R281): FAILS rises, holding at 255. -/
def failPort (s : State) (p : Nat) : State :=
  movePort (modPort s p fun P => { P with fails := Nat.min 255 (P.fails + 1) }) p .dark

/-- WAVELENGTH_LOCK (R281): within 25 µs of detection, or the attempt has failed by then. -/
def execWavelengthLock (port : Nat) (s : State) : Res :=
  let P := portOf s port
  if P.st != .locking then .next s
  else .next (if s.now ≤ P.since + 25000 then movePort s port .trained else failPort s port)

/-- LOCK_TIMEOUT (R281): 25 µs after detection. -/
def execLockTimeout (port : Nat) (s : State) : Res :=
  let P := portOf s port
  if P.st == .locking && P.since + 25000 ≤ s.now then .next (failPort s port) else .next s

/-- TRAINING_COMPLETE (R281): the port enters LIVE, within 3 µs, or the training has failed by then. -/
def execTrainingComplete (port : Nat) (s : State) : Res :=
  let P := portOf s port
  if P.st != .trained then .next s
  else .next (if s.now ≤ P.since + 3000 then movePort s port .live else failPort s port)

/-- TRAINING_TIMEOUT (R281): 3 µs after entering TRAINED. -/
def execTrainingTimeout (port : Nat) (s : State) : Res :=
  let P := portOf s port
  if P.st == .trained && P.since + 3000 ≤ s.now then .next (failPort s port) else .next s

/-- LIGHT_LOST (R281, R282, R284): the port goes dark, and a drain ends at once. -/
def execLightLost (port : Nat) (s : State) : Res :=
  let s := modPort s port fun P => { P with light := false, tried := false }
  let P := portOf s port
  if P.drain.isSome then .next (endDrain s port)
  else .next (if P.st == .dark then s else movePort s port .dark)

/-- FLIT_CRC_ERROR (R283): a flit is retried; the 32nd failure of one flit in succession is a link failure. -/
def execFlitCrcError (e : FlitError) (s : State) : Res :=
  let port := e.port
  let P := portOf s port
  let n := if e.first then 1 else P.crc + 1
  if P.st != .live then .next s
  else if n < 32 then .next (modPort s port fun P => { P with crc := n })
  else if P.drain.isSome then .next (endDrain s port)
  else .next (movePort (modPort s port fun P => { P with tried := true }) port .dark)

/-- DRAIN_END (R284): the last chunk in flight on a draining port has landed. -/
def execDrainEnd (port : Nat) (s : State) : Res :=
  if (portOf s port).drain.isSome && !portBusy s port then .next (endDrain s port) else .next s

/-- DRAIN_TIMEOUT (R284): 2 µs after the release. -/
def execDrainTimeout (port : Nat) (s : State) : Res :=
  match (portOf s port).drain with
  | some t => if t ≤ s.now then .next (endDrain s port) else .next s
  | none => .next s

/-! ## Messages from the circuit manager and from other FSQs (R286) -/

/-- The port that a grant or a refusal names takes REQST only while it is armed and the REQNO is its last (R286). -/
def setReqst (s : State) (m : FsqMsg) (v : Nat) : State :=
  let a := fsqAccept s m
  let p := m.port.toNat
  let P := portOf a.1 p
  if a.2 && P.armed && P.reqno == m.reqno.toNat then wakeCwaits (modPort a.1 p fun P => { P with reqst := v }) p else a.1

/-- CM_GRANT (R286). -/
def execCmGrant (m : FsqMsg) (s : State) : Res := .next (setReqst s m 2)
/-- CM_REFUSE (R286, R295): a waiting CWAIT of the port takes its else branch. -/
def execCmRefuse (m : FsqMsg) (s : State) : Res := .next (setReqst s m 3)
/-- CM_DROP (R286): acknowledged; it changes nothing itself. -/
def execCmDrop (m : FsqMsg) (s : State) : Res := .next (fsqAccept s m).1

/-- A mailbox message that an ERECV with a tag takes (R300): its place. -/
def mailFor (S : Script) (tag : BitVec 16) : Option Nat :=
  ((S.mailbox.zipIdx.find? fun e => e.1.type == 0x11 && (tag == 0xFFFF || e.1.reqno == tag)).map (·.2))

/-- ERECV takes message `i` (R300): the payload goes to fd and fd + 1. -/
def takeMail (S : Script) (fd : Nat) (i : Nat) : Script :=
  match S.mailbox[i]? with
  | none => S
  | some m =>
    let S := fPut (fPut S fd (m.payload.extractLsb' 0 64)) (fd + 1) (m.payload.extractLsb' 64 64)
    scriptNext { S with mailbox := S.mailbox.eraseIdx i }

/-- SCRIPT_MESSAGE_RECEIVE (R286, R300): a message enters the mailbox of its script context, or is not acknowledged where the
mailbox is full; an ERECV that waits for it takes it. -/
def execScriptMessageReceive (m : FsqMsg) (s : State) : Res :=
  let c := m.port.toNat % 8
  let S := scriptOf s c
  if s.fsqSeen.contains (m.ident, m.serial) then .next (fsqAccept s m).1
  else if 16 ≤ S.mailbox.length then .next s
  else
    let s := (fsqAccept s m).1
    let s := modScript s c fun S => { S with mailbox := S.mailbox ++ [m] }
    let S := scriptOf s c
    match S.st, S.wait with
    | .waiting, some (.erecv fd _ tag _) =>
      match mailFor S tag with
      | some i => .next (modScript s c fun S => takeMail S fd.val i)
      | none => .next s
    | _, _ => .next s

/-- The EMSG of a script context ends with a status (R299). -/
def endEmsg (s : State) (c : Nat) (status : Word) : State :=
  match (scriptOf s c).st, (scriptOf s c).wait with
  | .waiting, some (.emsg fd _ _ _) => modScript s c fun S => scriptNext (fPut S fd.val status)
  | _, _ => s

/-- Messages of EMSG are sent at most 64 times (R299). -/
def isEmsg (m : FsqMsg) : Bool := m.type == 0x10 || m.type == 0x11

/-- The serial of the last message that an EMSG of a script context has sent and that is not acknowledged. -/
def lastEmsg (s : State) (ident : Word) : Option W32 :=
  ((s.fsqOut.filter fun o => o.msg.ident == ident && isEmsg o.msg).getLast?).map fun o => o.msg.serial

/-- The script context whose EMSG awaits the acknowledgement of a serial (R299). -/
def emsgOf (s : State) (ident : Word) (serial : W32) : Option Nat :=
  if lastEmsg s ident != some serial then none
  else (List.range 8).find? fun c => scriptIdent s c == ident && (scriptOf s c).st == .waiting
    && (match (scriptOf s c).wait with | some (.emsg ..) => true | _ => false)

/-- FSQ_ACK_RECEIVE (R286, R299): the message is no longer sent, and an EMSG that waits for it writes 0. -/
def execFsqAckReceive (ident : Word) (serial : W32) (s : State) : Res :=
  if s.fsqOut.any fun o => o.msg.ident == ident && o.msg.serial == serial then
    let t := { s with fsqOut := s.fsqOut.filter fun o => !(o.msg.ident == ident && o.msg.serial == serial) }
    match emsgOf s ident serial with
    | some c => .next (endEmsg t c 0)
    | none => .next t
  else .next s

/-- FSQ_MESSAGE_RESEND (R286, R299): an unacknowledged message goes again 10 µs after it was last sent. -/
def execFsqMessageResend (idx : Nat) (s : State) : Res :=
  match s.fsqOut[idx]? with
  | none => .next s
  | some o =>
    if s.now < o.sentAt + 10000 then .next s
    else if isEmsg o.msg && 64 ≤ o.sends then
      if (emsgOf s o.msg.ident o.msg.serial).isSome then .next s else .next { s with fsqOut := s.fsqOut.eraseIdx idx }
    else
      let o : FsqOut := { o with sentAt := s.now, sends := o.sends + 1 }
      .next (send { s with fsqOut := s.fsqOut.set idx o } (.fsq o.msg))

/-! ## The host's port commands (R290, R395) -/

/-- A binding is made (R285, R296): the status by Table 4a. -/
def bindPort (s : State) (ctx commid rank port owner : Nat) : State × Nat :=
  let P := portOf s port
  let e : Binding := { ctx := ctx, commid := commid, rank := rank, port := port }
  if P.st != .live then (s, 1)
  else if P.owner != owner then (s, 2)
  else if (bindingOf s ctx commid rank).isSome then
    ({ s with binds := s.binds.map fun b => if b.ctx == ctx && b.commid == commid && b.rank == rank then e else b }, 0)
  else if 1024 ≤ s.binds.length then (s, 3)
  else ({ s with binds := s.binds ++ [e] }, 0)

/-- PORT_ARM (R395): as CREQ, with the FSQ as owner. -/
def execPortArm (port peerDev peerPort : Nat) (s : State) : Res :=
  if (portOf s port).armed then .next s else .next (armPort s port 8 peerDev peerPort)

/-- PORT_RELEASE (R395): as CREL, with the FSQ as owner. -/
def execPortRelease (port : Nat) (s : State) : Res :=
  let P := portOf s port
  if P.armed && P.owner == 8 && P.drain.isNone then .next (releasePort s port).1 else .next s

/-- PORT_BIND (R395): as CUSE, with the FSQ as owner. -/
def execPortBind (port ctx commid rank : Nat) (s : State) : Res := .next (bindPort s ctx commid rank port 8).1

end Sys2Proof.Machine
end

