-- ==== Sys2Proof/Machine/Collectives.lean ====
section
/-!
DEFINITION. The collective engine (R212 to R220, R355 to R357, R369, R372, R398 to R400): reservations, chunks on their way
and at their destination, reductions, replies, resends, aborts and the all-reduce form. Paths 0 to 31 are the ports, 32 is
the E-plane, and 33 the engine's own way to a rank of this device.
-/
namespace Sys2Proof.Machine

abbrev pathE : Nat := 32

/-- The die whose CXE serves a path on this device (R212, R398). -/
def dieOfPath (p : Nat) : Nat := if p < 32 then dieOfPort p else 0

/-- The die whose CXE receives what this device sends on a path (R398). -/
def peerDie (s : State) (p : Nat) : Nat := if p < 32 then dieOfPort (portOf s p).peerPort else 0

/-- A path carries messages now (R219). -/
def pathUp (s : State) (p : Nat) : Bool := p == pathE || (p < 32 && (portOf s p).st == .live)

/-- This device's number. -/
def ownDev : Nat := Config.deviceId.toNat

/-- Attempt `a` is older than `latest` (R218). -/
def olderAttempt (latest a : Nat) : Bool := let d := (latest + 65536 - a) % 65536; decide (1 ≤ d ∧ d ≤ 32767)

/-! ## Reductions (R216) -/

/-- New(old, in) (R216, Table 4): the element type chooses the format of min and max. -/
def reduceElem (code etype old inc : Nat) : Nat :=
  let f : FFmt := match etype with | 5 => .f32 | 6 => .h16 | 7 => .e16 | _ => .s32
  let i : IFmt := if etype == 4 then .i32 else .n32
  let int := etype == 2 || etype == 4
  match code with
  | 1 | 2 | 3 | 4 => if int then (iredOp i .add old inc).1 else (fredOp f .rne .add old inc).1
  | 5 => if int then (iredOp i .min old inc).1 else (fredOp f .rne .min old inc).1
  | 6 => if int then (iredOp i .max old inc).1 else (fredOp f .rne .max old inc).1
  | _ => inc

/-- A list cut into pieces of `n`. -/
def piecesOf {α : Type} (n : Nat) (xs : List α) : List (List α) :=
  (List.range (xs.length / Nat.max n 1)).map fun i => (xs.drop (n * i)).take n

/-- The elements of a chunk are combined with the elements at their places, each as one step (R216). -/
def reduceInto (s : State) (code etype : Nat) (locs : List Loc) (data : List Byte) : State :=
  let n := elemBytes etype
  ((piecesOf n locs).zip (piecesOf n data)).foldl (fun s e =>
    let old := leNat (e.1.map (locRead s))
    locWrites s (e.1.zip (leBytes n (reduceElem code etype old (leNat e.2))))) s

/-- The bytes of an all-reduce's result: TreeReduce over the ranks' tiles (R108, R220). -/
def reduceTiles (code etype len : Nat) (tiles : List (List Byte)) : List Byte :=
  let n := elemBytes etype
  (List.range (len / n)).flatMap fun i =>
    let xs := tiles.map fun t => some (leNat ((t.drop (n * i)).take n))
    leBytes n (((treeReduce (fun a b => (reduceElem code etype a b, [])) 10 xs).1).getD 0)

/-! ## Chunks that wait (R214, R215, R219) -/

/-- A chunk of a TXFER that could be sent: its core, context, command, descriptor and progress. -/
structure Cand where
  core : Nat
  x    : Nat
  m    : Cmd
  co   : Nat
  k    : ChunkSt
  deriving DecidableEq, Repr

/-- The context of a candidate. -/
def Cand.ctx (c : Cand) : Nat := ctxOfTeam c.m.team
/-- The device of its destination. -/
def Cand.dev (c : Cand) : Nat := coDev c.co c.k.rank

/-- The TXFERs of the device in the order of their acceptance (R214). -/
def xfers (s : State) : List (Nat × Nat × Cmd) :=
  ((s.cores.flatMap fun e => e.2.tcu.flatMap fun x => (x.2.cmds.filter fun m => m.kind == .xfer).map fun m =>
    (e.1, x.1, m)).foldl (fun a e => SMap.put a e.2.2.order e) ([] : SMap (Nat × Nat × Cmd))).map (·.2)

/-- Every chunk that waits, in the order of R214. -/
def waitingChunks (s : State) : List Cand :=
  (xfers s).flatMap fun e =>
    match cmdComm e.2.2 with
    | none => []
    | some co => (e.2.2.chunks.filter fun k => match k.phase with | .waiting _ => true | _ => false).map fun k =>
        { core := e.1, x := e.2.1, m := e.2.2, co := co, k := k }

/-- One chunk goes to the destination of another on the same communicator (R214). -/
def sameWay (a b : Cand) : Bool := a.ctx == b.ctx && coId a.co == coId b.co && a.dev == b.dev

/-- A chunk would overtake one of an earlier TXFER of its context on another communicator that has yet to write some of the same
bytes of the same device (R198). -/
def overtakes (s : State) (c : Cand) : Bool :=
  c.dev != ownDev && (tcuOf s c.core c.x).cmds.any fun m => m.kind == .xfer && decide (m.num < c.m.num)
    && ((cmdComm m).any fun co => coId co != coId c.co)
    && (chunksFor m c.dev).any fun k => (xferAddrs m (chunkRange m k).1 (chunkRange m k).2).any
      (xferAddrs c.m (chunkRange c.m c.k).1 (chunkRange c.m c.k).2).contains

/-- The first waiting chunk to each destination of each communicator, from TXFERs that no fault stands against. -/
def firstChunks (s : State) : List Cand :=
  (waitingChunks s).foldl (fun r c => if r.any (sameWay c) then r else r ++ [c]) [] |>.filter fun c =>
    (copyFault s c.m).isNone && !overtakes s c

/-- The path of a chunk (R219, R285, R398): `none` while it waits for a circuit. -/
def chunkPath (s : State) (c : Cand) : Option Nat :=
  if c.dev == ownDev then some pathOwn
  else if coEplane c.co then some pathE
  else (bindingOf s c.ctx (coId c.co) c.k.rank).bind fun p => if pathUp s p then some p else none

/-! ## Reservations at the sender (R213) -/

/-- A reservation's identity at the sender. -/
def TxResv.is (r : TxResv) (ctx commid peer die : Nat) : Bool :=
  r.ctx == ctx && r.commid == commid && r.peer == peer && r.die == die

def txFind (s : State) (ctx commid peer die : Nat) : Option TxResv := s.sendRes.find? fun r => r.is ctx commid peer die

/-- A reservation changes, or is made. -/
def txPut (s : State) (r : TxResv) : State :=
  if s.sendRes.any fun q => q.is r.ctx r.commid r.peer r.die then
    { s with sendRes := s.sendRes.map fun q => if q.is r.ctx r.commid r.peer r.die then r else q }
  else { s with sendRes := s.sendRes ++ [r] }

/-- The reservation that a chunk needs on a path. -/
def candResv (s : State) (c : Cand) (path : Nat) : Option TxResv := txFind s c.ctx (coId c.co) c.dev (peerDie s path)

/-- A reservation message goes out on a path (R213). -/
def askOn (s : State) (r : TxResv) (path : Nat) : State :=
  send (txPut s { r with ask := some (path, s.now) }) (.resvReq path r.peer r.msg)

/-- The reservation message that must precede a chunk on its path; a sender whose credits are gone with nothing under way
asks again for those it does not hold (R213). -/
def askFor (s : State) (path : Nat) (c : Cand) : State :=
  match candResv s c path with
  | none =>
    let m : ResvMsg := { ctx := c.ctx, commid := coId c.co, sender := ownDev, window := coWindow c.co, chunk := coChunk c.co,
                         trees := coTrees c.co }
    askOn s { ctx := c.ctx, commid := coId c.co, peer := c.dev, die := peerDie s path, msg := m, paths := [], ask := none,
              credits := 0, seq := 0, unans := [] } path
  | some r =>
    if r.ask.isSome then s
    else if !r.paths.contains path || (r.credits == 0 && r.unans.isEmpty) then askOn s r path
    else s

/-- The lost sending of a chunk that is to be sent again under its number (R219, R399). -/
def lostOf (r : TxResv) (k : ChunkSt) : Option Unans := r.unans.find? fun u => u.lost && some u.chunk == k.held

/-- A chunk holds a credit, or needs none (R213, R215, R398). -/
def eligible (s : State) (path : Nat) (c : Cand) : Bool :=
  path == pathOwn || match candResv s c path with
    | none => false
    | some r => r.paths.contains path && (decide (0 < r.credits) || (lostOf r c.k).isSome)

/-- The order of arbitration (R215): PRIO, the virtual channel after the one last served, then the order of acceptance. -/
def arbKey (last : Nat) (c : Cand) : Nat :=
  coPrio c.co * 2 ^ 80 + (coVc c.co + 15 - last) % 16 * 2 ^ 72 + c.m.order

/-- The chunk that a path takes next (R215). -/
def arbitrate (last : Nat) (cs : List Cand) : Option Cand :=
  cs.foldl (fun r c => match r with
    | none => some c
    | some b => if arbKey last c < arbKey last b then some c else some b) none

/-! ## Sending (R204, R212, R355, R356, R399) -/

/-- Bytes of a chunk within its tile. -/
def chunkSpan (c : Cand) : Nat × Nat :=
  let z := 2 ^ coChunk c.co
  (c.k.idx * z, Nat.min z (tileBytes (leNat c.m.shape) - c.k.idx * z))

/-- The bytes of a chunk as they lie in scratchpad. -/
def chunkBytes (s : State) (c : Cand) : Option (List Byte) :=
  let sp := chunkSpan c
  match spadBytes s c.m.gang c.m.lane (BitVec.ofNat 64 (cmdOff c.m.words + sp.1)) (cmdPair c.m.words) 0 sp.2 with
  | .ok ls => some (ls.map (locRead s))
  | .error _ => none

/-- Where the bytes of a chunk go: those of elements in bounds, each with its destination address (R200, R202, R207). -/
def chunkDest (c : Cand) (data : List Byte) : List (Word × Byte) :=
  let n := leNat c.m.shape
  let eb := elemBytes (shEtype n)
  data.zipIdx.filterMap fun e =>
    let b := (chunkSpan c).1 + e.2
    if inBounds n c.m.words (b / eb) then
      some (spanAddr n (elemAddr n c.m.words (b / eb) + BitVec.ofNat 64 (b % eb)), e.1)
    else none

/-- Runs of consecutive addresses. -/
def segsOf (as : List Word) : List (Word × Nat) :=
  as.foldr (fun a r => match r with
    | (b, n) :: t => if b == a + 1 then (a, n + 1) :: t else (a, 1) :: r
    | [] => [(a, 1)]) []

/-- A chunk as it is first sent (R204, R355, R356). An all-reduce's tile goes to the tree without destinations (R220). -/
def buildChunk (s : State) (c : Cand) (data : List Byte) (cseq : W32) : Chunk :=
  let n := leNat c.m.shape
  let all := shAllr n
  let dest := chunkDest c data
  let body := if all then data else dest.map (·.2)
  let units := (body.length + 63) / 64
  let h : Header := { Header.blank with
    addr := ((dest.head?).map (·.1)).getD (BitVec.ofNat 64 (shBase n)), ident := identOf c.m.gang, serial := c.k.serial,
    floor := floorOf s c.m.gang, inc := incOf s c.dev, kind := if shReduce n == 0 then 6 else 2,
    padb := BitVec.ofNat 6 (64 * units - body.length), op := BitVec.ofNat 3 (shReduce n), commid := BitVec.ofNat 16 (coId c.co),
    attempt := BitVec.ofNat 16 (coAttempt c.co), len := BitVec.ofNat 16 (units - 1), cseq := cseq }
  { hdr := { h with digest := digestOf h body }, dstBar := if all then 0 else BitVec.ofNat 64 (shDstBar n),
    etype := BitVec.ofNat 4 (shEtype n), segs := if all then [] else segsOf (dest.map (·.1)), span := shSpan n,
    count := if all then 0 else data.length, data := body }

/-- A chunk of a command changes. -/
def modChunk (s : State) (core x num rank idx : Nat) (f : ChunkSt → ChunkSt) : State :=
  modCmd s core x num fun m => { m with chunks := m.chunks.map fun k => if k.rank == rank && k.idx == idx then f k else k }

/-- A chunk has been read out of scratchpad for the last of its destinations: its bytes are counted (R204). -/
def countRead (s : State) (c : Cand) : State :=
  match cmdOf s c.core c.x c.m.num with
  | none => s
  | some m =>
    if m.bar.isSome && c.k.held.isNone && m.chunks.all (fun k => k.idx != c.k.idx || k.held.isSome)
    then countBytes s c.core c.x m (chunkSpan c).2 else s

/-- A chunk takes its number: the one of its lost sending, or the next of its reservation against a credit (R399). -/
def takeCseq (s : State) (c : Cand) (path : Nat) : W32 × State :=
  if path == pathOwn then (BitVec.ofNat 32 s.nextId, { s with nextId := s.nextId + 1 })
  else match candResv s c path with
    | none => (0, s)
    | some r => match lostOf r c.k with
      | some u => (BitVec.ofNat 32 u.cseq, s)
      | none =>
        let s := { s with sendRes := s.sendRes.map fun q => { q with unans := q.unans.filter fun u => some u.chunk != c.k.held } }
        (BitVec.ofNat 32 r.seq, txPut s ((fun (q : TxResv) => { q with credits := q.credits - 1, seq := (q.seq + 1) % 2 ^ 32 })
          ((candResv s c path).getD r)))

/-- A sent chunk waits for its answer. -/
def noteSent (s : State) (c : Cand) (path : Nat) (ch : Chunk) : State :=
  match candResv s c path with
  | none => s
  | some r =>
    let u : Unans := { cseq := ch.hdr.cseq.toNat, path := path, sentAt := s.now, full := false, lost := false, chunk := ch }
    txPut s { r with unans := (r.unans.filter fun v => v.cseq != u.cseq) ++ [u] }

/-- A reducing chunk carries its gang's floor to its owner (R361). -/
def noteChunk (s : State) (dev : Nat) (ch : Chunk) : State :=
  if ch.hdr.kind == 2 then noteOwner s (ch.hdr.ident.toNat % 2 ^ 54) dev ch.hdr.floor else s

/-- A chunk enters a CXE's staging. -/
def stage (s : State) (die path sender : Nat) (ch : Chunk) : State :=
  modCxe s die fun x => { x with staged := x.staged ++
    [{ path := path, sender := sender, chunk := ch, more := [], ids := none, no := none }] }

/-- A chunk is sent (R212, R215, R398). -/
def sendChunk (s : State) (die path : Nat) (c : Cand) (data : List Byte) : State :=
  let t := takeCseq s c path
  let s := t.2
  let ch := match c.k.held with
    | some h => { h with hdr := { h.hdr with cseq := t.1 } }
    | none => buildChunk s c data t.1
  let s := modChunk s c.core c.x c.m.num c.k.rank c.k.idx fun k => { k with phase := .flying path t.1.toNat, held := some ch }
  let s := countRead (modCmd s c.core c.x c.m.num fun m => { m with sent := true }) c
  let s := modCxe s die fun x => { x with lastVc := SMap.put x.lastVc path (coVc c.co) }
  if path == pathOwn then
    if shAllr (leNat c.m.shape) then s
    else stage s die path ownDev ch
  else send (noteChunk (noteSent s c path ch) c.dev ch) (.chunk path c.dev ch)

/-- CHUNK_BOUNDARY (R213 to R215, R219): a path that is free asks for the reservations that its first chunks lack, and starts
the next eligible chunk. -/
def execChunkBoundary (die path : Nat) (s : State) : Res :=
  let mine := if path == pathOwn then decide (die < 4) else pathUp s path && die == dieOfPath path
  if !mine || s.power != .on then .next s
  else
    let cs := (firstChunks s).filter fun c => chunkPath s c == some path && (path != pathOwn || dieOfCore c.core == die)
    let s := if path == pathOwn then s else cs.foldl (fun s c => askFor s path c) s
    match arbitrate (SMap.getD (cxeOf s die).lastVc path 15) (cs.filter (eligible s path)) with
    | none => .next s
    | some c => match chunkBytes s c with
      | none => .next s
      | some data => .next (sendChunk s die path c data)

/-! ## Reservations at the receiver, and their answers (R213) -/

/-- A receiver's reservation for a communicator and a sender. -/
def rxFind (s : State) (die ctx commid sender : Nat) : Option RxResv :=
  (cxeOf s die).rx.find? fun r => r.ctx == ctx && r.commid == commid && r.sender == sender

def modRx (s : State) (die ctx commid sender : Nat) (f : RxResv → RxResv) : State :=
  modCxe s die fun x => { x with rx := x.rx.map fun r => if r.ctx == ctx && r.commid == commid && r.sender == sender then f r else r }

/-- The credits that a repeated reservation message is answered with (R213): those that the sender does not yet hold. What was
last lent on the same path has not reached it, or it would not ask (log 56). -/
def lendMore (r : RxResv) (path : Nat) : Nat × RxResv :=
  let lost := Nat.min (SMap.getD r.asked path 0) r.lent
  let k := r.free + lost - r.lent
  (k, { r with lent := r.lent - lost + k, asked := SMap.put r.asked path k })

/-- RESERVATION_REQUEST_RECEIVE (R213): staging is reserved, or the answer is a refusal; a reservation that stands is answered
with the credits that the sender does not yet hold. -/
def execReservationRequestReceive (die path : Nat) (msg : ResvMsg) (s : State) : Res :=
  if pathE < path || die != dieOfPath path || s.power != .on then .next s
  else match rxFind s die msg.ctx msg.commid msg.sender with
    | some r => .next (send (modRx s die msg.ctx msg.commid msg.sender fun r => (lendMore r path).2)
        (.resvAns path msg.sender msg (some (lendMore r path).1)))
    | none =>
      let slots := msg.window * msg.trees
      let bytes := slots * 2 ^ msg.chunk
      if ((cxeOf s die).rx.map (·.bytes)).sum + bytes ≤ 2 ^ 23 then
        let r : RxResv := { ctx := msg.ctx, commid := msg.commid, sender := msg.sender, bytes := bytes, slots := slots, free := slots,
                            lent := slots, asked := [(path, slots)], base := some 0, high := none, seen := [] }
        .next (send (modCxe s die fun x => { x with rx := x.rx ++ [r] }) (.resvAns path msg.sender msg (some slots)))
      else .next (send s (.resvAns path msg.sender msg none))

/-- The TXFERs whose chunks a refused reservation stops fault with detail 0x08 (R213). -/
def refuseResv (s : State) (r : TxResv) : State :=
  (xfers s).foldl (fun s e =>
    match cmdComm e.2.2 with
    | none => s
    | some co =>
      let hit := ctxOfTeam e.2.2.team == r.ctx && coId co == r.commid
        && e.2.2.chunks.any fun k => k.phase != .done && coDev co k.rank == r.peer
      if hit then faultCmd s e.1 e.2.1 e.2.2 .copyf 8 e.2.2.recAddr else s) s

/-- RESERVATION_ANSWER_RECEIVE (R213): credits, which add to those that the sender holds, or a refusal. -/
def execReservationAnswerReceive (die path peer : Nat) (msg : ResvMsg) (credits : Option Nat) (s : State) : Res :=
  match txFind s msg.ctx msg.commid peer (peerDie s path) with
  | none => .next s
  | some r =>
    if die != dieOfPath path || r.ask.map (·.1) != some path then .next s
    else match credits with
      | none =>
        let s := if r.paths.isEmpty && r.unans.isEmpty then
            { s with sendRes := s.sendRes.filter fun q => !q.is r.ctx r.commid r.peer r.die }
          else txPut s { r with ask := none }
        .next (refuseResv s r)
      | some k => .next (txPut s { r with ask := none, paths := if r.paths.contains path then r.paths else r.paths ++ [path],
                                          credits := r.credits + k })

/-- RESERVATION_RESEND (R213): a reservation message without an answer goes again 10 µs after it was last sent. -/
def execReservationResend (die path peer ctx commid : Nat) (s : State) : Res :=
  match txFind s ctx commid peer (peerDie s path) with
  | none => .next s
  | some r => match r.ask with
    | none => .next s
    | some (p, t) =>
      if p == path && die == dieOfPath path && pathUp s path && t + 10000 ≤ s.now then .next (askOn s r path) else .next s

/-! ## At the destination (R398 to R400) -/

/-- The context of a chunk or a request: CTX of its identity (R350). -/
def identCtx (ident : Word) : Nat := Word.fld ident 42 12

/-- The key of a communicator's attempt. -/
def attemptKey (ctx commid : Nat) : Nat := ctx * 65536 + commid

/-- How far number `n` lies below the highest that has been received. -/
def belowHigh (r : RxResv) (n : Nat) : Nat := match r.high with | some h => (h + 2 ^ 32 - n) % 2 ^ 32 | none => 2 ^ 32

/-- A chunk's number lies too far below the highest to be awaited (R399). -/
def tooOld (r : RxResv) (n : Nat) : Bool := r.high.isSome && 65536 ≤ belowHigh r n && belowHigh r n < 2 ^ 31

/-- The highest number after `n` has been received. -/
def raiseHigh (r : RxResv) (n : Nat) : RxResv :=
  match r.high with
  | some h => if (n + 2 ^ 32 - h) % 2 ^ 32 < 2 ^ 31 then { r with high := some n } else r
  | none => { r with high := some n }

/-- An answer is remembered; numbers that left the window are forgotten (R399). -/
def remember (r : RxResv) (n : Nat) (p : Reply) : RxResv :=
  let r := raiseHigh r n
  { r with seen := (r.seen.filter fun e => belowHigh r e.1 < 65536) ++ [(n, p)] }

/-- The answer to a chunk that is refused or performed; a reducing one is served by the rind (R359, R399, R400). -/
def serveChunk (s : State) (die : Nat) (ch : Chunk) (refusal : Option Word) (perform : State → State) : State × Reply :=
  if ch.hdr.kind == 2 then serveWith s die ch.hdr refusal fun s => (perform s, 0)
  else match refusal with
    | some w => (s, replyTo s ch.hdr 6 w)
    | none => (perform s, replyTo s ch.hdr 0 0)

/-- A staged chunk that a chunk from a sender is a duplicate of (R399). -/
def Staged.copyOf (t : Staged) (sender : Nat) (ch : Chunk) : Bool :=
  t.sender == sender && t.path != pathOwn && t.chunk.hdr.cseq == ch.hdr.cseq
    && t.chunk.hdr.commid == ch.hdr.commid && identCtx t.chunk.hdr.ident == identCtx ch.hdr.ident
def isStaged (s : State) (die sender : Nat) (ch : Chunk) : Bool := (cxeOf s die).staged.any fun t => t.copyOf sender ch

/-- A duplicate of a staged chunk is answered when the first arrival is, on its own path (R399). -/
def noteCopyOf (s : State) (die path sender : Nat) (ch : Chunk) : State :=
  modCxe s die fun x => { x with staged := x.staged.map fun t => if t.copyOf sender ch then { t with more := t.more ++ [path] } else t }

/-- CHUNK_RECEIVE (R213, R218, R398 to R400): an older attempt or a number no longer awaited is dropped; a duplicate is answered
again, at once or when the first arrival is; without a reservation or a slot the chunk is refused; otherwise it is staged. -/
def execChunkReceive (die path sender : Nat) (ch : Chunk) (s : State) : Res :=
  if !pathUp s path || die != dieOfPath path || s.power != .on then .next s
  else
    let ctx := identCtx ch.hdr.ident
    let commid := ch.hdr.commid.toNat
    let key := attemptKey ctx commid
    let att := ch.hdr.attempt.toNat
    let latest := SMap.find (cxeOf s die).latest key
    if latest.any fun l => olderAttempt l att then .next s
    else
      let s := modCxe s die fun x => { x with latest := SMap.put x.latest key att }
      match rxFind s die ctx commid sender with
      | none =>
        let r := serveChunk s die ch (some (refusalWord .copyf 8)) id
        .next (send r.1 (.chunkReply path sender r.2 false))
      | some r =>
        let n := ch.hdr.cseq.toNat
        if tooOld r n then .next s
        else if isStaged s die sender ch then .next (noteCopyOf s die path sender ch)
        else match r.seen.find? fun e => e.1 == n with
          | some e => .next (send s (.chunkReply path sender e.2 true))
          | none =>
            if r.free == 0 then
              let a := serveChunk s die ch (some (refusalWord .copyf 8)) id
              .next (send (modRx a.1 die ctx commid sender fun r => remember r n a.2) (.chunkReply path sender a.2 false))
            else
              let s := modRx s die ctx commid sender fun r =>
                { raiseHigh r n with free := r.free - 1, lent := r.lent - 1, base := some (r.base.getD n) }
              .next (stage s die path sender ch)

/-- A chunk of the same sender and communicator that must be applied before this one (R214). -/
def chunkAhead (s : State) (die idx : Nat) (t : Staged) : Bool :=
  let ctx := identCtx t.chunk.hdr.ident
  let commid := t.chunk.hdr.commid.toNat
  let n := t.chunk.hdr.cseq.toNat
  let mate := fun (u : Staged) => u.sender == t.sender && u.chunk.hdr.commid == t.chunk.hdr.commid
    && identCtx u.chunk.hdr.ident == ctx
  if t.path == pathOwn then ((cxeOf s die).staged.take idx).any fun u => u.path == pathOwn && mate u
  else
    (cxeOf s die).staged.any (fun u => u.path != pathOwn && mate u && serialBelow u.chunk.hdr.cseq t.chunk.hdr.cseq)
      || (match rxFind s die ctx commid t.sender with
          | some r => (List.range (Nat.min r.slots ((n + 2 ^ 32 - r.base.getD n) % 2 ^ 32))).any fun i =>
              !(r.seen.any fun e => e.1 == (n + 2 ^ 32 - (i + 1)) % 2 ^ 32)
          | none => false)

/-- The format of the page of a global address of a context; 0 where there is none. -/
def ctxFmt (s : State) (ctx va : Nat) : Nat := match walk s ctx va with | .leaf e _ => leafFmt e | .absent .. => 0

/-- The places of `n` destination bytes from an address (R201, R211, R400): a page of another format than `fmt` is refused with
detail 0x05. A reduction needs this device's memory (`near`). -/
def destBytes (s : State) (ctx fmt : Nat) (near : Bool) (va : Word) : Nat → Except (Cause × Nat × Word) (List Loc)
  | 0 => .ok []
  | n + 1 =>
    match windowOf va with
    | .global a =>
      match ctxByte s ctx a accEngWrite false with
      | .error c => .error (c, 0, va)
      | .ok l =>
        if near && (physOf l).isNone then .error (.prot, 0, va)
        else if ctxFmt s ctx a != fmt then .error (.copyf, 5, va)
        else match destBytes s ctx fmt near (va + 1) n with | .error e => .error e | .ok t => .ok (l :: t)
    | _ => .error (.prot, 0, va)

/-- The places of a chunk's bytes. -/
def chunkPlaces (s : State) (ctx : Nat) (ch : Chunk) : Except (Cause × Nat × Word) (List Loc) := do
  let fmt := match ch.etype.toNat with | 9 => 1 | 10 => 2 | _ => 0
  let ls ← ch.segs.mapM fun e => destBytes s ctx fmt (ch.hdr.op != 0) e.1 e.2
  .ok ls.flatten

/-- A chunk's elements are written or combined, its lines record the span, and DSTBAR counts its bytes (R202, R204, R216, R382,
R400). -/
def applyChunk (s : State) (ch : Chunk) (locs : List Loc) (bar : Option (List Loc)) : State :=
  let ctx := identCtx ch.hdr.ident
  let code := ch.hdr.op.toNat
  let s := clearPoison (if code == 0 then locWrites s (locs.zip ch.data) else reduceInto s code ch.etype.toNat locs ch.data)
    (if code == 0 then locs.zip ch.data else [])
  let s := { s with span := (linesOf locs).foldl (fun m k => SMap.putD m 0 k ch.span) s.span }
  let s := (ch.segs.zipIdx).foldl (fun s e =>
    let before := ((ch.segs.take e.2).map (·.2)).sum
    watchCheck s none (if code == 0 then 1 else 2) ctx 0xFF 0 e.1.1 ((locs.drop before).take e.1.2)) s
  match bar with
  | none => s
  | some ls => barLand (watchCheck s none 2 ctx 0xFF 0 ch.dstBar ls) ls ch.count

/-- How page faults of a CXE's staged chunks are named among the masters. -/
def masterCxe (die : Nat) : Nat := 2 ^ 62 + die

/-- What the checks of R400 say of a staged chunk: it can be applied, it is refused at an address, or a page is wanting. -/
inductive ChunkCheck where
  | fine (locs : List Loc) (bar : Option (List Loc))
  | refuse (w : Word) (at_ : Word)
  | page (va : Word)
  deriving DecidableEq, Repr

/-- The rind already answers a reducing chunk (R359). -/
def rindKnows (s : State) (die : Nat) (h : Header) : Bool :=
  h.kind == 2 && ((rindFind (sxeOf s die) h.ident h.serial).isSome
    || (sxeOf s die).recs.any fun r => r.ident == h.ident && serialBelow h.serial r.floor)

/-- The checks of R400. -/
def checkChunk (s : State) (die : Nat) (t : Staged) : ChunkCheck :=
  let ch := t.chunk
  let ctx := identCtx ch.hdr.ident
  if rindKnows s die ch.hdr then .fine [] none
  else match t.no with
    | some w => .refuse w ch.hdr.addr
    | none =>
      let bar := if ch.dstBar == 0 then some [] else dstBarPlaces s ctx ch.dstBar
      match bar with
      | none => .refuse (refusalWord .prot 0) ch.dstBar
      | some b =>
        match chunkPlaces s ctx ch with
        | .ok ls => .fine ls (if b.isEmpty then none else some b)
        | .error (.pagef, _, va) => .page va
        | .error (c, d, _) => .refuse (refusalWord c d) ch.hdr.addr

/-- The TXFER's chunk that a sent chunk stands for. -/
def ownerOf (s : State) (ch : Chunk) : Option Cand :=
  (xfers s).findSome? fun e =>
    (e.2.2.chunks.find? fun k => k.held == some ch && k.phase != .done).map fun k =>
      { core := e.1, x := e.2.1, m := e.2.2, co := (cmdComm e.2.2).getD 0, k := k }

/-- A chunk is applied at its destination (R212); the last of an all-reduce is a step of the pacing register (R276). -/
def chunkDone (s : State) (c : Cand) : State :=
  let s := modChunk s c.core c.x c.m.num c.k.rank c.k.idx fun k => { k with phase := .done }
  if shAllr (leNat c.m.shape) then pacingStep s (coId c.co) (coRanks c.co) c.m.issuedAt else s

/-- The address that the fault of a chunk refused by another device names (R400): DSTBAR where the sender can tell that it is at
fault; the reply does not say which check failed (log 57). -/
def refusedAddr (ch : Chunk) : Word :=
  if ch.dstBar != 0 && (ch.dstBar.toNat % 16 != 0 || (match windowOf ch.dstBar with | .global _ => false | _ => true))
  then ch.dstBar else ch.hdr.addr

/-- A chunk's command takes its answer, a refusal with the address that it is about (R357, R366, R368, R400); a command that a
TCANCEL stops raises no fault (R208). -/
def settleChunk (s : State) (ch : Chunk) (r : Reply) (at_ : Word) : State :=
  match ownerOf s ch with
  | none => s
  | some c =>
    let extra := BitVec.zeroExtend 64 r.serial
    if c.m.cut.isSome && [2, 3, 6].contains r.status.toNat then chunkDone s c
    else match r.status.toNat with
    | 0 | 1 => chunkDone s c
    | 2 => faultCmd s c.core c.x c.m .replay 0 ch.hdr.addr extra
    | 3 => faultCmd s c.core c.x c.m .indoubt 0 ch.hdr.addr extra
    | 6 => faultCmd s c.core c.x c.m (Cause.ofCode (Word.fld r.result 0 8)) (Word.fld r.result 8 8) at_
    | _ => s

/-- The answer of a staged chunk goes to its sender, on each path on which the chunk has come (R399), or at once to this device's
own command (R398); `at_` is the address that a refusal is about. -/
def answerChunk (s : State) (die : Nat) (t : Staged) (a : State × Reply) (at_ : Word) : State :=
  let ctx := identCtx t.chunk.hdr.ident
  let commid := t.chunk.hdr.commid.toNat
  let full := a.2.status == 4
  let drop := fun (s : State) => modCxe s die fun x => { x with staged := x.staged.erase t }
  let s' := a.1
  if t.path == pathOwn then if full then s else settleChunk (drop s') t.chunk a.2 at_
  else
    let s' := modRx (drop s') die ctx commid t.sender fun r =>
      let r := { r with free := Nat.min r.slots (r.free + 1), lent := Nat.min r.slots (r.lent + 1) }
      if full then r else remember r t.chunk.hdr.cseq.toNat a.2
    (t.path :: t.more).foldl (fun s p => send s (.chunkReply p t.sender a.2 (!full))) s'

/-- A tile of an all-reduce at the root of its tree: a reducing chunk without a destination (R220). -/
def isTile (ch : Chunk) : Bool := ch.hdr.op != 0 && ch.segs.isEmpty && ch.count == 0 && !ch.data.isEmpty

/-- Bytes of a plain chunk whose destination is another device's frame go there first (R328); the chunk is applied when every one
of them has been answered. `none` when nothing is to be done for it, or all has been. -/
def chunkAway (s : State) (die idx : Nat) (t : Staged) (ls : List Loc) : Option State :=
  match t.ids with
  | some [] => none
  | some _ => some s
  | none =>
    if ls.all fun l => (physOf l).isSome then none
    else
      let vas := (t.chunk.segs.flatMap fun e => (List.range e.2).map fun i => e.1 + BitVec.ofNat 64 i).zip ls
      let r := sendOut s (.chunk die) (fun l => ((vas.find? fun e => e.2 == l).map (·.1)).getD 0) (ls.zip t.chunk.data)
      some (modCxe r.1 die fun x => { x with staged := x.staged.modify idx fun t => { t with ids := some r.2 } })

/-- The answer of another device to an access of a staged chunk (R328). -/
def stagedAnswer (s : State) (die id : Nat) (ok : Bool) : State :=
  modCxe s die fun x => { x with staged := x.staged.map fun t => match t.ids with
    | some ids =>
      if ids.contains id then { t with ids := some (ids.filter (· != id)), no := if ok then t.no else some (refusalWord .prot 0) }
      else t
    | none => t }

/-- What keeps a chunk that has passed its checks from being applied now: a pinned line (R137), or an earlier command of its
context that has yet to write the same bytes (R198). -/
def chunkWaits (s : State) (t : Staged) (ls : List Loc) (bar : Option (List Loc)) : Bool :=
  pinned s (ls ++ bar.getD []) || (t.path == pathOwn && (ownerOf s t.chunk).any fun c => behind s c.core c.x c.m ls)

/-- CHUNK_APPLY (R214, R216, R359, R399, R400): the next staged chunk of its sender is checked, applied or refused, and
answered; a page fault is served first (R323 to R325). A tile of an all-reduce stays staged until the root has them all
(R220). -/
def execChunkApply (die idx : Nat) (s : State) : Res :=
  match (cxeOf s die).staged[idx]? with
  | none => .next s
  | some t =>
    if chunkAhead s die idx t || s.power != .on || (isTile t.chunk && !rindKnows s die t.chunk.hdr) then .next s
    else
      let ctx := identCtx t.chunk.hdr.ident
      match checkChunk s die t with
      | .fine ls bar =>
        if chunkWaits s t ls bar then .next s
        else match chunkAway s die idx t ls with
          | some s => .next s
          | none => .next (answerChunk s die t (serveChunk s die t.chunk none fun s => applyChunk s t.chunk ls bar) 0)
      | .refuse w a => .next (answerChunk s die t (serveChunk s die t.chunk (some w) id) a)
      | .page va =>
        if hostMode s 1 then
          let known := s.faultsOut.any fun f => f.ctx == ctx && f.page == va.toNat / 2 ^ 16
            && s.pfWaiters.contains (f.id, masterCxe die)
          if known then .next s else .next (raisePageFault s ctx va.toNat accEngWrite (masterCxe die)).2
        else match zeroFill s ctx va.toNat with
          | some s => .next s
          | none => .next (answerChunk s die t (serveChunk s die t.chunk (some (refusalWord .pagef 0)) id) va)

/-! ## Answers at the sender (R219, R220, R357) -/

/-- The result of an all-reduce, as a chunk that this device's CXE writes at its own destination (R220). -/
def resultChunk (c : Cand) (ch : Chunk) (tiles : List Byte) (cseq : W32) : Chunk :=
  let n := leNat c.m.shape
  let len := tileBytes n
  let own := (ownRank c.co).getD 0
  let others := (List.range (coRanks c.co - 1)).map fun i => (tiles.drop (len * i)).take len
  let res := reduceTiles (shReduce n) (shEtype n) len (others.take own ++ [ch.data] ++ others.drop own)
  let dest := chunkDest c res
  { hdr := { ch.hdr with kind := 6, op := 0, serial := 0, cseq := cseq }, dstBar := BitVec.ofNat 64 (shDstBar n),
    etype := ch.etype, segs := segsOf (dest.map (·.1)), span := shSpan n, count := len, data := dest.map (·.2) }

/-- An answered all-reduce writes its result (R220): the chunk's progress moves to this device's own CXE. -/
def finishAllr (s : State) (c : Cand) (ch : Chunk) (tiles : List Byte) : State :=
  let cseq := BitVec.ofNat 32 s.nextId
  let out := resultChunk c ch tiles cseq
  let s := { s with nextId := s.nextId + 1 }
  let s := modChunk s c.core c.x c.m.num c.k.rank c.k.idx fun k => { k with phase := .flying pathOwn cseq.toNat, held := some out }
  stage s (dieOfCore c.core) pathOwn ownDev out

/-- The tiles that the root has received for its own all-reduce, in rank order, each with its die: the next of each rank's chunks;
`none` until every other rank's is there (R220). -/
def rootTiles (s : State) (c : Cand) : Option (List (Nat × Staged)) :=
  ((List.range (coRanks c.co)).filter fun r => coDev c.co r != ownDev).mapM fun r =>
    [0, 1, 2, 3].findSome? fun d => ((cxeOf s d).staged.zipIdx.find? fun e =>
      e.1.sender == coDev c.co r && isTile e.1.chunk && identCtx e.1.chunk.hdr.ident == c.ctx
        && e.1.chunk.hdr.commid.toNat == coId c.co && e.1.chunk.hdr.attempt.toNat == coAttempt c.co
        && !chunkAhead s d e.2 e.1).map fun e => (d, e.1)

/-- Every tile is answered as applied; `none` where the rind has no room for one. -/
def answerTiles (s : State) : List (Nat × Staged) → Option State
  | [] => some s
  | e :: t =>
    let a := serveChunk s e.1 e.2.chunk none id
    if a.2.status == 4 then none else answerTiles (answerChunk s e.1 e.2 a 0) t

/-- A reply that completes a chunk, once it has left the sender's books. -/
def takeReply (s : State) (ch : Chunk) (r : Reply) (combined : Option (List Byte)) : State :=
  match ownerOf s ch with
  | none => s
  | some c =>
    if shAllr (leNat c.m.shape) && r.status.toNat < 2 then
      match combined with | some tiles => finishAllr s c ch tiles | none => s
    else settleChunk s ch r (refusedAddr ch)

/-- The root combines its own tile with those that it has received, and answers them; until all are there nothing happens
(R220). -/
def combineRoot (s : State) (ch : Chunk) : State :=
  match ownerOf s ch with
  | none => s
  | some c => match rootTiles s c with
    | none => s
    | some ts => match answerTiles s ts with
      | none => s
      | some s => finishAllr s c ch (ts.flatMap fun e => e.2.chunk.data)

/-- Whether a reply answers an unanswered chunk. -/
def answers (r : Reply) (u : Unans) : Bool :=
  BitVec.ofNat 32 u.cseq == r.cseq && u.chunk.hdr.ident == r.ident && u.chunk.hdr.serial == r.serial

/-- An all-reduce without the other ranks' tiles is not complete (R220). -/
def stillCombining (s : State) (ch : Chunk) (r : Reply) (combined : Option (List Byte)) : Bool :=
  r.status.toNat < 2 && combined.isNone && (ownerOf s ch).any fun c => shAllr (leNat c.m.shape)

/-- CHUNK_REPLY_RECEIVE (R219, R357): the sender takes a chunk's reply and the slot's credit. For an all-reduce of which another
device is the root, the event brings the other ranks' tiles in rank order (log 14); the root combines those that it has
received. -/
def execChunkReplyReceive (die path peer : Nat) (r : Reply) (credit : Bool) (combined : Option (List Byte)) (s : State) : Res :=
  if path == pathOwn then
    let hit := (xfers s).findSome? fun e => (e.2.2.chunks.find? fun k =>
      shAllr (leNat e.2.2.shape) && k.phase == .flying pathOwn r.cseq.toNat && k.serial == r.serial
        && (k.held.any fun h => h.hdr.op != 0 && h.hdr.ident == r.ident)).bind (·.held)
    match hit with
    | none => .next s
    | some ch => .next (if r.status.toNat < 2 then combineRoot s ch else settleChunk s ch r ch.hdr.addr)
  else if die != dieOfPath path || !pathUp s path then .next s
  else
    match s.sendRes.find? fun q => q.peer == peer && q.die == peerDie s path && q.unans.any (answers r) with
    | none => .next s
    | some q =>
      match q.unans.find? (answers r) with
      | none => .next s
      | some u =>
        let s := hearInc s peer r.inc
        if r.status == 5 || stillCombining s u.chunk r combined then .next s
        else if r.status == 4 then
          .next (txPut s { q with unans := q.unans.map fun v => if v.cseq == u.cseq then { v with full := true, sentAt := s.now } else v })
        else
          let q' : TxResv := { q with unans := q.unans.filter fun v => v.cseq != u.cseq, credits := q.credits + b2n credit }
          .next (takeReply (txPut s q') u.chunk r combined)

/-- CHUNK_RESEND (R219, R357, R399): a chunk without an answer on the E-plane, one answered FULL, or one lost with its port
whose command is gone, is sent again under its number. -/
def execChunkResend (die path peer ctx commid cseq : Nat) (s : State) : Res :=
  match s.sendRes.find? fun q => q.ctx == ctx && q.commid == commid && q.peer == peer && q.unans.any fun u => u.cseq == cseq && u.path == path with
  | none => .next s
  | some q =>
    match q.unans.find? fun u => u.cseq == cseq && u.path == path with
    | none => .next s
    | some u =>
      let due := u.sentAt + 10000 ≤ s.now && (path == pathE || u.full || (u.lost && (ownerOf s u.chunk).isNone))
      if due && die == dieOfPath path && pathUp s path then
        let s := txPut s { q with unans := q.unans.map fun v =>
          if v.cseq == cseq then { v with sentAt := s.now, full := false, lost := false } else v }
        .next (send (noteChunk s peer u.chunk) (.chunk path peer u.chunk))
      else .next s

/-- CIRCUIT_TIMEOUT (R219): a chunk has waited TIMEOUT µs for its circuit; the command faults with CIRCUIT, and EXTRA names the
port. -/
def execCircuitTimeout (core ctx num : Nat) (s : State) : Res :=
  match cmdOf s core ctx num with
  | none => .next s
  | some m => match cmdComm m with
    | none => .next s
    | some co =>
      let late := fun (k : ChunkSt) =>
        match k.phase with
        | .waiting t => (chunkPath s { core := core, x := ctx, m := m, co := co, k := k }).isNone && t + 1000 * coTimeout co ≤ s.now
        | _ => false
      if m.kind != .xfer || coTimeout co == 0 || m.cut.isSome then .next s
      else match m.chunks.find? late with
        | none => .next s
        | some k =>
          let port := (bindingOf s (ctxOfTeam m.team) (coId co) k.rank).getD 0
          .next (faultCmd s core ctx m .circuit 0 0 (BitVec.ofNat 64 port))

/-! ## Aborts (R218, R369) -/

/-- A descriptor's communicator is aborted on this device (R218): the attempt rises, older staged chunks go, the outstanding
TXFERs complete with ATTEMPT, and the descriptor receives the new attempt. -/
def raiseAttempt (s : State) (ctx commid att : Nat) (descr : Word) : State :=
  let new := (att + 1) % 65536
  let key := attemptKey ctx commid
  let old := fun (ch : Chunk) => identCtx ch.hdr.ident == ctx && ch.hdr.commid.toNat == commid && olderAttempt new ch.hdr.attempt.toNat
  let cxe := fun (x : Cxe) =>
    let gone := x.staged.filter fun t => old t.chunk && t.path != pathOwn
    let rx := x.rx.map fun r => if r.ctx == ctx && r.commid == commid then
      { r with base := none, free := Nat.min r.slots (r.free + (gone.filter fun t => t.sender == r.sender).length) } else r
    let latest := match SMap.find x.latest key with
      | some l => if olderAttempt new l || l == new then new else l
      | none => new
    { x with rx := rx, staged := x.staged.filter fun t => !old t.chunk, latest := SMap.put x.latest key latest }
  let s := [0, 1, 2, 3].foldl (fun s d => modCxe s d cxe) s
  let s := { s with sendRes := s.sendRes.map fun r => if r.ctx == ctx && r.commid == commid
    then { r with unans := r.unans.filter fun u => !old u.chunk } else r }
  let s := (xfers s).foldl (fun s e =>
    match cmdComm e.2.2 with
    | none => s
    | some co =>
      if ctxOfTeam e.2.2.team == ctx && coId co == commid && olderAttempt new (coAttempt co)
      then faultCmd s e.1 e.2.1 e.2.2 .attempt 0 descr else s) s
  sysWrite s ctx (descr.toNat + 8) (leBytes 2 new)

/-- The effect of TXFER.abort: a release (R170), and a command that enters its context. -/
def abortBody (sd sa : Fin 64) (ctx : Fin 4) (c : Issue) (s : State) : Chk State := do
  let l := lowThread c
  releaseGate s c.g
  need (1 ≤ tcuFree s c.g ctx.val) .hold
  let s := drainAll s c.g
  let T := teamOf s (teamKey c.g)
  let core := (gangOf s c.g).core
  let va := sGet (gangOf s c.g) sa.val
  let n := nextNum s c.g ctx.val
  let got : Except (Cause × Nat × Word) Nat := match readComm s T.ctx va with
    | .error e => .error e
    | .ok co => if commOk co then .ok co else .error (Cause.copyf, 6, va)
  let m : Cmd := { blankCmd .abort n c.g l c.pc with recAddr := va, words := [va] }
  let s ← match got with
    | .error b => do
      lateBad s c.g l (some b)
      .ok (acceptCmd s core ctx.val m { comm := none, bad := some b, count := 0 })
    | .ok co =>
      let others := ((List.range (coRanks co)).map (coDev co)).filter fun d => d != ownDev
      let s := acceptCmd s core ctx.val m { comm := some co, bad := none, count := 0 }
      let s := others.foldl (fun s d => send s (.abort d T.ctx (coId co) (coAttempt co) va)) s
      let s := raiseAttempt s T.ctx (coId co) (coAttempt co) va
      .ok (modCmd s core ctx.val n fun m => { m with acks := others, sent := true })
  .ok (modGang s c.g fun G => wrS G sd.val (teamNum T ctx.val n))

/-- TXFER.abort (R207, R218): it takes a number, aborts the communicator here and sends a token to every other rank. -/
def execTxferAbort (sd sa : Fin 64) (ctx : Fin 4) (s : State) : Res :=
  issuing s fun c => runPlain (sendFar s c.g) c (uniUse 6 [(8, sa.val)] (some sd.val)) (abortBody sd sa ctx c)

/-- ABORT_TOKEN_RECEIVE (R218): this device's CXEs raise their attempt once, and the token is acknowledged. -/
def execAbortTokenReceive (die ctx commid attempt sender : Nat) (descr : Word) (s : State) : Res :=
  if 4 ≤ die || s.power != .on then .next s
  else
    let known := (SMap.find (cxeOf s die).latest (attemptKey ctx commid)).any fun l =>
      l == (attempt + 1) % 65536 || olderAttempt l (attempt + 1)
    let s := if known then s else raiseAttempt s ctx commid attempt descr
    .next (send s (.abortAck sender ctx commid attempt))

/-- ABORT_ACK_RECEIVE (R218). -/
def execAbortAckReceive (core ctx num dev : Nat) (s : State) : Res :=
  match cmdOf s core ctx num with
  | none => .next s
  | some m => if m.kind == .abort then .next (modCmd s core ctx num fun m => { m with acks := m.acks.filter fun d => d != dev }) else .next s

end Sys2Proof.Machine
end

