-- ==== Sys2Proof/WellFormed.lean ====
section
/-!
DEFINITION. Well-formed instructions: what every opcode accepts of its format, of its fields, and of the lead words (R35, R36,
R43, R45, R87, R89, R112). Each check that fails names the sub-code and the field of ILLENC (R41).
-/
namespace Sys2Proof

/-- A decoding fault: sub-code and field (R41, Tables 10 and 11). -/
abbrev Err := Nat × Nat

/-- A check: one fault unless it holds. -/
def check (ok : Bool) (sub field : Nat) : List Err := if ok then [] else [(sub, field)]

/-! ## Lead words (R35, R36, R89, R112, R176) -/

/-- What an opcode accepts of the lead words. -/
structure LeadRule where
  p     : Bool
  m     : Bool
  sat   : Bool
  clamp : Bool
  na    : Bool
  nb    : Bool
  scale : Bool
  rnd   : Bool
  c     : Bool
  zero  : Bool
  deriving DecidableEq, Repr

namespace LeadRule

/-- No lead word (VPRF). -/
def none : LeadRule := ⟨false, false, false, false, false, false, false, false, false, false⟩
/-- A prefix without rounding, and no modifier. -/
def plain : LeadRule := { none with p := true, zero := true }
/-- Prefix and modifier, no field of which is accepted. -/
def bits : LeadRule := { plain with m := true }
/-- VADD and its like (R89). -/
def arith : LeadRule := { bits with sat := true, na := true, nb := true, scale := true, rnd := true }
/-- VNEG and VABS (R89). -/
def unary : LeadRule := { arith with nb := false }
/-- VDIV and VREM (R89). -/
def divide : LeadRule := { bits with sat := true, na := true, nb := true }
/-- VSHL (R89). -/
def shiftLeft : LeadRule := { bits with sat := true }
/-- VCVT and VPACK (R89). -/
def narrow : LeadRule := shiftLeft
/-- Compares, VFMIN and VFMAX (R89, R112). -/
def compare : LeadRule := { bits with na := true, nb := true }
/-- VMOV (R89). -/
def move : LeadRule := { bits with na := true }
/-- Float arithmetic of two sources (R112). -/
def float2 : LeadRule := { arith with clamp := true }
/-- Float functions of one source (R112). -/
def float1 : LeadRule := { float2 with nb := false }
/-- VFCVT (R112). -/
def toFloat (b : Bool) : LeadRule := { float1 with sat := b, clamp := b }
/-- The lane atomics: C for cas alone (R176, R182). -/
def atomic (cas : Bool) : LeadRule := { plain with zero := false, c := cas }

end LeadRule

/-- Faults of the prefix word (R35, R176). -/
def pErrs (r : LeadRule) (p : PWord) : List Err :=
  check (r.zero || !p.zero) 0x04 14 ++ check r.p 0x05 14 ++ check (r.rnd || p.rnd == .rne) 0x06 15
    ++ check (p.c.isSome == r.c) 0x07 4

/-- Faults of the modifier word (R36). -/
def mErrs (r : LeadRule) (m : MWord) : List Err :=
  check r.m 0x05 14
    ++ check ((r.sat || !m.sat) && (r.clamp || !m.clamp) && (r.na || (!m.negA && !m.absA)) && (r.nb || (!m.negB && !m.absB))
        && (r.scale || m.scale == 0)) 0x08 14

/-- Faults of the lead words under a rule; without a prefix a required fourth operand is absent. -/
def leadErrs (r : LeadRule) (l : Lead) : List Err :=
  (match l.pw with | none => check (!r.c) 0x07 4 | some p => pErrs r p)
    ++ (match l.mw with | none => [] | some m => mErrs r m)

/-- The lead words of a lane instruction, with what its opcode accepts of them; `none` outside the lane set. -/
def leadOf : Instr → Option (LeadRule × Lead)
  | .vfcvt o => some (.toFloat (match o.x with | .toInt _ => false | _ => true), o.lead)
  | .vscvt o => some ({ LeadRule.float1 with clamp := false, sat := match o.x with | .toF _ => true | _ => false }, o.lead)
  | .vatm o => some (.atomic (o.op == .cas), o.lead)
  | .vatms o => some (.atomic (o.op == .cas), o.lead)
  | .vred o => some (.atomic false, o.lead)
  | .vprf o => some (.none, o.lead)
  | .qwide o => some ({ LeadRule.plain with rnd := o.add }, o.lead)
  | .qnarr o => some (if o.src == .raw then .bits else .float1, o.lead)
  | .vadd o => some (.arith, o.lead)
  | .vaddLi o => some (.arith, o.lead)
  | .vsub o => some (.arith, o.lead)
  | .vneg o => some (.unary, o.lead)
  | .vabs o => some (.unary, o.lead)
  | .vmul o => some (.arith, o.lead)
  | .vmulLi o => some (.arith, o.lead)
  | .vmulh o => some (.arith, o.lead)
  | .vmulw o => some (.arith, o.lead)
  | .vmad o => some ({ LeadRule.arith with c := true }, o.lead)
  | .vdiv o => some (.divide, o.lead)
  | .vrem o => some (.divide, o.lead)
  | .vmin o => some (.arith, o.lead)
  | .vminLi o => some (.arith, o.lead)
  | .vmax o => some (.arith, o.lead)
  | .vmaxLi o => some (.arith, o.lead)
  | .vabsd o => some (.arith, o.lead)
  | .vand o => some (.bits, o.lead)
  | .vandLi o => some (.bits, o.lead)
  | .vor o => some (.bits, o.lead)
  | .vorLi o => some (.bits, o.lead)
  | .vxor o => some (.bits, o.lead)
  | .vxorLi o => some (.bits, o.lead)
  | .vandn o => some (.bits, o.lead)
  | .vnot o => some (.bits, o.lead)
  | .vshl o => some (.shiftLeft, o.lead)
  | .vshlLi o => some (.shiftLeft, o.lead)
  | .vshr o => some (.bits, o.lead)
  | .vshrLi o => some (.bits, o.lead)
  | .vsar o => some (.bits, o.lead)
  | .vsarLi o => some (.bits, o.lead)
  | .vrot o => some (.bits, o.lead)
  | .vrotLi o => some (.bits, o.lead)
  | .vpopc o => some (.bits, o.lead)
  | .vclz o => some (.bits, o.lead)
  | .vctz o => some (.bits, o.lead)
  | .vbrev o => some (.bits, o.lead)
  | .vbfx o => some ({ LeadRule.bits with c := true }, o.lead)
  | .vbfi o => some ({ LeadRule.bits with c := true }, o.lead)
  | .vbytp o => some (.bits, o.lead)
  | .vfadd o => some (.float2, o.lead)
  | .vfsub o => some (.float2, o.lead)
  | .vfmul o => some (.float2, o.lead)
  | .vfma o => some ({ LeadRule.float2 with c := true }, o.lead)
  | .vfdiv o => some (.float2, o.lead)
  | .vfsqrt o => some (.float1, o.lead)
  | .vfrcp o => some (.float1, o.lead)
  | .vfrsq o => some (.float1, o.lead)
  | .vfmin o => some (.compare, o.lead)
  | .vfmax o => some (.compare, o.lead)
  | .vfcmp o => some (.compare, o.lead)
  | .vfcls o => some (.plain, o.lead)
  | .vfex2 o => some (.float1, o.lead)
  | .vflg2 o => some (.float1, o.lead)
  | .vfsin o => some (.float1, o.lead)
  | .vfcos o => some (.float1, o.lead)
  | .vftnh o => some (.float1, o.lead)
  | .vfrnd o => some ({ LeadRule.move with rnd := true }, o.lead)
  | .vsadd o => some ({ LeadRule.arith with sat := false }, o.lead)
  | .vssub o => some ({ LeadRule.arith with sat := false }, o.lead)
  | .vsmul o => some ({ LeadRule.arith with sat := false }, o.lead)
  | .vsdiv o => some ({ LeadRule.arith with sat := false }, o.lead)
  | .vscmp o => some (.compare, o.lead)
  | .vsexp o => some ({ LeadRule.move with rnd := true }, o.lead)
  | .vsln o => some ({ LeadRule.move with rnd := true }, o.lead)
  | .vslvl o => some (.plain, o.lead)
  | .vcmp o => some (.compare, o.lead)
  | .vcmpLi o => some (.compare, o.lead)
  | .vsel o => some ({ LeadRule.plain with zero := false }, o.lead)
  | .vmov o => some (.move, o.lead)
  | .vmovi o => some (.plain, o.lead)
  | .vplog o => some (.plain, o.lead)
  | .vcvt o => some (.narrow, o.lead)
  | .vpack o => some (.narrow, o.lead)
  | .vunpk o => some (.bits, o.lead)
  | .vshfl o => some (.plain, o.lead)
  | .vshfli o => some (.plain, o.lead)
  | .vbcast o => some (.plain, o.lead)
  | .vrdc o => some (.plain, o.lead)
  | .vrdcFloat o => some ({ LeadRule.plain with rnd := true }, o.lead)
  | .vscan o => some (.plain, o.lead)
  | .vscanFloat o => some ({ LeadRule.plain with rnd := true }, o.lead)
  | .vmatch o => some (.plain, o.lead)
  | .vld o => some (.plain, o.lead)
  | .vst o => some ({ LeadRule.plain with zero := false }, o.lead)
  | .vlds o => some (.plain, o.lead)
  | .vsts o => some ({ LeadRule.plain with zero := false }, o.lead)
  | .qzero o => some (.plain, o.lead)
  | .uadd _ | .uaddUi _ | .usub _ | .umul _ | .umulUi _ | .umulh _ | .udiv _ | .urem _ | .uand _ | .uandUi _ | .uor _
  | .uorUi _ | .uxor _ | .uxorUi _ | .uandn _ | .ushl _ | .ushlUi _ | .ushr _ | .ushrUi _ | .usar _ | .usarUi _
  | .umin _ | .uminUi _ | .umax _ | .umaxUi _ | .ucmp _ | .ucmpUi _ | .usel _ _ | .umov _ | .upopc _ | .uclz _
  | .umovi _ _ | .ulit _ _ _ | .uld _ | .ust _ | .uatm _ | .ulds _ | .usts _ | .uvote _ _ _ | .ulaneGet _ _ _
  | .ulanePut _ _ _ | .ubr _ _ | .ubrz _ _ _ | .ubrnz _ _ _ | .brv _ _ | .brvDivergent _ _ _ | .ujmp _ | .call _ _
  | .calli _ _ | .ret _ | .dispatch _ | .dret | .uloop _ _ | .exit | .yield | .elect _ _ | .nop | .spawn _ _
  | .binit _ _ _ | .arrive _ _ _ _ | .bexpect _ _ _ | .waitph _ _ _ _ | .waitphComplete _ _ | .fence _ | .tladv _
  | .tcopyLd _ | .tcopySt _ | .tkick _ _ | .txfer _ | .txferAbort _ _ _ | .tmma _ | .tmmas _ | .tcancel _ _ _
  | .tprobe _ _ | .uget _ _ | .uset _ _ | .cacheL1drop _ _ | .cacheL2fetch _ _ | .cacheFarhint _ _ | .cacheZero _ _
  | .pageq _ | .trap _ | .eret | .bkpt _ | .eventWindowExpire _ _ | .creq _ _ _ _ | .cwait _ _ _ _ _
  | .cwaitComplete _ | .cwaitTimeout _ | .cuse _ _ _ _ | .crel _ _ | .cstat _ _ | .emsg _ _ _ _ | .emsgTimeout _
  | .erecv _ _ _ _ | .erecvTimeout _ | .fmov _ _ | .fadd _ _ _ | .fsub _ _ _ | .fcmp _ _ _ | .fbr _ | .fbrc _ _ _ _
  | .tlsig _ | .tlwait _ _ | .tlwaitComplete _ | .ftime _ | .fint _ _ | .fnop | .fhalt _ _ | .launch _ | .script _
  | .scriptForward _ | .wait _ | .waitRelease _ | .signal _ | .teamAdmit _ | .residentAdmit _ | .dieQueueSteal _ _
  | .workerFormation _ | .dispatchLateQueue _ _ | .gangOverdue _ | .yieldBound _ | .sliceEnd _ | .sliceIdleTimeout _
  | .quiesceTimeout _ | .saveComplete _ | .teamResume _ _ | .gangExitComplete _ | .teamRetire _ | .teamKill _
  | .gangHostResume _ | .tokenReservationPaid _ | .ringRevolution _ | .budgetInterval _ | .classTransitionEnd _
  | .islandDrained _ | .unitGate _ _ _ | .thermalReading _ _ | .powerRemoval | .loadDataReturn _ _ _ _
  | .storeVisible _ _ _ | .matrixArrayStart _ | .matrixRetire _ | .matrixOperandFault _ | .copyBytesLand _ _ _ _ _
  | .copyComplete _ _ _ | .copyFault _ _ _ | .reservationRequestReceive _ _ _ | .reservationAnswerReceive _ _ _ _ _
  | .reservationResend _ _ _ _ _ | .chunkBoundary _ _ | .chunkReceive _ _ _ _ | .chunkApply _ _
  | .chunkReplyReceive _ _ _ _ _ _ | .chunkResend _ _ _ _ _ _ | .circuitTimeout _ _ _
  | .abortTokenReceive _ _ _ _ _ _ | .abortAckReceive _ _ _ _ | .requestServe _ _ _ | .remoteAccessServe _ _ _
  | .replyReceive _ | .requestRetransmit _ _ | .fullRetry _ _ | .ackfSend _ _ | .ackfReceive _ _ _
  | .requesterRecordExpire _ _ | .incarnationAnnounce _ _ | .warmRestart | .coldRestart | .boot | .tlbMiss _ _ _
  | .walkComplete _ _ _ | .invalidateDone | .pageMove _ _ _ | .storageError _ | .checkerMismatch _ | .rollback _
  | .lightDetected _ | .wavelengthLock _ | .lockTimeout _ | .trainingComplete _ | .trainingTimeout _ | .lightLost _
  | .flitCrcError _ | .drainEnd _ | .drainTimeout _ | .cmGrant _ | .cmRefuse _ | .cmDrop _ | .scriptMessageReceive _
  | .fsqAckReceive _ _ | .fsqMessageResend _ | .write _ _ _ _ | .read _ _ _ _ | .move _ _ _ _ _ _ _ _
  | .moveComplete _ | .transportAck _ | .transportResend _ | .mgmtRegisterWrite _ _ | .queueSkip _ | .queueDisable _
  | .verdictParse _ | .verdictSkip _ | .poolWrite _ _ | .pacingDisable | .invalidateGo _ | .pageFaultRetry _
  | .pageFaultRefuse _ | .scriptReset _ | .scriptTimelineWrite _ _ | .portArm _ _ _ | .portRelease _
  | .portBind _ _ _ _ | .rindExtensionGrant _ _ | .attestationNonce _ | .dbgResume _ | .dbgStep _ _ | .stepEnd _
  | .stopArrive _ | .sampleTrigger _ | .sampleComplete _ _ | .attestationEvidenceSigned | .sliOccupancyEnd _ _
  | .pageMoveDone _ => none

/-! ## Formats and fields (R43, R45, R87) -/

/-- fmt key S (R43): the signed widths. -/
def IFmt.keyS (f : IFmt) : Bool := f.signed
/-- fmt key W (R43): widths below 64. -/
def IFmt.keyW (f : IFmt) : Bool := f.bits != 64
/-- Key A (R43): .i64, .i32, .n64 and .n32. -/
def IFmt.keyA (f : IFmt) : Bool := 32 ≤ f.bits
/-- fmt key F (R43). -/
def FFmt.keyF (f : FFmt) : Bool := f != .s32
/-- fmt key G (R43). -/
def FFmt.keyG (f : FFmt) : Bool := f == .f32 || f == .h16 || f == .e16
/-- fmt key L (R43). -/
def FFmt.keyL (f : FFmt) : Bool := f == .s32

/-- The combinations of OP, ORD and space that R182 accepts (Table 4), `ro` for the read-only form, `wo` for the write-only
form, and `ret` where the old value returns. -/
def atomOk (op : AOp) (ord : Ord) (ro wo ret : Bool) : Bool :=
  if ro then op == .add && !ord.rel && !wo
  else if wo then op == .exch && !ord.acq
  else if ret then true
  else op != .cas && !ord.acq

/-- Faults of an instruction's own fields. -/
def formErrs : Instr → List Err
  | .vneg o => check o.fmt.keyS 0x02 12
  | .vabs o => check o.fmt.keyS 0x02 12
  | .vmulw o => check o.fmt.keyW 0x02 12
  | .vfadd o => check o.fmt.keyF 0x02 12
  | .vfsub o => check o.fmt.keyF 0x02 12
  | .vfmul o => check o.fmt.keyF 0x02 12
  | .vfma o => check o.fmt.keyF 0x02 12
  | .vfdiv o => check o.fmt.keyF 0x02 12
  | .vfsqrt o => check o.fmt.keyF 0x02 12
  | .vfrcp o => check o.fmt.keyF 0x02 12
  | .vfrsq o => check o.fmt.keyF 0x02 12
  | .vfmin o => check o.fmt.keyF 0x02 12
  | .vfmax o => check o.fmt.keyF 0x02 12
  | .vfcmp o => check o.fmt.keyF 0x02 12
  | .vfcls o => check o.fmt.keyF 0x02 12
  | .vfex2 o => check o.fmt.keyG 0x02 12
  | .vflg2 o => check o.fmt.keyG 0x02 12
  | .vfsin o => check o.fmt.keyG 0x02 12
  | .vfcos o => check o.fmt.keyG 0x02 12
  | .vftnh o => check o.fmt.keyG 0x02 12
  | .vfcvt o => check o.fmt.keyF 0x02 12 ++ check (match o.x with | .ff f => f.keyF | _ => true) 0x03 2
  | .vfrnd o => check o.fmt.keyF 0x02 12
  | .vsadd o => check o.fmt.keyL 0x02 12
  | .vssub o => check o.fmt.keyL 0x02 12
  | .vsmul o => check o.fmt.keyL 0x02 12
  | .vsdiv o => check o.fmt.keyL 0x02 12
  | .vscmp o => check o.fmt.keyL 0x02 12
  | .vsexp o => check o.fmt.keyL 0x02 12
  | .vsln o => check o.fmt.keyL 0x02 12
  | .vscvt o => check (match o.x with | .fromF f | .toF f => f == .f64 || f == .f32 | _ => true) 0x02 12
  | .vslvl o => check o.fmt.keyL 0x02 12
  | .vplog o => check (!(o.fn == 15 && o.pb == 7)) 0x03 2
  | .vatm o => check o.w.keyA 0x02 12 ++ check (atomOk o.op o.ord o.sp false true) 0x02 6
  | .vatms o => check o.w.keyA 0x02 12
  | .vred o => check o.w.keyA 0x02 12 ++ check (atomOk o.op o.ord false o.sp false) 0x02 6
  | .vprf o => check (o.d == 0) 0x04 6
  | .qzero o => check (o.lo ≤ o.hi) 0x03 2
  | .qnarr o => check (o.fmt.keyG && (o.src != .raw || o.fmt == .f32)) 0x02 12 ++ check (o.fmt == .f32 || o.part < 2) 0x03 2
  | .uatm o => check (o.op != .cas || o.ld || o.st || o.sd.val < 63) 0x03 7
      ++ check (!o.n || o.op == .min || o.op == .max) 0x09 9
      ++ check (atomOk o.op o.ord o.ld o.st true) 0x09 10
  | .brvDivergent _ _ dv => check (dv.toNat % 4 == 0) 0x04 10
  | .uloop _ last => check (last.toNat % 4 == 0) 0x04 10
  | .tcopyLd o => check (o.sb.val ≤ 60) 0x03 9
  | .tcopySt o => check (o.sb.val ≤ 60) 0x03 9
  | .txfer o => check (o.sb.val ≤ 60) 0x03 9
  | .tmma o => check (o.sa.val < 63) 0x03 8 ++ check (o.sb.val < 63) 0x03 9
  | .tmmas o => check (o.sa.val < 63) 0x03 8 ++ check (o.sb.val < 63) 0x03 9
  | .tprobe sd _ => check (sd.val < 63) 0x03 7
  | .uget _ num => check (Machine.ugetOk num.toNat) 0x0A 10
  | .uset _ num => check (Machine.usetOk num.toNat) 0x0A 10
  | .vadd _ | .vaddLi _ | .vsub _ | .vmul _ | .vmulLi _ | .vmulh _ | .vmad _ | .vdiv _ | .vrem _ | .vmin _
  | .vminLi _ | .vmax _ | .vmaxLi _ | .vabsd _ | .vand _ | .vandLi _ | .vor _ | .vorLi _ | .vxor _ | .vxorLi _
  | .vandn _ | .vnot _ | .vshl _ | .vshlLi _ | .vshr _ | .vshrLi _ | .vsar _ | .vsarLi _ | .vrot _ | .vrotLi _
  | .vpopc _ | .vclz _ | .vctz _ | .vbrev _ | .vbfx _ | .vbfi _ | .vbytp _ | .vcmp _ | .vcmpLi _ | .vsel _ | .vmov _
  | .vmovi _ | .vcvt _ | .vpack _ | .vunpk _ | .vshfl _ | .vshfli _ | .vbcast _ | .vrdc _ | .vrdcFloat _ | .vscan _
  | .vscanFloat _ | .vmatch _ | .vld _ | .vst _ | .vlds _ | .vsts _ | .qwide _ | .uadd _ | .uaddUi _ | .usub _
  | .umul _ | .umulUi _ | .umulh _ | .udiv _ | .urem _ | .uand _ | .uandUi _ | .uor _ | .uorUi _ | .uxor _
  | .uxorUi _ | .uandn _ | .ushl _ | .ushlUi _ | .ushr _ | .ushrUi _ | .usar _ | .usarUi _ | .umin _ | .uminUi _
  | .umax _ | .umaxUi _ | .ucmp _ | .ucmpUi _ | .usel _ _ | .umov _ | .upopc _ | .uclz _ | .umovi _ _ | .ulit _ _ _
  | .uld _ | .ust _ | .ulds _ | .usts _ | .uvote _ _ _ | .ulaneGet _ _ _ | .ulanePut _ _ _ | .ubr _ _ | .ubrz _ _ _
  | .ubrnz _ _ _ | .brv _ _ | .ujmp _ | .call _ _ | .calli _ _ | .ret _ | .dispatch _ | .dret | .exit | .yield
  | .elect _ _ | .nop | .spawn _ _ | .binit _ _ _ | .arrive _ _ _ _ | .bexpect _ _ _ | .waitph _ _ _ _
  | .waitphComplete _ _ | .fence _ | .tladv _ | .tkick _ _ | .txferAbort _ _ _ | .tcancel _ _ _ | .cacheL1drop _ _
  | .cacheL2fetch _ _ | .cacheFarhint _ _ | .cacheZero _ _ | .pageq _ | .trap _ | .eret | .bkpt _
  | .eventWindowExpire _ _ | .creq _ _ _ _ | .cwait _ _ _ _ _ | .cwaitComplete _ | .cwaitTimeout _ | .cuse _ _ _ _
  | .crel _ _ | .cstat _ _ | .emsg _ _ _ _ | .emsgTimeout _ | .erecv _ _ _ _ | .erecvTimeout _ | .fmov _ _
  | .fadd _ _ _ | .fsub _ _ _ | .fcmp _ _ _ | .fbr _ | .fbrc _ _ _ _ | .tlsig _ | .tlwait _ _ | .tlwaitComplete _
  | .ftime _ | .fint _ _ | .fnop | .fhalt _ _ | .launch _ | .script _ | .scriptForward _ | .wait _ | .waitRelease _
  | .signal _ | .teamAdmit _ | .residentAdmit _ | .dieQueueSteal _ _ | .workerFormation _ | .dispatchLateQueue _ _
  | .gangOverdue _ | .yieldBound _ | .sliceEnd _ | .sliceIdleTimeout _ | .quiesceTimeout _ | .saveComplete _
  | .teamResume _ _ | .gangExitComplete _ | .teamRetire _ | .teamKill _ | .gangHostResume _ | .tokenReservationPaid _
  | .ringRevolution _ | .budgetInterval _ | .classTransitionEnd _ | .islandDrained _ | .unitGate _ _ _
  | .thermalReading _ _ | .powerRemoval | .loadDataReturn _ _ _ _ | .storeVisible _ _ _ | .matrixArrayStart _
  | .matrixRetire _ | .matrixOperandFault _ | .copyBytesLand _ _ _ _ _ | .copyComplete _ _ _ | .copyFault _ _ _
  | .reservationRequestReceive _ _ _ | .reservationAnswerReceive _ _ _ _ _ | .reservationResend _ _ _ _ _
  | .chunkBoundary _ _ | .chunkReceive _ _ _ _ | .chunkApply _ _ | .chunkReplyReceive _ _ _ _ _ _
  | .chunkResend _ _ _ _ _ _ | .circuitTimeout _ _ _ | .abortTokenReceive _ _ _ _ _ _ | .abortAckReceive _ _ _ _
  | .requestServe _ _ _ | .remoteAccessServe _ _ _ | .replyReceive _ | .requestRetransmit _ _ | .fullRetry _ _
  | .ackfSend _ _ | .ackfReceive _ _ _ | .requesterRecordExpire _ _ | .incarnationAnnounce _ _ | .warmRestart
  | .coldRestart | .boot | .tlbMiss _ _ _ | .walkComplete _ _ _ | .invalidateDone | .pageMove _ _ _ | .storageError _
  | .checkerMismatch _ | .rollback _ | .lightDetected _ | .wavelengthLock _ | .lockTimeout _ | .trainingComplete _
  | .trainingTimeout _ | .lightLost _ | .flitCrcError _ | .drainEnd _ | .drainTimeout _ | .cmGrant _ | .cmRefuse _
  | .cmDrop _ | .scriptMessageReceive _ | .fsqAckReceive _ _ | .fsqMessageResend _ | .write _ _ _ _ | .read _ _ _ _
  | .move _ _ _ _ _ _ _ _ | .moveComplete _ | .transportAck _ | .transportResend _ | .mgmtRegisterWrite _ _
  | .queueSkip _ | .queueDisable _ | .verdictParse _ | .verdictSkip _ | .poolWrite _ _ | .pacingDisable
  | .invalidateGo _ | .pageFaultRetry _ | .pageFaultRefuse _ | .scriptReset _ | .scriptTimelineWrite _ _
  | .portArm _ _ _ | .portRelease _ | .portBind _ _ _ _ | .rindExtensionGrant _ _ | .attestationNonce _
  | .dbgResume _ | .dbgStep _ _ | .stepEnd _ | .stopArrive _ | .sampleTrigger _ | .sampleComplete _ _
  | .attestationEvidenceSigned | .sliOccupancyEnd _ _ | .pageMoveDone _ => []

/-- Every decoding fault of an instruction's fields and lead words. -/
def errsOf (i : Instr) : List Err :=
  formErrs i ++ match leadOf i with | none => [] | some (r, l) => leadErrs r l

/-- A well-formed instruction: no decoding fault. -/
def wf (i : Instr) : Bool := (errsOf i).isEmpty

end Sys2Proof
end

