-- ==== Sys2Proof/Decode.lean ====
section
/-!
DEFINITION. The decoder of lane, uniform and fabric words (R32 to R50 and the encodings of the entries), total on any words and
refusing by the sub-code and the field of ILLENC (R41, R42); and the encoder, written from the same tables.
-/
namespace Sys2Proof
open Machine (fld bitOf b2n)

/-! ## Codes of the fields (R22, R34, R35) -/

/-- fmt codes of the integer class (R22). -/
def IFmt.ofCode (n : Nat) : IFmt :=
  match n with
  | 0 => .i64 | 1 => .i32 | 2 => .i16 | 3 => .i8 | 4 => .n64 | 5 => .n32 | 6 => .n16 | _ => .n8
def IFmt.code : IFmt → Nat
  | .i64 => 0 | .i32 => 1 | .i16 => 2 | .i8 => 3 | .n64 => 4 | .n32 => 5 | .n16 => 6 | .n8 => 7

/-- fmt codes of the float class (R22). -/
def FFmt.ofCode (n : Nat) : Option FFmt :=
  match n with
  | 0 => some .f64 | 1 => some .f32 | 2 => some .h16 | 3 => some .e16 | 4 => some .s32 | _ => none
def FFmt.code : FFmt → Nat
  | .f64 => 0 | .f32 => 1 | .h16 => 2 | .e16 => 3 | .s32 => 4

/-- Rounding codes (R35, Table 7). -/
def Rnd.ofCode (n : Nat) : Option Rnd :=
  match n with
  | 0 => some .rne | 1 => some .rtz | 2 => some .rup | 3 => some .rdn | 4 => some .rna | 7 => some .dyn | _ => none
def Rnd.code : Rnd → Nat
  | .rne => 0 | .rtz => 1 | .rup => 2 | .rdn => 3 | .rna => 4 | .dyn => 7

/-- Scope codes (R156, Table 2). -/
def Scope.ofCode (n : Nat) : Option Scope :=
  match n with
  | 0 => some .gang | 1 => some .team | 2 => some .pair | 3 => some .die | 4 => some .device | 5 => some .domain
  | 6 => some .system | _ => none
def Scope.code : Scope → Nat
  | .gang => 0 | .team => 1 | .pair => 2 | .die => 3 | .device => 4 | .domain => 5 | .system => 6

def Ord.ofCode (n : Nat) : Ord := ⟨bitOf n 0, bitOf n 1⟩
def Ord.code (o : Ord) : Nat := b2n o.acq + 2 * b2n o.rel

/-- Conditions of VCMP (R98). -/
def ICond.ofCode (n : Nat) : ICond :=
  match n with
  | 0 => .eq | 1 => .ne | 2 => .lt | 3 => .le | 4 => .gt | 5 => .ge | 6 => .tst | _ => .ntst
def ICond.code : ICond → Nat
  | .eq => 0 | .ne => 1 | .lt => 2 | .le => 3 | .gt => 4 | .ge => 5 | .tst => 6 | .ntst => 7

/-- Conditions of VFCMP and VSCMP (R116, R125). -/
def FCond.ofCode (n : Nat) : FCond :=
  match n with
  | 0 => .eq | 1 => .ne | 2 => .lt | 3 => .le | 4 => .gt | 5 => .ge | 6 => .uo | _ => .ord
def FCond.code : FCond → Nat
  | .eq => 0 | .ne => 1 | .lt => 2 | .le => 3 | .gt => 4 | .ge => 5 | .uo => 6 | .ord => 7

/-- Reduction operators of the integer class (R108). -/
def IRed.ofCode (n : Nat) : Option IRed :=
  match n with
  | 0 => some .add | 1 => some .min | 2 => some .max | 3 => some .and | 4 => some .or | 5 => some .xor | _ => none
def IRed.code : IRed → Nat
  | .add => 0 | .min => 1 | .max => 2 | .and => 3 | .or => 4 | .xor => 5

/-- Reduction operators of the float class (R108). -/
def FRed.ofCode (n : Nat) : Option FRed :=
  match n with
  | 0 => some .add | 1 => some .min | 2 => some .max | _ => none
def FRed.code : FRed → Nat
  | .add => 0 | .min => 1 | .max => 2

/-- Modes of VSHFLI (R106). -/
def ShflMode.ofCode (n : Nat) : ShflMode :=
  match n with
  | 0 => .xor | 1 => .up | 2 => .down | _ => .rot
def ShflMode.code : ShflMode → Nat
  | .xor => 0 | .up => 1 | .down => 2 | .rot => 3

/-- A source field (R34, Table 6). -/
def Src.ofCode (n : Nat) : Option Src :=
  if n < 64 then some (.v (Fin.ofNat 64 n))
  else if n < 96 then some (.s (Fin.ofNat 32 (n - 64)))
  else if n < 100 then some (.x (Fin.ofNat 4 (n - 96)))
  else none
def Src.code : Src → Nat
  | .v r => r.val | .s r => 64 + r.val | .x r => 96 + r.val
def SrcB.code : SrcB → Nat
  | .src a => a.code | .lit _ => 0x7F

/-- Modes of UVOTE (R242). -/
def VoteMode.ofCode (n : Nat) : VoteMode :=
  match n with
  | 0 => .ballot | 1 => .all | 2 => .any | _ => .count
def VoteMode.code : VoteMode → Nat
  | .ballot => 0 | .all => 1 | .any => 2 | .count => 3

/-- Kinds of WAITPH (R193). -/
def WaitKind.ofCode (n : Nat) : Option WaitKind :=
  match n with
  | 0 => some .bar | 1 => some .tl | 2 => some .gate | _ => none
def WaitKind.code : WaitKind → Nat
  | .bar => 0 | .tl => 1 | .gate => 2

/-- Port states (R295). -/
def PortSt.ofField (n : Nat) : PortSt :=
  match n with
  | 0 => .dark | 1 => .locking | 2 => .trained | _ => .live
def PortSt.field : PortSt → Nat
  | .dark => 0 | .locking => 1 | .trained => 2 | .live => 3

/-! ## Parts of a word -/

/-- Faults found, and the instruction where its fields name one. -/
abbrev Got := List Err × Option Instr

/-- Field A of a lane word (R33). -/
def fA (w : Nat) : Nat := fld w 14 7
/-- Field B of a lane word. -/
def fB (w : Nat) : Nat := fld w 7 7
/-- Field D of a lane word. -/
def fD (w : Nat) : Fin 64 := Fin.ofNat 64 (fld w 1 6)
/-- Bit K of a lane word. -/
def fK (w : Nat) : Bool := bitOf w 0
/-- Field fmt of a lane word. -/
def fF (w : Nat) : Nat := fld w 21 3
/-- Sd, Sa and Sb of a uniform word (R37). -/
def uD (w : Nat) : Fin 64 := Fin.ofNat 64 (fld w 18 6)
def uA (w : Nat) : Fin 64 := Fin.ofNat 64 (fld w 12 6)
def uB (w : Nat) : Fin 64 := Fin.ofNat 64 (fld w 6 6)
/-- fn of a uniform word. -/
def uF (w : Nat) : Nat := fld w 0 6
/-- The immediate of a UI word. -/
def uI (w : Nat) : BitVec 12 := BitVec.ofNat 12 w

/-- A predicate's number in `n`. -/
def pNo (n : Nat) : Fin 8 := Fin.ofNat 8 n

/-- A source in field A, which has no literal form (R34). -/
def gotA (w : Nat) : List Err × Option Src :=
  match Src.ofCode (fA w) with | some x => ([], some x) | none => ([(0x03, 1)], none)

/-- A source or a literal in field B (R34). -/
def gotB (w : Nat) (lit : Option Nat) : List Err × Option SrcB :=
  if fB w == 0x7F then (match lit with | some l => ([], some (.lit (BitVec.ofNat 32 l))) | none => ([(0x03, 2)], none))
  else match Src.ofCode (fB w) with | some x => ([], some (.src x)) | none => ([(0x03, 2)], none)

/-- A fmt of the integer class, of a key (R43). -/
def gotIk (key : IFmt → Bool) (w : Nat) : List Err × Option IFmt :=
  let f := IFmt.ofCode (fF w)
  (check (key f) 0x02 12, some f)
/-- fmt key I. -/
def gotI (w : Nat) : List Err × Option IFmt := gotIk (fun _ => true) w
/-- A fmt of the float class, of a key (R43). -/
def gotF (key : FFmt → Bool) (w : Nat) : List Err × Option FFmt :=
  match FFmt.ofCode (fF w) with | some f => (check (key f) 0x02 12, some f) | none => ([(0x02, 12)], none)
/-- fmt key FS. -/
def anyF (_ : FFmt) : Bool := true

/-! ## Lane words (R33, R47) -/

/-- LR with two sources. -/
def lr2 {F : Type} (l : Lead) (w : Nat) (lit : Option Nat) (f : List Err × Option F) (mk : Lr2 F → Instr) : Got :=
  let a := gotA w
  let b := gotB w lit
  (f.1 ++ a.1 ++ b.1, match f.2, a.2, b.2 with | some f, some a, some b => some (mk ⟨l, f, a, b, fD w, fK w⟩) | _, _, _ => none)

/-- LR with one source: field B is 0 (R45). DESIGN CHOICE (log 58): a reserved source value in the unused field is 0x04 of R45,
not 0x03 of R34, since the field names no source. -/
def lr1 {F : Type} (l : Lead) (w : Nat) (f : List Err × Option F) (mk : Lr1 F → Instr) : Got :=
  let a := gotA w
  (f.1 ++ a.1 ++ check (fB w == 0) 0x04 2, match f.2, a.2 with | some f, some a => some (mk ⟨l, f, a, fD w, fK w⟩) | _, _ => none)

/-- LR with one source and an item that field B encodes (R87). -/
def lrx {F X : Type} (l : Lead) (w : Nat) (f : List Err × Option F) (x : Option X) (mk : LrX F X → Instr) : Got :=
  let a := gotA w
  (f.1 ++ a.1 ++ check x.isSome 0x03 2,
   match f.2, a.2, x with | some f, some a, some x => some (mk ⟨l, f, a, x, fD w, fK w⟩) | _, _, _ => none)

/-- LI (R33). -/
def lri (l : Lead) (w : Nat) (mk : Lri → Instr) : Got :=
  let a := gotA w
  (a.1, a.2.map fun a => mk ⟨l, IFmt.ofCode (fF w), a, BitVec.ofNat 7 (fB w), fD w, fK w⟩)

/-- LM (R33, R175). -/
def lm (l : Lead) (w : Nat) (mk : Lm → Instr) : Got :=
  ([], some (mk ⟨l, IFmt.ofCode (fF w), Fin.ofNat 64 (fld w 15 6), BitVec.ofNat 8 (fld w 7 8), fD w, fK w⟩))

/-- A lane atomic (R182, Table 2). -/
def la (l : Lead) (w : Nat) (mk : La → Instr) : Got :=
  match Scope.ofCode (fld w 7 3) with
  | none => ([(0x02, 6)], none)
  | some sc => ([], some (mk ⟨l, IFmt.ofCode (fF w), Fin.ofNat 64 (fld w 15 6), AOp.ofCode (fld w 12 3),
                              Ord.ofCode (fld w 10 2), sc, fD w, fK w⟩))

/-- A compare (R98): COND, PD and K lie in field D and bit 0. -/
def lcmp {F C : Type} (l : Lead) (w : Nat) (lit : Option Nat) (f : List Err × Option F) (c : Nat → C)
    (mk : LCmp F C SrcB → Instr) : Got :=
  let a := gotA w
  let b := gotB w lit
  (f.1 ++ a.1 ++ b.1, match f.2, a.2, b.2 with
    | some f, some a, some b => some (mk ⟨l, f, a, b, c (fld w 4 3), pNo (fld w 1 3), fK w⟩) | _, _, _ => none)

/-- KIND and CODE of VFCVT (R119). -/
def fcvtKind (b : Nat) : Option FCvtKind :=
  if fld b 3 2 != 0 then none
  else match fld b 5 2 with
    | 0 => (FFmt.ofCode (fld b 0 3)).map .ff
    | 1 => some (.fromInt (IFmt.ofCode (fld b 0 3)))
    | 2 => some (.toInt (IFmt.ofCode (fld b 0 3)))
    | _ => none
def FCvtKind.code : FCvtKind → Nat
  | .ff f => f.code
  | .fromInt f => 32 + f.code
  | .toInt f => 64 + f.code

/-- The kinds of VSCVT from fmt and field B (R126). -/
def scvtKind (f b : Nat) : Option SCvtKind :=
  if fld b 5 2 != 0 || bitOf b 3 then none
  else
    let out := bitOf b 4
    if f == 4 then
      let i := IFmt.ofCode (fld b 0 3)
      some (if out then .toI i else .fromI i)
    else if fld b 0 3 != 0 then none
    else (FFmt.ofCode f).map fun g => if out then .toF g else .fromF g
def SCvtKind.code : SCvtKind → Nat
  | .fromF _ => 0 | .toF _ => 16 | .fromI f => f.code | .toI f => 16 + f.code
def SCvtKind.fmtCode : SCvtKind → Nat
  | .fromF f | .toF f => f.code
  | .fromI _ | .toI _ => 4

/-- The operator of VRDC (R108), of VSCAN (R109), and the source of VCVT (R102). -/
def redOp {O : Type} (c : Nat → Option O) (b : Nat) : Option O := if fld b 3 4 == 0 then c (fld b 0 3) else none
def scanOp {O : Type} (c : Nat → Option O) (b : Nat) : Option (ScanOp O) :=
  if fld b 4 3 == 0 then (c (fld b 0 3)).map fun o => ⟨o, bitOf b 3⟩ else none

/-- QSrc codes (R147). -/
def QSrc.ofCode (n : Nat) : Option QSrc :=
  match n with
  | 0 => some .f32 | 1 => some .i32 | 2 => some .raw | _ => none
def QSrc.code : QSrc → Nat
  | .f32 => 0 | .i32 => 1 | .raw => 2

/-- VMOVI (R100): field A is 0. DESIGN CHOICE (log 58): a reserved source value or 0x7F in the unused field is 0x04 of R45, not
0x03 of R34. -/
def decMovi (l : Lead) (w : Nat) : Got :=
  (check (fA w == 0) 0x04 1, some (.vmovi ⟨l, IFmt.ofCode (fF w), BitVec.ofNat 7 (fB w), fD w, fK w⟩))

/-- VPLOG (R101). DESIGN CHOICE (log 58): a K bit that is set is 0x04 with the FIELD of D, since Table 10 has no code for K. -/
def decPlog (l : Lead) (w : Nat) : Got :=
  (check (fF w == 0) 0x02 12 ++ check (fld w 17 4 == 0) 0x03 1 ++ check (fld w 4 3 == 0) 0x03 3 ++ check (!fK w) 0x04 3,
   some (.vplog ⟨l, pNo (fld w 14 3), BitVec.ofNat 4 (fld w 10 4), pNo (fld w 7 3), pNo (fld w 1 3)⟩))

/-- VSCVT (R126). -/
def decScvt (l : Lead) (w : Nat) : Got :=
  let a := gotA w
  let k := scvtKind (fF w) (fB w)
  (check (fF w == 0 || fF w == 1 || fF w == 4) 0x02 12 ++ a.1 ++ check k.isSome 0x03 2,
   match a.2, k with | some a, some k => some (.vscvt ⟨l, (), a, k, fD w, fK w⟩) | _, _ => none)

/-- VCMP with an immediate (R98). -/
def decCmpLi (l : Lead) (w : Nat) : Got :=
  let a := gotA w
  (a.1, a.2.map fun a => .vcmpLi ⟨l, IFmt.ofCode (fF w), a, BitVec.ofNat 7 (fB w), ICond.ofCode (fld w 4 3),
                                  pNo (fld w 1 3), fK w⟩)

/-- VSHFLI (R106): mode and distance in the immediate's place. -/
def decShfli (l : Lead) (w : Nat) : Got :=
  let a := gotA w
  (a.1, a.2.map fun a => .vshfli ⟨l, IFmt.ofCode (fF w), a, ⟨ShflMode.ofCode (fld w 12 2), Fin.ofNat 32 (fld w 7 5)⟩,
                                  fD w, fK w⟩)

/-- QZERO (R145). -/
def decQzero (l : Lead) (w : Nat) : Got :=
  (check (fF w == 0) 0x02 12 ++ check (fld w 17 4 == 0) 0x03 1 ++ check (fld w 10 4 == 0) 0x03 2
     ++ check ((fD w).val == 0 && !fK w) 0x04 3,
   some (.qzero ⟨l, pNo (fld w 14 3), pNo (fld w 7 3)⟩))

/-- QWIDE (R146). -/
def decQwide (l : Lead) (w : Nat) : Got :=
  let a := gotA w
  (check (fF w == 1) 0x02 12 ++ a.1 ++ check (fB w == 0) 0x04 2 ++ check (!fK w) 0x04 3,
   a.2.map fun a => .qwide ⟨l, a, pNo (fld w 4 3), Fin.ofNat 4 (fld w 2 2), bitOf w 1⟩)

/-- QNARR (R147). -/
def decQnarr (l : Lead) (w : Nat) : Got :=
  let f := gotF FFmt.keyG w
  let x := QSrc.ofCode (fld w 12 2)
  (f.1 ++ check (fld w 17 4 == 0) 0x03 1 ++ check (x.isSome && fld w 9 3 == 0) 0x03 2 ++ check (!fK w) 0x04 3,
   match f.2, x with
   | some f, some x => some (.qnarr ⟨l, f, pNo (fld w 14 3), x, Fin.ofNat 4 (fld w 7 2), fD w⟩)
   | _, _ => none)

/-- A lane base word with its lead words (R47, Table 3). -/
def decLane (l : Lead) (w : Nat) (lit : Option Nat) : Got :=
  match fld w 24 7 with
  | 0x01 => lr2 l w lit (gotI w) .vadd
  | 0x02 => lr2 l w lit (gotI w) .vsub
  | 0x03 => lr1 l w (gotIk IFmt.keyS w) .vneg
  | 0x04 => lr1 l w (gotIk IFmt.keyS w) .vabs
  | 0x05 => lr2 l w lit (gotI w) .vmul
  | 0x06 => lr2 l w lit (gotI w) .vmulh
  | 0x07 => lr2 l w lit (gotIk IFmt.keyW w) .vmulw
  | 0x08 => lr2 l w lit (gotI w) .vmad
  | 0x09 => lr2 l w lit (gotI w) .vdiv
  | 0x0A => lr2 l w lit (gotI w) .vrem
  | 0x0B => lr2 l w lit (gotI w) .vmin
  | 0x0C => lr2 l w lit (gotI w) .vmax
  | 0x0D => lr2 l w lit (gotI w) .vabsd
  | 0x10 => lr2 l w lit (gotI w) .vand
  | 0x11 => lr2 l w lit (gotI w) .vor
  | 0x12 => lr2 l w lit (gotI w) .vxor
  | 0x13 => lr2 l w lit (gotI w) .vandn
  | 0x14 => lr1 l w (gotI w) .vnot
  | 0x15 => lr2 l w lit (gotI w) .vshl
  | 0x16 => lr2 l w lit (gotI w) .vshr
  | 0x17 => lr2 l w lit (gotI w) .vsar
  | 0x18 => lr2 l w lit (gotI w) .vrot
  | 0x19 => lr1 l w (gotI w) .vpopc
  | 0x1A => lr1 l w (gotI w) .vclz
  | 0x1B => lr1 l w (gotI w) .vctz
  | 0x1C => lr1 l w (gotI w) .vbrev
  | 0x1D => lr2 l w lit (gotI w) .vbfx
  | 0x1E => lr2 l w lit (gotI w) .vbfi
  | 0x1F => lr2 l w lit (gotI w) .vbytp
  | 0x20 => lr2 l w lit (gotF FFmt.keyF w) .vfadd
  | 0x21 => lr2 l w lit (gotF FFmt.keyF w) .vfsub
  | 0x22 => lr2 l w lit (gotF FFmt.keyF w) .vfmul
  | 0x23 => lr2 l w lit (gotF FFmt.keyF w) .vfma
  | 0x24 => lr2 l w lit (gotF FFmt.keyF w) .vfdiv
  | 0x25 => lr1 l w (gotF FFmt.keyF w) .vfsqrt
  | 0x26 => lr1 l w (gotF FFmt.keyF w) .vfrcp
  | 0x27 => lr1 l w (gotF FFmt.keyF w) .vfrsq
  | 0x28 => lr2 l w lit (gotF FFmt.keyF w) .vfmin
  | 0x29 => lr2 l w lit (gotF FFmt.keyF w) .vfmax
  | 0x2A => lcmp l w lit (gotF FFmt.keyF w) FCond.ofCode .vfcmp
  | 0x2B => lr1 l w (gotF FFmt.keyF w) .vfcls
  | 0x2C => lr1 l w (gotF FFmt.keyG w) .vfex2
  | 0x2D => lr1 l w (gotF FFmt.keyG w) .vflg2
  | 0x2E => lr1 l w (gotF FFmt.keyG w) .vfsin
  | 0x2F => lr1 l w (gotF FFmt.keyG w) .vfcos
  | 0x30 => lr1 l w (gotF FFmt.keyG w) .vftnh
  | 0x31 => lrx l w (gotF FFmt.keyF w) (fcvtKind (fB w)) .vfcvt
  | 0x32 => lrx l w (gotF FFmt.keyF w) (if fld w 8 6 == 0 then some (bitOf w 7) else none) .vfrnd
  | 0x38 => lr2 l w lit (gotF FFmt.keyL w) .vsadd
  | 0x39 => lr2 l w lit (gotF FFmt.keyL w) .vssub
  | 0x3A => lr2 l w lit (gotF FFmt.keyL w) .vsmul
  | 0x3B => lr2 l w lit (gotF FFmt.keyL w) .vsdiv
  | 0x3C => lcmp l w lit (gotF FFmt.keyL w) FCond.ofCode .vscmp
  | 0x3D => lr1 l w (gotF FFmt.keyL w) .vsexp
  | 0x3E => lr1 l w (gotF FFmt.keyL w) .vsln
  | 0x3F => decScvt l w
  | 0x40 => lr1 l w (gotF FFmt.keyL w) .vslvl
  | 0x44 => lcmp l w lit (gotI w) ICond.ofCode .vcmp
  | 0x45 => lr2 l w lit (gotI w) .vsel
  | 0x46 => lr1 l w (gotI w) .vmov
  | 0x47 => decMovi l w
  | 0x48 => decPlog l w
  | 0x49 => lrx l w (gotI w) (redOp (fun n => some (IFmt.ofCode n)) (fB w)) .vcvt
  | 0x4A => lr2 l w lit (gotI w) .vpack
  | 0x4B => lr2 l w lit (gotI w) .vunpk
  | 0x50 => lr2 l w lit (gotI w) .vshfl
  | 0x51 => decShfli l w
  | 0x52 => lr2 l w lit (gotI w) .vbcast
  | 0x53 => lrx l w (gotI w) (redOp IRed.ofCode (fB w)) .vrdc
  | 0x54 => lrx l w (gotF anyF w) (redOp FRed.ofCode (fB w)) .vrdcFloat
  | 0x55 => lrx l w (gotI w) (scanOp IRed.ofCode (fB w)) .vscan
  | 0x56 => lrx l w (gotF anyF w) (scanOp FRed.ofCode (fB w)) .vscanFloat
  | 0x57 => lr2 l w lit (gotI w) .vmatch
  | 0x60 => lri l w .vaddLi
  | 0x61 => lri l w .vmulLi
  | 0x62 => lri l w .vandLi
  | 0x63 => lri l w .vorLi
  | 0x64 => lri l w .vxorLi
  | 0x65 => lri l w .vshlLi
  | 0x66 => lri l w .vshrLi
  | 0x67 => lri l w .vsarLi
  | 0x68 => lri l w .vrotLi
  | 0x69 => lri l w .vminLi
  | 0x6A => lri l w .vmaxLi
  | 0x6B => decCmpLi l w
  | 0x70 => lm l w .vld
  | 0x71 => lm l w .vst
  | 0x72 => lm l w .vlds
  | 0x73 => lm l w .vsts
  | 0x74 => la l w .vatm
  | 0x75 => la l w .vatms
  | 0x76 => la l w .vred
  | 0x77 => lm l w .vprf
  | 0x78 => decQzero l w
  | 0x79 => decQwide l w
  | 0x7A => decQnarr l w
  | 0x7D | 0x7E => ([(0x05, 14)], none)
  | _ => ([(0x01, 13)], none)

/-! ## Uniform words (R37, R48) -/

/-- fn is one of the values the mask leaves, else sub-code 0x09 (R37). -/
def fnIs (w mask : Nat) : List Err := check (uF w &&& (63 - mask) == 0) 0x09 10
/-- An entry outside Table 1 of R239 that asks fn to be 0 leaves it unused: sub-code 0x04 (R45), which is lower than R37's
(R42, log 58). -/
def noF (w : Nat) : List Err := check (uF w == 0) 0x04 10
/-- Unused register fields hold 0 (R45). -/
def noD (w : Nat) : List Err := check (uD w == 0) 0x04 7
def noA (w : Nat) : List Err := check (uA w == 0) 0x04 8
def noB (w : Nat) : List Err := check (uB w == 0) 0x04 9

def ur3 (w : Nat) (mk : Ur3 → Instr) : Got := (fnIs w 0, some (mk ⟨uD w, uA w, uB w⟩))
def ur3u (w : Nat) (mk : Ur3u → Instr) : Got := (fnIs w 1, some (mk ⟨uD w, uA w, uB w, bitOf w 0⟩))
def ur2 (w : Nat) (mk : Ur2 → Instr) : Got := (noB w ++ fnIs w 0, some (mk ⟨uD w, uA w⟩))
def uim (w : Nat) (mk : Ui → Instr) : Got := ([], some (mk ⟨uD w, uA w, uI w⟩))
/-- Every field 0. -/
def ur0 (w : Nat) (i : Instr) : Got := (noD w ++ noA w ++ noB w ++ noF w, some i)
/-- ULD and UST (R187). -/
def umem (w : Nat) (mk : UMem → Instr) : Got :=
  ([], some (mk ⟨IFmt.ofCode (fld w 9 3), uD w, uA w, BitVec.ofNat 9 w⟩))
/-- ULDS and USTS (R187). -/
def umemS (w : Nat) (mk : UMemS → Instr) : Got :=
  ([], some (mk ⟨IFmt.ofCode (fld w 9 3), uD w, uA w, bitOf w 8, BitVec.ofNat 8 w⟩))
/-- The offset of a UB word (R37). -/
def ubOff (w : Nat) : BitVec 21 := BitVec.ofNat 21 w
def ubPred (w : Nat) : Fin 8 := pNo (fld w 21 3)
/-- A literal word, 0 where it was not fetched. -/
def litOf (ls : List Nat) (k : Nat) : Nat := (ls[k]?).getD 0
/-- The context of an engine command. -/
def tctx (w : Nat) : Fin 4 := Fin.ofNat 4 (fld w 4 2)

/-- UATM (R188). -/
def decUatm (w : Nat) : Got :=
  let sc := Scope.ofCode (fld w 9 3)
  (fnIs w 0x3E ++ check sc.isSome 0x09 9,
   some (.uatm ⟨uD w, uA w, sc.getD .gang, Ord.ofCode (fld w 7 2), bitOf w 6, AOp.ofCode (fld w 3 3), bitOf w 2, bitOf w 1⟩))

/-- UVOTE (R242). -/
def decUvote (w : Nat) : Got :=
  (noA w ++ noB w ++ fnIs w 0x1F, some (.uvote (uD w) (pNo (fld w 0 3)) (VoteMode.ofCode (fld w 3 2))))

/-- ULANE (R243). -/
def decUlane (w : Nat) : Got :=
  (fnIs w 1, some (if bitOf w 0 then .ulanePut (uD w) (uA w) (uB w) else .ulaneGet (uD w) (uA w) (uB w)))

/-- ULOOP (R256). -/
def decUloop (w : Nat) (ls : List Nat) : Got :=
  let last := BitVec.ofNat 32 (litOf ls 0)
  (noD w ++ (if bitOf w 11 then noA w else check (fld w 0 11 == 0) 0x04 10),
   some (.uloop (if bitOf w 11 then .const (BitVec.ofNat 11 w) else .reg (uA w)) last))

/-- ARRIVE (R191). -/
def decArrive (w : Nat) : Got :=
  let cnt := match fld w 3 2 with | 0 => some ArrCnt.one | 1 => some .run | 2 => some (.reg (uB w)) | _ => none
  ((if fld w 3 2 == 2 then [] else noB w) ++ fnIs w 0x38 ++ check cnt.isSome 0x09 10,
   cnt.map fun cnt => .arrive (uD w) (uA w) cnt (bitOf w 5))

/-- WAITPH (R193). -/
def decWaitph (w : Nat) : Got :=
  let k := WaitKind.ofCode (fld w 0 2)
  (noD w ++ fnIs w 0x23 ++ check k.isSome 0x09 10, k.map fun k => .waitph (uA w) (uB w) k (bitOf w 5))

/-- FENCE (R194). -/
def decFence (w : Nat) : Got :=
  let k := Scope.ofCode (fld w 0 3)
  (noD w ++ noA w ++ noB w ++ fnIs w 7 ++ check k.isSome 0x09 10, k.map .fence)

/-- TCOPY (R205). -/
def decTcopy (w : Nat) : Got :=
  let o : Eng := ⟨uD w, uA w, uB w, tctx w, bitOf w 1⟩
  (fnIs w 0x3E ++ check (fld w 2 2 < 2) 0x09 10, some (if fld w 2 2 == 0 then .tcopyLd o else .tcopySt o))

/-- TXFER and its abort form (R207). -/
def decTxfer (w : Nat) : Got :=
  if fld w 2 2 == 1 then (noB w ++ check (!bitOf w 1) 0x04 10 ++ fnIs w 0x36, some (.txferAbort (uD w) (uA w) (tctx w)))
  else (fnIs w 0x32, some (.txfer ⟨uD w, uA w, uB w, tctx w, bitOf w 1⟩))

/-- TMMA and TMMAS (R134). -/
def decMma (w : Nat) (ls : List Nat) (mk : Mma → Instr) : Got :=
  let l := litOf ls 0
  (noF w ++ check (fld l 2 30 == 0) 0x04 10, some (mk ⟨uD w, uA w, uB w, bitOf l 1, bitOf l 0⟩))

/-- CACHE (R196). -/
def decCache (w : Nat) : Got :=
  let i := match fld w 0 3 with
    | 0 => some (.cacheL1drop (uA w) (uB w)) | 1 => some (.cacheL2fetch (uA w) (uB w))
    | 2 => some (.cacheFarhint (uA w) (uB w)) | 3 => some (.cacheZero (uA w) (uB w)) | _ => none
  (noD w ++ fnIs w 7 ++ check i.isSome 0x09 10, i)

/-- A uniform base word with its literal words (R48, Table 4). -/
def decUni (w : Nat) (ls : List Nat) : Got :=
  match fld w 24 7 with
  | 0x01 => ur3 w .uadd
  | 0x02 => ur3 w .usub
  | 0x03 => ur3 w .umul
  | 0x04 => ur3u w .umulh
  | 0x05 => ur3u w .udiv
  | 0x06 => ur3u w .urem
  | 0x07 => ur3 w .uand
  | 0x08 => ur3 w .uor
  | 0x09 => ur3 w .uxor
  | 0x0A => ur3 w .uandn
  | 0x0B => ur3 w .ushl
  | 0x0C => ur3 w .ushr
  | 0x0D => ur3 w .usar
  | 0x0E => ur3u w .umin
  | 0x0F => ur3u w .umax
  | 0x10 => ur3 w .ucmp
  | 0x11 => ([], some (.usel ⟨uD w, uA w, uB w⟩ (Fin.ofNat 64 (uF w))))
  | 0x12 => ur2 w .umov
  | 0x13 => ur2 w .upopc
  | 0x14 => ur2 w .uclz
  | 0x18 => uim w .uaddUi
  | 0x19 => uim w .umulUi
  | 0x1A => uim w .uandUi
  | 0x1B => uim w .uorUi
  | 0x1C => uim w .uxorUi
  | 0x1D => uim w .ushlUi
  | 0x1E => uim w .ushrUi
  | 0x1F => uim w .usarUi
  | 0x20 => uim w .uminUi
  | 0x21 => uim w .umaxUi
  | 0x22 => uim w .ucmpUi
  | 0x23 => (noA w, some (.umovi (uD w) (uI w)))
  | 0x24 => (noA w ++ check (uI w == 0) 0x04 10, some (.ulit (uD w) (BitVec.ofNat 32 (litOf ls 0)) (BitVec.ofNat 32 (litOf ls 1))))
  | 0x28 => umem w .uld
  | 0x29 => umem w .ust
  | 0x2A => decUatm w
  | 0x2B => umemS w .ulds
  | 0x2C => umemS w .usts
  | 0x30 => decUvote w
  | 0x31 => decUlane w
  | 0x38 => ([], some (.ubr (ubPred w) (ubOff w)))
  | 0x39 => ([], some (.ubrz (uD w) (uA w) (uI w)))
  | 0x3A => ([], some (.ubrnz (uD w) (uA w) (uI w)))
  | 0x3B => ([], some (.brv (ubPred w) (ubOff w)))
  | 0x3C => ([], some (.brvDivergent (ubPred w) (ubOff w) (BitVec.ofNat 32 (litOf ls 0))))
  | 0x3D => (check (fld w 21 3 == 0) 0x09 12, some (.ujmp (ubOff w)))
  | 0x3E => ([], some (.call (ubPred w) (ubOff w)))
  | 0x3F => (noB w ++ noF w, some (.calli (uD w) (uA w)))
  | 0x40 => (noD w ++ noB w ++ noF w, some (.ret (uA w)))
  | 0x41 => (noD w ++ noB w ++ noF w, some (.dispatch (uA w)))
  | 0x42 => ur0 w .dret
  | 0x43 => decUloop w ls
  | 0x44 => ur0 w .exit
  | 0x45 => ur0 w .yield
  | 0x46 => (noA w ++ noB w ++ fnIs w 7, some (.elect (uD w) (pNo (fld w 0 3))))
  | 0x47 => ur0 w .nop
  | 0x48 => (noD w ++ noB w ++ fnIs w 1, some (.spawn (uA w) (bitOf w 0)))
  | 0x50 => (noD w ++ fnIs w 7, some (.binit (uA w) (uB w) (BitVec.ofNat 3 w)))
  | 0x51 => decArrive w
  | 0x52 => (fnIs w 0x30, some (.bexpect ⟨uD w, uA w, uB w⟩ (bitOf w 4) (bitOf w 5)))
  | 0x53 => decWaitph w
  | 0x54 => decFence w
  | 0x55 => (noF w, some (.tladv ⟨uD w, uA w, uB w⟩))
  | 0x60 => decTcopy w
  | 0x61 => (fnIs w 0x30, some (.tkick ⟨uD w, uA w, uB w⟩ (tctx w)))
  | 0x62 => decTxfer w
  | 0x63 => decMma w ls .tmma
  | 0x64 => decMma w ls .tmmas
  | 0x65 => (noB w ++ fnIs w 0x30, some (.tcancel (uD w) (uA w) (tctx w)))
  | 0x66 => (noA w ++ noB w ++ fnIs w 0x30, some (.tprobe (uD w) (tctx w)))
  | 0x70 => (noA w, some (.uget (uD w) (uI w)))
  | 0x71 => (noA w, some (.uset (uD w) (uI w)))
  | 0x72 => decCache w
  | 0x73 => (noB w ++ noF w, some (.pageq ⟨uD w, uA w⟩))
  | 0x74 => (noD w ++ noA w, some (.trap (uI w)))
  | 0x75 => ur0 w .eret
  | 0x76 => (noD w ++ noA w, some (.bkpt (uI w)))
  | _ => ([(0x01, 13)], none)

/-! ## The instruction (R39, R41, R42) -/

/-- Faults of a prefix word as it stands (R34, R35). -/
def rawP (w : Nat) : List Err :=
  check (fld w 9 7 == 0x7F || (Src.ofCode (fld w 9 7)).isSome) 0x03 4 ++ check (!bitOf w 0) 0x04 14
    ++ check (Rnd.ofCode (fld w 16 3)).isSome 0x06 15

/-- The prefix word (R35, Table 7). -/
def pOf (w : Nat) : PWord :=
  ⟨bitOf w 23, pNo (fld w 20 3), bitOf w 19, (Rnd.ofCode (fld w 16 3)).getD .rne, Src.ofCode (fld w 9 7), BitVec.ofNat 8 (fld w 1 8)⟩

/-- Faults of a modifier word as it stands (R36). -/
def rawM (w : Nat) : List Err := check (fld w 0 12 == 0) 0x04 14

/-- The modifier word (R36, Table 8). -/
def mOf (w : Nat) : MWord :=
  ⟨bitOf w 23, bitOf w 22, bitOf w 21, bitOf w 20, bitOf w 19, bitOf w 18, BitVec.ofNat 6 (fld w 12 6)⟩

/-- A lane word with opcode `op`. -/
def isLead (op w : Nat) : Bool := !bitOf w 31 && fld w 24 7 == op

/-- The prefix and the modifier in front, and the words behind them. -/
def takeLeads (ws : List Nat) : Option Nat × Option Nat × List Nat :=
  match ws with
  | [] => (none, none, [])
  | w :: t =>
    if isLead 0x7E w then (match t with
      | [] => (some w, none, [])
      | m :: r => if isLead 0x7D m then (some w, some m, r) else (some w, none, t))
    else if isLead 0x7D w then (none, some w, t)
    else (none, none, ws)

/-- The faults of some words and the instruction that they name. -/
def readWords (ws : List Nat) : Got :=
  let r := takeLeads ws
  let raw := (match r.1 with | some p => rawP p | none => []) ++ (match r.2.1 with | some m => rawM m | none => [])
  let lead : Lead := ⟨r.1.map pOf, r.2.1.map mOf⟩
  match r.2.2 with
  | [] => (raw ++ [(0x05, 14)], none)
  | w :: ls =>
    let g := if bitOf w 31 then
        (let g := decUni w ls; (check (lead == .bare) 0x05 14 ++ g.1, g.2))
      else decLane lead w ls.head?
    (raw ++ g.1 ++ (match g.2 with | some i => errsOf i | none => []), g.2)

/-- The order of decoding faults (R42): the lowest sub-code, and of one sub-code the lowest field (log 23). -/
def lowErr (a b : Err) : Err := if b.1 < a.1 || (b.1 == a.1 && b.2 < a.2) then b else a

/-- The decoder of the lane and the uniform set (R42): the instruction that the words hold, or its decoding fault. -/
def decode (ws : List Nat) : Except Err Instr :=
  let g := readWords ws
  match g.1, g.2 with
  | [], some i => .ok i
  | e :: t, _ => .error (t.foldl lowErr e)
  | [], none => .error (0x01, 13)

/-! ## Fabric words (R38, R50, R291 to R303) -/

/-- fd and fa of a fabric word. -/
def fbD (w : Nat) : Fin 16 := Fin.ofNat 16 (fld w 52 4)
def fbA (w : Nat) : Fin 16 := Fin.ofNat 16 (fld w 48 4)
/-- The port field and the else or branch offset. -/
def fbPort (w : Nat) : Fin 32 := Fin.ofNat 32 (fld w 40 5)
def fbOff (w : Nat) : BitVec 24 := BitVec.ofNat 24 w
/-- Unused fd, fa, and `n` unused bits from `lo` on hold 0 (R288, R291). -/
def fbZ (w lo n : Nat) : Bool := fld w lo n == 0

/-- An instruction where its reserved fields hold 0. -/
def onlyIf (c : Bool) (i : Instr) : Option Instr := if c then some i else none

/-- The second operand of FADD, FSUB and FCMP (R292). -/
def fbOpnd (w : Nat) (mk : FOpnd → Instr) : Option Instr :=
  if bitOf w 47 then some (mk (.imm (BitVec.ofNat 47 w))) else onlyIf (fbZ w 4 43) (mk (.reg (Fin.ofNat 16 (fld w 0 4))))

/-- FMOV (R292). -/
def fbMov (w : Nat) : Option Instr :=
  match fld w 46 2 with
  | 0 => onlyIf (fbZ w 0 46) (.fmov (fbD w) (.reg (fbA w)))
  | 1 => onlyIf (fbZ w 48 4) (.fmov (fbD w) (.imm (BitVec.ofNat 46 w)))
  | 2 => onlyIf (fbZ w 48 4 && fbZ w 32 14) (.fmov (fbD w) (.hi (BitVec.ofNat 32 w)))
  | _ => none

/-- EMSG (R299). -/
def fbEmsg (w : Nat) : Option Instr :=
  let d : EDst := if bitOf w 47 then .cm else .script (BitVec.ofNat 10 (fld w 32 10)) (Fin.ofNat 8 (fld w 29 3))
  onlyIf (fbZ w 42 5 && fbZ w 16 13 && (!bitOf w 47 || fbZ w 29 13)) (.emsg (fbD w) (fbA w) d (BitVec.ofNat 16 w))

/-- TLSIG (R301). -/
def fbTlsig (w : Nat) : Option Instr :=
  if bitOf w 47 then onlyIf (fbZ w 52 4 && fbZ w 0 47) (.tlsig (.reg (fbA w)))
  else onlyIf (fbZ w 48 8) (.tlsig (.imm (BitVec.ofNat 47 w)))

/-- TLWAIT (R302). -/
def fbTlwait (w : Nat) : Option Instr :=
  if bitOf w 47 then onlyIf (fbZ w 0 47) (.tlwait (fbA w) (.reg (fbD w)))
  else onlyIf (fbZ w 52 4) (.tlwait (fbA w) (.imm (BitVec.ofNat 47 w)))

/-- The decoder of the fabric set; `none` is ILLENC (R38, R50). -/
def decodeFabric (w : Nat) : Option Instr :=
  match fld w 56 8 with
  | 0x01 => onlyIf (fbZ w 45 7 && fbZ w 0 25)
      (.creq (fbD w) (fbPort w) (BitVec.ofNat 10 (fld w 30 10)) (Fin.ofNat 32 (fld w 25 5)))
  | 0x02 => onlyIf (fbZ w 45 7)
      (.cwait (fbD w) (fbPort w) (PortSt.ofField (fld w 38 2)) (BitVec.ofNat 14 (fld w 24 14)) (fbOff w))
  | 0x03 => onlyIf (fbZ w 45 7 && fbZ w 0 14)
      (.cuse (fbD w) (fbPort w) (BitVec.ofNat 10 (fld w 30 10)) (BitVec.ofNat 16 (fld w 14 16)))
  | 0x04 => onlyIf (fbZ w 45 7 && fbZ w 0 40) (.crel (fbD w) (fbPort w))
  | 0x05 => onlyIf (fbZ w 45 7 && fbZ w 0 40) (.cstat (fbD w) (fbPort w))
  | 0x08 => fbEmsg w
  | 0x09 => onlyIf (fbZ w 24 8) (.erecv (fbD w) (fbA w) (BitVec.ofNat 16 (fld w 32 16)) (fbOff w))
  | 0x10 => fbMov w
  | 0x11 => fbOpnd w (.fadd (fbD w) (fbA w))
  | 0x12 => fbOpnd w (.fsub (fbD w) (fbA w))
  | 0x13 => fbOpnd w (.fcmp (fbD w) (fbA w))
  | 0x18 => onlyIf (fbZ w 24 32) (.fbr (fbOff w))
  | 0x19 => onlyIf (fbZ w 52 4 && fbZ w 24 17) (.fbrc (bitOf w 47) (fbA w) (BitVec.ofNat 6 (fld w 41 6)) (fbOff w))
  | 0x20 => fbTlsig w
  | 0x21 => fbTlwait w
  | 0x28 => onlyIf (fbZ w 0 52) (.ftime (fbD w))
  | 0x29 => onlyIf (fbZ w 52 4 && fbZ w 32 16) (.fint (fbA w) (BitVec.ofNat 32 w))
  | 0x30 => onlyIf (fbZ w 0 56) .fnop
  | 0x31 => onlyIf (fbZ w 52 4 && fbZ w 1 47 && (bitOf w 0 || fbZ w 48 4)) (.fhalt (bitOf w 0) (fbA w))
  | _ => none

/-! ## The encoder -/

/-- The words of the prefix and of the modifier (R35, R36). -/
def PWord.word (p : PWord) : Nat :=
  0x7E * 2 ^ 24 + b2n p.inv * 2 ^ 23 + p.guard.val * 2 ^ 20 + b2n p.zero * 2 ^ 19 + p.rnd.code * 2 ^ 16
    + (match p.c with | some x => x.code | none => 0x7F) * 2 ^ 9 + p.mask.toNat * 2
def MWord.word (m : MWord) : Nat :=
  0x7D * 2 ^ 24 + b2n m.sat * 2 ^ 23 + b2n m.clamp * 2 ^ 22 + b2n m.negA * 2 ^ 21 + b2n m.negB * 2 ^ 20 + b2n m.absA * 2 ^ 19
    + b2n m.absB * 2 ^ 18 + m.scale.toNat * 2 ^ 12
def Lead.words (l : Lead) : List Nat := (l.pw.map PWord.word).toList ++ (l.mw.map MWord.word).toList

/-- A lane word from its fields (R33). -/
def laneWord (op f a b d k : Nat) : Nat := op * 2 ^ 24 + f * 2 ^ 21 + a * 2 ^ 14 + b * 2 ^ 7 + d * 2 + k

/-- The literal word of a source B. -/
def SrcB.words : SrcB → List Nat
  | .src _ => [] | .lit w => [w.toNat]

def encLr2 {F : Type} (op : Nat) (code : F → Nat) (o : Lr2 F) : List Nat :=
  o.lead.words ++ [laneWord op (code o.fmt) o.a.code o.b.code o.d.val (b2n o.k)] ++ o.b.words
def encLr1 {F : Type} (op : Nat) (code : F → Nat) (o : Lr1 F) : List Nat :=
  o.lead.words ++ [laneWord op (code o.fmt) o.a.code 0 o.d.val (b2n o.k)]
def encLrx {F X : Type} (op : Nat) (f b : Nat) (o : LrX F X) : List Nat :=
  o.lead.words ++ [laneWord op f o.a.code b o.d.val (b2n o.k)]
def encLri (op : Nat) (o : Lri) : List Nat :=
  o.lead.words ++ [laneWord op o.fmt.code o.a.code o.imm.toNat o.d.val (b2n o.k)]
def encLm (op : Nat) (o : Lm) : List Nat :=
  o.lead.words ++ [op * 2 ^ 24 + o.w.code * 2 ^ 21 + o.a.val * 2 ^ 15 + o.off.toNat * 2 ^ 7 + o.d.val * 2 + b2n o.sp]
def encLa (op : Nat) (o : La) : List Nat :=
  o.lead.words ++ [op * 2 ^ 24 + o.w.code * 2 ^ 21 + o.a.val * 2 ^ 15 + o.op.code * 2 ^ 12 + o.ord.code * 2 ^ 10
    + o.scope.code * 2 ^ 7 + o.d.val * 2 + b2n o.sp]
def encCmp {F C : Type} (op : Nat) (code : F → Nat) (cc : C → Nat) (o : LCmp F C SrcB) : List Nat :=
  o.lead.words ++ [laneWord op (code o.fmt) o.a.code o.b.code (cc o.cond * 8 + o.pd.val) (b2n o.any)] ++ o.b.words
/-- Field B of VSCAN (R109). -/
def scanCode {O : Type} (code : O → Nat) (o : ScanOp O) : Nat := b2n o.excl * 8 + code o.op

/-- A uniform word from its fields (R37). -/
def uniWord (op d a b f : Nat) : Nat := (128 + op) * 2 ^ 24 + d * 2 ^ 18 + a * 2 ^ 12 + b * 2 ^ 6 + f
def encUr3 (op : Nat) (o : Ur3) : List Nat := [uniWord op o.sd.val o.sa.val o.sb.val 0]
def encUr3u (op : Nat) (o : Ur3u) : List Nat := [uniWord op o.sd.val o.sa.val o.sb.val (b2n o.u)]
def encUr2 (op : Nat) (o : Ur2) : List Nat := [uniWord op o.sd.val o.sa.val 0 0]
/-- A UI word. -/
def uiWord (op d a i : Nat) : Nat := (128 + op) * 2 ^ 24 + d * 2 ^ 18 + a * 2 ^ 12 + i
def encUi (op : Nat) (o : Ui) : List Nat := [uiWord op o.sd.val o.sa.val o.imm.toNat]
def encUMem (op : Nat) (o : UMem) : List Nat := [uiWord op o.sd.val o.sa.val (o.w.code * 2 ^ 9 + o.off.toNat)]
def encUMemS (op : Nat) (o : UMemS) : List Nat :=
  [uiWord op o.sd.val o.sa.val (o.w.code * 2 ^ 9 + b2n o.sp * 2 ^ 8 + o.off.toNat)]
/-- A UB word. -/
def ubWord (op p off : Nat) : Nat := (128 + op) * 2 ^ 24 + p * 2 ^ 21 + off
def encEng (op : Nat) (fn : Nat) (o : Eng) : List Nat :=
  [uniWord op o.sd.val o.sa.val o.sb.val (o.ctx.val * 16 + fn * 4 + b2n o.bar * 2)]
def encMma (op : Nat) (o : Mma) : List Nat :=
  [uniWord op o.sd.val o.sa.val o.sb.val 0, b2n o.acc * 2 + b2n o.grp]

/-- A fabric word from its opcode, fd, fa and operand bits, as two 32-bit words, the low one first (R287). -/
def fabWord (op d a e : Nat) : List Nat :=
  let w := op * 2 ^ 56 + d * 2 ^ 52 + a * 2 ^ 48 + e
  [fld w 0 32, fld w 32 32]
def encOpnd (op : Nat) (fd fa : Fin 16) (o : FOpnd) : List Nat :=
  fabWord op fd.val fa.val (match o with | .reg fb => fb.val | .imm e => 2 ^ 47 + e.toNat)

/-- The words of an instruction, each of 32 bits; none for a step that has no encoding. -/
def encode : Instr → List Nat
  | .vadd o => encLr2 0x01 IFmt.code o
  | .vaddLi o => encLri 0x60 o
  | .vsub o => encLr2 0x02 IFmt.code o
  | .vneg o => encLr1 0x03 IFmt.code o
  | .vabs o => encLr1 0x04 IFmt.code o
  | .vmul o => encLr2 0x05 IFmt.code o
  | .vmulLi o => encLri 0x61 o
  | .vmulh o => encLr2 0x06 IFmt.code o
  | .vmulw o => encLr2 0x07 IFmt.code o
  | .vmad o => encLr2 0x08 IFmt.code o
  | .vdiv o => encLr2 0x09 IFmt.code o
  | .vrem o => encLr2 0x0A IFmt.code o
  | .vmin o => encLr2 0x0B IFmt.code o
  | .vminLi o => encLri 0x69 o
  | .vmax o => encLr2 0x0C IFmt.code o
  | .vmaxLi o => encLri 0x6A o
  | .vabsd o => encLr2 0x0D IFmt.code o
  | .vand o => encLr2 0x10 IFmt.code o
  | .vandLi o => encLri 0x62 o
  | .vor o => encLr2 0x11 IFmt.code o
  | .vorLi o => encLri 0x63 o
  | .vxor o => encLr2 0x12 IFmt.code o
  | .vxorLi o => encLri 0x64 o
  | .vandn o => encLr2 0x13 IFmt.code o
  | .vnot o => encLr1 0x14 IFmt.code o
  | .vshl o => encLr2 0x15 IFmt.code o
  | .vshlLi o => encLri 0x65 o
  | .vshr o => encLr2 0x16 IFmt.code o
  | .vshrLi o => encLri 0x66 o
  | .vsar o => encLr2 0x17 IFmt.code o
  | .vsarLi o => encLri 0x67 o
  | .vrot o => encLr2 0x18 IFmt.code o
  | .vrotLi o => encLri 0x68 o
  | .vpopc o => encLr1 0x19 IFmt.code o
  | .vclz o => encLr1 0x1A IFmt.code o
  | .vctz o => encLr1 0x1B IFmt.code o
  | .vbrev o => encLr1 0x1C IFmt.code o
  | .vbfx o => encLr2 0x1D IFmt.code o
  | .vbfi o => encLr2 0x1E IFmt.code o
  | .vbytp o => encLr2 0x1F IFmt.code o
  | .vfadd o => encLr2 0x20 FFmt.code o
  | .vfsub o => encLr2 0x21 FFmt.code o
  | .vfmul o => encLr2 0x22 FFmt.code o
  | .vfma o => encLr2 0x23 FFmt.code o
  | .vfdiv o => encLr2 0x24 FFmt.code o
  | .vfsqrt o => encLr1 0x25 FFmt.code o
  | .vfrcp o => encLr1 0x26 FFmt.code o
  | .vfrsq o => encLr1 0x27 FFmt.code o
  | .vfmin o => encLr2 0x28 FFmt.code o
  | .vfmax o => encLr2 0x29 FFmt.code o
  | .vfcmp o => encCmp 0x2A FFmt.code FCond.code o
  | .vfcls o => encLr1 0x2B FFmt.code o
  | .vfex2 o => encLr1 0x2C FFmt.code o
  | .vflg2 o => encLr1 0x2D FFmt.code o
  | .vfsin o => encLr1 0x2E FFmt.code o
  | .vfcos o => encLr1 0x2F FFmt.code o
  | .vftnh o => encLr1 0x30 FFmt.code o
  | .vfcvt o => encLrx 0x31 o.fmt.code o.x.code o
  | .vfrnd o => encLrx 0x32 o.fmt.code (b2n o.x) o
  | .vsadd o => encLr2 0x38 FFmt.code o
  | .vssub o => encLr2 0x39 FFmt.code o
  | .vsmul o => encLr2 0x3A FFmt.code o
  | .vsdiv o => encLr2 0x3B FFmt.code o
  | .vscmp o => encCmp 0x3C FFmt.code FCond.code o
  | .vsexp o => encLr1 0x3D FFmt.code o
  | .vsln o => encLr1 0x3E FFmt.code o
  | .vscvt o => encLrx 0x3F o.x.fmtCode o.x.code o
  | .vslvl o => encLr1 0x40 FFmt.code o
  | .vcmp o => encCmp 0x44 IFmt.code ICond.code o
  | .vcmpLi o => o.lead.words ++ [laneWord 0x6B o.fmt.code o.a.code o.b.toNat (o.cond.code * 8 + o.pd.val) (b2n o.any)]
  | .vsel o => encLr2 0x45 IFmt.code o
  | .vmov o => encLr1 0x46 IFmt.code o
  | .vmovi o => o.lead.words ++ [laneWord 0x47 o.fmt.code 0 o.imm.toNat o.d.val (b2n o.k)]
  | .vplog o => o.lead.words ++ [laneWord 0x48 0 o.pa.val (o.fn.toNat * 8 + o.pb.val) o.pd.val 0]
  | .vcvt o => encLrx 0x49 o.fmt.code o.x.code o
  | .vpack o => encLr2 0x4A IFmt.code o
  | .vunpk o => encLr2 0x4B IFmt.code o
  | .vshfl o => encLr2 0x50 IFmt.code o
  | .vshfli o => encLrx 0x51 o.fmt.code (o.x.mode.code * 32 + o.x.dist.val) o
  | .vbcast o => encLr2 0x52 IFmt.code o
  | .vrdc o => encLrx 0x53 o.fmt.code o.x.code o
  | .vrdcFloat o => encLrx 0x54 o.fmt.code o.x.code o
  | .vscan o => encLrx 0x55 o.fmt.code (scanCode IRed.code o.x) o
  | .vscanFloat o => encLrx 0x56 o.fmt.code (scanCode FRed.code o.x) o
  | .vmatch o => encLr2 0x57 IFmt.code o
  | .vld o => encLm 0x70 o
  | .vst o => encLm 0x71 o
  | .vlds o => encLm 0x72 o
  | .vsts o => encLm 0x73 o
  | .vatm o => encLa 0x74 o
  | .vatms o => encLa 0x75 o
  | .vred o => encLa 0x76 o
  | .vprf o => encLm 0x77 o
  | .qzero o => o.lead.words ++ [laneWord 0x78 0 o.lo.val o.hi.val 0 0]
  | .qwide o => o.lead.words ++ [laneWord 0x79 1 o.a.code 0 (o.q.val * 8 + o.part.val * 2 + b2n o.add) 0]
  | .qnarr o => o.lead.words ++ [laneWord 0x7A o.fmt.code o.q.val (o.src.code * 32 + o.part.val) o.d.val 0]
  | .uadd o => encUr3 0x01 o
  | .uaddUi o => encUi 0x18 o
  | .usub o => encUr3 0x02 o
  | .umul o => encUr3 0x03 o
  | .umulUi o => encUi 0x19 o
  | .umulh o => encUr3u 0x04 o
  | .udiv o => encUr3u 0x05 o
  | .urem o => encUr3u 0x06 o
  | .uand o => encUr3 0x07 o
  | .uandUi o => encUi 0x1A o
  | .uor o => encUr3 0x08 o
  | .uorUi o => encUi 0x1B o
  | .uxor o => encUr3 0x09 o
  | .uxorUi o => encUi 0x1C o
  | .uandn o => encUr3 0x0A o
  | .ushl o => encUr3 0x0B o
  | .ushlUi o => encUi 0x1D o
  | .ushr o => encUr3 0x0C o
  | .ushrUi o => encUi 0x1E o
  | .usar o => encUr3 0x0D o
  | .usarUi o => encUi 0x1F o
  | .umin o => encUr3u 0x0E o
  | .uminUi o => encUi 0x20 o
  | .umax o => encUr3u 0x0F o
  | .umaxUi o => encUi 0x21 o
  | .ucmp o => encUr3 0x10 o
  | .ucmpUi o => encUi 0x22 o
  | .usel o sc => [uniWord 0x11 o.sd.val o.sa.val o.sb.val sc.val]
  | .umov o => encUr2 0x12 o
  | .upopc o => encUr2 0x13 o
  | .uclz o => encUr2 0x14 o
  | .umovi sd imm => [uiWord 0x23 sd.val 0 imm.toNat]
  | .ulit sd lo hi => [uiWord 0x24 sd.val 0 0, lo.toNat, hi.toNat]
  | .uld o => encUMem 0x28 o
  | .ust o => encUMem 0x29 o
  | .uatm o => [uniWord 0x2A o.sd.val o.sa.val (o.scope.code * 8 + o.ord.code * 2 + b2n o.n) (o.op.code * 8 + b2n o.ld * 4 + b2n o.st * 2)]
  | .ulds o => encUMemS 0x2B o
  | .usts o => encUMemS 0x2C o
  | .uvote sd p mode => [uniWord 0x30 sd.val 0 0 (mode.code * 8 + p.val)]
  | .ulaneGet sd va sb => [uniWord 0x31 sd.val va.val sb.val 0]
  | .ulanePut vd sa sb => [uniWord 0x31 vd.val sa.val sb.val 1]
  | .ubr p off => [ubWord 0x38 p.val off.toNat]
  | .ubrz sel sa off => [uiWord 0x39 sel.val sa.val off.toNat]
  | .ubrnz sel sa off => [uiWord 0x3A sel.val sa.val off.toNat]
  | .brv p off => [ubWord 0x3B p.val off.toNat]
  | .brvDivergent p off dv => [ubWord 0x3C p.val off.toNat, dv.toNat]
  | .ujmp off => [ubWord 0x3D 0 off.toNat]
  | .call l off => [ubWord 0x3E l.val off.toNat]
  | .calli vl sa => [uniWord 0x3F vl.val sa.val 0 0]
  | .ret va => [uniWord 0x40 0 va.val 0 0]
  | .dispatch va => [uniWord 0x41 0 va.val 0 0]
  | .dret => [uniWord 0x42 0 0 0 0]
  | .uloop cnt last => [match cnt with | .reg sa => uiWord 0x43 0 sa.val 0 | .const k => uiWord 0x43 0 0 (2 ^ 11 + k.toNat), last.toNat]
  | .exit => [uniWord 0x44 0 0 0 0]
  | .yield => [uniWord 0x45 0 0 0 0]
  | .elect sd p => [uniWord 0x46 sd.val 0 0 p.val]
  | .nop => [uniWord 0x47 0 0 0 0]
  | .spawn sa inc => [uniWord 0x48 0 sa.val 0 (b2n inc)]
  | .binit sa sb scope => [uniWord 0x50 0 sa.val sb.val scope.toNat]
  | .arrive sd sa cnt rel => [match cnt with
      | .one => uniWord 0x51 sd.val sa.val 0 (b2n rel * 32)
      | .run => uniWord 0x51 sd.val sa.val 0 (b2n rel * 32 + 8)
      | .reg sb => uniWord 0x51 sd.val sa.val sb.val (b2n rel * 32 + 16)]
  | .bexpect o arr rel => [uniWord 0x52 o.sd.val o.sa.val o.sb.val (b2n rel * 32 + b2n arr * 16)]
  | .waitph sa sb kind acq => [uniWord 0x53 0 sa.val sb.val (b2n acq * 32 + kind.code)]
  | .fence sc => [uniWord 0x54 0 0 0 sc.code]
  | .tladv o => encUr3 0x55 o
  | .tcopyLd o => encEng 0x60 0 o
  | .tcopySt o => encEng 0x60 1 o
  | .tkick o ctx => [uniWord 0x61 o.sd.val o.sa.val o.sb.val (ctx.val * 16)]
  | .txfer o => encEng 0x62 0 o
  | .txferAbort sd sa ctx => [uniWord 0x62 sd.val sa.val 0 (ctx.val * 16 + 4)]
  | .tmma o => encMma 0x63 o
  | .tmmas o => encMma 0x64 o
  | .tcancel sd sa ctx => [uniWord 0x65 sd.val sa.val 0 (ctx.val * 16)]
  | .tprobe sd ctx => [uniWord 0x66 sd.val 0 0 (ctx.val * 16)]
  | .uget sd num => [uiWord 0x70 sd.val 0 num.toNat]
  | .uset sd num => [uiWord 0x71 sd.val 0 num.toNat]
  | .cacheL1drop sa sb => [uniWord 0x72 0 sa.val sb.val 0]
  | .cacheL2fetch sa sb => [uniWord 0x72 0 sa.val sb.val 1]
  | .cacheFarhint sa sb => [uniWord 0x72 0 sa.val sb.val 2]
  | .cacheZero sa sb => [uniWord 0x72 0 sa.val sb.val 3]
  | .pageq o => encUr2 0x73 o
  | .trap code => [uiWord 0x74 0 0 code.toNat]
  | .eret => [uniWord 0x75 0 0 0 0]
  | .bkpt code => [uiWord 0x76 0 0 code.toNat]
  | .creq fd port pd pp => fabWord 0x01 fd.val 0 (port.val * 2 ^ 40 + pd.toNat * 2 ^ 30 + pp.val * 2 ^ 25)
  | .cwait fd port st t off => fabWord 0x02 fd.val 0 (port.val * 2 ^ 40 + st.field * 2 ^ 38 + t.toNat * 2 ^ 24 + off.toNat)
  | .cuse fd port rank comm => fabWord 0x03 fd.val 0 (port.val * 2 ^ 40 + rank.toNat * 2 ^ 30 + comm.toNat * 2 ^ 14)
  | .crel fd port => fabWord 0x04 fd.val 0 (port.val * 2 ^ 40)
  | .cstat fd port => fabWord 0x05 fd.val 0 (port.val * 2 ^ 40)
  | .emsg fd fa dst tag => fabWord 0x08 fd.val fa.val (match dst with
      | .cm => 2 ^ 47 + tag.toNat | .script dev ctx => dev.toNat * 2 ^ 32 + ctx.val * 2 ^ 29 + tag.toNat)
  | .erecv fd fa tag off => fabWord 0x09 fd.val fa.val (tag.toNat * 2 ^ 32 + off.toNat)
  | .fmov fd k => match k with
      | .reg fa => fabWord 0x10 fd.val fa.val 0
      | .imm e => fabWord 0x10 fd.val 0 (2 ^ 46 + e.toNat)
      | .hi e => fabWord 0x10 fd.val 0 (2 ^ 47 + e.toNat)
  | .fadd fd fa o => encOpnd 0x11 fd fa o
  | .fsub fd fa o => encOpnd 0x12 fd fa o
  | .fcmp fd fa o => encOpnd 0x13 fd fa o
  | .fbr off => fabWord 0x18 0 0 off.toNat
  | .fbrc z fa sel off => fabWord 0x19 0 fa.val (b2n z * 2 ^ 47 + sel.toNat * 2 ^ 41 + off.toNat)
  | .tlsig val => match val with | .imm e => fabWord 0x20 0 0 e.toNat | .reg f => fabWord 0x20 0 f.val (2 ^ 47)
  | .tlwait fa val => match val with | .imm e => fabWord 0x21 0 fa.val e.toNat | .reg f => fabWord 0x21 f.val fa.val (2 ^ 47)
  | .ftime fd => fabWord 0x28 fd.val 0 0
  | .fint fa code => fabWord 0x29 0 fa.val code.toNat
  | .fnop => fabWord 0x30 0 0 0
  | .fhalt err fa => fabWord 0x31 0 fa.val (b2n err)
  | .waitphComplete _ _ | .eventWindowExpire _ _ | .cwaitComplete _ | .cwaitTimeout _ | .emsgTimeout _
  | .erecvTimeout _ | .tlwaitComplete _ | .launch _ | .script _ | .scriptForward _ | .wait _ | .waitRelease _
  | .signal _ | .teamAdmit _ | .residentAdmit _ | .dieQueueSteal _ _ | .workerFormation _ | .dispatchLateQueue _ _
  | .gangOverdue _ | .yieldBound _ | .sliceEnd _ | .sliceIdleTimeout _ | .quiesceTimeout _ | .saveComplete _
  | .teamResume _ _ | .gangExitComplete _ | .teamRetire _ | .teamKill _ | .gangHostResume _ | .tokenReservationPaid _
  | .ringRevolution _ | .budgetInterval _ | .classTransitionEnd _ | .islandDrained _ | .unitGate _ _ _
  | .thermalReading _ _ | .powerRemoval | .loadDataReturn _ _ _ _ | .storeVisible _ _ _ | .matrixArrayStart _
  | .matrixRetire _ | .matrixOperandFault _ | .copyBytesLand _ _ _ _ _ | .copyComplete _ _ _ | .copyFault _ _ _
  | .reservationRequestReceive _ _ _ | .reservationAnswerReceive _ _ _ _ _ | .reservationResend _ _ _ _ _
  | .chunkBoundary _ _ | .chunkReceive _ _ _ _ | .chunkApply _ _ | .chunkReplyReceive _ _ _ _ _ _
  | .chunkResend _ _ _ _ _ _ | .circuitTimeout _ _ _ | .abortTokenReceive _ _ _ _ _ _ | .abortAckReceive _ _ _ _
  | .requestServe _ _ _ | .remoteAccessServe _ _ _ | .replyReceive _ | .requestRetransmit _ _ | .fullRetry _ _
  | .ackfSend _ _ | .ackfReceive _ _ _ | .requesterRecordExpire _ _ | .incarnationAnnounce _ _ | .warmRestart
  | .coldRestart | .boot | .tlbMiss _ _ _ | .walkComplete _ _ _ | .invalidateDone | .pageMove _ _ _ | .storageError _
  | .checkerMismatch _ | .rollback _ | .lightDetected _ | .wavelengthLock _ | .lockTimeout _ | .trainingComplete _
  | .trainingTimeout _ | .lightLost _ | .flitCrcError _ | .drainEnd _ | .drainTimeout _ | .cmGrant _ | .cmRefuse _
  | .cmDrop _ | .scriptMessageReceive _ | .fsqAckReceive _ _ | .fsqMessageResend _ | .write _ _ _ _ | .read _ _ _ _
  | .move _ _ _ _ _ _ _ _ | .moveComplete _ | .transportAck _ | .transportResend _ | .mgmtRegisterWrite _ _
  | .queueSkip _ | .queueDisable _ | .verdictParse _ | .verdictSkip _ | .poolWrite _ _ | .pacingDisable
  | .invalidateGo _ | .pageFaultRetry _ | .pageFaultRefuse _ | .scriptReset _ | .scriptTimelineWrite _ _
  | .portArm _ _ _ | .portRelease _ | .portBind _ _ _ _ | .rindExtensionGrant _ _ | .attestationNonce _
  | .dbgResume _ | .dbgStep _ _ | .stepEnd _ | .stopArrive _ | .sampleTrigger _ | .sampleComplete _ _
  | .attestationEvidenceSigned | .sliOccupancyEnd _ _ | .pageMoveDone _ => []

/-- Whether an instruction has an encoding of the fabric set. -/
def isFabric : Instr → Bool
  | .creq _ _ _ _ | .cwait _ _ _ _ _ | .cuse _ _ _ _ | .crel _ _ | .cstat _ _ | .emsg _ _ _ _ | .erecv _ _ _ _
  | .fmov _ _ | .fadd _ _ _ | .fsub _ _ _ | .fcmp _ _ _ | .fbr _ | .fbrc _ _ _ _ | .tlsig _ | .tlwait _ _ | .ftime _
  | .fint _ _ | .fnop | .fhalt _ _ => true
  | .vadd _ | .vaddLi _ | .vsub _ | .vneg _ | .vabs _ | .vmul _ | .vmulLi _ | .vmulh _ | .vmulw _ | .vmad _ | .vdiv _
  | .vrem _ | .vmin _ | .vminLi _ | .vmax _ | .vmaxLi _ | .vabsd _ | .vand _ | .vandLi _ | .vor _ | .vorLi _
  | .vxor _ | .vxorLi _ | .vandn _ | .vnot _ | .vshl _ | .vshlLi _ | .vshr _ | .vshrLi _ | .vsar _ | .vsarLi _
  | .vrot _ | .vrotLi _ | .vpopc _ | .vclz _ | .vctz _ | .vbrev _ | .vbfx _ | .vbfi _ | .vbytp _ | .vfadd _
  | .vfsub _ | .vfmul _ | .vfma _ | .vfdiv _ | .vfsqrt _ | .vfrcp _ | .vfrsq _ | .vfmin _ | .vfmax _ | .vfcmp _
  | .vfcls _ | .vfex2 _ | .vflg2 _ | .vfsin _ | .vfcos _ | .vftnh _ | .vfcvt _ | .vfrnd _ | .vsadd _ | .vssub _
  | .vsmul _ | .vsdiv _ | .vscmp _ | .vsexp _ | .vsln _ | .vscvt _ | .vslvl _ | .vcmp _ | .vcmpLi _ | .vsel _
  | .vmov _ | .vmovi _ | .vplog _ | .vcvt _ | .vpack _ | .vunpk _ | .vshfl _ | .vshfli _ | .vbcast _ | .vrdc _
  | .vrdcFloat _ | .vscan _ | .vscanFloat _ | .vmatch _ | .vld _ | .vst _ | .vlds _ | .vsts _ | .vatm _ | .vatms _
  | .vred _ | .vprf _ | .qzero _ | .qwide _ | .qnarr _ | .uadd _ | .uaddUi _ | .usub _ | .umul _ | .umulUi _
  | .umulh _ | .udiv _ | .urem _ | .uand _ | .uandUi _ | .uor _ | .uorUi _ | .uxor _ | .uxorUi _ | .uandn _ | .ushl _
  | .ushlUi _ | .ushr _ | .ushrUi _ | .usar _ | .usarUi _ | .umin _ | .uminUi _ | .umax _ | .umaxUi _ | .ucmp _
  | .ucmpUi _ | .usel _ _ | .umov _ | .upopc _ | .uclz _ | .umovi _ _ | .ulit _ _ _ | .uld _ | .ust _ | .uatm _
  | .ulds _ | .usts _ | .uvote _ _ _ | .ulaneGet _ _ _ | .ulanePut _ _ _ | .ubr _ _ | .ubrz _ _ _ | .ubrnz _ _ _
  | .brv _ _ | .brvDivergent _ _ _ | .ujmp _ | .call _ _ | .calli _ _ | .ret _ | .dispatch _ | .dret | .uloop _ _
  | .exit | .yield | .elect _ _ | .nop | .spawn _ _ | .binit _ _ _ | .arrive _ _ _ _ | .bexpect _ _ _
  | .waitph _ _ _ _ | .waitphComplete _ _ | .fence _ | .tladv _ | .tcopyLd _ | .tcopySt _ | .tkick _ _ | .txfer _
  | .txferAbort _ _ _ | .tmma _ | .tmmas _ | .tcancel _ _ _ | .tprobe _ _ | .uget _ _ | .uset _ _ | .cacheL1drop _ _
  | .cacheL2fetch _ _ | .cacheFarhint _ _ | .cacheZero _ _ | .pageq _ | .trap _ | .eret | .bkpt _
  | .eventWindowExpire _ _ | .cwaitComplete _ | .cwaitTimeout _ | .emsgTimeout _ | .erecvTimeout _
  | .tlwaitComplete _ | .launch _ | .script _ | .scriptForward _ | .wait _ | .waitRelease _ | .signal _
  | .teamAdmit _ | .residentAdmit _ | .dieQueueSteal _ _ | .workerFormation _ | .dispatchLateQueue _ _
  | .gangOverdue _ | .yieldBound _ | .sliceEnd _ | .sliceIdleTimeout _ | .quiesceTimeout _ | .saveComplete _
  | .teamResume _ _ | .gangExitComplete _ | .teamRetire _ | .teamKill _ | .gangHostResume _ | .tokenReservationPaid _
  | .ringRevolution _ | .budgetInterval _ | .classTransitionEnd _ | .islandDrained _ | .unitGate _ _ _
  | .thermalReading _ _ | .powerRemoval | .loadDataReturn _ _ _ _ | .storeVisible _ _ _ | .matrixArrayStart _
  | .matrixRetire _ | .matrixOperandFault _ | .copyBytesLand _ _ _ _ _ | .copyComplete _ _ _ | .copyFault _ _ _
  | .reservationRequestReceive _ _ _ | .reservationAnswerReceive _ _ _ _ _ | .reservationResend _ _ _ _ _
  | .chunkBoundary _ _ | .chunkReceive _ _ _ _ | .chunkApply _ _ | .chunkReplyReceive _ _ _ _ _ _
  | .chunkResend _ _ _ _ _ _ | .circuitTimeout _ _ _ | .abortTokenReceive _ _ _ _ _ _ | .abortAckReceive _ _ _ _
  | .requestServe _ _ _ | .remoteAccessServe _ _ _ | .replyReceive _ | .requestRetransmit _ _ | .fullRetry _ _
  | .ackfSend _ _ | .ackfReceive _ _ _ | .requesterRecordExpire _ _ | .incarnationAnnounce _ _ | .warmRestart
  | .coldRestart | .boot | .tlbMiss _ _ _ | .walkComplete _ _ _ | .invalidateDone | .pageMove _ _ _ | .storageError _
  | .checkerMismatch _ | .rollback _ | .lightDetected _ | .wavelengthLock _ | .lockTimeout _ | .trainingComplete _
  | .trainingTimeout _ | .lightLost _ | .flitCrcError _ | .drainEnd _ | .drainTimeout _ | .cmGrant _ | .cmRefuse _
  | .cmDrop _ | .scriptMessageReceive _ | .fsqAckReceive _ _ | .fsqMessageResend _ | .write _ _ _ _ | .read _ _ _ _
  | .move _ _ _ _ _ _ _ _ | .moveComplete _ | .transportAck _ | .transportResend _ | .mgmtRegisterWrite _ _
  | .queueSkip _ | .queueDisable _ | .verdictParse _ | .verdictSkip _ | .poolWrite _ _ | .pacingDisable
  | .invalidateGo _ | .pageFaultRetry _ | .pageFaultRefuse _ | .scriptReset _ | .scriptTimelineWrite _ _
  | .portArm _ _ _ | .portRelease _ | .portBind _ _ _ _ | .rindExtensionGrant _ _ | .attestationNonce _
  | .dbgResume _ | .dbgStep _ _ | .stepEnd _ | .stopArrive _ | .sampleTrigger _ | .sampleComplete _ _
  | .attestationEvidenceSigned | .sliOccupancyEnd _ _ | .pageMoveDone _ => false

/-- A well-formed instruction that a word of the fabric set can hold: FHALT without ERR names no register (R291, R303). -/
def wfFabric (i : Instr) : Bool := isFabric i && match i with | .fhalt err fa => err || fa == 0 | _ => true

/-- The number that two fabric words hold. -/
def fabNat (ws : List Nat) : Nat := ws.foldr (fun w n => w + 2 ^ 32 * n) 0

/-! ## The host's question -/

/-- The 32-bit words of an instruction of `n` words, its first the lowest. -/
def wordsOf (w : Nat) : Nat → List Nat
  | 0 => []
  | n + 1 => fld w 0 32 :: wordsOf (w / 2 ^ 32) n

/-- The instruction that a table row's bits name: the words are numbered from the first upwards, and words that the row does
not give are zeros (R39). A row of 64 bits is a fabric word; its second reading, a lane or uniform instruction, is taken where
the first refuses. -/
def decodeTableWord (nbits w : Nat) : Option Instr :=
  let lane := match decode (takeWords (wordsOf (w % 2 ^ nbits) 4)) with | .ok i => some i | .error _ => none
  if nbits == 64 then (match decodeFabric (w % 2 ^ 64) with | some i => some i | none => lane) else lane
where
  /-- As many words as the instruction has (R39). -/
  takeWords (ws : List Nat) : List Nat :=
    (List.range 4).foldl (fun (t : List Nat) _ => if Machine.moreWords t then ws.take (t.length + 1) else t) []

end Sys2Proof
end

