-- ==== Sys2Proof/Machine/Debug.lean ====
section
/-!
DEFINITION. Observation (R378 to R388): breakpoints, the arrival of a stop, resuming and stepping, and the sampler; and the
end of an SLI unit's occupancy (R127).
-/
namespace Sys2Proof.Machine

/-! ## Breakpoints (R378, R379) -/

/-- The instruction at `pc` of a gang, where it can be fetched and decoded. -/
def instrAt (s : State) (g : Nat) (pc : Word) : Option Instr :=
  match fetchInstr s g pc with
  | .error _ => none
  | .ok ws => (decode ws).toOption

/-- The active lanes of an instruction (R6); the whole run for one without a guard, and for VSEL, whose prefix selects (R99). -/
def activeLanes (G : Gang) (i : Option Instr) (run : W32) : W32 :=
  match i with
  | some (.vsel ..) => run
  | _ => match i.bind leadOf with | some r => guardLanes G r.2 run | none => run

/-- One sub-element of `w` bits under COND (R378, R379). -/
def condMet (cond w a b : Nat) : Bool :=
  match cond with
  | 0 => a == b
  | 1 => a != b
  | 2 => decide (sext w a < sext w b)
  | 3 => decide (sext w b ≤ sext w a)
  | 4 => decide (a < b)
  | 5 => decide (b ≤ a)
  | 6 => a &&& b != 0
  | _ => a &&& b == 0

/-- The selected sub-elements of a register value that may match: those outside poisoned halves (R379). -/
def subsMet (ctl val x : Nat) (poisoned : Nat → Bool) : Bool :=
  let w := 64 / 2 ^ fld ctl 50 2
  (List.range (64 / w)).any fun k =>
    bitOf ctl (42 + k) && condMet (fld ctl 52 3) w (fld x (w * k) w) (fld val 0 w)
      && (List.range 2).all fun h => !poisoned h || (w * k + w ≤ 32 * h || 32 * h + 32 ≤ w * k)

/-- The lanes that meet breakpoint `n` of a core at an instruction of the run, or every lane for an s register; none where
it does not trigger (R379). -/
def bpLanes (s : State) (g : Nat) (run : W32) (pc : Word) (i : Option Instr) (n : Nat) : W32 :=
  let G := gangOf s g
  let ctl := (mgmtGet s (offBpCtl G.core n)).toNat
  let val := (mgmtGet s (offBpVal G.core n)).toNat
  let here := bitOf ctl 63 && (!bitOf ctl 41 || fld pc.toNat 0 57 == fld (mgmtGet s (offBpPc G.core n)).toNat 0 57)
    && (!bitOf ctl 40 || G.slot == fld ctl 35 5)
  let reg := fld ctl 56 6
  if !here then 0
  else if bitOf ctl 62 then
    if subsMet ctl val (sGet G reg).toNat fun h => (SMap.find G.poisonS (2 * reg + h)).isSome then run else 0
  else
    let act := activeLanes G i run
    let met := laneSet fun l => hasLane act l && decide (reg < 8 * (G.budget + 1))
      && subsMet ctl val (vGet G reg l).toNat fun h => (SMap.find G.poisonV (2 * (64 * l + reg) + h)).isSome
    if bitOf ctl 55 then (if met == act then met else 0) else met

/-- The stop of a breakpoint before the instruction at `pc`, the lowest unit of those that trigger (R379, R384, R387); none
where no breakpoint triggers, and none while the gang is stepped. -/
def bpStop (s : State) (g : Nat) (run : W32) (pc : Word) : Option State :=
  let G := gangOf s g
  let C := coreOf s G.core
  let stepped := match C.stepOf with | some t => t.slot == G.slot | none => false
  if !dbgEn s G.core || stepped then none
  else
    let i := instrAt s g pc
    match (List.range 8).find? fun n => bpLanes s g run pc i n != 0 with
    | none => none
    | some n =>
      let lane := lowLane (bpLanes s g run pc i n)
      let rpc := restartPc G false run pc
      some (stopNow s g run rpc { stopRec s (some g) pc 0 lane 0 n 0 with restart := rpc != pc })

/-! ## The arrival of a stop (R384, R385) -/

/-- The skid of a gang when a stop arrives (R384): what it issued since the trigger, 0 while no run of it may issue. -/
def skidOf (st : Stop) (g : Nat) (G : Gang) : Nat :=
  if (runPcs G).isEmpty then 0 else G.issuedN - SMap.getD st.base g 0

/-- Whether a stop is one whose own gang froze at the trigger: a breakpoint or BKPT (R384). -/
def Stop.atOnce (st : Stop) : Bool :=
  let unit := Word.fld st.fault.extra 0 8
  unit < 8 || unit == 12

/-- The gang that a stop's record names, when it stands on a core. -/
def stopGang (s : State) (st : Stop) : Option Nat :=
  if st.fault.core == 0x1FF || st.fault.dev != Config.deviceId.toNat then none else gangAt s st.fault.core st.fault.gang

/-- The record of a stop whose named gang is frozen, or that has no such gang, is delivered (R385). -/
def tellStop (s : State) (st : Stop) (core : Nat) : State × Bool :=
  match stopGang s st with
  | some g =>
    let G := gangOf s g
    if G.core == core then
      match chooseRun G with
      | some (pc, run) => (stopReport s (some g) run pc st.fault, true)
      | none =>
        let t := G.threads.head?
        (stopReport s (some g) ((t.map fun e => waitGroup G e.1).getD 0) ((t.map fun e => e.2.pc).getD 0) st.fault, true)
    else if (stopGroup s core).contains G.core then (s, false)
    else (stopReport s none 0 0 st.fault, true)
  | none => (stopReport s none 0 0 st.fault, true)

/-- STOP_ARRIVE (R384, R385): the oldest stop on its way to a core freezes the gangs of its context there. -/
def execStopArrive (core : Nat) (s : State) : Res :=
  match s.stops.find? fun t => t.cores.contains core with
  | none => .next s
  | some st =>
    let s := { s with stops := s.stops.erase st }
    let mid := match stopGang s st with | some g => (gangOf s g).core == core && midChain (gangOf s g) | none => false
    let st := { st with fault := { st.fault with restart := st.fault.restart || mid } }
    let s := if st.atOnce && st.fault.core == core then s else clearSkids s core
    let gs := (s.gangs.filter fun e => e.2.core == core && ctxOfTeam (teamKey e.1) == st.ctx
      && (teamOf s (teamKey e.1)).st != .saved && (!e.2.threads.isEmpty || e.2.role == .worker)).map (·.1)
    let s := gs.foldl (fun s g => freezeGang s g (skidOf st g (gangOf s g))) s
    let r := if st.told then (s, true) else tellStop s st core
    let st := { st with cores := st.cores.filter (· != core), told := r.2 }
    let s := r.1
    .next (if st.cores.isEmpty then s else { s with stops := s.stops ++ [st] })

/-! ## Resuming and stepping (R383, R386) -/

/-- DBG_RESUME (R383): every gang that the core's last stop froze issues again, in the whole of its stop group. -/
def execDbgResume (core : Nat) (s : State) : Res := .next (resumeStopped s (stopGroup s core))

/-- Whether the completion rule of a WAITPH holds, or its checks fail, so that it would not wait. -/
def waitOver (s : State) (c : Issue) (kind : WaitKind) (obj val : Word) : Bool :=
  match waitChecks s c kind obj val with
  | .error _ => true
  | .ok ls => match waitRule s c kind obj val ls with | .yet => false | _ => true

/-- Whether a frozen gang's next issue could be made now without waiting for a peer (R386). -/
def stepWould (s : State) (g : Nat) : Bool :=
  let G := gangOf s g
  match chooseRun G with
  | some (pc, run) =>
    let c : Issue := { g := g, run := run, pc := pc, issued := false }
    match instrAt s g pc with
    | some (.waitph sa sb kind _) => waitOver s c kind (sGet G sa.val) (sGet G sb.val)
    | _ => true
  | none =>
    G.threads.any fun e =>
      match e.2.wait with
      | .phase kind obj val _ => waitOver s { g := g, run := waitGroup G e.1, pc := e.2.pc, issued := false } kind obj val
      | .failed _ => true
      | _ => false

/-- DBG_STEP (R386): the frozen gang at a slot may issue its next instruction, or its whole chain; the step blocks where
that would wait for a peer. -/
def execDbgStep (core slot : Nat) (s : State) : Res :=
  match gangAt s core slot with
  | none => .next s
  | some g =>
    let G := gangOf s g
    if !G.stopped || (coreOf s core).stepOf.isSome then .next s
    else
      let can := G.frozen.isNone && stepWould s g
      let r : StepRun := { slot := slot, handler := G.handler.isSome, base := G.issuedN, blocked := !can }
      let s := modCore s core fun C => { C with stepOf := some r }
      .next (if can then modGang s g fun G => { G with stopped := false } else s)

/-- A stepped gang that has issued, with no chain that goes on, or that has trapped, freezes again (R386). -/
def stepSettle (s : State) (core : Nat) : State :=
  match (coreOf s core).stepOf with
  | none => s
  | some r =>
    match gangAt s core r.slot with
    | none => s
    | some g =>
      let G := gangOf s g
      let open_ := midChain G
      let done := (r.base < G.issuedN && !open_) || (G.handler.isSome && !r.handler) || G.frozen.isSome
      if !G.stopped && done && !r.blocked then modGang s g fun G => { G with stopped := true } else s

/-- STEP_END (R386, Table 5): the step has ended; DBG.STEPST is written and cause STEP reported to the host. -/
def execStepEnd (core : Nat) (s : State) : Res :=
  match (coreOf s core).stepOf with
  | none => .next s
  | some r =>
    let at_ := gangAt s core r.slot
    let G := (at_.map (gangOf s)).getD Gang.blank
    if at_.isSome && !G.stopped then .next s
    else
      let pc := match chooseRun G with
        | some e => e.1
        | none => ((G.threads.head?).map fun e => e.2.pc).getD 0
      let bad := !r.blocked && ((G.handler.isSome && !r.handler) || G.frozen.isSome)
      let w := 2 ^ 63 + b2n r.blocked * 2 ^ 62 + b2n bad * 2 ^ 61 + pc.toNat % 2 ^ 57
      let s := mgmtPut (modCore s core fun C => { C with stepOf := none }) (offStepSt core) (BitVec.ofNat 64 w)
      let rec_ := stopRec s at_ pc 0 0xFF 0 0 0
      .next (toHost s (.fault 0x06 { rec_ with cause := .stepped, core := core, gang := r.slot }))

/-! ## The sampler (R388) -/

/-- An instruction that a memory sample counts: the memory class of R231, or an engine command (R388). -/
def sampled (ws : List Nat) : Bool := classOf ws == some .memory || isEngineWord ws

/-- EN, MODE and PERIOD of a core's sampler (R388, Table 6). -/
def sampEn (s : State) (c : Nat) : Bool := (mgmtGet s (offSamp c)).getLsbD 63
def sampByTime (s : State) (c : Nat) : Bool := (mgmtGet s (offSamp c)).getLsbD 62
def sampPeriod (s : State) (c : Nat) : Nat := Word.fld (mgmtGet s (offSamp c)) 0 32

/-- The 64 bytes of a sample record (R388, Table 7); `mem` are the bits of its memory fields. -/
def sampleBytes (core : Nat) (x : Sample) (state mem : Nat) : List Byte :=
  leBytes 64 (x.pc.toNat * 2 ^ 448 + x.tl.toNat * 2 ^ 384 + x.mask.toNat * 2 ^ 352 + mem % 2 ^ 93 * 2 ^ 259 + state % 8 * 2 ^ 256
    + core % 2 ^ 9 * 2 ^ 247 + x.slot % 32 * 2 ^ 242 + ctxOfTeam (teamKey x.g) % 2 ^ 12 * 2 ^ 230 + x.time % 2 ^ 64 * 2 ^ 166)

/-- A record enters the sampler's ring, or is dropped and counted (R388); SAMP.IDX holds HEAD in [19:0], TAIL in [39:20]
and the logarithm of the size in [44:40] (log 8). -/
def sampleRing (s : State) (core : Nat) (bytes : List Byte) : State :=
  let w := (mgmtGet s (offSampIdx core)).toNat
  let head := fld w 0 20
  let tail := fld w 20 20
  let log := fld w 40 5
  if (head + 2 ^ 20 - tail) % 2 ^ 20 == 2 ^ log then
    let lost := fld w 48 16
    mgmtPut s (offSampIdx core) (BitVec.ofNat 64 (setFld w 48 16 (if lost == 0xFFFF then lost else lost + 1)))
  else
    let s := ringPut s (mgmtGet s (offSampRing core)).toNat head log bytes
    mgmtPut s (offSampIdx core) (BitVec.ofNat 64 (setFld w 0 20 ((head + 1) % 2 ^ 20)))

/-- A sample of a gang at `pc`. -/
def newSample (s : State) (g : Nat) (pc : Word) (run : W32) : Sample :=
  let G := gangOf s g
  { id := s.nextId, g := g, pc := pc, tl := 0, mask := activeLanes G (instrAt s g pc) run, slot := G.slot, time := s.now,
    nth := none }

/-- A tagged instruction is followed. -/
def followSample (s : State) (core : Nat) (x : Sample) : State :=
  modCore { s with nextId := s.nextId + 1 } core fun C => { C with samples := C.samples ++ [x] }

/-- The state of a gang that a time sample takes, its PC and run (R388, Table 7). -/
def gangState (s : State) (g : Nat) : Nat × Word × W32 :=
  let G := gangOf s g
  let held := match G.pf with | .waiting _ => true | _ => false
  let low := ((G.threads.head?).map fun e => e.2.pc).getD G.lastPc
  match chooseRun G with
  | none => (if G.stopped then 6 else 2, low, liveLanes G)
  | some (pc, run) =>
    if G.stopped then (6, pc, run)
    else if (coreOf s G.core).resv.any fun r => r.holder == .gang g then (3, pc, run)
    else if held || G.frozen.isSome || G.loading || (teamOf s (teamKey g)).st != .running then (2, pc, run)
    else match fetchInstr s g pc with
      | .error _ => (4, pc, run)
      | .ok ws => (if sampled ws then 0 else 1, pc, run)

/-- The slot that a time sample takes: the next occupied one after the last. -/
def nextSlot (s : State) (core : Nat) : Option Nat :=
  let C := coreOf s core
  ((List.range 32).map fun i => (C.sampSlot + 1 + i) % 32).find? fun k =>
    (gangAt s core k).isSome || (SMap.find C.gone k).isSome

/-- A time sample (R388): a memory instruction about to issue is followed, any other state is recorded at once. -/
def timeSample (s : State) (core : Nat) : State :=
  let C := coreOf s core
  let out := match nextSlot s core with
    | none => s
    | some k =>
      let s := modCore s core fun C => { C with sampSlot := k }
      match SMap.find C.gone k, gangAt s core k with
      | some pc, _ =>
        let x : Sample := { id := 0, g := mkGang (mkTeam (coreCtx s core) 0) 0, pc := pc, tl := 0, mask := 0, slot := k,
                            time := s.now, nth := none }
        sampleRing s core (sampleBytes core x 5 0)
      | none, some g =>
        let st := gangState s g
        let x := newSample s g st.2.1 st.2.2
        if st.1 == 0 then followSample s core x else sampleRing s core (sampleBytes core x st.1 0)
      | none, none => s
  modCore out core fun C => { C with gone := [], sampN := cyclesOf s core }

/-- Whether a core's sampling period has expired (R388). -/
def sampleDue (s : State) (core : Nat) : Bool :=
  let C := coreOf s core
  sampEn s core && (if sampByTime s core then decide (C.sampN + sampPeriod s core ≤ cyclesOf s core) else C.tag.isSome)

/-- SAMPLE_TRIGGER (R388): the instruction whose issue completed the period is tagged, or the next occupied slot is taken. -/
def execSampleTrigger (core : Nat) (s : State) : Res :=
  if !sampleDue s core then .next s
  else if sampByTime s core then .next (timeSample s core)
  else match (coreOf s core).tag with
    | none => .next s
    | some c =>
      let x := newSample s c.g c.pc c.run
      let tl := match instrAt s c.g c.pc with
        | some i => (match encode i with | w :: _ => if isEngineWord [w] then sGet (gangOf s c.g) (fld w 18 6) else 0 | [] => 0)
        | none => 0
      let x := { x with tl := tl, nth := some ((gangOf s c.g).issuedN - 1) }
      .next (modCore (followSample s core x) core fun C => { C with tag := none, sampN := 0 })

/-- What the sampler notes when a gang has issued: the count of memory instructions, the instruction that completes the
period, and for a followed instruction its issue and its timeline number (R388). -/
def noteIssue (s : State) (g : Nat) (run : W32) : State :=
  let G := gangOf s g
  let C := coreOf s G.core
  if !sampEn s G.core then s
  else match fetchInstr s g G.lastPc with
    | .error _ => s
    | .ok ws =>
      if !sampled ws then s
      else
        let tl := match ws with | w :: _ => if isEngineWord ws then sGet G (fld w 18 6) else 0 | [] => 0
        let mark := fun (x : Sample) =>
          if x.g == g && x.pc == G.lastPc && x.nth.isNone then { x with nth := some (G.issuedN - 1), tl := tl } else x
        let C := { C with samples := C.samples.map mark }
        let C :=
          if sampByTime s G.core then C
          else if sampPeriod s G.core ≤ C.sampN + 1 then
            { C with sampN := 0, tag := some { g := g, run := run, pc := G.lastPc, issued := true } }
          else { C with sampN := C.sampN + 1 }
        modCore s G.core fun _ => C

/-- Whether a followed instruction has completed (R388): its stores are visible, its requests answered, its command
complete; or its gang is gone. -/
def sampleOver (s : State) (core : Nat) (x : Sample) : Bool :=
  match SMap.find s.gangs x.g with
  | none => true
  | some G =>
    let T := teamOf s (teamKey x.g)
    match x.nth with
    | none => G.threads.isEmpty || G.core != core
    | some n =>
      !(G.storeQ.any fun e => e.nth == n) && !((coreOf s core).outb.any fun e => e.by_ == x.g && e.nth == n)
        && !(G.reqs.any fun r => r.nth == n)
        && !((coreOf s core).tcu.any fun t => t.2.cmds.any fun m => m.gang == x.g && m.pc == x.pc && teamNum T t.1 m.num == x.tl)
        && !((matOf s (pairOfCore core)).ops.any fun o => o.gang == x.g && o.pc == x.pc && BitVec.ofNat 64 o.num == x.tl)

/-- SAMPLE_COMPLETE (R388): the record of a followed instruction is written. What caching, queueing and coalescing show in
it is left open and drawn free (log 4). -/
def execSampleComplete (core id : Nat) (s : State) : Res :=
  match (coreOf s core).samples.find? fun x => x.id == id with
  | none => .next s
  | some x =>
    if !sampleOver s core x then .next s
    else
      let a := drawFree s
      let b := drawFree a.2
      let s := modCore b.2 core fun C => { C with samples := C.samples.filter fun y => y.id != id }
      .next (sampleRing s core (sampleBytes core x 0 (a.1.toNat + b.1.toNat * 2 ^ 64)))

/-! ## SLI occupancy (R127) -/

/-- SLI_OCCUPANCY_END (R127): a quarter's SLI unit whose occupancy is over is free. -/
def execSliOccupancyEnd (core quarter : Nat) (s : State) : Res :=
  match SMap.find (coreOf s core).sliBusy quarter with
  | none => .next s
  | some t =>
    if cyclesOf s core < t then .next s
    else .next (modCore s core fun C => { C with sliBusy := SMap.erase C.sliBusy quarter })

end Sys2Proof.Machine
end

