-- ==== Sys2Proof/Machine/Fabric.lean ====
section
/-!
DEFINITION. The fabric instructions (R291 to R303) and the events that end their waits.
-/
namespace Sys2Proof.Machine

/-- A word that waits for nothing: the script goes on behind it (R288). -/
def fabricStep (s : State) (f : Nat → Script → Script) : Res :=
  fabric s fun c => modScript s c fun S => scriptNext (f c S)

/-! ## Moves and arithmetic (R292) -/

/-- FMOV (R292). -/
def execFmov (fd : Fin 16) (k : FMovKind) (s : State) : Res :=
  fabricStep s fun _ S => fPut S fd.val (match k with
    | .reg fa => fGet S fa.val
    | .imm e => BitVec.signExtend 64 e
    | .hi e => BitVec.ofNat 64 (setFld (fGet S fd.val).toNat 32 32 e.toNat))

/-- The second operand of FADD, FSUB and FCMP (R292). -/
def fOpnd (S : Script) (o : FOpnd) : Word :=
  match o with | .reg fb => fGet S fb.val | .imm e => BitVec.signExtend 64 e

/-- FADD (R292). -/
def execFadd (fd fa : Fin 16) (o : FOpnd) (s : State) : Res :=
  fabricStep s fun _ S => fPut S fd.val (fGet S fa.val + fOpnd S o)
/-- FSUB (R292). -/
def execFsub (fd fa : Fin 16) (o : FOpnd) (s : State) : Res :=
  fabricStep s fun _ S => fPut S fd.val (fGet S fa.val - fOpnd S o)
/-- FCMP (R241, R292). -/
def execFcmp (fd fa : Fin 16) (o : FOpnd) (s : State) : Res :=
  fabricStep s fun _ S => fPut S fd.val (condWord (fGet S fa.val) (fOpnd S o))

/-! ## Branches (R293) -/

/-- FBR (R293). -/
def execFbr (off : BitVec 24) (s : State) : Res :=
  fabric s fun c =>
    if targetOk (scriptOf s c) off then modScript s c fun S => scriptJump S off else scriptFault s c .prot 0

/-- What a conditional branch tests (R248, R293): the register, or bit SEL − 1 of it. -/
def fTested (x : Word) (sel : BitVec 6) : Bool := if sel == 0 then x != 0 else x.getLsbD (sel.toNat - 1)

/-- FBRC (R293): the target is checked whether or not the branch is taken. -/
def execFbrc (z : Bool) (fa : Fin 16) (sel : BitVec 6) (off : BitVec 24) (s : State) : Res :=
  fabric s fun c =>
    if targetOk (scriptOf s c) off then
      modScript s c fun S => if fTested (fGet S fa.val) sel != z then scriptJump S off else scriptNext S
    else scriptFault s c .prot 0

/-! ## Circuits (R294 to R298) -/

/-- CREQ (R294). -/
def execCreq (fd : Fin 16) (port : Fin 32) (peerDev : BitVec 10) (peerPort : Fin 32) (s : State) : Res :=
  fabric s fun c =>
    let P := portOf s port.val
    let done := fun (s : State) (w : Word) => modScript s c fun S => scriptNext (fPut S fd.val w)
    if P.armed then done s (if P.owner == c then 1 else 2)
    else done (armPort s port.val c peerDev.toNat peerPort.val) 0

/-- CWAIT (R295): it completes at once, or waits. -/
def execCwait (fd : Fin 16) (port : Fin 32) (st : PortSt) (t : BitVec 14) (off : BitVec 24) (s : State) : Res :=
  fabric s fun c =>
    if !targetOk (scriptOf s c) off then scriptFault s c .prot 0
    else
      let i := Instr.cwait fd port st t off
      match cwaitReady (portOf s port.val) port.val (some i) with
      | some (fd, fell, off) => finishCwait s c fd port.val fell off
      | none => scriptWait s c i

/-- CWAIT_COMPLETE (R295): the port stands in the awaited state. -/
def execCwaitComplete (c : Nat) (s : State) : Res :=
  let S := scriptOf s c
  match S.st, S.wait with
  | .waiting, some (.cwait fd port st _ off) =>
    if (portOf s port.val).st == st then .next (finishCwait s c fd port.val true off) else .next s
  | _, _ => .next s

/-- CWAIT_TIMEOUT (R295): t µs after its issue the else branch is taken; the awaited state wins at that instant. -/
def execCwaitTimeout (c : Nat) (s : State) : Res :=
  let S := scriptOf s c
  match S.st, S.wait with
  | .waiting, some (.cwait fd port st t off) =>
    if t == 0 || s.now < S.since + 1000 * t.toNat then .next s
    else .next (finishCwait s c fd port.val ((portOf s port.val).st == st) off)
  | _, _ => .next s

/-- CUSE (R285, R296). -/
def execCuse (fd : Fin 16) (port : Fin 32) (rank : BitVec 10) (comm : BitVec 16) (s : State) : Res :=
  fabric s fun c =>
    let r := bindPort s (scriptOf s c).actx comm.toNat rank.toNat port.val c
    modScript r.1 c fun S => scriptNext (fPut S fd.val (BitVec.ofNat 64 r.2))

/-- CREL (R284, R297): a port that drains keeps the script waiting. -/
def execCrel (fd : Fin 16) (port : Fin 32) (s : State) : Res :=
  fabric s fun c =>
    let P := portOf s port.val
    let done := fun (s : State) (w : Word) => modScript s c fun S => scriptNext (fPut S fd.val w)
    if !P.armed then done s 1
    else if P.owner != c then done s 2
    else
      let r := if P.drain.isSome then (s, false) else releasePort s port.val
      if r.2 then done r.1 0 else scriptWait r.1 c (.crel fd port)

/-- CSTAT (R298). -/
def execCstat (fd : Fin 16) (port : Fin 32) (s : State) : Res :=
  fabricStep s fun _ S => fPut S fd.val (portWord (portOf s port.val))

/-! ## Messages (R299, R300) -/

/-- The message of an EMSG (R286, R299). -/
def emsgMsg (S : Script) (fa : Nat) (dst : EDst) (tag : BitVec 16) : FsqMsg :=
  let payload : BitVec 128 := fGet S (fa + 1) ++ fGet S fa
  let m : FsqMsg := { payload := payload, serial := 0, digest := 0, ident := 0, type := 0x10, dev := Config.deviceId, port := 0,
                      peerDev := 0, peerPort := 0, reqno := tag }
  match dst with
  | .cm => m
  | .script dev ctx => { m with type := 0x11, dev := dev, port := BitVec.ofNat 5 ctx.val }

/-- EMSG (R299): the message is sent, and the script waits for its acknowledgement. -/
def execEmsg (fd fa : Fin 16) (dst : EDst) (tag : BitVec 16) (s : State) : Res :=
  fabric s fun c =>
    if fa.val == 15 then scriptFault s c .prot 0
    else scriptWait (fsqSend s c (emsgMsg (scriptOf s c) fa.val dst tag)) c (.emsg fd fa dst tag)

/-- EMSG_TIMEOUT (R299): 10 µs after the 64th send EMSG writes 1, and the message is given up. -/
def execEmsgTimeout (c : Nat) (s : State) : Res :=
  match s.fsqOut.find? fun o => emsgOf s o.msg.ident o.msg.serial == some c && isEmsg o.msg with
  | some o =>
    if 64 ≤ o.sends && o.sentAt + 10000 ≤ s.now then
      .next (endEmsg { s with fsqOut := s.fsqOut.filter fun x => x != o } c 1)
    else .next s
  | none => .next s

/-- ERECV (R300): the oldest message with the tag is taken, or the script waits for one. -/
def execErecv (fd fa : Fin 16) (tag : BitVec 16) (off : BitVec 24) (s : State) : Res :=
  fabric s fun c =>
    let S := scriptOf s c
    if fd.val == 15 || !targetOk S off then scriptFault s c .prot 0
    else match mailFor S tag with
      | some i => modScript s c fun S => takeMail S fd.val i
      | none => scriptWait s c (.erecv fd fa tag off)

/-- ERECV_TIMEOUT (R300): f(fa) µs after its issue ERECV takes the else branch and writes nothing. -/
def execErecvTimeout (c : Nat) (s : State) : Res :=
  let S := scriptOf s c
  match S.st, S.wait with
  | .waiting, some (.erecv _ fa _ off) =>
    let t := (fGet S fa.val).toNat
    if t == 0 || s.now < S.since + 1000 * t then .next s else .next (modScript s c fun S => scriptJump S off)
  | _, _ => .next s

/-! ## Timelines (R301, R302) -/

/-- TLSIG (R301). -/
def execTlsig (val : FVal) (s : State) : Res :=
  fabricStep s fun _ S =>
    let x : Word := match val with | .imm e => BitVec.zeroExtend 64 e | .reg f => fGet S f.val
    { S with tl := Word.maxU S.tl x }

/-- What a WAIT or a TLWAIT finds of its timeline (R222, R302): the value; a name that is an error; or a page that refuses. -/
inductive WaitName where
  | value (x : Word) (places : List Loc)
  | badName
  | refused (c : Cause)
  deriving DecidableEq, Repr

/-- The timeline of a name (R170, R222, R302): CLASS 3 a script context's, CLASS 4 that of an address. -/
def waitName (s : State) (ctx : Nat) (name : Word) : WaitName :=
  let w := tlWhich name
  if Word.fld name 57 3 != 0 then .badName
  else match tlClass name with
    | 3 => if w < 8 then .value (scriptOf s w).tl [] else .badName
    | 4 =>
      if w % 8 != 0 then .badName
      else match windowOf (BitVec.ofNat 64 w) with
        | .global a => match ctxBytes s ctx a accRead false 8 with
          | .ok ls => .value (tlRead s ls) ls
          | .error c => .refused c
        | _ => .badName
    | _ => .badName

/-- The value that a timeline name holds for a context; `none` for a name that is refused. -/
def namedTimeline (s : State) (ctx : Nat) (name : Word) : Option Word :=
  match waitName s ctx name with | .value x _ => some x | _ => none

/-- The value that a TLWAIT waits for (R302). -/
def fabricValue (S : Script) (val : FVal) : Word :=
  match val with | .imm e => BitVec.zeroExtend 64 e | .reg f => fGet S f.val

/-- How page faults of a script context are known among the masters. -/
def masterScript (c : Nat) : Nat := 2 ^ 56 + c

/-- A TLWAIT holds its context, which may wait with it already. -/
def tlwaitHold (s : State) (c : Nat) (fa : Fin 16) (val : FVal) : State :=
  if (scriptOf s c).st == .waiting then s else scriptWait s c (.tlwait fa val)

/-- What a TLWAIT does with what it finds of its timeline (R302): it completes, waits, or stops the context for a name or a
page that is refused; a timeline on another device is read there (R328). -/
def tlwaitOn (s : State) (c : Nat) (fa : Fin 16) (val : FVal) : WaitName → State
  | .value x ls =>
    let need := fabricValue (scriptOf s c) val
    if need.toNat ≤ x.toNat then modScript s c scriptNext
    else tlwaitHold (pollFar s ls (.script c need) (BitVec.ofNat 64 (tlWhich (fGet (scriptOf s c) fa.val)))) c fa val
  | .badName => scriptFault s c .prot 0
  | .refused e => scriptFault s c e 0

/-- A TLWAIT is tried (R302): the page fault of its timeline is served first (R323 to R325). -/
def tlwaitTry (s : State) (c : Nat) (fa : Fin 16) (val : FVal) : State :=
  let S := scriptOf s c
  let name := fGet S fa.val
  match waitName s S.actx name with
  | .refused .pagef =>
    let pg := ownPage s S.actx (tlWhich name) accRead (masterScript c) false
    (match pg.2 with
     | .wait => tlwaitHold pg.1 c fa val
     | .refused => scriptFault pg.1 c .pagef 0
     | .there => tlwaitOn pg.1 c fa val (waitName pg.1 S.actx name))
  | w => tlwaitOn s c fa val w

/-- TLWAIT (R302). -/
def execTlwait (fa : Fin 16) (val : FVal) (s : State) : Res := fabric s fun c => tlwaitTry s c fa val

/-- TLWAIT_COMPLETE (R302): the waiting word is tried again. -/
def execTlwaitComplete (c : Nat) (s : State) : Res :=
  let S := scriptOf s c
  match S.st, S.wait with
  | .waiting, some (.tlwait fa val) => .next (tlwaitTry s c fa val)
  | _, _ => .next s

/-! ## The rest (R303) -/

/-- FTIME (R303). -/
def execFtime (fd : Fin 16) (s : State) : Res := fabricStep s fun _ S => fPut S fd.val (BitVec.ofNat 64 s.now)

/-- FINT (R303). -/
def execFint (fa : Fin 16) (code : W32) (s : State) : Res :=
  fabric s fun c =>
    let S := scriptOf s c
    modScript (toHost s (.notify 0x05 [c, code.toNat] [fGet S fa.val, S.tl])) c scriptNext

/-- FNOP (R303). -/
def execFnop (s : State) : Res := fabricStep s fun _ S => S

/-- FHALT (R303): the script ends; with ERR the host receives a script-failure message. -/
def execFhalt (err : Bool) (fa : Fin 16) (s : State) : Res :=
  fabric s fun c =>
    let s := if err then toHost s (.notify 0x07 [c] [fGet (scriptOf s c) fa.val]) else s
    modScript s c fun S => { S with pc := S.pc + 1, st := .idle, wait := none }

/-- SCRIPT_RESET (R282, R289, R304): any script ends and the context is idle; its ports stay armed, and a message of its
own that waits for an acknowledgement is sent on (R286). -/
def execScriptReset (c : Nat) (s : State) : Res :=
  if 8 ≤ c then .next s
  else
    let s := { s with script := if s.script == some c then none else s.script }
    .next (modScript s c fun S => { S with st := .idle, wait := none })

/-- SCRIPT_TIMELINE_WRITE (R289). -/
def execScriptTimelineWrite (c : Nat) (val : Word) (s : State) : Res :=
  if 8 ≤ c then .next s else .next (modScript s c fun S => { S with tl := Word.maxU S.tl val })

end Sys2Proof.Machine
end

