-- ==== Sys2Proof/Machine/Launching.lean ====
section
/-!
DEFINITION. The command processor (R221 to R224, R287, R393, R394), the dispatchers' choice of what to admit (R228 to R230),
time slices (R237), the scheduling bounds (R231, R233), and the end of gangs and teams (R259, R347).
-/
namespace Sys2Proof.Machine

/-! ## The queue that is parsed next (R221) -/

/-- How page faults of a command queue are named among the masters. -/
def masterQueue (q : Nat) : Nat := 2 ^ 59 + q

/-- A queue waits for the host to serve a page fault. -/
def queueStalled (s : State) (q : Nat) : Bool := s.pfWaiters.any fun w => w.2 == masterQueue q

/-- A queue holds a command that could be parsed now (R221, R394). -/
def queueEligible (s : State) (q : Nat) : Bool :=
  let Q := queueOf s q
  Q.en && !Q.halt && !Q.waiting && Q.head != Q.tail && (!Q.asked || Q.verdict == 1) && !queueStalled s q

/-- The queue that the CMP serves next: the lowest QPRIO, and among equals in turn after the one served last (R221). -/
def queueNext (s : State) : Option Nat :=
  let key := fun (q : Nat) =>
    let p := (queueOf s q).prio
    p * 64 + (q + 63 - SMap.getD s.lastQ p 63) % 64
  ((List.range 64).filter (queueEligible s)).foldl (fun r q => match r with
    | none => some q
    | some b => if key q < key b then some q else some b) none

/-- The four words of the command at HEAD (R222, R393). -/
def cmdWords (s : State) (q : Nat) : List Word :=
  let Q := queueOf s q
  let a := Q.ring * 2 ^ 20 + 32 * (Q.head.toNat % 2 ^ Q.rlog)
  (List.range 4).map fun i => BitVec.ofNat 64 (leNat (Memory.readN s.mem (a + 8 * i) 8))

/-- KIND of a command. -/
def cmdKind (ws : List Word) : Nat := Word.fld (cmdWord ws 0) 0 8

/-- The command is done with: HEAD moves on. -/
def queueAdvance (s : State) (q : Nat) : State :=
  modQueue s q fun Q => { Q with head := Q.head + 1, waiting := false, asked := false, verdict := 0, cmd := [], pfNo := none }

/-- A command error (R222): the queue halts, and the host is told. -/
def commandError (s : State) (q : Nat) : State :=
  let s := modQueue s q fun Q => { Q with halt := true, waiting := false, asked := false, verdict := 0, pfNo := none }
  toHost s (.notify 0x02 [q, (queueOf s q).head.toNat] [])

/-- A command error that a refused access of the queue causes: its record enters the context's fault ring (R326). -/
def commandRefused (s : State) (q : Nat) (c : Cause) (va : Word) : State :=
  let s := commandError s q
  if c == .pagef then s
  else faultRing s { pc := 0, addr := va, tl := 0, team := 0, core := 0, gang := 0, dev := Config.deviceId.toNat,
                     ctx := (queueOf s q).ctx, lane := 0xFF, field := 0, sub := 0, cause := c, master := 4, unit := q,
                     restart := false, dbl := false, extra := 0 }

/-! ## The CMP's reads and their page faults (R323 to R325) -/

/-- A page that the CMP needs is served, or the queue waits for the host; the second part says that it waits. -/
def servePage (s : State) (q va kind : Nat) : State × Bool :=
  let ctx := (queueOf s q).ctx
  match ctxByte s ctx va kind false with
  | .error .pagef =>
    if hostMode s 1 then
      if (queueOf s q).pfNo == some (va / 2 ^ 16) then (s, false)
      else ((raisePageFault s ctx va kind (masterQueue q)).2, true)
    else ((zeroFill s ctx va).getD s, false)
  | _ => (s, false)

/-- The pages of `n` bytes from `va` on, one after the other, until the queue has to wait. -/
def servePages (s : State) (q va kind n : Nat) : State × Bool :=
  let pages := (List.range ((va + n - 1) / 65536 - va / 65536 + 1)).map fun i => Nat.max va ((va / 65536 + i) * 65536)
  pages.foldl (fun r a => if r.2 then r else servePage r.1 q a kind) (s, false)

/-- The places of `n` bytes of the global window in the queue's context. -/
def queueBytes (s : State) (q : Nat) (va : Word) (kind n : Nat) : Except Cause (List Loc) :=
  match windowOf va with
  | .global a => ctxBytes s (queueOf s q).ctx a kind false n
  | _ => .error .prot

/-! ## LAUNCH (R222 to R224, R227, R228) -/

/-- The field that the first failing check of an LPB names, in increasing field number (R224). -/
def lpbCheck (s : State) (q b : Nat) : Option Nat :=
  let n := lpbNgang b
  let role := fun (g : Nat) =>
    let r := lpbRole b g
    if n ≤ g then r != 0
    else 4 < r || (r == 2 && 16 ≤ ((List.range g).filter fun h => lpbRole b h == 2).length)
  let badRole := ((List.range 32).find? role).map fun g => 448 + 3 * g
  let tl := BitVec.ofNat 64 (lpbTimeline b)
  let im := BitVec.ofNat 64 (lpbUimg b)
  let ok := fun (e : Except Cause (List Loc)) => match e with | .ok _ => true | .error _ => false
  let checks : List (Option Nat) :=
    [if lpbEntry b % 4 != 0 then some 0 else none,
     if lpbTimeline b % 8 != 0 || !ok (queueBytes s q tl accWrite 8) then some 128 else none,
     if lpbTrap b % 4 != 0 then some 192 else none,
     if lpbUimg b != 0 && (lpbUimg b % 8 != 0 || !ok (queueBytes s q im accRead 512)) then some 256 else none,
     if lpbTeams b == 0 then some 320 else none, if fld b 357 27 != 0 then some 357 else none,
     if fld b 384 8 != 0 then some 384 else none, if lpbPair b && lpbTeams b % 2 == 1 then some 395 else none,
     if lpbPrivate b % 16 != 0 then some 400 else none,
     if lpbScratch b % 256 != 0 || 262144 < lpbScratch b then some 424 else none, if fld b 444 4 != 0 then some 444 else none,
     badRole, if fld b 564 12 != 0 then some 564 else none, if fld b 618 1430 != 0 then some 618 else none]
  checks.findSome? id

/-- Teams of an LPB that one empty core holds. -/
def teamsPerCore (b : Nat) : Nat :=
  let n := lpbNgang b
  let bySlot := (List.range 4).map fun r => let k := (n + 3 - r) / 4; if k == 0 then 8 else 8 / k
  let bySp := if lpbScratch b == 0 then 32 else 262144 / lpbScratch b
  let byMat := if lpbMatrix b == 0 then 32 else 16 / lpbMatrix b
  bySlot.foldl Nat.min (Nat.min bySp byMat)

/-- A launch fits the device when it is empty (R18, R224, R318): its counter and its teams' blocks fit the pool. -/
def launchFits (s : State) (ctx b : Nat) : Bool :=
  let roles := (List.range (lpbNgang b)).map fun g => Role.ofCode (lpbRole b g)
  let one := roles.length * 32 * lpbPrivate b + saveBytes roles (roles.map fun r => lpbBudget b r.code) (lpbScratch b)
  let pool := ctxField s ctx 32 32 * 65536
  let units := if lpbResident b then lpbTeams b else if lpbPair b then 2 else 1
  decide (1 ≤ teamsPerCore b) && (!lpbResident b || lpbTeams b ≤ 320 * teamsPerCore b)
    && decide (256 + units * ((one + 255) / 256 * 256) ≤ pool)

/-- A launch that pushes no record (R224): its timeline rises, unless TIMELINE is itself one that fails its check, and the host
is told. -/
def launchFails (s : State) (q b status field : Nat) (value : Word) : State :=
  let tl := BitVec.ofNat 64 (lpbTimeline b)
  let s := if field == 128 && status == 1 then s
    else match raiseTimeline s (queueOf s q).ctx tl value .none with | .ok r => r.1 | .error _ => s
  toHost s (.notify 0x01 [q, status, field] [tl, value])

/-- The bytes of a launch counter (R227). -/
def counterNat (b : Nat) (value : Word) : Nat :=
  lpbTeams b + lpbTimeline b * 2 ^ 128 + value.toNat % 2 ^ 60 * 2 ^ 192 + 2 * 2 ^ 252 + 2 ^ 254

/-- The range records of a launch (R228). -/
def rangeRecords (q k b : Nat) (lpb counter : Word) : List Record :=
  (List.range ((lpbTeams b + 2 ^ 27 - 1) / 2 ^ 27)).map fun i =>
    { queue := q, pfloor := lpbPfloor b, cls := lpbClass b, kind := 1, ngang := 0, budget := 0, hv := bitOf b 576,
      hint := fld b 577 41, join := counter, frame := rangeFrame (i * 2 ^ 27) (Nat.min (2 ^ 27) (lpbTeams b - i * 2 ^ 27)),
      code := lpb, launch := some k, number := none }

/-- How page faults of a launch counter are known among the masters. -/
def masterCounter (ctx : Nat) : Nat := 2 ^ 56 + 2 ^ 54 + ctx

/-- A launch is made: its counter, its base of team numbers, its records (R223, R227, R228, R230, R351); `none` while the
context's pool holds no room for the counter or its page is awaited from the host. The second part says whether the launch is
parsed. -/
def makeLaunch (s : State) (q b : Nat) (lpb value : Word) : State × Bool :=
  let ctx := (queueOf s q).ctx
  match poolFind s ctx 32 with
  | none => (s, false)
  | some off =>
    let va := ctxField s ctx 64 64 + off
    let pg := ownPage s ctx va accWrite (masterCounter ctx) true
    match pg.2 with
    | .wait => (pg.1, false)
    | .refused => (launchFails pg.1 q b 2 0 value, true)
    | .there =>
    let s := sysWrite pg.1 ctx va (leBytes 32 (counterNat b value))
    let image := match queueBytes s q (BitVec.ofNat 64 (lpbUimg b)) accRead 512 with
      | .ok ls => if lpbUimg b == 0 then [] else
          (List.range 64).map fun i => BitVec.ofNat 64 (leNat (((ls.drop (8 * i)).take 8).map (locRead s)))
      | .error _ => []
    let k := s.nextLaunch
    let base := SMap.getD s.teamCnt ctx 0
    let L : Launch := { ctx := ctx, queue := q, lpbAddr := lpb, lpb := b, image := image, value := value,
                        counter := BitVec.ofNat 64 va, tbase := base, killed := false, retired := [], complete := false }
    let s := { s with
      launches := SMap.put s.launches k L, nextLaunch := k + 1, privTaken := (ctx, off, 32) :: s.privTaken,
      teamCnt := SMap.putD s.teamCnt 0 ctx ((base + lpbTeams b) % (2 ^ 37 - 1)),
      waiting := if lpbResident b then s.waiting ++ [k] else s.waiting }
    ((rangeRecords q k b lpb (BitVec.ofNat 64 va)).foldl (fun s r => pushRecord s ctx r) s, true)

/-- A LAUNCH is parsed (R222, R224). -/
def parseLaunch (s : State) (q : Nat) (ws : List Word) : State :=
  let w1 := cmdWord ws 1
  if Word.fld (cmdWord ws 0) 8 56 != 0 || cmdWord ws 3 != 0 || w1.toNat % 256 != 0 then commandError s q
  else
    let r := servePages s q w1.toNat accRead 256
    if r.2 then r.1
    else match queueBytes r.1 q w1 accRead 256 with
      | .error c => commandRefused r.1 q c w1
      | .ok ls =>
        let s := r.1
        let b := leNat (ls.map (locRead s))
        let r := servePages s q (lpbTimeline b) accWrite 8
        let r := if r.2 || lpbUimg b == 0 then r else servePages r.1 q (lpbUimg b) accRead 512
        if r.2 then r.1
        else
          let s := r.1
          let value := cmdWord ws 2
          match lpbCheck s q b with
          | some f => queueAdvance (launchFails s q b 1 f value) q
          | none =>
            if launchFits s (queueOf s q).ctx b then
              let r := makeLaunch s q b w1 value
              if r.2 then queueAdvance r.1 q else r.1
            else queueAdvance (launchFails s q b 2 0 value) q

/-! ## SCRIPT (R222, R287, R290) -/

/-- The words of a SCRIPT command go to its idle context and start there (R287). -/
def forwardScript (s : State) (q c : Nat) (base : Word) (words : List Word) : State :=
  modScript s c fun S => { S with store := words, pc := 0, st := .running, wait := none, actx := (queueOf s q).ctx, base := base }

/-- The words of a SCRIPT command, where they can be read. -/
def scriptWords (s : State) (q : Nat) (ws : List Word) : Except Cause (List Word) :=
  let n := Word.fld (cmdWord ws 0) 32 32
  match queueBytes s q (cmdWord ws 1) accRead (8 * n) with
  | .error c => .error c
  | .ok ls => .ok ((piecesOf 8 (ls.map (locRead s))).map fun b => BitVec.ofNat 64 (leNat b))

/-- A SCRIPT is parsed: forwarded to the host (R290), forwarded to its idle context, or kept waiting (R287). -/
def parseScript (s : State) (q : Nat) (ws : List Word) : State :=
  let w0 := cmdWord ws 0
  let n := Word.fld w0 32 32
  let c := Word.fld w0 8 3
  if Word.fld w0 11 21 != 0 || cmdWord ws 2 != 0 || cmdWord ws 3 != 0 || n == 0 || 4096 < n || (cmdWord ws 1).toNat % 8 != 0
    then commandError s q
  else
    let r := servePages s q (cmdWord ws 1).toNat accRead (8 * n)
    if r.2 then r.1
    else
      let s := r.1
      match scriptWords s q ws with
      | .error e => commandRefused s q e (cmdWord ws 1)
      | .ok words =>
        if hostMode s 3 then queueAdvance (toHost s (.notify 0x07 [c] words)) q
        else match (scriptOf s c).st with
          | .idle => queueAdvance (forwardScript s q c (cmdWord ws 1) words) q
          | .stopped => commandError s q
          | _ => modQueue s q fun Q => { Q with waiting := true, cmd := ws }

/-! ## WAIT and SIGNAL (R222) -/

/-- A WAIT evaluated (R222): it passes, or halts its queue; a timeline on another device is read there. -/
def waitEval (s : State) (q : Nat) (ws : List Word) : State :=
  let name := cmdWord ws 1
  match waitName s (queueOf s q).ctx name with
  | .badName => commandError s q
  | .refused c => commandRefused s q c (BitVec.ofNat 64 (tlWhich name))
  | .value x ls =>
    if (cmdWord ws 2).toNat ≤ x.toNat then queueAdvance s q
    else pollFar (modQueue s q fun Q => { Q with waiting := true, cmd := ws }) ls (.queue q (cmdWord ws 2)) (BitVec.ofNat 64 (tlWhich name))

/-- A WAIT is parsed: it passes, halts its queue, or is an error. -/
def parseWait (s : State) (q : Nat) (ws : List Word) : State :=
  let name := cmdWord ws 1
  if Word.fld (cmdWord ws 0) 8 56 != 0 || cmdWord ws 3 != 0 then commandError s q
  else
    let r := if tlClass name == 4 then servePages s q (tlWhich name) accRead 8 else (s, false)
    if r.2 then r.1 else waitEval r.1 q ws

/-- A SIGNAL is done (R222): the host is told where MSG asks it. -/
def signalDone (s : State) (q : Nat) (ws : List Word) : State :=
  let s := if Word.fld (cmdWord ws 0) 8 1 == 1 then toHost s (.notify 0x01 [q, 0] [cmdWord ws 1, cmdWord ws 2]) else s
  queueAdvance s q

/-- A SIGNAL is parsed; where its timeline lies on another device the queue waits for the owner's answer. -/
def parseSignal (s : State) (q : Nat) (ws : List Word) : State :=
  let a := cmdWord ws 1
  if Word.fld (cmdWord ws 0) 9 55 != 0 || cmdWord ws 3 != 0 || a.toNat % 8 != 0 then commandError s q
  else
    let r := servePages s q a.toNat accWrite 8
    if r.2 then r.1
    else match raiseTimeline r.1 (queueOf s q).ctx a (cmdWord ws 2) (.signal q) with
      | .error c => commandRefused r.1 q c a
      | .ok (s, true) => modQueue s q fun Q => { Q with waiting := true, cmd := ws }
      | .ok (s, false) => signalDone s q ws

/-- A command is parsed by its KIND; another KIND is an error (R222). -/
def parseCommand (s : State) (q : Nat) : State :=
  let ws := cmdWords s q
  match cmdKind ws with
  | 1 => parseLaunch s q ws
  | 2 => parseScript s q ws
  | 3 => parseWait s q ws
  | 4 => parseSignal s q ws
  | _ => commandError s q

/-- A step of the CMP at queue `q`, when it is the queue's turn and its command is of KIND `k`, or of no KIND: under
host-assisted command processing the host is asked first (R394). -/
def cmpStep (s : State) (q k : Nat) : Res :=
  let kind := cmdKind (cmdWords s q)
  let mine := kind == k || kind == 0 || 4 < kind
  if s.power != .on || queueNext s != some q || !mine then .next s
  else
    let s := { s with lastQ := SMap.put s.lastQ (queueOf s q).prio q }
    if hostMode s 0 && (queueOf s q).verdict != 1 then
      .next (toHost (modQueue s q fun Q => { Q with asked := true }) (.notify 0x0A [q, (queueOf s q).head.toNat] (cmdWords s q)))
    else .next (parseCommand s q)

/-- LAUNCH (R222 to R224). -/
def execLaunch (q : Nat) (s : State) : Res := cmpStep s q 1
/-- SCRIPT (R222, R287). -/
def execScript (q : Nat) (s : State) : Res := cmpStep s q 2
/-- WAIT (R222). -/
def execWait (q : Nat) (s : State) : Res := cmpStep s q 3
/-- SIGNAL (R222). -/
def execSignal (q : Nat) (s : State) : Res := cmpStep s q 4

/-- SCRIPT_FORWARD (R287): the context has become idle, or has stopped. -/
def execScriptForward (q : Nat) (s : State) : Res :=
  let Q := queueOf s q
  if !Q.waiting || cmdKind Q.cmd != 2 || !Q.en then .next s
  else match (scriptOf s (Word.fld (cmdWord Q.cmd 0) 8 3)).st with
    | .idle => match scriptWords s q Q.cmd with
      | .ok words => .next (queueAdvance (forwardScript s q (Word.fld (cmdWord Q.cmd 0) 8 3) (cmdWord Q.cmd 1) words) q)
      | .error c => .next (commandRefused s q c (cmdWord Q.cmd 1))
    | .stopped => .next (commandError s q)
    | _ => .next s

/-- WAIT_RELEASE (R222): the timeline of a halted WAIT is evaluated afresh. -/
def execWaitRelease (q : Nat) (s : State) : Res :=
  let Q := queueOf s q
  if !Q.waiting || cmdKind Q.cmd != 3 then .next s else .next (parseWait s q Q.cmd)

/-- QUEUE_SKIP (R393): the command at which a halted queue stands is passed over. -/
def execQueueSkip (q : Nat) (s : State) : Res :=
  let Q := queueOf s q
  if Q.halt || Q.waiting then .next (modQueue (queueAdvance s q) q fun Q => { Q with halt := false }) else .next s

/-- QUEUE_DISABLE (R393): parsing stops; records already pushed run on. -/
def execQueueDisable (q : Nat) (s : State) : Res :=
  if 64 ≤ q then .next s else .next (modQueue s q fun Q => { Q with en := false })

/-- VERDICT_PARSE (R394): the command that waits for its verdict is parsed. -/
def execVerdictParse (q : Nat) (s : State) : Res :=
  if (queueOf s q).asked then .next (parseCommand (modQueue s q fun Q => { Q with verdict := 1 }) q) else .next s

/-- VERDICT_SKIP (R394). -/
def execVerdictSkip (q : Nat) (s : State) : Res :=
  if (queueOf s q).asked then .next (queueAdvance s q) else .next s

/-! ## Admission (R228 to R230, R274) -/

/-- A record in its queue: the queue's key, its place there, and the entry. -/
structure Waiting where
  key : Nat
  idx : Nat
  ent : Queued
  deriving DecidableEq, Repr

/-- The records of the queues that `f` selects. -/
def recordsIn (s : State) (f : Nat → Bool) : List Waiting :=
  (s.recQ.filter fun e => f (e.1 % 5)).flatMap fun e => e.2.zipIdx.map fun x => { key := e.1, idx := x.2, ent := x.1 }

/-- A record belongs to a resident launch. -/
def residentRec (s : State) (r : Record) : Bool :=
  match r.launch.bind (SMap.find s.launches) with | some L => lpbResident L.lpb | none => false

/-- The record that is popped first: the lowest effective priority number, then the one pushed earliest (R228). -/
def firstRecord (s : State) (ws : List Waiting) : Option Waiting :=
  ws.foldl (fun r w => match r with
    | none => some w
    | some b =>
      let p := effPrio s w.ent.item
      let o := effPrio s b.ent.item
      if p < o || (p == o && w.ent.order < b.ent.order) then some w else some b) none

/-- The effective priority number of a launch. -/
def launchPrio (s : State) (k : Nat) : Nat :=
  match SMap.find s.launches k with | some L => Nat.max (queueOf s L.queue).prio (lpbPfloor L.lpb) | none => 8

/-- A resident launch that waits keeps a team from being admitted (R230). -/
def heldBack (s : State) (r : Record) : Bool := s.waiting.any fun k => launchPrio s k ≤ effPrio s r

/-- The record of a queue's place is replaced by what is left of it. -/
def setRecord (s : State) (w : Waiting) (left : Option Record) : State :=
  let q := SMap.getD s.recQ w.key []
  let q := match left with | some r => q.set w.idx { w.ent with item := r } | none => q.eraseIdx w.idx
  { s with recQ := if q.isEmpty then SMap.erase s.recQ w.key else SMap.put s.recQ w.key q }

/-- A dispatcher's attempt at a record (R229): its first team goes to a core of the die. -/
def admitOn (s : State) (die : Nat) (w : Waiting) : State :=
  let ctx := w.key / 5
  let r := w.ent.item
  if heldBack s r then s
  else match coreFor s ctx die r.cls (askOf s ctx r) with
    | none => s
    | some core => match admitHead s ctx core r with
      | none => s
      | some (s', left) => setRecord s' w left

/-- The records that a dispatcher looks at: those of its die's queue and of the device queues, but for resident launches. -/
def dieRecords (s : State) (f : Nat → Bool) : List Waiting := (recordsIn s f).filter fun w => !residentRec s w.ent.item

/-- A record's CLASS is no island's pool: the die that acts for it sees to an island of its class (R274). -/
def wantFor (s : State) (die : Nat) (w : Waiting) : State :=
  if w.key % 5 == die || (w.key % 5 == 4 && die == 0) then wantPool s die w.ent.item.cls else s

/-- TEAM_ADMIT (R228, R229, R274). -/
def execTeamAdmit (die : Nat) (s : State) : Res :=
  if 4 ≤ die || s.power != .on then .next s
  else match firstRecord s (dieRecords s fun d => d == die || d == 4) with
    | none => .next s
    | some w => .next (if noPool s w.ent.item.cls then wantFor s die w else admitOn s die w)

/-- DIE_QUEUE_STEAL (R228, R229): a dispatcher with nothing in its own queue takes a record that has waited 2 µs in another die's;
no record of the device queue that comes before it is passed over. -/
def execDieQueueSteal (die victim : Nat) (s : State) : Res :=
  if 4 ≤ die || 4 ≤ victim || die == victim || s.power != .on || !(recordsIn s fun d => d == die).isEmpty then .next s
  else
    let old := (dieRecords s fun d => d == victim).filter fun w => w.ent.at_ + 2000 ≤ s.now
    match firstRecord s (dieRecords s (fun d => d == 4) ++ old) with
    | none => .next s
    | some w => .next (if w.key % 5 == victim then admitOn s die w else s)

/-- The die on which the next team of a record is tried first: that of its queue. -/
def dieOrder (key : Nat) : List Nat := if key % 5 < 4 then (key % 5) :: [0, 1, 2, 3].filter (· != key % 5) else [0, 1, 2, 3]

/-- The teams of a record, one after the other, each on some die; `none` when one does not fit (R230). -/
def admitRange (s : State) (w : Waiting) : Nat → Record → Option State
  | 0, _ => none
  | fuel + 1, r =>
    let ctx := w.key / 5
    match (dieOrder w.key).findSome? fun d => coreFor s ctx d r.cls (askOf s ctx r) with
    | none => none
    | some core => match admitHead s ctx core r with
      | none => none
      | some (s', none) => some (setRecord s' w none)
      | some (s', some left) => admitRange s' w fuel left

/-- The teams of a launch that are saved. -/
def savedTeams (s : State) (k : Nat) : List Nat :=
  (s.teams.filter fun e => e.2.launch == some k && e.2.st == .saved).map (·.1)

/-- A saved team of a resident launch is readmitted, with its partner (R230, R237); one whose save area is
poisoned ends as R341 lays down (R336). -/
def readmit (s : State) (t : Nat) : Option State :=
  if (teamOf s t).st != .saved then some s
  else if savedBad s t then some (saveFails s t)
  else (List.range 320).findSome? fun c => resumeUnit s t c

/-- Another resident launch that waits comes first (R230): its priority is higher, or equal and it has waited longer. -/
def waitsFirst (s : State) (launch : Nat) : Bool :=
  let p := launchPrio s launch
  s.waiting.any (fun k => launchPrio s k < p) || ((s.waiting.takeWhile (· != launch)).any fun k => launchPrio s k == p)

/-- The classes of a launch's records and saved teams. -/
def launchClass (s : State) (launch : Nat) : Nat :=
  match SMap.find s.launches launch with | some L => lpbClass L.lpb | none => 0

/-- RESIDENT_ADMIT (R18, R230, R237, R274): all the launch's teams are admitted in one step, or none; where no island has its
class, the die that acts for its record sees to one. -/
def execResidentAdmit (launch : Nat) (s : State) : Res :=
  if !s.waiting.contains launch || s.power != .on || waitsFirst s launch then .next s
  else
    let find := fun (s : State) => (recordsIn s fun _ => true).find? fun w => w.ent.item.launch == some launch
    if noPool s (launchClass s launch) then
      .next (wantPool s (match find s with | some w => if w.key % 5 < 4 then w.key % 5 else 0 | none => 0) (launchClass s launch))
    else
      let n := ((recordsIn s fun _ => true).filter fun w => w.ent.item.launch == some launch).length
      let r := (List.range n).foldl (fun (r : Option State) _ => r.bind fun s => match find s with
        | none => some s
        | some w => admitRange s w (rangeCount w.ent.item + 1) w.ent.item) (some s)
      let r := (savedTeams s launch).foldl (fun r t => r.bind fun s => readmit s t) r
      .next (match r with
        | some s => { s with waiting := s.waiting.filter fun k => k != launch }
        | none => s)

/-! ## Bounds on issue (R231, R233) -/

/-- GANG_OVERDUE (R231): a gang has been eligible and unchosen for 256 cycles. -/
def execGangOverdue (g : Nat) (s : State) : Res :=
  match SMap.find s.gangs g with
  | some G => if 256 ≤ G.idle && !G.overdue then .next (modGang s g fun G => { G with overdue := true }) else .next s
  | none => .next s

/-- YIELD_BOUND (R29, R233): after 4,096 issues of the head run, and outside a chain, the run of the next higher PC takes one
turn. -/
def execYieldBound (g : Nat) (s : State) : Res :=
  match SMap.find s.gangs g with
  | none => .next s
  | some G =>
    if G.turns < 4096 || G.single.isSome || midChain G then .next s
    else match (runPcs G).head?.bind (nextRun G) with
      | some pc => .next (modGang s g fun G => { G with single := some pc, turns := 0 })
      | none => .next s

/-! ## Time slices (R237) -/

/-- Something of another context waits for the resources of a core: a record of the island's class within the die's reach,
or a saved team. -/
def otherWaits (s : State) (core : Nat) : Bool :=
  let ctx := coreCtx s core
  let pool := (islandOf s (islandOfCore core)).pool
  (recordsIn s fun d => d == dieOfCore core || d == 4).any (fun w => w.key / 5 != ctx && w.ent.item.cls == pool)
    || s.teams.any fun e => e.2.st == .saved && e.2.ctx != ctx && e.2.record.cls == pool

/-- A team is to leave its core at the end of its slice (R237). -/
def mustLeave (s : State) (core t : Nat) : Bool :=
  otherWaits s core || s.waiting.any (fun k => launchPrio s k ≤ (teamOf s t).prio)
    || (dieOf s (dieOfCore core)).drain == some (islandOfCore core)

/-- The teams that leave together with those of a list: partners, and the teams of a resident launch (R237, R343). -/
def leaveWith (s : State) (ts : List Nat) : List Nat :=
  (s.teams.filter fun e => ts.contains e.1 || ts.any fun t =>
    (teamOf s t).partner == some e.1 || ((teamOf s t).resident && e.2.launch == (teamOf s t).launch)).map (·.1)

/-- Teams are pre-empted, each by flush or by save (R343); a resident launch then waits to be readmitted (R230). -/
def preemptAll (s : State) (ts : List Nat) : State :=
  let all := leaveWith s ts
  let back := (all.filterMap fun t => if (teamOf s t).resident then (teamOf s t).launch else none).foldl
    (fun r k => if r.contains k then r else r ++ [k]) s.waiting
  { all.foldl preempt s with waiting := back }

/-- The slice of a core's context ends. -/
def endSlice (s : State) (core : Nat) : State :=
  let ts := (teamsOn s core).filter (mustLeave s core)
  preemptAll (modCore s core fun C => { C with sliceN := 0, sliceAt := cyclesOf s core }) ts

/-- A chain that goes on keeps a core's slice from ending (R29). -/
def coreInChain (s : State) (core : Nat) : Bool := (gangsOn s core).any fun g => midChain (gangOf s g)

/-- A core's slice has had its 2^22 instructions (R237), and no chain keeps it (R29). -/
def sliceOver (s : State) (core : Nat) : Bool := 2 ^ 22 ≤ (coreOf s core).sliceN && !coreInChain s core

/-- SLICE_END (R29, R237): 2^22 instructions. -/
def execSliceEnd (core : Nat) (s : State) : Res :=
  if sliceOver s core then .next (endSlice s core) else .next s

/-- SLICE_IDLE_TIMEOUT (R237): 2^20 cycles without an issue, while something waits for the core. -/
def execSliceIdleTimeout (core : Nat) (s : State) : Res :=
  let C := coreOf s core
  if cyclesOf s core < C.sliceAt + 2 ^ 20 || coreInChain s core || !(teamsOn s core).any (mustLeave s core) then .next s
  else .next (endSlice s core)

/-! ## The end of gangs and teams (R259, R347) -/

/-- GANG_EXIT_COMPLETE (R138, R259): the last thread is gone, the gang's matrix operations have retired, its stores drain. -/
def execGangExitComplete (g : Nat) (s : State) : Res :=
  match SMap.find s.gangs g with
  | none => .next s
  | some G =>
    if !G.exiting || (G.role == .matrix && matrixBusy s (teamKey g)) then .next s
    else
      let s := modGang (drainGang s g) g fun G => { G with exiting := false }
      .next (modCore s G.core fun C => { C with gone := SMap.put C.gone G.slot G.lastPc })

/-- Every gang but the workers has exited, and no dispatch item is queued or running (R259). -/
def teamDone (s : State) (t : Nat) : Bool :=
  let T := teamOf s t
  T.st == .running && T.queues.isEmpty && (gangsOf s t).all fun g =>
    let G := gangOf s g; G.threads.isEmpty && !G.exiting && G.frozen.isNone

/-- TEAM_RETIRE (R227, R259, R347): a release at system scope, the decrement of the join counter, and the reclaiming. -/
def execTeamRetire (team : Nat) (s : State) : Res :=
  match SMap.find s.teams team with
  | none => .next s
  | some _ =>
    if !teamDone s team then .next s
    else
      let s := (gangsOf s team).foldl drainAll s
      .next (endTeam (joinServe (noteRetired s team false) team) team true false)

end Sys2Proof.Machine
end

