-- ==== Sys2Proof/Machine/Remote.lean ====
section
/-!
DEFINITION. Requests between devices (R328, R352 to R370): serving them, their answers, retransmission, retirement of rind
entries, and the restarts of a device (R367, R368, R396).
-/
namespace Sys2Proof.Machine

/-! ## The context of a frame (R328) -/

/-- The leaf by which a context holds a frame of this device, and the page it stands for; `none` where the frame is not
tagged with the context. -/
def frameLeaf (s : State) (ctx frame : Nat) : Option (Nat × Word) := (mapsFrame s frame 3 (rootOf s ctx) 0).head?

/-- The owner's check of an access to one of its frames (R328): the virtual page of the frame where the access may be
performed. -/
def ownerCheck (s : State) (ctx frame kind : Nat) : Option Nat :=
  match frameLeaf s ctx frame with
  | some (va, e) => if (leafRefuses e kind false).isNone then some va else none
  | none => none

/-- RESULT of a refusal by the owner (R328). -/
def refusedProt : Word := refusalWord .prot 0

/-! ## Serving (R328, R359) -/

/-- The record of a watched access from another device (R385): ORIGIN 4, and no core. -/
def farStop (h : Header) (va : Word) (unit : Nat) : FaultRec :=
  { stopRec State.reset none 0 va 0xFF 1 unit 4 with
    dev := Word.fld h.ident 54 10, ctx := Word.fld h.ident 42 12, team := Word.fld h.ident 5 37, gang := Word.fld h.ident 0 5 }

/-- The places of `n` bytes of this device's memory. -/
def physBytes (a n : Nat) : List Loc := (List.range n).map fun i => Loc.phys (a + i)

/-- An atomic for another device (R183, R359). -/
def serveAtomic (s : State) (die : Nat) (h : Header) : State × Reply :=
  let w := IFmt.ofWidth h.width.toNat
  let a := h.addr.toNat
  let locs := physBytes a (w.bits / 8)
  match ownerCheck s (identCtx h.ident) (a / 2 ^ 16) accAtomic with
  | none => serveWith s die h (some refusedProt) fun s => (s, 0)
  | some page =>
    serveWith s die h none fun s =>
      let va := BitVec.ofNat 64 (page + a % 2 ^ 16)
      let s := watchBy s 2 (identCtx h.ident) va locs fun _ _ u => farStop h va u
      let r := atomicAt s locs (AOp.ofCode h.op.toNat) w h.operand.toNat h.comparand.toNat false
      (r.2, BitVec.ofNat 64 r.1)

/-- A SPAWN for another device (R261, R352): with INC the counter at ADDR rises; the record is read by this device's tables
of the context. -/
def serveSpawn (s : State) (die : Nat) (h : Header) : State × Reply :=
  let ctx := identCtx h.ident
  let a := h.addr.toNat
  let inc := h.op.toNat % 2 == 1
  let rec_ : Option Nat := if inc then ctxRead s ctx h.operand.toNat 32 false
    else if (ownerCheck s ctx (a / 2 ^ 16) accRead).isSome then some (leNat (Memory.readN s.mem a 32)) else none
  let ok := fun (n : Nat) => spawnOk n inc && (!inc || (ownerCheck s ctx (a / 2 ^ 16) accWrite).isSome)
  match rec_, (rec_.map ok).getD false with
  | some n, true =>
    if !recordRoom s ctx && (rindFind (sxeOf s die) h.ident h.serial).isNone then (s, replyTo s h 4 0)
    else serveWith s die h none fun s =>
      let s := if inc then { s with mem := Memory.writeN s.mem a (leBytes 8 (leNat (Memory.readN s.mem a 8) + 1)) } else s
      (pushRecord s ctx (recordOf n), 0)
  | _, _ => serveWith s die h (some refusedProt) fun s => (s, 0)

/-- A decrement for another device (R227): the counter's parent follows where it takes the counter to 0. -/
def serveJoin (s : State) (die : Nat) (h : Header) : State × Reply :=
  let ctx := identCtx h.ident
  let a := h.addr.toNat
  match ownerCheck s ctx (a / 2 ^ 16) accWrite with
  | none => serveWith s die h (some refusedProt) fun s => (s, 0)
  | some page =>
    let va := BitVec.ofNat 64 (page + a % 2 ^ 16)
    let ls := physBytes a 32
    let parent := joinParent s ls
    let r := serveWith s die h none fun s => (joinTake s ctx { h with addr := va } ls (counterOf s ctx va), 0)
    if r.2.status == 0 && parent != 0 then (joinGo joinFuel r.1 ctx (parentHdr r.1 h parent), r.2) else r

/-- A TLADV for another device (R195): it carries no serial, and its answer is the former value. -/
def serveTladv (s : State) (sender : Nat) (h : Header) : State :=
  let a := h.addr.toNat
  match ownerCheck s (identCtx h.ident) (a / 2 ^ 16) accBarrier with
  | none => send s (.remoteData sender none)
  | some _ =>
    let old := Memory.readN s.mem a 8
    let new := Word.maxU (BitVec.ofNat 64 (leNat old)) h.operand
    send (locWrites s ((physBytes a 8).zip (leBytes 8 new.toNat))) (.remoteData sender (some old))

/-- REQUEST_SERVE (R328, R359): the SXE of the location's home die serves a request of another device in one step and answers
it; one that changes a pinned line waits (R137). -/
def execRequestServe (die sender : Nat) (h : Header) (s : State) : Res :=
  if s.power != .on || die != homeDie s h.addr.toNat then .next s
  else if !(h.kind == 3 && h.op.toNat % 2 == 0) && pinned s (physBytes h.addr.toNat 8) then .next s
  else
    let reply := fun (r : State × Reply) => Host.Outcome.next (send r.1 (.reply sender r.2))
    match h.kind.toNat with
    | 0 => .next (serveTladv s sender h)
    | 1 => reply (serveAtomic s die h)
    | 3 => reply (serveSpawn s die h)
    | 4 => reply (serveJoin s die h)
    | _ => .next s

/-- REMOTE_ACCESS_SERVE (R328): a read or a write of this device's frames for another device; every access is answered, and a
write to a pinned line waits (R137). -/
def execRemoteAccessServe (die sender : Nat) (r : RemoteAcc) (s : State) : Res :=
  let a := r.frame * 2 ^ 16 + r.off
  if s.power != .on || die != homeDie s a then .next s
  else
    let n := match r.data with | some b => b.length | none => r.size
    let kind := match r.data with | some _ => accWrite | none => accRead
    let locs := physBytes a n
    if r.data.isSome && pinned s locs then .next s
    else match ownerCheck s r.ctx r.frame kind, r.off + n ≤ 2 ^ 16 || (ownerCheck s r.ctx (r.frame + 1) kind).isSome with
    | some page, true =>
      let va := BitVec.ofNat 64 (page + r.off)
      let h : Header := { Header.blank with ident := BitVec.ofNat 64 (sender % 1024 * 2 ^ 54 + r.ctx % 4096 * 2 ^ 42) }
      match r.data with
      | none =>
        let s := watchBy s 0 r.ctx va locs fun _ _ u => farStop h va u
        .next (send s (.remoteData sender (some (locs.map (locRead s)))))
      | some b =>
        let bs := locs.zip b
        let s := watchBy (clearPoison (locWrites s bs) bs) 1 r.ctx va locs fun _ _ u => farStop h va u
        .next (send s (.remoteData sender (some [])))
    | _, _ => .next (send s (.remoteData sender none))

/-! ## Answers (R357, R362, R366 to R368) -/

/-- Whether a request is the one named. -/
def OutReq.is (q : OutReq) (ident : Word) (serial : W32) : Bool := q.hdr.ident == ident && q.hdr.serial == serial

/-- The gang of this device that awaits the answer to a serial: its team stands on a core (R365). -/
def awaiting (s : State) (ident : Word) (serial : W32) : Option (Nat × OutReq) :=
  let g := ident.toNat % 2 ^ 54
  if Word.fld ident 54 10 != Config.deviceId.toNat || (SMap.find s.gangs g).isNone || (teamOf s (teamKey g)).st == .saved then none
  else ((gangOf s g).reqs.find? fun q => q.is ident serial).map fun q => (g, q)

/-- A request that the dispatcher took over (R362). -/
def orphanOf (s : State) (ident : Word) (serial : W32) : Option OutReq := s.orphans.find? fun q => q.is ident serial

/-- The record of an operation in doubt whose team is gone (R368). -/
def orphanDoubt (q : OutReq) : FaultRec :=
  { stopRec State.reset none q.pc q.hdr.addr 0xFF 0 0 0 with
    cause := .indoubt, team := Word.fld q.hdr.ident 5 37, gang := Word.fld q.hdr.ident 0 5, ctx := identCtx q.hdr.ident,
    extra := BitVec.zeroExtend 64 q.hdr.serial }

/-- An answer to a request that the dispatcher keeps (R362): FULL has it sent again; any other ends it. -/
def answerOrphan (s : State) (q : OutReq) (r : Reply) : State :=
  let drop := { s with orphans := s.orphans.filter fun p => !p.is q.hdr.ident q.hdr.serial }
  match r.status.toNat with
  | 4 =>
    let upd := fun (p : OutReq) => if p.is q.hdr.ident q.hdr.serial then { p with full := true, sentAt := s.now } else p
    { s with orphans := s.orphans.map upd }
  | 5 => s
  | 2 => if q.quiet then drop else if q.hdr.kind == 4 then joinDoubt drop (identCtx q.hdr.ident) q.hdr.addr else drop
  | 3 =>
    if q.quiet then drop
    else
      let s := reportFault drop (orphanDoubt q)
      if q.hdr.kind == 4 then joinDoubt s (identCtx q.hdr.ident) q.hdr.addr else s
  | 6 => if !q.quiet && q.hdr.kind == 4 then
      joinRefused drop (identCtx q.hdr.ident) q.hdr (Cause.ofCode (Word.fld r.result 0 8)) q.hdr.addr else drop
  | _ => drop

/-- REPLY_RECEIVE (R357, R365): the requester takes a reply by its status; one that answers no open serial is discarded. -/
def execReplyReceive (r : Reply) (s : State) : Res :=
  match awaiting s r.ident r.serial with
  | some (g, q) => .next { answer (hearInc s q.owner r.inc) g q r with progress := s.progress + 1 }
  | none => match orphanOf s r.ident r.serial with
    | some q => .next (answerOrphan (hearInc s q.owner r.inc) q r)
    | none => .next s

/-! ## Sending again (R357, R364) -/

/-- Changes a request of a gang, or one that the dispatcher keeps. -/
def modReq (s : State) (g : Nat) (serial : W32) (f : OutReq → OutReq) : State :=
  let m := fun (l : List OutReq) => l.map fun q => if q.is (identOf g) serial then f q else q
  let s := if (SMap.find s.gangs g).isSome then modGang s g fun G => { G with reqs := m G.reqs } else s
  { s with orphans := m s.orphans }

/-- The open request of an identity and a serial. -/
def openReq (s : State) (g : Nat) (serial : W32) : Option OutReq :=
  ((awaiting s (identOf g) serial).map (·.2)).or (orphanOf s (identOf g) serial)

/-- A request leaves the device again with its header as it was. -/
def sendAgain (s : State) (g : Nat) (q : OutReq) (wait : Nat) : State :=
  let s := modReq s g q.hdr.serial fun q => { q with full := false, sentAt := s.now, wait := wait }
  let s := noteOwner s g q.owner (((SMap.find (gangOf s g).acks q.owner).map (·.floor)).getD q.hdr.floor)
  send s (.request q.owner q.hdr)

/-- REQUEST_RETRANSMIT (R364): a request to another device that has no answer goes again, first after 10 µs and then at
intervals that double up to 1 ms. -/
def execRequestRetransmit (g serial : Nat) (s : State) : Res :=
  (openReq s g (BitVec.ofNat 32 serial)).elim (.next s) fun q =>
    if q.owner == Config.deviceId.toNat || q.full || s.now < q.sentAt + q.wait then .next s
    else .next (sendAgain s g q (Nat.min (2 * q.wait) 1000000))

/-- The places of a local atomic that is served again: those of its virtual address. -/
def againBytes (s : State) (g : Nat) (q : OutReq) : Except Cause (List Loc) :=
  let n := (IFmt.ofWidth q.hdr.width.toNat).bits / 8
  let lane := match q.dest with | .lane l _ _ => l | _ => 0
  match windowOf q.hdr.addr with
  | .priv off => ctxBytes s (identCtx q.hdr.ident) (privAddr (teamOf s (teamKey g)) (gangIdx g) lane off) accAtomic true n
  | _ => ctxBytes s (identCtx q.hdr.ident) q.hdr.addr.toNat accAtomic false n

/-- A request within the device is served again at the home of its location as that now is (R357, R359). -/
def serveAgain (s : State) (g : Nat) (q : OutReq) : State × Reply :=
  let h := q.hdr
  let ctx := identCtx h.ident
  match h.kind.toNat with
  | 1 => match againBytes s g q with
    | .error c => serveWith s (homeOf s ctx h.addr.toNat) h (some (refusalWord c 0)) fun s => (s, 0)
    | .ok ls =>
      let home := match ls.head? with | some (.phys a) => homeDie s a | _ => 0
      serveWith s home h none fun s =>
        let r := atomicAt s ls (AOp.ofCode h.op.toNat) (IFmt.ofWidth h.width.toNat) h.operand.toNat h.comparand.toNat false
        (r.2, BitVec.ofNat 64 r.1)
  | _ =>
    serveSpawnHere s ctx (h.op.toNat % 2 == 1) (q.item.getD Record.blank) (homeOf s ctx h.addr.toNat) h

/-- The pages that FULL_RETRY's request writes are pinned (R137). -/
def againPinned (s : State) (g : Nat) (q : OutReq) : Bool :=
  q.hdr.kind == 1 && (match againBytes s g q with | .ok ls => pinned s ls | .error _ => false)

/-- FULL_RETRY (R227, R357, R365): a request that was answered FULL, or that a rollback or a resume restored, goes again 10 µs
later; a decrement starts afresh at its counter. -/
def execFullRetry (g serial : Nat) (s : State) : Res :=
  (openReq s g (BitVec.ofNat 32 serial)).elim (.next s) fun q =>
    if !q.full || s.now < q.sentAt + 10000 then .next s
    else if q.owner != Config.deviceId.toNat then .next (sendAgain s g q q.wait)
    else if q.hdr.kind == 4 then
      let s := { s with orphans := s.orphans.filter fun p => !p.is q.hdr.ident q.hdr.serial, progress := s.progress + 1 }
      .next (joinGo joinFuel s (identCtx q.hdr.ident) q.hdr)
    else if againPinned s g q then .next s
    else
      let r := serveAgain s g q
      match awaiting s q.hdr.ident q.hdr.serial with
      | some _ => .next { answer r.1 g q r.2 with progress := s.progress + 1 }
      | none => .next (answerOrphan r.1 q r.2)

/-! ## Answers of other devices to accesses without a serial (R180, R328) -/

/-- The record of a refused access that no gang waits for any more (R326, R330). -/
def farRefused (s : State) (o : FarOp) (c : Cause) : State :=
  joinRefused s o.ctx { Header.blank with ident := ctxIdent o.ctx } c o.va

/-- A thread's wait for a timeline of another device fails: the record is kept, and its run traps with it (R169, R328). -/
def failWait (s : State) (g lane : Nat) (c : Cause) (va : Word) : State :=
  let G := gangOf s g
  match thr G lane with
  | some t => match t.wait with
    | .phase .tl .. =>
      let r := gangRec s g t.pc c 8 0 lane va false
      let run := waitGroup G lane
      modGang s g fun G => modThreads G run fun t => { t with wait := .failed r }
    | _ => s
  | none => s

/-- A value that was read of a timeline of another device (R170). -/
def noteTimeline (s : State) (o : FarOp) (bs : List Byte) : State :=
  let x := Word.maxU (farValue s o.dev o.loc) (BitVec.ofNat 64 (leNat bs))
  { s with farTl := SMap.putD s.farTl 0 (farKey o.dev o.loc) x, progress := s.progress + 1 }

/-- Whether a reader of a timeline of another device still waits for it. -/
def stillWaits (s : State) : FarWho → Bool
  | .waitph g lane _ => match thr (gangOf s g) lane with | some t => (match t.wait with | .phase .tl .. => true | _ => false) | none => false
  | .queue q _ => (queueOf s q).waiting && cmdKind (queueOf s q).cmd == 3
  | .script c _ => (scriptOf s c).st == .waiting && (match (scriptOf s c).wait with | some (.tlwait ..) => true | _ => false)
  | _ => false

/-- A wait that has read its timeline reads it again while it holds too little (R170, R222, R302). -/
def timelineAnswer (s : State) (o : FarOp) (need : Word) (bs : List Byte) : State :=
  let s := noteTimeline s o bs
  if stillWaits s o.who && (farValue s o.dev o.loc).toNat < need.toNat then askFarRead s o.who o.dev o.ctx o.loc 8 o.va else s

/-- The bytes that a matrix operation was answered, or that it was refused (R143, R328). -/
def matAnswer (s : State) (pair num : Nat) (o : FarOp) (data : Option (List Byte)) : State :=
  let upd := fun (m : MatOp) =>
    if m.num != num then m
    else match data with
      | some bs => { m with far := bs.zipIdx.foldl (fun f b => SMap.put f (farKey o.dev (o.loc + b.2)) b.1) m.far }
      | none => { m with farNo := m.farNo ++ (List.range o.len).map fun i => farKey o.dev (o.loc + i) }
  modMat { s with progress := s.progress + 1 } pair fun q => { q with ops := q.ops.map upd }

/-- The bytes of a host message that another device has answered or refused (R328). -/
def hostAnswer (s : State) (seq : Nat) (o : FarOp) (data : Option (List Byte)) : State :=
  let bs := match data with | some b => b.map some | none => []
  { s with progress := s.progress + 1,
           torn := s.torn ++ (List.range o.len).map fun i =>
             { seq := seq, at_ := o.va.toNat + i, byte := (bs[i]?).join } }

/-- A store that a gang sent is refused: the gang meets the refusal as that of an operation without a destination (R328, R366). -/
def storeRefused (s : State) (g : Nat) (o : FarOp) (c : Cause) (sub : Nat) : State :=
  if (SMap.find s.gangs g).isSome then
    modGang s g fun G => { G with late := G.late ++ [{ dest := .none, cause := c, sub := sub, serial := 0, addr := o.va }] }
  else farRefused s o c

/-- What an answer does for the one who awaits it: `data` is what was read, or a refusal's RESULT stands in `no`. -/
def farAnswer (s : State) (o : FarOp) (data : Option (List Byte)) (no : Word) : State :=
  let c := Cause.ofCode (Word.fld no 0 8)
  match o.who, data with
  | .none, some _ | .store .., some _ => s
  | .none, none => farRefused s o c
  | .store g _ _ _, none => storeRefused s g o c (Word.fld no 8 8)
  | .signal q, some _ => if (queueOf s q).waiting then signalDone s q (queueOf s q).cmd else s
  | .signal q, none => if (queueOf s q).waiting then commandRefused s q c o.va else s
  | .launch k, some _ => launchDone s k true
  | .launch k, none => launchDone s k false
  | .record ctx, some bs => pushRecord s ctx (recordOf (leNat bs))
  | .record _, none => farRefused s o c
  | .waitph _ _ need, some bs | .queue _ need, some bs | .script _ need, some bs => timelineAnswer s o need bs
  | .waitph g lane _, none => failWait s g lane c o.va
  | .queue q _, none => if stillWaits s o.who then commandRefused s q c o.va else s
  | .script f _, none => if stillWaits s o.who then scriptFault s f c 0 else s
  | .matrix pair num, d => matAnswer s pair num o d
  | .copy core x num, d => copyAnswer s core x num o d
  | .chunk die, d => stagedAnswer s die o.id d.isSome
  | .host seq, some b => hostAnswer s seq o (some b)
  | .host seq, none => hostAnswer (farRefused s o c) seq o none

/-- LOAD_DATA_RETURN (R180, R328): another device answers a load of a gang, or another access without a serial. -/
def execLoadDataReturn (g id : Nat) (data : Option (List Byte)) (refusal : Word) (s : State) : Res :=
  if (gangOf s g).loads.any (fun p => p.id == id && p.got.isNone && p.no.isNone) then .next (loadReturn s g id data refusal)
  else match s.farOps.find? fun o => o.id == id with
    | some o => .next (farAnswer { s with farOps := s.farOps.filter fun p => p.id != id } o data refusal)
    | none => .next s

/-! ## Retirement (R358, R361 to R363) -/

/-- A floor reaches an owner: an SXE of this device, or another device. -/
def tellFloor (s : State) (g dest : Nat) (floor : W32) : State :=
  if dest == Config.deviceId.toNat then
    [0, 1, 2, 3].foldl (fun s d => modSxe s d fun x => rindFloor s.now x (identOf g) floor) s
  else send s (.ackf dest (identOf g) floor)

/-- A serial of an identity is still without an answer in the dispatcher's or a CXE's hands. -/
def stillOpen (s : State) (g : Nat) : Bool :=
  (s.orphans.any fun q => q.hdr.ident == identOf g)
    || (s.sendRes.any fun r => r.unans.any fun u => u.chunk.hdr.kind == 2 && u.chunk.hdr.ident == identOf g)

/-- ACKF_SEND (R361, R362): a gang that has been quiet towards an owner for 10 µs while its floor rose tells it the floor; for a
gang that is gone the dispatcher tells each owner its last serial, once every request has been answered. -/
def execAckfSend (g dest : Nat) (s : State) : Res :=
  match SMap.find s.gangs g with
  | some G => match SMap.find G.acks dest with
    | none => .next s
    | some a =>
      let f := floorOf s g
      if s.now < a.at_ + 10000 || !serialBelow a.floor f || (teamOf s (teamKey g)).st == .saved then .next s
      else .next (noteOwner (tellFloor s g dest f) g dest f)
  | none => match s.finals.find? fun f => f.g == g && f.owners.contains dest with
    | none => .next s
    | some f =>
      if stillOpen s g then .next s
      else
        let rest := f.owners.filter fun o => o != dest
        let finals := (s.finals.filter fun e => e != f) ++ (if rest.isEmpty then [] else [{ f with owners := rest }])
        .next (tellFloor { s with finals := finals } g dest f.next)

/-- ACKF_RECEIVE (R361): the requester record's floor rises, and entries below it retire. -/
def execAckfReceive (die : Nat) (ident : Word) (floor : W32) (s : State) : Res :=
  if 4 ≤ die then .next s else .next (modSxe s die fun x => rindFloor s.now x ident floor)

/-- REQUESTER_RECORD_EXPIRE (R358, R363): a record goes 1 ms after the last entry of its identity retired. -/
def execRequesterRecordExpire (die : Nat) (ident : Word) (s : State) : Res :=
  .next (modSxe s die fun x => { x with recs := x.recs.filter fun r =>
    !(r.ident == ident && match r.emptyAt with | some t => decide (t + 1000000 ≤ s.now) | none => false) })

/-- INCARNATION_ANNOUNCE (R367): a device's announced incarnation enters the table. -/
def execIncarnationAnnounce (dev : Nat) (inc : W32) (s : State) : Res := .next (hearInc s dev inc)

/-- RIND_EXTENSION_GRANT (R360): in host-assisted mode the host grants further overflow space in steps of 256 MiB, 3.75 GiB at
most; space that holds live entries is not taken back. -/
def execRindExtensionGrant (die amount : Nat) (s : State) : Res :=
  let x := sxeOf s die
  if !hostMode s 2 || 4 ≤ die || 15 < amount || (1 + amount) * 5592405 < x.rind.length then .next s
  else .next (modSxe s die fun x => { x with extra := amount, warned := if x.extra < amount then false else x.warned })

/-! ## Restarts (R367, R396) -/

/-- A port as a warm restart leaves it: DARK, with its gate at the exit from LIVE, if it was there (R171). -/
def portRestart (P : Port) : Port :=
  { Port.blank with gate := if P.gate.toNat % 2 == 1 then P.gate + 1 else P.gate, reqno := P.reqno }

/-- WARM_RESTART (R367): every SXE has written through; far memory and the rind stay, and so do the counters that run from a
cold reset. -/
def execWarmRestart (s : State) : Res :=
  if s.power != .on then .next s
  else
    .next { State.reset with
      power := .booting false, now := s.now, tick := s.tick, tick0 := s.tick0, free := s.free, progress := s.progress, inputs := s.inputs,
      mem := s.mem, span := s.span, place := s.place, poisonFar := s.poisonFar, sxes := s.sxes, incarnation := s.incarnation,
      warmBase := s.warmBase, incTable := s.incTable, teamCnt := s.teamCnt, ports := s.ports.map fun e => (e.1, portRestart e.2),
      fsqSerial := s.fsqSerial, reqno := s.reqno,
      fsqSeen := s.fsqSeen, nextLaunch := s.nextLaunch, nextId := s.nextId, age := s.age, out := s.out }

/-- COLD_RESTART (R5, R367): a cold reset or a loss of power; the incarnation alone is kept, in the module's non-volatile
store. -/
def execColdRestart (s : State) : Res :=
  .next { State.reset with
    tick := s.tick, tick0 := s.tick, free := s.free, progress := s.progress, inputs := s.inputs, incarnation := s.incarnation, out := s.out }

/-- BOOT (R367, R396): boot ROM checks the firmware; it raises the incarnation, which becomes WARMBASE after a cold restart, and
announces it before any request is served; or nothing starts. -/
def execBoot (s : State) : Res :=
  match s.power with
  | .booting cold =>
    if Config.bootGood s.incarnation.toNat then
      let inc := s.incarnation + 1
      .next (send { s with power := .on, incarnation := inc, warmBase := if cold then inc else s.warmBase } (.announce inc))
    else .next (toHost { s with power := .bootFailed } (.notify 0x0B [1] []))
  | _ => .next s

end Sys2Proof.Machine
end

