-- ==== Sys2Proof/Machine/Translation.lean ====
section
/-!
DEFINITION. TLBs and walks (R321), invalidation (R322), the host's answers to page faults (R325), and page placement (R12,
R154).
-/
namespace Sys2Proof.Machine

/-! ## TLBs and walks (R321) -/

/-- A full TLB loses its oldest entry to a new one. -/
def tlbFill (n : Nat) (tlb : List TlbEnt) (e : TlbEnt) : List TlbEnt :=
  if tlb.contains e then tlb else e :: tlb.take (n - 1)

/-- The entry of a leaf that translates a 64 KiB page (R321): a big leaf's entry stands for its whole 32 MiB page. -/
def tlbEnt (ctx page : Nat) (leaf : Word) (big : Bool) : TlbEnt :=
  { ctx := ctx, page := if big then page / 512 else page, big := big, leaf := leaf }

/-- The walks that a die's walkers hold; the rest of its list waits for a walker in order of arrival (R321). -/
def walkers : Nat := 64

/-- TLB_MISS (R321): a lookup that the core's TLB misses takes its entry from the die's TLB; where that misses too, the page
waits for a walk, of which a die has at most one per page. -/
def execTlbMiss (core ctx page : Nat) (s : State) : Res :=
  let va := page * 2 ^ 16
  let d := dieOfCore core
  if 320 ≤ core || (tlbFind (coreOf s core).tlb ctx va).isSome then .next s
  else match tlbFind (dieOf s d).tlb ctx va with
    | some (e, b) => .next (modCore s core fun C => { C with tlb := tlbFill 512 C.tlb (tlbEnt ctx page e b) })
    | none =>
      if (dieOf s d).walks.contains (ctx, page) then .next s
      else .next (modDie s d fun D => { D with walks := D.walks ++ [(ctx, page)] })

/-- WALK_COMPLETE (R319, R321): the walk of one of the die's walkers ends, and a valid leaf enters the die's TLB; a walk that
finds none leaves no entry, and the access that waited for it faults where it is made (R323). -/
def execWalkComplete (die ctx page : Nat) (s : State) : Res :=
  if !((dieOf s die).walks.take walkers).contains (ctx, page) then .next s
  else
    let s := modDie s die fun D => { D with walks := D.walks.filter fun w => w != (ctx, page) }
    match walk s ctx (page * 2 ^ 16) with
    | .absent .. => .next { s with progress := s.progress + 1 }
    | .leaf e b =>
      .next { modDie s die fun D => { D with tlb := tlbFill 16384 D.tlb (tlbEnt ctx page e b) } with
        progress := s.progress + 1 }

/-! ## Invalidation (R322, Table 4) -/

def offInval : Nat := 0x10020

/-- INVALIDATE_GO (R322): a write with GO set starts an invalidation; while one is under way a write is ignored. -/
def execInvalidateGo (val : Word) (s : State) : Res :=
  if s.invalid.isSome then .next s
  else
    let v := BitVec.ofNat 64 (setFld (setFld val.toNat 41 9 0) 63 1 0)
    let s := mgmtPut s offInval v
    .next (if val.getLsbD 63 then { s with invalid := some v } else s)

/-- An entry that the invalidation removes. -/
def invalidated (val : Word) (e : TlbEnt) : Bool :=
  let vpn := Word.fld val 0 41
  e.ctx == Word.fld val 50 12 && (val.getLsbD 62 || (if e.big then e.page == vpn / 512 else e.page == vpn))

/-- Accesses of a context that were checked and are not yet performed: stores on their way, loads and requests that await
other devices, the operations that gangs which are gone have left, other accesses to other devices, and matrix operations on
the array. -/
def checkedAccesses (s : State) (ctx : Nat) : Bool :=
  (s.gangs.any fun e => ctxOfTeam (teamKey e.1) == ctx && (!e.2.storeQ.isEmpty || e.2.loading || !e.2.reqs.isEmpty))
    || (s.cores.any fun e => e.2.outb.any fun x => ctxOfTeam (teamKey x.by_) == ctx)
    || (s.orphans.any fun q => identCtx q.hdr.ident == ctx)
    || (s.farOps.any fun o => o.ctx == ctx)
    || (s.matrix.any fun e => e.2.ops.any fun o => o.running && opCtx o == ctx)



/-- INVALIDATE_DONE (R322): once every access checked under an old entry has been performed, no TLB holds an entry that
translates the named byte, and BUSY falls; loads of the context that might still be performed are performed. -/
def execInvalidateDone (s : State) : Res :=
  match s.invalid with
  | none => .next s
  | some v =>
    if checkedAccesses s (Word.fld v 50 12) then .next s
    else
      let keep := fun (l : List TlbEnt) => l.filter fun e => !invalidated v e
      .next { s with invalid := none,
                     gangs := s.gangs.map fun e =>
                       (e.1, if ctxOfTeam (teamKey e.1) == Word.fld v 50 12 then closeReads e.2 else e.2),
                     cores := s.cores.map fun e => (e.1, { e.2 with tlb := keep e.2.tlb }),
                     dies := s.dies.map fun e => (e.1, { e.2 with tlb := keep e.2.tlb }) }

/-! ## The host's answer to a page fault (R325) -/

/-- The masters that share a fault, and the fault taken off the books. -/
def endFault (s : State) (id : Nat) : List Nat × State :=
  ((s.pfWaiters.filter fun w => w.1 == id).map (·.2),
   { s with faultsOut := s.faultsOut.filter fun f => f.id != id, pfWaiters := s.pfWaiters.filter fun w => w.1 != id,
            progress := s.progress + 1 })

/-- PAGE_FAULT_RETRY (R325): every sharing master walks again. -/
def execPageFaultRetry (id : Nat) (s : State) : Res :=
  if !(s.faultsOut.any fun f => f.id == id) then .next s
  else
    let r := endFault s id
    .next (r.1.foldl (fun s m =>
      if (SMap.find s.gangs m).isSome then modGang s m fun G => { G with pf := .none } else s) r.2)

/-- The commands of a TCU context that stand at a page whose fault is refused fault with PAGEF (R210, R323). -/
def refuseCopies (s : State) (core x ctx page : Nat) : State :=
  ((tcuOf s core x).cmds.map (·.num)).foldl (fun s num =>
    match cmdOf s core x num with
    | none => s
    | some m =>
      match copyFault s m with
      | some (.pagef, sub, va) =>
        if ctxOfTeam m.team == ctx && va.toNat / 2 ^ 16 == page then faultCmd s core x m .pagef sub va else s
      | _ => s) s

/-- The operation at the head of a matrix queue faults when it stands at the refused page (R143). -/
def refuseMatrix (s : State) (pair ctx page : Nat) : State :=
  match headOp s pair with
  | none => s
  | some o =>
    match operandFault s o with
    | some f => if f.cause == .pagef && opCtx o == ctx && f.addr / 2 ^ 16 == page then dropMatOp s pair o f else s
    | none => s

/-- A staged chunk that stands at the refused page is refused (R400). -/
def refuseChunk (s : State) (die ctx page : Nat) (t : Staged) : Staged :=
  match checkChunk s die t with
  | .page va =>
    if identCtx t.chunk.hdr.ident == ctx && va.toNat / 2 ^ 16 == page then { t with no := some (refusalWord .pagef 0) } else t
  | _ => t

/-- One master raises PAGEF (R325); a part of the device that waits for a page of its own finds the refusal when it tries
again. -/
def refuseMaster (s : State) (f : PageFault) (m : Nat) : State :=
  if (SMap.find s.gangs m).isSome then modGang s m fun G => { G with pf := .refused f.page }
  else if 2 ^ 62 ≤ m then
    modCxe s (m - 2 ^ 62) fun x => { x with staged := x.staged.map (refuseChunk s (m - 2 ^ 62) f.ctx f.page) }
  else if 2 ^ 61 ≤ m then refuseCopies s ((m - 2 ^ 61) / 4) ((m - 2 ^ 61) % 4) f.ctx f.page
  else if 2 ^ 60 ≤ m then refuseMatrix s (m - 2 ^ 60) f.ctx f.page
  else if 2 ^ 59 ≤ m then modQueue s (m - 2 ^ 59) fun Q => { Q with pfNo := some f.page }
  else if 2 ^ 55 ≤ m then { s with pfNo := (m, f.ctx, f.page) :: s.pfNo }
  else s

/-- PAGE_FAULT_REFUSE (R325): every sharing master raises PAGEF. -/
def execPageFaultRefuse (id : Nat) (s : State) : Res :=
  match s.faultsOut.find? fun f => f.id == id with
  | none => .next s
  | some f =>
    let r := endFault s id
    .next (r.1.foldl (fun s m => refuseMaster s f m) r.2)

/-! ## Placement (R12, R154) -/

/-- The page that a rind entry's operation lies in (R359): for this device's requesters ADDR is an address of their context,
for others a place of this device's memory. -/
def rindPage (s : State) (e : RindEnt) : Option Nat :=
  if Word.fld e.ident 54 10 == Config.deviceId.toNat then
    match windowOf e.addr with
    | .global a => match ctxByte s (Word.fld e.ident 42 12) a accRead true with | .ok (.phys p) => some (p / 2 ^ 16) | _ => none
    | .priv off =>
      let g := Word.fld e.ident 0 54
      match ctxByte s (Word.fld e.ident 42 12) (privAddr (teamOf s (teamKey g)) (gangIdx g) 0 off) accRead true with
      | .ok (.phys p) => some (p / 2 ^ 16)
      | _ => none
    | _ => none
  else some (e.addr.toNat / 2 ^ 16)

/-- Entries that move with a page (R359): not those of reducing chunks and of FSQ messages, which belong to a die. -/
def movesWith (s : State) (frame : Nat) (e : RindEnt) : Bool := e.kind != 2 && e.kind != 5 && rindPage s e == some frame

/-- The frames that hold lines which a matrix operation on the array has pinned (R137). -/
def pinnedFrames (s : State) : List Nat :=
  s.matrix.flatMap fun e => (e.2.ops.filter (·.running)).flatMap fun o => o.pins.map (· / 1024)

/-- The leaves of every context that map a frame of this device (R319). -/
def leavesOf (s : State) (frame : Nat) : List Word :=
  (List.range 4096).flatMap fun ctx => (mapsFrame s frame 3 (rootOf s ctx) 0).map (·.2)

/-- Whether the leaves of a frame allow it the residency `res`: an MMIO page is never moved (R327), a page pinned to L2 does
not leave it, and one pinned far does not enter it (R319, Table 3). -/
def mayMove (s : State) (frame res : Nat) : Bool :=
  (leavesOf s frame).all fun e => !leafMmio e && !(leafPlace e == 1 && res == 0) && !(leafPlace e == 2 && res == 1)

/-- The pages of 64 KiB that a die's L2 holds when it is full: 2 GiB (R12). -/
def l2Pages : Nat := 32768

/-- Whether a page is in L2 or on its way into it. -/
def inL2 (P : Placement) : Bool := P.res == 1 || (P.res == 2 && P.dest == 1)

/-- Whether a die's L2 has room for one more page (R12). -/
def l2Room (s : State) (die : Nat) : Bool := (s.place.filter fun e => inL2 e.2 && e.2.home == die).length < l2Pages

/-- A requester record of one SXE as another one takes it over: the higher floor (R358, R363). -/
def addRecord (x : Sxe) (r : ReqRec) : Sxe :=
  let q := (x.recs.find? fun q => q.ident == r.ident).getD r
  let f := if serialBelow q.floor r.floor then r.floor else q.floor
  let at_ := if x.rind.any fun e => e.ident == r.ident then none else q.emptyAt
  { x with recs := { q with floor := f, emptyAt := at_ } :: x.recs.filter fun p => p.ident != r.ident }

/-- The home of a page changes, and its rind entries with it in the same atomic change (R154, R359). -/
def rehome (s : State) (frame home : Nat) : State :=
  let P := placeOf s frame
  if P.home == home then s
  else
    let moved := (sxeOf s P.home).rind.filter (movesWith s frame)
    let recs := (sxeOf s P.home).recs
    let s := modSxe s P.home fun x => { x with rind := x.rind.filter fun e => !moved.contains e }
    let s := modSxe s home fun x => recs.foldl addRecord { x with rind := x.rind ++ moved }
    { s with place := SMap.put s.place frame { P with home := home } }

/-- PAGE_MOVE (R12, R154): the placement engine changes a page's home die, or starts to move it between far memory and L2. It
moves no page with pinned lines (R137), none against its leaves, and none into an L2 that is full. -/
def execPageMove (frame home res : Nat) (s : State) : Res :=
  let P := placeOf s frame
  if 4 ≤ home || 2 ≤ res || (pinnedFrames s).contains frame || !mayMove s frame res then .next s
  else if inL2 P && P.home != home && !l2Room s home then .next s
  else
    let s := rehome s frame home
    let P := placeOf s frame
    if P.res == 2 || P.res == res || (res == 1 && !l2Room s home) then .next s
    else .next { s with place := SMap.put s.place frame { P with res := 2, dest := res } }

/-- PAGE_MOVE_DONE (R154): the page takes its new residency. -/
def execPageMoveDone (frame : Nat) (s : State) : Res :=
  let P := placeOf s frame
  if P.res != 2 then .next s else .next { s with place := SMap.put s.place frame { P with res := P.dest } }

end Sys2Proof.Machine
end

