-- ==== Sys2Proof/Machine/Transport.lean ====
section
/-!
DEFINITION. The host transport and the management space (R392 to R397). Where the rules name a register without an offset,
the offset is the model's (log 8).
-/
namespace Sys2Proof.Machine

/-- The state that a meaning answers with; every meaning used here answers with one. -/
def resState (s : State) (r : Res) : State := match r with | .next t => t | _ => s

def offPfResponse : Nat := 0x10028
def offCmAddr : Nat := 0x10030
/-- The register by which the host pre-empts a context (R343): GO in [63], the context in [11:0]. -/
def offPreempt : Nat := 0x10038
def offPacing : Nat := 0x200100

/-! ## Reading the management space -/

/-- Dword `i` of a queue's control block (R393, Table 3). -/
def queueDword (Q : CmdQueue) (i : Nat) : Word :=
  match i with
  | 0 => BitVec.ofNat 64 (Q.ring / 2 ^ 20 % 2 ^ 44 * 2 ^ 20 + Q.rlog % 32 * 2 ^ 15 + Q.ctx % 4096 * 2 ^ 3 + Q.prio % 8)
  | 1 => BitVec.ofNat 64 (Q.tail.toNat * 2 ^ 32 + Q.head.toNat)
  | 2 => BitVec.ofNat 64 (b2n Q.en * 2 ^ 63 + b2n (Q.halt || Q.waiting) * 2 ^ 62)
  | _ => 0

/-- STATE of a script context (R289, Table 3). -/
def ScriptSt.code : ScriptSt → Nat
  | .idle => 0 | .running => 1 | .waiting => 2 | .stopped => 3

/-- A script context's control register as it reads (R289, Table 3). -/
def scriptWord (S : Script) : Word :=
  BitVec.ofNat 64 (S.st.code * 2 ^ 62 + S.cause % 256 * 2 ^ 48 + S.pc % 4096 * 2 ^ 32)

/-- A dword of the management space (R397, Table 4); an offset that is not listed reads 0. -/
def mgmtRead (s : State) (off : Nat) : Word :=
  if off == 0 then BitVec.zeroExtend 64 Config.deviceId
  else if off == 8 then BitVec.zeroExtend 64 s.incarnation
  else if off == 0x10 then Config.deviceSerial
  else if 0x40 ≤ off && off < 0x60 then BitVec.ofNat 64 (fld Config.firmwareDigest.toNat (8 * (off - 0x40)) 64)
  else if off == offInval then BitVec.ofNat 64 (setFld (mgmtGet s off).toNat 63 1 (b2n s.invalid.isSome))
  else if 0x11000 ≤ off && off < 0x11000 + 16 * 4096 then
    let b := SMap.getD s.bufs ((off - 0x11000) / 16) { base := 0, len := 0 }
    BitVec.ofNat 64 (if off % 16 == 0 then b.base else b.len)
  else if 0x100000 ≤ off && off < 0x101000 then queueDword (queueOf s ((off - 0x100000) / 64)) (off % 64 / 8)
  else if 0x200000 ≤ off && off < 0x200100 then islandWord (islandOf s ((off - 0x200000) / 8))
  else if off == offPacing then s.pacing
  else if 0x300000 ≤ off && off < 0x300080 then
    let S := scriptOf s ((off - 0x300000) / 16)
    if off % 16 == 0 then scriptWord S else S.tl
  else if 0x301000 ≤ off && off < 0x301100 then portWord (portOf s ((off - 0x301000) / 8))
  else if 0x400000 ≤ off && off < 0x400020 then BitVec.ofNat 64 (sxeOf s ((off - 0x400000) / 8)).extra
  else if 0x1000000 ≤ off && off < 0x1000000 + 4096 * 320 && off % 4096 < 0x220 then
    let k := off % 4096
    let c := (off - 0x1000000) / 4096
    if 0x1E0 ≤ k && k < 0x220 && [2, 3].contains (Word.fld (mgmtGet s (offPmSel c ((k - 0x1E0) / 8))) 0 4) then
      Config.freeWord (s.free + k)
    else mgmtGet s off
  else if 0x2000000 ≤ off && off < 0x2000000 + 64 * 4096 && off % 64 == 0 then mgmtGet s off
  else if 0x3000000 ≤ off && off < 0x3001000 then Config.moduleReading off s.tick
  else if [offMode, offCtxBase, offRootBase, offFreeBase, offFreeIdx, offCmAddr].contains off
       || (0x201000 ≤ off && off < 0x201000 + 8 * 320) || (0x202000 ≤ off && off < 0x202020) then mgmtGet s off
  else 0

/-! ## Writing the management space -/

/-- The page-fault response register (R325). -/
def writePfResponse (s : State) (w : Word) : State :=
  if !w.getLsbD 63 then s
  else if Word.fld w 16 2 == 1 then resState s (execPageFaultRefuse (Word.fld w 0 16) s)
  else resState s (execPageFaultRetry (Word.fld w 0 16) s)

/-- A write of a buffer slot (R392); an empty slot has length 0. -/
def writeBuf (s : State) (off : Nat) (w : Word) : State :=
  let k := (off - 0x11000) / 16
  let b := SMap.getD s.bufs k { base := 0, len := 0 }
  let b := if off % 16 == 0 then { b with base := w.toNat } else { b with len := w.toNat }
  { s with bufs := SMap.putD s.bufs { base := 0, len := 0 } k b }

/-- A write of dword `i` of a queue's control block (R393, R394). -/
def writeQueue (s : State) (q i : Nat) (w : Word) : State :=
  match i with
  | 0 => modQueue s q fun Q =>
      { Q with ring := Word.fld w 20 44 * 2 ^ 20, prio := Word.fld w 0 3, ctx := if Q.en then Q.ctx else Word.fld w 3 12,
               rlog := if 4 ≤ Word.fld w 15 5 && Word.fld w 15 5 ≤ 20 then Word.fld w 15 5 else Q.rlog }
  | 1 => modQueue s q fun Q => { Q with tail := BitVec.ofNat 32 (Word.fld w 32 32) }
  | 2 =>
    let s := if w.getLsbD 63 then modQueue s q fun Q => { Q with en := true } else resState s (execQueueDisable q s)
    let s := if w.getLsbD 61 then resState s (execQueueSkip q s) else s
    match Word.fld w 59 2 with
    | 1 => resState s (execVerdictParse q s)
    | 2 => resState s (execVerdictSkip q s)
    | _ => s
  | _ => s

/-- A write of the pacing register (R276, Table 3): a write restarts the choice of the communicator followed. -/
def writePacing (s : State) (w : Word) : State :=
  let p := setFld (setFld s.pacing.toNat 63 1 (b2n (w.getLsbD 63))) 16 16 (Word.fld w 16 16)
  let s := { s with pacing := BitVec.ofNat 64 p, paceComm := none }
  if w.getLsbD 63 then s else resState s (execPacingDisable s)

/-- PORT.CMD (R395). -/
def writePortCmd (s : State) (p : Nat) (w : Word) : State :=
  match Word.fld w 62 2 with
  | 1 => resState s (execPortArm p (Word.fld w 50 10) (Word.fld w 45 5) s)
  | 2 => resState s (execPortRelease p s)
  | 3 => resState s (execPortBind p (Word.fld w 4 12) (Word.fld w 16 16) (Word.fld w 32 10) s)
  | _ => s

/-- DBG.CTL (R383, Table 3). -/
def writeDbg (s : State) (c : Nat) (w : Word) : State :=
  let old := (mgmtGet s (offDbg c)).toNat
  let s := mgmtPut s (offDbg c) (BitVec.ofNat 64 (setFld (setFld old 61 3 (Word.fld w 61 3)) 54 5 (Word.fld w 54 5)))
  let s := if w.getLsbD 60 then resState s (execDbgResume c s) else s
  if w.getLsbD 59 then resState s (execDbgStep c (Word.fld w 54 5) s) else s

/-- WPn.CTL (R381, Table 2). -/
def wpCtl (old w : Word) : Word :=
  let space := if Word.fld w 61 2 < 2 then Word.fld w 61 2 else Word.fld old 61 2
  let log := if 3 ≤ Word.fld w 56 4 && Word.fld w 56 4 ≤ 12 then Word.fld w 56 4 else Word.fld old 56 4
  BitVec.ofNat 64 (Word.fld w 63 1 * 2 ^ 63 + space * 2 ^ 61 + log * 2 ^ 56 + Word.fld w 53 3 * 2 ^ 53)

/-- A write of a core's block (R378, R381, R383, R388, R389); what the rules give as read-only keeps its value. -/
def writeCore (s : State) (c k : Nat) (w : Word) : State :=
  let off := offCoreBlk c + k
  if k < 0xC0 then
    let m := if k % 24 == 0 then Word.fld w 35 29 * 2 ^ 35 else if k % 24 == 8 then w.toNat else Word.fld w 0 57
    mgmtPut s off (BitVec.ofNat 64 m)
  else if 0x100 ≤ k && k < 0x140 then
    mgmtPut s off (if k % 16 == 0 then wpCtl (mgmtGet s off) w else w)
  else if k == 0x140 then writeDbg s c w
  else if k == 0x180 then
    let s := modCore s c fun C => { C with sampN := if w.getLsbD 62 then cyclesOf s c else 0, tag := none }
    mgmtPut s off (BitVec.ofNat 64 (Word.fld w 62 2 * 2 ^ 62 + Nat.max 64 (Word.fld w 0 32)))
  else if k == 0x188 then mgmtPut s off w
  else if k == 0x190 then
    mgmtPut s off (BitVec.ofNat 64 (setFld (setFld (mgmtGet s off).toNat 20 20 (Word.fld w 20 20)) 40 5 (Word.fld w 40 5)))
  else if 0x1A0 ≤ k && k < 0x1E0 then mgmtPut s off (BitVec.ofNat 64 (Word.fld w 63 1 * 2 ^ 63 + Word.fld w 0 4))
  else if 0x1E0 ≤ k && k < 0x220 then mgmtPut s off w
  else s

/-- CAVE.CTL (R391): a new MODE restarts the record, or the comparison, at its first entry. -/
def writeCave (s : State) (ctx : Nat) (w : Word) : State :=
  let old := (mgmtGet s (offCave ctx)).toNat
  let mode := if Word.fld w 62 2 == 3 then 0 else Word.fld w 62 2
  let log := if 16 ≤ Word.fld w 47 5 && Word.fld w 47 5 ≤ 30 then Word.fld w 47 5 else fld old 47 5
  let fresh := mode != fld old 62 2
  let full := if fresh then 0 else fld old 61 1
  let s := mgmtPut s (offCave ctx) (BitVec.ofNat 64 (mode * 2 ^ 62 + full * 2 ^ 61 + log * 2 ^ 47 + Word.fld w 12 32 * 2 ^ 12))
  if fresh then
    { s with cave := s.cave.filter fun e => e.1 != ctx && !(2 ^ 60 ≤ e.1 && ctxOfTeam (teamKey (e.1 - 2 ^ 60)) == ctx) }
  else s

/-- A dword written in the management space (R397): every register's own effect; the rest ignores writes. A write of a core's
health counter clears its suspect mark (R335, log 45). -/
def mgmtWrite (s : State) (off : Nat) (w : Word) : State :=
  if off == offMode then mgmtPut s off (BitVec.ofNat 64 (Word.fld w 0 7))
  else if [offCtxBase, offRootBase, offFreeBase, offFreeIdx, offCmAddr].contains off then mgmtPut s off w
  else if off == offInval then resState s (execInvalidateGo w s)
  else if off == offPfResponse then writePfResponse s w
  else if off == offPreempt then
    if w.getLsbD 63 then
      preemptAll s ((s.teams.filter fun e => e.2.ctx == Word.fld w 0 12 && e.2.st == .running).map (·.1))
    else s
  else if 0x11000 ≤ off && off < 0x11000 + 16 * 4096 then writeBuf s off w
  else if 0x100000 ≤ off && off < 0x101000 then writeQueue s ((off - 0x100000) / 64) (off % 64 / 8) w
  else if 0x200000 ≤ off && off < 0x200100 then resState s (execPoolWrite ((off - 0x200000) / 8) w s)
  else if off == offPacing then writePacing s w
  else if 0x201000 ≤ off && off < 0x201000 + 8 * 320 then
    modCore (mgmtPut s off w) ((off - 0x201000) / 8) fun C => { C with suspect := false }
  else if 0x300000 ≤ off && off < 0x300080 then
    let c := (off - 0x300000) / 16
    if off % 16 == 8 then resState s (execScriptTimelineWrite c w s)
    else if w.getLsbD 61 then resState s (execScriptReset c s) else s
  else if 0x301000 ≤ off && off < 0x301100 then writePortCmd s ((off - 0x301000) / 8) w
  else if 0x400000 ≤ off && off < 0x400020 then resState s (execRindExtensionGrant ((off - 0x400000) / 8) w.toNat s)
  else if 0x1000000 ≤ off && off < 0x1000000 + 4096 * 320 then writeCore s ((off - 0x1000000) / 4096) (off % 4096) w
  else if 0x2000000 ≤ off && off < 0x2000000 + 64 * 4096 && off % 64 == 0 then writeCave s ((off - 0x2000000) / 64) w
  else s

/-- MGMT_REGISTER_WRITE (R397): one dword of the management space. -/
def execMgmtRegisterWrite (off : Nat) (val : Word) (s : State) : Res := .next (mgmtWrite s (off / 8 * 8) val)

/-- ATTESTATION_NONCE (R396): the last nonce written is the one that is answered. -/
def execAttestationNonce (nonce : BitVec 256) (s : State) : Res := .next { s with nonce := some nonce }

/-- The evidence for a nonce (R396): the firmware digest, the incarnation, the device serial, the mode block, the nonce. -/
def evidenceBytes (s : State) (nonce : BitVec 256) : List Byte :=
  leBytes 32 Config.firmwareDigest.toNat ++ leBytes 4 s.incarnation.toNat ++ leBytes 8 Config.deviceSerial.toNat
    ++ leBytes 8 (mgmtGet s offMode).toNat ++ leBytes 32 nonce.toNat

/-- ATTESTATION_EVIDENCE_SIGNED (R396): NOTIFY 0x0B with status 0 for the last nonce written. -/
def execAttestationEvidenceSigned (s : State) : Res :=
  match s.nonce with
  | none => .next s
  | some n =>
    let b := evidenceBytes s n
    .next (toHost { s with nonce := none } (.evidence 0 (b ++ Config.signature b)))

/-! ## Transport messages (R392) -/

/-- Bytes that a host message writes over whole dwords of the management space, taken up dword by dword: a part of a dword
goes with what the rest of it reads as. -/
def mgmtBytes (s : State) (addr : Nat) (data : List Byte) : State :=
  let first := addr / 8
  let n := (addr + data.length + 7) / 8 - first
  (List.range n).foldl (fun s i =>
    let off := 8 * (first + i)
    let w := (List.range 8).foldl (fun a j =>
      if addr ≤ off + j && off + j < addr + data.length
      then setFld a (8 * j) 8 ((data[off + j - addr]?).getD 0).toNat else a) (mgmtRead s off).toNat
    mgmtWrite s off (BitVec.ofNat 64 w)) s

/-- The places of `n` bytes from a host address on; none for a byte whose page is absent or refuses the access. -/
def hostPlaces (s : State) (space : HostSpace) (addr n kind : Nat) : List (Option Loc) :=
  (List.range n).map fun i =>
    match space with
    | .physical => some (.phys (addr + i))
    | .virt ctx => (match ctxByte s ctx (addr + i) kind false with | .ok l => some l | .error _ => none)
    | .mgmt => none

/-- What has been performed of a host message already at an address (R172). -/
def tornAt (s : State) (seq a : Nat) : Option Torn := s.torn.find? fun t => t.seq == seq && t.at_ == a

/-- The bytes of a host message that have not been performed: their addresses and places. -/
def hostLeft (s : State) (seq : Nat) (space : HostSpace) (addr n kind : Nat) : List (Nat × Option Loc) :=
  ((hostPlaces s space addr n kind).zipIdx.map fun e => (addr + e.2, e.1)).filter fun e => (tornAt s seq e.1).isNone

/-- A host message has been performed as a whole. -/
def untorn (s : State) (seq : Nat) : State := { s with torn := s.torn.filter fun t => t.seq != seq }

/-- The bytes of a host message that has not been performed as a whole, with what it writes there. -/
def hostBytes (s : State) (seq : Nat) (space : HostSpace) (addr : Nat) (data : List Byte) : List (Loc × Byte) :=
  (hostLeft s seq space addr data.length accWrite).filterMap fun e => e.2.map fun l => (l, (data[e.1 - addr]?).getD 0)

/-- Host bytes become visible at system scope in this device's memory; bytes without a place are left out. -/
def hostStore (s : State) (seq : Nat) (space : HostSpace) (addr : Nat) (data : List Byte) : State :=
  let bs := hostBytes s seq space addr data
  untorn (clearPoison (locWrites s bs) bs) seq

/-- A byte that the host reads; one without a place is a free value (log 4). -/
def hostByte (s : State) (i : Nat) : Option Loc → Byte
  | none => BitVec.ofNat 8 (Config.freeWord (s.free + i)).toNat
  | some l => locRead s l

/-- The bytes that a host message reads: of those performed already, and of another device's, what was read then. -/
def hostLoad (s : State) (seq : Nat) (space : HostSpace) (addr n : Nat) : List Byte :=
  match space with
  | .mgmt => (List.range n).map fun i =>
      BitVec.ofNat 8 (Word.fld (mgmtRead s ((addr + i) / 8 * 8)) (8 * ((addr + i) % 8)) 8)
  | _ => (hostPlaces s space addr n accRead).zipIdx.map fun e =>
      match tornAt s seq (addr + e.2) with
      | some t => t.byte.getD (hostByte s e.2 none)
      | none => hostByte s e.2 e.1

/-! ## Host messages at pages and at other devices (R323 to R328) -/

/-- How page faults of a host message are known among the masters. -/
def masterHost (seq : Nat) : Nat := 2 ^ 55 + seq % 2 ^ 48

/-- The pages that a host message reaches in a context are served, one after the other. -/
def hostPages (s : State) (seq : Nat) (space : HostSpace) (addr n kind : Nat) : State × PageRes :=
  match space with
  | .virt ctx => ownPages s ctx addr n kind (masterHost seq) false
  | _ => (s, .there)

/-- The first byte of a host message whose page refuses it, or is absent (R320). -/
def hostBar (s : State) (space : HostSpace) (addr n kind : Nat) : Option (Cause × Nat) :=
  match space with
  | .virt ctx => (List.range n).findSome? fun i =>
      match ctxByte s ctx (addr + i) kind false with
      | .ok _ => none
      | .error c => some (c, addr + i)
  | _ => none

/-- The record of a host message that a page refuses (R320, R326); one that a page fault refuses has none. -/
def hostRefused (s : State) (space : HostSpace) (addr n kind : Nat) : State :=
  match hostBar s space addr n kind with
  | some (c, va) =>
    let ctx := match space with | .virt c => c | _ => 0
    if c == .pagef then s
    else reportFault s { stopRec s none 0 (BitVec.ofNat 64 va) 0xFF 0 0 0 with core := 0, ctx := ctx, cause := c, extra := 0 }
  | none => s

/-- Bytes of a host message that lie on other devices are written or asked for there, unless answers are awaited (R328). -/
def hostSend (s : State) (seq : Nat) (away : List (Nat × Loc)) (data : Option (Nat → Byte)) : State :=
  if s.farOps.any fun o => o.who == .host seq then s
  else
    let vaOf := fun (l : Loc) => BitVec.ofNat 64 (((away.find? fun e => e.2 == l).map (·.1)).getD 0)
    match data with
    | some d => (sendOut s (.host seq) vaOf (away.map fun e => (e.2, d e.1))).1
    | none => (remoteRuns (away.map fun e => (e.2, (0 : Byte)))).foldl (fun s m =>
        askFarRead s (.host seq) m.1 m.2.1 m.2.2.1 m.2.2.2.length (vaOf (.remote m.1 m.2.1 m.2.2.1))) s

/-- What a host message does before it is performed: its pages are served (R323), other devices answer for theirs (R328), and
a write waits for pinned lines (R137). The second part says that it can be performed. -/
def hostReady (s : State) (seq : Nat) (space : HostSpace) (addr n kind : Nat) (data : Option (Nat → Byte)) : State × Bool :=
  let pg := hostPages s seq space addr n kind
  if pg.2 == .wait then (pg.1, false)
  else
    let left := hostLeft pg.1 seq space addr n kind
    let away := left.filterMap fun e => match e.2 with | some (.remote d x a) => some (e.1, Loc.remote d x a) | _ => none
    if !away.isEmpty then (hostSend pg.1 seq away data, false)
    else (pg.1, !(data.isSome && pinned pg.1 (left.filterMap (·.2))))

/-- Bytes of a WRITE, a READ or a MOVE that are performed before the rest of it (R172), those that the bits of `which` name. -/
def tearHost (s : State) (seq : Nat) (space : HostSpace) (addr n : Nat) (data : Option (Nat → Byte)) (which : Nat) : State :=
  let kind := if data.isSome then accWrite else accRead
  (hostLeft s seq space addr n kind).foldl (fun s e =>
    match e.2 with
    | some (.phys p) =>
      if !bitOf which (e.1 - addr) || (data.isSome && pinned s [.phys p]) then s
      else
        let b := match data with | some d => d e.1 | none => locRead s (.phys p)
        let s := if data.isSome then clearPoison (locWrite s (.phys p) b) [(.phys p, b)] else s
        { s with torn := s.torn ++ [{ seq := seq, at_ := e.1, byte := some b }] }
    | _ => s) s

/-- Takes up a transport message once, and acknowledges it each time (R392). -/
def hostOnce (s : State) (seq : Nat) (f : State → State) : State :=
  if s.hostSeen.contains seq then send s (.ack seq)
  else send (f { s with hostSeen := seq :: s.hostSeen }) (.ack seq)

/-- The longest data of a WRITE or a READ (R392, Table 1). -/
def hostMax : Nat := 8192

/-- A host message's byte for an address. -/
def dataAt (addr : Nat) (data : List Byte) (a : Nat) : Byte := (data[a - addr]?).getD 0

/-- WRITE (R392, Table 1): its bytes are visible at system scope when it is acknowledged; until they can be, the host sends it
again. A write of the nonce alone asks for evidence (R396). -/
def execWrite (seq : Nat) (space : HostSpace) (addr : Nat) (data : List Byte) (s : State) : Res :=
  if s.power != .on || hostMax < data.length then .next s
  else if space == .mgmt then .next (hostOnce s seq fun s =>
    if addr == 0x20 && data.length == 32 then resState s (execAttestationNonce (BitVec.ofNat 256 (leNat data)) s)
    else mgmtBytes s addr data)
  else if s.hostSeen.contains seq then .next (hostOnce s seq id)
  else
    let r := hostReady s seq space addr data.length accWrite (some (dataAt addr data))
    if !r.2 then .next r.1
    else .next (hostOnce r.1 seq fun s => hostStore (hostRefused s space addr data.length accWrite) seq space addr data)

/-- READ (R392): answered with DATA. After a failed boot only the identity region answers (R396). -/
def execRead (seq : Nat) (space : HostSpace) (addr len : Nat) (s : State) : Res :=
  let ok := s.power == .on || (s.power == .bootFailed && space == .mgmt && addr + len ≤ 0x10000)
  if !ok || hostMax < len then .next s
  else if s.hostSeen.contains seq then .next (hostOnce s seq id)
  else
    let r := hostReady s seq space addr len accRead none
    if !r.2 then .next r.1
    else .next (hostOnce r.1 seq fun s =>
      toHost { untorn (hostRefused s space addr len accRead) seq with free := s.free + len } (.data seq (hostLoad s seq space addr len)))

/-- MOVE (R392): the copy is under way. -/
def execMove (seq : Nat) (space : HostSpace) (addr slot off len : Nat) (out : Bool) (data : List Byte) (s : State) : Res :=
  if s.power != .on then .next s
  else .next (hostOnce s seq fun s =>
    let m : HostMove := { seq := seq, space := space, addr := addr, slot := slot, off := off, len := len, toHost := out, data := data }
    { s with moves := s.moves ++ [m] })

/-- The bytes that a MOVE writes in device memory; none for one that reads it. -/
def moveData (m : HostMove) : Option (Nat → Byte) := if m.toHost then none else some (dataAt m.addr m.data)

/-- Some bytes of a host message are performed before the rest of it (R172). -/
def hostPart (s : State) (i : Instr) (which : Nat) : State :=
  if s.power != .on then s
  else match i with
    | .write seq space addr data =>
      if space == .mgmt || s.hostSeen.contains seq || hostMax < data.length then s
      else tearHost s seq space addr data.length (some (dataAt addr data)) which
    | .read seq space addr len =>
      if space == .mgmt || s.hostSeen.contains seq || hostMax < len then s else tearHost s seq space addr len none which
    | .moveComplete seq => (match s.moves.find? fun m => m.seq == seq with
      | some m =>
        let kind := if m.toHost then accRead else accWrite
        let room := match SMap.find s.bufs m.slot with | some b => decide (m.off + m.len ≤ b.len) | none => false
        if !room || m.space == .mgmt || (hostBar s m.space m.addr m.len kind).isSome then s
        else tearHost s seq m.space m.addr m.len (moveData m) which
      | none => s)
    | _ => s

/-- MOVE_COMPLETE (R392): the copy's bytes are in place and NOTIFY 0x0C is sent; an empty slot, or a range beyond the slot,
completes with status 1 and moves nothing, and so does a move that a page refuses, with a record of the violation
(R320, R326). -/
def execMoveComplete (seq : Nat) (s : State) : Res :=
  match s.moves.find? fun m => m.seq == seq with
  | none => .next s
  | some m =>
    let kind := if m.toHost then accRead else accWrite
    let done := { s with moves := s.moves.erase m }
    let room := match SMap.find s.bufs m.slot with | some b => decide (m.off + m.len ≤ b.len) | none => false
    if !room || m.space == .mgmt then .next (toHost done (.moveDone seq 1 []))
    else
      let r := hostReady s seq m.space m.addr m.len kind (moveData m)
      let t := { r.1 with moves := r.1.moves.erase m }
      if !r.2 then .next r.1
      else if (hostBar t m.space m.addr m.len kind).isSome then
        .next (toHost (hostRefused (untorn t seq) m.space m.addr m.len kind) (.moveDone seq 1 []))
      else if m.toHost then
        .next (toHost { untorn t seq with free := t.free + m.len } (.moveDone seq 0 (hostLoad t seq m.space m.addr m.len)))
      else
        let d := (List.range m.len).map fun i => (m.data[i]?).getD 0
        .next (toHost (hostStore t seq m.space m.addr d) (.moveDone seq 0 []))

/-- TRANSPORT_ACK (R392): the host has a message. -/
def execTransportAck (seq : Nat) (s : State) : Res := .next { s with hostOut := s.hostOut.filter fun m => m.seq != seq }

/-- TRANSPORT_RESEND (R392): a message not acknowledged is sent again every 20 µs. -/
def execTransportResend (seq : Nat) (s : State) : Res :=
  match s.hostOut.find? fun m => m.seq == seq with
  | none => .next s
  | some m =>
    if s.now < m.sentAt + 20000 then .next s
    else .next (send { s with hostOut := s.hostOut.map fun x => if x.seq == seq then { x with sentAt := s.now } else x } m.msg)

end Sys2Proof.Machine
end

