-- ==== Sys2Proof/Machine/Dispatch.lean ====
section
/-!
DEFINITION. One arm for each operation: a direct call of its meaning.
-/
namespace Sys2Proof.Machine

def exec (i : Instr) (s : State) : Host.Outcome State Fault Refusal :=
  match i with
  | .vadd o => Sys2Proof.Machine.execVadd o s
  | .vaddLi o => Sys2Proof.Machine.execVaddLi o s
  | .vsub o => Sys2Proof.Machine.execVsub o s
  | .vneg o => Sys2Proof.Machine.execVneg o s
  | .vabs o => Sys2Proof.Machine.execVabs o s
  | .vmul o => Sys2Proof.Machine.execVmul o s
  | .vmulLi o => Sys2Proof.Machine.execVmulLi o s
  | .vmulh o => Sys2Proof.Machine.execVmulh o s
  | .vmulw o => Sys2Proof.Machine.execVmulw o s
  | .vmad o => Sys2Proof.Machine.execVmad o s
  | .vdiv o => Sys2Proof.Machine.execVdiv o s
  | .vrem o => Sys2Proof.Machine.execVrem o s
  | .vmin o => Sys2Proof.Machine.execVmin o s
  | .vminLi o => Sys2Proof.Machine.execVminLi o s
  | .vmax o => Sys2Proof.Machine.execVmax o s
  | .vmaxLi o => Sys2Proof.Machine.execVmaxLi o s
  | .vabsd o => Sys2Proof.Machine.execVabsd o s
  | .vand o => Sys2Proof.Machine.execVand o s
  | .vandLi o => Sys2Proof.Machine.execVandLi o s
  | .vor o => Sys2Proof.Machine.execVor o s
  | .vorLi o => Sys2Proof.Machine.execVorLi o s
  | .vxor o => Sys2Proof.Machine.execVxor o s
  | .vxorLi o => Sys2Proof.Machine.execVxorLi o s
  | .vandn o => Sys2Proof.Machine.execVandn o s
  | .vnot o => Sys2Proof.Machine.execVnot o s
  | .vshl o => Sys2Proof.Machine.execVshl o s
  | .vshlLi o => Sys2Proof.Machine.execVshlLi o s
  | .vshr o => Sys2Proof.Machine.execVshr o s
  | .vshrLi o => Sys2Proof.Machine.execVshrLi o s
  | .vsar o => Sys2Proof.Machine.execVsar o s
  | .vsarLi o => Sys2Proof.Machine.execVsarLi o s
  | .vrot o => Sys2Proof.Machine.execVrot o s
  | .vrotLi o => Sys2Proof.Machine.execVrotLi o s
  | .vpopc o => Sys2Proof.Machine.execVpopc o s
  | .vclz o => Sys2Proof.Machine.execVclz o s
  | .vctz o => Sys2Proof.Machine.execVctz o s
  | .vbrev o => Sys2Proof.Machine.execVbrev o s
  | .vbfx o => Sys2Proof.Machine.execVbfx o s
  | .vbfi o => Sys2Proof.Machine.execVbfi o s
  | .vbytp o => Sys2Proof.Machine.execVbytp o s
  | .vfadd o => Sys2Proof.Machine.execVfadd o s
  | .vfsub o => Sys2Proof.Machine.execVfsub o s
  | .vfmul o => Sys2Proof.Machine.execVfmul o s
  | .vfma o => Sys2Proof.Machine.execVfma o s
  | .vfdiv o => Sys2Proof.Machine.execVfdiv o s
  | .vfsqrt o => Sys2Proof.Machine.execVfsqrt o s
  | .vfrcp o => Sys2Proof.Machine.execVfrcp o s
  | .vfrsq o => Sys2Proof.Machine.execVfrsq o s
  | .vfmin o => Sys2Proof.Machine.execVfmin o s
  | .vfmax o => Sys2Proof.Machine.execVfmax o s
  | .vfcmp o => Sys2Proof.Machine.execVfcmp o s
  | .vfcls o => Sys2Proof.Machine.execVfcls o s
  | .vfex2 o => Sys2Proof.Machine.execVfex2 o s
  | .vflg2 o => Sys2Proof.Machine.execVflg2 o s
  | .vfsin o => Sys2Proof.Machine.execVfsin o s
  | .vfcos o => Sys2Proof.Machine.execVfcos o s
  | .vftnh o => Sys2Proof.Machine.execVftnh o s
  | .vfcvt o => Sys2Proof.Machine.execVfcvt o s
  | .vfrnd o => Sys2Proof.Machine.execVfrnd o s
  | .vsadd o => Sys2Proof.Machine.execVsadd o s
  | .vssub o => Sys2Proof.Machine.execVssub o s
  | .vsmul o => Sys2Proof.Machine.execVsmul o s
  | .vsdiv o => Sys2Proof.Machine.execVsdiv o s
  | .vscmp o => Sys2Proof.Machine.execVscmp o s
  | .vsexp o => Sys2Proof.Machine.execVsexp o s
  | .vsln o => Sys2Proof.Machine.execVsln o s
  | .vscvt o => Sys2Proof.Machine.execVscvt o s
  | .vslvl o => Sys2Proof.Machine.execVslvl o s
  | .vcmp o => Sys2Proof.Machine.execVcmp o s
  | .vcmpLi o => Sys2Proof.Machine.execVcmpLi o s
  | .vsel o => Sys2Proof.Machine.execVsel o s
  | .vmov o => Sys2Proof.Machine.execVmov o s
  | .vmovi o => Sys2Proof.Machine.execVmovi o s
  | .vplog o => Sys2Proof.Machine.execVplog o s
  | .vcvt o => Sys2Proof.Machine.execVcvt o s
  | .vpack o => Sys2Proof.Machine.execVpack o s
  | .vunpk o => Sys2Proof.Machine.execVunpk o s
  | .vshfl o => Sys2Proof.Machine.execVshfl o s
  | .vshfli o => Sys2Proof.Machine.execVshfli o s
  | .vbcast o => Sys2Proof.Machine.execVbcast o s
  | .vrdc o => Sys2Proof.Machine.execVrdc o s
  | .vrdcFloat o => Sys2Proof.Machine.execVrdcFloat o s
  | .vscan o => Sys2Proof.Machine.execVscan o s
  | .vscanFloat o => Sys2Proof.Machine.execVscanFloat o s
  | .vmatch o => Sys2Proof.Machine.execVmatch o s
  | .vld o => Sys2Proof.Machine.execVld o s
  | .vst o => Sys2Proof.Machine.execVst o s
  | .vlds o => Sys2Proof.Machine.execVlds o s
  | .vsts o => Sys2Proof.Machine.execVsts o s
  | .vatm o => Sys2Proof.Machine.execVatm o s
  | .vatms o => Sys2Proof.Machine.execVatms o s
  | .vred o => Sys2Proof.Machine.execVred o s
  | .vprf o => Sys2Proof.Machine.execVprf o s
  | .qzero o => Sys2Proof.Machine.execQzero o s
  | .qwide o => Sys2Proof.Machine.execQwide o s
  | .qnarr o => Sys2Proof.Machine.execQnarr o s
  | .uadd o => Sys2Proof.Machine.execUadd o s
  | .uaddUi o => Sys2Proof.Machine.execUaddUi o s
  | .usub o => Sys2Proof.Machine.execUsub o s
  | .umul o => Sys2Proof.Machine.execUmul o s
  | .umulUi o => Sys2Proof.Machine.execUmulUi o s
  | .umulh o => Sys2Proof.Machine.execUmulh o s
  | .udiv o => Sys2Proof.Machine.execUdiv o s
  | .urem o => Sys2Proof.Machine.execUrem o s
  | .uand o => Sys2Proof.Machine.execUand o s
  | .uandUi o => Sys2Proof.Machine.execUandUi o s
  | .uor o => Sys2Proof.Machine.execUor o s
  | .uorUi o => Sys2Proof.Machine.execUorUi o s
  | .uxor o => Sys2Proof.Machine.execUxor o s
  | .uxorUi o => Sys2Proof.Machine.execUxorUi o s
  | .uandn o => Sys2Proof.Machine.execUandn o s
  | .ushl o => Sys2Proof.Machine.execUshl o s
  | .ushlUi o => Sys2Proof.Machine.execUshlUi o s
  | .ushr o => Sys2Proof.Machine.execUshr o s
  | .ushrUi o => Sys2Proof.Machine.execUshrUi o s
  | .usar o => Sys2Proof.Machine.execUsar o s
  | .usarUi o => Sys2Proof.Machine.execUsarUi o s
  | .umin o => Sys2Proof.Machine.execUmin o s
  | .uminUi o => Sys2Proof.Machine.execUminUi o s
  | .umax o => Sys2Proof.Machine.execUmax o s
  | .umaxUi o => Sys2Proof.Machine.execUmaxUi o s
  | .ucmp o => Sys2Proof.Machine.execUcmp o s
  | .ucmpUi o => Sys2Proof.Machine.execUcmpUi o s
  | .usel o sc => Sys2Proof.Machine.execUsel o sc s
  | .umov o => Sys2Proof.Machine.execUmov o s
  | .upopc o => Sys2Proof.Machine.execUpopc o s
  | .uclz o => Sys2Proof.Machine.execUclz o s
  | .umovi sd imm => Sys2Proof.Machine.execUmovi sd imm s
  | .ulit sd lo hi => Sys2Proof.Machine.execUlit sd lo hi s
  | .uld o => Sys2Proof.Machine.execUld o s
  | .ust o => Sys2Proof.Machine.execUst o s
  | .uatm o => Sys2Proof.Machine.execUatm o s
  | .ulds o => Sys2Proof.Machine.execUlds o s
  | .usts o => Sys2Proof.Machine.execUsts o s
  | .uvote sd p mode => Sys2Proof.Machine.execUvote sd p mode s
  | .ulaneGet sd va sb => Sys2Proof.Machine.execUlaneGet sd va sb s
  | .ulanePut vd sa sb => Sys2Proof.Machine.execUlanePut vd sa sb s
  | .ubr p off => Sys2Proof.Machine.execUbr p off s
  | .ubrz sel sa off => Sys2Proof.Machine.execUbrz sel sa off s
  | .ubrnz sel sa off => Sys2Proof.Machine.execUbrnz sel sa off s
  | .brv p off => Sys2Proof.Machine.execBrv p off s
  | .brvDivergent p off dv => Sys2Proof.Machine.execBrvDivergent p off dv s
  | .ujmp off => Sys2Proof.Machine.execUjmp off s
  | .call l off => Sys2Proof.Machine.execCall l off s
  | .calli vl sa => Sys2Proof.Machine.execCalli vl sa s
  | .ret va => Sys2Proof.Machine.execRet va s
  | .dispatch va => Sys2Proof.Machine.execDispatch va s
  | .dret => Sys2Proof.Machine.execDret s
  | .uloop cnt last => Sys2Proof.Machine.execUloop cnt last s
  | .exit => Sys2Proof.Machine.execExit s
  | .yield => Sys2Proof.Machine.execYield s
  | .elect sd p => Sys2Proof.Machine.execElect sd p s
  | .nop => Sys2Proof.Machine.execNop s
  | .spawn sa inc => Sys2Proof.Machine.execSpawn sa inc s
  | .binit sa sb scope => Sys2Proof.Machine.execBinit sa sb scope s
  | .arrive sd sa cnt rel => Sys2Proof.Machine.execArrive sd sa cnt rel s
  | .bexpect o arr rel => Sys2Proof.Machine.execBexpect o arr rel s
  | .waitph sa sb kind acq => Sys2Proof.Machine.execWaitph sa sb kind acq s
  | .waitphComplete g lane => Sys2Proof.Machine.execWaitphComplete g lane s
  | .fence scope => Sys2Proof.Machine.execFence scope s
  | .tladv o => Sys2Proof.Machine.execTladv o s
  | .tcopyLd o => Sys2Proof.Machine.execTcopyLd o s
  | .tcopySt o => Sys2Proof.Machine.execTcopySt o s
  | .tkick o ctx => Sys2Proof.Machine.execTkick o ctx s
  | .txfer o => Sys2Proof.Machine.execTxfer o s
  | .txferAbort sd sa ctx => Sys2Proof.Machine.execTxferAbort sd sa ctx s
  | .tmma o => Sys2Proof.Machine.execTmma o s
  | .tmmas o => Sys2Proof.Machine.execTmmas o s
  | .tcancel sd sa ctx => Sys2Proof.Machine.execTcancel sd sa ctx s
  | .tprobe sd ctx => Sys2Proof.Machine.execTprobe sd ctx s
  | .uget sd num => Sys2Proof.Machine.execUget sd num s
  | .uset sd num => Sys2Proof.Machine.execUset sd num s
  | .cacheL1drop sa sb => Sys2Proof.Machine.execCacheL1drop sa sb s
  | .cacheL2fetch sa sb => Sys2Proof.Machine.execCacheL2fetch sa sb s
  | .cacheFarhint sa sb => Sys2Proof.Machine.execCacheFarhint sa sb s
  | .cacheZero sa sb => Sys2Proof.Machine.execCacheZero sa sb s
  | .pageq o => Sys2Proof.Machine.execPageq o s
  | .trap code => Sys2Proof.Machine.execTrap code s
  | .eret => Sys2Proof.Machine.execEret s
  | .bkpt code => Sys2Proof.Machine.execBkpt code s
  | .eventWindowExpire g cls => Sys2Proof.Machine.execEventWindowExpire g cls s
  | .creq fd port peerDev peerPort => Sys2Proof.Machine.execCreq fd port peerDev peerPort s
  | .cwait fd port st t off => Sys2Proof.Machine.execCwait fd port st t off s
  | .cwaitComplete c => Sys2Proof.Machine.execCwaitComplete c s
  | .cwaitTimeout c => Sys2Proof.Machine.execCwaitTimeout c s
  | .cuse fd port rank comm => Sys2Proof.Machine.execCuse fd port rank comm s
  | .crel fd port => Sys2Proof.Machine.execCrel fd port s
  | .cstat fd port => Sys2Proof.Machine.execCstat fd port s
  | .emsg fd fa dst tag => Sys2Proof.Machine.execEmsg fd fa dst tag s
  | .emsgTimeout c => Sys2Proof.Machine.execEmsgTimeout c s
  | .erecv fd fa tag off => Sys2Proof.Machine.execErecv fd fa tag off s
  | .erecvTimeout c => Sys2Proof.Machine.execErecvTimeout c s
  | .fmov fd k => Sys2Proof.Machine.execFmov fd k s
  | .fadd fd fa o => Sys2Proof.Machine.execFadd fd fa o s
  | .fsub fd fa o => Sys2Proof.Machine.execFsub fd fa o s
  | .fcmp fd fa o => Sys2Proof.Machine.execFcmp fd fa o s
  | .fbr off => Sys2Proof.Machine.execFbr off s
  | .fbrc z fa sel off => Sys2Proof.Machine.execFbrc z fa sel off s
  | .tlsig val => Sys2Proof.Machine.execTlsig val s
  | .tlwait fa val => Sys2Proof.Machine.execTlwait fa val s
  | .tlwaitComplete c => Sys2Proof.Machine.execTlwaitComplete c s
  | .ftime fd => Sys2Proof.Machine.execFtime fd s
  | .fint fa code => Sys2Proof.Machine.execFint fa code s
  | .fnop => Sys2Proof.Machine.execFnop s
  | .fhalt err fa => Sys2Proof.Machine.execFhalt err fa s
  | .launch q => Sys2Proof.Machine.execLaunch q s
  | .script q => Sys2Proof.Machine.execScript q s
  | .scriptForward q => Sys2Proof.Machine.execScriptForward q s
  | .wait q => Sys2Proof.Machine.execWait q s
  | .waitRelease q => Sys2Proof.Machine.execWaitRelease q s
  | .signal q => Sys2Proof.Machine.execSignal q s
  | .teamAdmit die => Sys2Proof.Machine.execTeamAdmit die s
  | .residentAdmit launch => Sys2Proof.Machine.execResidentAdmit launch s
  | .dieQueueSteal die victim => Sys2Proof.Machine.execDieQueueSteal die victim s
  | .workerFormation g => Sys2Proof.Machine.execWorkerFormation g s
  | .dispatchLateQueue g lane => Sys2Proof.Machine.execDispatchLateQueue g lane s
  | .gangOverdue g => Sys2Proof.Machine.execGangOverdue g s
  | .yieldBound g => Sys2Proof.Machine.execYieldBound g s
  | .sliceEnd core => Sys2Proof.Machine.execSliceEnd core s
  | .sliceIdleTimeout core => Sys2Proof.Machine.execSliceIdleTimeout core s
  | .quiesceTimeout team => Sys2Proof.Machine.execQuiesceTimeout team s
  | .saveComplete team => Sys2Proof.Machine.execSaveComplete team s
  | .teamResume team core => Sys2Proof.Machine.execTeamResume team core s
  | .gangExitComplete g => Sys2Proof.Machine.execGangExitComplete g s
  | .teamRetire team => Sys2Proof.Machine.execTeamRetire team s
  | .teamKill team => Sys2Proof.Machine.execTeamKill team s
  | .gangHostResume r => Sys2Proof.Machine.execGangHostResume r s
  | .tokenReservationPaid core => Sys2Proof.Machine.execTokenReservationPaid core s
  | .ringRevolution die => Sys2Proof.Machine.execRingRevolution die s
  | .budgetInterval die => Sys2Proof.Machine.execBudgetInterval die s
  | .classTransitionEnd island => Sys2Proof.Machine.execClassTransitionEnd island s
  | .islandDrained die => Sys2Proof.Machine.execIslandDrained die s
  | .unitGate core quarter cls => Sys2Proof.Machine.execUnitGate core quarter cls s
  | .thermalReading die temp => Sys2Proof.Machine.execThermalReading die temp s
  | .powerRemoval => Sys2Proof.Machine.execPowerRemoval s
  | .loadDataReturn g id data refusal => Sys2Proof.Machine.execLoadDataReturn g id data refusal s
  | .storeVisible core g idx => Sys2Proof.Machine.execStoreVisible core g idx s
  | .matrixArrayStart pair => Sys2Proof.Machine.execMatrixArrayStart pair s
  | .matrixRetire pair => Sys2Proof.Machine.execMatrixRetire pair s
  | .matrixOperandFault pair => Sys2Proof.Machine.execMatrixOperandFault pair s
  | .copyBytesLand core ctx num first count => Sys2Proof.Machine.execCopyBytesLand core ctx num first count s
  | .copyComplete core ctx num => Sys2Proof.Machine.execCopyComplete core ctx num s
  | .copyFault core ctx num => Sys2Proof.Machine.execCopyFault core ctx num s
  | .reservationRequestReceive die path msg => Sys2Proof.Machine.execReservationRequestReceive die path msg s
  | .reservationAnswerReceive die path peer msg credits => Sys2Proof.Machine.execReservationAnswerReceive die path peer msg credits s
  | .reservationResend die path peer ctx commid => Sys2Proof.Machine.execReservationResend die path peer ctx commid s
  | .chunkBoundary die path => Sys2Proof.Machine.execChunkBoundary die path s
  | .chunkReceive die path sender ch => Sys2Proof.Machine.execChunkReceive die path sender ch s
  | .chunkApply die idx => Sys2Proof.Machine.execChunkApply die idx s
  | .chunkReplyReceive die path peer r credit combined => Sys2Proof.Machine.execChunkReplyReceive die path peer r credit combined s
  | .chunkResend die path peer ctx commid cseq => Sys2Proof.Machine.execChunkResend die path peer ctx commid cseq s
  | .circuitTimeout core ctx num => Sys2Proof.Machine.execCircuitTimeout core ctx num s
  | .abortTokenReceive die ctx commid attempt sender descr => Sys2Proof.Machine.execAbortTokenReceive die ctx commid attempt sender descr s
  | .abortAckReceive core ctx num dev => Sys2Proof.Machine.execAbortAckReceive core ctx num dev s
  | .requestServe die sender h => Sys2Proof.Machine.execRequestServe die sender h s
  | .remoteAccessServe die sender r => Sys2Proof.Machine.execRemoteAccessServe die sender r s
  | .replyReceive r => Sys2Proof.Machine.execReplyReceive r s
  | .requestRetransmit g serial => Sys2Proof.Machine.execRequestRetransmit g serial s
  | .fullRetry g serial => Sys2Proof.Machine.execFullRetry g serial s
  | .ackfSend g dest => Sys2Proof.Machine.execAckfSend g dest s
  | .ackfReceive die ident floor => Sys2Proof.Machine.execAckfReceive die ident floor s
  | .requesterRecordExpire die ident => Sys2Proof.Machine.execRequesterRecordExpire die ident s
  | .incarnationAnnounce dev inc => Sys2Proof.Machine.execIncarnationAnnounce dev inc s
  | .warmRestart => Sys2Proof.Machine.execWarmRestart s
  | .coldRestart => Sys2Proof.Machine.execColdRestart s
  | .boot => Sys2Proof.Machine.execBoot s
  | .tlbMiss core ctx page => Sys2Proof.Machine.execTlbMiss core ctx page s
  | .walkComplete die ctx page => Sys2Proof.Machine.execWalkComplete die ctx page s
  | .invalidateDone => Sys2Proof.Machine.execInvalidateDone s
  | .pageMove frame home res => Sys2Proof.Machine.execPageMove frame home res s
  | .storageError site => Sys2Proof.Machine.execStorageError site s
  | .checkerMismatch site => Sys2Proof.Machine.execCheckerMismatch site s
  | .rollback team => Sys2Proof.Machine.execRollback team s
  | .lightDetected port => Sys2Proof.Machine.execLightDetected port s
  | .wavelengthLock port => Sys2Proof.Machine.execWavelengthLock port s
  | .lockTimeout port => Sys2Proof.Machine.execLockTimeout port s
  | .trainingComplete port => Sys2Proof.Machine.execTrainingComplete port s
  | .trainingTimeout port => Sys2Proof.Machine.execTrainingTimeout port s
  | .lightLost port => Sys2Proof.Machine.execLightLost port s
  | .flitCrcError e => Sys2Proof.Machine.execFlitCrcError e s
  | .drainEnd port => Sys2Proof.Machine.execDrainEnd port s
  | .drainTimeout port => Sys2Proof.Machine.execDrainTimeout port s
  | .cmGrant m => Sys2Proof.Machine.execCmGrant m s
  | .cmRefuse m => Sys2Proof.Machine.execCmRefuse m s
  | .cmDrop m => Sys2Proof.Machine.execCmDrop m s
  | .scriptMessageReceive m => Sys2Proof.Machine.execScriptMessageReceive m s
  | .fsqAckReceive ident serial => Sys2Proof.Machine.execFsqAckReceive ident serial s
  | .fsqMessageResend idx => Sys2Proof.Machine.execFsqMessageResend idx s
  | .write seq space addr data => Sys2Proof.Machine.execWrite seq space addr data s
  | .read seq space addr len => Sys2Proof.Machine.execRead seq space addr len s
  | .move seq space addr slot off len toHost data => Sys2Proof.Machine.execMove seq space addr slot off len toHost data s
  | .moveComplete seq => Sys2Proof.Machine.execMoveComplete seq s
  | .transportAck seq => Sys2Proof.Machine.execTransportAck seq s
  | .transportResend seq => Sys2Proof.Machine.execTransportResend seq s
  | .mgmtRegisterWrite off val => Sys2Proof.Machine.execMgmtRegisterWrite off val s
  | .queueSkip q => Sys2Proof.Machine.execQueueSkip q s
  | .queueDisable q => Sys2Proof.Machine.execQueueDisable q s
  | .verdictParse q => Sys2Proof.Machine.execVerdictParse q s
  | .verdictSkip q => Sys2Proof.Machine.execVerdictSkip q s
  | .poolWrite island val => Sys2Proof.Machine.execPoolWrite island val s
  | .pacingDisable => Sys2Proof.Machine.execPacingDisable s
  | .invalidateGo val => Sys2Proof.Machine.execInvalidateGo val s
  | .pageFaultRetry id => Sys2Proof.Machine.execPageFaultRetry id s
  | .pageFaultRefuse id => Sys2Proof.Machine.execPageFaultRefuse id s
  | .scriptReset c => Sys2Proof.Machine.execScriptReset c s
  | .scriptTimelineWrite c val => Sys2Proof.Machine.execScriptTimelineWrite c val s
  | .portArm port peerDev peerPort => Sys2Proof.Machine.execPortArm port peerDev peerPort s
  | .portRelease port => Sys2Proof.Machine.execPortRelease port s
  | .portBind port ctx commid rank => Sys2Proof.Machine.execPortBind port ctx commid rank s
  | .rindExtensionGrant die amount => Sys2Proof.Machine.execRindExtensionGrant die amount s
  | .attestationNonce nonce => Sys2Proof.Machine.execAttestationNonce nonce s
  | .dbgResume core => Sys2Proof.Machine.execDbgResume core s
  | .dbgStep core slot => Sys2Proof.Machine.execDbgStep core slot s
  | .stepEnd core => Sys2Proof.Machine.execStepEnd core s
  | .stopArrive core => Sys2Proof.Machine.execStopArrive core s
  | .sampleTrigger core => Sys2Proof.Machine.execSampleTrigger core s
  | .sampleComplete core id => Sys2Proof.Machine.execSampleComplete core id s
  | .attestationEvidenceSigned => Sys2Proof.Machine.execAttestationEvidenceSigned s
  | .sliOccupancyEnd core quarter => Sys2Proof.Machine.execSliOccupancyEnd core quarter s
  | .pageMoveDone frame => Sys2Proof.Machine.execPageMoveDone frame s

end Sys2Proof.Machine
end

