-- ==== Sys2Proof/Machine/Reorder.lean ====
section
/-!
DEFINITION. Loads that are performed out of their order (R105, R155, R158, R159; log 44): bytes that a lane reads ahead of the
load that takes them, and loads that read their bytes again after later accesses.
-/
namespace Sys2Proof.Machine

/-- A lane load or store that is about to issue: its operands and its accesses. -/
structure LaneMem where
  load : Bool
  o    : Lm
  accs : List LaneAcc
  deriving DecidableEq, Repr

/-- The lane load or store that an instruction is; none for one whose accesses are refused. -/
def laneMem (s : State) (c : Issue) (i : Instr) : Option LaneMem :=
  let mk := fun (load : Bool) (o : Lm) (r : Chk (List LaneAcc)) =>
    match r with | .ok as_ => some (LaneMem.mk load o as_) | .error _ => none
  let act := fun (o : Lm) => guardLanes (gangOf s c.g) o.lead c.run
  match i with
  | .vld o => mk true o (vldAccs o s c (act o))
  | .vlds o => mk true o (spadAccs s c o (act o))
  | .vst o => mk false o (vstAccs o s c (bit0 o.lead (act o)))
  | .vsts o => mk false o (spadAccs s c o (act o))
  | _ => none

/-- Whether bytes read ahead outlive an instruction: one that neither orders accesses nor commands an engine nor is an atomic or
a uniform access. -/
def passesReads (ws : List Nat) : Bool :=
  match (afterLeads ws).2 with
  | [] => false
  | w :: _ =>
    let op := wOp w
    if wUni w then op ≤ 0x24 || (0x30 ≤ op && op ≤ 0x3D) || (0x44 ≤ op && op ≤ 0x47) || op == 0x70
    else !(0x74 ≤ op && op ≤ 0x76)

/-- Whether an access is naturally aligned, and so single-copy atomic (R155). -/
def wholeAcc (va : Word) (n : Nat) : Bool := [1, 2, 4, 8].contains n && va.toNat % n == 0

/-- The accesses of a lane. -/
def LaneMem.ofLane (m : LaneMem) (l : Nat) : List LaneAcc := m.accs.filter fun a => a.lane == l

/-- What later accesses of its lane leave open of a load that may still read its bytes again: they must not be to its bytes, and
loads from a scratchpad keep their lane's order (R155, R159). -/
def goesPast (mine : List LaneAcc) (r : OpenRead) : Option OpenRead :=
  if mine.isEmpty then some r
  else if mine.any (fun a => a.locs.any r.locs.contains) || r.locs.any (fun l => (spadIdx l).isSome) then none
  else some { r with passed := true }

/-- What a load or store leaves open of an earlier load; it must not name its register (R157). -/
def openAfter (m : LaneMem) (r : OpenRead) : Option OpenRead :=
  if r.reg == m.o.a.val || r.reg == m.o.d.val then none else goesPast (m.ofLane r.lane) r

/-- What is left of a gang's reads out of order when it is about to issue an instruction. Bytes read ahead that a load of
their lane has gone past are for the next instruction alone: a later one could depend on that load (R157). -/
def orderReads (s : State) (c : Issue) (ws : List Nat) (i : Instr) : State :=
  let G := gangOf s c.g
  if G.early.isEmpty && G.openRds.isEmpty then s
  else
    let m := laneMem s c i
    let early := if !passesReads ws then []
      else match m with
        | some m => if m.load then G.early else G.early.filter fun e => e.passed.isNone
        | none => G.early.filter fun e => e.passed.isNone
    let open_ := match m with | some m => G.openRds.filterMap (openAfter m) | none => []
    modGang s c.g fun G => { G with early := early, openRds := open_ }

/-- The bytes of an access with those that were read ahead in their place: all of them or none where the access is single-copy
atomic (R155). -/
def aheadBytes (e : EarlyRead) (a : LaneAcc) (bs : List Byte) : Option (List Byte) :=
  let at_ := fun (l : Loc) => (((e.locs.zip e.bytes).find? fun p => p.1 == l).map (·.2))
  if a.fmt != 0 || a.far then none
  else if wholeAcc a.va a.locs.length then a.locs.mapM at_
  else if a.locs.any e.locs.contains then some ((a.locs.zip bs).map fun p => (at_ p.1).getD p.2)
  else none

/-- Bytes read ahead meet a load that their lane has issued: the load takes them, or they are lost where it reads some of them
now, or it goes past them. -/
def meetLoad (m : LaneMem) (was : LaneAcc → List Byte) (r : Gang × List EarlyRead) (e : EarlyRead) : Gang × List EarlyRead :=
  match m.ofLane e.lane with
  | [] => (r.1, if e.passed.isNone then r.2 ++ [e] else r.2)
  | a :: _ =>
    let free := match e.passed with | none => true | some d => !e.stale && d != m.o.a.val
    match (if free then aheadBytes e a (was a) else none) with
    | some bs => (wrV r.1 m.o.d.val a.lane (m.o.w.extend (leNat bs)) (2 ^ 64 - 1), r.2)
    | none => (r.1, if a.locs.any e.locs.contains || e.passed.isSome then r.2 else r.2 ++ [{ e with passed := some m.o.d.val }])

/-- A load of gang `c.g` that has issued from state `s` takes what its lanes have read ahead (R159). -/
def takeReads (s t : State) (c : Issue) (i : Instr) : State :=
  let G := gangOf t c.g
  if G.early.isEmpty then t
  else match laneMem s c i with
    | some m =>
      if !m.load then t
      else
        let r := G.early.foldl (meetLoad m fun a => (gangBytes s c.g a.locs).getD []) (G, [])
        setGang t c.g { r.1 with early := r.2 }
    | none => t

/-- Whether a gang may perform a read now that belongs to no instruction under way. -/
def mayRead (s : State) (g : Nat) : Bool :=
  let G := gangOf s g
  (SMap.find s.gangs g).isSome && G.frozen.isNone && !G.stopped && ((teamOf s (teamKey g)).st == .running) && !G.loading
    && (match G.pf with | .none => true | _ => false)

/-- Whether bytes may be read out of order: bytes of this device's memory and scratchpads that hold no poison. -/
def plainLocs (s : State) (locs : List Loc) : Bool :=
  locs.all fun l => (match l with | .remote .. => false | _ => true) && (locPoison s l).isNone

/-- A lane reads `n` bytes ahead of a load (R159), unless a thread of its gang waits or one of its operations acquires. -/
def readAhead (s : State) (g lane : Nat) (va : Word) (n : Nat) : State :=
  let G := gangOf s g
  let a : LaneAcc := { lane := lane, va := va, locs := [], fmt := 0, sel := [] }
  match genBytes s g lane va accRead 5 n with
  | .error _ => s
  | .ok locs =>
    let a := { a with locs := locs }
    if !mayRead s g || (thr G lane).isNone || 8 < n || G.reqs.any (·.acq) || G.threads.any (fun t => t.2.wait != .none)
        || fmtAt s g lane va != 0 || a.onMmio s g || !plainLocs s locs then s
    else
      let e : EarlyRead := { lane := lane, locs := locs, bytes := (gangBytes s g locs).getD [], stale := false, passed := none }
      let seen := fun (r : OpenRead) => if r.lane == lane then goesPast [a] r else some r
      modGang (noteReads s (teamKey g) locs) g fun G => { G with early := G.early ++ [e], openRds := G.openRds.filterMap seen }

/-- The loads that a load which has issued from state `s` leaves open (R159). -/
def leaveOpen (s t : State) (c : Issue) (i : Instr) : State :=
  match laneMem s c i with
  | some m =>
    if !m.load then t
    else
      let as_ := m.accs.filter fun a => a.fmt == 0 && !a.onMmio s c.g && plainLocs s a.locs
      let new := as_.map fun a =>
        { lane := a.lane, reg := m.o.d.val, w := m.o.w, locs := a.locs, bytes := (gangBytes s c.g a.locs).getD [], va := a.va,
          passed := false : OpenRead }
      modGang t c.g fun G => { G with openRds := G.openRds ++ new }
  | none => t

/-- An open load reads the bytes that the bits of `which` name again, all of them where it is single-copy atomic (R155,
R159). -/
def readAgain (s : State) (g k which : Nat) : State :=
  let G := gangOf s g
  match G.openRds[k]? with
  | none => s
  | some r =>
    if !mayRead s g || which == 0 || !plainLocs s r.locs then s
    else
      let now := (gangBytes s g r.locs).getD r.bytes
      let bs := if wholeAcc r.va r.locs.length then now
        else (r.bytes.zip now).zipIdx.map fun p => if bitOf which p.2 then p.1.2 else p.1.1
      modGang (noteReads s (teamKey g) r.locs) g fun G =>
        wrV { G with openRds := G.openRds.set k { r with bytes := bs } } r.reg r.lane (r.w.extend (leNat bs)) (2 ^ 64 - 1)

end Sys2Proof.Machine
end

