-- ==== Sys2Proof/Machine/Sched.lean ====
section
/-!
DEFINITION. What a step does around `exec`: which gang a quarter takes (R29, R231 to R234), which script word or event comes
next, and the clocks (log 2, log 3).
-/
namespace Sys2Proof.Machine

/-! ## The choice of a gang (R29, R231) -/

/-- A gang stands on core `c`, in quarter `q`. -/
def inQuarter (s : State) (c q g : Nat) : Bool :=
  let G := gangOf s g
  G.core == c && quarterOf G.slot == q && (teamOf s (teamKey g)).st != .saved

/-- The gangs of a quarter. -/
def quarterGangs (s : State) (c q : Nat) : List Nat := (s.gangs.filter fun e => inQuarter s c q e.1).map (·.1)

/-- A chain that goes on holds its quarter (R29). -/
def holdsQuarter (G : Gang) : Bool := midChain G

/-- Eligible (R231): a run may issue, and its next instruction did not have to wait when it was last tried, unless something
has happened since. -/
def canTake (s : State) (g : Nat) : Bool := gangReady s g && (gangOf s g).stallAt != s.progress + 1

/-- A gang's reservation is not paid yet: it is not ready (R266). -/
def unpaid (s : State) (g : Nat) : Bool :=
  (coreOf s (gangOf s g).core).resv.any fun r => r.holder == .gang g && r.paid < r.price

/-- The oldest of some gangs (R231). -/
def oldest (s : State) (gs : List Nat) : Option Nat :=
  gs.foldl (fun r g => match r with | none => some g | some b => if (gangOf s g).age < (gangOf s b).age then some g else r) none

/-- No other gang's chain holds the quarter. -/
def unheld (s : State) (gs : List Nat) (g : Nat) : Bool := gs.all fun h => h == g || !holdsQuarter (gangOf s h)

/-- Whether a gang can issue as far as its quarter goes: no other gang's chain holds it, and its reservation is paid. -/
def mayHave (s : State) (gs : List Nat) (g : Nat) : Bool := unheld s gs g && !unpaid s g

/-- The gang that must be chosen, when no chain holds the quarter and a gang is overdue (R231). -/
def mustTake (s : State) (gs : List Nat) : Option Nat :=
  if gs.any (fun h => holdsQuarter (gangOf s h)) then none
  else oldest s (gs.filter fun g => canTake s g && !unpaid s g && (gangOf s g).overdue)

/-- The class of a gang's next instruction (R231). -/
def nextClass (s : State) (g : Nat) : Option UnitClass :=
  match chooseRun (gangOf s g) with
  | none => none
  | some r => match fetchInstr s g r.1 with | .ok ws => classOf ws | .error _ => none

/-- The gang that quarter `q` of core `c` takes (R231): the oldest overdue gang, else the oldest ready gang of the current
class, else the oldest ready gang; where every gang had to wait, the oldest is tried again. -/
def quarterPick (s : State) (c q : Nat) : Option Nat :=
  let gs := quarterGangs s c q
  match mustTake s gs with
  | some g => some g
  | none =>
    let ready := gs.filter fun g => canTake s g && mayHave s gs g
    let cur := SMap.find (coreOf s c).curCls q
    match oldest s (ready.filter fun g => match nextClass s g, cur with | some k, some n => k.num == n | _, _ => false) with
    | some g => some g
    | none => match oldest s ready with
      | some g => some g
      | none => oldest s (gs.filter fun g => gangReady s g && mayHave s gs g)

/-- Whether gang `g` is the one that its quarter takes now (R231). -/
def mayTurn (s : State) (g : Nat) : Bool := quarterPick s (gangOf s g).core (quarterOf (gangOf s g).slot) == some g

/-- The quarters that hold gangs. -/
def busyQuarters (s : State) : List (Nat × Nat) :=
  s.gangs.foldl (fun r e =>
    let k := (e.2.core, quarterOf e.2.slot)
    if r.contains k then r else r ++ [k]) []

/-! ## One issue -/

/-- Whether gang `g`, still there, has issued between two states. -/
def didIssue (s t : State) (g : Nat) : Bool :=
  (SMap.find t.gangs g).isSome && (gangOf s g).issuedN < (gangOf t g).issuedN

/-- The current class of a gang's quarter, and its units' gates, after an issue (R231, R275). -/
def noteClass (s : State) (g : Nat) (k : Option UnitClass) : State :=
  match k with
  | none => s
  | some k =>
    let G := gangOf s g
    let q := quarterOf G.slot
    modCore s G.core fun C =>
      { C with curCls := SMap.put C.curCls q k.num, gated := SMap.erase C.gated (4 * q + k.num),
               unitAt := SMap.put C.unitAt (4 * q + k.num) (cyclesOf s G.core) }

/-- A gang that has taken a fault, or is frozen, has performed its loads. -/
def trapReads (s t : State) (g : Nat) : State :=
  if (SMap.find t.gangs g).isSome && ((gangOf t g).handler != (gangOf s g).handler || (gangOf t g).frozen.isSome)
  then modGang t g closeReads else t

/-- What follows from state `s` when the instruction `i`, of words `ws`, has been executed: its loads take what was read ahead
(R159), and the class (R231), the gates (R275) and the sampler (R388) take note of an issue. -/
def afterIssue (s t : State) (c : Issue) (ws : List Nat) (i : Instr) : State :=
  let t := trapReads s t c.g
  if didIssue s t c.g then noteIssue (noteClass (takeReads s t c i) c.g (classOf ws)) c.g c.run else t

/-- A state made from the next state of an answer. -/
def onNext (r : Res) (f : State → State) : Res :=
  match r with
  | .next s => .next (f s)
  | .fault x => .fault x
  | .refused x => .refused x

/-- Text that the look ahead of a lane-set instruction needs is served before the instruction issues, so that its chain holds
the quarter from its head on (R29); a page that is not to be had holds no member. -/
def serveAhead (s : State) (c : Issue) (ws : List Nat) : Option State :=
  let G := gangOf s c.g
  match (afterLeads ws).2 with
  | [] => none
  | w :: _ =>
    if wUni w || 0x70 ≤ wOp w || (loopDepth G != 0 && srGet G rLoopEnd == c.pc) then none
    else match lookAhead s c.g peekFuel (c.pc + BitVec.ofNat 64 (4 * ws.length)) with
      | .absent va => if G.pf == .refused (va.toNat / 2 ^ 16) then none else gangPage s c.g va.toNat accFetch
      | _ => none

/-- The next instruction of a run of gang `g` at `pc`: breakpoints (R379), fetch (R40), decoding (R42), its meaning. -/
def issueAt (s : State) (g : Nat) (pc : Word) (run : W32) : Res :=
  let c : Issue := { g := g, run := run, pc := pc, issued := false }
  let s := { s with cur := some c }
  match bpStop s g run pc with
  | some s => .next s
  | none =>
    let member := midRun (gangOf s g) run
    match fetchInstr s g pc with
    | .error h => .next (settle s c member h)
    | .ok ws =>
      match decode ws with
      | .error e => .next (trapHere s c member .illenc e.2 e.1 0xFF 0)
      | .ok i =>
        match serveAhead s c ws with
        | some t => .next t
        | none => onNext (exec i (orderReads s c ws i)) fun t => afterIssue (orderReads s c ws i) t c ws i

/-- The run that a gang's turn goes to issues (R231, R232). -/
def issueTurn (s : State) (g : Nat) : Res :=
  match chooseRun (gangOf s g) with
  | none => .next s
  | some (pc, run) => issueAt s g pc run

/-- What a gang's instruction has left when it could not issue: it waits. -/
def hasToWait (s t : State) (g : Nat) : Bool := !didIssue s t g && (gangOf t g).stallAt == t.progress + 1

/-- A second instruction in the cycle of one that has issued: where it would have to wait, for its operands or its tokens, it
does not issue in that cycle (R234, R265). -/
def inCycle (s : State) (g : Nat) (pc : Word) (run : W32) (f : State → State) : Res :=
  match issueAt s g pc run with
  | .next t => .next (if hasToWait s t g then s else f t)
  | r => r

/-! ## Quad packing (R234) -/

/-- The quads of a run. -/
def quadSet (m : W32) : List Nat := (List.range 8).filter fun q => (List.range 4).any fun i => hasLane m (4 * q + i)

/-- The words of a run's next instruction when it may be packed: lane-set, not cross-lane, not of the SLI class, not a member
of a latch chain. -/
def packable (s : State) (g : Nat) (pc : Word) : Option (List Nat) :=
  match fetchInstr s g pc with
  | .error _ => none
  | .ok ws =>
    match (afterLeads ws).2 with
    | [] => none
    | w :: _ =>
      let op := wOp w
      if wUni w || (0x50 ≤ op && op ≤ 0x57) || (0x38 ≤ op && op ≤ 0x40) || readsLatch ws
         || peekJoins s g (pc + BitVec.ofNat 64 (4 * ws.length)) then none
      else some ws

/-- The run that is packed with the head run: that of lowest PC among those with other quads. -/
def packRun (G : Gang) (head : W32) : Option (Word × W32) :=
  ((runPcs G).map fun p => (p, runAt G p)).find? fun r => (quadSet r.2).all fun q => !(quadSet head).contains q

/-- A run that is packed in a cycle: its PC, its threads, and whether its instruction is a load. -/
structure Packed where
  pc   : Word
  run  : W32
  load : Bool
  deriving DecidableEq, Repr

/-- The run of gang `g` that is packed with its head run (R29, R234). -/
def packWith (s : State) (g : Nat) : Option Packed :=
  let G := gangOf s g
  if G.single.isSome || holdsQuarter G then none
  else match chooseRun G with
    | none => none
    | some (pc, run) =>
      match packRun G run, packable s g pc with
      | some (pc2, run2), some _ =>
        (packable s g pc2).map fun ws =>
          { pc := pc2, run := run2, load := match (afterLeads ws).2 with | w :: _ => wOp w == 0x70 || wOp w == 0x72 | [] => false }
      | _, _ => none

/-- The stores from the `n`-th on that a gang's queue holds, and the state without them: those of the head run, which a packed
load does not see. -/
def hideStores (s : State) (g n : Nat) : List StoreEnt × State :=
  let q := (gangOf s g).storeQ
  (q.drop n, modGang s g fun G => { G with storeQ := q.take n })

/-- A cycle in which two runs issue together is a change of run for both (R28, R234). -/
def endChain (G : Gang) : Gang := { G with chain := none, chainEnd := .never }

/-- What a packed instruction leaves: the stores that it did not see stand in the queue again, before its own. -/
def packDone (q : List StoreEnt) (s : State) (g : Nat) : State :=
  let s := if (SMap.find s.gangs g).isSome then modGang s g fun G => endChain { G with storeQ := G.storeQ ++ q } else s
  pmcCount s (gangOf s g).core 5 1

/-- The packed run's instruction issues in the cycle of the head run's (R234), which began in state `s` and left `t`. Where the
station does not cover its price, or its operands are not ready, it does not (R265). -/
def issuePacked (s t : State) (g : Nat) : Res :=
  match packWith s g with
  | none => .next t
  | some p =>
    let G := gangOf t g
    if G.handler != (gangOf s g).handler || G.frozen.isSome || G.stopped || G.loading || runAt G p.pc &&& p.run != p.run then .next t
    else
      let h := if p.load then hideStores t g (gangOf s g).storeQ.length else ([], t)
      match issueAt (modGang h.2 g endChain) g p.pc p.run with
      | .next u => .next (if hasToWait t u g then t else packDone h.1 u g)
      | r => r

/-! ## Co-issue (R238) -/

/-- What a uniform instruction reads and writes among the registers that a lane-set instruction can name: the s register it
writes, the v and the p register it reads or writes. -/
structure UniDid where
  s : Option Nat
  v : Option Nat
  p : Option Nat
  deriving DecidableEq, Repr

/-- The registers of a uniform instruction that may co-issue, from its first word; none for CALL, CALLI, RET, DISPATCH, DRET and
EXIT, and for accesses to state registers, which lane-set instructions read and count in. -/
def uniDid (w : Nat) : Option UniDid :=
  let op := wOp w
  let d := fld w 18 6
  if !wUni w || [0x3E, 0x3F, 0x40, 0x41, 0x42, 0x44, 0x70, 0x71].contains op then none
  else if op == 0x30 then some ⟨some d, none, some (fld w 0 3)⟩
  else if op == 0x31 then some (if bitOf w 0 then ⟨none, some d, none⟩ else ⟨some d, some (fld w 12 6), none⟩)
  else if op == 0x3B || op == 0x3C then some ⟨none, none, some (fld w 21 3)⟩
  else if op == 0x46 then some ⟨some d, none, some (fld w 0 3)⟩
  else if op ≤ 0x24 || op == 0x28 || op == 0x2A || op == 0x2B || op == 0x55 || (0x60 ≤ op && op ≤ 0x66) || op == 0x73
  then some ⟨some d, none, none⟩
  else some ⟨none, none, none⟩

/-- Whether a uniform instruction is independent of the lane-set instruction before it (R238). -/
def independent (d : LaneDid) (u : UniDid) : Bool :=
  (match u.s with | some r => !d.sRead.contains r | none => true)
    && (match u.v with | some r => !d.vRead.contains r && d.vWrote != some r | none => true)
    && (match u.p with | some r => r == 7 || (!d.pRead.contains r && d.pWrote != some r) | none => true)

/-- The PC of the uniform instruction that co-issues with the instruction of `c`, which has issued from state `s` and left
`t`: it directly follows, of the same run, and is independent (R238). -/
def coWith (s t : State) (c : Issue) : Option Word :=
  match c.did with
  | none => none
  | some d =>
    let G := gangOf t c.g
    let fall := c.pc + BitVec.ofNat 64 d.len
    if G.handler != (gangOf s c.g).handler || G.frozen.isSome || G.stopped || G.loading || runAt G fall != c.run then none
    else match fetchInstr t c.g fall with
      | .ok (w :: _) => (match uniDid w with | some u => if independent d u then some fall else none | none => none)
      | _ => none

/-- The uniform instruction that co-issues with the one of `c` issues (R238); where the station does not cover it, it does
not (R265). -/
def coIssue (s t : State) (c : Issue) : Res :=
  match coWith s t c with
  | none => .next t
  | some pc => inCycle t c.g pc c.run id

/-! ## A turn -/

/-- Whether a gang is being stepped: it issues one instruction alone (R386). -/
def isStepped (s : State) (g : Nat) : Bool :=
  let G := gangOf s g
  match (coreOf s G.core).stepOf with | some r => r.slot == G.slot | none => false

/-- What issues in the cycle in which gang `g` has issued an instruction from state `s` and left `t`: the packed run's
instruction, and the uniform instruction that follows the first (R231, R234, R238). -/
def restOfCycle (s t : State) (g : Nat) : Res :=
  match t.cur with
  | none => .next t
  | some c =>
    if isStepped t g || !didIssue s t g then .next t
    else match issuePacked s t g with
      | .next u => if (SMap.find u.gangs g).isSome then coIssue s u c else .next u
      | r => r

/-- A gang's cycle (R231). -/
def gangCycle (s : State) (g : Nat) : Res :=
  match issueTurn s g with
  | .next t => restOfCycle s t g
  | r => r

/-- A turn in which a load stays open (R159). -/
def lateTurn (s : State) (g : Nat) : Res :=
  match chooseRun (gangOf s g) with
  | none => .next s
  | some (pc, run) =>
    let s := modGang s g fun G => { G with early := [] }
    let c : Issue := { g := g, run := run, pc := pc, issued := false }
    onNext (issueAt s g pc run) fun t =>
      if didIssue s t g && !(gangOf t g).loading then
        match fetchInstr s g pc with
        | .ok ws => (match decode ws with | .ok i => leaveOpen s t c i | .error _ => t)
        | .error _ => t
      else t

/-! ## What is due, and the step's end -/

/-- The cores that hold a gang or have anything under way. -/
def busyCores (s : State) : List Nat :=
  s.gangs.foldl (fun r e => if r.contains e.2.core then r else r ++ [e.2.core]) (s.cores.map (·.1))

/-- Events that the rules let wait no longer: a gang becomes overdue (R231), the yield bound is reached outside a chain
(R29, R233), a slice has had its instructions (R237), a thread waits at a barrier whose FAULT is set (R169), a timeline has reached
the value of a WAIT (R222), a step has ended (R386), a sample falls due (R388). -/
inductive Due where
  | overdue (g : Nat)
  | yieldBound (g : Nat)
  | sliceEnd (core : Nat)
  | waitFault (g lane : Nat)
  | waitRelease (q : Nat)
  | stepEnd (core : Nat)
  | sample (core : Nat)
  deriving DecidableEq, Repr

/-- A lane of a gang whose wait fails now (R169). -/
def failedWait (s : State) (e : Nat × Gang) : Option (Nat × Nat) :=
  (e.2.threads.find? fun t => match t.2.wait with
    | .phase .bar .. => (waitFault s e.1 t.1).isSome
    | .failed _ => !waitAway s e.1 t.1
    | _ => false).map fun t => (e.1, t.1)

/-- Whether the timeline of a queue's WAIT holds its value (R222). -/
def waitReached (s : State) (Q : CmdQueue) : Bool :=
  Q.waiting && cmdKind Q.cmd == 3 && match waitName s Q.ctx (cmdWord Q.cmd 1) with
    | .value x _ => (cmdWord Q.cmd 2).toNat ≤ x.toNat
    | _ => false

/-- What is due of a gang (R231, R233, R169). -/
def gangDue (s : State) : Option Due :=
  match s.gangs.findSome? (failedWait s) with
  | some e => some (.waitFault e.1 e.2)
  | none =>
    match s.gangs.find? fun e => 256 ≤ e.2.idle && !e.2.overdue && canTake s e.1 with
    | some e => some (.overdue e.1)
    | none => (s.gangs.find? fun e => 4096 ≤ e.2.turns && e.2.single.isNone && !holdsQuarter e.2 && 2 ≤ (runPcs e.2).length).map
        fun e => .yieldBound e.1

/-- What is due of a core or a queue (R237, R386, R388, R222). -/
def coreDue (s : State) : Option Due :=
  match s.cores.find? fun e => match e.2.stepOf with
    | some r => (match gangAt s e.1 r.slot with | some g => (gangOf s g).stopped | none => true)
    | none => false with
  | some e => some (.stepEnd e.1)
  | none =>
    match s.cores.find? fun e => sliceOver s e.1 with
    | some e => some (.sliceEnd e.1)
    | none =>
      match s.queues.find? fun e => waitReached s e.2 with
      | some e => some (.waitRelease e.1)
      | none => ((busyCores s).find? (sampleDue s)).map .sample

/-- What is due. -/
def dueEvent (s : State) : Option Due := match gangDue s with | some d => some d | none => coreDue s

/-- What is due happens. -/
def execDue (s : State) : Due → Res
  | .overdue g => execGangOverdue g s
  | .yieldBound g => execYieldBound g s
  | .sliceEnd c => execSliceEnd c s
  | .waitFault g l => execWaitphComplete g l s
  | .waitRelease q => execWaitRelease q s
  | .stepEnd c => execStepEnd c s
  | .sample c => execSampleTrigger c s

/-- Each gang's count of consecutive cycles in which it was eligible and not chosen, with which it stops being overdue
(R231). -/
def ageGangs (s : State) (chosen : Option Nat) : State :=
  { s with gangs := s.gangs.map fun e =>
      let on := chosen != some e.1 && canTake s e.1
      (e.1, { e.2 with idle := if on then e.2.idle + Config.stepCycles e.2.core s.tick else 0, overdue := on && e.2.overdue }) }

/-- The cycles of a step are counted where a token reservation stands (R389). -/
def countWaits (s : State) : State :=
  s.cores.foldl (fun s e => if e.2.resv.isEmpty then s else pmcCount s e.1 1 (Config.stepCycles e.1 s.tick)) s

/-- The end of a step: a stepped gang freezes again (R386), and the clocks go on (log 3). -/
def finish (s : State) (chosen : Option Nat) : State :=
  let s := (s.cores.map (·.1)).foldl stepSettle s
  let s := countWaits (ageGangs s chosen)
  { s with cur := none, script := none, now := s.now + Config.stepNs s.tick, tick := s.tick + 1 }

/-- The gang that an event lets complete its instruction, and the lanes that issued it. -/
def eventIssuer (s : State) : Instr → Option (Nat × W32)
  | .waitphComplete g lane => some (g, waitGroup (gangOf s g) lane)
  | .loadDataReturn g _ _ _ => some (g, ((gangOf s g).loads.head?.map (·.run)).getD 0)
  | _ => none

/-- What follows an event that came in state `s0`: instructions that waited are tried again. -/
def afterEvent (s0 s : State) (i : Instr) : State :=
  let s := { s with progress := s.progress + 1 }
  match eventIssuer s0 i with
  | some (g, run) =>
    if didIssue s0 s g then finish (noteIssue s g run) (some g) else finish s none
  | none => finish s none

/-- Operations that no instruction word names: events. -/
def isEvent (i : Instr) : Bool := (encode i).isEmpty

/-- An event happens; an operation that is no event is passed over. -/
def runEvent (s : State) (i : Instr) : Res :=
  if isEvent i then onNext (exec i s) fun t => afterEvent s t i else .next (finish s none)

/-- A turn of a gang. -/
def runTurn (s : State) (g : Nat) : Res := onNext (gangCycle s g) fun t => finish t (some g)

/-- Opcodes of the fabric set (R50). -/
def fabricOps : List Nat := [0x01, 0x02, 0x03, 0x04, 0x05, 0x08, 0x09, 0x10, 0x11, 0x12, 0x13, 0x18, 0x19, 0x20, 0x21, 0x28, 0x29, 0x30, 0x31]

/-- The sub-code of a word that is no fabric instruction (R38, R41): 0x01 for an opcode that none has, 0x04 for a field. -/
def fabricSub (w : Option Word) : Nat :=
  match w with | some w => if fabricOps.contains (Word.fld w 56 8) then 4 else 1 | none => 1

/-- A script context executes its next word (R288); a word that is no instruction stops it with ILLENC. -/
def runScript (s : State) (c : Nat) : Res :=
  let S := scriptOf s c
  if S.st != .running then .next (finish s none)
  else match (S.store[S.pc]?).bind fun w => decodeFabric w.toNat with
    | none => .next (finish (scriptFault s c .illenc (fabricSub (S.store[S.pc]?))) none)
    | some i => onNext (exec i { s with script := some c }) fun t => finish t none

/-! ## What comes next -/

/-- What a step takes up when nothing is given from outside: a quarter's choice, a script word, the arrival of a stop. -/
inductive Choice where
  | turn (g : Nat)
  | script (c : Nat)
  | stop (core : Nat)
  deriving DecidableEq, Repr

/-- The choices that a state leaves. -/
def choices (s : State) : List Choice :=
  ((busyQuarters s).filterMap fun k => (quarterPick s k.1 k.2).map .turn)
    ++ ((List.range 8).filterMap fun c => if (scriptOf s c).st == .running then some (.script c) else none)
    ++ (s.stops.filterMap fun t => t.cores.head?.map .stop)

/-- A choice is taken up. -/
def runChoice (s : State) : Choice → Res
  | .turn g => runTurn s g
  | .script c => runScript s c
  | .stop c => onNext (execStopArrive c s) fun t => finish { t with progress := t.progress + 1 } none

/-- An input is taken up. -/
def runInput (s : State) : Input → Res
  | .event i => runEvent s i
  | .turn g => if mayTurn s g then runTurn s g else .next (finish s none)
  | .stall g => .next (finish (if (SMap.find s.gangs g).isSome then modGang s g fun G => { G with stallAt := s.progress + 1 } else s) none)
  | .script c => runScript s c
  | .early g lane va n => .next (finish (readAhead s g lane va n) none)
  | .late g => if mayTurn s g then onNext (lateTurn s g) fun t => finish t (some g) else .next (finish s none)
  | .reread g k which => .next (finish (readAgain s g k which) none)
  | .hostPart i which => .next (finish (hostPart s i which) none)
  | .rail island val => .next (finish (railWrite s island val) none)

/-- Events that a device which is not running still takes part in (R278, R392, R396). -/
def offEvent (p : Power) : Instr → Bool
  | .coldRestart => true
  | .powerRemoval => true
  | .transportAck _ => p != .off
  | .transportResend _ => p != .off
  | .read .. => p == .bootFailed
  | _ => false

end Sys2Proof.Machine
end

