-- ==== Sys2Proof/Machine/Step.lean ====
section
/-!
DEFINITION. One step of the machine, and the state in which a given instruction is the next to run.
-/
namespace Sys2Proof.Machine

/-- One step (log 2): the boot of a device that starts; what is due; the next input; or, where none is given, a choice that
the state leaves, each in its turn. -/
def step (s : State) : Host.Outcome State Fault Refusal :=
  match s.power with
  | .booting _ => onNext (execBoot s) fun t => finish t none
  | .on =>
    match dueEvent s with
    | some d => onNext (execDue s d) fun t => finish { t with progress := t.progress + 1 } none
    | none =>
      match s.inputs with
      | i :: rest => runInput { s with inputs := rest } i
      | [] =>
        let cs := choices s
        match cs[s.tick % cs.length]? with
        | some c => runChoice s c
        | none => .next (finish s none)
  | p =>
    match s.inputs with
    | .event i :: rest =>
      let s := { s with inputs := rest }
      if offEvent p i then onNext (exec i s) fun t => finish t none else .next (finish s none)
    | _ :: rest => .next (finish { s with inputs := rest } none)
    | [] => .next (finish s none)

/-- The gang, the address and the frame that `withFetchWord` uses (log 9). -/
def probeGang : Nat := 0
def probePc : Word := 0x10000
def probeFrame : Nat := 1

/-- `s` with an instruction where the next step fetches it (log 9): a lane or uniform instruction at the PC of a gang of
team 0 of context 0 that has the next turn, on a core that holds tokens and the page's translation; a fabric word in script
context 0, which has the next turn. -/
def State.withFetchWord (s : State) (nbits w : Nat) : State :=
  let w := w % 2 ^ nbits
  if nbits == 64 && (decodeFabric w).isSome then
    { modScript s 0 fun S => { S with store := [BitVec.ofNat 64 w], pc := 0, st := .running, wait := none } with
      power := .on, inputs := .script 0 :: s.inputs }
  else
    let t := teamKey probeGang
    let G : Gang := { srPut (srPut Gang.blank rVoteLast 3) rTsLane 0xFF with threads := lanes.map fun l => (l, { pc := probePc, held := false, wait := .none }) }
    let s := setGang s probeGang G
    let s := setTeam s t { Team.blank with ngang := 1 }
    let leaf : Word := BitVec.ofNat 64 (2 ^ 63 + probeFrame * 2 ^ 12 + 2 ^ 54)
    let s := modCore s 0 fun C =>
      { C with tokens := 16384, tlb := { ctx := 0, page := probePc.toNat / 65536, big := false, leaf := leaf } :: C.tlb }
    { s with power := .on, mem := Memory.writeN s.mem (probeFrame * 65536) (leBytes 32 w), inputs := .turn probeGang :: s.inputs }

end Sys2Proof.Machine
end

