-- ==== Sys2Proof/Safety.lean ====
section
/-!
DEFINITION. The terms in which statements are made: what issuing an instruction leaves alone, and when nothing holds it up.
-/
namespace Sys2Proof.Machine

/-- A step that goes on. -/
def StepsTo (s t : State) : Prop := step s = .next t

/-! ## What issuing leaves alone -/

/-- The state registers of hardware loops (R254). -/
def loopReg (n : Nat) : Bool := 0xC0 ≤ n && n ≤ 0xC7

/-- The state registers that issuing any instruction may update: event counts (R82), the token registers (R268), CAVE.COUNT
(R390) and, at a loop's end, the loop registers (R257). -/
def issueReg (n : Nat) : Bool :=
  (0x190 ≤ n && n ≤ 0x198) || n == rTokPrice || n == rTokSpent || n == rCave || loopReg n

/-- A gang with the parts of another that issuing may change: state registers, windows (R82), the chain and the latches (R27,
R28), the threads' PCs, and the counts of R231 and R233. -/
def issueOf (G H : Gang) : Gang :=
  { G with sreg := H.sreg, winPos := H.winPos, chain := H.chain, chainEnd := H.chainEnd, x := H.x, threads := H.threads,
           lastRun := H.lastRun, turns := H.turns, single := H.single, idle := H.idle, overdue := H.overdue,
           stallAt := H.stallAt, lastPc := H.lastPc, issuedN := H.issuedN, stopPc := H.stopPc }

/-- Two gangs differ at most in what issuing may change: the v, s, p and q registers, the mode, the store queue, the requests,
the poison and the brine are the same, and so are the state registers but for those of issuing. -/
structure SameRegs (G H : Gang) : Prop where
  rest : H = issueOf G H
  sreg : ∀ n, issueReg n = false → srGet H n = srGet G n

/-- A state is another with only the parts changed that issuing may change: gangs, teams, cores, management counters (R389),
messages to the host (R83), and the notes of the step. Memory, scratchpad, every device unit and every table is the same. -/
abbrev Kept (s t : State) : Prop :=
  t = { s with gangs := t.gangs, teams := t.teams, cores := t.cores, mgmt := t.mgmt, out := t.out, hostSeq := t.hostSeq,
               hostOut := t.hostOut, progress := t.progress, cur := t.cur }

/-- Two cores differ at most in the token station (R265), the time slice's count (R237) and the SLI units' occupancy (R127). -/
abbrev SameUnits (C D : Core) : Prop :=
  D = { C with tokens := D.tokens, resv := D.resv, sliceN := D.sliceN, sliceAt := D.sliceAt, sliBusy := D.sliBusy }

/-- Two teams differ at most in the count of issued instructions. -/
abbrev SameTeam (T U : Team) : Prop := U = { T with issued := U.issued }

/-- Between two states nothing but the bookkeeping of issuing differs. -/
structure Quiet (s t : State) : Prop where
  kept : Kept s t
  regs : ∀ h, SameRegs (gangOf s h) (gangOf t h)
  units : ∀ k, SameUnits (coreOf s k) (coreOf t k)
  sli : ∀ k, (coreOf t k).sliBusy = (coreOf s k).sliBusy
  teams : ∀ k, SameTeam (teamOf s k) (teamOf t k)

/-- No event class of a gang traps at its threshold (R81, ACT). -/
def NoEventTraps (G : Gang) : Prop := ∀ e, e < 9 → Word.fld (srGet G (rEvt e)) 8 2 ≠ 1

/-- A token station that owes nothing and holds the price (R265, R266). -/
def CanPay (s : State) (g price : Nat) : Prop :=
  (coreOf s (gangOf s g).core).resv = [] ∧ (price : Int) ≤ (coreOf s (gangOf s g).core).tokens

/-- A lane-set instruction of use `u` issued by `c` that acts in the lanes `act`, pays for the lanes `paid` and leads to `s1` is
held up by nothing: its checks pass (R28, R42, R225, R337), and once its effect stands its price is there (R265) and no event
class traps (R81). -/
structure LaneDoes (s : State) (c : Issue) (u : LaneUse) (act paid : W32) (s1 : State) : Prop where
  cur : s.cur = some c
  checks : laneChecks (gangOf s c.g) c u act = .ok ()
  pays : CanPay s1 c.g (lanePrice u.price paid)
  quiet : NoEventTraps (gangOf s1 c.g)

/-- The same where the effect leaves the token station and the event controls alone. -/
abbrev ReadyOn (s : State) (c : Issue) (u : LaneUse) (act paid : W32) : Prop := LaneDoes s c u act paid s

/-- The lanes of a run in which an instruction of lead `p` acts (R6, R35). -/
def actLanes (s : State) (c : Issue) (p : Lead) : W32 := guardLanes (gangOf s c.g) p c.run

/-- The lanes that it zeroes (R6, R35). -/
def zerLanes (s : State) (c : Issue) (p : Lead) : W32 := zeroLanes (gangOf s c.g) p c.run

/-- The same of one that acts under its guard. -/
abbrev LaneReady (s : State) (c : Issue) (u : LaneUse) : Prop :=
  ReadyOn s c u (actLanes s c u.lead) (actLanes s c u.lead ||| zerLanes s c u.lead)

/-- A uniform-set instruction of use `u` issued by `c`, whose effect leads to `s1`, is held up by nothing: its checks pass
(R42, R225, R337), and its price is there (R265). -/
structure UniDoes (s : State) (c : Issue) (u : UniUse) (s1 : State) : Prop where
  cur : s.cur = some c
  checks : uniChecks (gangOf s c.g) c u = .ok ()
  pays : CanPay s1 c.g u.price

/-- The same where the effect leaves the token station alone. -/
abbrev UniReady (s : State) (c : Issue) (u : UniUse) : Prop := UniDoes s c u s

/-- One instruction of the gang has retired, and the run that issued it is noted, with what a lane-set instruction has read and
written (R390, R238). -/
structure Retired (s t : State) (c : Issue) : Prop where
  cave : srGet (gangOf t c.g) rCave = srGet (gangOf s c.g) rCave + 1
  cur : ∃ d, t.cur = some { c with issued := true, did := d }

/-- The instruction of `c` has retired from a state in which its effect stands, and nothing but the bookkeeping of issuing
differs; the latches are those of that state. -/
structure Issued (s t : State) (c : Issue) : Prop where
  quiet : Quiet s t
  ret : Retired s t c
  latch : (gangOf t c.g).x = (gangOf s c.g).x

/-! ## What a lane-set instruction leaves and writes -/

/-- What every lane-set instruction that reaches no memory leaves alone: memory, scratchpad, every unit and every other gang. One that runs on the SLI unit of its quarter occupies it for `occ` cycles. -/
structure LaneLeft (s t : State) (c : Issue) (occ : Option Nat) : Prop where
  ret : Retired s t c
  kept : Kept s t
  units : ∀ k, SameUnits (coreOf s k) (coreOf t k)
  sli : ∀ k, (coreOf t k).sliBusy = match occ with
    | some n => if k = (gangOf s c.g).core then
        SMap.put (coreOf s k).sliBusy (quarterOf (gangOf s c.g).slot) (cyclesOf s (gangOf s c.g).core + n)
      else (coreOf s k).sliBusy
    | none => (coreOf s k).sliBusy
  teams : ∀ k, SameTeam (teamOf s k) (teamOf t k)
  others : ∀ h, h ≠ c.g → SameRegs (gangOf s h) (gangOf t h)

/-- The state registers after a lane-set instruction: those of issuing aside, SLI.LX alone gains bits (R122). -/
def RegsLeft (G H : Gang) (lx : W32) : Prop :=
  ∀ n, issueReg n = false → srGet H n = if n = rSliLx then srGet G n ||| lx.zeroExtend 64 else srGet G n

/-- A vector result: the destination, the width, the sub-elements written in an active lane and those zeroed in an inactive
one, whether the destination is left (R35, NOWB) and whether the latch takes the result (R27), and each sub-element's value. -/
structure VecRes where
  d : Nat
  w : Nat
  ks : List Nat
  zks : List Nat
  nowb : Bool
  push : Bool
  val : Nat → Nat → Out

/-- What a lane's destination holds after a vector result. -/
def vecNew (G : Gang) (act zer : W32) (r : VecRes) (l : Nat) : Word :=
  if hasLane act l then setElems (vGet G r.d l) r.w (r.ks.map fun k => (k, (r.val l k).1))
  else if hasLane zer l then setElems (vGet G r.d l) r.w (r.zks.map fun k => (k, 0))
  else vGet G r.d l

/-- The vector registers and the latches after a vector result. -/
structure VecWritten (G H : Gang) (act zer : W32) (r : VecRes) : Prop where
  v : ∀ x l, l < 32 → vGet H x l = if x = r.d ∧ r.nowb = false then vecNew G act zer r l else vGet G x l
  latch : H.x = if r.push then (pushLatch G (vecNew G act zer r)).x else G.x

/-- A gang with the vector registers of another, and with what stands beside them: brine, poison and late answers. -/
def vecOf (G H : Gang) : Gang := { G with v := H.v, wroteV := H.wroteV, poisonV := H.poisonV, late := H.late }

/-- A gang with the accumulators of another, and with the brine and poison that stand beside them. -/
def accOf (G H : Gang) : Gang := { G with q := H.q, wroteQ := H.wroteQ, poisonQ := H.poisonQ }

/-- A lane-set instruction that acts in `act` and zeroes `zer` has made a vector result and nothing else. -/
structure VecDoneOn (s t : State) (c : Issue) (act zer : W32) (r : VecRes) (occ : Option Nat := none) (lx : W32 := 0) : Prop where
  left : LaneLeft s t c occ
  rest : gangOf t c.g = issueOf (vecOf (gangOf s c.g) (gangOf t c.g)) (gangOf t c.g)
  sreg : RegsLeft (gangOf s c.g) (gangOf t c.g) lx
  wrote : VecWritten (gangOf s c.g) (gangOf t c.g) act zer r

/-- The same of an instruction of this lead. -/
abbrev VecDone (s t : State) (c : Issue) (lead : Lead) (r : VecRes) (occ : Option Nat := none) (lx : W32 := 0) : Prop :=
  VecDoneOn s t c (actLanes s c lead) (zerLanes s c lead) r occ lx

/-- The predicates after a predicate result for `pd`: a lane's value in active lanes, 0 in zeroed ones; p7 stays as it reads
(R21). -/
def PredWritten (G H : Gang) (act zer : W32) (pd : Nat) (val : Nat → Bool) : Prop :=
  ∀ q l, l < 32 → pGet H q l =
    if q = pd ∧ q ≠ 7 then (if hasLane zer l then false else if hasLane act l then val l else pGet G q l) else pGet G q l

/-- A lane-set instruction of this lead has made a predicate result and nothing else. -/
structure PredDone (s t : State) (c : Issue) (lead : Lead) (pd : Nat) (val : Nat → Bool) (occ : Option Nat := none) :
    Prop where
  left : LaneLeft s t c occ
  rest : gangOf t c.g = issueOf { gangOf s c.g with p := (gangOf t c.g).p } (gangOf t c.g)
  sreg : RegsLeft (gangOf s c.g) (gangOf t c.g) 0
  latch : (gangOf t c.g).x = (gangOf s c.g).x
  wrote : PredWritten (gangOf s c.g) (gangOf t c.g) (actLanes s c lead) (zerLanes s c lead) pd val

/-- A lane-set instruction has changed the accumulators alone: element `e` of qN in a lane holds `val` (R26). -/
structure AccDone (s t : State) (c : Issue) (val : Nat → Nat → Nat → W32) : Prop where
  left : LaneLeft s t c none
  rest : gangOf t c.g = issueOf (accOf (gangOf s c.g) (gangOf t c.g)) (gangOf t c.g)
  sreg : RegsLeft (gangOf s c.g) (gangOf t c.g) 0
  latch : (gangOf t c.g).x = (gangOf s c.g).x
  wrote : ∀ l q e, l < 32 → q < 8 → e < 8 → qGet (gangOf t c.g) l q e = val l q e

/-- Executing an instruction answers a next state of which `P` holds. -/
def Yields (i : Instr) (s : State) (P : State → Prop) : Prop := ∃ t, exec i s = .next t ∧ P t

/-! ## The results of lane-set instructions -/

/-- The sub-elements of width `w` that a lead selects. -/
def selKs (lead : Lead) (w : Nat) : List Nat := maskKs lead (64 / w)

/-- A result of width `w` in each selected sub-element, which the latch takes too. -/
def evenRes (lead : Lead) (d w : Nat) (nowb : Bool) (val : Nat → Nat → Out) : VecRes :=
  ⟨d, w, selKs lead w, selKs lead w, nowb, true, val⟩

/-- An instruction of LR with two sources completes with a result in each selected sub-element: `val` of the modifiers and of
the patterns of A, B, C and the old destination (R34, R35). -/
def PatLr2 (mk : Lr2 IFmt → Instr) (use : Lr2 IFmt → LaneUse) (val : Lr2 IFmt → Nat → Nat → Nat → Nat → Out) : Prop :=
  ∀ s c o, LaneReady s c (use o) → Yields (mk o) s fun t =>
    VecDone s t c o.lead (evenRes o.lead o.d.val o.fmt.bits o.k fun l k =>
      val o (elem (srcVal (gangOf s c.g) l o.a) o.fmt.bits k) (elem (bInt o.fmt (gangOf s c.g) l o.b) o.fmt.bits k)
        (patC o.lead (gangOf s c.g) l o.fmt.bits k) (elem (vGet (gangOf s c.g) o.d.val l) o.fmt.bits k))

/-- The same of an instruction of LI, whose second source is the immediate (R46). -/
def PatLri (mk : Lri → Instr) (val : Lri → Nat → Nat → Out) : Prop :=
  ∀ s c o, LaneReady s c (useLi o 1) → Yields (mk o) s fun t =>
    VecDone s t c o.lead (evenRes o.lead o.d.val o.fmt.bits o.k fun l k =>
      val o (elem (srcVal (gangOf s c.g) l o.a) o.fmt.bits k) (elem (immInt o.fmt o.imm) o.fmt.bits k))

/-- The same of an instruction of LR with source A alone (R45). -/
def PatLr1 (mk : Lr1 IFmt → Instr) (val : Lr1 IFmt → Nat → Out) : Prop :=
  ∀ s c o, LaneReady s c (useLr1 o 1) → Yields (mk o) s fun t =>
    VecDone s t c o.lead (evenRes o.lead o.d.val o.fmt.bits o.k fun l k =>
      val o (elem (srcVal (gangOf s c.g) l o.a) o.fmt.bits k))

/-- An LR instruction of integer arithmetic completes with IntFinish of the exact result `op` of its sources after IntSrc
(R88, R90). -/
def ArithLr2 (mk : Lr2 IFmt → Instr) (price : Nat) (cneed : Bool) (op : IFmt → Int → Int → Int → Int) : Prop :=
  ∀ s c o, LaneReady s c (useLr2 o price cneed) → Yields (mk o) s fun t =>
    VecDone s t c o.lead (evenRes o.lead o.d.val o.fmt.bits o.k fun l k =>
      intFinish o.fmt (effMode (gangOf s c.g) o.lead) o.lead.mw
        (op o.fmt (intA o.lead o.fmt (srcVal (gangOf s c.g) l o.a) k) (intB o.lead o.fmt (bInt o.fmt (gangOf s c.g) l o.b) k)
          (o.fmt.val (patC o.lead (gangOf s c.g) l o.fmt.bits k))))

/-- The same of an LI instruction (R46). -/
def ArithLri (mk : Lri → Instr) (price : Nat) (op : Int → Int → Int) : Prop :=
  ∀ s c o, LaneReady s c (useLi o price) → Yields (mk o) s fun t =>
    VecDone s t c o.lead (evenRes o.lead o.d.val o.fmt.bits o.k fun l k =>
      intFinish o.fmt (effMode (gangOf s c.g) o.lead) o.lead.mw
        (op (intA o.lead o.fmt (srcVal (gangOf s c.g) l o.a) k) (intB o.lead o.fmt (immInt o.fmt o.imm) k)))

/-- The same of an instruction with one source. -/
def ArithLr1 (mk : Lr1 IFmt → Instr) (op : Int → Int) : Prop :=
  ∀ s c o, LaneReady s c (useLr1 o 1) → Yields (mk o) s fun t =>
    VecDone s t c o.lead (evenRes o.lead o.d.val o.fmt.bits o.k fun l k =>
      intFinish o.fmt (effMode (gangOf s c.g) o.lead) o.lead.mw
        (op (intA o.lead o.fmt (srcVal (gangOf s c.g) l o.a) k)))

/-- A float instruction with two sources completes with one value per selected sub-element, from the patterns of A and B after
ABS and NEG and of C. -/
def FltLr2 (mk : Lr2 FFmt → Instr) (price : FFmt → Nat) (cneed : Bool)
    (val : FFmt → Rnd → Option MWord → Nat → Nat → Nat → Out) : Prop :=
  ∀ s c o, LaneReady s c (useF2 o (price o.fmt) cneed) → Yields (mk o) s fun t =>
    VecDone s t c o.lead (evenRes o.lead o.d.val o.fmt.bits o.k fun l k =>
      val o.fmt (effMode (gangOf s c.g) o.lead) o.lead.mw (fltA o.lead o.fmt (srcVal (gangOf s c.g) l o.a) k)
        (fltB o.lead o.fmt (bFlt o.fmt (gangOf s c.g) l o.b) k) (patC o.lead (gangOf s c.g) l o.fmt.bits k))

/-- The same of a float instruction with one source. -/
def FltLr1 (mk : Lr1 FFmt → Instr) (price : FFmt → Nat) (val : FFmt → Rnd → Option MWord → Nat → Out) : Prop :=
  ∀ s c o, LaneReady s c (useF1 o (price o.fmt)) → Yields (mk o) s fun t =>
    VecDone s t c o.lead (evenRes o.lead o.d.val o.fmt.bits o.k fun l k =>
      val o.fmt (effMode (gangOf s c.g) o.lead) o.lead.mw (fltA o.lead o.fmt (srcVal (gangOf s c.g) l o.a) k))

/-- A level-index operation on two codes (R123): `sub` inverts the sign of B's value. -/
def SliArith (mk : Lr2 FFmt → Instr) (op : SOp) (sub : Bool) : Prop :=
  ∀ s c o, LaneReady s c (useF2 o 18 false) → sliTaken s c.g = false → Yields (mk o) s fun t =>
    let G := gangOf s c.g
    let a := fun l k => sliA o.lead (srcVal G l o.a) k
    let b := fun l k => sliSign (sliB o.lead (bFlt .s32 G l o.b) k) false sub
    let y := fun l k => sliOut op (effMode G o.lead) (scaleOf o.lead.mw) (a l k) (b l k)
    VecDone s t c o.lead (evenRes o.lead o.d.val 32 o.k y)
      (some (4 * (1 + topLevel ((lanesOf (actLanes s c o.lead)).flatMap fun l => (selKs o.lead 32).flatMap fun k =>
        [occLevel (a l k), occLevel (b l k), occLevel (y l k).1]))))
      (laneSet fun l => hasLane (actLanes s c o.lead) l && (selKs o.lead 32).any fun k =>
        a l k != sliNar && b l k != sliNar && levelCross (y l k).1 (a l k) (b l k))

/-- A level-index function of one code (R124). -/
def SliFunction (mk : Lr1 FFmt → Instr) (fn : Rnd → Nat → Out) : Prop :=
  ∀ s c o, LaneReady s c (useF1 o 6) → sliTaken s c.g = false → Yields (mk o) s fun t =>
    let a := fun l k => sliA o.lead (srcVal (gangOf s c.g) l o.a) k
    let y := fun l k => fn (effMode (gangOf s c.g) o.lead) (a l k)
    VecDone s t c o.lead (evenRes o.lead o.d.val 32 o.k y) (some 8)
      (laneSet fun l => hasLane (actLanes s c o.lead) l && (selKs o.lead 32).any fun k =>
        a l k != sliNar && levelCross (y l k).1 (a l k) (a l k))

/-- A cross-lane move (R104): each selected sub-element of an active lane takes the sub-element of A at the lane and position
that `place` names, where neither poison nor a late fault stands there, nor where `low` reads. `f` gives the lead, fmt, A,
destination and NOWB. -/
def Shuffle {O : Type} (mk : O → Instr) (use : O → LaneUse) (f : O → Lead × IFmt × Src × Nat × Bool)
    (low : O → Gang → W32 → Option Halt) (place : O → Gang → W32 → Nat → Nat → Nat × Nat) : Prop :=
  ∀ s c o, LaneReady s c (use o) →
    let G := gangOf s c.g
    let act := actLanes s c (f o).1
    let w := (f o).2.1.bits
    low o G act = none →
    pairRead G 1 (f o).2.2.1 w ((lanesOf act).flatMap fun l => (selKs (f o).1 w).map fun k => place o G act l k) = none →
    Yields (mk o) s fun t => VecDone s t c (f o).1 (evenRes (f o).1 (f o).2.2.2.1 w (f o).2.2.2.2 fun l k =>
      (elem (srcVal G (place o G act l k).1 (f o).2.2.1) w (place o G act l k).2, []))

/-- The result of a reduction (R108): the tree over the active lanes at each selected position; a lone value as `pass` has it. -/
def reduceRes (s : State) (c : Issue) (lead : Lead) (w : Nat) (a : Src) (d : Nat) (nowb : Bool) (pass : Nat → Out)
    (op : Nat → Nat → Out) : VecRes :=
  evenRes lead d w nowb fun _ k =>
    ((if k ∈ selKs lead w then (reduceSlots pass op (lanes.map fun l =>
      if hasLane (actLanes s c lead) l then some (elem (srcVal (gangOf s c.g) l a) w k) else none)).1 else none).getD 0, [])

/-- The result of a scan (R109): a lane's value among the running values of the active lanes at each selected position. -/
def scanRes (s : State) (c : Issue) (lead : Lead) (w : Nat) (a : Src) (d : Nat) (nowb : Bool) (pass : Nat → Out)
    (op : Nat → Nat → Out) (excl : Bool) (ident : Nat) : VecRes :=
  evenRes lead d w nowb fun l k =>
    if k ∈ selKs lead w then
      (((scanVals pass op excl ident (fun l => elem (srcVal (gangOf s c.g) l a) w k) (lanesOf (actLanes s c lead))).find? fun r =>
        r.1 == l).map (·.2)).getD (0, [])
    else (0, [])

/-! ## The results of uniform-set instructions -/

/-- A uniform-set instruction completes with s(sd) written and nothing else (R21, R238): `x` of the gang and the run. -/
def WritesS (i : Instr) (u : UniUse) (sd : Fin 64) (x : Gang → W32 → Word) : Prop :=
  ∀ s c, UniReady s c u → Yields i s fun t => Issued (modGang s c.g fun G => wrS G sd.val (x G c.run)) t c

/-- An arithmetic instruction of UR with two sources (R238, R239). -/
def UArith3 (mk : Ur3 → Instr) (f : Word → Word → Word) : Prop :=
  ∀ o, WritesS (mk o) (useUarith o.sd [(8, o.sa.val), (9, o.sb.val)] 4) o.sd fun G _ => f (sGet G o.sa.val) (sGet G o.sb.val)

/-- One of UR with two sources and the U bit. -/
def UArith3u (mk : Ur3u → Instr) (f : Bool → Word → Word → Word) : Prop :=
  ∀ o, WritesS (mk o) (useUarith o.sd [(8, o.sa.val), (9, o.sb.val)] 4) o.sd fun G _ =>
    f o.u (sGet G o.sa.val) (sGet G o.sb.val)

/-- The same of a division, which counts IDZ: no event class traps (R81, R240). -/
def UDivision (mk : Ur3u → Instr) (f : Bool → Word → Word → Word) : Prop :=
  ∀ o s c, UniReady s c (useUarith o.sd [(8, o.sa.val), (9, o.sb.val)] 4) → NoEventTraps (gangOf s c.g) →
    Yields (mk o) s fun t =>
      Issued (modGang s c.g fun G => wrS G o.sd.val (f o.u (sGet G o.sa.val) (sGet G o.sb.val))) t c

/-- One of UI: the second source is the sign-extended immediate. -/
def UArithUi (mk : Ui → Instr) (f : Word → Word → Word) : Prop :=
  ∀ o, WritesS (mk o) (useUarith o.sd [(8, o.sa.val)] 4) o.sd fun G _ => f (sGet G o.sa.val) (BitVec.signExtend 64 o.imm)

/-- One of UR with one source. -/
def UArith2 (mk : Ur2 → Instr) (f : Word → Word) : Prop :=
  ∀ o, WritesS (mk o) (useUarith o.sd [(8, o.sa.val)] 4) o.sd fun G _ => f (sGet G o.sa.val)

/-- A uniform-set instruction completes with the effect of `body` and nothing else. -/
def UniRuns (i : Instr) (u : UniUse) (body : Issue → State → Chk State) : Prop :=
  ∀ s c s1, UniDoes s c u s1 → body c s = .ok s1 → Yields i s fun t => Issued s1 t c

/-- Whether a place lies on this device. -/
def Loc.near : Loc → Bool | .remote .. => false | _ => true

/-- A command for an engine completes with the effect of `body`, once the stores to other devices that it must wait for have set
out (R165, R170) and what `atHand` asks for is there. -/
def CommandRuns (i : Instr) (u : UniUse) (atHand : State → Issue → Prop) (body : Issue → State → Chk State) : Prop :=
  ∀ s c s1, let r := sendFar s c.g
    s.cur = some c → atHand s c → UniDoes r c u s1 → body c r = .ok s1 → Yields i s fun t => Issued s1 t c

/-- A command for an engine is held up by nothing: its checks pass, its price is there, nothing that a release awaits is under
way (R162, R170), no store of its gang's or of its core's is to another device, and no answer is kept for it. -/
structure CommandReady (s : State) (c : Issue) (u : UniUse) : Prop where
  cur : s.cur = some c
  checks : uniChecks (gangOf s c.g) c u = .ok ()
  pays : u.price ≠ 0 → CanPay s c.g u.price
  gate : releaseGate s c.g = .ok ()
  near : owesFar s c.g = false
  loads : (gangOf s c.g).loads = []

/-- SER.NEXT is at most 2^20 past the gang's lowest serial without an answer once `n` more are taken (R186, R354). -/
def SerialsFit (s : State) (g n : Nat) : Prop :=
  (BitVec.ofNat 32 (srGet (gangOf s g) rSerNext).toNat + BitVec.ofNat 32 n - lowOpen s g).toNat ≤ 2 ^ 20

/-- The shape record that a command names lies on this device, or has been answered (R328). -/
def recordAtHand (sa : Fin 64) (s : State) (c : Issue) : Prop :=
  ∀ ls, recordPlaces s c.g (lowThread c) (sGet (gangOf s c.g) sa.val) = .ok ls →
    (uniAcc c (sGet (gangOf s c.g) sa.val) ls).far = true → (farRecord (gangOf s c.g) c.pc (sGet (gangOf s c.g) sa.val)).isSome = true

/-- The same of the code record of a SPAWN. -/
def itemAtHand (sa : Fin 64) (s : State) (c : Issue) : Prop :=
  ∀ ls, spawnPlaces s c (sGet (gangOf s c.g) sa.val) = .ok ls →
    (uniAcc c (sGet (gangOf s c.g) sa.val) ls).far = true → (farRecord (gangOf s c.g) c.pc (sGet (gangOf s c.g) sa.val)).isSome = true

/-- Commands have taken the next `n` numbers of a context, and s(Sd) has received the last, as the team sees it (R198, R346). -/
structure TakesNumbers (s t : State) (c : Issue) (x sd n : Nat) : Prop where
  ret : Retired s t c
  issued : (tcuOf t (gangOf s c.g).core x).issued = (tcuOf s (gangOf s c.g).core x).issued + n
  number : sGet (gangOf t c.g) sd =
    teamNum (teamOf s (teamKey c.g)) x ((tcuOf s (gangOf s c.g).core x).issued + n)

/-- What TCOPY and TXFER ask for at issue (R199, R203): the record's places on this device, a good command block and a free
place in the context. -/
structure CopyReady (s : State) (c : Issue) (o : Eng) (price : Nat) (ls : List Loc) : Prop where
  ready : CommandReady s c (useCopy o price)
  block : o.sb.val ≤ 60
  record : recordPlaces s c.g (lowThread c) (sGet (gangOf s c.g) o.sa.val) = .ok ls
  near : ls.all Loc.near = true
  checks : blockChecks s c.g (lowThread c) (blockWords (gangOf s c.g) o.sb.val) o.bar = .ok ()
  free : (tcuOf s (gangOf s c.g).core o.ctx.val).cmds.length < 64

/-! ## Memory accesses -/

/-- A lane load of these accesses is held up by nothing: its checks pass, and where `r` is the state in which the stores have
left that it must not overtake, none of the gang's operations under way keeps it back (R157, R162), no poison and no other
device is met, its price is there, and no event class traps. -/
structure LoadReady (s r : State) (c : Issue) (o : Lm) (price : Nat) (as_ : List LaneAcc) : Prop where
  cur : s.cur = some c
  checks : laneChecks (gangOf s c.g) c (useLoad o price) (actLanes s c o.lead) = .ok ()
  order : orderGate r c.g (as_.flatMap LaneAcc.locs) = .ok ()
  clean : as_.findSome? (spuePoison r c.g 5) = none
  near : as_.any LaneAcc.far = false
  pays : CanPay r c.g (lanePrice price (accLanes as_ ||| loadZeros (gangOf s c.g) o c.run as_))
  quiet : NoEventTraps (gangOf r c.g)

/-- A lane load has written the destination in the lanes that loaded and zeroed it in the lanes `zer`; no other register, no
byte of memory or scratchpad and no queued store differs. -/
structure LoadDone (s t : State) (c : Issue) (d : Nat) (w : IFmt) (as_ : List LaneAcc) (zer : W32) : Prop where
  ret : Retired s t c
  loaded : ∀ a ∈ as_, vGet (gangOf t c.g) d a.lane =
    loadWord w a.fmt a.sel (vGet (gangOf s c.g) d a.lane) ((gangBytes s c.g a.locs).getD [])
  zeroed : ∀ l, l < 32 → hasLane zer l = true → vGet (gangOf t c.g) d l = 0
  left : ∀ x l, l < 32 → (x ≠ d ∨ (hasLane zer l = false ∧ ∀ a ∈ as_, a.lane ≠ l)) →
    vGet (gangOf t c.g) x l = vGet (gangOf s c.g) x l
  rest : gangOf t c.g = issueOf (vecOf (gangOf s c.g) (gangOf t c.g)) (gangOf t c.g)
  sreg : RegsLeft (gangOf s c.g) (gangOf t c.g) 0
  latch : (gangOf t c.g).x = (gangOf s c.g).x
  others : ∀ h, h ≠ c.g → SameRegs (gangOf s h) (gangOf t h)
  mem : t.mem = s.mem
  spad : t.spad = s.spad
  outb : ∀ k, (coreOf t k).outb = (coreOf s k).outb

/-- Stores of the gang have entered its queue, oldest first; no register and no byte of memory or scratchpad differs. Gangs of
the team may lose PIN when a store taints the interval (R341, R354); reads out of order of the stored bytes end (R158). -/
structure StoresQueued (s t : State) (c : Issue) (es : List StoreEnt) : Prop where
  ret : Retired s t c
  queue : (gangOf t c.g).storeQ = (gangOf s c.g).storeQ ++ es
  seen : ∀ l, gangByte t c.g l = match queuedByte es l with | some b => some b | none => gangByte s c.g l
  rest : SameRegs { gangOf s c.g with storeQ := (gangOf t c.g).storeQ, pin := (gangOf t c.g).pin,
                                      early := (gangOf t c.g).early, openRds := (gangOf t c.g).openRds } (gangOf t c.g)
  latch : (gangOf t c.g).x = (gangOf s c.g).x
  others : ∀ h, h ≠ c.g → SameRegs { gangOf s h with pin := (gangOf t h).pin } (gangOf t h)
  mem : t.mem = s.mem
  spad : t.spad = s.spad
  outb : ∀ k, (coreOf t k).outb = (coreOf s k).outb

/-- The queue entries of a store: one, or one for each byte where it is not single-copy atomic (R155). -/
def storeEnts (s : State) (c : Issue) (lane : Nat) (va : Word) (bs : List (Loc × Byte)) : List StoreEnt :=
  storeParts { bytes := bs, va := va, lane := lane, pc := c.pc, by_ := c.g, nth := (gangOf s c.g).issuedN,
               mmio := LaneAcc.onMmio s c.g { lane := lane, va := va, locs := bs.map (·.1), fmt := 0, sel := [] } }

/-- The queue entries of a lane store: in each access, the low bytes of v(D) (R180). -/
def laneEnts (s : State) (c : Issue) (o : Lm) (as_ : List LaneAcc) : List StoreEnt :=
  as_.flatMap fun a => storeEnts s c a.lane a.va (storeBytes (gangOf s c.g) o a)

/-- A gang with the uniform registers of another, and with what stands beside them: brine, poison and late answers. -/
def uniOf (G H : Gang) : Gang := { G with sr := H.sr, wroteS := H.wroteS, poisonS := H.poisonS, late := H.late }

/-- A uniform instruction has written one s register and nothing else. -/
structure SWritten (s t : State) (c : Issue) (sd : Nat) (x : Word) : Prop where
  ret : Retired s t c
  wrote : ∀ r, sGet (gangOf t c.g) r = if r = sd then x else sGet (gangOf s c.g) r
  rest : gangOf t c.g = issueOf (uniOf (gangOf s c.g) (gangOf t c.g)) (gangOf t c.g)
  sreg : RegsLeft (gangOf s c.g) (gangOf t c.g) 0
  latch : (gangOf t c.g).x = (gangOf s c.g).x
  others : ∀ h, h ≠ c.g → SameRegs (gangOf s h) (gangOf t h)
  mem : t.mem = s.mem
  spad : t.spad = s.spad
  outb : ∀ k, (coreOf t k).outb = (coreOf s k).outb

/-- A uniform load of places of this device is held up by nothing. -/
structure UniLoadReady (s : State) (c : Issue) (price : Nat) (sa sd : Fin 64) (va : Word) (ls : List Loc) : Prop where
  ready : UniReady s c (uniUse price [(8, sa.val)] (some sd.val))
  order : orderGate s c.g ls = .ok ()
  clean : spuePoison s c.g 8 (uniAcc c va ls) = none
  near : (uniAcc c va ls).far = false

/-! ## Control -/

/-- A control instruction, whose price is 0, is held up by nothing. -/
structure CtlReady (s : State) (c : Issue) (u : UniUse) : Prop where
  cur : s.cur = some c
  checks : uniChecks (gangOf s c.g) c u = .ok ()

/-- The instruction of `c` has retired from a state in which its effect stands, and its gang's threads stand as they do there. -/
def Counted (s t : State) (c : Issue) : Prop := Issued s t c ∧ (gangOf t c.g).threads = (gangOf s c.g).threads

/-- The instruction of `c` has changed its gang to `G` and retired. -/
def Moved (s t : State) (c : Issue) (G : Gang) : Prop := Counted (setGang s c.g G) t c

/-- A move that ends every latch chain of the run (R246). -/
def Branched (s t : State) (c : Issue) (G : Gang) : Prop := Moved s t c G ∧ (gangOf t c.g).chain = none

/-! ## Words, memory writes and what holds between steps -/

/-- The byte that a list of writes leaves at a place. -/
def written (ws : List (Loc × Byte)) (l : Loc) : Option Byte := (ws.reverse.find? fun e => e.1 == l).map (·.2)

/-- The assigned opcodes of the lane set but P and M (R47). -/
def laneOps : List Nat :=
  [0x01, 0x02, 0x03, 0x04, 0x05, 0x06, 0x07, 0x08, 0x09, 0x0A, 0x0B, 0x0C, 0x0D] ++
  [0x10, 0x11, 0x12, 0x13, 0x14, 0x15, 0x16, 0x17, 0x18, 0x19, 0x1A, 0x1B, 0x1C, 0x1D, 0x1E, 0x1F] ++
  [0x20, 0x21, 0x22, 0x23, 0x24, 0x25, 0x26, 0x27, 0x28, 0x29, 0x2A, 0x2B, 0x2C, 0x2D, 0x2E, 0x2F, 0x30, 0x31, 0x32] ++
  [0x38, 0x39, 0x3A, 0x3B, 0x3C, 0x3D, 0x3E, 0x3F, 0x40, 0x44, 0x45, 0x46, 0x47, 0x48, 0x49, 0x4A, 0x4B] ++
  [0x50, 0x51, 0x52, 0x53, 0x54, 0x55, 0x56, 0x57, 0x60, 0x61, 0x62, 0x63, 0x64, 0x65, 0x66, 0x67, 0x68, 0x69, 0x6A, 0x6B] ++
  [0x70, 0x71, 0x72, 0x73, 0x74, 0x75, 0x76, 0x77, 0x78, 0x79, 0x7A]

/-- The assigned opcodes of the uniform set (R48). -/
def uniOps : List Nat :=
  [0x01, 0x02, 0x03, 0x04, 0x05, 0x06, 0x07, 0x08, 0x09, 0x0A, 0x0B, 0x0C, 0x0D, 0x0E, 0x0F, 0x10, 0x11, 0x12, 0x13, 0x14] ++
  [0x18, 0x19, 0x1A, 0x1B, 0x1C, 0x1D, 0x1E, 0x1F, 0x20, 0x21, 0x22, 0x23, 0x24, 0x28, 0x29, 0x2A, 0x2B, 0x2C, 0x30, 0x31] ++
  [0x38, 0x39, 0x3A, 0x3B, 0x3C, 0x3D, 0x3E, 0x3F, 0x40, 0x41, 0x42, 0x43, 0x44, 0x45, 0x46, 0x47, 0x48] ++
  [0x50, 0x51, 0x52, 0x53, 0x54, 0x55, 0x60, 0x61, 0x62, 0x63, 0x64, 0x65, 0x66, 0x70, 0x71, 0x72, 0x73, 0x74, 0x75, 0x76]

/-- Nothing is in course, and a gang that may not issue has counted no cycle towards overdue and is not overdue (R231). -/
def Balanced (s : State) : Prop :=
  s.cur = none ∧ s.script = none ∧ ∀ e, e ∈ s.gangs → canTake s e.1 = false → e.2.idle = 0 ∧ e.2.overdue = false

/-- The conditions of UCMP, in the order of their bits (R241, Table 2). -/
def condHolds (a b : Word) : List Bool :=
  [a == b, a != b, a.slt b, a.sle b, b.slt a, b.sle a, a.ult b, a.ule b, b.ult a, b.ule a, a &&& b != 0, a &&& b == 0]

end Sys2Proof.Machine
end

