-- ==== Sys2Proof/Certificates/Slice0/Obligations.lean ====
section
/-!
DEFINITION. The statements for the provers: what the rules of the specification say of each instruction, of each event and of
the machine as a whole.
-/
open Sys2Proof Sys2Proof.Machine

/-! ## Lane-set arithmetic -/

/-- R90, R91, R92 with R45, R46, R88 and R64: the exact results of integer arithmetic, and division. R91, R92: the widening
product of the low half sub-elements, and quotient and remainder. -/
def Obligations.IntegerArithmetic : Prop :=
  -- Integer arithmetic
  (ArithLr2 .vadd 1 false (fun _ a b _ => a + b) ∧ ArithLri .vaddLi 1 (fun a b => a + b) ∧
  ArithLr2 .vsub 1 false (fun _ a b _ => a - b) ∧
  ArithLr1 .vneg (fun a => -a) ∧ ArithLr1 .vabs (fun a => (a.natAbs : Int)) ∧
  ArithLr2 .vmul 2 false (fun _ a b _ => a * b) ∧ ArithLri .vmulLi 2 (fun a b => a * b) ∧
  ArithLr2 .vmulh 2 false (fun f a b _ => (a * b) / 2 ^ f.bits) ∧
  ArithLr2 .vmad 3 true (fun _ a b c => a * b + c) ∧
  ArithLr2 .vmin 1 false (fun _ a b _ => min a b) ∧ ArithLri .vminLi 1 (fun a b => min a b) ∧
  ArithLr2 .vmax 1 false (fun _ a b _ => max a b) ∧ ArithLri .vmaxLi 1 (fun a b => max a b) ∧
  ArithLr2 .vabsd 1 false (fun _ a b _ => ((a - b).natAbs : Int))) ∧
  -- Widening product and division
  ((∀ s c o, LaneReady s c (useVmulw o) → Yields (.vmulw o) s fun t =>
    VecDone s t c o.lead ⟨o.d.val, 2 * o.fmt.bits, maskKs o.lead (64 / o.fmt.bits / 2), maskKs o.lead (64 / o.fmt.bits / 2), o.k,
      true, fun l k => intFinish (wider o.fmt) (effMode (gangOf s c.g) o.lead) o.lead.mw
        (intA o.lead o.fmt (srcVal (gangOf s c.g) l o.a) k * intB o.lead o.fmt (bInt o.fmt (gangOf s c.g) l o.b) k)⟩) ∧
  (∀ s c o, LaneReady s c (useLr2 o 12 false) → Yields (.vdiv o) s fun t =>
    VecDone s t c o.lead (evenRes o.lead o.d.val o.fmt.bits o.k fun l k =>
      divOut o.fmt false (mwBit o.lead.mw (·.sat)) (intA o.lead o.fmt (srcVal (gangOf s c.g) l o.a) k)
        (intB o.lead o.fmt (bInt o.fmt (gangOf s c.g) l o.b) k))) ∧
  (∀ s c o, LaneReady s c (useLr2 o 12 false) → Yields (.vrem o) s fun t =>
    VecDone s t c o.lead (evenRes o.lead o.d.val o.fmt.bits o.k fun l k =>
      divOut o.fmt true (mwBit o.lead.mw (·.sat)) (intA o.lead o.fmt (srcVal (gangOf s c.g) l o.a) k)
        (intB o.lead o.fmt (bInt o.fmt (gangOf s c.g) l o.b) k))) ∧
  (∀ f sat a b, b = 0 → divOut f false sat a b = (2 ^ f.bits - 1, [.idz]) ∧ divOut f true sat a b = (wrapN f.bits a, [.idz])) ∧
  (∀ f sat a b, b ≠ 0 → ¬ (f.signed = true ∧ a = IFmt.minVal f ∧ b = -1) →
    ∃ q r : Int, divOut f false sat a b = (wrapN f.bits q, []) ∧ divOut f true sat a b = (wrapN f.bits r, []) ∧
      a = b * q + r ∧ r.natAbs < b.natAbs ∧ (r ≠ 0 → (0 < r ↔ 0 < a))))

/-- R93 to R97 with R46: bit operations, shifts, counts, fields and byte permutation, on patterns. R94, R95: shifts and
rotations of a sub-element are those of a bit vector of its width, and the counts and the reversal are what they are of its
bits. -/
def Obligations.BitOperations : Prop :=
  -- Bit operations
  (PatLr2 .vand (fun o => useLr2 o 1 false) (fun _ a b _ _ => (a &&& b, [])) ∧ PatLri .vandLi (fun _ a b => (a &&& b, [])) ∧
  PatLr2 .vor (fun o => useLr2 o 1 false) (fun _ a b _ _ => (a ||| b, [])) ∧ PatLri .vorLi (fun _ a b => (a ||| b, [])) ∧
  PatLr2 .vxor (fun o => useLr2 o 1 false) (fun _ a b _ _ => (a ^^^ b, [])) ∧ PatLri .vxorLi (fun _ a b => (a ^^^ b, [])) ∧
  PatLr2 .vandn (fun o => useLr2 o 1 false) (fun o a b _ _ => (a &&& (2 ^ o.fmt.bits - 1 - b), [])) ∧
  PatLr1 .vnot (fun o a => (2 ^ o.fmt.bits - 1 - a, [])) ∧
  PatLr2 .vshl (fun o => useLr2 o 1 false) (fun o a b _ _ => shlOut o.fmt (mwBit o.lead.mw (·.sat)) a b) ∧
  PatLri .vshlLi (fun o a b => shlOut o.fmt (mwBit o.lead.mw (·.sat)) a b) ∧
  PatLr2 .vshr (fun o => useLr2 o 1 false) (fun o a b _ _ => shrOut o.fmt.bits a b) ∧
  PatLri .vshrLi (fun o a b => shrOut o.fmt.bits a b) ∧
  PatLr2 .vsar (fun o => useLr2 o 1 false) (fun o a b _ _ => sarOut o.fmt.bits a b) ∧
  PatLri .vsarLi (fun o a b => sarOut o.fmt.bits a b) ∧
  PatLr2 .vrot (fun o => useLr2 o 1 false) (fun o a b _ _ => rotOut o.fmt.bits a b) ∧
  PatLri .vrotLi (fun o a b => rotOut o.fmt.bits a b) ∧
  PatLr1 .vpopc (fun o a => (popCount o.fmt.bits a, [])) ∧ PatLr1 .vclz (fun o a => (leadZeros o.fmt.bits a, [])) ∧
  PatLr1 .vctz (fun o a => (trailZeros o.fmt.bits a, [])) ∧ PatLr1 .vbrev (fun o a => (reverseBits o.fmt.bits a, [])) ∧
  PatLr2 .vbfx (fun o => useLr2 o 1 true) (fun o a b c _ => bfxOut o.fmt a b c) ∧
  PatLr2 .vbfi useVbfi (fun o a b c d => bfiOut o.fmt.bits d a b c) ∧
  PatLr2 .vbytp (fun o => useLr2 o 1 false) (fun o a b _ _ => bytpOut (o.fmt.bits / 8) a b)) ∧
  -- Shifts are of bit vectors
  (∀ (f : IFmt) (a : BitVec f.bits) (c : Nat),
    shlOut f false a.toNat c = ((a <<< c).toNat, []) ∧
    shrOut f.bits a.toNat c = ((a >>> c).toNat, []) ∧
    sarOut f.bits a.toNat c = ((a.sshiftRight c).toNat, []) ∧
    rotOut f.bits a.toNat c = ((a.rotateLeft c).toNat, []) ∧
    (∀ i, i < f.bits → bitOf (reverseBits f.bits a.toNat) i = a.getLsbD (f.bits - 1 - i)) ∧
    (leadZeros f.bits a.toNat ≤ f.bits ∧ (∀ i, f.bits - leadZeros f.bits a.toNat ≤ i → a.getLsbD i = false) ∧
      (a ≠ 0 → a.getLsbD (f.bits - 1 - leadZeros f.bits a.toNat) = true)) ∧
    (∀ i, i < trailZeros f.bits a.toNat → a.getLsbD i = false) ∧ (a ≠ 0 → a.getLsbD (trailZeros f.bits a.toNat) = true))

/-- R98 to R101 with R46, R116: compares and predicate logic write one predicate; p7 discards what is written (R21). -/
def Obligations.ComparesAndPredicateLogic : Prop :=
  (∀ s c o, LaneReady s c (useCmpB o o.fmt.bits) → Yields (.vcmp o) s fun t => PredDone s t c o.lead o.pd.val fun l =>
    allAny o.any (selKs o.lead o.fmt.bits) fun k => icond o.cond o.fmt.bits
      (intA o.lead o.fmt (srcVal (gangOf s c.g) l o.a) k) (intB o.lead o.fmt (bInt o.fmt (gangOf s c.g) l o.b) k)) ∧
  (∀ s c o, LaneReady s c (useCmp o o.fmt.bits [] (lenOf o.lead false)) → Yields (.vcmpLi o) s fun t =>
    PredDone s t c o.lead o.pd.val fun l => allAny o.any (selKs o.lead o.fmt.bits) fun k => icond o.cond o.fmt.bits
      (intA o.lead o.fmt (srcVal (gangOf s c.g) l o.a) k) (intB o.lead o.fmt (immInt o.fmt o.b) k)) ∧
  (∀ s c o, LaneReady s c (useCmpB o o.fmt.bits) → Yields (.vfcmp o) s fun t => PredDone s t c o.lead o.pd.val fun l =>
    allAny o.any (selKs o.lead o.fmt.bits) fun k =>
      let a := fltA o.lead o.fmt (srcVal (gangOf s c.g) l o.a) k
      let b := fltB o.lead o.fmt (bFlt o.fmt (gangOf s c.g) l o.b) k
      fcond o.cond (isNan o.fmt a || isNan o.fmt b) (fltNumKey o.fmt a) (fltNumKey o.fmt b)) ∧
  (∀ s c o, LaneReady s c (useVplog o) → bitOf (maskOf o.lead) 0 = true → Yields (.vplog o) s fun t =>
    PredDone s t c o.lead o.pd.val fun l =>
      o.fn.getLsbD (2 * (pGet (gangOf s c.g) o.pa.val l).toNat + (pGet (gangOf s c.g) o.pb.val l).toNat)) ∧
  (∀ s c o, LaneReady s c (useVplog o) → bitOf (maskOf o.lead) 0 = false → Yields (.vplog o) s fun t =>
    PredDone s t c o.lead 7 fun _ => false)

/-- R100, R102, R103: moves, immediates, conversion, packing and unpacking. -/
def Obligations.MovesAndConversions : Prop :=
  (∀ s c o, LaneReady s c (useLr1 o 1) → Yields (.vmov o) s fun t =>
    VecDone s t c o.lead (evenRes o.lead o.d.val o.fmt.bits o.k fun l k =>
      (wrapN o.fmt.bits (intA o.lead o.fmt (srcVal (gangOf s c.g) l o.a) k), []))) ∧
  (∀ s c o, LaneReady s c (useVmovi o) → Yields (.vmovi o) s fun t =>
    VecDone s t c o.lead (evenRes o.lead o.d.val o.fmt.bits o.k fun _ k => (elem (immInt o.fmt o.imm) o.fmt.bits k, []))) ∧
  (∀ s c o, LaneReady s c (useConv o 1 o.x.bits o.fmt.bits) → Yields (.vcvt o) s fun t =>
    VecDone s t c o.lead ⟨o.d.val, o.fmt.bits, maskKs o.lead (Nat.min (64 / o.x.bits) (64 / o.fmt.bits)),
      selKs o.lead o.fmt.bits, o.k, true, fun l k => satOrWrap o.fmt (mwBit o.lead.mw (·.sat))
        (o.x.val (elem (srcVal (gangOf s c.g) l o.a) o.x.bits k))⟩) ∧
  (∀ s c o, LaneReady s c (useVpack o) → Yields (.vpack o) s fun t =>
    VecDone s t c o.lead ⟨o.d.val, o.fmt.bits / 2, packKs o.lead o.fmt.bits, packKs o.lead o.fmt.bits, o.k, true, fun l j =>
      narrowOut o.fmt.signed (mwBit o.lead.mw (·.sat)) (o.fmt.bits / 2) (o.fmt.val
        (if j < 64 / o.fmt.bits then elem (srcVal (gangOf s c.g) l o.a) o.fmt.bits j
         else elem (bInt o.fmt (gangOf s c.g) l o.b) o.fmt.bits (j - 64 / o.fmt.bits)))⟩) ∧
  (∀ s c o, LaneReady s c (useVunpk o) → Yields (.vunpk o) s fun t =>
    VecDone s t c o.lead (evenRes o.lead o.d.val o.fmt.bits o.k fun l k =>
      unpkOut o.fmt (elem (srcVal (gangOf s c.g) l o.a) (o.fmt.bits / 2)
        (k + 64 / o.fmt.bits * (elem (bInt o.fmt (gangOf s c.g) l o.b) o.fmt.bits k % 2)))))

/-- R99: VSEL writes every lane of the run, from A where its selector reads 1 and from B where it reads 0; without a prefix
it copies A; with ZERO it does not decode. -/
def Obligations.SelectWritesEveryLane : Prop :=
  (∀ s c o, ReadyOn s c (useLr2 o 1 false) 0 c.run →
    selChecks (gangOf s c.g) c (useLr2 o 1 false) (actLanes s c o.lead) = .ok () →
    Yields (.vsel o) s fun t => VecDoneOn s t c c.run 0 ⟨o.d.val, o.fmt.bits, selKs o.lead o.fmt.bits, [], o.k, true, fun l k =>
      (elem (if hasLane (actLanes s c o.lead) l then srcVal (gangOf s c.g) l o.a else bInt o.fmt (gangOf s c.g) l o.b)
        o.fmt.bits k, [])⟩) ∧
  (∀ s c (o : Lr2 IFmt), o.lead.pw = none → actLanes s c o.lead = c.run) ∧
  (∀ s c (o : Lr2 IFmt) p, o.lead.pw = some p → ∀ l, l < 32 →
    hasLane (actLanes s c o.lead) l = (hasLane c.run l && (pGet (gangOf s c.g) p.guard.val l != p.inv))) ∧
  (∀ o, encode (.vsel o) = o.lead.words ++ laneWord 0x45 o.fmt.code o.a.code o.b.code o.d.val (b2n o.k) :: o.b.words) ∧
  (∀ o p, o.lead.pw = some p → p.zero = true → decode (encode (.vsel o)) = .error (0x04, 14))

/-- R110 to R120: float arithmetic, functions, minimum, maximum, class, rounding and conversion. -/
def Obligations.FloatArithmetic : Prop :=
  FltLr2 .vfadd (priceF · 3 4) false (fun f m mw a b c => fltOp f m mw (fun m x y _ => addExact m x y) a b c) ∧
  FltLr2 .vfsub (priceF · 3 4) false (fun f m mw a b c => fltOp f m mw (fun m x y _ => addExact m x (negExact y)) a b c) ∧
  FltLr2 .vfmul (priceF · 3 4) false (fun f m mw a b c => fltOp f m mw (fun _ x y _ => mulExact x y) a b c) ∧
  FltLr2 .vfma (priceF · 4 5) true (fun f m mw a b c => fltOp f m mw fmaExact a b c) ∧
  FltLr2 .vfdiv (priceF · 10 14) false (fun f m mw a b c => fltOp f m mw (fun _ x y _ => divExact x y) a b c) ∧
  FltLr1 .vfsqrt (priceF · 10 14) (fnOut .sqrt) ∧ FltLr1 .vfrcp (priceF · 6 8) (fnOut .rcp) ∧
  FltLr1 .vfrsq (priceF · 6 8) (fnOut .rsq) ∧ FltLr1 .vfex2 (fun _ => 6) (fnOut .ex2) ∧
  FltLr1 .vflg2 (fun _ => 6) (fnOut .lg2) ∧ FltLr1 .vfsin (fun _ => 8) (fnOut .sin) ∧
  FltLr1 .vfcos (fun _ => 8) (fnOut .cos) ∧ FltLr1 .vftnh (fun _ => 8) (fnOut .tnh) ∧
  FltLr2 .vfmin (fun _ => 1) false (fun f _ _ a b _ => minMax f false a b) ∧
  FltLr2 .vfmax (fun _ => 1) false (fun f _ _ a b _ => minMax f true a b) ∧
  (∀ s c o, LaneReady s c (useF1 o 1) → Yields (.vfcls o) s fun t =>
    VecDone s t c o.lead (evenRes o.lead o.d.val o.fmt.bits o.k fun l k =>
      (2 ^ fltClass o.fmt (elem (srcVal (gangOf s c.g) l o.a) o.fmt.bits k), []))) ∧
  (∀ s c o, LaneReady s c (useConv o 1 o.fmt.bits o.fmt.bits) → Yields (.vfrnd o) s fun t =>
    VecDone s t c o.lead (evenRes o.lead o.d.val o.fmt.bits o.k fun l k =>
      rndOut o.fmt (effMode (gangOf s c.g) o.lead) o.x (fltA o.lead o.fmt (srcVal (gangOf s c.g) l o.a) k))) ∧
  (∀ s c o, LaneReady s c (useConv o 2 (cvtWidths o.fmt o.x).1 (cvtWidths o.fmt o.x).2) → Yields (.vfcvt o) s fun t =>
    VecDone s t c o.lead ⟨o.d.val, (cvtWidths o.fmt o.x).2,
      maskKs o.lead (Nat.min (64 / (cvtWidths o.fmt o.x).1) (64 / (cvtWidths o.fmt o.x).2)),
      selKs o.lead (cvtWidths o.fmt o.x).2, o.k, true, fun l k =>
        cvtOut o.fmt (effMode (gangOf s c.g) o.lead) o.lead o.x (srcVal (gangOf s c.g) l o.a) k⟩)

/-- R121 to R127: the level-index instructions run on the quarter's SLI unit when it is free, occupy it for the cycles of
R127, and set the bits of SLI.LX for the lanes whose results cross a level (R79, R122). R127: an SLI instruction waits while
its quarter's unit is occupied: it changes nothing but the note that it waits. -/
def Obligations.LevelIndexInstructions : Prop :=
  -- Level index instructions
  (SliArith .vsadd .add false ∧ SliArith .vssub .add true ∧ SliArith .vsmul .mul false ∧ SliArith .vsdiv .div false ∧
  SliFunction .vsexp sliExp ∧ SliFunction .vsln sliLn ∧
  (∀ s c o, LaneReady s c (useF1 o 1) → sliTaken s c.g = false → Yields (.vslvl o) s fun t =>
    VecDone s t c o.lead (evenRes o.lead o.d.val 32 o.k fun l k =>
      (wrapN 32 (sliLevel (elem (srcVal (gangOf s c.g) l o.a) 32 k)), [])) (some 4)) ∧
  (∀ s c o, LaneReady s c (useCmpB o 32) → sliTaken s c.g = false → Yields (.vscmp o) s fun t =>
    PredDone s t c o.lead o.pd.val (fun l => allAny o.any (selKs o.lead 32) fun k =>
      scond o.cond (sliA o.lead (srcVal (gangOf s c.g) l o.a) k) (sliB o.lead (bFlt .s32 (gangOf s c.g) l o.b) k)) (some 4)) ∧
  (∀ s c o, LaneReady s c (useConv o 4 (scvtWidths o.x).1 (scvtWidths o.x).2) → sliTaken s c.g = false →
    Yields (.vscvt o) s fun t => ∃ n, VecDone s t c o.lead ⟨o.d.val, (scvtWidths o.x).2,
      maskKs o.lead (Nat.min (64 / (scvtWidths o.x).1) (64 / (scvtWidths o.x).2)), selKs o.lead (scvtWidths o.x).2, o.k, true,
      fun l k => scvtOut (effMode (gangOf s c.g) o.lead) o.lead o.x (srcVal (gangOf s c.g) l o.a) k⟩ (some n))) ∧
  -- Sli waits for its unit
  ((∀ s c (o : Lr2 FFmt), LaneReady s c (useF2 o 18 false) → sliTaken s c.g = true →
    exec (.vsadd o) s = .next (waitHere s c) ∧ exec (.vssub o) s = .next (waitHere s c) ∧
    exec (.vsmul o) s = .next (waitHere s c) ∧ exec (.vsdiv o) s = .next (waitHere s c)) ∧
  (∀ s c (o : Lr1 FFmt), LaneReady s c (useF1 o 6) → sliTaken s c.g = true →
    exec (.vsexp o) s = .next (waitHere s c) ∧ exec (.vsln o) s = .next (waitHere s c)))

/-! ## Cross-lane instructions and accumulators -/

/-- R104 to R107: cross-lane moves read only active lanes of the issuing run; an index that names another lane gives the
lane's own sub-element. -/
def Obligations.CrossLaneMoves : Prop :=
  Shuffle .vshfl (fun o => useShuffle o.lead o.a (rdB o.b (bitsOf o.fmt.bits (selKs o.lead o.fmt.bits))) o.d.val o.k
      (lenOf o.lead (SrcB.isLit o.b))) (fun o => (o.lead, o.fmt, o.a, o.d.val, o.k)) (fun _ _ _ => none) (fun o G act l k =>
    let i := elem (bInt o.fmt G l o.b) o.fmt.bits k % 256
    if hasLane act (i / 8 % 32) then (i / 8 % 32, i % 8 % (64 / o.fmt.bits)) else (l, k)) ∧
  Shuffle .vshfli (fun o => useShuffle o.lead o.a [] o.d.val o.k (lenOf o.lead false))
    (fun o => (o.lead, o.fmt, o.a, o.d.val, o.k)) (fun _ _ _ => none) (fun o _ act l k =>
    match shflLane o.x l with
    | some m => if hasLane act m then (m, k) else (l, k)
    | none => (l, k)) ∧
  Shuffle .vbcast (fun o => useShuffle o.lead o.a (rdB o.b 0) o.d.val o.k (lenOf o.lead (SrcB.isLit o.b)))
    (fun o => (o.lead, o.fmt, o.a, o.d.val, o.k)) (fun o G act => lowRead G o.b o.fmt.bits act) (fun o G act l k =>
    let i := Word.fld (bInt o.fmt G (lowLane act) o.b) 0 8
    if hasLane act (i / 8 % 32) then (i / 8 % 32, i % 8 % (64 / o.fmt.bits)) else (l, k)) ∧
  (∀ s c o, LaneReady s c (useShuffle o.lead o.a (rdB o.b 0) o.d.val o.k (lenOf o.lead (SrcB.isLit o.b))) →
    lowRead (gangOf s c.g) o.b o.fmt.bits (actLanes s c o.lead) = none →
    pairRead (gangOf s c.g) 1 o.a o.fmt.bits ((lanesOf (actLanes s c o.lead)).map fun l =>
      (l, Word.fld (bInt o.fmt (gangOf s c.g) (lowLane (actLanes s c o.lead)) o.b) 0 8 % (64 / o.fmt.bits))) = none →
    Yields (.vmatch o) s fun t => VecDone s t c o.lead (evenRes o.lead o.d.val o.fmt.bits o.k fun l k =>
      let j := Word.fld (bInt o.fmt (gangOf s c.g) (lowLane (actLanes s c o.lead)) o.b) 0 8 % (64 / o.fmt.bits)
      let x := fun l => elem (srcVal (gangOf s c.g) l o.a) o.fmt.bits j
      let set := laneSet fun m => hasLane (actLanes s c o.lead) m && x m == x l
      (fld (lowLane set * 2 ^ 32 + set.toNat) (k * o.fmt.bits) o.fmt.bits, [])))

/-- R108, R109: every active lane receives the tree's result of each selected position; a scan gives each active lane the
running value over the active lanes up to it, or before it with EXCL. -/
def Obligations.ReductionsAndScans : Prop :=
  (∀ s c o, LaneReady s c (useX o.lead o.fmt.bits o.a o.d.val 2 o.k) → Yields (.vrdc o) s fun t =>
    VecDone s t c o.lead (reduceRes s c o.lead o.fmt.bits o.a o.d.val o.k (fun x => (x, [])) (iredOp o.fmt o.x))) ∧
  (∀ s c o, LaneReady s c (useX o.lead o.fmt.bits o.a o.d.val 3 o.k) → Yields (.vrdcFloat o) s fun t =>
    VecDone s t c o.lead (reduceRes s c o.lead o.fmt.bits o.a o.d.val o.k (passFlt o.fmt)
      (fredOp o.fmt (effMode (gangOf s c.g) o.lead) o.x))) ∧
  (∀ s c o, LaneReady s c (useX o.lead o.fmt.bits o.a o.d.val 2 o.k) → Yields (.vscan o) s fun t =>
    VecDone s t c o.lead (scanRes s c o.lead o.fmt.bits o.a o.d.val o.k (fun x => (x, [])) (iredOp o.fmt o.x.op) o.x.excl
      (iredIdent o.fmt o.x.op))) ∧
  (∀ s c o, LaneReady s c (useX o.lead o.fmt.bits o.a o.d.val 3 o.k) → Yields (.vscanFloat o) s fun t =>
    VecDone s t c o.lead (scanRes s c o.lead o.fmt.bits o.a o.d.val o.k (passFlt o.fmt)
      (fredOp o.fmt (effMode (gangOf s c.g) o.lead) o.x.op) o.x.excl (fredIdent o.fmt o.x.op)))

/-- R26, R145 to R147: QZERO clears the accumulators it names, QWIDE writes or adds float values, QNARR narrows elements into
a vector register. -/
def Obligations.AccumulatorInstructions : Prop :=
  (∀ s c o, LaneReady s c (useQ o.lead 1 [] none) → accChecks s c.g 1 = .ok () → Yields (.qzero o) s fun t =>
    AccDone s t c fun l q e =>
      if bitOf (maskOf o.lead) 0 = true ∧ (hasLane (actLanes s c o.lead) l || hasLane (zerLanes s c o.lead) l) = true ∧
        o.lo.val ≤ q ∧ q ≤ o.hi.val then 0 else qGet (gangOf s c.g) l q e) ∧
  (∀ s c o, LaneReady s c (useQ o.lead 2 [⟨1, o.a, bitsOf 32 (maskKs o.lead 2)⟩] none) → accChecks s c.g 3 = .ok () →
    (o.add = true → poisonQ (gangOf s c.g) (actLanes s c o.lead) o.q.val ((maskKs o.lead 2).map (2 * o.part.val + ·)) 3 = none) →
    Yields (.qwide o) s fun t => AccDone s t c fun l q e =>
      let a := elem (srcVal (gangOf s c.g) l o.a) 32 (e - 2 * o.part.val)
      if q = o.q.val ∧ 2 * o.part.val ≤ e ∧ e - 2 * o.part.val ∈ maskKs o.lead 2 then
        (if hasLane (actLanes s c o.lead) l then
          (if o.add then BitVec.ofNat 32 (roundTo .f32 (effMode (gangOf s c.g) o.lead)
              (addExact (effMode (gangOf s c.g) o.lead) (fltVal .f32 (qGet (gangOf s c.g) l q e).toNat) (fltVal .f32 a)).1).1
           else BitVec.ofNat 32 a)
         else if hasLane (zerLanes s c o.lead) l then 0 else qGet (gangOf s c.g) l q e)
      else qGet (gangOf s c.g) l q e) ∧
  (∀ s c o, LaneReady s c (useQ o.lead 3 [] (some (o.d.val, 3))) → accChecks s c.g 1 = .ok () →
    poisonQ (gangOf s c.g) (actLanes s c o.lead) o.q.val
      ((selKs o.lead o.fmt.bits).map (64 / o.fmt.bits * o.part.val + ·)) 1 = none →
    Yields (.qnarr o) s fun t => VecDone s t c o.lead ⟨o.d.val, o.fmt.bits, selKs o.lead o.fmt.bits, selKs o.lead o.fmt.bits,
      false, false, fun l k =>
        let e := (qGet (gangOf s c.g) l o.q.val (64 / o.fmt.bits * o.part.val + k)).toNat
        if o.src == .raw then (e, [])
        else
          let y := fltFinish o.fmt (effMode (gangOf s c.g) o.lead) o.lead.mw (qnarrVal o.src o.lead.mw e)
          (y.1, once ((if o.src == .f32 then snanEvt .f32 [e] else []) ++ y.2))⟩)

/-! ## Uniform-set instructions -/

/-- R238, R239, R240: the uniform arithmetic group writes s(Sd), with the operations of Table 1 on 64 bits. R239: the counts
of UPOPC and UCLZ. -/
def Obligations.UniformArithmetic : Prop :=
  -- Uniform arithmetic
  (UArith3 .uadd (fun a b => a + b) ∧ UArithUi .uaddUi (fun a b => a + b) ∧ UArith3 .usub (fun a b => a - b) ∧
  UArith3 .umul (fun a b => a * b) ∧ UArithUi .umulUi (fun a b => a * b) ∧
  UArith3u .umulh (fun u a b => if u then ((a.zeroExtend 128 * b.zeroExtend 128) >>> 64).setWidth 64
    else ((a.signExtend 128 * b.signExtend 128) >>> 64).setWidth 64) ∧
  UDivision .udiv (fun u a b => if b = 0 then BitVec.allOnes 64 else if u then a / b else a.sdiv b) ∧
  UDivision .urem (fun u a b => if b = 0 then a else if u then a % b else a.srem b) ∧
  UArith3 .uand (fun a b => a &&& b) ∧ UArithUi .uandUi (fun a b => a &&& b) ∧
  UArith3 .uor (fun a b => a ||| b) ∧ UArithUi .uorUi (fun a b => a ||| b) ∧
  UArith3 .uxor (fun a b => a ^^^ b) ∧ UArithUi .uxorUi (fun a b => a ^^^ b) ∧ UArith3 .uandn (fun a b => a &&& ~~~b) ∧
  UArith3 .ushl (fun a b => a <<< b.toNat) ∧ UArithUi .ushlUi (fun a b => a <<< b.toNat) ∧
  UArith3 .ushr (fun a b => a >>> b.toNat) ∧ UArithUi .ushrUi (fun a b => a >>> b.toNat) ∧
  UArith3 .usar (fun a b => a.sshiftRight b.toNat) ∧ UArithUi .usarUi (fun a b => a.sshiftRight b.toNat) ∧
  UArith3u .umin (fun u a b => if (if u then b.ult a else b.slt a) then b else a) ∧
  UArithUi .uminUi (fun a b => if b.slt a then b else a) ∧
  UArith3u .umax (fun u a b => if (if u then a.ult b else a.slt b) then b else a) ∧
  UArithUi .umaxUi (fun a b => if a.slt b then b else a) ∧
  (∀ o sc, WritesS (.usel o sc) (useUarith o.sd [(8, o.sa.val), (9, o.sb.val), (10, sc.val)] 4) o.sd fun G _ =>
    if sGet G sc.val = 0 then sGet G o.sb.val else sGet G o.sa.val) ∧
  UArith2 .umov (fun a => a) ∧
  (∀ sd imm, WritesS (.umovi sd imm) (useUarith sd [] 4) sd fun _ _ => BitVec.signExtend 64 imm) ∧
  (∀ sd lo hi, WritesS (.ulit sd lo hi) (useUarith sd [] 12) sd fun _ _ => hi ++ lo)) ∧
  -- Uniform counts
  (UArith2 .upopc popcW ∧ UArith2 .uclz clzW ∧
  (∀ a : Word, (clzW a).toNat ≤ 64 ∧ (∀ i, 64 - (clzW a).toNat ≤ i → a.getLsbD i = false) ∧
    (a ≠ 0 → a.getLsbD (63 - (clzW a).toNat) = true)) ∧
  (∀ a : Word, (popcW a).toNat = ((List.range 64).countP fun i => a.getLsbD i)))

/-- R241: UCMP writes the condition word, whose bits are those of Table 2; a branch of UBRNZ or UBRZ whose SEL is the bit's
number plus 1 tests that condition. -/
def Obligations.UcmpWritesTheConditionWord : Prop :=
  UArith3 .ucmp condWord ∧ UArithUi .ucmpUi condWord ∧
  (∀ (a b : Word) i, (condWord a b).getLsbD i = ((condHolds a b)[i]?).getD false) ∧
  (∀ s c (sel sa : Fin 64) off a b i, CtlReady s c (ctlUse [(8, sa.val)] 4) → loopDepth (gangOf s c.g) = 0 →
    sGet (gangOf s c.g) sa.val = condWord a b → i < 12 → sel.val = i + 1 →
    let taken := moveThreads (gangOf s c.g) c.run (c.pc + BitVec.ofInt 64 (off.toInt * 4))
    ((condHolds a b)[i]? = some true → Yields (.ubrnz sel sa off) s fun t => Branched s t c taken) ∧
    ((condHolds a b)[i]? = some false → Yields (.ubrz sel sa off) s fun t => Branched s t c taken))

/-- R242, R243, R244: votes over the run, and moves between a lane and the gang. -/
def Obligations.VotesAndLaneMoves : Prop :=
  (∀ sd p, WritesS (.uvote sd p .ballot) (uniUse 1 [] (some sd.val)) sd fun G run => (voters G run p.val).zeroExtend 64) ∧
  (∀ sd p, WritesS (.uvote sd p .all) (uniUse 1 [] (some sd.val)) sd fun G run => if voters G run p.val = run then 1 else 0) ∧
  (∀ sd p, WritesS (.uvote sd p .any) (uniUse 1 [] (some sd.val)) sd fun G run => if voters G run p.val = 0 then 0 else 1) ∧
  (∀ sd p, WritesS (.uvote sd p .count) (uniUse 1 [] (some sd.val)) sd fun G run =>
    BitVec.ofNat 64 (lanesOf (voters G run p.val)).length) ∧
  (∀ (G : Gang) run p l, l < 32 → hasLane (voters G run p) l = (hasLane run l && pGet G p l)) ∧
  (∀ sd va sb s c, UniReady s c (useLaneGet sd va sb) →
    let l := (sGet (gangOf s c.g) sb.val).toNat % 32
    hasLane c.run l = true → lateRead (gangOf s c.g) (laneBit l) [(8, .v va)] = none →
    poisonV (gangOf s c.g) (laneBit l) va.val (2 ^ 64 - 1) 8 = none →
    Yields (.ulaneGet sd va sb) s fun t => Issued (modGang s c.g fun G => wrS G sd.val (vGet G va.val l)) t c) ∧
  (∀ sd va sb s c, UniReady s c (useLaneGet sd va sb) →
    hasLane c.run ((sGet (gangOf s c.g) sb.val).toNat % 32) = false →
    Yields (.ulaneGet sd va sb) s fun t => Issued (modGang s c.g fun G => wrS G sd.val 0) t c) ∧
  (∀ vd sa sb s c, UniReady s c (useLanePut vd sa sb) →
    let l := (sGet (gangOf s c.g) sb.val).toNat % 32
    Yields (.ulanePut vd sa sb) s fun t =>
      Issued (if hasLane c.run l then modGang s c.g fun G => wrV G vd.val l (sGet G sa.val) (2 ^ 64 - 1) else s) t c) ∧
  (∀ sd p s c, UniReady s c (uniUse 0 [] (some sd.val)) → Yields (.elect sd p) s fun t =>
    sGet (gangOf t c.g) sd.val = BitVec.ofNat 64 (lowLane c.run) ∧
    (∀ r, r ≠ sd.val → sGet (gangOf t c.g) r = sGet (gangOf s c.g) r) ∧ (gangOf t c.g).v = (gangOf s c.g).v ∧
    (∀ q l, l < 32 → pGet (gangOf t c.g) q l =
      if q = p.val ∧ q ≠ 7 ∧ hasLane c.run l = true then l == lowLane c.run else pGet (gangOf s c.g) q l) ∧
    (∀ h, h ≠ c.g → SameRegs (gangOf s h) (gangOf t h)) ∧ Kept s t ∧ Retired s t c)

/-- R31, R245, R69, R81, R122, R254: UGET reads a state register; USET of one that programs write holds what the register's
fields hold, and a write of an event register opens its window anew (R82). -/
def Obligations.StateRegisterAccess : Prop :=
  (∀ sd num s c w, UniReady s c (uniUse 0 [] (some sd.val)) → stateReg s c.g num.toNat = some w →
    Yields (.uget sd num) s fun t => Issued (modGang s c.g fun G => wrS G sd.val w) t c) ∧
  (∀ sd num s c, usetOk num.toNat = true →
    UniDoes s c (uniUse 0 [(7, sd.val)] none) (modGang s c.g fun G => usetGang G num.toNat (sGet G sd.val)) →
    Yields (.uset sd num) s fun t => Issued (modGang s c.g fun G => usetGang G num.toNat (sGet G sd.val)) t c) ∧
  (∀ G (x : Word), srGet (usetGang G rFpMode x) rFpMode =
    if x.toNat % 8 ≤ 4 then x &&& 7 else srGet G rFpMode) ∧
  (∀ G (x : Word), srGet (usetGang G rSliLx x) rSliLx = x &&& 0xFFFFFFFF) ∧
  (∀ G (x : Word) e, e < 9 → srGet (usetGang G (rEvt e) x) (rEvtCnt e) = 0 ∧ SMap.getD (usetGang G (rEvt e) x).winPos e 0 = 0 ∧
    Word.fld (srGet (usetGang G (rEvt e) x) (rEvt e)) 16 32 = Word.fld x 16 32) ∧
  (∀ G (x : Word), usetGang G rLoopCount x = loopSettle (srPut G rLoopCount x)) ∧
  (∀ G n m (x : Word), m ≠ n → (n = rLoopCount → loopDepth G = 0) → (∀ e, e < 9 → n = rEvt e → m ≠ rEvtCnt e) →
    srGet (usetGang G n x) m = srGet G m)

/-! ## Memory -/

/-- R175, R176, R180: a lane load writes v(D) in its lanes with what the bytes at its places give, zeroes it in the zeroed
lanes, and changes nothing else. R175, R177: the accesses of a lane's load and store lie at v(address register) + offset ×
width, in the lanes of the guard alone. R181: a prefetch changes nothing that a program reads. -/
def Obligations.LaneLoads : Prop :=
  -- Lane loads
  ((∀ s c o as_, let act := actLanes s c o.lead
    let r := readyLoad s c.g (vldAccs o s c act)
    LoadReady s r c o 2 as_ → vldAccs o r c act = .ok as_ →
    Yields (.vld o) s fun t => LoadDone r t c o.d.val o.w as_ (loadZeros (gangOf s c.g) o c.run as_)) ∧
  (∀ s c o as_, let act := actLanes s c o.lead
    let r := readyLoad s c.g (spadAccs s c o act)
    LoadReady s r c o 1 as_ → spadAccs r c o act = .ok as_ →
    Yields (.vlds o) s fun t => LoadDone r t c o.d.val o.w as_ (loadZeros (gangOf s c.g) o c.run as_)) ∧
  (∀ s g as_, as_.any (LaneAcc.onMmio s g) = false → as_.any LaneAcc.far = false → readyLoad s g (.ok as_) = s) ∧
  (∀ s g as_, as_.any (LaneAcc.onMmio s g) = true → readyLoad s g (.ok as_) = drainAll s g) ∧
  (∀ (w : IFmt) old bs, loadWord w 0 [] old bs = w.extend (leNat bs)) ∧
  (∀ s g l, gangByte s g l = match queuedByte (gangOf s g).storeQ l with
    | some b => some b
    | none => match queuedByte (coreOf s (gangOf s g).core).outb l with
      | some b => some b
      | none => if l.near then some (locRead s l) else none)) ∧
  -- Lane accesses lie at their addresses
  ((∀ o s c run as_, vldAccs o s c run = .ok as_ → ∀ a ∈ as_, hasLane run a.lane = true ∧
    a.va = vGet (gangOf s c.g) o.a.val a.lane + BitVec.ofInt 64 (sext 8 o.off.toNat * (o.w.bits / 8 : Nat)) ∧
    (a.fmt = 0 → a.locs.length = o.w.bits / 8 ∧ bitOf (maskOf o.lead) 0 = true)) ∧
  (∀ o s c run as_, vstAccs o s c run = .ok as_ ∨ spadAccs s c o run = .ok as_ → ∀ a ∈ as_, hasLane run a.lane = true ∧
    a.va = vGet (gangOf s c.g) o.a.val a.lane + BitVec.ofInt 64 (sext 8 o.off.toNat * (o.w.bits / 8 : Nat)) ∧
    a.fmt = 0 ∧ a.locs.length = o.w.bits / 8)) ∧
  -- Prefetch changes nothing
  (∀ s c o, ReadyOn s c (useM o.lead 1 0 o.a [] none) c.run c.run → Yields (.vprf o) s fun t => Issued s t c)

/-- R158, R178, R180: a lane store enters the queue, where the gang's own loads see it; memory is as before. R158, R159: the
oldest store of a gang's queue becomes visible in its core, and an outbound store is written at its places; no other byte
differs, and no register. R160, R161, R194: a fence of device scope or wider leaves no store of its gang, nor of its core,
behind it. -/
def Obligations.StoresQueueAndDrain : Prop :=
  -- Lane stores enter the queue
  ((∀ s c o as_, let act := bit0 o.lead (actLanes s c o.lead)
    ReadyOn s c (useStore o 2) act act → vstAccs o s c act = .ok as_ → orderGate s c.g (as_.flatMap (·.locs)) = .ok () →
    Yields (.vst o) s fun t => StoresQueued s t c (laneEnts s c o as_)) ∧
  (∀ s c o as_, let act := bit0 o.lead (actLanes s c o.lead)
    ReadyOn s c (useStore o 1) act act → spadAccs s c o act = .ok as_ → orderGate s c.g (as_.flatMap (·.locs)) = .ok () →
    Yields (.vsts o) s fun t => StoresQueued s t c (laneEnts s c o as_))) ∧
  -- Stores become visible
  ((∀ s core g, ∃ t, exec (.storeVisible core (some g) 0) s = .next t ∧
    (gangOf t g).storeQ = (gangOf s g).storeQ.tail ∧ t.mem = s.mem ∧
    (∀ h, SameRegs { gangOf s h with storeQ := (gangOf t h).storeQ, pin := (gangOf t h).pin, early := (gangOf t h).early,
                                     openRds := (gangOf t h).openRds } (gangOf t h)) ∧
    (∀ h, h ≠ g → (gangOf t h).storeQ = (gangOf s h).storeQ) ∧
    (∀ a, queuedByte ((gangOf s g).storeQ.take 1) (.spad a) = none → locRead t (.spad a) = locRead s (.spad a)) ∧
    (∀ l, (∀ a, l = .spad a → queuedByte (coreOf s (gangOf s g).core).outb l = none) → gangByte t g l = gangByte s g l)) ∧
  (∀ s core e q, (coreOf s core).outb = e :: q → pinned s (e.bytes.map (·.1)) = false →
    ∃ t, exec (.storeVisible core none 0) s = .next t ∧ (coreOf t core).outb = q ∧ t.gangs = s.gangs ∧
      (∀ l, l.near = true → locRead t l = (queuedByte [e] l).getD (locRead s l))) ∧
  (∀ s core i e, (coreOf s core).outb[i]? = some e → outWaits s core i e = true →
    exec (.storeVisible core none i) s = .next s)) ∧
  -- Fences drain
  ((∀ sc s c, let r := readyFence s c.g sc
    s.cur = some c → UniDoes r c (uniUse 1 [] none) (drainFor r c.g sc) → fenceGate r c.g sc = .ok () →
    Yields (.fence sc) s fun t => Issued (drainFor r c.g sc) t c) ∧
  (∀ sc s c, let r := readyFence s c.g sc
    s.cur = some c → uniChecks (gangOf r c.g) c (uniUse 1 [] none) = .ok () → fenceGate r c.g sc = .error .hold →
    exec (.fence sc) s = .next (waitHere r c)) ∧
  (∀ s g sc, owesFar s g = false ∨ sc = .gang ∨ sc = .team → readyFence s g sc = s) ∧
  (∀ s g sc, (gangOf (drainFor s g sc) g).storeQ = [] ∧
    (sc ≠ .gang → sc ≠ .team → keptBack s g = false → (coreOf (drainFor s g sc) (gangOf s g).core).outb = [])) ∧
  (∀ s g sc, fenceGate s g sc = .ok () → (gangOf s g).reqs = [] ∧
    (sc ≠ .gang → sc ≠ .team → awaitsFar s g = false ∧ keptBack s g = false)))

/-- R187: uniform loads and stores by the lowest thread of the run. -/
def Obligations.UniformLoadsAndStores : Prop :=
  (∀ s c o ls, let va := sGet (gangOf s c.g) o.sa.val + BitVec.ofInt 64 (sext 9 o.off.toNat * (o.w.bits / 8 : Nat))
    let r := readyLoad s c.g (.ok [uniAcc c va ls])
    plainBytes s c.g (lowThread c) va accRead 8 (o.w.bits / 8) = .ok ls → s.cur = some c → UniLoadReady r c 1 o.sa o.sd va ls →
    Yields (.uld o) s fun t => SWritten r t c o.sd.val (o.w.extend (leNat ((gangBytes r c.g ls).getD [])))) ∧
  (∀ s c o ls, let va := sGet (gangOf s c.g) o.sa.val + BitVec.ofInt 64 (sext 8 o.off.toNat * (o.w.bits / 8 : Nat))
    let r := readyLoad s c.g (.ok [uniAcc c va ls])
    spadBytes s c.g (lowThread c) va o.sp 8 (o.w.bits / 8) = .ok ls → s.cur = some c → UniLoadReady r c 1 o.sa o.sd va ls →
    Yields (.ulds o) s fun t => SWritten r t c o.sd.val (o.w.extend (leNat ((gangBytes r c.g ls).getD [])))) ∧
  (∀ s c o ls, let va := sGet (gangOf s c.g) o.sa.val + BitVec.ofInt 64 (sext 9 o.off.toNat * (o.w.bits / 8 : Nat))
    plainBytes s c.g (lowThread c) va accWrite 8 (o.w.bits / 8) = .ok ls → orderGate s c.g ls = .ok () →
    UniReady s c (uniUse 1 [(8, o.sa.val), (7, o.sd.val)] none) →
    Yields (.ust o) s fun t => StoresQueued s t c
      (storeEnts s c (lowThread c) va (ls.zip (leBytes (o.w.bits / 8) (sGet (gangOf s c.g) o.sd.val).toNat)))) ∧
  (∀ s c o ls, let va := sGet (gangOf s c.g) o.sa.val + BitVec.ofInt 64 (sext 8 o.off.toNat * (o.w.bits / 8 : Nat))
    spadBytes s c.g (lowThread c) va o.sp 8 (o.w.bits / 8) = .ok ls → orderGate s c.g ls = .ok () →
    UniReady s c (uniUse 1 [(8, o.sa.val), (7, o.sd.val)] none) →
    Yields (.usts o) s fun t => StoresQueued s t c
      (storeEnts s c (lowThread c) va (ls.zip (leBytes (o.w.bits / 8) (sGet (gangOf s c.g) o.sd.val).toNat))))

/-- R182 Table 3, R183: an atomic reads its location and writes it in one step, and changes no other byte; `.ld` writes
nothing. R182 to R186, R188: the atomics of a lane instruction in lane order, or the one of a uniform instruction; the old
value reaches the destination. -/
def Obligations.AtomicsUpdateOneLocation : Prop :=
  -- Atomics update one location
  ((∀ s locs op f d c, (∀ l ∈ locs, l.near = true) → locs.Nodup → locs.length = f.bits / 8 →
    let m := leNat (locs.map (locRead s))
    let r := atomicAt s locs op f d c false
    r.1 = m ∧ leNat (locs.map (locRead r.2)) = newVal op f m (d % 2 ^ f.bits) (c % 2 ^ f.bits) ∧
    (∀ l, l ∉ locs → locRead r.2 l = locRead s l) ∧ r.2.gangs = s.gangs ∧ r.2.cores = s.cores) ∧
  (∀ s locs op f d c, atomicAt s locs op f d c true = (leNat (locs.map (locRead s)), s)) ∧
  (∀ (f : IFmt) (m d c : BitVec f.bits),
    newVal .add f m.toNat d.toNat c.toNat = (m + d).toNat ∧ newVal .and f m.toNat d.toNat c.toNat = (m &&& d).toNat ∧
    newVal .or f m.toNat d.toNat c.toNat = (m ||| d).toNat ∧ newVal .xor f m.toNat d.toNat c.toNat = (m ^^^ d).toNat ∧
    newVal .min f m.toNat d.toNat c.toNat = (if (if f.signed then d.slt m else d.ult m) then d else m).toNat ∧
    newVal .max f m.toNat d.toNat c.toNat = (if (if f.signed then m.slt d else m.ult d) then d else m).toNat ∧
    newVal .exch f m.toNat d.toNat c.toNat = d.toNat ∧ newVal .cas f m.toNat d.toNat c.toNat = (if m = c then d else m).toNat)) ∧
  -- Atomic instructions
  ((∀ s c o as_ s1, let act := bit0 o.lead (actLanes s c o.lead)
    let r := readyAtomic s c.g o.ord.rel ((lanesOf act).flatMap fun l => (vatmPlace o s c l).toOption.getD [])
    (o.sp = true → ∀ l, hasLane act l = true → farLane s c (vatmPlace o) l = false) → s.cur = some c →
    laneAtoms r c o true (vatmPlace o) act = .ok as_ → atomPoison r c.g 5 as_ = .ok () →
    doAtomics r c o.w o.op o.sp false o.ord as_ = .ok s1 →
    LaneDoes r c (useAtom o 3 o.sp true) act act (if as_.isEmpty then s1 else caveNote s1 c.g 3 c.pc) →
    Yields (.vatm o) s fun t => Issued (if as_.isEmpty then s1 else caveNote s1 c.g 3 c.pc) t c) ∧
  (∀ s c o as_ s1, let act := bit0 o.lead (actLanes s c o.lead)
    let r := readyAtomic s c.g o.ord.rel ((lanesOf act).flatMap fun l => (vatmsPlace o s c l).toOption.getD [])
    s.cur = some c → laneAtoms r c o true (vatmsPlace o) act = .ok as_ → atomPoison r c.g 5 as_ = .ok () →
    doAtomics r c o.w o.op false false o.ord as_ = .ok s1 →
    LaneDoes r c (useAtom o 2 false true) act act (if as_.isEmpty then s1 else caveNote s1 c.g 3 c.pc) →
    Yields (.vatms o) s fun t => Issued (if as_.isEmpty then s1 else caveNote s1 c.g 3 c.pc) t c) ∧
  (∀ s c o as_ s1, let act := bit0 o.lead (actLanes s c o.lead)
    let r := readyAtomic s c.g o.ord.rel ((lanesOf act).flatMap fun l => (vredPlace o s c l).toOption.getD [])
    s.cur = some c → laneAtoms r c o false (vredPlace o) act = .ok as_ → (o.sp = false → atomPoison r c.g 5 as_ = .ok ()) →
    doAtomics r c o.w o.op false o.sp o.ord as_ = .ok s1 →
    LaneDoes r c (useAtom o 3 false false) act act (if as_.isEmpty then s1 else caveNote s1 c.g 3 c.pc) →
    Yields (.vred o) s fun t => Issued (if as_.isEmpty then s1 else caveNote s1 c.g 3 c.pc) t c) ∧
  (∀ o : UAtm, ∀ s c s1, let r := readyAtomic s c.g o.ord.rel ((uatmPlace o c s).toOption.getD [])
    (o.ld = true → ∀ d x a ls, uatmPlace o c s ≠ .ok (.remote d x a :: ls)) → s.cur = some c →
    UniDoes r c (useUatm o) s1 → uatmBody o c r = .ok s1 → Yields (.uatm o) s fun t => Issued s1 t c) ∧
  (∀ s g rel locs, owesFar s g = false → readyAtomic s g rel locs = s) ∧
  (∀ s c w op acq a i ls d, a.locs = .spad i :: ls → (∀ l ∈ ls, ∃ j, l = .spad j) → a.locs.Nodup → a.locs.length = w.bits / 8 →
    a.dest = .lane a.lane d w → a.lane < 32 → (thr (gangOf s c.g) a.lane).isSome = true →
    let t := doAtomic s c w op false false acq a
    vGet (gangOf t c.g) d a.lane = w.extend (leNat (a.locs.map (locRead s))) ∧
    leNat (a.locs.map (locRead t)) =
      newVal op w (leNat (a.locs.map (locRead s))) (a.d % 2 ^ w.bits) (a.c % 2 ^ w.bits) ∧
    (∀ l, l ∉ a.locs → locRead t l = locRead s l)))

/-- R151, R152, R153, R318, R320: where the bytes of the generic address space lie. R319, R320, R164: what a page refuses. -/
def Obligations.WindowsPlaceBytes : Prop :=
  -- Windows place bytes
  (∀ s g lane (va : Word) kind field, let T := teamOf s (teamKey g)
    (0x01FF000000000000 ≤ va.toNat → va.toNat < 0x01FF800000000000 → let off := va.toNat - 0x01FF000000000000
      genByte s g lane va kind field =
        if off < T.spSize then .ok (.spad (T.core * 2 ^ 18 + T.spBase + off)) else .error (prot field va lane)) ∧
    (0x01FF800000000000 ≤ va.toNat → va.toNat < 0x0200000000000000 → let off := va.toNat - 0x01FF800000000000
      genByte s g lane va kind field = match T.partner with
        | none => .error (prot field va lane)
        | some p => let P := teamOf s p
          if off < P.spSize then .ok (.spad (P.core * 2 ^ 18 + P.spBase + off)) else .error (prot field va lane)) ∧
    (0x01FE000000000000 ≤ va.toNat → va.toNat < 0x01FF000000000000 → T.prSize ≤ va.toNat - 0x01FE000000000000 →
      genByte s g lane va kind field = .error (prot field va lane)) ∧
    ((0x01F0000000000000 ≤ va.toNat ∧ va.toNat < 0x01FE000000000000) ∨ 0x0200000000000000 ≤ va.toNat →
      genByte s g lane va kind field = .error (prot field va lane)) ∧
    (va.toNat < 0x01F0000000000000 → ∀ e big, leafAt s T.core T.ctx va.toNat = .leaf e big →
      genByte s g lane va kind field = match leafRefuses e kind false with
        | some c => .error (.bad c field 0 lane va)
        | none => if leafPlace e = 3 then .ok (.remote (leafDev e) T.ctx (leafPhys e big va.toNat))
          else .ok (.phys (leafPhys e big va.toNat))) ∧
    (va.toNat < 0x01F0000000000000 → ∀ e k a, leafAt s T.core T.ctx va.toNat = .absent e k a →
      genByte s g lane va kind field = .error (.page va kind lane field))) ∧
  -- Pages refuse
  (∀ e : Word,
    (e.getLsbD 51 = true → ∀ k, leafRefuses e k false = some .prot) ∧
    (e.getLsbD 51 = false →
      leafRefuses e accRead false = none ∧
      leafRefuses e accWrite false = (if e.getLsbD 55 then some .prot else none) ∧
      leafRefuses e accFetch false = (if e.getLsbD 53 || !e.getLsbD 54 then some .prot else none) ∧
      leafRefuses e accAtomic false = (if e.getLsbD 53 then some .mmioatm else if e.getLsbD 55 || !e.getLsbD 52 then some .prot else none) ∧
      leafRefuses e accEngRead false = (if e.getLsbD 53 then some .prot else none) ∧
      leafRefuses e accEngWrite false = (if e.getLsbD 55 || e.getLsbD 53 then some .prot else none)))

/-! ## Control -/

/-- R246, R247, R248: branches move the whole run to one address; outside a loop nothing else differs. R249: a branch on a
vote moves the lanes that vote for it, or all of them to the divergent target, and the vote registers count the outcome. -/
def Obligations.BranchesMoveTheRun : Prop :=
  -- Branches move the run
  ((∀ s c p off, CtlReady s c (ctlUse [] 4) → loopDepth (gangOf s c.g) = 0 → voters (gangOf s c.g) c.run p.val ≠ 0 →
    Yields (.ubr p off) s fun t => Branched s t c (moveThreads (gangOf s c.g) c.run (c.pc + BitVec.ofInt 64 (off.toInt * 4)))) ∧
  (∀ s c p off, CtlReady s c (ctlUse [] 4) → loopDepth (gangOf s c.g) = 0 → voters (gangOf s c.g) c.run p.val = 0 →
    Yields (.ubr p off) s fun t => Moved s t c (moveThreads (gangOf s c.g) c.run (c.pc + 4))) ∧
  (∀ s c off, CtlReady s c (ctlUse [] 4) → loopDepth (gangOf s c.g) = 0 →
    Yields (.ujmp off) s fun t => Branched s t c (moveThreads (gangOf s c.g) c.run (c.pc + BitVec.ofInt 64 (off.toInt * 4)))) ∧
  (∀ s c sel sa off, CtlReady s c (ctlUse [(8, sa.val)] 4) → loopDepth (gangOf s c.g) = 0 →
    let zero := if sel.val = 0 then sGet (gangOf s c.g) sa.val = 0 else (sGet (gangOf s c.g) sa.val).getLsbD (sel.val - 1) = false
    let taken := moveThreads (gangOf s c.g) c.run (c.pc + BitVec.ofInt 64 (off.toInt * 4))
    let fall := moveThreads (gangOf s c.g) c.run (c.pc + 4)
    (zero → Yields (.ubrz sel sa off) s fun t => Branched s t c taken) ∧
    (¬ zero → Yields (.ubrz sel sa off) s fun t => Moved s t c fall) ∧
    (zero → Yields (.ubrnz sel sa off) s fun t => Moved s t c fall) ∧
    (¬ zero → Yields (.ubrnz sel sa off) s fun t => Branched s t c taken)) ∧
  (∀ G m pc l, thr (moveThreads G m pc) l = (thr G l).map fun x => if hasLane m l then { x with pc := pc } else x)) ∧
  -- Vote branches
  ((∀ s c p off, CtlReady s c (ctlUse [] 4) → loopDepth (gangOf s c.g) = 0 →
    let G := gangOf s c.g
    let yes := voters G c.run p.val
    let no := c.run &&& ~~~yes
    let to_ := c.pc + BitVec.ofInt 64 (off.toInt * 4)
    (no = 0 → Yields (.brv p off) s fun t => Branched s t c (moveThreads (voteRegs G 0) c.run to_)) ∧
    (no ≠ 0 → yes = 0 → Yields (.brv p off) s fun t => Moved s t c (moveThreads (voteRegs G 1) c.run (c.pc + 4))) ∧
    (no ≠ 0 → yes ≠ 0 → Yields (.brv p off) s fun t =>
      Branched s t c (moveThreads (moveThreads (voteRegs G 2) no (c.pc + 4)) yes to_))) ∧
  (∀ s c p off dv, CtlReady s c (ctlUse [] 8) → loopDepth (gangOf s c.g) = 0 →
    let G := gangOf s c.g
    let yes := voters G c.run p.val
    let no := c.run &&& ~~~yes
    (no = 0 → Yields (.brvDivergent p off dv) s fun t =>
      Branched s t c (moveThreads (voteRegs G 0) c.run (c.pc + BitVec.ofInt 64 (off.toInt * 4)))) ∧
    (no ≠ 0 → yes = 0 → Yields (.brvDivergent p off dv) s fun t =>
      Moved s t c (moveThreads (voteRegs G 1) c.run (c.pc + 8))) ∧
    (no ≠ 0 → yes ≠ 0 → Yields (.brvDivergent p off dv) s fun t =>
      Branched s t c (moveThreads (voteRegs G 2) c.run (c.pc + BitVec.signExtend 64 dv)))) ∧
  (∀ G k, k ≤ 2 → srGet (voteRegs G k) 0x80 = BitVec.ofNat 64 k ∧
    srGet (voteRegs G k) 0x81 = srGet G 0x81 + (if k = 2 then 0 else 1) ∧
    srGet (voteRegs G k) 0x82 = srGet G 0x82 + (if k = 2 then 1 else 0) ∧
    (∀ n, n ≠ 0x80 → n ≠ 0x81 → n ≠ 0x82 → srGet (voteRegs G k) n = srGet G n)))

/-- R250: calls leave the return address in the link register of every lane of the run, and RET sends each lane to its own.
-/
def Obligations.CallsAndReturns : Prop :=
  (∀ s c l off, CtlReady s c { ctlUse [] 4 with vregs := [(12, 8 * l.val + 7)] } → loopDepth (gangOf s c.g) = 0 →
    Yields (.call l off) s fun t =>
      Branched s t c (moveThreads (putLinks c (8 * l.val + 7) 4 (gangOf s c.g)) c.run (c.pc + BitVec.ofInt 64 (off.toInt * 4)))) ∧
  (∀ s c vl sa, CtlReady s c { ctlUse [(8, sa.val)] 4 with vregs := [(7, vl.val)] } → loopDepth (gangOf s c.g) = 0 →
    (sGet (gangOf s c.g) sa.val).toNat % 4 = 0 → Yields (.calli vl sa) s fun t =>
      Branched s t c (moveThreads (putLinks c vl.val 4 (gangOf s c.g)) c.run (sGet (gangOf s c.g) sa.val))) ∧
  (∀ c v G x l, l < 32 → vGet (putLinks c v 4 G) x l = if x = v ∧ hasLane c.run l = true then c.pc + 4 else vGet G x l) ∧
  (∀ s c va, CtlReady s c { ctlUse [] 4 with vregs := [(8, va.val)] } → loopDepth (gangOf s c.g) = 0 →
    readTargets s c va = .ok () → Yields (.ret va) s fun t =>
      Issued s t c ∧ (gangOf t c.g).chain = none ∧
      (∀ l, l < 32 → thr (gangOf t c.g) l =
        (thr (gangOf s c.g) l).map fun x => if hasLane c.run l then { x with pc := vGet (gangOf s c.g) va.val l } else x)) ∧
  (∀ s c va, readTargets s c va = .ok () → ∀ l, l < 32 → hasLane c.run l = true → (vGet (gangOf s c.g) va.val l).toNat % 4 = 0)

/-- R233, R259, R260: NOP falls through, YIELD also gives the next run a turn, EXIT takes the run's threads out of the PC
table, and the gang exits with its last thread. -/
def Obligations.NopYieldExit : Prop :=
  (∀ s c, CtlReady s c (ctlUse [] 4) → loopDepth (gangOf s c.g) = 0 →
    Yields .nop s fun t => Moved s t c (moveThreads (gangOf s c.g) c.run (c.pc + 4))) ∧
  (∀ s c, CtlReady s c (ctlUse [] 4) → loopDepth (gangOf s c.g) = 0 →
    Yields .yield s fun t => Moved s t c (moveThreads (gangOf s c.g) c.run (c.pc + 4)) ∧
      (gangOf t c.g).single = nextRun (gangOf s c.g) c.pc) ∧
  (∀ s c, CtlReady s c (ctlUse [] 4) → loopDepth (gangOf s c.g) = 0 → (gangOf s c.g).role ≠ .worker →
    (gangOf s c.g).late.all (fun f => f.dest != .none) = true → (gangOf s c.g).reqs.all (fun r => r.dest != .none) = true →
    (gangOf s c.g).calls = [] →
    Yields .exit s fun t =>
      let G := dropThreads (gangOf s c.g) c.run
      Moved s t c { G with exiting := G.threads.isEmpty })

/-- R254, R256: ULOOP opens a loop on the run. R257: when every thread of an inner-most loop has issued the instruction at
LOOP.END, the body starts again with one iteration less, or after the last one the loop ends. -/
def Obligations.HardwareLoops : Prop :=
  -- Loops open
  ((∀ s c cnt last n, let G := gangOf s c.g
    CtlReady s c (ctlUse (match cnt with | .reg sa => [(8, sa.val)] | .const _ => []) 8) →
    n = (match cnt with | .reg sa => (sGet G sa.val).toNat | .const k => k.toNat) → 1 ≤ n → n < 2 ^ 32 → 8 ≤ last.toInt →
    loopDepth G = 0 → Yields (.uloop cnt last) s fun t =>
      let H := gangOf t c.g
      Moved s t c (moveThreads G c.run (c.pc + 8)) ∧ loopSet H = c.run ∧ loopCnt H = n ∧ loopDepth H = 1 ∧
      srGet H rLoopStart = c.pc + 8 ∧ srGet H rLoopEnd = c.pc + BitVec.signExtend 64 last) ∧
  (∀ s c cnt last n, let G := gangOf s c.g
    CtlReady s c (ctlUse (match cnt with | .reg sa => [(8, sa.val)] | .const _ => []) 8) →
    n = (match cnt with | .reg sa => (sGet G sa.val).toNat | .const k => k.toNat) → 1 ≤ n → n < 2 ^ 32 → 8 ≤ last.toInt →
    loopDepth G = 1 → c.run &&& ~~~(loopSet G) = 0 → (c.pc + BitVec.signExtend 64 last).toNat ≤ (srGet G rLoopEnd).toNat →
    Yields (.uloop cnt last) s fun t =>
      let H := gangOf t c.g
      Moved s t c (moveThreads G c.run (c.pc + 8)) ∧ loopSet H = c.run ∧ loopCnt H = n ∧ loopDepth H = 2 ∧
      srGet H rLoopStart = c.pc + 8 ∧ srGet H rLoopEnd = c.pc + BitVec.signExtend 64 last ∧
      srGet H rLoopCount1 = srGet G rLoopCount ∧ srGet H rLoopStart1 = srGet G rLoopStart ∧
      srGet H rLoopEnd1 = srGet G rLoopEnd) ∧
  (∀ s c cnt last k, let G := gangOf s c.g
    CtlReady s c (ctlUse (match cnt with | .reg sa => [(8, sa.val)] | .const _ => []) 8) →
    0 = (match cnt with | .reg sa => (sGet G sa.val).toNat | .const k => k.toNat) → 8 ≤ last.toInt → loopDepth G = 0 →
    lengthAt s c.g (c.pc + BitVec.signExtend 64 last) = .ok k → Yields (.uloop cnt last) s fun t =>
      Branched s t c (moveThreads G c.run (c.pc + BitVec.signExtend 64 last + BitVec.ofNat 64 k)))) ∧
  -- Loops repeat
  (∀ s c fall, let G := gangOf s c.g
    loopDepth G = 1 → srGet G rLoopEnd = c.pc → loopSet G ≠ 0 →
    (∀ l, l < 32 → hasLane (loopSet G) l = true →
      hasLane c.run l = true ∧ ∃ x, thr G l = some x ∧ x.pc = fall ∧ x.held = false) →
    let H := gangOf (retire s c fall) c.g
    (1 < loopCnt G → loopCnt H = loopCnt G - 1 ∧ loopSet H = loopSet G ∧ loopDepth H = 1 ∧
      (∀ l, l < 32 → hasLane (loopSet G) l = true → (thr H l).map (·.pc) = some (srGet G rLoopStart) ∧
        (thr H l).map (·.held) = some false)) ∧
    (loopCnt G ≤ 1 → loopDepth H = 0 ∧ srGet H rLoopCount = 0 ∧ srGet H rLoopStart = 0 ∧ srGet H rLoopEnd = 0 ∧
      (∀ l, l < 32 → hasLane (loopSet G) l = true → (thr H l).map (·.pc) = some fall ∧ (thr H l).map (·.held) = some false)))

/-- R251, R252, R253: a DISPATCH queues the lanes of its run for worker gangs, or calls inline; DRET returns from both. R236:
an idle worker gang takes the fullest queue's first items, one to a lane, and a lane that waits for a queue is queued when
one is free. -/
def Obligations.LaneVaryingCalls : Prop :=
  -- Lane varying calls
  ((∀ s c va, let r := sendFar s c.g
    s.cur = some c → UniDoes r c (useDispatch va) (caveNote (drainGang r c.g) c.g 4 c.pc) → readTargets r c va = .ok () →
    releaseGate r c.g = .ok () → dispatchesAway r c.g = true →
    Yields (.dispatch va) s fun t => ∃ u, Counted (caveNote (drainGang r c.g) c.g 4 c.pc) u c ∧ t = queueRun u c va) ∧
  (∀ s c va, let r := sendFar s c.g
    s.cur = some c → UniDoes r c (useDispatch va) (caveNote (drainGang r c.g) c.g 4 c.pc) → readTargets r c va = .ok () →
    releaseGate r c.g = .ok () → dispatchesAway r c.g = false →
    (∀ l, l < 32 → hasLane c.run l = true → inlineDepth (gangOf r c.g) l < 8) →
    Yields (.dispatch va) s fun t => ∃ u, Counted (caveNote (drainGang r c.g) c.g 4 c.pc) u c ∧
      t = modGang u c.g (startInline c va)) ∧
  (∀ s c, let r := sendFar s c.g
    s.cur = some c → CtlReady r c (ctlUse [] 4) → releaseGate r c.g = .ok () →
    (∀ l, l < 32 → hasLane c.run l = true → (inlineOf (gangOf r c.g) l).isSome ∨ (SMap.find (gangOf r c.g).formed l).isSome) →
    Yields .dret s fun t => ∃ u, Counted (drainGang r c.g) u c ∧
      t = modGang ((lanesOf c.run).foldl (fun s l => dretLane s c l) u) c.g fun G =>
        settleCalls { G with chain := none, chainEnd := .never } 64) ∧
  (∀ c va G m t rest, byTarget G c.run va.val = (t, m) :: rest →
    (∀ l, hasLane m l = true → (thr (startInline c va G) l).map (·.pc) = (thr G l).map fun _ => BitVec.ofNat 64 t) ∧
    (∀ l, hasLane m l = true → (thr (startInline c va G) l).map (·.wait) = (thr G l).map fun _ => .none) ∧
    (∀ l, hasLane m l = false → (thr (startInline c va G) l).map (·.pc) = (thr G l).map (·.pc)) ∧
    (∀ l, hasLane m l = false → hasLane c.run l = true →
      (thr (startInline c va G) l).map (·.wait) = (thr G l).map fun _ => .inlineCall) ∧
    (startInline c va G).calls = { ret := c.pc + 4, active := m, done := 0, returned := 0, pending := rest } :: G.calls)) ∧
  -- Workers take queued items
  ((∀ s g target items, (SMap.find s.gangs g).isSome → (gangOf s g).role = .worker → (gangOf s g).threads = [] →
    (teamOf s (teamKey g)).st = .running → (gangOf s g).stopped = false → (gangOf s g).frozen = none →
    (gangOf s g).exiting = false → fullestQueue (teamOf s (teamKey g)).queues = some (target, items) →
    Yields (.workerFormation g) s fun t =>
      (∀ l, thr (gangOf t g) l = ((items.take 32)[l]?).map fun _ =>
        { pc := BitVec.ofNat 64 target, held := false, wait := .none }) ∧
      (∀ l e, (items.take 32)[l]? = some e → SMap.find (gangOf t g).formed l = some e.caller) ∧
      (∀ l e r, (items.take 32)[l]? = some e → r < 8 → vGet (gangOf t g) r l = (e.regs[r]?).getD 0) ∧
      (∀ l r, l < 32 → 8 ≤ r → vGet (gangOf t g) r l = 0) ∧
      (teamOf t (teamKey g)).queues = if (items.drop 32).isEmpty
        then (teamOf s (teamKey g)).queues.filter fun q => q.1 != target
        else (teamOf s (teamKey g)).queues.map fun q => if q.1 == target then (q.1, items.drop 32) else q) ∧
  (∀ s g l th target, l < 32 → thr (gangOf s g) l = some th → th.wait = .dispatchLate target →
    Yields (.dispatchLateQueue g l) s fun t =>
      match queueItem (teamOf s (teamKey g)) target.toNat (itemOf (gangOf s g) g l) with
      | some T => teamOf t (teamKey g) = T ∧ (thr (gangOf t g) l).map (·.wait) = some .dispatch
      | none => teamOf t (teamKey g) = teamOf s (teamKey g) ∧ (thr (gangOf t g) l).map (·.wait) = some (.dispatchLate target)))

/-! ## Barriers, waits, timelines, caches and engine commands -/

/-- R167, R168: a phase barrier's sixteen bytes hold its fields, and the phase advances when both counts are 0. R189 to R192:
BINIT, ARRIVE and BEXPECT update a barrier in one step; s(Sd) receives the phase before it, and an advance is a checkpoint
once the instruction has ended (R338). -/
def Obligations.PhaseBarriers : Prop :=
  -- Barrier object
  ((∀ b : Bar, b.phase < 2 ^ 32 → b.expect < 2 ^ 16 → b.pend < 2 ^ 16 → -(2 ^ 31) ≤ b.bytes → b.bytes < 2 ^ 31 → b.scope < 8 →
    b.low < 2 ^ 27 → barNat b < 2 ^ 128 ∧ barOf (barNat b) = b) ∧
  (∀ b : Bar, b.settle = if b.pend = 0 ∧ b.bytes = 0 then { b with phase := (b.phase + 1) % 2 ^ 32, pend := b.expect } else b) ∧
  (∀ cur p, cur < 2 ^ 32 → p < 2 ^ 32 → (phaseDone cur p = true ↔ ∃ d, 1 ≤ d ∧ d < 2 ^ 31 ∧ cur = (p + d) % 2 ^ 32))) ∧
  -- Barrier instructions
  ((∀ sa sb sc, UniRuns (.binit sa sb sc) (uniUse 1 [(8, sa.val), (9, sb.val)] none) fun c s => binitBody s c sa sb sc) ∧
  (∀ sd sa cnt rel s c s1 ck, let r := if rel then sendFar s c.g else s
    s.cur = some c → UniDoes r c (useArrive sd sa cnt) s1 →
    barBody r c sd sa rel true (arriveBar c cnt) = .ok (s1, ck) →
    Yields (.arrive sd sa cnt rel) s fun t => ∃ u, Issued s1 u c ∧ t = ckptAfter u ck) ∧
  (∀ (o : Ur3) arr rel s c s1 ck, let r := if rel && arr then sendFar s c.g else s
    s.cur = some c → UniDoes r c (uniUse 1 [(8, o.sa.val), (9, o.sb.val)] (some o.sd.val)) s1 →
    barBody r c o.sd o.sa (rel && arr) arr (expectBar c o.sb arr) = .ok (s1, ck) →
    Yields (.bexpect o arr rel) s fun t => ∃ u, Issued s1 u c ∧ t = ckptAfter u ck) ∧
  (∀ c cnt G b, 1 ≤ arrivals c G cnt → arrivals c G cnt ≤ 65535 → arrivals c G cnt ≤ b.pend →
    arriveBar c cnt G b = .ok { b with pend := b.pend - arrivals c G cnt }.settle) ∧
  (∀ c cnt G b, arrivals c G cnt = 0 ∨ 65535 < arrivals c G cnt ∨ b.pend < arrivals c G cnt →
    arriveBar c cnt G b = .error (prot 9 0 (lowThread c))) ∧
  (∀ c sb arr G b, (sGet G sb.val).toNat ≤ 2 ^ 31 - 1 → b.bytes + ((sGet G sb.val).toNat : Int) ≤ 2 ^ 31 - 1 →
    (arr = true → 1 ≤ b.pend) → expectBar c sb arr G b =
      .ok { b with bytes := b.bytes + ((sGet G sb.val).toNat : Int), pend := if arr then b.pend - 1 else b.pend }.settle) ∧
  (∀ s c sd sa rel cave f s1 ck, barBody s c sd sa rel cave f = .ok (s1, ck) →
    ∃ ls n, barPlaces s c.g (lowThread c) (sGet (gangOf s c.g) sa.val) 8 = .ok ls ∧
      let s0 := drainOver s c.g ls
      (readBar s0 ls).init = true ∧ f (gangOf s c.g) (readBar s0 ls) = .ok n ∧
      sGet (gangOf s1 c.g) sd.val = BitVec.ofNat 64 (readBar s0 ls).phase ∧
      (inSpad ls = true → barNat n < 2 ^ 128 → readBar s1 ls = barOf (barNat n))))

/-- R166, R169 to R171, R193: a WAITPH whose rule holds goes on at once; one whose rule does not hold makes its run wait, and
the wait ends when the rule holds. -/
def Obligations.PhaseWaits : Prop :=
  (∀ s c sa sb kind acq ls, let obj := sGet (gangOf s c.g) sa.val
    let val := sGet (gangOf s c.g) sb.val
    let s0 := readyWait s c kind obj
    s.cur = some c → uniChecks (gangOf s c.g) c (uniUse 0 [(8, sa.val), (9, sb.val)] none) = .ok () →
    waitChecks s0 c kind obj val = .ok ls → (if kind = .bar then writeGate s0 c.g ls else orderGate s0 c.g ls) = .ok () →
    waitRule s0 c kind obj val ls = .done [] → loopDepth (gangOf s0 c.g) = 0 →
    let s1 := caveNote (modGang s0 c.g fun G => modThreads G c.run fun x => { x with wait := .none }) c.g 2 c.pc
    Yields (.waitph sa sb kind acq) s fun t => Moved s1 t c (moveThreads (gangOf s1 c.g) c.run (c.pc + 4))) ∧
  (∀ s c sa sb kind acq ls, let obj := sGet (gangOf s c.g) sa.val
    let val := sGet (gangOf s c.g) sb.val
    let s0 := readyWait s c kind obj
    let s1 := if kind = .tl then pollFar s0 ls (.waitph c.g (lowThread c) val) obj else s0
    s.cur = some c → uniChecks (gangOf s c.g) c (uniUse 0 [(8, sa.val), (9, sb.val)] none) = .ok () →
    waitChecks s0 c kind obj val = .ok ls → (if kind = .bar then writeGate s0 c.g ls else orderGate s0 c.g ls) = .ok () →
    waitRule s0 c kind obj val ls = .yet →
    Yields (.waitph sa sb kind acq) s fun t => Quiet s1 t ∧ t.cur = s1.cur ∧
      (gangOf t c.g).threads = (modThreads (gangOf s1 c.g) c.run fun x => { x with wait := .phase kind obj val acq }).threads) ∧
  (∀ s ls who va, (∀ d x a t, ls ≠ .remote d x a :: t) → pollFar s ls who va = s) ∧
  (∀ s g lane x kind obj val acq ls, thr (gangOf s g) lane = some x → x.wait = .phase kind obj val acq →
    (gangOf s g).frozen = none → (gangOf s g).stopped = false → (teamOf s (teamKey g)).st = .running →
    (gangOf s g).handler = none →
    let c : Issue := { g := g, run := waitGroup (gangOf s g) lane, pc := x.pc, issued := false }
    waitChecks s c kind obj val = .ok ls →
    (waitRule s c kind obj val ls = .yet → exec (.waitphComplete g lane) s = .next s) ∧
    let s1 := caveNote (modGang s g fun G => modThreads G c.run fun x => { x with wait := .none }) g 2 c.pc
    (waitRule s c kind obj val ls = .done [] → loopDepth (gangOf s g) = 0 → Yields (.waitphComplete g lane) s fun t =>
      t.cur = none ∧ Quiet s1 t ∧ (gangOf t g).threads = (moveThreads (gangOf s1 g) c.run (c.pc + 4)).threads)) ∧
  (∀ s g lane x kind obj val acq r, thr (gangOf s g) lane = some x → x.wait = .phase kind obj val acq →
    waitAway s g lane = true → waitFault s g lane = some r → Yields (.waitphComplete g lane) s fun t => Quiet s t ∧
      (gangOf t g).threads = (modThreads (gangOf s g) (waitGroup (gangOf s g) lane) fun x => { x with wait := .failed r }).threads) ∧
  (∀ s g lane, (∀ x, thr (gangOf s g) lane = some x →
      (∀ kind obj val acq, x.wait ≠ .phase kind obj val acq) ∧ (∀ r, x.wait ≠ .failed r)) →
    exec (.waitphComplete g lane) s = .next s)

/-- R195: a TLADV raises a timeline to max(current, s(Sb)) in one step, behind the gang's stores, and returns the former
value. R196, R197: the CACHE hints change no value, CACHE.zero stores zeros line by line, and PAGEQ answers from the leaf. -/
def Obligations.TimelinesCachesPages : Prop :=
  -- Timelines advance
  ((∀ (o : Ur3) s c s1, let r := sendFar s c.g
    s.cur = some c → (∀ d x a ls, tladvPlaces r c (sGet (gangOf s c.g) o.sa.val) ≠ .ok (.remote d x a :: ls)) →
    UniDoes r c (uniUse 1 [(8, o.sa.val), (9, o.sb.val)] (some o.sd.val)) s1 → tladvBody o c r = .ok s1 →
    Yields (.tladv o) s fun t => Issued s1 t c) ∧
  (∀ o c s s1, tladvBody o c s = .ok s1 → ∃ ls, tladvPlaces s c (sGet (gangOf s c.g) o.sa.val) = .ok ls ∧
    let s0 := drainAll s c.g
    let old := BitVec.ofNat 64 (leNat (ls.map (locRead s0)))
    sGet (gangOf s1 c.g) o.sd.val = old ∧
    (ls.Nodup → (∀ l ∈ ls, l.near = true) →
      leNat (ls.map (locRead s1)) = Nat.max old.toNat (sGet (gangOf s0 c.g) o.sb.val).toNat ∧
      (∀ l, l ∉ ls → locRead s1 l = locRead s0 l)))) ∧
  -- Cache and pageq
  ((∀ sa sb, UniRuns (.cacheL1drop sa sb) (uniUse 2 [(8, sa.val), (9, sb.val)] none) fun _ s => .ok s) ∧
  (∀ sa sb, UniRuns (.cacheL2fetch sa sb) (uniUse 2 [(8, sa.val), (9, sb.val)] none) fun _ s => .ok s) ∧
  (∀ sa sb, UniRuns (.cacheFarhint sa sb) (uniUse 2 [(8, sa.val), (9, sb.val)] none) fun _ s => .ok s) ∧
  (∀ sa sb s c ps, zeroLines s c sa sb = .ok ps → UniReady s c (uniUse 2 [(8, sa.val), (9, sb.val)] none) →
    Yields (.cacheZero sa sb) s fun t =>
      StoresQueued s t c (ps.flatMap fun p => storeEnts s c (lowThread c) p.1 (p.2.map fun x => (x, 0)))) ∧
  (∀ (o : Ur2) s c, UniReady s c (uniUse 1 [(8, o.sa.val)] (some o.sd.val)) → Yields (.pageq o) s fun t =>
    SWritten s t c o.sd.val (pageqWord s (teamOf s (teamKey c.g)).core (teamOf s (teamKey c.g)).ctx
      (sGet (gangOf s c.g) o.sa.val))) ∧
  (∀ s core ctx (va : Word) e big, va.toNat < 0x01F0000000000000 → leafAt s core ctx va.toNat = .leaf e big →
    (placeOf s (leafPhys e big va.toNat / 65536)).home < 4 → (placeOf s (leafPhys e big va.toNat / 65536)).res < 4 →
    let w := pageqWord s core ctx va
    w.getLsbD 63 = true ∧ Word.fld w 47 2 = leafFmt e ∧ w.getLsbD 46 = big ∧ Word.fld w 44 2 = leafPlace e ∧
    w.getLsbD 43 = leafRo e ∧ w.getLsbD 42 = leafAtm e ∧ w.getLsbD 41 = leafMmio e) ∧
  (∀ s core ctx (va : Word), (∀ e big, leafAt s core ctx va.toNat ≠ .leaf e big) ∨ 0x01F0000000000000 ≤ va.toNat →
    pageqWord s core ctx va = 0))

/-- R128, R129, R135, R198, R203, R206 to R209, R261: the commands to the engines complete at issue with their effect. R170,
R198, R208: an accepted TCOPY or TXFER takes the next number of its context, which has at most 64 commands, and s(Sd)
receives it; TCANCEL takes commands out and counts them. -/
def Obligations.EngineCommandsIssue : Prop :=
  -- Engine commands issue
  ((∀ o : Eng, o.sb.val ≤ 60 → CommandRuns (.tcopyLd o) (useCopy o 4) (recordAtHand o.sa) (copyBody o .ld)) ∧
  (∀ o : Eng, o.sb.val ≤ 60 → CommandRuns (.tcopySt o) (useCopy o 4) (recordAtHand o.sa) (copyBody o .st)) ∧
  (∀ o : Eng, o.sb.val ≤ 60 → CommandRuns (.txfer o) (useCopy o 6) (recordAtHand o.sa) (copyBody o .xfer)) ∧
  (∀ (o : Ur3) ctx, CommandRuns (.tkick o ctx) (uniUse 4 [(8, o.sa.val), (9, o.sb.val)] (some o.sd.val))
    (fun s c => kickFar o c s = []) (kickBody o ctx)) ∧
  (∀ sd sa ctx, CommandRuns (.txferAbort sd sa ctx) (uniUse 6 [(8, sa.val)] (some sd.val)) (fun _ _ => True) (abortBody sd sa ctx)) ∧
  (∀ o, CommandRuns (.tmma o) (useMma o) (fun _ _ => True) fun c s => acceptMatrix s c o false) ∧
  (∀ o, CommandRuns (.tmmas o) (useMma o) (fun _ _ => True) fun c s => acceptMatrix s c o true) ∧
  (∀ sd sa ctx s c, UniReady s c (uniUse 1 [(8, sa.val)] (some sd.val)) → (cancelled s c.g sa ctx).any inFlight = false →
    Yields (.tcancel sd sa ctx) s fun t => Issued (afterCancel s c.g sd sa ctx) t c) ∧
  (∀ (sd : Fin 64) ctx s c, sd.val ≠ 63 → CtlReady s c (uniUse 0 [] (some sd.val)) → Yields (.tprobe sd ctx) s fun t =>
    Issued (modGang s c.g fun G => wrS (wrS G sd.val
      (teamNum (teamOf s (teamKey c.g)) ctx.val (tcuValue (tcuOf s (gangOf s c.g).core ctx.val)))) (sd.val + 1)
      (probeWord s c.g ctx)) t c) ∧
  (∀ sa inc, CommandRuns (.spawn sa inc) (uniUse 2 [(8, sa.val)] none) (itemAtHand sa) (spawnBody sa inc))) ∧
  -- Engine contexts hold commands
  ((∀ o kind c s s1, copyBody o kind c s = .ok s1 →
    let s0 := drainAll s c.g
    let core := (gangOf s c.g).core
    let U := tcuOf s0 core o.ctx.val
    U.cmds.length < 64 ∧ (tcuOf s1 core o.ctx.val).issued = U.issued + 1 ∧
    sGet (gangOf s1 c.g) o.sd.val = teamNum (teamOf s0 (teamKey c.g)) o.ctx.val (U.issued + 1) ∧
    ∃ m, (tcuOf s1 core o.ctx.val).cmds = U.cmds ++ [m] ∧ m.num = U.issued + 1 ∧ m.kind = kind ∧ m.gang = c.g ∧
      m.recAddr = sGet (gangOf s0 c.g) o.sa.val ∧ (kind = .ld ∨ kind = .st → m.left = [(0, tileBytes (leNat m.shape))]) ∧
      m.bar = if o.bar then some (sGet (gangOf s0 c.g) (o.sb.val + 3)) else none) ∧
  (∀ s g sd sa ctx, let t := afterCancel s g sd sa ctx
    sGet (gangOf t g) sd.val = BitVec.ofNat 64 (cancelled s g sa ctx).length ∧
    (∀ m ∈ (tcuOf t (gangOf s g).core ctx.val).cmds, m ∈ (tcuOf s (gangOf s g).core ctx.val).cmds ∧ m ∉ cancelled s g sa ctx)) ∧
  (∀ s g sa (ctx : Fin 4) m, m ∈ cancelled s g sa ctx ↔ m ∈ (tcuOf s (gangOf s g).core ctx.val).cmds ∧
    ((sGet (gangOf s g) sa.val).toNat : Int) + tlOffOf (teamOf s (teamKey g)) ctx.val ≤ m.num ∧ cancellable m = true))

/-- R129, R132, R135, R198, R203, R206 to R209, R261: when each engine command completes: a TCOPY or TXFER with a record and a
block that pass and a free place, a TKICK whose requests all pass, an abort, a TMMA or TMMAS of a leader with good operands and
room in the queue, a TCANCEL once nothing that it cancels can write, a TPROBE always, and a SPAWN of a good record with room. -/
def Obligations.EngineCommandsComplete : Prop :=
  -- Copies
  ((∀ o s c ls, CopyReady s c o 4 ls → Yields (.tcopyLd o) s fun t => TakesNumbers s t c o.ctx.val o.sd.val 1) ∧
  (∀ o s c ls, CopyReady s c o 4 ls → Yields (.tcopySt o) s fun t => TakesNumbers s t c o.ctx.val o.sd.val 1) ∧
  (∀ o s c ls, CopyReady s c o 6 ls →
    let u := endLoads (drainAll s c.g) c.g
    let va := sGet (gangOf s c.g) o.sa.val
    let p := prepare u (ctxOfTeam (teamKey c.g)) (teamKey c.g) .xfer (leNat (ls.map (locRead u)))
      (blockWords (gangOf s c.g) o.sb.val) ((ls.findSome? (locPoison u)).map fun k => (.spue, k, va))
    (∀ k a, p.bad ≠ some (.pagef, k, a)) → (p.count ≠ 0 → SerialsFit s c.g p.count) →
    Yields (.txfer o) s fun t => TakesNumbers s t c o.ctx.val o.sd.val 1) ∧
  (∀ (o : Ur3) (ctx : Fin 4) s c ls, let n := (sGet (gangOf s c.g) o.sb.val).toNat
    let u := drainAll s c.g
    CommandReady s c (uniUse 4 [(8, o.sa.val), (9, o.sb.val)] (some o.sd.val)) → kickPlaces o c s = .ok ls →
    spuePoison s c.g 8 (uniAcc c (sGet (gangOf s c.g) o.sa.val) ls) = none → kickFar o c s = [] →
    (tcuOf s (gangOf s c.g).core ctx.val).cmds.length + n ≤ 64 →
    (∀ i, i < n → let req := kickReq (ls.map (locRead u)) i
      blockChecks u c.g (lowThread c) ((List.range 4).map fun k => BitVec.ofNat 64 (fld req (64 + 64 * k) 64))
        (bitOf (fld req 320 64) 1) = .ok () ∧
      ∃ rs, recordPlaces u c.g (lowThread c) (BitVec.ofNat 64 (fld req 0 64)) = .ok rs) →
    Yields (.tkick o ctx) s fun t => TakesNumbers s t c ctx.val o.sd.val n) ∧
  (∀ (sd sa : Fin 64) (ctx : Fin 4) s c, let u := drainAll s c.g
    CommandReady s c (uniUse 6 [(8, sa.val)] (some sd.val)) → (tcuOf s (gangOf s c.g).core ctx.val).cmds.length < 64 →
    (∀ k a, readComm u (teamOf u (teamKey c.g)).ctx (sGet (gangOf s c.g) sa.val) ≠ .error (.pagef, k, a)) →
    Yields (.txferAbort sd sa ctx) s fun t => TakesNumbers s t c ctx.val sd.val 1)) ∧
  -- Matrix operations
  (∀ (o : Mma) sparse s c, let G := gangOf s c.g
    let T := teamOf s (teamKey c.g)
    CommandReady s c (useMma o) → G.role = .matrix → T.partner.isSome = true → T.leader = true →
    (groupGangs s (teamKey c.g) o.grp).length = 16 →
    operandOk (sGet G o.sa.val) (sGet G (o.sa.val + 1)) sparse (layFmt (sGet G (o.sa.val + 1))) = true →
    operandOk (sGet G o.sb.val) (sGet G (o.sb.val + 1)) false (layFmt (sGet G (o.sa.val + 1))) = true →
    (matOf s (pairOfCore T.core)).ops.length < 4 →
    Yields (if sparse then .tmmas o else .tmma o) s fun t => Retired s t c ∧
      (teamOf t (teamKey c.g)).mIssued = T.mIssued + 1 ∧ sGet (gangOf t c.g) o.sd.val = BitVec.ofNat 64 (T.mIssued + 1) ∧
      (matOf t (pairOfCore T.core)).ops.length = (matOf s (pairOfCore T.core)).ops.length + 1) ∧
  -- Cancelling, probing and spawning
  ((∀ (sd sa : Fin 64) (ctx : Fin 4) s c, UniReady s c (uniUse 1 [(8, sa.val)] (some sd.val)) →
    (cancelled s c.g sa ctx).any inFlight = false → Yields (.tcancel sd sa ctx) s fun t => Retired s t c ∧
      sGet (gangOf t c.g) sd.val = BitVec.ofNat 64 (cancelled s c.g sa ctx).length) ∧
  (∀ (sd : Fin 64) ctx s c, sd.val ≠ 63 → CtlReady s c (uniUse 0 [] (some sd.val)) → Yields (.tprobe sd ctx) s fun t =>
    Retired s t c ∧ sGet (gangOf t c.g) (sd.val + 1) = probeWord s c.g ctx) ∧
  (∀ sa inc s c ls, let va := sGet (gangOf s c.g) sa.val
    let n := leNat ((gangBytes s c.g ls).getD [])
    CommandReady s c (uniUse 2 [(8, sa.val)] none) → spawnPlaces s c va = .ok ls → ls.all Loc.near = true →
    spuePoison s c.g 8 (uniAcc c va ls) = none → spawnOk n inc = true → spawnCounter s c inc (recordOf n).join = .ok () →
    recordRoom s (ctxOfTeam (teamKey c.g)) = true → SerialsFit s c.g 1 →
    Yields (.spawn sa inc) s fun t => Retired s t c ∧
      srGet (gangOf t c.g) rSerNext = BitVec.ofNat 64 (((srGet (gangOf s c.g) rSerNext).toNat + 1) % 2 ^ 32)))

/-- R128, R129, R132, R135, R137: a matrix operation is accepted from a leader's matrix gang with a pair, a full group and
good operands, into a queue of four, with the next number of the pair's timeline. R134, R136, R138 to R140, R143, R210, R266,
R268: the operation at the head of a matrix queue starts when it is paid, writes every accumulator of its group when it
retires, or faults. -/
def Obligations.MatrixUnit : Prop :=
  -- Matrix acceptance
  (∀ s c (o : Mma) sparse s1, acceptMatrix s c o sparse = .ok s1 →
    let s0 := drainAll s c.g
    let G := gangOf s c.g
    let T := teamOf s (teamKey c.g)
    G.role = .matrix ∧ T.partner.isSome = true ∧ T.leader = true ∧ (groupGangs s (teamKey c.g) o.grp).length = 16 ∧
    (matOf s (pairOfCore T.core)).ops.length < 4 ∧
    operandOk (sGet G o.sa.val) (sGet G (o.sa.val + 1)) sparse (layFmt (sGet G (o.sa.val + 1))) = true ∧
    operandOk (sGet G o.sb.val) (sGet G (o.sb.val + 1)) false (layFmt (sGet G (o.sa.val + 1))) = true ∧
    sGet (gangOf s1 c.g) o.sd.val = BitVec.ofNat 64 (T.mIssued + 1) ∧
    (teamOf s1 (teamKey c.g)).mIssued = T.mIssued + 1 ∧
    (∀ r, r ≠ o.sd.val → sGet (gangOf s1 c.g) r = sGet G r) ∧ s1.mem = s0.mem ∧
    ∃ p, (matOf s1 (pairOfCore T.core)).ops = (matOf s (pairOfCore T.core)).ops ++ [p] ∧ p.num = T.mIssued + 1 ∧
      p.team = teamKey c.g ∧ p.gang = c.g ∧ p.acc = o.acc ∧ p.grp = o.grp ∧ p.sparse = sparse ∧ p.running = false ∧
      p.image = s0.mem ∧ p.spans = s0.span) ∧
  -- Matrix operations
  ((∀ s pair o, headOp s pair = some o → o.running = false → farWanted s o = [] → operandFault s o = none →
    let core := opCore s o
    let price := matPrice o.aLay o.sparse
    (coreOf s core).resv = [] → (price : Int) ≤ (coreOf s core).tokens → Yields (.matrixArrayStart pair) s fun t =>
      (∃ pins, (matOf t pair).ops =
          (matOf s pair).ops.map (fun x => if x = o then { x with running := true, pins := pins } else x) ∧
        ∀ a q, a ∈ opMarks o → opLoc s o a = some (.phys q) → q / 64 ∈ pins) ∧
      (coreOf t core).tokens = (coreOf s core).tokens - price ∧ t.mem = s.mem ∧ t.spad = s.spad ∧
      ((SMap.find s.gangs o.gang).isSome = true → srGet (gangOf t o.gang) rTokPrice = BitVec.ofNat 64 price ∧
        srGet (gangOf t o.gang) rTokSpent = srGet (gangOf s o.gang) rTokSpent + BitVec.ofNat 64 price) ∧
      (∀ h, h ≠ o.gang → gangOf t h = gangOf s h)) ∧
  (∀ s pair o, headOp s pair = some o → o.running = false → farWanted s o ≠ [] →
    exec (.matrixArrayStart pair) s = .next (askOperands s pair o)) ∧
  (∀ s pair o, headOp s pair = some o → o.running = false → farWanted s o = [] → operandFault s o = none →
    (∀ r ∈ (coreOf s (opCore s o)).resv, r.holder ≠ .matrix) →
    ((coreOf s (opCore s o)).tokens : Int) < (matPrice o.aLay o.sparse : Nat) ∨ (coreOf s (opCore s o)).resv ≠ [] →
    exec (.matrixArrayStart pair) s = .next (placeResv s .matrix (opCore s o) (matPrice o.aLay o.sparse))) ∧
  (∀ s pair o, headOp s pair = some o → o.running = true → o.gone = true → Yields (.matrixRetire pair) s fun t =>
    (matOf t pair).ops = (matOf s pair).ops.tail ∧ t.gangs = s.gangs ∧ t.teams = s.teams ∧ t.mem = s.mem ∧ t.spad = s.spad) ∧
  (∀ s pair o, headOp s pair = some o → o.running = true → o.gone = false → (groupGangs s o.team o.grp).Nodup →
    Yields (.matrixRetire pair) s fun t =>
      (∀ (i j : Nat) g, i < 256 → j < 128 →
        let k := 8 * (i / 128) + i % 128 / 16
        let l := i % 16 + 16 * (j / 64)
        (groupGangs s o.team o.grp)[k]? = some g → (thr (gangOf s g) l).isSome = true →
        qGet (gangOf t g) l (j % 64 / 8) (j % 8) =
          BitVec.ofNat 32 (matElem s o (qGet (gangOf s g) l (j % 64 / 8) (j % 8)).toNat i j).1) ∧
      (∀ g l, (thr (gangOf s g) l).isNone = true → ∀ q e, q < 8 → e < 8 → qGet (gangOf t g) l q e = qGet (gangOf s g) l q e) ∧
      (∀ g, g ∉ groupGangs s o.team o.grp → gangOf t g = gangOf s g) ∧
      (∀ g, (gangOf t g).v = (gangOf s g).v ∧ (gangOf t g).sr = (gangOf s g).sr ∧ (gangOf t g).p = (gangOf s g).p) ∧
      (matOf t pair).ops = (matOf s pair).ops.tail ∧ t.mem = s.mem ∧ t.spad = s.spad) ∧
  (∀ s pair o f, headOp s pair = some o → o.running = false → farWanted s o = [] → operandFault s o = some f → f.cause ≠ .pagef →
    exec (.matrixOperandFault pair) s = .next (dropMatOp s pair o f)) ∧
  (∀ s pair o f, headOp s pair = some o → o.running = false → farWanted s o = [] → operandFault s o = some f →
    f.cause = .pagef → hostMode s 1 = false →
    exec (.matrixOperandFault pair) s = .next ((zeroFill s (opCtx o) f.addr).getD (dropMatOp s pair o f))) ∧
  (∀ s pair o f, let t := dropMatOp s pair o f
    o ∉ (matOf t pair).ops ∧ (∃ e ∈ (matOf t pair).faults, e.1 = o.team ∧ e.2.num = o.num ∧ e.2.fault.cause = f.cause) ∧
    t.gangs = s.gangs))

/-! ## Exceptions -/

/-- R330, R331, R332: taking a fault with a handler: the TS registers receive the record, the run's threads enter the handler
at TS.VEC, the latches and the chain are discarded, and nothing else of the gang, nor of memory or another gang, changes.
R326, R334: without a handler, or with error recovery in host-assisted mode, the gang is frozen with its record, which the
host receives; a fault in the handler is a double fault, and leaves the TS registers. -/
def Obligations.TakingATrap : Prop :=
  -- Taking a trap enters the handler
  (∀ s g run r rpc, let G := gangOf s g
    G.handler = none → srGet G rTsVec ≠ 0 → hostMode s 5 = false →
    let t := takeTrap s g run r rpc
    let H := gangOf t g
    H.handler = some run ∧ H.frozen = G.frozen ∧
    srGet H rTsPc = r.pc ∧ srGet H rTsRpc = rpc ∧ srGet H rTsCause = BitVec.ofNat 64 r.cause.code ∧
    srGet H rTsLane = BitVec.ofNat 64 r.lane ∧ srGet H rTsAddr = r.addr ∧ srGet H rTsTl = r.tl ∧ srGet H rTsInfo = tsInfo r ∧
    (∀ l, thr H l = (thr G l).map fun x => if hasLane run l then { x with pc := srGet G rTsVec, wait := .none } else x) ∧
    (∀ n, n ∉ [rTsPc, rTsRpc, rTsCause, rTsLane, rTsAddr, rTsTl, rTsInfo, rCave] → srGet H n = srGet G n) ∧
    (r.restart = false → srGet H rCave = srGet G rCave) ∧
    H.x = [] ∧ H.chain = none ∧ H.v = G.v ∧ H.sr = G.sr ∧ H.p = G.p ∧ H.q = G.q ∧ H.storeQ = G.storeQ ∧
    t.mem = s.mem ∧ t.spad = s.spad ∧ t.out = s.out ∧ (∀ h, h ≠ g → gangOf t h = gangOf s h) ∧
    (coreOf t G.core).resv = (coreOf s G.core).resv.filter fun x => x.holder != .gang g) ∧
  -- Faults without handler freeze
  ((∀ s g run r rpc, let G := gangOf s g
    G.handler = none → srGet G rTsVec = 0 ∨ hostMode s 5 = true →
    let t := takeTrap s g run r rpc
    let H := gangOf t g
    H.handler = none ∧ H.frozen = some r ∧ H.frozenRun = run ∧ srGet H rTsPc = r.pc ∧ srGet H rTsRpc = rpc ∧
    srGet H rTsCause = BitVec.ofNat 64 r.cause.code ∧ H.v = G.v ∧ H.sr = G.sr ∧ H.p = G.p ∧ H.q = G.q ∧ H.x = [] ∧
    (∀ l, (thr H l).map (·.pc) = (thr G l).map (·.pc)) ∧ t.out = s.out ++ [.fault 0x03 r] ∧
    (∀ h, h ≠ g → gangOf t h = gangOf s h) ∧ gangReady t g = false) ∧
  (∀ s g run r rpc, let G := gangOf s g
    G.handler.isSome = true →
    let t := takeTrap s g run r rpc
    let H := gangOf t g
    H.handler = G.handler ∧ H.frozen = some { r with dbl := true } ∧ H.threads = G.threads ∧
    (∀ n, n ≠ rCave → srGet H n = srGet G n) ∧ t.out = s.out ++ [.fault 0x03 { r with dbl := true }] ∧
    (∀ h, h ≠ g → gangOf t h = gangOf s h)))

/-- R332: TRAP raises SWTRAP with its code after it has issued; the handler resumes at the next instruction. R333: ERET sends
its run to TS.RPC and ends handler mode; outside handler mode it raises PROT. R380: BKPT stops its core's group where
debugging is enabled there, and raises BKPT where it is not. -/
def Obligations.TrapsAndReturns : Prop :=
  -- Trap instruction
  ((∀ s c code, CtlReady s c (ctlUse [] 4) → loopDepth (gangOf s c.g) = 0 → Yields (.trap code) s fun t =>
    ∃ u, Moved s u c (moveThreads (gangOf s c.g) c.run (c.pc + 4)) ∧
      t = takeTrap u c.g c.run (gangRec u c.g c.pc .swtrap 0 0 0xFF (BitVec.zeroExtend 64 code) false) (nextPc u c 4)) ∧
  (∀ s c code, CtlReady s c (ctlUse [] 4) → loopDepth (gangOf s c.g) = 0 → c.run ≠ 0 → (gangOf s c.g).handler = none →
    srGet (gangOf s c.g) rTsVec ≠ 0 → hostMode s 5 = false → Yields (.trap code) s fun t =>
      let G := gangOf s c.g
      let H := gangOf t c.g
      Retired s t c ∧ H.handler = some c.run ∧ srGet H rTsPc = c.pc ∧ srGet H rTsRpc = c.pc + 4 ∧
      srGet H rTsCause = BitVec.ofNat 64 Cause.swtrap.code ∧ srGet H rTsAddr = BitVec.zeroExtend 64 code ∧
      srGet H rTsLane = 0xFF ∧
      (∀ l, thr H l = (thr G l).map fun x => if hasLane c.run l then { x with pc := srGet G rTsVec, wait := .none } else x) ∧
      H.v = G.v ∧ H.sr = G.sr ∧ H.p = G.p ∧ H.q = G.q ∧ t.mem = s.mem ∧ t.spad = s.spad ∧
      (∀ h, h ≠ c.g → SameRegs (gangOf s h) (gangOf t h)))) ∧
  -- Return from a trap
  ((∀ s c, CtlReady s c (ctlUse [] 4) → loopDepth (gangOf s c.g) = 0 → (gangOf s c.g).handler.isSome = true →
    (srGet (gangOf s c.g) rTsRpc).toNat % 4 = 0 → (gangOf s c.g).stopTrap = false → Yields .eret s fun t =>
      Moved s t c { moveThreads (gangOf s c.g) c.run (srGet (gangOf s c.g) rTsRpc) with
        handler := none, frozen := none, frozenRun := 0 }) ∧
  (∀ s c, CtlReady s c (ctlUse [] 4) → (gangOf s c.g).handler = none →
    exec .eret s = .next (trapHere s c false .prot 13 0 0xFF 0)) ∧
  (∀ s g ts G, gangOf s g = G → G.frozen.isSome = true →
    let H := (ts.filter fun e => isTsReg e.1).foldl (fun G e => srPut G e.1 e.2) G
    (srGet H rTsRpc).toNat % 4 = 0 → exec (.gangHostResume ⟨g, ts⟩) s = .next (setGang s g
      { moveThreads H G.frozenRun (srGet H rTsRpc) with handler := none, frozen := none, frozenRun := 0 }))) ∧
  -- Breakpoint instruction
  ((∀ s c code, CtlReady s c (ctlUse [] 4) → loopDepth (gangOf s c.g) = 0 → dbgEn s (gangOf s c.g).core = false →
    Yields (.bkpt code) s fun t =>
      ∃ u, Moved s u c (moveThreads (gangOf s c.g) c.run (c.pc + 4)) ∧
        t = takeTrap u c.g c.run (gangRec u c.g c.pc .bkpt 0 0 0xFF (BitVec.zeroExtend 64 code) false) (nextPc u c 4)) ∧
  (∀ s c code, CtlReady s c (ctlUse [] 4) → loopDepth (gangOf s c.g) = 0 → dbgEn s (gangOf s c.g).core = true →
    Yields (.bkpt code) s fun t =>
      ∃ u, Moved s u c (moveThreads (gangOf s c.g) c.run (c.pc + 4)) ∧
        t = stopNow u c.g c.run (nextPc u c 4) (stopRec u (some c.g) c.pc (BitVec.zeroExtend 64 code) 0xFF 0 12 0)))

/-- R21, R42, R225: a failed check of an instruction's operands traps before anything is written; naming a v register past
the budget is PROT on its field. -/
def Obligations.FailedChecksTrap : Prop :=
  (∀ s c u act zer body cause field sub lane addr, laneChecks (gangOf s c.g) c u act = .error (.bad cause field sub lane addr) →
    runLaneOn s c u act zer body = trapHere s c u.member cause field sub lane addr) ∧
  (∀ s c u body cause field sub lane addr, uniChecks (gangOf s c.g) c u = .error (.bad cause field sub lane addr) →
    runUniTo s c u body = trapHere s c false cause field sub lane addr) ∧
  (∀ (G : Gang) vs, (∀ v ∈ vs, v.2 < 8 * G.budget + 8) → budgetCheck G vs = .ok ()) ∧
  (∀ (G : Gang) vs, (∃ v ∈ vs, 8 * G.budget + 8 ≤ v.2) → ∃ f, budgetCheck G vs = .error (prot f) ∧ ∃ v ∈ vs, v.1 = f) ∧
  (∀ s c (o : Lr2 IFmt), s.cur = some c → chainCheck (gangOf s c.g) c (useLr2 o 1 false) = .ok () →
    (∀ v ∈ (useLr2 o 1 false).vregs, v.2 ≠ o.d.val → v.2 < 8 * (gangOf s c.g).budget + 8) →
    8 * (gangOf s c.g).budget + 8 ≤ o.d.val → ∃ f, exec (.vadd o) s =
      .next (trapHere s c (useLr2 o 1 false).member .prot f 0 0xFF 0))

/-- R28 Table 3: an instruction that reads a latch outside a chain of its own run raises ILLCHAIN. R27: a result enters latch
x0 of every lane, and the older results move up by one. -/
def Obligations.LatchChains : Prop :=
  -- Latch chain checks
  (∀ G c u, (∃ r ∈ u.reads, ∃ k, r.src = .x k) →
    (G.chain = none → ∃ f, chainCheck G c u = .error (.bad .illchain f 1 0xFF 0)) ∧
    (∀ k, G.chain = some k → k.run ≠ c.run → ∃ f, chainCheck G c u = .error (.bad .illchain f 1 0xFF 0)) ∧
    (∀ k, G.chain = some k → k.run = c.run → G.chainEnd = .never → (∀ r ∈ u.reads, ∀ j, r.src = .x j → j.val + 1 ≤ k.members) →
      4 ≤ k.members → ∃ f, chainCheck G c u = .error (.bad .illchain f 4 0xFF 0)) ∧
    (∀ k, G.chain = some k → k.run = c.run → G.chainEnd = .never → (∃ r ∈ u.reads, ∃ j, r.src = .x j ∧ k.members < j.val + 1) →
      ∃ f, chainCheck G c u = .error (.bad .illchain f 2 0xFF 0))) ∧
  -- Latches shift
  (∀ G f, (∀ l, l < 32 → xGet (pushLatch G f) 0 l = f l) ∧
    (∀ k l, k < 3 → l < 32 → SMap.sorted G.x = true → xGet (pushLatch G f) (k + 1) l = xGet G k l))

/-- R82, R83: events of a class are added to its count, which stops at 2^32 − 1; a count that crosses its threshold acts. -/
def Obligations.EventsCount : Prop :=
  (∀ s g evs pc tl, let G := gangOf s g
    let r := addEvents s g evs pc tl
    let new := fun e => Nat.min ((srGet G (rEvtCnt e)).toNat + countEvt evs e) 0xFFFFFFFF
    let crosses := fun e => countEvt evs e ≠ 0 ∧ (srGet G (rEvtCnt e)).toNat ≤ Word.fld (srGet G (rEvt e)) 16 32 ∧
      Word.fld (srGet G (rEvt e)) 16 32 < new e
    (∀ e, e < 9 → srGet (gangOf r.1 g) (rEvtCnt e) =
      if countEvt evs e = 0 then srGet G (rEvtCnt e) else BitVec.ofNat 64 (new e)) ∧
    (∀ n, (∀ e, e < 9 → n ≠ rEvtCnt e) → srGet (gangOf r.1 g) n = srGet G n) ∧
    (r.2.isSome = true ↔ ∃ e, e < 9 ∧ crosses e ∧ Word.fld (srGet G (rEvt e)) 8 2 = 1) ∧
    ((∀ e, e < 9 → crosses e → Word.fld (srGet G (rEvt e)) 8 2 ≠ 2) → r.1.out = s.out)) ∧
  (∀ s g cls, (SMap.find s.gangs g).isSome = true → cls < 9 →
    2 ^ Word.fld (srGet (gangOf s g) (rEvt cls)) 0 6 ≤ SMap.getD (gangOf s g).winPos cls 0 →
    Yields (.eventWindowExpire g cls) s fun t => srGet (gangOf t g) (rEvtCnt cls) = 0 ∧ SMap.getD (gangOf t g).winPos cls 0 = 0 ∧
      (∀ n, n ≠ rEvtCnt cls → srGet (gangOf t g) n = srGet (gangOf s g) n) ∧ (gangOf t g).v = (gangOf s g).v ∧
      (gangOf t g).sr = (gangOf s g).sr ∧ (∀ h, h ≠ g → gangOf t h = gangOf s h) ∧ t.mem = s.mem) ∧
  (∀ s g cls, (SMap.find s.gangs g).isNone = true ∨ 9 ≤ cls ∨
    SMap.getD (gangOf s g).winPos cls 0 < 2 ^ Word.fld (srGet (gangOf s g) (rEvt cls)) 0 6 →
    exec (.eventWindowExpire g cls) s = .next s)

/-! ## Scripts, ports and messages -/

/-- R241, R288, R291 to R293, R298, R301, R303: the fabric words that wait for nothing: the register written, the next word,
and nothing else. -/
def Obligations.FabricWords : Prop :=
  (∀ s c, s.script = some c →
    let S := scriptOf s c
    let goes := fun (i : Instr) (T : Script) =>
      exec i s = .next { modScript s c (fun _ => scriptNext T) with progress := s.progress + 1 }
    let val := fun (o : FOpnd) => match o with | .reg fb => fGet S fb.val | .imm e => BitVec.signExtend 64 e
    (∀ fd fa, goes (.fmov fd (.reg fa)) (fPut S fd.val (fGet S fa.val))) ∧
    (∀ fd e, goes (.fmov fd (.imm e)) (fPut S fd.val (BitVec.signExtend 64 e))) ∧
    (∀ fd e, goes (.fmov fd (.hi e)) (fPut S fd.val (e ++ (fGet S fd.val).extractLsb' 0 32 : BitVec 64))) ∧
    (∀ fd fa o, goes (.fadd fd fa o) (fPut S fd.val (fGet S fa.val + val o))) ∧
    (∀ fd fa o, goes (.fsub fd fa o) (fPut S fd.val (fGet S fa.val - val o))) ∧
    (∀ fd fa o, goes (.fcmp fd fa o) (fPut S fd.val (condWord (fGet S fa.val) (val o)))) ∧
    (∀ fd port, goes (.cstat fd port) (fPut S fd.val (portWord (portOf s port.val)))) ∧
    (∀ e, goes (.tlsig (.imm e)) { S with tl := if S.tl.ult (BitVec.zeroExtend 64 e) then BitVec.zeroExtend 64 e else S.tl }) ∧
    (∀ f, goes (.tlsig (.reg f)) { S with tl := if S.tl.ult (fGet S f.val) then fGet S f.val else S.tl }) ∧
    (∀ fd, goes (.ftime fd) (fPut S fd.val (BitVec.ofNat 64 s.now))) ∧
    goes .fnop S) ∧
  (∀ s c, s.script = some c →
    let S := scriptOf s c
    let ends := fun (i : Instr) (T : Script) => exec i s = .next { modScript s c (fun _ => T) with progress := s.progress + 1 }
    let target := fun (off : BitVec 24) => (S.pc : Int) + off.toInt
    let inside := fun (off : BitVec 24) => 0 ≤ target off ∧ target off < S.store.length
    let tested := fun (fa : Fin 16) (sel : BitVec 6) =>
      if sel = 0 then fGet S fa.val ≠ 0 else (fGet S fa.val).getLsbD (sel.toNat - 1) = true
    (∀ off, inside off → ends (.fbr off) { S with pc := (target off).toNat, wait := none, st := .running }) ∧
    (∀ z fa sel off, inside off → (tested fa sel ↔ z = false) →
      ends (.fbrc z fa sel off) { S with pc := (target off).toNat, wait := none, st := .running }) ∧
    (∀ z fa sel off, inside off → (tested fa sel ↔ z = true) → ends (.fbrc z fa sel off) (scriptNext S)) ∧
    (∀ off, ¬ inside off → exec (.fbr off) s = .next { scriptFault s c .prot 0 with progress := s.progress + 1 }) ∧
    (∀ z fa sel off, ¬ inside off →
      exec (.fbrc z fa sel off) s = .next { scriptFault s c .prot 0 with progress := s.progress + 1 }) ∧
    (∀ fa, ends (.fhalt false fa) { S with pc := S.pc + 1, st := .idle, wait := none })) ∧
  (∀ s c fa, s.script = some c → exec (.fhalt true fa) s =
    .next { toHost (modScript s c fun S => { S with pc := S.pc + 1, st := .idle, wait := none }) (.notify 0x07 [c] [fGet (scriptOf s c) fa.val])
      with progress := s.progress + 1 }) ∧
  (∀ s c fa code, s.script = some c → exec (.fint fa code) s =
    .next { toHost (modScript s c scriptNext) (.notify 0x05 [c, code.toNat] [fGet (scriptOf s c) fa.val, (scriptOf s c).tl])
      with progress := s.progress + 1 }) ∧
  (∀ S, (scriptNext S).pc = S.pc + 1 ∧ ((scriptNext S).st = .running ↔ S.pc + 1 < S.store.length) ∧
    ((scriptNext S).st = .idle ↔ S.store.length ≤ S.pc + 1) ∧ (scriptNext S).f = S.f) ∧
  (∀ S (i j : Nat) w, fGet (fPut S i w) j = if j = i then w else fGet S j) ∧
  (∀ s c, c < 8 → exec (.scriptReset c) s =
    .next { modScript s c (fun S => { S with st := .idle, wait := none }) with script := if s.script = some c then none else s.script }) ∧
  (∀ s c val, c < 8 → exec (.scriptTimelineWrite c val) s =
    .next (modScript s c fun S => { S with tl := if S.tl.ult val then val else S.tl }))

/-- R285, R294 to R297, R299, R300, R302: the fabric words that may wait: when they complete, with what, and what ends a
wait. -/
def Obligations.FabricWaits : Prop :=
  (∀ s c, s.script = some c →
    let S := scriptOf s c
    let ends := fun (i : Instr) (t : State) => exec i s = .next { t with progress := s.progress + 1 }
    let done := fun (t : State) (fd : Fin 16) (w : Word) => modScript t c fun S => scriptNext (fPut S fd.val w)
    let waits := fun (t : State) (i : Instr) => modScript t c fun S => { S with st := .waiting, wait := some i, since := t.now }
    let inside := fun (off : BitVec 24) => 0 ≤ (S.pc : Int) + off.toInt ∧ (S.pc : Int) + off.toInt < S.store.length
    (∀ fd port dev peer, (portOf s port.val).armed = true →
      ends (.creq fd port dev peer) (done s fd (if (portOf s port.val).owner = c then 1 else 2))) ∧
    (∀ fd port dev peer, (portOf s port.val).armed = false →
      ends (.creq fd port dev peer) (done (armPort s port.val c dev.toNat peer.val) fd 0)) ∧
    (∀ fd port st t off, inside off → (portOf s port.val).st = st → ends (.cwait fd port st t off) (modScript s c fun S =>
      scriptNext (fPut S fd.val (portWord (portOf s port.val))))) ∧
    (∀ fd port st t off, inside off → (portOf s port.val).st ≠ st → (portOf s port.val).reqst = 3 →
      ends (.cwait fd port st t off) (modScript s c fun S => scriptJump (fPut S fd.val (portWord (portOf s port.val))) off)) ∧
    (∀ fd port st t off, inside off → (portOf s port.val).st ≠ st → (portOf s port.val).reqst ≠ 3 →
      ends (.cwait fd port st t off) (waits s (.cwait fd port st t off))) ∧
    (∀ fd port rank comm, (portOf s port.val).st ≠ .live → ends (.cuse fd port rank comm) (done s fd 1)) ∧
    (∀ fd port rank comm, (portOf s port.val).st = .live → (portOf s port.val).owner ≠ c →
      ends (.cuse fd port rank comm) (done s fd 2)) ∧
    (∀ fd port (rank : BitVec 10) (comm : BitVec 16), (portOf s port.val).st = .live → (portOf s port.val).owner = c →
      bindingOf s S.actx comm.toNat rank.toNat = none → s.binds.length < 1024 → ends (.cuse fd port rank comm)
        (done { s with binds := s.binds ++ [{ ctx := S.actx, commid := comm.toNat, rank := rank.toNat, port := port.val }] } fd 0)) ∧
    (∀ fd port (rank : BitVec 10) (comm : BitVec 16), (portOf s port.val).st = .live → (portOf s port.val).owner = c →
      bindingOf s S.actx comm.toNat rank.toNat = none → 1024 ≤ s.binds.length → ends (.cuse fd port rank comm) (done s fd 3)) ∧
    (∀ fd port (rank : BitVec 10) (comm : BitVec 16) q, (portOf s port.val).st = .live → (portOf s port.val).owner = c →
      bindingOf s S.actx comm.toNat rank.toNat = some q → ends (.cuse fd port rank comm)
        (done { s with binds := s.binds.map fun b => if b.ctx = S.actx ∧ b.commid = comm.toNat ∧ b.rank = rank.toNat
          then { b with port := port.val } else b } fd 0)) ∧
    (∀ fd port, (portOf s port.val).armed = false → ends (.crel fd port) (done s fd 1)) ∧
    (∀ fd port, (portOf s port.val).armed = true → (portOf s port.val).owner = c → (portOf s port.val).drain.isSome = true →
      ends (.crel fd port) (waits s (.crel fd port))) ∧
    (∀ fd port, (portOf s port.val).armed = true → (portOf s port.val).owner ≠ c → ends (.crel fd port) (done s fd 2)) ∧
    (∀ fd port, (portOf s port.val).armed = true → (portOf s port.val).owner = c → (portOf s port.val).drain = none →
      (releasePort s port.val).2 = true → ends (.crel fd port) (done (releasePort s port.val).1 fd 0)) ∧
    (∀ fd port, (portOf s port.val).armed = true → (portOf s port.val).owner = c → (portOf s port.val).drain = none →
      (releasePort s port.val).2 = false → ends (.crel fd port) (waits (releasePort s port.val).1 (.crel fd port))) ∧
    (∀ fd fa dst tag, fa.val ≠ 15 →
      ends (.emsg fd fa dst tag) (waits (fsqSend s c (emsgMsg S fa.val dst tag)) (.emsg fd fa dst tag))) ∧
    (∀ fd fa tag off i m, fd.val ≠ 15 → inside off → mailFor S tag = some i → S.mailbox[i]? = some m → ends (.erecv fd fa tag off)
      (modScript s c fun S => { scriptNext (fPut (fPut S fd.val (m.payload.extractLsb' 0 64)) (fd.val + 1)
        (m.payload.extractLsb' 64 64)) with mailbox := S.mailbox.eraseIdx i })) ∧
    (∀ fd fa tag off, fd.val ≠ 15 → inside off → mailFor S tag = none →
      ends (.erecv fd fa tag off) (waits s (.erecv fd fa tag off))) ∧
    (∀ fd fa dst tag, fa.val = 15 → ends (.emsg fd fa dst tag) (scriptFault s c .prot 0)) ∧
    (∀ fd fa tag off, fd.val = 15 ∨ ¬ inside off → ends (.erecv fd fa tag off) (scriptFault s c .prot 0)) ∧
    (∀ fd port st t off, ¬ inside off → ends (.cwait fd port st t off) (scriptFault s c .prot 0)) ∧
    (∀ fa val x, namedTimeline s S.actx (fGet S fa.val) = some x → (fabricValue S val).toNat ≤ x.toNat →
      ends (.tlwait fa val) (modScript s c scriptNext)) ∧
    (∀ fa val x ls, waitName s S.actx (fGet S fa.val) = .value x ls → x.toNat < (fabricValue S val).toNat → S.st ≠ .waiting →
      ends (.tlwait fa val) (waits (pollFar s ls (.script c (fabricValue S val)) (BitVec.ofNat 64 (tlWhich (fGet S fa.val))))
        (.tlwait fa val))) ∧
    (∀ fa val, waitName s S.actx (fGet S fa.val) = .badName → ends (.tlwait fa val) (scriptFault s c .prot 0)) ∧
    (∀ fa val e, waitName s S.actx (fGet S fa.val) = .refused e → e ≠ .pagef → ends (.tlwait fa val) (scriptFault s c e 0))) ∧
  (∀ s c, (scriptOf s c).st = .waiting →
    let S := scriptOf s c
    (∀ fd port st t off, S.wait = some (.cwait fd port st t off) → (portOf s port.val).st = st →
      exec (.cwaitComplete c) s = .next (modScript s c fun S => scriptNext (fPut S fd.val (portWord (portOf s port.val))))) ∧
    (∀ fd port st (t : BitVec 14) off, S.wait = some (.cwait fd port st t off) → (portOf s port.val).st ≠ st → t ≠ 0 →
      S.since + 1000 * t.toNat ≤ s.now →
      exec (.cwaitTimeout c) s = .next (modScript s c fun S => scriptJump (fPut S fd.val (portWord (portOf s port.val))) off)) ∧
    (∀ fd fa tag off, S.wait = some (.erecv fd fa tag off) → (fGet S fa.val).toNat ≠ 0 →
      S.since + 1000 * (fGet S fa.val).toNat ≤ s.now →
      exec (.erecvTimeout c) s = .next (modScript s c fun S => scriptJump S off)) ∧
    (∀ fa val x, S.wait = some (.tlwait fa val) → namedTimeline s S.actx (fGet S fa.val) = some x →
      (fabricValue S val).toNat ≤ x.toNat → exec (.tlwaitComplete c) s = .next (modScript s c scriptNext)) ∧
    (∀ fd fa dst tag o, S.wait = some (.emsg fd fa dst tag) → 
      (s.fsqOut.find? fun o => emsgOf s o.msg.ident o.msg.serial == some c && isEmsg o.msg) = some o →
      64 ≤ o.sends → o.sentAt + 10000 ≤ s.now → exec (.emsgTimeout c) s =
        .next (modScript { s with fsqOut := s.fsqOut.filter fun x => x != o } c fun S => scriptNext (fPut S fd.val 1)))) ∧
  (∀ s p owner dev peer, owner < 8 → let P := portOf (armPort s p owner dev peer) p
    P.armed = true ∧ P.owner = owner ∧ P.peerDev = dev ∧ P.peerPort = peer ∧ P.reqst = 1 ∧ P.fails = 0 ∧ P.reqno = s.reqno ∧
    ∃ m, Msg.fsq m ∈ (armPort s p owner dev peer).out ∧ m.type = 0x01 ∧ m.reqno = BitVec.ofNat 16 s.reqno)

/-- R281 to R284, R395: the ports. R286, R299, R300: the messages between FSQs and with the circuit manager. -/
def Obligations.PortsAndMessages : Prop :=
  -- Ports
  ((∀ s p, (portOf s p).st = .locking → s.now ≤ (portOf s p).since + 25000 →
    exec (.wavelengthLock p) s = .next (movePort s p .trained)) ∧
  (∀ s p, (portOf s p).st = .locking → (portOf s p).since + 25000 < s.now → exec (.wavelengthLock p) s = exec (.lockTimeout p) s) ∧
  (∀ s p, (portOf s p).st = .trained → s.now ≤ (portOf s p).since + 3000 →
    exec (.trainingComplete p) s = .next (movePort s p .live)) ∧
  (∀ s p, (portOf s p).st = .trained → (portOf s p).since + 3000 < s.now →
    exec (.trainingComplete p) s = exec (.trainingTimeout p) s) ∧
  (∀ s p, (portOf s p).st = .locking → (portOf s p).since + 25000 ≤ s.now → exec (.lockTimeout p) s =
    .next (movePort (modPort s p fun P => { P with fails := Nat.min 255 (P.fails + 1) }) p .dark)) ∧
  (∀ s p, (portOf s p).st = .trained → (portOf s p).since + 3000 ≤ s.now → exec (.trainingTimeout p) s =
    .next (movePort (modPort s p fun P => { P with fails := Nat.min 255 (P.fails + 1) }) p .dark)) ∧
  (∀ s p, (portOf s p).st = .dark → (portOf s p).armed = true → (portOf s p).light = false → exec (.lightDetected p) s =
    .next (movePort (modPort s p fun P => { P with light := true, tried := true }) p .locking)) ∧
  (∀ s p, (portOf s p).armed = false ∨ (portOf s p).st ≠ .dark → exec (.lightDetected p) s =
    .next (modPort s p fun P => { P with light := true, tried := if P.light then P.tried else false })) ∧
  (∀ s p, (portOf s p).st = .dark → (portOf s p).drain = none →
    exec (.lightLost p) s = .next (modPort s p fun P => { P with light := false, tried := false })) ∧
  (∀ s p, (portOf s p).drain.isSome = true →
    exec (.lightLost p) s = .next (endDrain (modPort s p fun P => { P with light := false, tried := false }) p)) ∧
  (∀ s p, (portOf s p).st = .live → (portOf s p).drain = none →
    exec (.lightLost p) s = .next (movePort (modPort s p fun P => { P with light := false, tried := false }) p .dark)) ∧
  (∀ s p, (portOf s p).st = .live → exec (.flitCrcError ⟨p, true⟩) s = .next (modPort s p fun P => { P with crc := 1 })) ∧
  (∀ s p, (portOf s p).st = .live → (portOf s p).crc < 31 →
    exec (.flitCrcError ⟨p, false⟩) s = .next (modPort s p fun P => { P with crc := P.crc + 1 })) ∧
  (∀ s p, (portOf s p).st = .live → 31 ≤ (portOf s p).crc → (portOf s p).drain = none →
    exec (.flitCrcError ⟨p, false⟩) s = .next (movePort (modPort s p fun P => { P with tried := true }) p .dark)) ∧
  (∀ s p, (portOf s p).drain.isSome = true → portBusy s p = false → exec (.drainEnd p) s = .next (endDrain s p)) ∧
  (∀ s p t, (portOf s p).drain = some t → t ≤ s.now → exec (.drainTimeout p) s = .next (endDrain s p)) ∧
  (∀ s p dst, let P := portOf s p
    let Q := portOf (movePort s p dst) p
    Q.st = dst ∧ Q.since = s.now ∧ Q.crc = 0 ∧ Q.armed = P.armed ∧ Q.owner = P.owner ∧ Q.fails = P.fails ∧ Q.reqst = P.reqst ∧
    Q.gate = (if P.st = .live ↔ dst = .live then P.gate else P.gate + 1) ∧
    (∀ q, q ≠ p → portOf (movePort s p dst) q = portOf s q) ∧ (movePort s p dst).mem = s.mem ∧
    (movePort s p dst).gangs = s.gangs) ∧
  (∀ s p, let Q := portOf (endDrain s p) p
    Q.st = (if (portOf s p).st = .live then .dark else (portOf s p).st) ∧ Q.armed = false ∧ Q.drain = none ∧ Q.reqst = 0) ∧
  (∀ s p dev peer, (portOf s p).armed = false → exec (.portArm p dev peer) s = .next (armPort s p 8 dev peer)) ∧
  (∀ s p, (portOf s p).armed = true → (portOf s p).owner = 8 → (portOf s p).drain = none →
    exec (.portRelease p) s = .next (releasePort s p).1) ∧
  (∀ s p ctx commid rank, (portOf s p).st = .live → (portOf s p).owner = 8 → bindingOf s ctx commid rank = none →
    s.binds.length < 1024 → exec (.portBind p ctx commid rank) s =
      .next { s with binds := s.binds ++ [{ ctx := ctx, commid := commid, rank := rank, port := p }] }) ∧
  (∀ s p ctx commid rank, (portOf s p).st ≠ .live → exec (.portBind p ctx commid rank) s = .next s)) ∧
  -- Fabric messages
  ((∀ s (m : FsqMsg), (m.ident, m.serial) ∉ s.fsqSeen →
    let t := { send s (.fsqAck m.ident m.serial) with fsqSeen := (m.ident, m.serial) :: s.fsqSeen }
    let p := m.port.toNat
    exec (.cmDrop m) s = .next t ∧
    ((portOf s p).armed = true → (portOf s p).reqno = m.reqno.toNat →
      exec (.cmGrant m) s = .next (wakeCwaits (modPort t p fun P => { P with reqst := 2 }) p) ∧
      exec (.cmRefuse m) s = .next (wakeCwaits (modPort t p fun P => { P with reqst := 3 }) p)) ∧
    ((portOf s p).armed = false ∨ (portOf s p).reqno ≠ m.reqno.toNat → exec (.cmGrant m) s = .next t ∧ exec (.cmRefuse m) s = .next t) ∧
    (∀ c, c = p % 8 → 16 ≤ (scriptOf s c).mailbox.length → exec (.scriptMessageReceive m) s = .next s) ∧
    (∀ c, c = p % 8 → (scriptOf s c).mailbox.length < 16 → (scriptOf s c).st ≠ .waiting →
      exec (.scriptMessageReceive m) s = .next (modScript t c fun S => { S with mailbox := S.mailbox ++ [m] })) ∧
    (∀ c fd fa tag off, c = p % 8 → (scriptOf s c).mailbox = [] → (scriptOf s c).st = .waiting →
      (scriptOf s c).wait = some (.erecv fd fa tag off) → m.type = 0x11 → tag = 0xFFFF ∨ m.reqno = tag →
      exec (.scriptMessageReceive m) s = .next (modScript t c fun S =>
        { scriptNext (fPut (fPut S fd.val (m.payload.extractLsb' 0 64)) (fd.val + 1) (m.payload.extractLsb' 64 64)) with
          mailbox := [] }))) ∧
  (∀ s (m : FsqMsg), (m.ident, m.serial) ∈ s.fsqSeen →
    exec (.cmDrop m) s = .next (send s (.fsqAck m.ident m.serial)) ∧
    exec (.cmGrant m) s = .next (send s (.fsqAck m.ident m.serial)) ∧
    exec (.cmRefuse m) s = .next (send s (.fsqAck m.ident m.serial)) ∧
    exec (.scriptMessageReceive m) s = .next (send s (.fsqAck m.ident m.serial))) ∧
  (∀ s ident serial c fd fa dst tag, (∃ o ∈ s.fsqOut, o.msg.ident = ident ∧ o.msg.serial = serial) →
    emsgOf s ident serial = some c → (scriptOf s c).wait = some (.emsg fd fa dst tag) →
    exec (.fsqAckReceive ident serial) s =
      .next (modScript { s with fsqOut := s.fsqOut.filter fun o => !(o.msg.ident == ident && o.msg.serial == serial) } c
        fun S => scriptNext (fPut S fd.val 0))) ∧
  (∀ s ident serial, (∀ o ∈ s.fsqOut, ¬ (o.msg.ident = ident ∧ o.msg.serial = serial)) →
    exec (.fsqAckReceive ident serial) s = .next s) ∧
  (∀ s idx o, s.fsqOut[idx]? = some o → o.sentAt + 10000 ≤ s.now → o.sends < 64 →
    exec (.fsqMessageResend idx) s =
      .next { s with fsqOut := s.fsqOut.set idx { o with sentAt := s.now, sends := o.sends + 1 }, out := s.out ++ [.fsq o.msg] }) ∧
  (∀ s c m, c < 8 → ∃ n, (fsqSend s c m).out = s.out ++ [.fsq n] ∧ n.payload = m.payload ∧ n.type = m.type ∧
    n.serial = (scriptOf s c).serial ∧ (scriptOf (fsqSend s c m) c).serial = (scriptOf s c).serial + 1 ∧
    (fsqSend s c m).fsqOut = s.fsqOut ++ [{ msg := n, sentAt := s.now, sends := 1 }]))

/-! ## Commands, admission, scheduling and the end of teams -/

/-- R221, R222, R393, R394: the command processor takes the next command of the queue whose turn it is, and what each kind of
command does. R221: the queue served next has the lowest QPRIO of those with a command to parse. -/
def Obligations.QueueCommands : Prop :=
  -- Queue commands
  ((∀ s q, s.power = .on → queueNext s = some q → hostMode s 0 = false →
    let ws := cmdWords s q
    let s1 := { s with lastQ := SMap.put s.lastQ (queueOf s q).prio q }
    (cmdKind ws = 1 → exec (.launch q) s = .next (parseLaunch s1 q ws)) ∧
    (cmdKind ws = 2 → exec (.script q) s = .next (parseScript s1 q ws)) ∧
    (cmdKind ws = 3 → exec (.wait q) s = .next (parseWait s1 q ws)) ∧
    (cmdKind ws = 4 → exec (.signal q) s = .next (parseSignal s1 q ws)) ∧
    (cmdKind ws = 0 ∨ 4 < cmdKind ws → exec (.launch q) s = .next (commandError s1 q))) ∧
  (∀ s q, s.power = .on → queueNext s = some q → hostMode s 0 = true → (queueOf s q).verdict ≠ 1 → cmdKind (cmdWords s q) = 1 →
    exec (.launch q) s = .next (toHost (modQueue { s with lastQ := SMap.put s.lastQ (queueOf s q).prio q } q fun Q => { Q with asked := true })
      (.notify 0x0A [q, (queueOf s q).head.toNat] (cmdWords s q)))) ∧
  (∀ s q w0 name val x, Word.fld w0 8 56 = 0 → tlClass name = 3 → namedTimeline s (queueOf s q).ctx name = some x →
    parseWait s q [w0, name, val, 0] =
      if val.toNat ≤ x.toNat then queueAdvance s q else modQueue s q fun Q => { Q with waiting := true, cmd := [w0, name, val, 0] }) ∧
  (∀ s q w0 w1 w2 w3, Word.fld w0 8 56 ≠ 0 ∨ w3 ≠ 0 → parseWait s q [w0, w1, w2, w3] = commandError s q) ∧
  (∀ s q x, (queueOf s q).waiting = true → cmdKind (queueOf s q).cmd = 3 → Word.fld (cmdWord (queueOf s q).cmd 0) 8 56 = 0 →
    cmdWord (queueOf s q).cmd 3 = 0 →
    namedTimeline s (queueOf s q).ctx (cmdWord (queueOf s q).cmd 1) = some x → (cmdWord (queueOf s q).cmd 2).toNat ≤ x.toNat →
    exec (.waitRelease q) s = .next (queueAdvance s q)) ∧
  (∀ s q words, (queueOf s q).waiting = true → cmdKind (queueOf s q).cmd = 2 → (queueOf s q).en = true →
    let c := Word.fld (cmdWord (queueOf s q).cmd 0) 8 3
    (scriptOf s c).st = .idle → scriptWords s q (queueOf s q).cmd = .ok words →
    exec (.scriptForward q) s = .next (queueAdvance (modScript s c fun S =>
      { S with store := words, pc := 0, st := .running, wait := none, actx := (queueOf s q).ctx, base := cmdWord (queueOf s q).cmd 1 }) q)) ∧
  (∀ s q, (queueOf s q).halt = true ∨ (queueOf s q).waiting = true → exec (.queueSkip q) s =
    .next (modQueue s q fun Q =>
      { Q with head := Q.head + 1, halt := false, waiting := false, asked := false, verdict := 0, cmd := [], pfNo := none })) ∧
  (∀ s q, q < 64 → exec (.queueDisable q) s = .next (modQueue s q fun Q => { Q with en := false })) ∧
  (∀ s q, (queueOf s q).asked = true →
    exec (.verdictParse q) s = .next (parseCommand (modQueue s q fun Q => { Q with verdict := 1 }) q) ∧
    exec (.verdictSkip q) s = .next (modQueue s q fun Q =>
      { Q with head := Q.head + 1, waiting := false, asked := false, verdict := 0, cmd := [], pfNo := none })) ∧
  (∀ s q, (queueOf (commandError s q) q).halt = true ∧ (queueOf (commandError s q) q).head = (queueOf s q).head ∧
    (commandError s q).out = s.out ++ [.notify 0x02 [q, (queueOf s q).head.toNat] []])) ∧
  -- Lowest priority queue first
  ((∀ s q, queueNext s = some q → queueEligible s q = true ∧
    ∀ p, p < 64 → queueEligible s p = true → (queueOf s q).prio ≤ (queueOf s p).prio) ∧
  (∀ s, queueNext s = none → ∀ p, p < 64 → queueEligible s p = false))

/-- R228 to R230, R274: a dispatcher admits the first record of its queues to a core of its die that fits. R20, R25, R225:
the gangs of a team as admission starts them. -/
def Obligations.Admission : Prop :=
  -- Admission
  ((∀ s die w core t left, die < 4 → s.power = .on →
    firstRecord s ((recordsIn s fun d => d == die || d == 4).filter fun w => !residentRec s w.ent.item) = some w →
    noPool s w.ent.item.cls = false → heldBack s w.ent.item = false →
    coreFor s (w.key / 5) die w.ent.item.cls (askOf s (w.key / 5) w.ent.item) = some core →
    admitHead s (w.key / 5) core w.ent.item = some (t, left) →
    exec (.teamAdmit die) s = .next (setRecord t w left)) ∧
  (∀ s die victim w core t left, die < 4 → victim < 4 → die ≠ victim → s.power = .on → recordsIn s (fun d => d == die) = [] →
    firstRecord s (dieRecords s (fun d => d == 4) ++
      (dieRecords s fun d => d == victim).filter fun w => w.ent.at_ + 2000 ≤ s.now) = some w → w.key % 5 = victim →
    heldBack s w.ent.item = false →
    coreFor s (w.key / 5) die w.ent.item.cls (askOf s (w.key / 5) w.ent.item) = some core →
    admitHead s (w.key / 5) core w.ent.item = some (t, left) →
    exec (.dieQueueSteal die victim) s = .next (setRecord t w left)) ∧
  (∀ s die victim w,
    firstRecord s (dieRecords s (fun d => d == 4) ++
      (dieRecords s fun d => d == victim).filter fun w => w.ent.at_ + 2000 ≤ s.now) = some w → w.key % 5 ≠ victim →
    exec (.dieQueueSteal die victim) s = .next s) ∧
  (∀ s die w, die < 4 → s.power = .on →
    firstRecord s ((recordsIn s fun d => d == die || d == 4).filter fun w => !residentRec s w.ent.item) = some w →
    noPool s w.ent.item.cls = true → w.key % 5 = die → exec (.teamAdmit die) s = .next (wantPool s die w.ent.item.cls)) ∧
  (∀ s ctx die cls a core, a.pair = false → coreFor s ctx die cls a = some core →
    80 * die ≤ core ∧ core < 80 * die + 80 ∧ fits s ctx core cls a = true ∧
    ∀ c, 80 * die ≤ c → c < 80 * die + 80 → fits s ctx c cls a = true → freeCount s c ≤ freeCount s core) ∧
  (∀ s ctx core cls a, fits s ctx core cls a = true → (islandOf s (islandOfCore core)).pool = cls ∧
    (∀ t ∈ teamsOn s core, ctxOfTeam t = ctx) ∧ (coreOf s core).suspect = false ∧
    matrixOn s core + (a.roles.filter (· == .matrix)).length ≤ 16) ∧
  (∀ s launch w t, s.waiting.contains launch = true → s.power = .on → waitsFirst s launch = false →
    noPool s (launchClass s launch) = false →
    (recordsIn s fun _ => true).filter (fun w => w.ent.item.launch == some launch) = [w] → savedTeams s launch = [] →
    admitRange s w (rangeCount w.ent.item + 1) w.ent.item = some t →
    exec (.residentAdmit launch) s = .next { t with waiting := t.waiting.filter fun k => k != launch }) ∧
  (∀ s launch w, s.waiting.contains launch = true → s.power = .on → noPool s (launchClass s launch) = false →
    (recordsIn s fun _ => true).filter (fun w => w.ent.item.launch == some launch) = [w] →
    admitRange s w (rangeCount w.ent.item + 1) w.ent.item = none → exec (.residentAdmit launch) s = .next s) ∧
  (∀ s launch, waitsFirst s launch = true → exec (.residentAdmit launch) s = .next s) ∧
  (∀ s launch k, k ∈ s.waiting → launchPrio s k < launchPrio s launch → waitsFirst s launch = true)) ∧
  -- Gangs start
  ((∀ a core slot age role budget, let G := startGang a core slot age role budget
    sGet G 0 = a.frame ∧ (∀ i, 0 < i → i < 64 → sGet G i = (a.image[i]?).getD 0) ∧ (∀ n l, vGet G n l = 0) ∧
    (∀ n l, n < 7 → pGet G n l = false) ∧ G.core = core ∧ G.slot = slot ∧ G.role = role ∧ G.budget = budget ∧
    srGet G rTsVec = a.trap ∧ (∀ l, thr G l = if role = .worker then none else if l < 32 then
      some { pc := a.entry, held := false, wait := .none } else none)) ∧
  (∀ s ctx core number index r partner leader t s', admitTeam s ctx core number index r partner leader = some (t, s') →
    let a := askOf s ctx r
    t = mkTeam ctx number ∧ (teamOf s' t).core = core ∧ (teamOf s' t).ctx = ctx ∧ (teamOf s' t).index = index ∧
    (teamOf s' t).ngang = a.roles.length ∧ (teamOf s' t).spSize = a.scratch ∧
    (∀ slots, slotsFor s core a.roles.length = some slots → ∀ i role budget slot, i < 32 → a.roles[i]? = some role →
      a.budgets[i]? = some budget → slots[i]? = some slot →
      gangOf s' (mkGang t i) = { startGang a core slot (s.age + i) role budget with
        ckSerial := (gangOf s' (mkGang t i)).ckSerial, wroteV := [], wroteS := [], wroteQ := [] }) ∧
    (∀ i, (teamOf s' t).spBase ≤ i → i < (teamOf s' t).spBase + (teamOf s' t).spSize →
      locRead s' (.spad (core * 2 ^ 18 + i)) = 0) ∧ s'.mem = s.mem))

/-- R231, R233, R237: the bounds on issue and the time slices. -/
def Obligations.SchedulingBounds : Prop :=
  (∀ s g G, SMap.find s.gangs g = some G → 256 ≤ G.idle → G.overdue = false →
    exec (.gangOverdue g) s = .next (setGang s g { G with overdue := true })) ∧
  (∀ s g G p q, SMap.find s.gangs g = some G → 4096 ≤ G.turns → G.single = none → midChain G = false →
    (runPcs G).head? = some p → nextRun G p = some q →
    exec (.yieldBound g) s = .next (setGang s g { G with single := some q, turns := 0 })) ∧
  (∀ s g G, SMap.find s.gangs g = some G → G.turns < 4096 ∨ midChain G = true → exec (.yieldBound g) s = .next s) ∧
  (∀ s core, 2 ^ 22 ≤ (coreOf s core).sliceN → coreInChain s core = false → exec (.sliceEnd core) s =
    .next (preemptAll (modCore s core fun C => { C with sliceN := 0, sliceAt := cyclesOf s core })
      ((teamsOn s core).filter (mustLeave s core)))) ∧
  (∀ s core, (coreOf s core).sliceN < 2 ^ 22 ∨ coreInChain s core = true → exec (.sliceEnd core) s = .next s) ∧
  (∀ s core, exec (.sliceIdleTimeout core) s = .next
    (if (coreOf s core).sliceAt + 2 ^ 20 ≤ cyclesOf s core ∧ coreInChain s core = false ∧
        ∃ t ∈ teamsOn s core, mustLeave s core t = true then
      preemptAll (modCore s core fun C => { C with sliceN := 0, sliceAt := cyclesOf s core })
        ((teamsOn s core).filter (mustLeave s core))
     else s)) ∧
  (∀ s quarter core t, SMap.find (coreOf s core).sliBusy quarter = some t → t ≤ cyclesOf s core →
    exec (.sliOccupancyEnd core quarter) s = .next (modCore s core fun C => { C with sliBusy := SMap.erase C.sliBusy quarter }))

/-- R138, R227, R259, R343, R347, R348: gangs end, teams retire, are flushed or are killed. -/
def Obligations.TeamsEnd : Prop :=
  (∀ s g G, SMap.find s.gangs g = some G → G.exiting = true → (G.role = .matrix → matrixBusy s (teamKey g) = false) →
    exec (.gangExitComplete g) s = .next (modCore (modGang (drainGang s g) g fun G => { G with exiting := false })
      G.core fun C => { C with gone := SMap.put C.gone G.slot G.lastPc })) ∧
  (∀ s t, (SMap.find s.teams t).isSome = true → teamDone s t = true → exec (.teamRetire t) s =
    .next (endTeam (joinServe (noteRetired ((gangsOf s t).foldl drainAll s) t false) t) t true false)) ∧
  (∀ s t, teamDone s t = false → exec (.teamRetire t) s = .next s) ∧
  (∀ s t, (SMap.find s.teams t).isSome = true → exec (.teamKill t) s =
    .next (killTeam s t ((gangsOf s t).filterMap fun g => (gangOf s g).frozen).head?)) ∧
  (∀ s t keep killed, let u := endTeam s t keep killed
    SMap.find u.teams t = none ∧ (∀ g, teamKey g = t → SMap.find u.gangs g = none) ∧
    (∀ g, teamKey g ≠ t → (gangOf u g).v = (gangOf s g).v ∧ (gangOf u g).sr = (gangOf s g).sr ∧
      (gangOf u g).threads = (gangOf s g).threads) ∧
    (keep = false → u.orphans = s.orphans ∧ u.finals = s.finals)) ∧
  (∀ T, flushable T = true ↔ T.idem = true ∧ T.everTaint = false ∧ T.issued < 2 ^ 20)

/-! ## Power, heat, translation and placement -/

/-- R265, R266: a price is taken from the station at once where it holds the tokens and owes nothing; otherwise the
instruction waits, and its reservation joins the queue once. R262, R263, R266 to R268, R270: revolutions of the token ring,
the payment of reservations, and the byte budgets. -/
def Obligations.TokensFlow : Prop :=
  -- Prices are paid
  ((∀ s g (price : Nat), price ≠ 0 → CanPay s g price → ∃ t, payTokens s g price false = some t ∧
    (coreOf t (gangOf s g).core).tokens = (coreOf s (gangOf s g).core).tokens - price ∧
    (coreOf t (gangOf s g).core).resv = [] ∧
    srGet (gangOf t g) rTokPrice = BitVec.ofNat 64 price ∧
    srGet (gangOf t g) rTokSpent = srGet (gangOf s g) rTokSpent + BitVec.ofNat 64 price ∧
    (∀ h, h ≠ g → gangOf t h = gangOf s h) ∧ t.mem = s.mem) ∧
  (∀ s g (price : Nat), price ≠ 0 → (coreOf s (gangOf s g).core).tokens < (price : Int) → (coreOf s (gangOf s g).core).resv = [] →
    payTokens s g price false = none) ∧
  (∀ s h k price, (coreOf s k).resv.any (fun r => r.holder == h && r.price == price) = false →
    let q : Resv := { holder := h, price := price, paid := 0, placed := cyclesOf s k }
    ∃ l₁ l₂, (coreOf s k).resv.filter (fun r => r.holder != h) = l₁ ++ l₂ ∧
      (coreOf (placeResv s h k price) k).resv = l₁ ++ q :: l₂ ∧ (∀ r ∈ l₁, resvBefore s r q = true) ∧
      (∀ r, l₂.head? = some r → resvBefore s r q = false) ∧
      heldTokens (coreOf (placeResv s h k price) k) = heldTokens (coreOf s k)) ∧
  (∀ s h k price, (coreOf s k).resv.any (fun r => r.holder == h && r.price == price) = true →
    coreOf (placeResv s h k price) k = coreOf s k) ∧
  (∀ s c u act zer s1 evs body, laneChecks (gangOf s c.g) c u act = .ok () → body s act zer = .ok (s1, evs) →
    payTokens s1 c.g (lanePrice u.price (act ||| zer)) u.member = none →
    runLaneOn s c u act zer body =
      waitHere (placeResv s (.gang c.g) (gangOf s c.g).core (lanePrice u.price (act ||| zer))) c)) ∧
  -- Tokens flow
  ((∀ s die, die < 4 → s.power = .on → (dieOf s die).revAt + 64 ≤ s.now → Yields (.ringRevolution die) s fun t =>
    (dieOf t die).revAt = (dieOf s die).revAt + 64 ∧
    (∀ c, 80 * die ≤ c → c < 80 * die + 80 → (coreOf t c).ringEnt = entitlement s (islandOfCore c) ∧ (coreOf t c).ringGot = 0 ∧
      ((coreOf s c).tokens + ((coreOf s c).ringEnt - (coreOf s c).ringGot : Nat) ≤ 16384 → (coreOf s c).resv = [] →
        (coreOf t c).tokens = (coreOf s c).tokens + ((coreOf s c).ringEnt - (coreOf s c).ringGot : Nat))) ∧
    (∀ c, heldTokens (coreOf s c) ≤ 16384 →
      (coreOf s c).tokens ≤ (coreOf t c).tokens ∧ heldTokens (coreOf t c) ≤ 16384) ∧
    (∀ c, (c < 80 * die ∨ 80 * die + 80 ≤ c) → coreOf t c = coreOf s c) ∧
    (∀ c, coreOf t c = { coreOf s c with tokens := (coreOf t c).tokens, ringEnt := (coreOf t c).ringEnt, ringGot := (coreOf t c).ringGot }) ∧
    t.gangs = s.gangs ∧ t.mem = s.mem) ∧
  (∀ s die, die < 4 → s.power = .on → s.now < (dieOf s die).revAt + 64 → Yields (.ringRevolution die) s fun t =>
    t.dies = s.dies ∧ t.gangs = s.gangs ∧ t.mem = s.mem ∧
    (∀ c, 80 * die ≤ c → c < 80 * die + 80 → (coreOf t c).ringGot = (coreOf s c).ringGot + ringDue s c ∧
      ((coreOf s c).tokens + ringDue s c ≤ 16384 → (coreOf s c).resv = [] →
        (coreOf t c).tokens = (coreOf s c).tokens + ringDue s c))) ∧
  (∀ s c, (coreOf s c).ringGot = 0 → ringDue s c ≤ (coreOf s c).ringEnt) ∧
  (∀ s i, 160 ≤ entitlement s i) ∧
  (∀ s core g r, (coreOf s core).resv = [r] → r.holder = .gang g → r.paid < r.price →
    (r.price : Int) - r.paid ≤ (coreOf s core).tokens → Yields (.tokenReservationPaid core) s fun t =>
      (coreOf t core).tokens = (coreOf s core).tokens - ((r.price : Int) - r.paid) ∧
      (coreOf t core).resv = [{ r with paid := r.price }] ∧
      srGet (gangOf t g) rTokWait = srGet (gangOf s g) rTokWait + BitVec.ofNat 64 (cyclesOf s core - r.placed) ∧
      (∀ h, h ≠ g → gangOf t h = gangOf s h) ∧ t.mem = s.mem) ∧
  (∀ s die, (dieOf s die).budgetAt < s.now / 1000 → Yields (.budgetInterval die) s fun t =>
    (dieOf t die).budgetAt = s.now / 1000 ∧
    (∀ k, k < 8 → islandOf t (8 * die + k) = { islandOf s (8 * die + k) with l2Used := 0, farUsed := 0 }) ∧
    (∀ i, i < 8 * die ∨ 8 * die + 8 ≤ i → islandOf t i = islandOf s i) ∧ t.gangs = s.gangs ∧ t.cores = s.cores ∧ t.mem = s.mem))

/-- R263, R264, R271 to R276: classes, pools, gates and pacing. R277, R278: heat caps entitlements; at 118 degrees the device
trips and stands still until power goes. -/
def Obligations.ClassesPoolsAndHeat : Prop :=
  -- Classes and pools
  ((∀ s i e, (islandOf s i).moving = some e → e ≤ s.now → (islandOf s i).nextPool = none → exec (.classTransitionEnd i) s =
    .next (modIsland s i fun I =>
      { I with moving := none, oldCls := I.cls, ent := if hostMode s 4 then I.ent else nominal I.cls, nextPool := none })) ∧
  (∀ s i e, (islandOf s i).moving = some e → s.now < e → exec (.classTransitionEnd i) s = .next s) ∧
  (∀ s i p, (islandOf s i).moving = none → moveIsland s i p = modIsland s i fun I =>
    { I with pool := p, oldCls := I.cls, cls := p - Word.fld s.pacing 61 2, moving := some (s.now + 40000) }) ∧
  (∀ s i p, (islandOf s i).moving.isSome = true → moveIsland s i p = modIsland s i fun I => { I with nextPool := some p }) ∧
  nominal 0 = 640 ∧ nominal 1 = 832 ∧ nominal 2 = 1024 ∧ nominal 3 = 1216 ∧
  (∀ s i val, hostMode s 4 = true → i < 32 → Yields (.poolWrite i val) s fun t =>
    (islandOf t i).ent = Nat.max 160 (Word.fld val 36 12) ∧ (islandOf t i).l2b = Nat.max 1 (Word.fld val 22 12) ∧
    (islandOf t i).farb = Nat.max 1 (Word.fld val 10 12) ∧
    (∀ j, j ≠ i → islandOf t j = islandOf s j) ∧ t.gangs = s.gangs ∧ t.cores = s.cores ∧ t.mem = s.mem) ∧
  (∀ s i val, hostMode s 4 = false → exec (.poolWrite i val) s = .next s) ∧
  (∀ s die i, (dieOf s die).drain = some i → teamsOnIsland s i = [] → exec (.islandDrained die) s =
    .next (moveIsland (modDie s die fun D => { D with drain := none }) i (dieOf s die).drainCls)) ∧
  (∀ s core quarter, quarter < 4 →
    let idle := fun (k : Nat) => SMap.getD (coreOf s core).unitAt (4 * quarter + k) 0 + 64 ≤ cyclesOf s core
    let to_ := fun (i : Instr) (k : Nat) => exec i s =
      .next (if idle k then modCore s core fun C => { C with gated := SMap.put C.gated (4 * quarter + k) 1 } else s)
    to_ (.unitGate core quarter .matrix) 0 ∧ to_ (.unitGate core quarter .vfloat) 1 ∧ to_ (.unitGate core quarter .sli) 2 ∧
    to_ (.unitGate core quarter .memory) 3) ∧
  (∀ s, Yields .pacingDisable s fun t => Word.fld t.pacing 63 1 = 0 ∧ Word.fld t.pacing 61 2 = 0 ∧
    Word.fld t.pacing 0 61 = Word.fld s.pacing 0 61 ∧ t.gangs = s.gangs ∧ t.cores = s.cores ∧ t.mem = s.mem)) ∧
  -- Heat
  ((∀ s die temp, die < 4 → s.power = .on → temp < 118 →
    exec (.thermalReading die temp) s = .next (modDie s die fun D => { D with temp := temp })) ∧
  (∀ s die temp, die < 4 → s.power = .on → 118 ≤ temp → Yields (.thermalReading die temp) s fun t =>
    t.power = .tripped s.now ∧ t.mem = s.mem ∧ t.matrix = [] ∧ t.cxes = [] ∧ (∀ c, (coreOf t c).tcu = []) ∧
    (∀ g, (gangOf t g).stopped = false) ∧ (∀ g r l, vGet (gangOf t g) r l = vGet (gangOf s g) r l)) ∧
  (∀ s at_, s.power = .tripped at_ → exec .powerRemoval s = .next { s with power := .off }) ∧
  (∀ cls t, t < 105 → thermalCap cls t = none) ∧
  (∀ cls t, 105 ≤ t → thermalCap cls t = some (Nat.max 160 (nominal cls * (115 - t) / 10))) ∧
  (∀ s at_, s.power = .tripped at_ ∨ s.power = .off → s.inputs = [] → ∃ t, step s = .next t ∧ t.power = s.power ∧ t.mem = s.mem ∧
    t.spad = s.spad ∧ ∀ h, (gangOf t h).threads = (gangOf s h).threads ∧ (gangOf t h).v = (gangOf s h).v ∧
      (gangOf t h).sr = (gangOf s h).sr))

/-- R321, R322, R325: TLBs, walks, invalidation, and the host's answer to a page fault. R12, R137, R154, R359: the placement
engine moves pages, and a page's rind entries go with its home. -/
def Obligations.TranslationAndPlacement : Prop :=
  -- Translation events
  ((∀ s core ctx page e big, core < 320 → tlbFind (coreOf s core).tlb ctx (page * 65536) = none →
    tlbFind (dieOf s (core / 80)).tlb ctx (page * 65536) = some (e, big) → exec (.tlbMiss core ctx page) s =
      .next (modCore s core fun C => { C with tlb := tlbFill 512 C.tlb (tlbEnt ctx page e big) })) ∧
  (∀ s core ctx page, core < 320 → tlbFind (coreOf s core).tlb ctx (page * 65536) = none →
    tlbFind (dieOf s (core / 80)).tlb ctx (page * 65536) = none →
    (ctx, page) ∉ (dieOf s (core / 80)).walks → exec (.tlbMiss core ctx page) s =
      .next (modDie s (core / 80) fun D => { D with walks := D.walks ++ [(ctx, page)] })) ∧
  (∀ s die ctx page, (ctx, page) ∉ (dieOf s die).walks.take 64 → exec (.walkComplete die ctx page) s = .next s) ∧
  (∀ s die ctx page e big, (ctx, page) ∈ (dieOf s die).walks.take 64 → walk s ctx (page * 65536) = .leaf e big →
    Yields (.walkComplete die ctx page) s fun t => t = { s with dies := t.dies, progress := s.progress + 1 } ∧
      (dieOf t die).tlb = tlbFill 16384 (dieOf s die).tlb (tlbEnt ctx page e big) ∧
      (dieOf t die).walks = (dieOf s die).walks.filter (fun w => w != (ctx, page)) ∧
      (∀ d, d ≠ die → dieOf t d = dieOf s d)) ∧
  (∀ s die ctx page e k a, (ctx, page) ∈ (dieOf s die).walks.take 64 → walk s ctx (page * 65536) = .absent e k a →
    exec (.walkComplete die ctx page) s =
      .next { modDie s die (fun D => { D with walks := D.walks.filter fun w => w != (ctx, page) }) with progress := s.progress + 1 }) ∧
  (∀ n l e, 0 < n → e ∈ tlbFill n l e ∧ (l.length ≤ n → (tlbFill n l e).length ≤ n)) ∧
  (∀ s val, s.invalid = none → val.getLsbD 63 = true → Yields (.invalidateGo val) s fun t => t.invalid.isSome = true ∧
    (∀ v, t.invalid = some v → Word.fld v 0 41 = Word.fld val 0 41 ∧ Word.fld v 50 13 = Word.fld val 50 13) ∧
    t.gangs = s.gangs ∧ t.cores = s.cores ∧ t.mem = s.mem) ∧
  (∀ s val, s.invalid.isSome = true → exec (.invalidateGo val) s = .next s) ∧
  (∀ s v, s.invalid = some v → checkedAccesses s (Word.fld v 50 12) = false → Yields .invalidateDone s fun t =>
    t.invalid = none ∧ (∀ c, (coreOf t c).tlb = (coreOf s c).tlb.filter fun e => !invalidated v e) ∧
    (∀ d, (dieOf t d).tlb = (dieOf s d).tlb.filter fun e => !invalidated v e) ∧
    (∀ c, coreOf t c = { coreOf s c with tlb := (coreOf t c).tlb }) ∧ t.mem = s.mem ∧
    (∀ g, gangOf t g = if ctxOfTeam (teamKey g) = Word.fld v 50 12 then closeReads (gangOf s g) else gangOf s g)) ∧
  (∀ s v, s.invalid = some v → checkedAccesses s (Word.fld v 50 12) = true → exec .invalidateDone s = .next s) ∧
  (∀ s id g, (∃ f ∈ s.faultsOut, f.id = id) → s.pfWaiters = [(id, g)] → (SMap.find s.gangs g).isSome = true →
    exec (.pageFaultRetry id) s = .next (modGang
      { s with faultsOut := s.faultsOut.filter fun f => f.id != id, pfWaiters := [], progress := s.progress + 1 }
      g fun G => { G with pf := .none })) ∧
  (∀ s id g f, s.faultsOut.find? (fun f => f.id == id) = some f → s.pfWaiters = [(id, g)] → (SMap.find s.gangs g).isSome = true →
    exec (.pageFaultRefuse id) s = .next (modGang
      { s with faultsOut := s.faultsOut.filter fun f => f.id != id, pfWaiters := [], progress := s.progress + 1 }
      g fun G => { G with pf := .refused f.page }))) ∧
  -- Pages move
  ((∀ s frame home res, home < 4 → res < 2 → frame ∉ pinnedFrames s → mayMove s frame res = true →
    (placeOf s frame).home = home → (placeOf s frame).res ≠ 2 → (placeOf s frame).res ≠ res → (res = 1 → l2Room s home = true) →
    exec (.pageMove frame home res) s =
      .next { s with place := SMap.put s.place frame { placeOf s frame with res := 2, dest := res } }) ∧
  (∀ s frame home res, frame ∈ pinnedFrames s ∨ mayMove s frame res = false → exec (.pageMove frame home res) s = .next s) ∧
  (∀ s frame res e, e ∈ leavesOf s frame → leafMmio e = true ∨ (leafPlace e = 1 ∧ res = 0) ∨ (leafPlace e = 2 ∧ res = 1) →
    mayMove s frame res = false) ∧
  (∀ s frame home res, home < 4 → res < 2 → frame ∉ pinnedFrames s → mayMove s frame res = true →
    (inL2 (placeOf s frame) = true → (placeOf s frame).home ≠ home → l2Room s home = true) →
    Yields (.pageMove frame home res) s fun t =>
    (placeOf t frame).home = home ∧ (∀ f, f ≠ frame → placeOf t f = placeOf s f) ∧ t.mem = s.mem ∧ t.gangs = s.gangs ∧
    ((placeOf s frame).home ≠ home → ∀ e, e ∈ (sxeOf s (placeOf s frame).home).rind → movesWith s frame e = true →
      e ∈ (sxeOf t home).rind ∧ e ∉ (sxeOf t (placeOf s frame).home).rind)) ∧
  (∀ s frame, (placeOf s frame).res = 2 → exec (.pageMoveDone frame) s =
    .next { s with place := SMap.put s.place frame { placeOf s frame with res := (placeOf s frame).dest } }))

/-! ## Copy engines, collectives and other devices -/

/-- R204, R205, R207, R210: the bytes of a copy land at their places, the number of a copy that is done completes, and one
that cannot go on faults. -/
def Obligations.CopiesLand : Prop :=
  (∀ s core ctx num first count m us, cmdOf s core ctx num = some m → landable s core ctx m first count = some us →
    copyWants m us ≠ [] → exec (.copyBytesLand core ctx num first count) s = .next (askCopy s core ctx m us)) ∧
  (∀ s core ctx num first count m us s1, cmdOf s core ctx num = some m → landable s core ctx m first count = some us →
    copyWants m us = [] → grantLines s core (us.flatMap fun u => u.elems ++ u.pair) = some s1 → m.bar = none →
    Yields (.copyBytesLand core ctx num first count) s fun t =>
      (∀ l, l.near = true → locRead t l = (written (us.flatMap fun u => (unitWrites s1 m u).1) l).getD (locRead s l)) ∧
      (cmdOf t core ctx num).map (·.left) = some (cutSpan first count m.left) ∧
      (∀ g, (gangOf t g).v = (gangOf s g).v ∧ (gangOf t g).sr = (gangOf s g).sr ∧ (gangOf t g).threads = (gangOf s g).threads)) ∧
  (∀ s core ctx num first count m us s1 a, cmdOf s core ctx num = some m → landable s core ctx m first count = some us →
    copyWants m us = [] → grantLines s core (us.flatMap fun u => u.elems ++ u.pair) = some s1 → m.bar = some a →
    (∀ e ∈ us.flatMap fun u => (unitWrites s1 m u).1, e.1.near = true) →
    let wes := us.map (unitWrites s1 m)
    let left := cutSpan first count m.left
    let s2 := modCmd (writeUnits s1 ctx m us (wes.flatMap (·.1))) core ctx num fun m =>
      { m with left := left, events := m.events ++ (wes.flatMap (·.2)).map fun e => (e, m.lane) }
    let n := if left = [] ∧ m.outs = [] ∧ m.cut = none then tileBytes (leNat m.shape) - m.landed
      else (us.filter (·.inb)).length * unitBytes (leNat m.shape)
    Yields (.copyBytesLand core ctx num first count) s fun t =>
      ∃ m2, cmdOf s2 core ctx num = some m2 ∧ t = { countBytes s2 core ctx m2 n with progress := t.progress }) ∧
  (∀ s core ctx num m, cmdOf s core ctx num = some m → recordFault s m = none → m.cut = none →
    ((m.kind = .ld ∨ m.kind = .st) ∧ m.left = [] ∧ m.outs = []) ∨ (m.kind = .xfer ∧ m.chunks ≠ [] ∧ ∀ k ∈ m.chunks, k.phase = .done) ∨
      (m.kind = .abort ∧ m.sent = true ∧ m.acks = []) →
    Yields (.copyComplete core ctx num) s fun t => cmdOf t core ctx num = none ∧ (tcuOf t core ctx).issued = (tcuOf s core ctx).issued ∧
      (tcuOf t core ctx).faults = (tcuOf s core ctx).faults ∧ t.gangs = s.gangs ∧ t.mem = s.mem ∧ t.spad = s.spad) ∧
  (∀ s core ctx num m, cmdOf s core ctx num = some m → (m.kind = .ld ∨ m.kind = .st) → m.left ≠ [] ∨ m.outs ≠ [] → m.cut = none →
    exec (.copyComplete core ctx num) s = .next s) ∧
  (∀ s core ctx num m cause sub va, cmdOf s core ctx num = some m → copyFault s m = some (cause, sub, va) →
    cause ≠ .pagef ∨ m.bad.isSome = true → exec (.copyFault core ctx num) s = .next (faultCmd s core ctx m cause sub va)) ∧
  (∀ s core ctx num m sub va, cmdOf s core ctx num = some m → copyFault s m = some (.pagef, sub, va) → m.bad = none →
    hostMode s 1 = false → exec (.copyFault core ctx num) s =
      .next ((zeroFill s (ctxOfTeam m.team) va.toNat).getD (faultCmd s core ctx m .pagef sub va))) ∧
  (∀ s core ctx num m co k t, cmdOf s core ctx num = some m → cmdComm m = some co → m.kind = .xfer → coTimeout co ≠ 0 → m.cut = none →
    m.chunks = [k] → k.phase = .waiting t → t + 1000 * coTimeout co ≤ s.now →
    chunkPath s { core := core, x := ctx, m := m, co := co, k := k } = none → exec (.circuitTimeout core ctx num) s =
      .next (faultCmd s core ctx m .circuit 0 0
        (BitVec.ofNat 64 ((bindingOf s (ctxOfTeam m.team) (coId co) k.rank).getD 0)))) ∧
  (∀ s core ctx m cause sub addr extra, let t := faultCmd s core ctx m cause sub addr extra
    cmdOf t core ctx m.num = none ∧
    (∃ f ∈ (tcuOf t core ctx).faults, f.num = m.num ∧ f.fault.cause = cause ∧ f.fault.sub = sub ∧ f.fault.addr = addr) ∧
    t.gangs = s.gangs ∧ ∃ r, t.out = s.out ++ [.fault 0x03 r] ∧ r.cause = cause ∧ r.addr = addr)

/-- R213 to R215, R219, R398, R399: what a path of the collective engine sends next, and the reservations at both ends. -/
def Obligations.CollectiveSending : Prop :=
  (∀ s die path, s.power = .on → path ≠ 33 → pathUp s path = true → die = dieOfPath path →
    let cs := (firstChunks s).filter fun c => chunkPath s c == some path
    let s1 := cs.foldl (fun s c => askFor s path c) s
    (arbitrate (SMap.getD (cxeOf s1 die).lastVc path 15) (cs.filter (eligible s1 path)) = none →
      exec (.chunkBoundary die path) s = .next s1) ∧
    (∀ c data, arbitrate (SMap.getD (cxeOf s1 die).lastVc path 15) (cs.filter (eligible s1 path)) = some c →
      chunkBytes s1 c = some data → exec (.chunkBoundary die path) s = .next (sendChunk s1 die path c data))) ∧
  (∀ s die path, path ≠ 33 → pathUp s path = false ∨ die ≠ dieOfPath path → exec (.chunkBoundary die path) s = .next s) ∧
  (∀ last cs c, arbitrate last cs = some c → c ∈ cs ∧ ∀ b ∈ cs, coPrio b.co < 8 → coPrio c.co < 8 → b.m.order < 2 ^ 72 → c.m.order < 2 ^ 72 →
    coPrio c.co ≤ coPrio b.co) ∧
  (∀ s die path msg r, path ≤ 32 → die = dieOfPath path → s.power = .on → rxFind s die msg.ctx msg.commid msg.sender = some r →
    exec (.reservationRequestReceive die path msg) s = .next (send (modRx s die msg.ctx msg.commid msg.sender fun r => (lendMore r path).2)
      (.resvAns path msg.sender msg (some (lendMore r path).1)))) ∧
  (∀ r path, r.lent ≤ r.free → (lendMore r path).2.lent = r.free ∧ (lendMore r path).1 ≤ r.free ∧
    (SMap.getD r.asked path 0 = 0 → (lendMore r path).1 = r.free - r.lent)) ∧
  (∀ s die path msg, path ≤ 32 → die = dieOfPath path → s.power = .on → rxFind s die msg.ctx msg.commid msg.sender = none →
    2 ^ 23 < ((cxeOf s die).rx.map (·.bytes)).sum + msg.window * msg.trees * 2 ^ msg.chunk →
    exec (.reservationRequestReceive die path msg) s = .next { s with out := s.out ++ [.resvAns path msg.sender msg none] }) ∧
  (∀ s die path msg, path ≤ 32 → die = dieOfPath path → s.power = .on → rxFind s die msg.ctx msg.commid msg.sender = none →
    ((cxeOf s die).rx.map (·.bytes)).sum + msg.window * msg.trees * 2 ^ msg.chunk ≤ 2 ^ 23 →
    Yields (.reservationRequestReceive die path msg) s fun t =>
      t.out = s.out ++ [.resvAns path msg.sender msg (some (msg.window * msg.trees))] ∧
      (∃ r, (cxeOf t die).rx = (cxeOf s die).rx ++ [r] ∧ r.ctx = msg.ctx ∧ r.commid = msg.commid ∧ r.sender = msg.sender ∧
        r.slots = msg.window * msg.trees ∧ r.free = msg.window * msg.trees ∧ r.seen = []) ∧
      (cxeOf t die).staged = (cxeOf s die).staged ∧ t.gangs = s.gangs ∧ t.mem = s.mem) ∧
  (∀ s die path peer msg credits r, txFind s msg.ctx msg.commid peer (peerDie s path) = some r → die = dieOfPath path →
    r.ask.map (·.1) = some path → exec (.reservationAnswerReceive die path peer msg (some credits)) s =
      .next (txPut s { r with ask := none, paths := if path ∈ r.paths then r.paths else r.paths ++ [path], credits := r.credits + credits })) ∧
  (∀ s die path peer msg r, txFind s msg.ctx msg.commid peer (peerDie s path) = some r → die = dieOfPath path →
    r.ask.map (·.1) = some path → r.paths ≠ [] ∨ r.unans ≠ [] → exec (.reservationAnswerReceive die path peer msg none) s =
      .next (refuseResv (txPut s { r with ask := none }) r)) ∧
  (∀ s die path peer ctx commid r t, txFind s ctx commid peer (peerDie s path) = some r → r.ask = some (path, t) →
    die = dieOfPath path → pathUp s path = true → t + 10000 ≤ s.now → exec (.reservationResend die path peer ctx commid) s =
      .next { txPut s { r with ask := some (path, s.now) } with out := s.out ++ [.resvReq path r.peer r.msg] }) ∧
  (∀ s die path peer ctx commid cseq q u, s.sendRes = [q] → q.ctx = ctx → q.commid = commid → q.peer = peer → q.unans = [u] →
    u.cseq = cseq → u.path = path → u.sentAt + 10000 ≤ s.now → path = 32 → die = dieOfPath path → u.chunk.hdr.kind ≠ 2 →
    exec (.chunkResend die path peer ctx commid cseq) s =
      .next { txPut s { q with unans := [{ u with sentAt := s.now, full := false, lost := false }] } with
        out := s.out ++ [.chunk path peer u.chunk] }) ∧
  (∀ s die path peer ctx commid cseq q u, s.sendRes = [q] → q.unans = [u] → s.now < u.sentAt + 10000 →
    exec (.chunkResend die path peer ctx commid cseq) s = .next s)

/-- R202, R213, R214, R216 to R220, R357, R399, R400: chunks at their destination, their answers, and aborts. -/
def Obligations.CollectiveReceiving : Prop :=
  (∀ s die path sender (ch : Chunk), s.power = .on → pathUp s path = true → die = dieOfPath path → path = 32 →
    let ctx := identCtx ch.hdr.ident
    let commid := ch.hdr.commid.toNat
    let key := attemptKey ctx commid
    let n := ch.hdr.cseq.toNat
    let s1 := modCxe s die fun x => { x with latest := SMap.put x.latest key ch.hdr.attempt.toNat }
    (∀ l, SMap.find (cxeOf s die).latest key = some l → olderAttempt l ch.hdr.attempt.toNat = true →
      exec (.chunkReceive die path sender ch) s = .next s) ∧
    (SMap.find (cxeOf s die).latest key = none → rxFind s1 die ctx commid sender = none → ch.hdr.kind ≠ 2 →
      exec (.chunkReceive die path sender ch) s =
        .next (send s1 (.chunkReply path sender (replyTo s1 ch.hdr 6 (refusalWord .copyf 8)) false))) ∧
    (∀ r, SMap.find (cxeOf s die).latest key = none → rxFind s1 die ctx commid sender = some r → tooOld r n = false →
      isStaged s1 die sender ch = false → (∀ e ∈ r.seen, e.1 ≠ n) → r.free ≠ 0 → Yields (.chunkReceive die path sender ch) s fun t =>
        (cxeOf t die).staged = (cxeOf s die).staged ++
          [{ path := path, sender := sender, chunk := ch, more := [], ids := none, no := none }] ∧
        t.out = s.out ∧ t.gangs = s.gangs ∧ t.mem = s.mem) ∧
    (∀ r a, SMap.find (cxeOf s die).latest key = none → rxFind s1 die ctx commid sender = some r → tooOld r n = false →
      isStaged s1 die sender ch = false → r.seen = [(n, a)] → exec (.chunkReceive die path sender ch) s =
        .next (send s1 (.chunkReply path sender a true)))) ∧
  (∀ s die path sender (ch : Chunk) r, s.power = .on → pathUp s path = true → die = dieOfPath path →
    let key := attemptKey (identCtx ch.hdr.ident) ch.hdr.commid.toNat
    let s1 := modCxe s die fun x => { x with latest := SMap.put x.latest key ch.hdr.attempt.toNat }
    SMap.find (cxeOf s die).latest key = none →
    rxFind s1 die (identCtx ch.hdr.ident) ch.hdr.commid.toNat sender = some r → tooOld r ch.hdr.cseq.toNat = false →
    isStaged s1 die sender ch = true → exec (.chunkReceive die path sender ch) s = .next (noteCopyOf s1 die path sender ch)) ∧
  (∀ s die idx t, (cxeOf s die).staged[idx]? = some t → chunkAhead s die idx t = false → s.power = .on → isTile t.chunk = false →
    (∀ ls bar, checkChunk s die t = .fine ls bar → chunkWaits s t ls bar = false → chunkAway s die idx t ls = none →
      exec (.chunkApply die idx) s =
        .next (answerChunk s die t (serveChunk s die t.chunk none fun s => applyChunk s t.chunk ls bar) 0)) ∧
    (∀ w a, checkChunk s die t = .refuse w a → exec (.chunkApply die idx) s =
      .next (answerChunk s die t (serveChunk s die t.chunk (some w) id) a)) ∧
    (∀ va u, checkChunk s die t = .page va → hostMode s 1 = false → zeroFill s (identCtx t.chunk.hdr.ident) va.toNat = some u →
      exec (.chunkApply die idx) s = .next u)) ∧
  (∀ s die idx t, (cxeOf s die).staged[idx]? = some t → chunkAhead s die idx t = true → exec (.chunkApply die idx) s = .next s) ∧
  (∀ s ch locs, ch.hdr.op = 0 → locs.length = ch.data.length → ∀ l, l.near = true →
    locRead (applyChunk s ch locs none) l = (written (locs.zip ch.data) l).getD (locRead s l)) ∧
  (∀ s die path peer r credit q u, path = 32 → die = dieOfPath path → s.sendRes = [q] → q.peer = peer → q.die = peerDie s path →
    q.unans = [u] → answers r u = true → r.status ≠ 4 → r.status ≠ 5 →
    stillCombining (hearInc s peer r.inc) u.chunk r none = false → exec (.chunkReplyReceive die path peer r credit none) s =
      .next (takeReply (txPut (hearInc s peer r.inc) { q with unans := [], credits := q.credits + b2n credit }) u.chunk r none)) ∧
  (∀ s die path peer r credit q u, path = 32 → die = dieOfPath path → s.sendRes = [q] → q.peer = peer → q.die = peerDie s path →
    q.unans = [u] → answers r u = true → r.status = 4 → exec (.chunkReplyReceive die path peer r credit none) s =
      .next (txPut (hearInc s peer r.inc) { q with unans := [{ u with full := true, sentAt := s.now }] })) ∧
  (∀ s die ctx commid attempt sender descr, die < 4 → s.power = .on → SMap.find (cxeOf s die).latest (attemptKey ctx commid) = none →
    exec (.abortTokenReceive die ctx commid attempt sender descr) s =
      .next (send (raiseAttempt s ctx commid attempt descr) (.abortAck sender ctx commid attempt))) ∧
  (∀ s die ctx commid attempt sender descr, die < 4 → s.power = .on →
    SMap.find (cxeOf s die).latest (attemptKey ctx commid) = some ((attempt + 1) % 65536) →
    exec (.abortTokenReceive die ctx commid attempt sender descr) s = .next (send s (.abortAck sender ctx commid attempt))) ∧
  (∀ s core ctx num dev m, cmdOf s core ctx num = some m → m.kind = .abort → exec (.abortAckReceive core ctx num dev) s =
    .next (modCmd s core ctx num fun m => { m with acks := m.acks.filter fun d => d != dev })) ∧
  (∀ s ctx commid att descr d, d < 4 → ∀ t ∈ (cxeOf (raiseAttempt s ctx commid att descr) d).staged,
    ¬ (identCtx t.chunk.hdr.ident = ctx ∧ t.chunk.hdr.commid.toNat = commid ∧
      olderAttempt ((att + 1) % 65536) t.chunk.hdr.attempt.toNat = true))

/-- R150, R180, R328: a load of another device's bytes writes nothing until the answer is there; the answer completes it, and
one that no load awaits changes nothing. R357 to R360, R367: a serve answers each serial once: from the rind, by its record's
floor, or by performing the operation. R195, R227, R261, R328, R352, R359: requests and accesses of another device are served
at the home of their location. -/
def Obligations.RequestsServed : Prop :=
  -- Remote loads
  ((∀ s c o ls, let va := sGet (gangOf s c.g) o.sa.val + BitVec.ofInt 64 (sext 9 o.off.toNat * (o.w.bits / 8 : Nat))
    plainBytes s c.g (lowThread c) va accRead 8 (o.w.bits / 8) = .ok ls → (uniAcc c va ls).far = true →
    orderGate (readyLoad s c.g (.ok [uniAcc c va ls])) c.g ls = .ok () → UniReady s c (uniUse 1 [(8, o.sa.val)] (some o.sd.val)) →
    Yields (.uld o) s fun t => ∃ p, (gangOf t c.g).loads = (gangOf s c.g).loads ++ [p] ∧ p.loc = ls ∧ p.got = none ∧ p.no = none ∧
      p.dest = .uni o.sd.val o.w ∧ p.pc = c.pc ∧ p.run = c.run ∧ (gangOf t c.g).sr = (gangOf s c.g).sr ∧
      (gangOf t c.g).v = (gangOf s c.g).v ∧ (gangOf t c.g).threads = (gangOf s c.g).threads ∧ (gangOf t c.g).storeQ = [] ∧
      t.cur = some { c with issued := false }) ∧
  (∀ s g id data refusal p l r w, (gangOf s g).loads = [p] → p.id = id → p.got = none → p.no = none → p.dest = .lane l r w →
    l < 32 → hasLane p.zer l = false → (∀ x ∈ p.loc, x.near = false) → data.length = p.loc.length →
    Yields (.loadDataReturn g id (some data) refusal) s fun t => (gangOf t g).loads = [] ∧
      vGet (gangOf t g) r l = loadWord w p.fmt p.sel (vGet (gangOf s g) r l) data ∧
      (∀ x k, x ≠ r → k < 32 → vGet (gangOf t g) x k = vGet (gangOf s g) x k) ∧
      (gangOf t g).sr = (gangOf s g).sr ∧ (∀ h, h ≠ g → (gangOf t h).v = (gangOf s h).v ∧ (gangOf t h).sr = (gangOf s h).sr)) ∧
  (∀ s g id data refusal, (∀ p ∈ (gangOf s g).loads, p.id ≠ id) → (∀ o ∈ s.farOps, o.id ≠ id) →
    exec (.loadDataReturn g id data refusal) s = .next s)) ∧
  -- Served once
  ((∀ s die h refusal perform r, (sxeOf s die).recs.find? (fun r => r.ident == h.ident) = some r → serialBelow h.serial r.floor = true →
    serveWith s die h refusal perform = (s, replyTo s h 5 0)) ∧
  (∀ s die h refusal perform e,
    (∀ r, (sxeOf s die).recs.find? (fun r => r.ident == h.ident) = some r → serialBelow h.serial r.floor = false) →
    rindFind (sxeOf s die) h.ident h.serial = some e →
    (serveWith s die h refusal perform).1.mem = s.mem ∧ (serveWith s die h refusal perform).1.gangs = s.gangs ∧
    (serveWith s die h refusal perform).2 =
      if e.digest = h.digest then replyTo s h (if e.ref then 6 else 1) e.result else replyTo s h 2 0) ∧
  (∀ s die h perform,
    (∀ r, (sxeOf s die).recs.find? (fun r => r.ident == h.ident) = some r → serialBelow h.serial r.floor = false) →
    rindFind (sxeOf s die) h.ident h.serial = none →
    (serialBelow h.inc s.warmBase = true → (serveWith s die h none perform).1.mem = s.mem ∧
      (serveWith s die h none perform).2 = replyTo s h 3 0) ∧
    (serialBelow h.inc s.warmBase = false → rindCapacity (sxeOf s die) ≤ (sxeOf s die).rind.length →
      (serveWith s die h none perform).1.mem = s.mem ∧ (serveWith s die h none perform).2 = replyTo s h 4 0) ∧
    (serialBelow h.inc s.warmBase = false → (sxeOf s die).rind.length < rindCapacity (sxeOf s die) →
      (serveWith s die h none perform).1.mem = (perform s).1.mem ∧
      (serveWith s die h none perform).2.result = (perform s).2 ∧ (serveWith s die h none perform).2.status = 0 ∧
      (serveWith s die h none perform).2.serial = h.serial ∧ (serveWith s die h none perform).2.ident = h.ident)) ∧
  (∀ x, rindCapacity x = (1 + x.extra) * 5592405)) ∧
  -- Requests served
  ((∀ s die sender h, s.power = .on → die = homeDie s h.addr.toNat → pinned s (physBytes h.addr.toNat 8) = false →
    (h.kind = 0 → exec (.requestServe die sender h) s = .next (serveTladv s sender h)) ∧
    (h.kind = 1 → exec (.requestServe die sender h) s =
      .next (send (serveAtomic s die h).1 (.reply sender (serveAtomic s die h).2))) ∧
    (h.kind = 3 → exec (.requestServe die sender h) s =
      .next (send (serveSpawn s die h).1 (.reply sender (serveSpawn s die h).2))) ∧
    (h.kind = 4 → exec (.requestServe die sender h) s =
      .next (send (serveJoin s die h).1 (.reply sender (serveJoin s die h).2)))) ∧
  (∀ s die sender h, die ≠ homeDie s h.addr.toNat → exec (.requestServe die sender h) s = .next s) ∧
  (∀ s die h, ownerCheck s (identCtx h.ident) (h.addr.toNat / 65536) accAtomic = none →
    serveAtomic s die h = serveWith s die h (some (refusalWord .prot 0)) fun s => (s, 0)) ∧
  (∀ s die sender r page, s.power = .on → die = homeDie s (r.frame * 65536 + r.off) → r.data = none →
    ownerCheck s r.ctx r.frame accRead = some page → r.off + r.size ≤ 65536 → Yields (.remoteAccessServe die sender r) s fun t =>
      (∃ m, t.out = m ++ [.remoteData sender (some (Memory.readN s.mem (r.frame * 65536 + r.off) r.size))]) ∧
      t.mem = s.mem ∧ t.gangs = s.gangs) ∧
  (∀ s die sender r page b, s.power = .on → die = homeDie s (r.frame * 65536 + r.off) → r.data = some b →
    ownerCheck s r.ctx r.frame accWrite = some page → r.off + b.length ≤ 65536 →
    pinned s (physBytes (r.frame * 65536 + r.off) b.length) = false → Yields (.remoteAccessServe die sender r) s fun t =>
      (∃ m, t.out = m ++ [.remoteData sender (some [])]) ∧
      (∀ a, Memory.read t.mem a = if r.frame * 65536 + r.off ≤ a ∧ a < r.frame * 65536 + r.off + b.length
        then (b[a - (r.frame * 65536 + r.off)]?).getD 0 else Memory.read s.mem a) ∧ t.gangs = s.gangs) ∧
  (∀ s die sender r, s.power = .on → die = homeDie s (r.frame * 65536 + r.off) → r.data = none →
    ownerCheck s r.ctx r.frame accRead = none → exec (.remoteAccessServe die sender r) s =
      .next { s with out := s.out ++ [.remoteData sender none] }))

/-- R357, R358, R361 to R368: the requester's side: answers, sending again, floors, and the records of the owners. -/
def Obligations.RequestersCourse : Prop :=
  (∀ s r g q, awaiting s r.ident r.serial = some (g, q) → exec (.replyReceive r) s =
    .next { answer (hearInc s q.owner r.inc) g q r with progress := s.progress + 1 }) ∧
  (∀ s r, awaiting s r.ident r.serial = none → orphanOf s r.ident r.serial = none → exec (.replyReceive r) s = .next s) ∧
  (∀ s g q (p : Reply) l r w, q.dest = .lane l r w → p.status = 0 → l < 32 → (thr (gangOf s g) l).isSome = true →
    vGet (gangOf (answer s g q p) g) r l = w.extend p.result.toNat ∧
    (∀ x ∈ (gangOf (answer s g q p) g).reqs, x.hdr.serial ≠ q.hdr.serial)) ∧
  (∀ s g serial q, openReq s g (BitVec.ofNat 32 serial) = some q → q.owner ≠ Config.deviceId.toNat → q.full = false →
    q.sentAt + q.wait ≤ s.now → exec (.requestRetransmit g serial) s = .next (sendAgain s g q (Nat.min (2 * q.wait) 1000000))) ∧
  (∀ s g serial q, openReq s g (BitVec.ofNat 32 serial) = some q → s.now < q.sentAt + q.wait →
    exec (.requestRetransmit g serial) s = .next s) ∧
  (∀ s g q wait, (∃ h, (sendAgain s g q wait).out = s.out ++ [.request q.owner h] ∧ h = q.hdr) ∧ (sendAgain s g q wait).mem = s.mem) ∧
  (∀ s g serial q, openReq s g (BitVec.ofNat 32 serial) = some q → q.full = true → q.sentAt + 10000 ≤ s.now →
    q.owner ≠ Config.deviceId.toNat → exec (.fullRetry g serial) s = .next (sendAgain s g q q.wait)) ∧
  (∀ s g serial q g2 q2, openReq s g (BitVec.ofNat 32 serial) = some q → q.full = true → q.sentAt + 10000 ≤ s.now →
    q.owner = Config.deviceId.toNat → q.hdr.kind ≠ 4 → againPinned s g q = false →
    awaiting s q.hdr.ident q.hdr.serial = some (g2, q2) → exec (.fullRetry g serial) s =
      .next { answer (serveAgain s g q).1 g q (serveAgain s g q).2 with progress := s.progress + 1 }) ∧
  (∀ s g dest G a, SMap.find s.gangs g = some G → SMap.find G.acks dest = some a → a.at_ + 10000 ≤ s.now →
    serialBelow a.floor (floorOf s g) = true → (teamOf s (teamKey g)).st ≠ .saved → exec (.ackfSend g dest) s =
      .next (noteOwner (tellFloor s g dest (floorOf s g)) g dest (floorOf s g))) ∧
  (∀ s die ident floor, die < 4 → exec (.ackfReceive die ident floor) s = .next (modSxe s die fun x => rindFloor s.now x ident floor)) ∧
  (∀ now x ident floor r, x.recs.find? (fun r => r.ident == ident) = some r → serialBelow r.floor floor = true →
    (∀ e ∈ (rindFloor now x ident floor).rind, ¬ (e.ident = ident ∧ serialBelow e.serial floor = true)) ∧
    ((rindFloor now x ident floor).recs.find? fun r => r.ident == ident).map (·.floor) = some floor) ∧
  (∀ s die ident, Yields (.requesterRecordExpire die ident) s fun t =>
    (∀ r ∈ (sxeOf t die).recs, r.ident = ident → ∀ e, r.emptyAt = some e → s.now < e + 1000000) ∧
    (sxeOf t die).rind = (sxeOf s die).rind ∧ t.gangs = s.gangs ∧ t.mem = s.mem) ∧
  (∀ s dev inc, exec (.incarnationAnnounce dev inc) s = .next { s with incTable := SMap.put s.incTable dev inc }) ∧
  (∀ s die amount, hostMode s 2 = true → die < 4 → amount ≤ 15 → (sxeOf s die).rind.length ≤ (1 + amount) * 5592405 →
    exec (.rindExtensionGrant die amount) s = .next (modSxe s die fun x =>
      { x with extra := amount, warned := if x.extra < amount then false else x.warned }))

/-! ## Recovery, restarts and the host -/

/-- R334 to R348: rollback, save and resume of a team, and the errors that start them. -/
def Obligations.Recovery : Prop :=
  (∀ s t, (teamOf s t).st = .running → canRollback s t = true → matrixBusy s t = false →
    exec (.rollback t) s = .next (rollbackTeam s t)) ∧
  (∀ s t, (∀ m, (teamOf s t).st ≠ .rolling m) → canRollback s t = false ∨ matrixBusy s t = true → exec (.rollback t) s = .next s) ∧
  (∀ s t, (teamOf s t).st = .saved → exec (.rollback t) s = .next s) ∧
  (∀ s t, (teamOf s t).st = .saving ∨ (∃ u, (teamOf s t).st = .quiescing u) → canRollback s t = true → matrixBusy s t = false →
    Yields (.rollback t) s fun u => (teamOf u t).st = .quiescing (s.now + 2000) ∧
      ∀ m ∈ (teamOf u t).cut, m ∈ (teamOf s t).cut ∧
        beforeCkpt (teamOf s t) m.tctx ((m.num : Int) + tlOffOf (teamOf s t) m.tctx).toNat = true) ∧
  (∀ s t m, (teamOf s t).st = .rolling m → matrixBusy s t = true → exec (.rollback t) s = .next s) ∧
  (∀ s t m, (teamOf s t).st = .rolling m → matrixBusy s t = false →
    let u := modTeam (rollbackTeam s t) t fun T => { T with st := .running }
    exec (.rollback t) s = .next (if m then modTeam (startSave u t) t fun T => { T with st := .saving } else u)) ∧
  (∀ s t k, (teamOf s t).ckpt = some k → ∀ g G, SMap.find k.gangs g = some G → k.gangs.map (·.1) = [g] → gangsOf s t = [g] →
    let H := gangOf (rollbackTeam s t) g
    H.v = G.v ∧ H.sr = G.sr ∧ H.p = G.p ∧ H.q = G.q ∧ H.storeQ = [] ∧ srGet H rTokSpent = srGet (gangOf s g) rTokSpent ∧
    H.chain = none ∧ H.x = [] ∧ H.loads = [] ∧ (∀ l, (thr H l).map (·.pc) = (thr (chainBack G) l).map (·.pc))) ∧
  (∀ s t u, (teamOf s t).st = .quiescing u → s.now < u → exec (.quiesceTimeout t) s = .next s) ∧
  (∀ s t u, (teamOf s t).st = .quiescing u → u ≤ s.now → (teamCmds s t).filter (fun e => cancellable e.2) = [] →
    exec (.quiesceTimeout t) s = .next (modTeam s t fun T => { T with st := .saving })) ∧
  (∀ s t, saveDue s t = false → exec (.saveComplete t) s = .next s) ∧
  (∀ s t, saveDue s t = true →
    let s1 := (gangsOf s t).foldl drainAll s
    let T := teamOf s t
    let n := (saveImage s1 t).length
    let pg := ownPages s1 T.ctx (saveAddr T) n accWrite (masterSave t) true
    (storesDone s1 t = false → exec (.saveComplete t) s = .next s1) ∧
    (storesDone s1 t = true → pg.2 = .wait → exec (.saveComplete t) s = .next pg.1) ∧
    (storesDone s1 t = true → pg.2 = .refused → exec (.saveComplete t) s = .next (saveFails pg.1 t)) ∧
    (∀ ls, storesDone s1 t = true → pg.2 = .there → ctxBytes pg.1 T.ctx (saveAddr T) accWrite true n = .ok ls →
      (∃ l ∈ ls, locPoison pg.1 l ≠ none) → exec (.saveComplete t) s = .next (saveFails pg.1 t)) ∧
    (∀ ls, storesDone s1 t = true → pg.2 = .there → ctxBytes pg.1 T.ctx (saveAddr T) accWrite true n = .ok ls →
      (∀ l ∈ ls, locPoison pg.1 l = none) → let s2 := modTeam pg.1 t fun T => { T with savedAt := pg.1.now }
      exec (.saveComplete t) s = .next (modTeam (takeCkpt (takeBooks (sysWrite s2 T.ctx (saveAddr T) (saveImage s2 t)) t) t) t
        fun T => { T with st := .saved }))) ∧
  (∀ s t, saveFails s t = if (teamOf s t).idem = true ∧ (teamOf s t).everTaint = false then flushTeam s t else killTeam s t none) ∧
  (∀ s t core slots sp k, (teamOf s t).st = .saved → (teamOf s t).partner = none → (teamOf s t).resident = false →
    fits s (teamOf s t).ctx core (teamOf s t).record.cls (askOf s (teamOf s t).ctx (teamOf s t).record) = true →
    savedBad s t = false → slotsFor s core (teamOf s t).ngang = some slots → spadFind s core (teamOf s t).spSize = some sp → (teamOf s t).ckpt = some k → (teamOf s t).cut = [] →
    Yields (.teamResume t core) s fun u => (teamOf u t).st = .running ∧ (teamOf u t).core = core ∧ (teamOf u t).spBase = sp ∧
      (teamOf u t).cut = [] ∧ ∀ i slot, i < 32 → slots[i]? = some slot → (SMap.find s.gangs (t * 32 + i)).isSome = true → let g := t * 32 + i
        (gangOf u g).core = core ∧ (gangOf u g).slot = slot ∧ (gangOf u g).v = (gangOf s g).v ∧ (gangOf u g).sr = (gangOf s g).sr ∧
        (gangOf u g).p = (gangOf s g).p ∧ (gangOf u g).q = (gangOf s g).q ∧ (gangOf u g).threads = (gangOf s g).threads ∧
        (gangOf u g).x = [] ∧ (gangOf u g).loads = [] ∧ (gangOf u g).chain = none ∧ (gangOf u g).pf = .none) ∧
  (∀ s t core, (teamOf s t).st ≠ .saved → exec (.teamResume t core) s = .next s) ∧
  (∀ s t core p, (teamOf s t).partner = some p → (SMap.find s.teams p).isSome = true → savedBad s t = false →
    (∀ u, resumeTeam s t core = some u → resumeTeam u p (if core % 2 = 0 then core + 1 else core - 1) = none) →
    exec (.teamResume t core) s = .next s) ∧
  (∀ s t core, (teamOf s t).resident = true → exec (.teamResume t core) s = .next s) ∧
  (∀ s g G pc run, SMap.find s.gangs g = some G → chooseRun G = some (pc, run) → G.stopPc ≠ some pc → exec (.checkerMismatch (.pipes g)) s =
    .next (modGang (pmcCount (mgmtAdd s (offHealth G.core) 1) G.core 6 1) g fun G => { G with stopPc := some pc })) ∧
  (∀ s g G pc run, SMap.find s.gangs g = some G → chooseRun G = some (pc, run) → G.stopPc = some pc → canRollback s (teamKey g) = true →
    matrixBusy s (teamKey g) = false → let s1 := modCore s G.core fun C => { C with suspect := true }
    let s2 := rollbackTeam (modTeam s1 (teamKey g) fun T => { T with st := .rolling true }) (teamKey g)
    let s3 := startSave (modTeam s2 (teamKey g) fun T => { T with st := .running }) (teamKey g)
    exec (.checkerMismatch (.pipes g)) s = .next (modTeam s3 (teamKey g) fun T => { T with st := .saving })) ∧
  (∀ s g G pc run, SMap.find s.gangs g = some G → chooseRun G = some (pc, run) → G.stopPc = some pc → canRollback s (teamKey g) = true →
    matrixBusy s (teamKey g) = true → let s1 := modCore s G.core fun C => { C with suspect := true }
    exec (.checkerMismatch (.pipes g)) s = .next (modTeam s1 (teamKey g) fun T => { T with st := .rolling true })) ∧
  (∀ s g G pc run, SMap.find s.gangs g = some G → chooseRun G = some (pc, run) → G.stopPc = some pc → canRollback s (teamKey g) = false →
    let s1 := modCore s G.core fun C => { C with suspect := true }
    exec (.checkerMismatch (.pipes g)) s =
      .next { fallBack s1 { g := g, run := run, pc := pc, issued := false } (midRun G run) .pipeerr 0 0 0xFF 0 0 with cur := none }) ∧
  (∀ s g G o, SMap.find s.gangs g = some G → (matOf s (pairOfCore G.core)).ops.head? = some o → o.running = true → o.gang = g →
    o.struck = false → Yields (.checkerMismatch (.array g)) s fun t =>
      ((matOf t (pairOfCore G.core)).ops.head?).map (·.struck) = some true ∧ t.gangs = s.gangs ∧ t.teams = s.teams ∧ t.mem = s.mem) ∧
  (∀ s g G o, SMap.find s.gangs g = some G → (matOf s (pairOfCore G.core)).ops.head? = some o → o.running = true → o.gang = g →
    o.struck = true → o.gone = false → (killSet s o.team).all (undoes s o.num) = true → let p := pairOfCore G.core
    let s1 := markSuspect (markSuspect s (2 * p)) (2 * p + 1)
    let s2 := { modMat s1 p fun q => { q with ops := q.ops.filter fun x => x != o } with progress := s.progress + 1 }
    exec (.checkerMismatch (.array g)) s = .next ((killSet s o.team).foldl rollAway s2)) ∧
  (∀ s g G o, SMap.find s.gangs g = some G → (matOf s (pairOfCore G.core)).ops.head? = some o → o.running = true → o.gang = g →
    o.struck = true → o.gone = true → let p := pairOfCore G.core
    let s1 := markSuspect (markSuspect s (2 * p)) (2 * p + 1)
    exec (.checkerMismatch (.array g)) s =
      .next { modMat s1 p fun q => { q with ops := q.ops.filter fun x => x != o } with progress := s.progress + 1 }) ∧
  (∀ s t, areaBad s t (saveSize s t - brineSize s t) (brineSize s t) = true → canRollback s t = false) ∧
  (∀ s t core, (teamOf s t).st = .saved → (teamOf s t).resident = false → savedBad s t = true → exec (.teamResume t core) s = .next (saveFails s t)) ∧
  (∀ s g l r h, exec (.storageError (.vreg g l r h)) s =
    .next (modGang s g fun G => { G with poisonV := SMap.put G.poisonV (2 * (64 * l + r) + h) 1 })) ∧
  (∀ s g r h, exec (.storageError (.sreg g r h)) s = .next (modGang s g fun G => { G with poisonS := SMap.put G.poisonS (2 * r + h) 1 })) ∧
  (∀ s c k, exec (.storageError (.spad c k)) s = .next { s with poisonSp := SMap.put s.poisonSp (c * 16384 + k) 1 }) ∧
  (∀ s g l q e, exec (.storageError (.acc g l q e)) s =
    .next (modGang s g fun G => { G with poisonQ := SMap.put G.poisonQ (64 * l + 8 * q + e) 1 })) ∧
  (∀ s d, d < 4 → exec (.storageError (.corrected d)) s = .next (mgmtAdd s (offErrCnt d) 1)) ∧
  (∀ s k, exec (.storageError (.l2Match k)) s = .next (mgmtAdd s (offErrCnt (homeDie s (64 * k))) 1)) ∧
  (∀ s c k, c < 320 → exec (.storageError (.l1 c k)) s = .next (mgmtAdd s (offErrCnt (c / 80)) 1)) ∧
  (∀ s k, (placeOf s (k / 1024)).res = 0 → exec (.storageError (.l2 k)) s = .next (mgmtAdd s (offErrCnt (homeDie s (64 * k))) 1)) ∧
  (∀ s k, exec (.storageError (.far k)) s = .next { s with poisonFar := SMap.put s.poisonFar k 1 }) ∧
  (∀ s k, (placeOf s (k / 1024)).res ≠ 0 → exec (.storageError (.l2 k)) s = .next { s with poisonL2 := SMap.put s.poisonL2 k 1 })

/-- R5, R154, R171, R367, R396: restarts and the boot: what each keeps. R396: a device whose firmware is bad takes up nothing
but READ, a restart, the removal of power and what its transport owes. -/
def Obligations.RestartsAndBoot : Prop :=
  -- Restarts
  ((∀ s, s.power = .on → Yields .warmRestart s fun t => t.power = .booting false ∧ t.mem = s.mem ∧ t.sxes = s.sxes ∧
    t.place = s.place ∧ t.incarnation = s.incarnation ∧ t.warmBase = s.warmBase ∧ t.now = s.now ∧ t.gangs = [] ∧ t.teams = [] ∧
    t.cores = [] ∧ t.spad = [] ∧ t.scripts = [] ∧ t.queues = [] ∧
    ∀ p, (SMap.find s.ports p).isSome = true → (portOf t p).st = .dark ∧ (portOf t p).armed = false) ∧
  (∀ s, Yields .coldRestart s fun t => t.power = .booting true ∧ t.incarnation = s.incarnation ∧ t.mem = [] ∧ t.gangs = [] ∧
    t.teams = [] ∧ t.cores = [] ∧ t.spad = [] ∧ t.sxes = [] ∧ t.mgmt = []) ∧
  (∀ s cold, s.power = .booting cold → exec .boot s = .next (if Config.bootGood s.incarnation.toNat = true then
      { s with power := .on, incarnation := s.incarnation + 1, warmBase := if cold then s.incarnation + 1 else s.warmBase, out := s.out ++ [.announce (s.incarnation + 1)] }
    else toHost { s with power := .bootFailed } (.notify 0x0B [1] []))) ∧
  (∀ s : State, s.power = .bootFailed → ∀ i : Instr, i ≠ .coldRestart → i ≠ .powerRemoval → (∀ n, i ≠ .transportAck n) → (∀ n, i ≠ .transportResend n) →
    (∀ a b c d, i ≠ .read a b c d) → offEvent s.power i = false)) ∧
  -- Boot starts the device or nothing
  ((∀ s g rest, s.power = .bootFailed → s.inputs = .turn g :: rest → step s = .next (finish { s with inputs := rest } none)) ∧
  (∀ s k rest, s.power = .bootFailed → s.inputs = .script k :: rest → step s = .next (finish { s with inputs := rest } none)) ∧
  (∀ s i rest, s.power = .bootFailed → s.inputs = .event i :: rest → offEvent .bootFailed i = false →
    step s = .next (finish { s with inputs := rest } none)))

/-- R392, R396: the transport: each message is taken up once and acknowledged each time; what a write, a read and a move do.
R263, R276, R289, R298, R322, R325, R378, R381, R383, R388, R393 to R395, R397: writes of the management space take the
effects of their registers; offsets that no register has read 0 and ignore writes. -/
def Obligations.HostTransport : Prop :=
  -- Host transport
  ((∀ s seq space addr data, s.power = .on → data.length ≤ 8192 → seq ∈ s.hostSeen →
    exec (.write seq space addr data) s = .next { s with out := s.out ++ [.ack seq] }) ∧
  (∀ s seq addr data, s.power = .on → data.length ≤ 8192 → seq ∉ s.hostSeen →
    pinned s ((hostLeft s seq .physical addr data.length accWrite).filterMap (·.2)) = false →
    Yields (.write seq .physical addr data) s fun t =>
    (∀ a, Memory.read t.mem a = if addr ≤ a ∧ a < addr + data.length ∧ (tornAt s seq a).isNone = true then (data[a - addr]?).getD 0
      else Memory.read s.mem a) ∧
    t.out = s.out ++ [.ack seq] ∧ t.hostSeen = seq :: s.hostSeen ∧ t.gangs = s.gangs ∧ t.spad = s.spad) ∧
  (∀ s seq addr data, s.power = .on → data.length ≤ 8192 → seq ∉ s.hostSeen →
    pinned s ((hostLeft s seq .physical addr data.length accWrite).filterMap (·.2)) = true →
    exec (.write seq .physical addr data) s = .next s) ∧
  (∀ s seq ctx addr data (ls : List Nat), s.power = .on → data.length ≤ 8192 → seq ∉ s.hostSeen → (∀ x ∈ s.torn, x.seq ≠ seq) →
    hostPlaces s (.virt ctx) addr data.length accWrite = ls.map (some ∘ Loc.phys) → pinned s (ls.map Loc.phys) = false →
    Yields (.write seq (.virt ctx) addr data) s fun t =>
      (∀ l, l.near = true → locRead t l = (written ((ls.map Loc.phys).zip data) l).getD (locRead s l)) ∧ t.gangs = s.gangs) ∧
  (∀ s seq addr data which, s.power = .on → data.length ≤ 8192 → seq ∉ s.hostSeen →
    (∀ i, i < data.length → pinned s [.phys (addr + i)] = false) →
    let t := hostPart s (.write seq .physical addr data) which
    (∀ a, Memory.read t.mem a = if addr ≤ a ∧ a < addr + data.length ∧ bitOf which (a - addr) = true ∧ (tornAt s seq a).isNone = true
      then (data[a - addr]?).getD 0 else Memory.read s.mem a) ∧
    t.hostSeen = s.hostSeen ∧ t.out = s.out ∧ t.gangs = s.gangs) ∧
  (∀ s seq addr data, s.power = .on → data.length ≤ 8192 → seq ∉ s.hostSeen → ¬ (addr = 0x20 ∧ data.length = 32) →
    exec (.write seq .mgmt addr data) s = .next (send (mgmtBytes { s with hostSeen := seq :: s.hostSeen } addr data) (.ack seq))) ∧
  (∀ s seq data, s.power = .on → data.length = 32 → seq ∉ s.hostSeen → exec (.write seq .mgmt 0x20 data) s =
    .next { s with hostSeen := seq :: s.hostSeen, nonce := some (BitVec.ofNat 256 (leNat data)), out := s.out ++ [.ack seq] }) ∧
  (∀ s seq addr len, s.power = .on → len ≤ 8192 → seq ∉ s.hostSeen → (∀ x ∈ s.torn, x.seq ≠ seq) → Yields (.read seq .physical addr len) s fun t =>
    t.out = s.out ++ [.data seq (Memory.readN s.mem addr len), .ack seq] ∧ t.mem = s.mem ∧ t.gangs = s.gangs) ∧
  (∀ s seq addr len, s.power = .bootFailed → 0x10000 < addr + len → exec (.read seq .mgmt addr len) s = .next s) ∧
  (∀ s seq addr len, s.power = .bootFailed → addr + len ≤ 0x10000 → len ≤ 8192 → seq ∉ s.hostSeen →
    Yields (.read seq .mgmt addr len) s fun t => ∃ b, t.out = s.out ++ [.data seq b, .ack seq] ∧ b.length = len ∧ t.power = .bootFailed) ∧
  (∀ s seq space addr slot off len out data, s.power = .on → seq ∉ s.hostSeen → Yields (.move seq space addr slot off len out data) s fun t =>
    t.moves = s.moves ++ [{ seq := seq, space := space, addr := addr, slot := slot, off := off, len := len, toHost := out, data := data }] ∧
    t.out = s.out ++ [.ack seq] ∧ t.mem = s.mem ∧ t.gangs = s.gangs) ∧
  (∀ s seq m b, s.moves.find? (fun m => m.seq == seq) = some m → SMap.find s.bufs m.slot = some b → m.off + m.len ≤ b.len →
    m.space = .physical → m.toHost = false → m.data.length = m.len →
    pinned s ((hostLeft s seq .physical m.addr m.len accWrite).filterMap (·.2)) = false → Yields (.moveComplete seq) s fun t =>
      (∀ a, Memory.read t.mem a = if m.addr ≤ a ∧ a < m.addr + m.len ∧ (tornAt s seq a).isNone = true then (m.data[a - m.addr]?).getD 0
        else Memory.read s.mem a) ∧
      t.out = s.out ++ [.moveDone seq 0 []] ∧ t.moves = s.moves.erase m ∧ t.gangs = s.gangs) ∧
  (∀ s seq m b, s.moves.find? (fun m => m.seq == seq) = some m → SMap.find s.bufs m.slot = some b → m.off + m.len ≤ b.len →
    m.space = .physical → m.toHost = true → (∀ x ∈ s.torn, x.seq ≠ seq) → Yields (.moveComplete seq) s fun t =>
      t.out = s.out ++ [.moveDone seq 0 (Memory.readN s.mem m.addr m.len)] ∧ t.mem = s.mem ∧ t.moves = s.moves.erase m) ∧
  (∀ s seq m, s.moves.find? (fun m => m.seq == seq) = some m → (∀ b, SMap.find s.bufs m.slot = some b → b.len < m.off + m.len) →
    Yields (.moveComplete seq) s fun t => t.out = s.out ++ [.moveDone seq 1 []] ∧ t.mem = s.mem ∧ t.moves = s.moves.erase m) ∧
  (∀ s seq, exec (.transportAck seq) s = .next { s with hostOut := s.hostOut.filter fun m => m.seq != seq }) ∧
  (∀ s seq m, s.hostOut.find? (fun m => m.seq == seq) = some m → m.sentAt + 20000 ≤ s.now → Yields (.transportResend seq) s fun t =>
    t.out = s.out ++ [m.msg] ∧ (∀ x ∈ t.hostOut, x.seq = seq → x.sentAt = s.now) ∧ t.mem = s.mem ∧ t.gangs = s.gangs) ∧
  (∀ s seq m, s.hostOut.find? (fun m => m.seq == seq) = some m → s.now < m.sentAt + 20000 →
    exec (.transportResend seq) s = .next s) ∧
  (∀ s m, (toHost s m).out = s.out ++ [m] ∧
    (toHost s m).hostOut = s.hostOut ++ [{ seq := s.hostSeq, msg := m, sentAt := s.now }] ∧ (toHost s m).hostSeq = s.hostSeq + 1) ∧
  (∀ s nonce, exec (.attestationNonce nonce) s = .next { s with nonce := some nonce }) ∧
  (∀ s nonce, s.nonce = some nonce → Yields .attestationEvidenceSigned s fun t => t.nonce = none ∧ ∃ sig, t.out = s.out ++ [.evidence 0
    (leBytes 32 Config.firmwareDigest.toNat ++ leBytes 4 s.incarnation.toNat ++ leBytes 8 Config.deviceSerial.toNat ++
      leBytes 8 (mgmtGet s 0x18).toNat ++ leBytes 32 nonce.toNat ++ sig)]) ∧
  (∀ s, s.nonce = none → exec .attestationEvidenceSigned s = .next s)) ∧
  -- Management space
  ((∀ s off val, exec (.mgmtRegisterWrite off val) s = .next (mgmtWrite s (off / 8 * 8) val)) ∧
  (∀ s w, mgmtGet (mgmtWrite s 0x18 w) 0x18 = BitVec.ofNat 64 (w.toNat % 128) ∧
    ∀ off, off ≠ 0x18 → mgmtGet (mgmtWrite s 0x18 w) off = mgmtGet s off) ∧
  (∀ s q w, q < 64 → let Q := queueOf (mgmtWrite s (0x100000 + 64 * q) w) q
    Q.ring = Word.fld w 20 44 * 2 ^ 20 ∧ Q.prio = Word.fld w 0 3 ∧ Q.ctx = (if (queueOf s q).en then (queueOf s q).ctx else Word.fld w 3 12) ∧
    Q.head = (queueOf s q).head ∧ Q.tail = (queueOf s q).tail) ∧
  (∀ s q w, q < 64 → mgmtWrite s (0x100000 + 64 * q + 8) w = modQueue s q fun Q => { Q with tail := BitVec.ofNat 32 (Word.fld w 32 32) }) ∧
  (∀ s q, q < 64 → mgmtRead s (0x100000 + 64 * q + 8) =
    BitVec.ofNat 64 ((queueOf s q).tail.toNat * 2 ^ 32 + (queueOf s q).head.toNat)) ∧
  (∀ s c, c < 8 → Word.fld (mgmtRead s (0x300000 + 16 * c)) 62 2 = (scriptOf s c).st.code ∧
    mgmtRead s (0x300008 + 16 * c) = (scriptOf s c).tl) ∧
  (∀ s p, p < 32 → mgmtRead s (0x301000 + 8 * p) = portWord (portOf s p)) ∧
  (∀ s i, i < 32 → mgmtRead s (0x200000 + 8 * i) = islandWord (islandOf s i)) ∧
  (∀ s, mgmtRead s 0 = BitVec.zeroExtend 64 Config.deviceId ∧ mgmtRead s 8 = BitVec.zeroExtend 64 s.incarnation ∧
    mgmtRead s 0x10 = Config.deviceSerial ∧ mgmtRead s 0x200100 = s.pacing) ∧
  (∀ s off w, off ∈ [(0x38 : Nat), 0x10040, 0x102000, 0x200110, 0x300080, 0x302000, 0x500000] → mgmtRead s off = 0 ∧ mgmtWrite s off w = s) ∧
  (∀ s c w, c < 320 → let t := mgmtWrite s (offHealth c) w
    (coreOf t c).suspect = false ∧ mgmtGet t (offHealth c) = w ∧ ∀ k, k ≠ c → coreOf t k = coreOf s k) ∧
  (∀ s w, w.getLsbD 63 = false → mgmtWrite s 0x10028 w = s))

/-- R379, R383 to R388: stops arrive, gangs are resumed and stepped, and samples are taken. -/
def Obligations.StopsAndSamples : Prop :=
  (∀ s core, exec (.dbgResume core) s = .next (resumeStopped s (stopGroup s core))) ∧
  (∀ s core, (s.gangs.map (·.1)).Nodup → let t := resumeStopped s (stopGroup s core)
    (∀ g, (gangOf s g).core ∈ stopGroup s core → (gangOf t g).stopped = false) ∧
    (∀ g, (gangOf s g).core ∉ stopGroup s core → gangOf t g = gangOf s g) ∧
    (∀ g, gangOf t g = { gangOf s g with stopped := (gangOf t g).stopped }) ∧ t.mem = s.mem) ∧
  (∀ s core slot g, gangAt s core slot = some g → (gangOf s g).stopped = true → (coreOf s core).stepOf = none →
    (gangOf s g).frozen = none → stepWould s g = true → exec (.dbgStep core slot) s =
      .next (modGang (modCore s core fun C => { C with stepOf := some { slot := slot, handler := (gangOf s g).handler.isSome, base := (gangOf s g).issuedN, blocked := false } })
        g fun G => { G with stopped := false })) ∧
  (∀ s core slot g, gangAt s core slot = some g → (gangOf s g).stopped = true → (coreOf s core).stepOf = none →
    stepWould s g = false → exec (.dbgStep core slot) s =
      .next (modCore s core fun C => { C with stepOf := some { slot := slot, handler := (gangOf s g).handler.isSome, base := (gangOf s g).issuedN, blocked := true } })) ∧
  (∀ s core slot g, gangAt s core slot = some g → (gangOf s g).stopped = false → exec (.dbgStep core slot) s = .next s) ∧
  (∀ s core r g, (coreOf s core).stepOf = some r → gangAt s core r.slot = some g → (gangOf s g).stopped = true →
    Yields (.stepEnd core) s fun t => (coreOf t core).stepOf = none ∧ (mgmtGet t (offStepSt core)).getLsbD 63 = true ∧
      (mgmtGet t (offStepSt core)).getLsbD 62 = r.blocked ∧ t.gangs = s.gangs ∧ t.mem = s.mem ∧
      ∃ f, t.out = s.out ++ [.fault 0x06 f] ∧ f.cause = .stepped ∧ f.core = core ∧ f.gang = r.slot) ∧
  (∀ s core, (coreOf s core).stepOf = none → exec (.stepEnd core) s = .next s) ∧
  (∀ s core st, s.stops = [st] → st.cores = [core] → st.told = true → (s.gangs.map (·.1)).Nodup → Yields (.stopArrive core) s fun t =>
    t.stops = [] ∧ t.mem = s.mem ∧
    (∀ g, (SMap.find s.gangs g).isSome = true → (gangOf s g).core = core → ctxOfTeam (teamKey g) = st.ctx →
      (teamOf s (teamKey g)).st ≠ .saved → (gangOf s g).threads ≠ [] → (gangOf t g).stopped = true) ∧
    (∀ g, (gangOf s g).core ≠ core ∨ ctxOfTeam (teamKey g) ≠ st.ctx → gangOf t g = gangOf s g) ∧
    (∀ g, (gangOf t g).v = (gangOf s g).v ∧ (gangOf t g).sr = (gangOf s g).sr ∧ (gangOf t g).p = (gangOf s g).p)) ∧
  (∀ s core, (∀ t ∈ s.stops, core ∉ t.cores) → exec (.stopArrive core) s = .next s) ∧
  (∀ s core, sampleDue s core = false → exec (.sampleTrigger core) s = .next s) ∧
  (∀ s core c, sampleDue s core = true → sampByTime s core = false → (coreOf s core).tag = some c → Yields (.sampleTrigger core) s fun t =>
    (coreOf t core).tag = none ∧ (coreOf t core).sampN = 0 ∧ t.gangs = s.gangs ∧ t.mem = s.mem ∧
    ∃ x, (coreOf t core).samples = (coreOf s core).samples ++ [x] ∧ x.g = c.g ∧ x.pc = c.pc ∧ x.slot = (gangOf s c.g).slot ∧ x.time = s.now) ∧
  (∀ s core, sampleDue s core = true → sampByTime s core = true → nextSlot s core = none → exec (.sampleTrigger core) s =
    .next (modCore s core fun C => { C with gone := [], sampN := cyclesOf s core })) ∧
  (∀ s core id x, (coreOf s core).samples.find? (fun x => x.id == id) = some x → sampleOver s core x = true →
    Yields (.sampleComplete core id) s fun t => (coreOf t core).samples = (coreOf s core).samples.filter (fun y => y.id != id) ∧
      t.gangs = s.gangs ∧ ∃ bytes, (sampleRing s core bytes).mem = t.mem ∧ bytes.length = 64) ∧
  (∀ s core id x, (coreOf s core).samples.find? (fun x => x.id == id) = some x → sampleOver s core x = false →
    exec (.sampleComplete core id) s = .next s)

/-! ## Encodings, steps and invariants -/

/-- R32 to R39, R47, R48 and R50: every well-formed instruction of the three sets is read back from its words. R32 to R39,
R45 and R50: words that decode are the words of what they decode to, so no bit of them is passed over. -/
def Obligations.EncodingsRoundTrip : Prop :=
  -- Decoding inverts encoding
  ((∀ i, wf i = true → encode i ≠ [] → isFabric i = false → decode (encode i) = .ok i) ∧
  (∀ i, wfFabric i = true → decodeFabric (fabNat (encode i)) = some i)) ∧
  -- Encoding inverts decoding
  ((∀ ws i, (∀ w, w ∈ ws → w < 2 ^ 32) → ws.length = (encode i).length → decode ws = .ok i → wf i = true ∧ encode i = ws) ∧
  (∀ w i, w < 2 ^ 64 → decodeFabric w = some i → wfFabric i = true ∧ fabNat (encode i) = w))

/-- The encodings that the chapters on formats and on the opcode map work out, and FNOP by R50. -/
def Obligations.WorkedEncodingsDecode : Prop :=
  decode [0x7E3113FE, 0x7D800000, 0x23204108] = .ok (.vfma
    ⟨⟨some ⟨false, 3, false, .rtz, some (.v 9), 0xFF⟩, some ⟨true, false, false, false, false, false, 0⟩⟩, .f32, .v 1, .src (.v 2), 4, false⟩) ∧
  decode [0x0121BF8A, 0x00012345] = .ok (.vadd ⟨.bare, .i32, .v 6, .lit 0x12345, 5, false⟩) ∧
  decode [0xF0080000] = .ok (.uget 2 0) ∧ decode [0x9D082008] = .ok (.ushlUi ⟨2, 2, 8⟩) ∧
  decode [0x810C1080] = .ok (.uadd ⟨3, 1, 2⟩) ∧ decode [0xA4140000, 0x40000000, 0x3F800000] = .ok (.ulit 5 0x40000000 0x3F800000) ∧
  decode [0x4610C010] = .ok (.vmov ⟨.bare, .i64, .s 3, 8, false⟩) ∧
  decode [0x70840402] = .ok (.vld ⟨.bare, .n64, 8, 8, 1, false⟩) ∧
  decode [0x7E2807FE, 0x23206288] = .ok (.vfma ⟨⟨some ⟨false, 2, true, .rne, some (.v 3), 0xFF⟩, none⟩, .f32, .v 1, .src (.s 5), 4, false⟩) ∧
  decode [0x01023F92, 0x00000048] = .ok (.vadd ⟨.bare, .i64, .v 8, .lit 72, 9, false⟩) ∧
  decode [0x60020412] = .ok (.vaddLi ⟨.bare, .i64, .v 8, 8, 9, false⟩) ∧
  decode [0x71848008] = .ok (.vst ⟨.bare, .n64, 9, 0, 4, false⟩) ∧ decode [0xC4000000] = .ok .exit ∧
  decodeFabric 0x011005030E000000 = some (.creq 1 5 12 7) ∧ decodeFabric 0x3000000000000000 = some .fnop

/-- R32, R34, R38, R41, R42 and R45: opcodes and fields that are not assigned are refused, with the lowest sub-code that
applies. -/
def Obligations.ReservedEncodingsAreRefused : Prop :=
  (∀ w ls, w < 2 ^ 31 → fld w 24 7 ∉ laneOps → fld w 24 7 ≠ 0x7D → fld w 24 7 ≠ 0x7E → decode (w :: ls) = .error (0x01, 13)) ∧
  (∀ w ls, 2 ^ 31 ≤ w → w < 2 ^ 32 → fld w 24 7 ∉ uniOps → decode (w :: ls) = .error (0x01, 13)) ∧
  (∀ w, fld w 56 8 ∉ fabricOps → decodeFabric w = none) ∧
  (∀ op f a b d k, op = 0x01 ∨ op = 0x02 → f < 8 → a < 128 → b < 128 → d < 64 → k < 2 → 100 ≤ a →
    decode [laneWord op f a b d k] = .error (0x03, 1)) ∧
  (∀ op f a b d k, op = 0x14 ∨ op = 0x19 → f < 8 → a < 100 → 0 < b → b < 128 → d < 64 → k < 2 →
    decode [laneWord op f a b d k] = .error (0x04, 2)) ∧
  (∀ p op f a b d k, p < 2 ^ 24 → fld p 16 3 = 6 ∨ fld p 16 3 = 7 → fld p 9 7 < 100 → p % 2 = 0 → op = 0x01 ∨ op = 0x02 → f < 8 →
    a < 100 → b < 100 → d < 64 → k < 2 → decode [0x7E000000 + p, laneWord op f a b d k] = .error (0x06, 15)) ∧
  (∀ d a b f, d < 64 → a < 64 → b < 64 → 0 < f → f < 64 → decode [uniWord 0x01 d a b f] = .error (0x09, 10))

/-- R39, R40, R42, R231, R234, R238 and R288: a step runs what the words at the gang's PC, or at the script's, decode to, and with
it what issues in the same cycle; words that do not decode trap or stop the script. Which inputs there are, and that what is due
goes before them, is the model's choice (log 2). -/
def Obligations.AStepRunsTheDecodedInstruction : Prop :=
  (∀ s g pc run ws i, chooseRun (gangOf s g) = some (pc, run) → ∀ c s1, c = { g := g, run := run, pc := pc, issued := false } →
    s1 = { s with cur := some c } → bpStop s1 g run pc = none → fetchInstr s1 g pc = .ok ws → decode ws = .ok i →
    serveAhead s1 c ws = none → let s2 := orderReads s1 c ws i
    runTurn s g = match exec i s2 with
      | .next t => onNext (restOfCycle s (afterIssue s2 t c ws i) g) fun u => finish u (some g)
      | r => r) ∧
  (∀ s c ws i, (gangOf s c.g).early = [] → (gangOf s c.g).openRds = [] → orderReads s c ws i = s) ∧
  (∀ s t g, t.cur = none ∨ isStepped t g = true ∨ didIssue s t g = false → restOfCycle s t g = .next t) ∧
  (∀ s t g c, t.cur = some c → packWith s g = none → coWith s t c = none → restOfCycle s t g = .next t) ∧
  (∀ s g pc run ws e, chooseRun (gangOf s g) = some (pc, run) → ∀ c, c = { g := g, run := run, pc := pc, issued := false } →
    bpStop { s with cur := some c } g run pc = none → fetchInstr { s with cur := some c } g pc = .ok ws → decode ws = .error e →
    issueTurn s g = .next (trapHere { s with cur := some c } c (midRun (gangOf s g) run) .illenc e.2 e.1 0xFF 0)) ∧
  (∀ s g pc run h, chooseRun (gangOf s g) = some (pc, run) → ∀ c, c = { g := g, run := run, pc := pc, issued := false } →
    bpStop { s with cur := some c } g run pc = none → fetchInstr { s with cur := some c } g pc = .error h →
    issueTurn s g = .next (settle { s with cur := some c } c (midRun (gangOf s g) run) h)) ∧
  (∀ s g t, issueTurn s g = .next t → runTurn s g = onNext (restOfCycle s t g) fun u => finish u (some g)) ∧
  (∀ s k w i, (scriptOf s k).st = .running → (scriptOf s k).store[(scriptOf s k).pc]? = some w → decodeFabric w.toNat = some i →
    runScript s k = onNext (exec i { s with script := some k }) fun t => finish t none) ∧
  (∀ s k, (scriptOf s k).st = .running → ((scriptOf s k).store[(scriptOf s k).pc]?).bind (fun w => decodeFabric w.toNat) = none →
    runScript s k = .next (finish (scriptFault s k .illenc (fabricSub ((scriptOf s k).store[(scriptOf s k).pc]?))) none)) ∧
  (∀ s i rest, s.power = .on → dueEvent s = none → s.inputs = i :: rest → step s = match i with
    | .event e => if encode e = [] then onNext (exec e { s with inputs := rest }) fun t => afterEvent { s with inputs := rest } t e
        else .next (finish { s with inputs := rest } none)
    | .turn g => if mayTurn { s with inputs := rest } g then runTurn { s with inputs := rest } g
        else .next (finish { s with inputs := rest } none)
    | .stall g => .next (finish (if (SMap.find s.gangs g).isSome then modGang { s with inputs := rest } g fun G => { G with stallAt := s.progress + 1 }
        else { s with inputs := rest }) none)
    | .script k => runScript { s with inputs := rest } k
    | .early g l va n => .next (finish (readAhead { s with inputs := rest } g l va n) none)
    | .late g => if mayTurn { s with inputs := rest } g then onNext (lateTurn { s with inputs := rest } g) fun t => finish t (some g)
        else .next (finish { s with inputs := rest } none)
    | .reread g k which => .next (finish (readAgain { s with inputs := rest } g k which) none)
    | .hostPart e which => .next (finish (hostPart { s with inputs := rest } e which) none)
    | .rail k val => .next (finish (railWrite { s with inputs := rest } k val) none)) ∧
  (∀ s c, s.power = .on → dueEvent s = none → s.inputs = [] → (choices s)[s.tick % (choices s).length]? = some c →
    step s = match c with
      | .turn g => runTurn s g
      | .script k => runScript s k
      | .stop k => onNext (exec (.stopArrive k) s) fun t => finish { t with progress := t.progress + 1 } none) ∧
  (∀ s d, s.power = .on → dueEvent s = some d → step s = onNext (match d with
      | .overdue g => exec (.gangOverdue g) s
      | .yieldBound g => exec (.yieldBound g) s
      | .sliceEnd k => exec (.sliceEnd k) s
      | .waitFault g l => exec (.waitphComplete g l) s
      | .waitRelease q => exec (.waitRelease q) s
      | .stepEnd k => exec (.stepEnd k) s
      | .sample k => exec (.sampleTrigger k) s) fun t => finish { t with progress := t.progress + 1 } none) ∧
  (∀ s cold, s.power = .booting cold → step s = onNext (exec .boot s) fun t => finish t none)

/-- Between steps no instruction is in course, and a gang that may not issue counts no cycles towards overdue (R231). -/
def Obligations.EveryStepKeepsTheBalance : Prop :=
 ∀ s t, Balanced s → step s = .next t → Balanced t

/-- R5, R263, R276, R379, R393 and R394: what a cold reset leaves. -/
def Obligations.ResetLeavesTheResetColumn : Prop :=
  Balanced State.reset ∧ Memory.wf State.reset.mem = true ∧ State.reset.power = .booting true ∧
  State.reset.gangs = [] ∧ State.reset.teams = [] ∧ (∀ c, (coreOf State.reset c).tokens = 0) ∧
  mgmtRead State.reset offMode = 0 ∧ mgmtRead State.reset offPacing = 0x8000000000000000 ∧
  (∀ q, q < 64 → mgmtRead State.reset (0x100000 + 64 * q) = 0x20007 ∧
    ∀ k, 0 < k → k < 8 → mgmtRead State.reset (0x100000 + 64 * q + 8 * k) = 0) ∧
  (∀ k, k < 32 → mgmtRead State.reset (0x200000 + 8 * k) = 0xA00040012000D800) ∧
  (∀ c n, c < 320 → n < 8 → mgmtRead State.reset (offBpCtl c n) = 0x0003FC0000000000) ∧
  (∀ c n, c < 320 → n < 4 → mgmtRead State.reset (offWpCtl c n) = 0x0300000000000000)
end

