-- ==== Sys2Proof/Laws/Bits.lean ====
section
/-!
SUPPORT. Fields of numbers and sub-elements of words: what a write of one leaves in each.
-/
namespace Sys2Proof.Machine

theorem split3 (x lo n : Nat) : x = x / 2 ^ (lo + n) * 2 ^ (lo + n) + fld x lo n * 2 ^ lo + x % 2 ^ lo := by
  unfold fld
  have h1 : x / 2 ^ (lo + n) = x / 2 ^ lo / 2 ^ n := by rw [pow_add, Nat.div_div_eq_div_mul]
  have h2 := Nat.div_add_mod x (2 ^ lo)
  have h3 := Nat.div_add_mod (x / 2 ^ lo) (2 ^ n)
  rw [h1, pow_add]
  have : x / 2 ^ lo / 2 ^ n * (2 ^ lo * 2 ^ n) + x / 2 ^ lo % 2 ^ n * 2 ^ lo
      = 2 ^ lo * (2 ^ n * (x / 2 ^ lo / 2 ^ n) + x / 2 ^ lo % 2 ^ n) := by ring
  rw [this, h3, h2]

/-- A field replaced, as the sum of what stands above, in and below it. -/
theorem setFld_eq (x lo n e : Nat) :
    setFld x lo n e = x / 2 ^ (lo + n) * 2 ^ (lo + n) + e % 2 ^ n * 2 ^ lo + x % 2 ^ lo := by
  have h := split3 x lo n
  unfold setFld
  omega

theorem fld_sum_same {hi f low lo n : Nat} (hf : f < 2 ^ n) (hl : low < 2 ^ lo) :
    fld (hi * 2 ^ (lo + n) + f * 2 ^ lo + low) lo n = f := by
  unfold fld
  have : hi * 2 ^ (lo + n) + f * 2 ^ lo + low = 2 ^ lo * (2 ^ n * hi + f) + low := by rw [pow_add]; ring
  rw [this, Nat.mul_add_div (by positivity), Nat.div_eq_of_lt hl, Nat.add_zero, Nat.mul_add_mod, Nat.mod_eq_of_lt hf]

theorem fld_setFld_same (x lo n e : Nat) : fld (setFld x lo n e) lo n = e % 2 ^ n := by
  rw [setFld_eq]
  exact fld_sum_same (Nat.mod_lt _ (by positivity)) (Nat.mod_lt _ (by positivity))

theorem setFld_div (x lo n e : Nat) : setFld x lo n e / 2 ^ (lo + n) = x / 2 ^ (lo + n) := by
  rw [setFld_eq]
  have h1 : e % 2 ^ n * 2 ^ lo + x % 2 ^ lo < 2 ^ (lo + n) := by
    have a : e % 2 ^ n + 1 ≤ 2 ^ n := Nat.mod_lt _ (by positivity)
    have b : x % 2 ^ lo < 2 ^ lo := Nat.mod_lt _ (by positivity)
    have c : (e % 2 ^ n + 1) * 2 ^ lo ≤ 2 ^ n * 2 ^ lo := Nat.mul_le_mul_right _ a
    rw [pow_add, Nat.mul_comm (2 ^ lo)]
    have d : (e % 2 ^ n + 1) * 2 ^ lo = e % 2 ^ n * 2 ^ lo + 2 ^ lo := by ring
    omega
  rw [Nat.add_assoc, Nat.mul_comm, Nat.mul_add_div (by positivity), Nat.div_eq_of_lt h1, Nat.add_zero]

theorem setFld_mod (x lo n e : Nat) : setFld x lo n e % 2 ^ lo = x % 2 ^ lo := by
  rw [setFld_eq]
  have : x / 2 ^ (lo + n) * 2 ^ (lo + n) + e % 2 ^ n * 2 ^ lo + x % 2 ^ lo
      = 2 ^ lo * (x / 2 ^ (lo + n) * 2 ^ n + e % 2 ^ n) + x % 2 ^ lo := by rw [pow_add]; ring
  rw [this, Nat.mul_add_mod, Nat.mod_mod]

theorem fld_of_mod {x y lo n b : Nat} (h : x % 2 ^ b = y % 2 ^ b) (hb : lo + n ≤ b) : fld x lo n = fld y lo n := by
  have key : ∀ z, fld z lo n = fld (z % 2 ^ b) lo n := by
    intro z
    unfold fld
    obtain ⟨d, rfl⟩ := Nat.exists_eq_add_of_le hb
    have hz := Nat.div_add_mod z (2 ^ (lo + n + d))
    conv_lhs => rw [← hz]
    have : 2 ^ (lo + n + d) * (z / 2 ^ (lo + n + d)) = 2 ^ lo * (2 ^ n * (2 ^ d * (z / 2 ^ (lo + n + d)))) := by
      rw [pow_add, pow_add]; ring
    rw [this, Nat.mul_add_div (by positivity), Nat.mul_add_mod]
  rw [key x, key y, h]

theorem fld_of_div {x y lo n b : Nat} (h : x / 2 ^ b = y / 2 ^ b) (hb : b ≤ lo) : fld x lo n = fld y lo n := by
  obtain ⟨d, rfl⟩ := Nat.exists_eq_add_of_le hb
  unfold fld
  rw [pow_add, ← Nat.div_div_eq_div_mul, ← Nat.div_div_eq_div_mul, h]

theorem fld_setFld_other (x lo n e lo' n' : Nat) (h : lo' + n' ≤ lo ∨ lo + n ≤ lo') :
    fld (setFld x lo n e) lo' n' = fld x lo' n' := by
  rcases h with h | h
  · exact fld_of_mod (setFld_mod x lo n e) h
  · exact fld_of_div (setFld_div x lo n e) h

theorem setFld_lt {x lo n e : Nat} (hx : x < 2 ^ 64) (hb : lo + n ≤ 64) : setFld x lo n e < 2 ^ 64 := by
  have h := setFld_div x lo n e
  obtain ⟨d, hd⟩ := Nat.exists_eq_add_of_le hb
  have h1 : x / 2 ^ (lo + n) < 2 ^ d := by
    apply Nat.div_lt_of_lt_mul; rw [← pow_add, ← hd]; exact hx
  rw [← h] at h1
  have := (Nat.div_lt_iff_lt_mul (by positivity)).mp h1
  rw [← pow_add, Nat.add_comm d, ← hd] at this
  exact this

/-- Sub-element `k` of width `w` after a write of sub-element `j`. -/
theorem elem_setElem (x : Word) (w j e k : Nat) (hj : j * w + w ≤ 64) :
    elem (setElem x w j e) w k = if k = j then e % 2 ^ w else elem x w k := by
  unfold elem setElem
  rw [BitVec.toNat_ofNat, Nat.mod_eq_of_lt (setFld_lt x.isLt hj)]
  by_cases h : k = j
  · subst h; rw [if_pos rfl]; exact fld_setFld_same _ _ _ _
  · rw [if_neg h]
    apply fld_setFld_other
    rcases Nat.lt_or_gt_of_ne h with h | h
    · left; have : (k + 1) * w ≤ j * w := Nat.mul_le_mul_right _ h
      linarith [Nat.succ_mul k w]
    · right; have : (j + 1) * w ≤ k * w := Nat.mul_le_mul_right _ h
      linarith [Nat.succ_mul j w]

/-- The sub-elements of a word after writes of several. -/
theorem elem_setElems (x : Word) (w : Nat) (ks : List Nat) (f : Nat → Nat) (nd : ks.Nodup) (hk : ∀ k ∈ ks, k * w + w ≤ 64) (k : Nat) :
    elem (setElems x w (ks.map fun k => (k, f k))) w k = if k ∈ ks then f k % 2 ^ w else elem x w k := by
  induction ks generalizing x with
  | nil => simp [setElems]
  | cons j t ih =>
    simp only [List.nodup_cons] at nd
    have h := ih (setElem x w j (f j)) nd.2 (fun i hi => hk i (List.mem_cons_of_mem _ hi))
    simp only [setElems, List.map_cons, List.foldl_cons] at h ⊢
    rw [h, elem_setElem _ _ _ _ _ (hk j (List.mem_cons_self ..))]
    by_cases e : k = j
    · subst e; simp [nd.1]
    · simp [e]

/-- The sub-elements that a mask selects lie in the word. -/
theorem maskKs_mem {p : Lead} {n k : Nat} : k ∈ maskKs p n ↔ k < n ∧ bitOf (maskOf p) k = true := by
  simp [maskKs]

theorem maskKs_nodup (p : Lead) (n : Nat) : (maskKs p n).Nodup := List.Nodup.filter _ List.nodup_range

/-- The widths of sub-elements divide a word. -/
theorem elem_fits {w k : Nat} (hw : w = 64 ∨ w = 32 ∨ w = 16 ∨ w = 8) (hk : k < 64 / w) : k * w + w ≤ 64 := by
  rcases hw with rfl | rfl | rfl | rfl <;> omega

theorem ifmt_bits (f : IFmt) : f.bits = 64 ∨ f.bits = 32 ∨ f.bits = 16 ∨ f.bits = 8 := by
  cases f <;> simp [IFmt.bits]

end Sys2Proof.Machine
end

