-- ==== Sys2Proof/Laws/Maps.lean ====
section
/-!
SUPPORT. The laws of sparse maps and of memory: a read after a write, and the canonical form that every write keeps.
-/
namespace Sys2Proof.Machine

namespace SMap
variable {α : Type}

/-- Erasing a key leaves the other entries. -/
theorem erase_eq_filter (m : SMap α) (k : Nat) : erase m k = m.filter fun e => e.1 != k := by
  fun_induction erase m k <;> simp_all

/-- An entry of a map in which `k` was written is the new one or an old one. -/
theorem of_mem_put {m : SMap α} {k : Nat} {v : α} {e : Nat × α} (h : e ∈ put m k v) : e = (k, v) ∨ e ∈ m := by
  fun_induction put m k v <;> simp only [List.mem_cons, List.not_mem_nil] at * <;> tauto

theorem above_iff {j : Nat} {m : SMap α} : above j m = true ↔ ∀ e ∈ m, j < e.1 := by simp [above]

theorem find_put (m : SMap α) (k : Nat) (v : α) (j : Nat) : find (put m k v) j = if k = j then some v else find m j := by
  fun_induction put m k v <;> simp only [find, *] <;> split <;> (simp_all; try omega)

theorem find_erase (m : SMap α) (k j : Nat) : find (erase m k) j = if k = j then none else find m j := by
  fun_induction erase m k <;> simp only [find, *] <;> split <;> (simp_all; try omega)

theorem find_above {k j : Nat} {m : SMap α} (a : above k m = true) (h : j ≤ k) : find m j = none := by
  fun_induction find m j with
  | case1 => rfl
  | case2 t v =>
    have := above_iff.mp a _ (List.mem_cons_self ..)
    omega
  | case3 _ _ _ _ _ ih => exact ih (above_iff.mpr fun e he => above_iff.mp a e (List.mem_cons_of_mem _ he)) h

theorem find_put_same (m : SMap α) (k : Nat) (v : α) : find (put m k v) k = some v := by rw [find_put, if_pos rfl]

theorem find_put_other (m : SMap α) {j k : Nat} (v : α) (h : j ≠ k) : find (put m k v) j = find m j := by
  rw [find_put, if_neg h.symm]

theorem find_erase_same (m : SMap α) (k : Nat) : find (erase m k) k = none := by rw [find_erase, if_pos rfl]

theorem find_erase_other (m : SMap α) {j k : Nat} (h : j ≠ k) : find (erase m k) j = find m j := by
  rw [find_erase, if_neg h.symm]

theorem above_put {j k : Nat} {m : SMap α} (v : α) (a : above j m = true) (h : j < k) : above j (put m k v) = true :=
  above_iff.mpr fun e he => (of_mem_put he).elim (fun q => q ▸ h) (above_iff.mp a e)

theorem above_erase {j k : Nat} {m : SMap α} (a : above j m = true) : above j (erase m k) = true := by
  rw [erase_eq_filter]; exact above_iff.mpr fun e he => above_iff.mp a e (List.mem_of_mem_filter he)

theorem sorted_put {m : SMap α} (s : sorted m = true) (k : Nat) (v : α) : sorted (put m k v) = true := by
  fun_induction put m k v with
  | case1 k v => rfl
  | case2 => simpa [sorted] using s
  | case3 j u t k v ne lt ih =>
    rw [sorted, Bool.and_eq_true] at s
    simp [sorted, above_put v s.1 lt, ih s.2]
  | case4 j u t k v ne ge =>
    have lt : k < j := by omega
    refine Bool.and_eq_true_iff.mpr ⟨above_iff.mpr fun e he => ?_, s⟩
    rcases List.mem_cons.mp he with rfl | he
    · exact lt
    · exact lt.trans (above_iff.mp (Bool.and_eq_true_iff.mp s).1 e he)

theorem sorted_erase {m : SMap α} (s : sorted m = true) (k : Nat) : sorted (erase m k) = true := by
  fun_induction erase m k with
  | case1 => rfl
  | case2 _ _ _ ih => exact ih (Bool.and_eq_true_iff.mp s).2
  | case3 _ _ _ _ _ ih =>
    exact Bool.and_eq_true_iff.mpr ⟨above_erase (Bool.and_eq_true_iff.mp s).1, ih (Bool.and_eq_true_iff.mp s).2⟩

@[simp] theorem getD_put_same (m : SMap α) (d : α) (k : Nat) (v : α) : getD (put m k v) k d = v := by
  rw [getD, find_put_same, Option.getD_some]

theorem getD_put_other (m : SMap α) (d : α) {j k : Nat} (v : α) (h : j ≠ k) : getD (put m k v) j d = getD m j d := by
  rw [getD, find_put_other m v h, getD]

theorem all_put (p : α → Bool) {m : SMap α} (h : m.all (fun e => p e.2) = true) (k : Nat) {v : α} (hv : p v = true) :
    (put m k v).all (fun e => p e.2) = true :=
  List.all_eq_true.mpr fun e he => (of_mem_put he).elim (fun q => q ▸ hv) (List.all_eq_true.mp h e)

theorem all_erase (p : α → Bool) {m : SMap α} (h : m.all (fun e => p e.2) = true) (k : Nat) :
    (erase m k).all (fun e => p e.2) = true := by
  rw [erase_eq_filter]; exact List.all_eq_true.mpr fun e he => List.all_eq_true.mp h e (List.mem_of_mem_filter he)

variable [DecidableEq α]

@[simp] theorem getD_putD_same (m : SMap α) (d : α) (k : Nat) (v : α) : getD (putD m d k v) k d = v := by
  unfold putD getD; split <;> simp [find_erase_same, find_put_same, *]

theorem getD_putD_other (m : SMap α) (d : α) {j k : Nat} (v : α) (h : j ≠ k) :
    getD (putD m d k v) j d = getD m j d := by
  unfold putD getD; split <;> simp [find_erase_other m h, find_put_other m v h]

/-- Every write keeps the canonical form. -/
theorem wf_putD {d : α} {m : SMap α} (h : wf d m = true) (k : Nat) (v : α) : wf d (putD m d k v) = true := by
  obtain ⟨s, a⟩ := Bool.and_eq_true_iff.mp h
  by_cases e : v = d
  · rw [putD, if_pos e]
    exact Bool.and_eq_true_iff.mpr ⟨sorted_erase s k, all_erase (fun x => decide (x ≠ d)) a k⟩
  · rw [putD, if_neg e]
    exact Bool.and_eq_true_iff.mpr ⟨sorted_put s k v, all_put (fun x => decide (x ≠ d)) a k (decide_eq_true e)⟩

end SMap

namespace Memory

theorem read_write_same (m : List Host.Cell) (a : Nat) (b : Byte) : read (write m a b) a = b :=
  SMap.getD_putD_same m empty a b

theorem read_write_other (m : List Host.Cell) {a c : Nat} (b : Byte) (h : c ≠ a) : read (write m a b) c = read m c :=
  SMap.getD_putD_other m empty b h

theorem wf_write {m : List Host.Cell} (h : wf m = true) (a : Nat) (b : Byte) : wf (write m a b) = true :=
  SMap.wf_putD h a b

theorem wf_writeN {m : List Host.Cell} (h : wf m = true) (a : Nat) (bs : List Byte) : wf (writeN m a bs) = true := by
  induction bs generalizing m a with
  | nil => exact h
  | cons b t ih => exact ih (wf_write h a b) (a + 1)

theorem read_writeN_outside (m : List Host.Cell) (a : Nat) (bs : List Byte) {c : Nat} (h : c < a ∨ a + bs.length ≤ c) :
    read (writeN m a bs) c = read m c := by
  induction bs generalizing m a with
  | nil => rfl
  | cons b t ih =>
    simp only [List.length_cons] at h
    simp only [writeN]
    rw [ih (write m a b) (a + 1) (by omega), read_write_other m b (by omega)]

end Memory

end Sys2Proof.Machine
end

