-- ==== Sys2Proof/Laws/State.lean ====
section
/-!
SUPPORT. One lemma for each field of the state and each update of it, true by unfolding (tagged simp), and what the
accessors read after an update.
-/
namespace Sys2Proof.Machine

/-! ## setGang -/

@[simp] theorem setGang_power (s : State) (g : Nat) (G : Gang) : (setGang s g G).power = s.power := rfl
@[simp] theorem setGang_now (s : State) (g : Nat) (G : Gang) : (setGang s g G).now = s.now := rfl
@[simp] theorem setGang_tick (s : State) (g : Nat) (G : Gang) : (setGang s g G).tick = s.tick := rfl
@[simp] theorem setGang_tick0 (s : State) (g : Nat) (G : Gang) : (setGang s g G).tick0 = s.tick0 := rfl
@[simp] theorem setGang_free (s : State) (g : Nat) (G : Gang) : (setGang s g G).free = s.free := rfl
@[simp] theorem setGang_progress (s : State) (g : Nat) (G : Gang) : (setGang s g G).progress = s.progress := rfl
@[simp] theorem setGang_inputs (s : State) (g : Nat) (G : Gang) : (setGang s g G).inputs = s.inputs := rfl
@[simp] theorem setGang_cur (s : State) (g : Nat) (G : Gang) : (setGang s g G).cur = s.cur := rfl
@[simp] theorem setGang_script (s : State) (g : Nat) (G : Gang) : (setGang s g G).script = s.script := rfl
@[simp] theorem setGang_mem (s : State) (g : Nat) (G : Gang) : (setGang s g G).mem = s.mem := rfl
@[simp] theorem setGang_span (s : State) (g : Nat) (G : Gang) : (setGang s g G).span = s.span := rfl
@[simp] theorem setGang_spad (s : State) (g : Nat) (G : Gang) : (setGang s g G).spad = s.spad := rfl
@[simp] theorem setGang_poisonSp (s : State) (g : Nat) (G : Gang) : (setGang s g G).poisonSp = s.poisonSp := rfl
@[simp] theorem setGang_poisonL2 (s : State) (g : Nat) (G : Gang) : (setGang s g G).poisonL2 = s.poisonL2 := rfl
@[simp] theorem setGang_poisonFar (s : State) (g : Nat) (G : Gang) : (setGang s g G).poisonFar = s.poisonFar := rfl
@[simp] theorem setGang_place (s : State) (g : Nat) (G : Gang) : (setGang s g G).place = s.place := rfl
@[simp] theorem setGang_teams (s : State) (g : Nat) (G : Gang) : (setGang s g G).teams = s.teams := rfl
@[simp] theorem setGang_cores (s : State) (g : Nat) (G : Gang) : (setGang s g G).cores = s.cores := rfl
@[simp] theorem setGang_dies (s : State) (g : Nat) (G : Gang) : (setGang s g G).dies = s.dies := rfl
@[simp] theorem setGang_islands (s : State) (g : Nat) (G : Gang) : (setGang s g G).islands = s.islands := rfl
@[simp] theorem setGang_matrix (s : State) (g : Nat) (G : Gang) : (setGang s g G).matrix = s.matrix := rfl
@[simp] theorem setGang_queues (s : State) (g : Nat) (G : Gang) : (setGang s g G).queues = s.queues := rfl
@[simp] theorem setGang_lastQ (s : State) (g : Nat) (G : Gang) : (setGang s g G).lastQ = s.lastQ := rfl
@[simp] theorem setGang_recQ (s : State) (g : Nat) (G : Gang) : (setGang s g G).recQ = s.recQ := rfl
@[simp] theorem setGang_pushed (s : State) (g : Nat) (G : Gang) : (setGang s g G).pushed = s.pushed := rfl
@[simp] theorem setGang_launches (s : State) (g : Nat) (G : Gang) : (setGang s g G).launches = s.launches := rfl
@[simp] theorem setGang_nextLaunch (s : State) (g : Nat) (G : Gang) : (setGang s g G).nextLaunch = s.nextLaunch := rfl
@[simp] theorem setGang_teamCnt (s : State) (g : Nat) (G : Gang) : (setGang s g G).teamCnt = s.teamCnt := rfl
@[simp] theorem setGang_waiting (s : State) (g : Nat) (G : Gang) : (setGang s g G).waiting = s.waiting := rfl
@[simp] theorem setGang_scripts (s : State) (g : Nat) (G : Gang) : (setGang s g G).scripts = s.scripts := rfl
@[simp] theorem setGang_ports (s : State) (g : Nat) (G : Gang) : (setGang s g G).ports = s.ports := rfl
@[simp] theorem setGang_binds (s : State) (g : Nat) (G : Gang) : (setGang s g G).binds = s.binds := rfl
@[simp] theorem setGang_fsqSerial (s : State) (g : Nat) (G : Gang) : (setGang s g G).fsqSerial = s.fsqSerial := rfl
@[simp] theorem setGang_reqno (s : State) (g : Nat) (G : Gang) : (setGang s g G).reqno = s.reqno := rfl
@[simp] theorem setGang_fsqSeen (s : State) (g : Nat) (G : Gang) : (setGang s g G).fsqSeen = s.fsqSeen := rfl
@[simp] theorem setGang_fsqOut (s : State) (g : Nat) (G : Gang) : (setGang s g G).fsqOut = s.fsqOut := rfl
@[simp] theorem setGang_cxes (s : State) (g : Nat) (G : Gang) : (setGang s g G).cxes = s.cxes := rfl
@[simp] theorem setGang_sendRes (s : State) (g : Nat) (G : Gang) : (setGang s g G).sendRes = s.sendRes := rfl
@[simp] theorem setGang_sxes (s : State) (g : Nat) (G : Gang) : (setGang s g G).sxes = s.sxes := rfl
@[simp] theorem setGang_orphans (s : State) (g : Nat) (G : Gang) : (setGang s g G).orphans = s.orphans := rfl
@[simp] theorem setGang_finals (s : State) (g : Nat) (G : Gang) : (setGang s g G).finals = s.finals := rfl
@[simp] theorem setGang_incarnation (s : State) (g : Nat) (G : Gang) : (setGang s g G).incarnation = s.incarnation := rfl
@[simp] theorem setGang_warmBase (s : State) (g : Nat) (G : Gang) : (setGang s g G).warmBase = s.warmBase := rfl
@[simp] theorem setGang_incTable (s : State) (g : Nat) (G : Gang) : (setGang s g G).incTable = s.incTable := rfl
@[simp] theorem setGang_faultsOut (s : State) (g : Nat) (G : Gang) : (setGang s g G).faultsOut = s.faultsOut := rfl
@[simp] theorem setGang_pfWaiters (s : State) (g : Nat) (G : Gang) : (setGang s g G).pfWaiters = s.pfWaiters := rfl
@[simp] theorem setGang_nextPf (s : State) (g : Nat) (G : Gang) : (setGang s g G).nextPf = s.nextPf := rfl
@[simp] theorem setGang_pfNo (s : State) (g : Nat) (G : Gang) : (setGang s g G).pfNo = s.pfNo := rfl
@[simp] theorem setGang_farOps (s : State) (g : Nat) (G : Gang) : (setGang s g G).farOps = s.farOps := rfl
@[simp] theorem setGang_farTl (s : State) (g : Nat) (G : Gang) : (setGang s g G).farTl = s.farTl := rfl
@[simp] theorem setGang_privTaken (s : State) (g : Nat) (G : Gang) : (setGang s g G).privTaken = s.privTaken := rfl
@[simp] theorem setGang_invalid (s : State) (g : Nat) (G : Gang) : (setGang s g G).invalid = s.invalid := rfl
@[simp] theorem setGang_stops (s : State) (g : Nat) (G : Gang) : (setGang s g G).stops = s.stops := rfl
@[simp] theorem setGang_mgmt (s : State) (g : Nat) (G : Gang) : (setGang s g G).mgmt = s.mgmt := rfl
@[simp] theorem setGang_bufs (s : State) (g : Nat) (G : Gang) : (setGang s g G).bufs = s.bufs := rfl
@[simp] theorem setGang_cave (s : State) (g : Nat) (G : Gang) : (setGang s g G).cave = s.cave := rfl
@[simp] theorem setGang_pacing (s : State) (g : Nat) (G : Gang) : (setGang s g G).pacing = s.pacing := rfl
@[simp] theorem setGang_paceDown (s : State) (g : Nat) (G : Gang) : (setGang s g G).paceDown = s.paceDown := rfl
@[simp] theorem setGang_paceUp (s : State) (g : Nat) (G : Gang) : (setGang s g G).paceUp = s.paceUp := rfl
@[simp] theorem setGang_paceAt (s : State) (g : Nat) (G : Gang) : (setGang s g G).paceAt = s.paceAt := rfl
@[simp] theorem setGang_paceComm (s : State) (g : Nat) (G : Gang) : (setGang s g G).paceComm = s.paceComm := rfl
@[simp] theorem setGang_lastStep (s : State) (g : Nat) (G : Gang) : (setGang s g G).lastStep = s.lastStep := rfl
@[simp] theorem setGang_nonce (s : State) (g : Nat) (G : Gang) : (setGang s g G).nonce = s.nonce := rfl
@[simp] theorem setGang_hostSeen (s : State) (g : Nat) (G : Gang) : (setGang s g G).hostSeen = s.hostSeen := rfl
@[simp] theorem setGang_torn (s : State) (g : Nat) (G : Gang) : (setGang s g G).torn = s.torn := rfl
@[simp] theorem setGang_moves (s : State) (g : Nat) (G : Gang) : (setGang s g G).moves = s.moves := rfl
@[simp] theorem setGang_hostSeq (s : State) (g : Nat) (G : Gang) : (setGang s g G).hostSeq = s.hostSeq := rfl
@[simp] theorem setGang_hostOut (s : State) (g : Nat) (G : Gang) : (setGang s g G).hostOut = s.hostOut := rfl
@[simp] theorem setGang_out (s : State) (g : Nat) (G : Gang) : (setGang s g G).out = s.out := rfl
@[simp] theorem setGang_age (s : State) (g : Nat) (G : Gang) : (setGang s g G).age = s.age := rfl
@[simp] theorem setGang_nextId (s : State) (g : Nat) (G : Gang) : (setGang s g G).nextId = s.nextId := rfl

/-! ## modGang -/

@[simp] theorem modGang_power (s : State) (g : Nat) (f : Gang → Gang) : (modGang s g f).power = s.power := rfl
@[simp] theorem modGang_now (s : State) (g : Nat) (f : Gang → Gang) : (modGang s g f).now = s.now := rfl
@[simp] theorem modGang_tick (s : State) (g : Nat) (f : Gang → Gang) : (modGang s g f).tick = s.tick := rfl
@[simp] theorem modGang_tick0 (s : State) (g : Nat) (f : Gang → Gang) : (modGang s g f).tick0 = s.tick0 := rfl
@[simp] theorem modGang_free (s : State) (g : Nat) (f : Gang → Gang) : (modGang s g f).free = s.free := rfl
@[simp] theorem modGang_progress (s : State) (g : Nat) (f : Gang → Gang) : (modGang s g f).progress = s.progress := rfl
@[simp] theorem modGang_inputs (s : State) (g : Nat) (f : Gang → Gang) : (modGang s g f).inputs = s.inputs := rfl
@[simp] theorem modGang_cur (s : State) (g : Nat) (f : Gang → Gang) : (modGang s g f).cur = s.cur := rfl
@[simp] theorem modGang_script (s : State) (g : Nat) (f : Gang → Gang) : (modGang s g f).script = s.script := rfl
@[simp] theorem modGang_mem (s : State) (g : Nat) (f : Gang → Gang) : (modGang s g f).mem = s.mem := rfl
@[simp] theorem modGang_span (s : State) (g : Nat) (f : Gang → Gang) : (modGang s g f).span = s.span := rfl
@[simp] theorem modGang_spad (s : State) (g : Nat) (f : Gang → Gang) : (modGang s g f).spad = s.spad := rfl
@[simp] theorem modGang_poisonSp (s : State) (g : Nat) (f : Gang → Gang) : (modGang s g f).poisonSp = s.poisonSp := rfl
@[simp] theorem modGang_poisonL2 (s : State) (g : Nat) (f : Gang → Gang) : (modGang s g f).poisonL2 = s.poisonL2 := rfl
@[simp] theorem modGang_poisonFar (s : State) (g : Nat) (f : Gang → Gang) : (modGang s g f).poisonFar = s.poisonFar := rfl
@[simp] theorem modGang_place (s : State) (g : Nat) (f : Gang → Gang) : (modGang s g f).place = s.place := rfl
@[simp] theorem modGang_teams (s : State) (g : Nat) (f : Gang → Gang) : (modGang s g f).teams = s.teams := rfl
@[simp] theorem modGang_cores (s : State) (g : Nat) (f : Gang → Gang) : (modGang s g f).cores = s.cores := rfl
@[simp] theorem modGang_dies (s : State) (g : Nat) (f : Gang → Gang) : (modGang s g f).dies = s.dies := rfl
@[simp] theorem modGang_islands (s : State) (g : Nat) (f : Gang → Gang) : (modGang s g f).islands = s.islands := rfl
@[simp] theorem modGang_matrix (s : State) (g : Nat) (f : Gang → Gang) : (modGang s g f).matrix = s.matrix := rfl
@[simp] theorem modGang_queues (s : State) (g : Nat) (f : Gang → Gang) : (modGang s g f).queues = s.queues := rfl
@[simp] theorem modGang_lastQ (s : State) (g : Nat) (f : Gang → Gang) : (modGang s g f).lastQ = s.lastQ := rfl
@[simp] theorem modGang_recQ (s : State) (g : Nat) (f : Gang → Gang) : (modGang s g f).recQ = s.recQ := rfl
@[simp] theorem modGang_pushed (s : State) (g : Nat) (f : Gang → Gang) : (modGang s g f).pushed = s.pushed := rfl
@[simp] theorem modGang_launches (s : State) (g : Nat) (f : Gang → Gang) : (modGang s g f).launches = s.launches := rfl
@[simp] theorem modGang_nextLaunch (s : State) (g : Nat) (f : Gang → Gang) : (modGang s g f).nextLaunch = s.nextLaunch := rfl
@[simp] theorem modGang_teamCnt (s : State) (g : Nat) (f : Gang → Gang) : (modGang s g f).teamCnt = s.teamCnt := rfl
@[simp] theorem modGang_waiting (s : State) (g : Nat) (f : Gang → Gang) : (modGang s g f).waiting = s.waiting := rfl
@[simp] theorem modGang_scripts (s : State) (g : Nat) (f : Gang → Gang) : (modGang s g f).scripts = s.scripts := rfl
@[simp] theorem modGang_ports (s : State) (g : Nat) (f : Gang → Gang) : (modGang s g f).ports = s.ports := rfl
@[simp] theorem modGang_binds (s : State) (g : Nat) (f : Gang → Gang) : (modGang s g f).binds = s.binds := rfl
@[simp] theorem modGang_fsqSerial (s : State) (g : Nat) (f : Gang → Gang) : (modGang s g f).fsqSerial = s.fsqSerial := rfl
@[simp] theorem modGang_reqno (s : State) (g : Nat) (f : Gang → Gang) : (modGang s g f).reqno = s.reqno := rfl
@[simp] theorem modGang_fsqSeen (s : State) (g : Nat) (f : Gang → Gang) : (modGang s g f).fsqSeen = s.fsqSeen := rfl
@[simp] theorem modGang_fsqOut (s : State) (g : Nat) (f : Gang → Gang) : (modGang s g f).fsqOut = s.fsqOut := rfl
@[simp] theorem modGang_cxes (s : State) (g : Nat) (f : Gang → Gang) : (modGang s g f).cxes = s.cxes := rfl
@[simp] theorem modGang_sendRes (s : State) (g : Nat) (f : Gang → Gang) : (modGang s g f).sendRes = s.sendRes := rfl
@[simp] theorem modGang_sxes (s : State) (g : Nat) (f : Gang → Gang) : (modGang s g f).sxes = s.sxes := rfl
@[simp] theorem modGang_orphans (s : State) (g : Nat) (f : Gang → Gang) : (modGang s g f).orphans = s.orphans := rfl
@[simp] theorem modGang_finals (s : State) (g : Nat) (f : Gang → Gang) : (modGang s g f).finals = s.finals := rfl
@[simp] theorem modGang_incarnation (s : State) (g : Nat) (f : Gang → Gang) : (modGang s g f).incarnation = s.incarnation := rfl
@[simp] theorem modGang_warmBase (s : State) (g : Nat) (f : Gang → Gang) : (modGang s g f).warmBase = s.warmBase := rfl
@[simp] theorem modGang_incTable (s : State) (g : Nat) (f : Gang → Gang) : (modGang s g f).incTable = s.incTable := rfl
@[simp] theorem modGang_faultsOut (s : State) (g : Nat) (f : Gang → Gang) : (modGang s g f).faultsOut = s.faultsOut := rfl
@[simp] theorem modGang_pfWaiters (s : State) (g : Nat) (f : Gang → Gang) : (modGang s g f).pfWaiters = s.pfWaiters := rfl
@[simp] theorem modGang_nextPf (s : State) (g : Nat) (f : Gang → Gang) : (modGang s g f).nextPf = s.nextPf := rfl
@[simp] theorem modGang_pfNo (s : State) (g : Nat) (f : Gang → Gang) : (modGang s g f).pfNo = s.pfNo := rfl
@[simp] theorem modGang_farOps (s : State) (g : Nat) (f : Gang → Gang) : (modGang s g f).farOps = s.farOps := rfl
@[simp] theorem modGang_farTl (s : State) (g : Nat) (f : Gang → Gang) : (modGang s g f).farTl = s.farTl := rfl
@[simp] theorem modGang_privTaken (s : State) (g : Nat) (f : Gang → Gang) : (modGang s g f).privTaken = s.privTaken := rfl
@[simp] theorem modGang_invalid (s : State) (g : Nat) (f : Gang → Gang) : (modGang s g f).invalid = s.invalid := rfl
@[simp] theorem modGang_stops (s : State) (g : Nat) (f : Gang → Gang) : (modGang s g f).stops = s.stops := rfl
@[simp] theorem modGang_mgmt (s : State) (g : Nat) (f : Gang → Gang) : (modGang s g f).mgmt = s.mgmt := rfl
@[simp] theorem modGang_bufs (s : State) (g : Nat) (f : Gang → Gang) : (modGang s g f).bufs = s.bufs := rfl
@[simp] theorem modGang_cave (s : State) (g : Nat) (f : Gang → Gang) : (modGang s g f).cave = s.cave := rfl
@[simp] theorem modGang_pacing (s : State) (g : Nat) (f : Gang → Gang) : (modGang s g f).pacing = s.pacing := rfl
@[simp] theorem modGang_paceDown (s : State) (g : Nat) (f : Gang → Gang) : (modGang s g f).paceDown = s.paceDown := rfl
@[simp] theorem modGang_paceUp (s : State) (g : Nat) (f : Gang → Gang) : (modGang s g f).paceUp = s.paceUp := rfl
@[simp] theorem modGang_paceAt (s : State) (g : Nat) (f : Gang → Gang) : (modGang s g f).paceAt = s.paceAt := rfl
@[simp] theorem modGang_paceComm (s : State) (g : Nat) (f : Gang → Gang) : (modGang s g f).paceComm = s.paceComm := rfl
@[simp] theorem modGang_lastStep (s : State) (g : Nat) (f : Gang → Gang) : (modGang s g f).lastStep = s.lastStep := rfl
@[simp] theorem modGang_nonce (s : State) (g : Nat) (f : Gang → Gang) : (modGang s g f).nonce = s.nonce := rfl
@[simp] theorem modGang_hostSeen (s : State) (g : Nat) (f : Gang → Gang) : (modGang s g f).hostSeen = s.hostSeen := rfl
@[simp] theorem modGang_torn (s : State) (g : Nat) (f : Gang → Gang) : (modGang s g f).torn = s.torn := rfl
@[simp] theorem modGang_moves (s : State) (g : Nat) (f : Gang → Gang) : (modGang s g f).moves = s.moves := rfl
@[simp] theorem modGang_hostSeq (s : State) (g : Nat) (f : Gang → Gang) : (modGang s g f).hostSeq = s.hostSeq := rfl
@[simp] theorem modGang_hostOut (s : State) (g : Nat) (f : Gang → Gang) : (modGang s g f).hostOut = s.hostOut := rfl
@[simp] theorem modGang_out (s : State) (g : Nat) (f : Gang → Gang) : (modGang s g f).out = s.out := rfl
@[simp] theorem modGang_age (s : State) (g : Nat) (f : Gang → Gang) : (modGang s g f).age = s.age := rfl
@[simp] theorem modGang_nextId (s : State) (g : Nat) (f : Gang → Gang) : (modGang s g f).nextId = s.nextId := rfl

/-! ## setTeam -/

@[simp] theorem setTeam_power (s : State) (t : Nat) (T : Team) : (setTeam s t T).power = s.power := rfl
@[simp] theorem setTeam_now (s : State) (t : Nat) (T : Team) : (setTeam s t T).now = s.now := rfl
@[simp] theorem setTeam_tick (s : State) (t : Nat) (T : Team) : (setTeam s t T).tick = s.tick := rfl
@[simp] theorem setTeam_tick0 (s : State) (t : Nat) (T : Team) : (setTeam s t T).tick0 = s.tick0 := rfl
@[simp] theorem setTeam_free (s : State) (t : Nat) (T : Team) : (setTeam s t T).free = s.free := rfl
@[simp] theorem setTeam_progress (s : State) (t : Nat) (T : Team) : (setTeam s t T).progress = s.progress := rfl
@[simp] theorem setTeam_inputs (s : State) (t : Nat) (T : Team) : (setTeam s t T).inputs = s.inputs := rfl
@[simp] theorem setTeam_cur (s : State) (t : Nat) (T : Team) : (setTeam s t T).cur = s.cur := rfl
@[simp] theorem setTeam_script (s : State) (t : Nat) (T : Team) : (setTeam s t T).script = s.script := rfl
@[simp] theorem setTeam_mem (s : State) (t : Nat) (T : Team) : (setTeam s t T).mem = s.mem := rfl
@[simp] theorem setTeam_span (s : State) (t : Nat) (T : Team) : (setTeam s t T).span = s.span := rfl
@[simp] theorem setTeam_spad (s : State) (t : Nat) (T : Team) : (setTeam s t T).spad = s.spad := rfl
@[simp] theorem setTeam_poisonSp (s : State) (t : Nat) (T : Team) : (setTeam s t T).poisonSp = s.poisonSp := rfl
@[simp] theorem setTeam_poisonL2 (s : State) (t : Nat) (T : Team) : (setTeam s t T).poisonL2 = s.poisonL2 := rfl
@[simp] theorem setTeam_poisonFar (s : State) (t : Nat) (T : Team) : (setTeam s t T).poisonFar = s.poisonFar := rfl
@[simp] theorem setTeam_place (s : State) (t : Nat) (T : Team) : (setTeam s t T).place = s.place := rfl
@[simp] theorem setTeam_gangs (s : State) (t : Nat) (T : Team) : (setTeam s t T).gangs = s.gangs := rfl
@[simp] theorem setTeam_cores (s : State) (t : Nat) (T : Team) : (setTeam s t T).cores = s.cores := rfl
@[simp] theorem setTeam_dies (s : State) (t : Nat) (T : Team) : (setTeam s t T).dies = s.dies := rfl
@[simp] theorem setTeam_islands (s : State) (t : Nat) (T : Team) : (setTeam s t T).islands = s.islands := rfl
@[simp] theorem setTeam_matrix (s : State) (t : Nat) (T : Team) : (setTeam s t T).matrix = s.matrix := rfl
@[simp] theorem setTeam_queues (s : State) (t : Nat) (T : Team) : (setTeam s t T).queues = s.queues := rfl
@[simp] theorem setTeam_lastQ (s : State) (t : Nat) (T : Team) : (setTeam s t T).lastQ = s.lastQ := rfl
@[simp] theorem setTeam_recQ (s : State) (t : Nat) (T : Team) : (setTeam s t T).recQ = s.recQ := rfl
@[simp] theorem setTeam_pushed (s : State) (t : Nat) (T : Team) : (setTeam s t T).pushed = s.pushed := rfl
@[simp] theorem setTeam_launches (s : State) (t : Nat) (T : Team) : (setTeam s t T).launches = s.launches := rfl
@[simp] theorem setTeam_nextLaunch (s : State) (t : Nat) (T : Team) : (setTeam s t T).nextLaunch = s.nextLaunch := rfl
@[simp] theorem setTeam_teamCnt (s : State) (t : Nat) (T : Team) : (setTeam s t T).teamCnt = s.teamCnt := rfl
@[simp] theorem setTeam_waiting (s : State) (t : Nat) (T : Team) : (setTeam s t T).waiting = s.waiting := rfl
@[simp] theorem setTeam_scripts (s : State) (t : Nat) (T : Team) : (setTeam s t T).scripts = s.scripts := rfl
@[simp] theorem setTeam_ports (s : State) (t : Nat) (T : Team) : (setTeam s t T).ports = s.ports := rfl
@[simp] theorem setTeam_binds (s : State) (t : Nat) (T : Team) : (setTeam s t T).binds = s.binds := rfl
@[simp] theorem setTeam_fsqSerial (s : State) (t : Nat) (T : Team) : (setTeam s t T).fsqSerial = s.fsqSerial := rfl
@[simp] theorem setTeam_reqno (s : State) (t : Nat) (T : Team) : (setTeam s t T).reqno = s.reqno := rfl
@[simp] theorem setTeam_fsqSeen (s : State) (t : Nat) (T : Team) : (setTeam s t T).fsqSeen = s.fsqSeen := rfl
@[simp] theorem setTeam_fsqOut (s : State) (t : Nat) (T : Team) : (setTeam s t T).fsqOut = s.fsqOut := rfl
@[simp] theorem setTeam_cxes (s : State) (t : Nat) (T : Team) : (setTeam s t T).cxes = s.cxes := rfl
@[simp] theorem setTeam_sendRes (s : State) (t : Nat) (T : Team) : (setTeam s t T).sendRes = s.sendRes := rfl
@[simp] theorem setTeam_sxes (s : State) (t : Nat) (T : Team) : (setTeam s t T).sxes = s.sxes := rfl
@[simp] theorem setTeam_orphans (s : State) (t : Nat) (T : Team) : (setTeam s t T).orphans = s.orphans := rfl
@[simp] theorem setTeam_finals (s : State) (t : Nat) (T : Team) : (setTeam s t T).finals = s.finals := rfl
@[simp] theorem setTeam_incarnation (s : State) (t : Nat) (T : Team) : (setTeam s t T).incarnation = s.incarnation := rfl
@[simp] theorem setTeam_warmBase (s : State) (t : Nat) (T : Team) : (setTeam s t T).warmBase = s.warmBase := rfl
@[simp] theorem setTeam_incTable (s : State) (t : Nat) (T : Team) : (setTeam s t T).incTable = s.incTable := rfl
@[simp] theorem setTeam_faultsOut (s : State) (t : Nat) (T : Team) : (setTeam s t T).faultsOut = s.faultsOut := rfl
@[simp] theorem setTeam_pfWaiters (s : State) (t : Nat) (T : Team) : (setTeam s t T).pfWaiters = s.pfWaiters := rfl
@[simp] theorem setTeam_nextPf (s : State) (t : Nat) (T : Team) : (setTeam s t T).nextPf = s.nextPf := rfl
@[simp] theorem setTeam_pfNo (s : State) (t : Nat) (T : Team) : (setTeam s t T).pfNo = s.pfNo := rfl
@[simp] theorem setTeam_farOps (s : State) (t : Nat) (T : Team) : (setTeam s t T).farOps = s.farOps := rfl
@[simp] theorem setTeam_farTl (s : State) (t : Nat) (T : Team) : (setTeam s t T).farTl = s.farTl := rfl
@[simp] theorem setTeam_privTaken (s : State) (t : Nat) (T : Team) : (setTeam s t T).privTaken = s.privTaken := rfl
@[simp] theorem setTeam_invalid (s : State) (t : Nat) (T : Team) : (setTeam s t T).invalid = s.invalid := rfl
@[simp] theorem setTeam_stops (s : State) (t : Nat) (T : Team) : (setTeam s t T).stops = s.stops := rfl
@[simp] theorem setTeam_mgmt (s : State) (t : Nat) (T : Team) : (setTeam s t T).mgmt = s.mgmt := rfl
@[simp] theorem setTeam_bufs (s : State) (t : Nat) (T : Team) : (setTeam s t T).bufs = s.bufs := rfl
@[simp] theorem setTeam_cave (s : State) (t : Nat) (T : Team) : (setTeam s t T).cave = s.cave := rfl
@[simp] theorem setTeam_pacing (s : State) (t : Nat) (T : Team) : (setTeam s t T).pacing = s.pacing := rfl
@[simp] theorem setTeam_paceDown (s : State) (t : Nat) (T : Team) : (setTeam s t T).paceDown = s.paceDown := rfl
@[simp] theorem setTeam_paceUp (s : State) (t : Nat) (T : Team) : (setTeam s t T).paceUp = s.paceUp := rfl
@[simp] theorem setTeam_paceAt (s : State) (t : Nat) (T : Team) : (setTeam s t T).paceAt = s.paceAt := rfl
@[simp] theorem setTeam_paceComm (s : State) (t : Nat) (T : Team) : (setTeam s t T).paceComm = s.paceComm := rfl
@[simp] theorem setTeam_lastStep (s : State) (t : Nat) (T : Team) : (setTeam s t T).lastStep = s.lastStep := rfl
@[simp] theorem setTeam_nonce (s : State) (t : Nat) (T : Team) : (setTeam s t T).nonce = s.nonce := rfl
@[simp] theorem setTeam_hostSeen (s : State) (t : Nat) (T : Team) : (setTeam s t T).hostSeen = s.hostSeen := rfl
@[simp] theorem setTeam_torn (s : State) (t : Nat) (T : Team) : (setTeam s t T).torn = s.torn := rfl
@[simp] theorem setTeam_moves (s : State) (t : Nat) (T : Team) : (setTeam s t T).moves = s.moves := rfl
@[simp] theorem setTeam_hostSeq (s : State) (t : Nat) (T : Team) : (setTeam s t T).hostSeq = s.hostSeq := rfl
@[simp] theorem setTeam_hostOut (s : State) (t : Nat) (T : Team) : (setTeam s t T).hostOut = s.hostOut := rfl
@[simp] theorem setTeam_out (s : State) (t : Nat) (T : Team) : (setTeam s t T).out = s.out := rfl
@[simp] theorem setTeam_age (s : State) (t : Nat) (T : Team) : (setTeam s t T).age = s.age := rfl
@[simp] theorem setTeam_nextId (s : State) (t : Nat) (T : Team) : (setTeam s t T).nextId = s.nextId := rfl

/-! ## modTeam -/

@[simp] theorem modTeam_power (s : State) (t : Nat) (f : Team → Team) : (modTeam s t f).power = s.power := rfl
@[simp] theorem modTeam_now (s : State) (t : Nat) (f : Team → Team) : (modTeam s t f).now = s.now := rfl
@[simp] theorem modTeam_tick (s : State) (t : Nat) (f : Team → Team) : (modTeam s t f).tick = s.tick := rfl
@[simp] theorem modTeam_tick0 (s : State) (t : Nat) (f : Team → Team) : (modTeam s t f).tick0 = s.tick0 := rfl
@[simp] theorem modTeam_free (s : State) (t : Nat) (f : Team → Team) : (modTeam s t f).free = s.free := rfl
@[simp] theorem modTeam_progress (s : State) (t : Nat) (f : Team → Team) : (modTeam s t f).progress = s.progress := rfl
@[simp] theorem modTeam_inputs (s : State) (t : Nat) (f : Team → Team) : (modTeam s t f).inputs = s.inputs := rfl
@[simp] theorem modTeam_cur (s : State) (t : Nat) (f : Team → Team) : (modTeam s t f).cur = s.cur := rfl
@[simp] theorem modTeam_script (s : State) (t : Nat) (f : Team → Team) : (modTeam s t f).script = s.script := rfl
@[simp] theorem modTeam_mem (s : State) (t : Nat) (f : Team → Team) : (modTeam s t f).mem = s.mem := rfl
@[simp] theorem modTeam_span (s : State) (t : Nat) (f : Team → Team) : (modTeam s t f).span = s.span := rfl
@[simp] theorem modTeam_spad (s : State) (t : Nat) (f : Team → Team) : (modTeam s t f).spad = s.spad := rfl
@[simp] theorem modTeam_poisonSp (s : State) (t : Nat) (f : Team → Team) : (modTeam s t f).poisonSp = s.poisonSp := rfl
@[simp] theorem modTeam_poisonL2 (s : State) (t : Nat) (f : Team → Team) : (modTeam s t f).poisonL2 = s.poisonL2 := rfl
@[simp] theorem modTeam_poisonFar (s : State) (t : Nat) (f : Team → Team) : (modTeam s t f).poisonFar = s.poisonFar := rfl
@[simp] theorem modTeam_place (s : State) (t : Nat) (f : Team → Team) : (modTeam s t f).place = s.place := rfl
@[simp] theorem modTeam_gangs (s : State) (t : Nat) (f : Team → Team) : (modTeam s t f).gangs = s.gangs := rfl
@[simp] theorem modTeam_cores (s : State) (t : Nat) (f : Team → Team) : (modTeam s t f).cores = s.cores := rfl
@[simp] theorem modTeam_dies (s : State) (t : Nat) (f : Team → Team) : (modTeam s t f).dies = s.dies := rfl
@[simp] theorem modTeam_islands (s : State) (t : Nat) (f : Team → Team) : (modTeam s t f).islands = s.islands := rfl
@[simp] theorem modTeam_matrix (s : State) (t : Nat) (f : Team → Team) : (modTeam s t f).matrix = s.matrix := rfl
@[simp] theorem modTeam_queues (s : State) (t : Nat) (f : Team → Team) : (modTeam s t f).queues = s.queues := rfl
@[simp] theorem modTeam_lastQ (s : State) (t : Nat) (f : Team → Team) : (modTeam s t f).lastQ = s.lastQ := rfl
@[simp] theorem modTeam_recQ (s : State) (t : Nat) (f : Team → Team) : (modTeam s t f).recQ = s.recQ := rfl
@[simp] theorem modTeam_pushed (s : State) (t : Nat) (f : Team → Team) : (modTeam s t f).pushed = s.pushed := rfl
@[simp] theorem modTeam_launches (s : State) (t : Nat) (f : Team → Team) : (modTeam s t f).launches = s.launches := rfl
@[simp] theorem modTeam_nextLaunch (s : State) (t : Nat) (f : Team → Team) : (modTeam s t f).nextLaunch = s.nextLaunch := rfl
@[simp] theorem modTeam_teamCnt (s : State) (t : Nat) (f : Team → Team) : (modTeam s t f).teamCnt = s.teamCnt := rfl
@[simp] theorem modTeam_waiting (s : State) (t : Nat) (f : Team → Team) : (modTeam s t f).waiting = s.waiting := rfl
@[simp] theorem modTeam_scripts (s : State) (t : Nat) (f : Team → Team) : (modTeam s t f).scripts = s.scripts := rfl
@[simp] theorem modTeam_ports (s : State) (t : Nat) (f : Team → Team) : (modTeam s t f).ports = s.ports := rfl
@[simp] theorem modTeam_binds (s : State) (t : Nat) (f : Team → Team) : (modTeam s t f).binds = s.binds := rfl
@[simp] theorem modTeam_fsqSerial (s : State) (t : Nat) (f : Team → Team) : (modTeam s t f).fsqSerial = s.fsqSerial := rfl
@[simp] theorem modTeam_reqno (s : State) (t : Nat) (f : Team → Team) : (modTeam s t f).reqno = s.reqno := rfl
@[simp] theorem modTeam_fsqSeen (s : State) (t : Nat) (f : Team → Team) : (modTeam s t f).fsqSeen = s.fsqSeen := rfl
@[simp] theorem modTeam_fsqOut (s : State) (t : Nat) (f : Team → Team) : (modTeam s t f).fsqOut = s.fsqOut := rfl
@[simp] theorem modTeam_cxes (s : State) (t : Nat) (f : Team → Team) : (modTeam s t f).cxes = s.cxes := rfl
@[simp] theorem modTeam_sendRes (s : State) (t : Nat) (f : Team → Team) : (modTeam s t f).sendRes = s.sendRes := rfl
@[simp] theorem modTeam_sxes (s : State) (t : Nat) (f : Team → Team) : (modTeam s t f).sxes = s.sxes := rfl
@[simp] theorem modTeam_orphans (s : State) (t : Nat) (f : Team → Team) : (modTeam s t f).orphans = s.orphans := rfl
@[simp] theorem modTeam_finals (s : State) (t : Nat) (f : Team → Team) : (modTeam s t f).finals = s.finals := rfl
@[simp] theorem modTeam_incarnation (s : State) (t : Nat) (f : Team → Team) : (modTeam s t f).incarnation = s.incarnation := rfl
@[simp] theorem modTeam_warmBase (s : State) (t : Nat) (f : Team → Team) : (modTeam s t f).warmBase = s.warmBase := rfl
@[simp] theorem modTeam_incTable (s : State) (t : Nat) (f : Team → Team) : (modTeam s t f).incTable = s.incTable := rfl
@[simp] theorem modTeam_faultsOut (s : State) (t : Nat) (f : Team → Team) : (modTeam s t f).faultsOut = s.faultsOut := rfl
@[simp] theorem modTeam_pfWaiters (s : State) (t : Nat) (f : Team → Team) : (modTeam s t f).pfWaiters = s.pfWaiters := rfl
@[simp] theorem modTeam_nextPf (s : State) (t : Nat) (f : Team → Team) : (modTeam s t f).nextPf = s.nextPf := rfl
@[simp] theorem modTeam_pfNo (s : State) (t : Nat) (f : Team → Team) : (modTeam s t f).pfNo = s.pfNo := rfl
@[simp] theorem modTeam_farOps (s : State) (t : Nat) (f : Team → Team) : (modTeam s t f).farOps = s.farOps := rfl
@[simp] theorem modTeam_farTl (s : State) (t : Nat) (f : Team → Team) : (modTeam s t f).farTl = s.farTl := rfl
@[simp] theorem modTeam_privTaken (s : State) (t : Nat) (f : Team → Team) : (modTeam s t f).privTaken = s.privTaken := rfl
@[simp] theorem modTeam_invalid (s : State) (t : Nat) (f : Team → Team) : (modTeam s t f).invalid = s.invalid := rfl
@[simp] theorem modTeam_stops (s : State) (t : Nat) (f : Team → Team) : (modTeam s t f).stops = s.stops := rfl
@[simp] theorem modTeam_mgmt (s : State) (t : Nat) (f : Team → Team) : (modTeam s t f).mgmt = s.mgmt := rfl
@[simp] theorem modTeam_bufs (s : State) (t : Nat) (f : Team → Team) : (modTeam s t f).bufs = s.bufs := rfl
@[simp] theorem modTeam_cave (s : State) (t : Nat) (f : Team → Team) : (modTeam s t f).cave = s.cave := rfl
@[simp] theorem modTeam_pacing (s : State) (t : Nat) (f : Team → Team) : (modTeam s t f).pacing = s.pacing := rfl
@[simp] theorem modTeam_paceDown (s : State) (t : Nat) (f : Team → Team) : (modTeam s t f).paceDown = s.paceDown := rfl
@[simp] theorem modTeam_paceUp (s : State) (t : Nat) (f : Team → Team) : (modTeam s t f).paceUp = s.paceUp := rfl
@[simp] theorem modTeam_paceAt (s : State) (t : Nat) (f : Team → Team) : (modTeam s t f).paceAt = s.paceAt := rfl
@[simp] theorem modTeam_paceComm (s : State) (t : Nat) (f : Team → Team) : (modTeam s t f).paceComm = s.paceComm := rfl
@[simp] theorem modTeam_lastStep (s : State) (t : Nat) (f : Team → Team) : (modTeam s t f).lastStep = s.lastStep := rfl
@[simp] theorem modTeam_nonce (s : State) (t : Nat) (f : Team → Team) : (modTeam s t f).nonce = s.nonce := rfl
@[simp] theorem modTeam_hostSeen (s : State) (t : Nat) (f : Team → Team) : (modTeam s t f).hostSeen = s.hostSeen := rfl
@[simp] theorem modTeam_torn (s : State) (t : Nat) (f : Team → Team) : (modTeam s t f).torn = s.torn := rfl
@[simp] theorem modTeam_moves (s : State) (t : Nat) (f : Team → Team) : (modTeam s t f).moves = s.moves := rfl
@[simp] theorem modTeam_hostSeq (s : State) (t : Nat) (f : Team → Team) : (modTeam s t f).hostSeq = s.hostSeq := rfl
@[simp] theorem modTeam_hostOut (s : State) (t : Nat) (f : Team → Team) : (modTeam s t f).hostOut = s.hostOut := rfl
@[simp] theorem modTeam_out (s : State) (t : Nat) (f : Team → Team) : (modTeam s t f).out = s.out := rfl
@[simp] theorem modTeam_age (s : State) (t : Nat) (f : Team → Team) : (modTeam s t f).age = s.age := rfl
@[simp] theorem modTeam_nextId (s : State) (t : Nat) (f : Team → Team) : (modTeam s t f).nextId = s.nextId := rfl

/-! ## modCore -/

@[simp] theorem modCore_power (s : State) (c : Nat) (f : Core → Core) : (modCore s c f).power = s.power := rfl
@[simp] theorem modCore_now (s : State) (c : Nat) (f : Core → Core) : (modCore s c f).now = s.now := rfl
@[simp] theorem modCore_tick (s : State) (c : Nat) (f : Core → Core) : (modCore s c f).tick = s.tick := rfl
@[simp] theorem modCore_tick0 (s : State) (c : Nat) (f : Core → Core) : (modCore s c f).tick0 = s.tick0 := rfl
@[simp] theorem modCore_free (s : State) (c : Nat) (f : Core → Core) : (modCore s c f).free = s.free := rfl
@[simp] theorem modCore_progress (s : State) (c : Nat) (f : Core → Core) : (modCore s c f).progress = s.progress := rfl
@[simp] theorem modCore_inputs (s : State) (c : Nat) (f : Core → Core) : (modCore s c f).inputs = s.inputs := rfl
@[simp] theorem modCore_cur (s : State) (c : Nat) (f : Core → Core) : (modCore s c f).cur = s.cur := rfl
@[simp] theorem modCore_script (s : State) (c : Nat) (f : Core → Core) : (modCore s c f).script = s.script := rfl
@[simp] theorem modCore_mem (s : State) (c : Nat) (f : Core → Core) : (modCore s c f).mem = s.mem := rfl
@[simp] theorem modCore_span (s : State) (c : Nat) (f : Core → Core) : (modCore s c f).span = s.span := rfl
@[simp] theorem modCore_spad (s : State) (c : Nat) (f : Core → Core) : (modCore s c f).spad = s.spad := rfl
@[simp] theorem modCore_poisonSp (s : State) (c : Nat) (f : Core → Core) : (modCore s c f).poisonSp = s.poisonSp := rfl
@[simp] theorem modCore_poisonL2 (s : State) (c : Nat) (f : Core → Core) : (modCore s c f).poisonL2 = s.poisonL2 := rfl
@[simp] theorem modCore_poisonFar (s : State) (c : Nat) (f : Core → Core) : (modCore s c f).poisonFar = s.poisonFar := rfl
@[simp] theorem modCore_place (s : State) (c : Nat) (f : Core → Core) : (modCore s c f).place = s.place := rfl
@[simp] theorem modCore_gangs (s : State) (c : Nat) (f : Core → Core) : (modCore s c f).gangs = s.gangs := rfl
@[simp] theorem modCore_teams (s : State) (c : Nat) (f : Core → Core) : (modCore s c f).teams = s.teams := rfl
@[simp] theorem modCore_dies (s : State) (c : Nat) (f : Core → Core) : (modCore s c f).dies = s.dies := rfl
@[simp] theorem modCore_islands (s : State) (c : Nat) (f : Core → Core) : (modCore s c f).islands = s.islands := rfl
@[simp] theorem modCore_matrix (s : State) (c : Nat) (f : Core → Core) : (modCore s c f).matrix = s.matrix := rfl
@[simp] theorem modCore_queues (s : State) (c : Nat) (f : Core → Core) : (modCore s c f).queues = s.queues := rfl
@[simp] theorem modCore_lastQ (s : State) (c : Nat) (f : Core → Core) : (modCore s c f).lastQ = s.lastQ := rfl
@[simp] theorem modCore_recQ (s : State) (c : Nat) (f : Core → Core) : (modCore s c f).recQ = s.recQ := rfl
@[simp] theorem modCore_pushed (s : State) (c : Nat) (f : Core → Core) : (modCore s c f).pushed = s.pushed := rfl
@[simp] theorem modCore_launches (s : State) (c : Nat) (f : Core → Core) : (modCore s c f).launches = s.launches := rfl
@[simp] theorem modCore_nextLaunch (s : State) (c : Nat) (f : Core → Core) : (modCore s c f).nextLaunch = s.nextLaunch := rfl
@[simp] theorem modCore_teamCnt (s : State) (c : Nat) (f : Core → Core) : (modCore s c f).teamCnt = s.teamCnt := rfl
@[simp] theorem modCore_waiting (s : State) (c : Nat) (f : Core → Core) : (modCore s c f).waiting = s.waiting := rfl
@[simp] theorem modCore_scripts (s : State) (c : Nat) (f : Core → Core) : (modCore s c f).scripts = s.scripts := rfl
@[simp] theorem modCore_ports (s : State) (c : Nat) (f : Core → Core) : (modCore s c f).ports = s.ports := rfl
@[simp] theorem modCore_binds (s : State) (c : Nat) (f : Core → Core) : (modCore s c f).binds = s.binds := rfl
@[simp] theorem modCore_fsqSerial (s : State) (c : Nat) (f : Core → Core) : (modCore s c f).fsqSerial = s.fsqSerial := rfl
@[simp] theorem modCore_reqno (s : State) (c : Nat) (f : Core → Core) : (modCore s c f).reqno = s.reqno := rfl
@[simp] theorem modCore_fsqSeen (s : State) (c : Nat) (f : Core → Core) : (modCore s c f).fsqSeen = s.fsqSeen := rfl
@[simp] theorem modCore_fsqOut (s : State) (c : Nat) (f : Core → Core) : (modCore s c f).fsqOut = s.fsqOut := rfl
@[simp] theorem modCore_cxes (s : State) (c : Nat) (f : Core → Core) : (modCore s c f).cxes = s.cxes := rfl
@[simp] theorem modCore_sendRes (s : State) (c : Nat) (f : Core → Core) : (modCore s c f).sendRes = s.sendRes := rfl
@[simp] theorem modCore_sxes (s : State) (c : Nat) (f : Core → Core) : (modCore s c f).sxes = s.sxes := rfl
@[simp] theorem modCore_orphans (s : State) (c : Nat) (f : Core → Core) : (modCore s c f).orphans = s.orphans := rfl
@[simp] theorem modCore_finals (s : State) (c : Nat) (f : Core → Core) : (modCore s c f).finals = s.finals := rfl
@[simp] theorem modCore_incarnation (s : State) (c : Nat) (f : Core → Core) : (modCore s c f).incarnation = s.incarnation := rfl
@[simp] theorem modCore_warmBase (s : State) (c : Nat) (f : Core → Core) : (modCore s c f).warmBase = s.warmBase := rfl
@[simp] theorem modCore_incTable (s : State) (c : Nat) (f : Core → Core) : (modCore s c f).incTable = s.incTable := rfl
@[simp] theorem modCore_faultsOut (s : State) (c : Nat) (f : Core → Core) : (modCore s c f).faultsOut = s.faultsOut := rfl
@[simp] theorem modCore_pfWaiters (s : State) (c : Nat) (f : Core → Core) : (modCore s c f).pfWaiters = s.pfWaiters := rfl
@[simp] theorem modCore_nextPf (s : State) (c : Nat) (f : Core → Core) : (modCore s c f).nextPf = s.nextPf := rfl
@[simp] theorem modCore_pfNo (s : State) (c : Nat) (f : Core → Core) : (modCore s c f).pfNo = s.pfNo := rfl
@[simp] theorem modCore_farOps (s : State) (c : Nat) (f : Core → Core) : (modCore s c f).farOps = s.farOps := rfl
@[simp] theorem modCore_farTl (s : State) (c : Nat) (f : Core → Core) : (modCore s c f).farTl = s.farTl := rfl
@[simp] theorem modCore_privTaken (s : State) (c : Nat) (f : Core → Core) : (modCore s c f).privTaken = s.privTaken := rfl
@[simp] theorem modCore_invalid (s : State) (c : Nat) (f : Core → Core) : (modCore s c f).invalid = s.invalid := rfl
@[simp] theorem modCore_stops (s : State) (c : Nat) (f : Core → Core) : (modCore s c f).stops = s.stops := rfl
@[simp] theorem modCore_mgmt (s : State) (c : Nat) (f : Core → Core) : (modCore s c f).mgmt = s.mgmt := rfl
@[simp] theorem modCore_bufs (s : State) (c : Nat) (f : Core → Core) : (modCore s c f).bufs = s.bufs := rfl
@[simp] theorem modCore_cave (s : State) (c : Nat) (f : Core → Core) : (modCore s c f).cave = s.cave := rfl
@[simp] theorem modCore_pacing (s : State) (c : Nat) (f : Core → Core) : (modCore s c f).pacing = s.pacing := rfl
@[simp] theorem modCore_paceDown (s : State) (c : Nat) (f : Core → Core) : (modCore s c f).paceDown = s.paceDown := rfl
@[simp] theorem modCore_paceUp (s : State) (c : Nat) (f : Core → Core) : (modCore s c f).paceUp = s.paceUp := rfl
@[simp] theorem modCore_paceAt (s : State) (c : Nat) (f : Core → Core) : (modCore s c f).paceAt = s.paceAt := rfl
@[simp] theorem modCore_paceComm (s : State) (c : Nat) (f : Core → Core) : (modCore s c f).paceComm = s.paceComm := rfl
@[simp] theorem modCore_lastStep (s : State) (c : Nat) (f : Core → Core) : (modCore s c f).lastStep = s.lastStep := rfl
@[simp] theorem modCore_nonce (s : State) (c : Nat) (f : Core → Core) : (modCore s c f).nonce = s.nonce := rfl
@[simp] theorem modCore_hostSeen (s : State) (c : Nat) (f : Core → Core) : (modCore s c f).hostSeen = s.hostSeen := rfl
@[simp] theorem modCore_torn (s : State) (c : Nat) (f : Core → Core) : (modCore s c f).torn = s.torn := rfl
@[simp] theorem modCore_moves (s : State) (c : Nat) (f : Core → Core) : (modCore s c f).moves = s.moves := rfl
@[simp] theorem modCore_hostSeq (s : State) (c : Nat) (f : Core → Core) : (modCore s c f).hostSeq = s.hostSeq := rfl
@[simp] theorem modCore_hostOut (s : State) (c : Nat) (f : Core → Core) : (modCore s c f).hostOut = s.hostOut := rfl
@[simp] theorem modCore_out (s : State) (c : Nat) (f : Core → Core) : (modCore s c f).out = s.out := rfl
@[simp] theorem modCore_age (s : State) (c : Nat) (f : Core → Core) : (modCore s c f).age = s.age := rfl
@[simp] theorem modCore_nextId (s : State) (c : Nat) (f : Core → Core) : (modCore s c f).nextId = s.nextId := rfl

/-! ## modTcu -/

@[simp] theorem modTcu_power (s : State) (c x : Nat) (f : TcuCtx → TcuCtx) : (modTcu s c x f).power = s.power := rfl
@[simp] theorem modTcu_now (s : State) (c x : Nat) (f : TcuCtx → TcuCtx) : (modTcu s c x f).now = s.now := rfl
@[simp] theorem modTcu_tick (s : State) (c x : Nat) (f : TcuCtx → TcuCtx) : (modTcu s c x f).tick = s.tick := rfl
@[simp] theorem modTcu_tick0 (s : State) (c x : Nat) (f : TcuCtx → TcuCtx) : (modTcu s c x f).tick0 = s.tick0 := rfl
@[simp] theorem modTcu_free (s : State) (c x : Nat) (f : TcuCtx → TcuCtx) : (modTcu s c x f).free = s.free := rfl
@[simp] theorem modTcu_progress (s : State) (c x : Nat) (f : TcuCtx → TcuCtx) : (modTcu s c x f).progress = s.progress := rfl
@[simp] theorem modTcu_inputs (s : State) (c x : Nat) (f : TcuCtx → TcuCtx) : (modTcu s c x f).inputs = s.inputs := rfl
@[simp] theorem modTcu_cur (s : State) (c x : Nat) (f : TcuCtx → TcuCtx) : (modTcu s c x f).cur = s.cur := rfl
@[simp] theorem modTcu_script (s : State) (c x : Nat) (f : TcuCtx → TcuCtx) : (modTcu s c x f).script = s.script := rfl
@[simp] theorem modTcu_mem (s : State) (c x : Nat) (f : TcuCtx → TcuCtx) : (modTcu s c x f).mem = s.mem := rfl
@[simp] theorem modTcu_span (s : State) (c x : Nat) (f : TcuCtx → TcuCtx) : (modTcu s c x f).span = s.span := rfl
@[simp] theorem modTcu_spad (s : State) (c x : Nat) (f : TcuCtx → TcuCtx) : (modTcu s c x f).spad = s.spad := rfl
@[simp] theorem modTcu_poisonSp (s : State) (c x : Nat) (f : TcuCtx → TcuCtx) : (modTcu s c x f).poisonSp = s.poisonSp := rfl
@[simp] theorem modTcu_poisonL2 (s : State) (c x : Nat) (f : TcuCtx → TcuCtx) : (modTcu s c x f).poisonL2 = s.poisonL2 := rfl
@[simp] theorem modTcu_poisonFar (s : State) (c x : Nat) (f : TcuCtx → TcuCtx) : (modTcu s c x f).poisonFar = s.poisonFar := rfl
@[simp] theorem modTcu_place (s : State) (c x : Nat) (f : TcuCtx → TcuCtx) : (modTcu s c x f).place = s.place := rfl
@[simp] theorem modTcu_gangs (s : State) (c x : Nat) (f : TcuCtx → TcuCtx) : (modTcu s c x f).gangs = s.gangs := rfl
@[simp] theorem modTcu_teams (s : State) (c x : Nat) (f : TcuCtx → TcuCtx) : (modTcu s c x f).teams = s.teams := rfl
@[simp] theorem modTcu_dies (s : State) (c x : Nat) (f : TcuCtx → TcuCtx) : (modTcu s c x f).dies = s.dies := rfl
@[simp] theorem modTcu_islands (s : State) (c x : Nat) (f : TcuCtx → TcuCtx) : (modTcu s c x f).islands = s.islands := rfl
@[simp] theorem modTcu_matrix (s : State) (c x : Nat) (f : TcuCtx → TcuCtx) : (modTcu s c x f).matrix = s.matrix := rfl
@[simp] theorem modTcu_queues (s : State) (c x : Nat) (f : TcuCtx → TcuCtx) : (modTcu s c x f).queues = s.queues := rfl
@[simp] theorem modTcu_lastQ (s : State) (c x : Nat) (f : TcuCtx → TcuCtx) : (modTcu s c x f).lastQ = s.lastQ := rfl
@[simp] theorem modTcu_recQ (s : State) (c x : Nat) (f : TcuCtx → TcuCtx) : (modTcu s c x f).recQ = s.recQ := rfl
@[simp] theorem modTcu_pushed (s : State) (c x : Nat) (f : TcuCtx → TcuCtx) : (modTcu s c x f).pushed = s.pushed := rfl
@[simp] theorem modTcu_launches (s : State) (c x : Nat) (f : TcuCtx → TcuCtx) : (modTcu s c x f).launches = s.launches := rfl
@[simp] theorem modTcu_nextLaunch (s : State) (c x : Nat) (f : TcuCtx → TcuCtx) : (modTcu s c x f).nextLaunch = s.nextLaunch := rfl
@[simp] theorem modTcu_teamCnt (s : State) (c x : Nat) (f : TcuCtx → TcuCtx) : (modTcu s c x f).teamCnt = s.teamCnt := rfl
@[simp] theorem modTcu_waiting (s : State) (c x : Nat) (f : TcuCtx → TcuCtx) : (modTcu s c x f).waiting = s.waiting := rfl
@[simp] theorem modTcu_scripts (s : State) (c x : Nat) (f : TcuCtx → TcuCtx) : (modTcu s c x f).scripts = s.scripts := rfl
@[simp] theorem modTcu_ports (s : State) (c x : Nat) (f : TcuCtx → TcuCtx) : (modTcu s c x f).ports = s.ports := rfl
@[simp] theorem modTcu_binds (s : State) (c x : Nat) (f : TcuCtx → TcuCtx) : (modTcu s c x f).binds = s.binds := rfl
@[simp] theorem modTcu_fsqSerial (s : State) (c x : Nat) (f : TcuCtx → TcuCtx) : (modTcu s c x f).fsqSerial = s.fsqSerial := rfl
@[simp] theorem modTcu_reqno (s : State) (c x : Nat) (f : TcuCtx → TcuCtx) : (modTcu s c x f).reqno = s.reqno := rfl
@[simp] theorem modTcu_fsqSeen (s : State) (c x : Nat) (f : TcuCtx → TcuCtx) : (modTcu s c x f).fsqSeen = s.fsqSeen := rfl
@[simp] theorem modTcu_fsqOut (s : State) (c x : Nat) (f : TcuCtx → TcuCtx) : (modTcu s c x f).fsqOut = s.fsqOut := rfl
@[simp] theorem modTcu_cxes (s : State) (c x : Nat) (f : TcuCtx → TcuCtx) : (modTcu s c x f).cxes = s.cxes := rfl
@[simp] theorem modTcu_sendRes (s : State) (c x : Nat) (f : TcuCtx → TcuCtx) : (modTcu s c x f).sendRes = s.sendRes := rfl
@[simp] theorem modTcu_sxes (s : State) (c x : Nat) (f : TcuCtx → TcuCtx) : (modTcu s c x f).sxes = s.sxes := rfl
@[simp] theorem modTcu_orphans (s : State) (c x : Nat) (f : TcuCtx → TcuCtx) : (modTcu s c x f).orphans = s.orphans := rfl
@[simp] theorem modTcu_finals (s : State) (c x : Nat) (f : TcuCtx → TcuCtx) : (modTcu s c x f).finals = s.finals := rfl
@[simp] theorem modTcu_incarnation (s : State) (c x : Nat) (f : TcuCtx → TcuCtx) : (modTcu s c x f).incarnation = s.incarnation := rfl
@[simp] theorem modTcu_warmBase (s : State) (c x : Nat) (f : TcuCtx → TcuCtx) : (modTcu s c x f).warmBase = s.warmBase := rfl
@[simp] theorem modTcu_incTable (s : State) (c x : Nat) (f : TcuCtx → TcuCtx) : (modTcu s c x f).incTable = s.incTable := rfl
@[simp] theorem modTcu_faultsOut (s : State) (c x : Nat) (f : TcuCtx → TcuCtx) : (modTcu s c x f).faultsOut = s.faultsOut := rfl
@[simp] theorem modTcu_pfWaiters (s : State) (c x : Nat) (f : TcuCtx → TcuCtx) : (modTcu s c x f).pfWaiters = s.pfWaiters := rfl
@[simp] theorem modTcu_nextPf (s : State) (c x : Nat) (f : TcuCtx → TcuCtx) : (modTcu s c x f).nextPf = s.nextPf := rfl
@[simp] theorem modTcu_pfNo (s : State) (c x : Nat) (f : TcuCtx → TcuCtx) : (modTcu s c x f).pfNo = s.pfNo := rfl
@[simp] theorem modTcu_farOps (s : State) (c x : Nat) (f : TcuCtx → TcuCtx) : (modTcu s c x f).farOps = s.farOps := rfl
@[simp] theorem modTcu_farTl (s : State) (c x : Nat) (f : TcuCtx → TcuCtx) : (modTcu s c x f).farTl = s.farTl := rfl
@[simp] theorem modTcu_privTaken (s : State) (c x : Nat) (f : TcuCtx → TcuCtx) : (modTcu s c x f).privTaken = s.privTaken := rfl
@[simp] theorem modTcu_invalid (s : State) (c x : Nat) (f : TcuCtx → TcuCtx) : (modTcu s c x f).invalid = s.invalid := rfl
@[simp] theorem modTcu_stops (s : State) (c x : Nat) (f : TcuCtx → TcuCtx) : (modTcu s c x f).stops = s.stops := rfl
@[simp] theorem modTcu_mgmt (s : State) (c x : Nat) (f : TcuCtx → TcuCtx) : (modTcu s c x f).mgmt = s.mgmt := rfl
@[simp] theorem modTcu_bufs (s : State) (c x : Nat) (f : TcuCtx → TcuCtx) : (modTcu s c x f).bufs = s.bufs := rfl
@[simp] theorem modTcu_cave (s : State) (c x : Nat) (f : TcuCtx → TcuCtx) : (modTcu s c x f).cave = s.cave := rfl
@[simp] theorem modTcu_pacing (s : State) (c x : Nat) (f : TcuCtx → TcuCtx) : (modTcu s c x f).pacing = s.pacing := rfl
@[simp] theorem modTcu_paceDown (s : State) (c x : Nat) (f : TcuCtx → TcuCtx) : (modTcu s c x f).paceDown = s.paceDown := rfl
@[simp] theorem modTcu_paceUp (s : State) (c x : Nat) (f : TcuCtx → TcuCtx) : (modTcu s c x f).paceUp = s.paceUp := rfl
@[simp] theorem modTcu_paceAt (s : State) (c x : Nat) (f : TcuCtx → TcuCtx) : (modTcu s c x f).paceAt = s.paceAt := rfl
@[simp] theorem modTcu_paceComm (s : State) (c x : Nat) (f : TcuCtx → TcuCtx) : (modTcu s c x f).paceComm = s.paceComm := rfl
@[simp] theorem modTcu_lastStep (s : State) (c x : Nat) (f : TcuCtx → TcuCtx) : (modTcu s c x f).lastStep = s.lastStep := rfl
@[simp] theorem modTcu_nonce (s : State) (c x : Nat) (f : TcuCtx → TcuCtx) : (modTcu s c x f).nonce = s.nonce := rfl
@[simp] theorem modTcu_hostSeen (s : State) (c x : Nat) (f : TcuCtx → TcuCtx) : (modTcu s c x f).hostSeen = s.hostSeen := rfl
@[simp] theorem modTcu_torn (s : State) (c x : Nat) (f : TcuCtx → TcuCtx) : (modTcu s c x f).torn = s.torn := rfl
@[simp] theorem modTcu_moves (s : State) (c x : Nat) (f : TcuCtx → TcuCtx) : (modTcu s c x f).moves = s.moves := rfl
@[simp] theorem modTcu_hostSeq (s : State) (c x : Nat) (f : TcuCtx → TcuCtx) : (modTcu s c x f).hostSeq = s.hostSeq := rfl
@[simp] theorem modTcu_hostOut (s : State) (c x : Nat) (f : TcuCtx → TcuCtx) : (modTcu s c x f).hostOut = s.hostOut := rfl
@[simp] theorem modTcu_out (s : State) (c x : Nat) (f : TcuCtx → TcuCtx) : (modTcu s c x f).out = s.out := rfl
@[simp] theorem modTcu_age (s : State) (c x : Nat) (f : TcuCtx → TcuCtx) : (modTcu s c x f).age = s.age := rfl
@[simp] theorem modTcu_nextId (s : State) (c x : Nat) (f : TcuCtx → TcuCtx) : (modTcu s c x f).nextId = s.nextId := rfl

/-! ## modDie -/

@[simp] theorem modDie_power (s : State) (d : Nat) (f : Die → Die) : (modDie s d f).power = s.power := rfl
@[simp] theorem modDie_now (s : State) (d : Nat) (f : Die → Die) : (modDie s d f).now = s.now := rfl
@[simp] theorem modDie_tick (s : State) (d : Nat) (f : Die → Die) : (modDie s d f).tick = s.tick := rfl
@[simp] theorem modDie_tick0 (s : State) (d : Nat) (f : Die → Die) : (modDie s d f).tick0 = s.tick0 := rfl
@[simp] theorem modDie_free (s : State) (d : Nat) (f : Die → Die) : (modDie s d f).free = s.free := rfl
@[simp] theorem modDie_progress (s : State) (d : Nat) (f : Die → Die) : (modDie s d f).progress = s.progress := rfl
@[simp] theorem modDie_inputs (s : State) (d : Nat) (f : Die → Die) : (modDie s d f).inputs = s.inputs := rfl
@[simp] theorem modDie_cur (s : State) (d : Nat) (f : Die → Die) : (modDie s d f).cur = s.cur := rfl
@[simp] theorem modDie_script (s : State) (d : Nat) (f : Die → Die) : (modDie s d f).script = s.script := rfl
@[simp] theorem modDie_mem (s : State) (d : Nat) (f : Die → Die) : (modDie s d f).mem = s.mem := rfl
@[simp] theorem modDie_span (s : State) (d : Nat) (f : Die → Die) : (modDie s d f).span = s.span := rfl
@[simp] theorem modDie_spad (s : State) (d : Nat) (f : Die → Die) : (modDie s d f).spad = s.spad := rfl
@[simp] theorem modDie_poisonSp (s : State) (d : Nat) (f : Die → Die) : (modDie s d f).poisonSp = s.poisonSp := rfl
@[simp] theorem modDie_poisonL2 (s : State) (d : Nat) (f : Die → Die) : (modDie s d f).poisonL2 = s.poisonL2 := rfl
@[simp] theorem modDie_poisonFar (s : State) (d : Nat) (f : Die → Die) : (modDie s d f).poisonFar = s.poisonFar := rfl
@[simp] theorem modDie_place (s : State) (d : Nat) (f : Die → Die) : (modDie s d f).place = s.place := rfl
@[simp] theorem modDie_gangs (s : State) (d : Nat) (f : Die → Die) : (modDie s d f).gangs = s.gangs := rfl
@[simp] theorem modDie_teams (s : State) (d : Nat) (f : Die → Die) : (modDie s d f).teams = s.teams := rfl
@[simp] theorem modDie_cores (s : State) (d : Nat) (f : Die → Die) : (modDie s d f).cores = s.cores := rfl
@[simp] theorem modDie_islands (s : State) (d : Nat) (f : Die → Die) : (modDie s d f).islands = s.islands := rfl
@[simp] theorem modDie_matrix (s : State) (d : Nat) (f : Die → Die) : (modDie s d f).matrix = s.matrix := rfl
@[simp] theorem modDie_queues (s : State) (d : Nat) (f : Die → Die) : (modDie s d f).queues = s.queues := rfl
@[simp] theorem modDie_lastQ (s : State) (d : Nat) (f : Die → Die) : (modDie s d f).lastQ = s.lastQ := rfl
@[simp] theorem modDie_recQ (s : State) (d : Nat) (f : Die → Die) : (modDie s d f).recQ = s.recQ := rfl
@[simp] theorem modDie_pushed (s : State) (d : Nat) (f : Die → Die) : (modDie s d f).pushed = s.pushed := rfl
@[simp] theorem modDie_launches (s : State) (d : Nat) (f : Die → Die) : (modDie s d f).launches = s.launches := rfl
@[simp] theorem modDie_nextLaunch (s : State) (d : Nat) (f : Die → Die) : (modDie s d f).nextLaunch = s.nextLaunch := rfl
@[simp] theorem modDie_teamCnt (s : State) (d : Nat) (f : Die → Die) : (modDie s d f).teamCnt = s.teamCnt := rfl
@[simp] theorem modDie_waiting (s : State) (d : Nat) (f : Die → Die) : (modDie s d f).waiting = s.waiting := rfl
@[simp] theorem modDie_scripts (s : State) (d : Nat) (f : Die → Die) : (modDie s d f).scripts = s.scripts := rfl
@[simp] theorem modDie_ports (s : State) (d : Nat) (f : Die → Die) : (modDie s d f).ports = s.ports := rfl
@[simp] theorem modDie_binds (s : State) (d : Nat) (f : Die → Die) : (modDie s d f).binds = s.binds := rfl
@[simp] theorem modDie_fsqSerial (s : State) (d : Nat) (f : Die → Die) : (modDie s d f).fsqSerial = s.fsqSerial := rfl
@[simp] theorem modDie_reqno (s : State) (d : Nat) (f : Die → Die) : (modDie s d f).reqno = s.reqno := rfl
@[simp] theorem modDie_fsqSeen (s : State) (d : Nat) (f : Die → Die) : (modDie s d f).fsqSeen = s.fsqSeen := rfl
@[simp] theorem modDie_fsqOut (s : State) (d : Nat) (f : Die → Die) : (modDie s d f).fsqOut = s.fsqOut := rfl
@[simp] theorem modDie_cxes (s : State) (d : Nat) (f : Die → Die) : (modDie s d f).cxes = s.cxes := rfl
@[simp] theorem modDie_sendRes (s : State) (d : Nat) (f : Die → Die) : (modDie s d f).sendRes = s.sendRes := rfl
@[simp] theorem modDie_sxes (s : State) (d : Nat) (f : Die → Die) : (modDie s d f).sxes = s.sxes := rfl
@[simp] theorem modDie_orphans (s : State) (d : Nat) (f : Die → Die) : (modDie s d f).orphans = s.orphans := rfl
@[simp] theorem modDie_finals (s : State) (d : Nat) (f : Die → Die) : (modDie s d f).finals = s.finals := rfl
@[simp] theorem modDie_incarnation (s : State) (d : Nat) (f : Die → Die) : (modDie s d f).incarnation = s.incarnation := rfl
@[simp] theorem modDie_warmBase (s : State) (d : Nat) (f : Die → Die) : (modDie s d f).warmBase = s.warmBase := rfl
@[simp] theorem modDie_incTable (s : State) (d : Nat) (f : Die → Die) : (modDie s d f).incTable = s.incTable := rfl
@[simp] theorem modDie_faultsOut (s : State) (d : Nat) (f : Die → Die) : (modDie s d f).faultsOut = s.faultsOut := rfl
@[simp] theorem modDie_pfWaiters (s : State) (d : Nat) (f : Die → Die) : (modDie s d f).pfWaiters = s.pfWaiters := rfl
@[simp] theorem modDie_nextPf (s : State) (d : Nat) (f : Die → Die) : (modDie s d f).nextPf = s.nextPf := rfl
@[simp] theorem modDie_pfNo (s : State) (d : Nat) (f : Die → Die) : (modDie s d f).pfNo = s.pfNo := rfl
@[simp] theorem modDie_farOps (s : State) (d : Nat) (f : Die → Die) : (modDie s d f).farOps = s.farOps := rfl
@[simp] theorem modDie_farTl (s : State) (d : Nat) (f : Die → Die) : (modDie s d f).farTl = s.farTl := rfl
@[simp] theorem modDie_privTaken (s : State) (d : Nat) (f : Die → Die) : (modDie s d f).privTaken = s.privTaken := rfl
@[simp] theorem modDie_invalid (s : State) (d : Nat) (f : Die → Die) : (modDie s d f).invalid = s.invalid := rfl
@[simp] theorem modDie_stops (s : State) (d : Nat) (f : Die → Die) : (modDie s d f).stops = s.stops := rfl
@[simp] theorem modDie_mgmt (s : State) (d : Nat) (f : Die → Die) : (modDie s d f).mgmt = s.mgmt := rfl
@[simp] theorem modDie_bufs (s : State) (d : Nat) (f : Die → Die) : (modDie s d f).bufs = s.bufs := rfl
@[simp] theorem modDie_cave (s : State) (d : Nat) (f : Die → Die) : (modDie s d f).cave = s.cave := rfl
@[simp] theorem modDie_pacing (s : State) (d : Nat) (f : Die → Die) : (modDie s d f).pacing = s.pacing := rfl
@[simp] theorem modDie_paceDown (s : State) (d : Nat) (f : Die → Die) : (modDie s d f).paceDown = s.paceDown := rfl
@[simp] theorem modDie_paceUp (s : State) (d : Nat) (f : Die → Die) : (modDie s d f).paceUp = s.paceUp := rfl
@[simp] theorem modDie_paceAt (s : State) (d : Nat) (f : Die → Die) : (modDie s d f).paceAt = s.paceAt := rfl
@[simp] theorem modDie_paceComm (s : State) (d : Nat) (f : Die → Die) : (modDie s d f).paceComm = s.paceComm := rfl
@[simp] theorem modDie_lastStep (s : State) (d : Nat) (f : Die → Die) : (modDie s d f).lastStep = s.lastStep := rfl
@[simp] theorem modDie_nonce (s : State) (d : Nat) (f : Die → Die) : (modDie s d f).nonce = s.nonce := rfl
@[simp] theorem modDie_hostSeen (s : State) (d : Nat) (f : Die → Die) : (modDie s d f).hostSeen = s.hostSeen := rfl
@[simp] theorem modDie_torn (s : State) (d : Nat) (f : Die → Die) : (modDie s d f).torn = s.torn := rfl
@[simp] theorem modDie_moves (s : State) (d : Nat) (f : Die → Die) : (modDie s d f).moves = s.moves := rfl
@[simp] theorem modDie_hostSeq (s : State) (d : Nat) (f : Die → Die) : (modDie s d f).hostSeq = s.hostSeq := rfl
@[simp] theorem modDie_hostOut (s : State) (d : Nat) (f : Die → Die) : (modDie s d f).hostOut = s.hostOut := rfl
@[simp] theorem modDie_out (s : State) (d : Nat) (f : Die → Die) : (modDie s d f).out = s.out := rfl
@[simp] theorem modDie_age (s : State) (d : Nat) (f : Die → Die) : (modDie s d f).age = s.age := rfl
@[simp] theorem modDie_nextId (s : State) (d : Nat) (f : Die → Die) : (modDie s d f).nextId = s.nextId := rfl

/-! ## modIsland -/

@[simp] theorem modIsland_power (s : State) (i : Nat) (f : Island → Island) : (modIsland s i f).power = s.power := rfl
@[simp] theorem modIsland_now (s : State) (i : Nat) (f : Island → Island) : (modIsland s i f).now = s.now := rfl
@[simp] theorem modIsland_tick (s : State) (i : Nat) (f : Island → Island) : (modIsland s i f).tick = s.tick := rfl
@[simp] theorem modIsland_tick0 (s : State) (i : Nat) (f : Island → Island) : (modIsland s i f).tick0 = s.tick0 := rfl
@[simp] theorem modIsland_free (s : State) (i : Nat) (f : Island → Island) : (modIsland s i f).free = s.free := rfl
@[simp] theorem modIsland_progress (s : State) (i : Nat) (f : Island → Island) : (modIsland s i f).progress = s.progress := rfl
@[simp] theorem modIsland_inputs (s : State) (i : Nat) (f : Island → Island) : (modIsland s i f).inputs = s.inputs := rfl
@[simp] theorem modIsland_cur (s : State) (i : Nat) (f : Island → Island) : (modIsland s i f).cur = s.cur := rfl
@[simp] theorem modIsland_script (s : State) (i : Nat) (f : Island → Island) : (modIsland s i f).script = s.script := rfl
@[simp] theorem modIsland_mem (s : State) (i : Nat) (f : Island → Island) : (modIsland s i f).mem = s.mem := rfl
@[simp] theorem modIsland_span (s : State) (i : Nat) (f : Island → Island) : (modIsland s i f).span = s.span := rfl
@[simp] theorem modIsland_spad (s : State) (i : Nat) (f : Island → Island) : (modIsland s i f).spad = s.spad := rfl
@[simp] theorem modIsland_poisonSp (s : State) (i : Nat) (f : Island → Island) : (modIsland s i f).poisonSp = s.poisonSp := rfl
@[simp] theorem modIsland_poisonL2 (s : State) (i : Nat) (f : Island → Island) : (modIsland s i f).poisonL2 = s.poisonL2 := rfl
@[simp] theorem modIsland_poisonFar (s : State) (i : Nat) (f : Island → Island) : (modIsland s i f).poisonFar = s.poisonFar := rfl
@[simp] theorem modIsland_place (s : State) (i : Nat) (f : Island → Island) : (modIsland s i f).place = s.place := rfl
@[simp] theorem modIsland_gangs (s : State) (i : Nat) (f : Island → Island) : (modIsland s i f).gangs = s.gangs := rfl
@[simp] theorem modIsland_teams (s : State) (i : Nat) (f : Island → Island) : (modIsland s i f).teams = s.teams := rfl
@[simp] theorem modIsland_cores (s : State) (i : Nat) (f : Island → Island) : (modIsland s i f).cores = s.cores := rfl
@[simp] theorem modIsland_dies (s : State) (i : Nat) (f : Island → Island) : (modIsland s i f).dies = s.dies := rfl
@[simp] theorem modIsland_matrix (s : State) (i : Nat) (f : Island → Island) : (modIsland s i f).matrix = s.matrix := rfl
@[simp] theorem modIsland_queues (s : State) (i : Nat) (f : Island → Island) : (modIsland s i f).queues = s.queues := rfl
@[simp] theorem modIsland_lastQ (s : State) (i : Nat) (f : Island → Island) : (modIsland s i f).lastQ = s.lastQ := rfl
@[simp] theorem modIsland_recQ (s : State) (i : Nat) (f : Island → Island) : (modIsland s i f).recQ = s.recQ := rfl
@[simp] theorem modIsland_pushed (s : State) (i : Nat) (f : Island → Island) : (modIsland s i f).pushed = s.pushed := rfl
@[simp] theorem modIsland_launches (s : State) (i : Nat) (f : Island → Island) : (modIsland s i f).launches = s.launches := rfl
@[simp] theorem modIsland_nextLaunch (s : State) (i : Nat) (f : Island → Island) : (modIsland s i f).nextLaunch = s.nextLaunch := rfl
@[simp] theorem modIsland_teamCnt (s : State) (i : Nat) (f : Island → Island) : (modIsland s i f).teamCnt = s.teamCnt := rfl
@[simp] theorem modIsland_waiting (s : State) (i : Nat) (f : Island → Island) : (modIsland s i f).waiting = s.waiting := rfl
@[simp] theorem modIsland_scripts (s : State) (i : Nat) (f : Island → Island) : (modIsland s i f).scripts = s.scripts := rfl
@[simp] theorem modIsland_ports (s : State) (i : Nat) (f : Island → Island) : (modIsland s i f).ports = s.ports := rfl
@[simp] theorem modIsland_binds (s : State) (i : Nat) (f : Island → Island) : (modIsland s i f).binds = s.binds := rfl
@[simp] theorem modIsland_fsqSerial (s : State) (i : Nat) (f : Island → Island) : (modIsland s i f).fsqSerial = s.fsqSerial := rfl
@[simp] theorem modIsland_reqno (s : State) (i : Nat) (f : Island → Island) : (modIsland s i f).reqno = s.reqno := rfl
@[simp] theorem modIsland_fsqSeen (s : State) (i : Nat) (f : Island → Island) : (modIsland s i f).fsqSeen = s.fsqSeen := rfl
@[simp] theorem modIsland_fsqOut (s : State) (i : Nat) (f : Island → Island) : (modIsland s i f).fsqOut = s.fsqOut := rfl
@[simp] theorem modIsland_cxes (s : State) (i : Nat) (f : Island → Island) : (modIsland s i f).cxes = s.cxes := rfl
@[simp] theorem modIsland_sendRes (s : State) (i : Nat) (f : Island → Island) : (modIsland s i f).sendRes = s.sendRes := rfl
@[simp] theorem modIsland_sxes (s : State) (i : Nat) (f : Island → Island) : (modIsland s i f).sxes = s.sxes := rfl
@[simp] theorem modIsland_orphans (s : State) (i : Nat) (f : Island → Island) : (modIsland s i f).orphans = s.orphans := rfl
@[simp] theorem modIsland_finals (s : State) (i : Nat) (f : Island → Island) : (modIsland s i f).finals = s.finals := rfl
@[simp] theorem modIsland_incarnation (s : State) (i : Nat) (f : Island → Island) : (modIsland s i f).incarnation = s.incarnation := rfl
@[simp] theorem modIsland_warmBase (s : State) (i : Nat) (f : Island → Island) : (modIsland s i f).warmBase = s.warmBase := rfl
@[simp] theorem modIsland_incTable (s : State) (i : Nat) (f : Island → Island) : (modIsland s i f).incTable = s.incTable := rfl
@[simp] theorem modIsland_faultsOut (s : State) (i : Nat) (f : Island → Island) : (modIsland s i f).faultsOut = s.faultsOut := rfl
@[simp] theorem modIsland_pfWaiters (s : State) (i : Nat) (f : Island → Island) : (modIsland s i f).pfWaiters = s.pfWaiters := rfl
@[simp] theorem modIsland_nextPf (s : State) (i : Nat) (f : Island → Island) : (modIsland s i f).nextPf = s.nextPf := rfl
@[simp] theorem modIsland_pfNo (s : State) (i : Nat) (f : Island → Island) : (modIsland s i f).pfNo = s.pfNo := rfl
@[simp] theorem modIsland_farOps (s : State) (i : Nat) (f : Island → Island) : (modIsland s i f).farOps = s.farOps := rfl
@[simp] theorem modIsland_farTl (s : State) (i : Nat) (f : Island → Island) : (modIsland s i f).farTl = s.farTl := rfl
@[simp] theorem modIsland_privTaken (s : State) (i : Nat) (f : Island → Island) : (modIsland s i f).privTaken = s.privTaken := rfl
@[simp] theorem modIsland_invalid (s : State) (i : Nat) (f : Island → Island) : (modIsland s i f).invalid = s.invalid := rfl
@[simp] theorem modIsland_stops (s : State) (i : Nat) (f : Island → Island) : (modIsland s i f).stops = s.stops := rfl
@[simp] theorem modIsland_mgmt (s : State) (i : Nat) (f : Island → Island) : (modIsland s i f).mgmt = s.mgmt := rfl
@[simp] theorem modIsland_bufs (s : State) (i : Nat) (f : Island → Island) : (modIsland s i f).bufs = s.bufs := rfl
@[simp] theorem modIsland_cave (s : State) (i : Nat) (f : Island → Island) : (modIsland s i f).cave = s.cave := rfl
@[simp] theorem modIsland_pacing (s : State) (i : Nat) (f : Island → Island) : (modIsland s i f).pacing = s.pacing := rfl
@[simp] theorem modIsland_paceDown (s : State) (i : Nat) (f : Island → Island) : (modIsland s i f).paceDown = s.paceDown := rfl
@[simp] theorem modIsland_paceUp (s : State) (i : Nat) (f : Island → Island) : (modIsland s i f).paceUp = s.paceUp := rfl
@[simp] theorem modIsland_paceAt (s : State) (i : Nat) (f : Island → Island) : (modIsland s i f).paceAt = s.paceAt := rfl
@[simp] theorem modIsland_paceComm (s : State) (i : Nat) (f : Island → Island) : (modIsland s i f).paceComm = s.paceComm := rfl
@[simp] theorem modIsland_lastStep (s : State) (i : Nat) (f : Island → Island) : (modIsland s i f).lastStep = s.lastStep := rfl
@[simp] theorem modIsland_nonce (s : State) (i : Nat) (f : Island → Island) : (modIsland s i f).nonce = s.nonce := rfl
@[simp] theorem modIsland_hostSeen (s : State) (i : Nat) (f : Island → Island) : (modIsland s i f).hostSeen = s.hostSeen := rfl
@[simp] theorem modIsland_torn (s : State) (i : Nat) (f : Island → Island) : (modIsland s i f).torn = s.torn := rfl
@[simp] theorem modIsland_moves (s : State) (i : Nat) (f : Island → Island) : (modIsland s i f).moves = s.moves := rfl
@[simp] theorem modIsland_hostSeq (s : State) (i : Nat) (f : Island → Island) : (modIsland s i f).hostSeq = s.hostSeq := rfl
@[simp] theorem modIsland_hostOut (s : State) (i : Nat) (f : Island → Island) : (modIsland s i f).hostOut = s.hostOut := rfl
@[simp] theorem modIsland_out (s : State) (i : Nat) (f : Island → Island) : (modIsland s i f).out = s.out := rfl
@[simp] theorem modIsland_age (s : State) (i : Nat) (f : Island → Island) : (modIsland s i f).age = s.age := rfl
@[simp] theorem modIsland_nextId (s : State) (i : Nat) (f : Island → Island) : (modIsland s i f).nextId = s.nextId := rfl

/-! ## modQueue -/

@[simp] theorem modQueue_power (s : State) (q : Nat) (f : CmdQueue → CmdQueue) : (modQueue s q f).power = s.power := rfl
@[simp] theorem modQueue_now (s : State) (q : Nat) (f : CmdQueue → CmdQueue) : (modQueue s q f).now = s.now := rfl
@[simp] theorem modQueue_tick (s : State) (q : Nat) (f : CmdQueue → CmdQueue) : (modQueue s q f).tick = s.tick := rfl
@[simp] theorem modQueue_tick0 (s : State) (q : Nat) (f : CmdQueue → CmdQueue) : (modQueue s q f).tick0 = s.tick0 := rfl
@[simp] theorem modQueue_free (s : State) (q : Nat) (f : CmdQueue → CmdQueue) : (modQueue s q f).free = s.free := rfl
@[simp] theorem modQueue_progress (s : State) (q : Nat) (f : CmdQueue → CmdQueue) : (modQueue s q f).progress = s.progress := rfl
@[simp] theorem modQueue_inputs (s : State) (q : Nat) (f : CmdQueue → CmdQueue) : (modQueue s q f).inputs = s.inputs := rfl
@[simp] theorem modQueue_cur (s : State) (q : Nat) (f : CmdQueue → CmdQueue) : (modQueue s q f).cur = s.cur := rfl
@[simp] theorem modQueue_script (s : State) (q : Nat) (f : CmdQueue → CmdQueue) : (modQueue s q f).script = s.script := rfl
@[simp] theorem modQueue_mem (s : State) (q : Nat) (f : CmdQueue → CmdQueue) : (modQueue s q f).mem = s.mem := rfl
@[simp] theorem modQueue_span (s : State) (q : Nat) (f : CmdQueue → CmdQueue) : (modQueue s q f).span = s.span := rfl
@[simp] theorem modQueue_spad (s : State) (q : Nat) (f : CmdQueue → CmdQueue) : (modQueue s q f).spad = s.spad := rfl
@[simp] theorem modQueue_poisonSp (s : State) (q : Nat) (f : CmdQueue → CmdQueue) : (modQueue s q f).poisonSp = s.poisonSp := rfl
@[simp] theorem modQueue_poisonL2 (s : State) (q : Nat) (f : CmdQueue → CmdQueue) : (modQueue s q f).poisonL2 = s.poisonL2 := rfl
@[simp] theorem modQueue_poisonFar (s : State) (q : Nat) (f : CmdQueue → CmdQueue) : (modQueue s q f).poisonFar = s.poisonFar := rfl
@[simp] theorem modQueue_place (s : State) (q : Nat) (f : CmdQueue → CmdQueue) : (modQueue s q f).place = s.place := rfl
@[simp] theorem modQueue_gangs (s : State) (q : Nat) (f : CmdQueue → CmdQueue) : (modQueue s q f).gangs = s.gangs := rfl
@[simp] theorem modQueue_teams (s : State) (q : Nat) (f : CmdQueue → CmdQueue) : (modQueue s q f).teams = s.teams := rfl
@[simp] theorem modQueue_cores (s : State) (q : Nat) (f : CmdQueue → CmdQueue) : (modQueue s q f).cores = s.cores := rfl
@[simp] theorem modQueue_dies (s : State) (q : Nat) (f : CmdQueue → CmdQueue) : (modQueue s q f).dies = s.dies := rfl
@[simp] theorem modQueue_islands (s : State) (q : Nat) (f : CmdQueue → CmdQueue) : (modQueue s q f).islands = s.islands := rfl
@[simp] theorem modQueue_matrix (s : State) (q : Nat) (f : CmdQueue → CmdQueue) : (modQueue s q f).matrix = s.matrix := rfl
@[simp] theorem modQueue_lastQ (s : State) (q : Nat) (f : CmdQueue → CmdQueue) : (modQueue s q f).lastQ = s.lastQ := rfl
@[simp] theorem modQueue_recQ (s : State) (q : Nat) (f : CmdQueue → CmdQueue) : (modQueue s q f).recQ = s.recQ := rfl
@[simp] theorem modQueue_pushed (s : State) (q : Nat) (f : CmdQueue → CmdQueue) : (modQueue s q f).pushed = s.pushed := rfl
@[simp] theorem modQueue_launches (s : State) (q : Nat) (f : CmdQueue → CmdQueue) : (modQueue s q f).launches = s.launches := rfl
@[simp] theorem modQueue_nextLaunch (s : State) (q : Nat) (f : CmdQueue → CmdQueue) : (modQueue s q f).nextLaunch = s.nextLaunch := rfl
@[simp] theorem modQueue_teamCnt (s : State) (q : Nat) (f : CmdQueue → CmdQueue) : (modQueue s q f).teamCnt = s.teamCnt := rfl
@[simp] theorem modQueue_waiting (s : State) (q : Nat) (f : CmdQueue → CmdQueue) : (modQueue s q f).waiting = s.waiting := rfl
@[simp] theorem modQueue_scripts (s : State) (q : Nat) (f : CmdQueue → CmdQueue) : (modQueue s q f).scripts = s.scripts := rfl
@[simp] theorem modQueue_ports (s : State) (q : Nat) (f : CmdQueue → CmdQueue) : (modQueue s q f).ports = s.ports := rfl
@[simp] theorem modQueue_binds (s : State) (q : Nat) (f : CmdQueue → CmdQueue) : (modQueue s q f).binds = s.binds := rfl
@[simp] theorem modQueue_fsqSerial (s : State) (q : Nat) (f : CmdQueue → CmdQueue) : (modQueue s q f).fsqSerial = s.fsqSerial := rfl
@[simp] theorem modQueue_reqno (s : State) (q : Nat) (f : CmdQueue → CmdQueue) : (modQueue s q f).reqno = s.reqno := rfl
@[simp] theorem modQueue_fsqSeen (s : State) (q : Nat) (f : CmdQueue → CmdQueue) : (modQueue s q f).fsqSeen = s.fsqSeen := rfl
@[simp] theorem modQueue_fsqOut (s : State) (q : Nat) (f : CmdQueue → CmdQueue) : (modQueue s q f).fsqOut = s.fsqOut := rfl
@[simp] theorem modQueue_cxes (s : State) (q : Nat) (f : CmdQueue → CmdQueue) : (modQueue s q f).cxes = s.cxes := rfl
@[simp] theorem modQueue_sendRes (s : State) (q : Nat) (f : CmdQueue → CmdQueue) : (modQueue s q f).sendRes = s.sendRes := rfl
@[simp] theorem modQueue_sxes (s : State) (q : Nat) (f : CmdQueue → CmdQueue) : (modQueue s q f).sxes = s.sxes := rfl
@[simp] theorem modQueue_orphans (s : State) (q : Nat) (f : CmdQueue → CmdQueue) : (modQueue s q f).orphans = s.orphans := rfl
@[simp] theorem modQueue_finals (s : State) (q : Nat) (f : CmdQueue → CmdQueue) : (modQueue s q f).finals = s.finals := rfl
@[simp] theorem modQueue_incarnation (s : State) (q : Nat) (f : CmdQueue → CmdQueue) : (modQueue s q f).incarnation = s.incarnation := rfl
@[simp] theorem modQueue_warmBase (s : State) (q : Nat) (f : CmdQueue → CmdQueue) : (modQueue s q f).warmBase = s.warmBase := rfl
@[simp] theorem modQueue_incTable (s : State) (q : Nat) (f : CmdQueue → CmdQueue) : (modQueue s q f).incTable = s.incTable := rfl
@[simp] theorem modQueue_faultsOut (s : State) (q : Nat) (f : CmdQueue → CmdQueue) : (modQueue s q f).faultsOut = s.faultsOut := rfl
@[simp] theorem modQueue_pfWaiters (s : State) (q : Nat) (f : CmdQueue → CmdQueue) : (modQueue s q f).pfWaiters = s.pfWaiters := rfl
@[simp] theorem modQueue_nextPf (s : State) (q : Nat) (f : CmdQueue → CmdQueue) : (modQueue s q f).nextPf = s.nextPf := rfl
@[simp] theorem modQueue_pfNo (s : State) (q : Nat) (f : CmdQueue → CmdQueue) : (modQueue s q f).pfNo = s.pfNo := rfl
@[simp] theorem modQueue_farOps (s : State) (q : Nat) (f : CmdQueue → CmdQueue) : (modQueue s q f).farOps = s.farOps := rfl
@[simp] theorem modQueue_farTl (s : State) (q : Nat) (f : CmdQueue → CmdQueue) : (modQueue s q f).farTl = s.farTl := rfl
@[simp] theorem modQueue_privTaken (s : State) (q : Nat) (f : CmdQueue → CmdQueue) : (modQueue s q f).privTaken = s.privTaken := rfl
@[simp] theorem modQueue_invalid (s : State) (q : Nat) (f : CmdQueue → CmdQueue) : (modQueue s q f).invalid = s.invalid := rfl
@[simp] theorem modQueue_stops (s : State) (q : Nat) (f : CmdQueue → CmdQueue) : (modQueue s q f).stops = s.stops := rfl
@[simp] theorem modQueue_mgmt (s : State) (q : Nat) (f : CmdQueue → CmdQueue) : (modQueue s q f).mgmt = s.mgmt := rfl
@[simp] theorem modQueue_bufs (s : State) (q : Nat) (f : CmdQueue → CmdQueue) : (modQueue s q f).bufs = s.bufs := rfl
@[simp] theorem modQueue_cave (s : State) (q : Nat) (f : CmdQueue → CmdQueue) : (modQueue s q f).cave = s.cave := rfl
@[simp] theorem modQueue_pacing (s : State) (q : Nat) (f : CmdQueue → CmdQueue) : (modQueue s q f).pacing = s.pacing := rfl
@[simp] theorem modQueue_paceDown (s : State) (q : Nat) (f : CmdQueue → CmdQueue) : (modQueue s q f).paceDown = s.paceDown := rfl
@[simp] theorem modQueue_paceUp (s : State) (q : Nat) (f : CmdQueue → CmdQueue) : (modQueue s q f).paceUp = s.paceUp := rfl
@[simp] theorem modQueue_paceAt (s : State) (q : Nat) (f : CmdQueue → CmdQueue) : (modQueue s q f).paceAt = s.paceAt := rfl
@[simp] theorem modQueue_paceComm (s : State) (q : Nat) (f : CmdQueue → CmdQueue) : (modQueue s q f).paceComm = s.paceComm := rfl
@[simp] theorem modQueue_lastStep (s : State) (q : Nat) (f : CmdQueue → CmdQueue) : (modQueue s q f).lastStep = s.lastStep := rfl
@[simp] theorem modQueue_nonce (s : State) (q : Nat) (f : CmdQueue → CmdQueue) : (modQueue s q f).nonce = s.nonce := rfl
@[simp] theorem modQueue_hostSeen (s : State) (q : Nat) (f : CmdQueue → CmdQueue) : (modQueue s q f).hostSeen = s.hostSeen := rfl
@[simp] theorem modQueue_torn (s : State) (q : Nat) (f : CmdQueue → CmdQueue) : (modQueue s q f).torn = s.torn := rfl
@[simp] theorem modQueue_moves (s : State) (q : Nat) (f : CmdQueue → CmdQueue) : (modQueue s q f).moves = s.moves := rfl
@[simp] theorem modQueue_hostSeq (s : State) (q : Nat) (f : CmdQueue → CmdQueue) : (modQueue s q f).hostSeq = s.hostSeq := rfl
@[simp] theorem modQueue_hostOut (s : State) (q : Nat) (f : CmdQueue → CmdQueue) : (modQueue s q f).hostOut = s.hostOut := rfl
@[simp] theorem modQueue_out (s : State) (q : Nat) (f : CmdQueue → CmdQueue) : (modQueue s q f).out = s.out := rfl
@[simp] theorem modQueue_age (s : State) (q : Nat) (f : CmdQueue → CmdQueue) : (modQueue s q f).age = s.age := rfl
@[simp] theorem modQueue_nextId (s : State) (q : Nat) (f : CmdQueue → CmdQueue) : (modQueue s q f).nextId = s.nextId := rfl

/-! ## modScript -/

@[simp] theorem modScript_power (s : State) (c : Nat) (f : Script → Script) : (modScript s c f).power = s.power := rfl
@[simp] theorem modScript_now (s : State) (c : Nat) (f : Script → Script) : (modScript s c f).now = s.now := rfl
@[simp] theorem modScript_tick (s : State) (c : Nat) (f : Script → Script) : (modScript s c f).tick = s.tick := rfl
@[simp] theorem modScript_tick0 (s : State) (c : Nat) (f : Script → Script) : (modScript s c f).tick0 = s.tick0 := rfl
@[simp] theorem modScript_free (s : State) (c : Nat) (f : Script → Script) : (modScript s c f).free = s.free := rfl
@[simp] theorem modScript_progress (s : State) (c : Nat) (f : Script → Script) : (modScript s c f).progress = s.progress := rfl
@[simp] theorem modScript_inputs (s : State) (c : Nat) (f : Script → Script) : (modScript s c f).inputs = s.inputs := rfl
@[simp] theorem modScript_cur (s : State) (c : Nat) (f : Script → Script) : (modScript s c f).cur = s.cur := rfl
@[simp] theorem modScript_script (s : State) (c : Nat) (f : Script → Script) : (modScript s c f).script = s.script := rfl
@[simp] theorem modScript_mem (s : State) (c : Nat) (f : Script → Script) : (modScript s c f).mem = s.mem := rfl
@[simp] theorem modScript_span (s : State) (c : Nat) (f : Script → Script) : (modScript s c f).span = s.span := rfl
@[simp] theorem modScript_spad (s : State) (c : Nat) (f : Script → Script) : (modScript s c f).spad = s.spad := rfl
@[simp] theorem modScript_poisonSp (s : State) (c : Nat) (f : Script → Script) : (modScript s c f).poisonSp = s.poisonSp := rfl
@[simp] theorem modScript_poisonL2 (s : State) (c : Nat) (f : Script → Script) : (modScript s c f).poisonL2 = s.poisonL2 := rfl
@[simp] theorem modScript_poisonFar (s : State) (c : Nat) (f : Script → Script) : (modScript s c f).poisonFar = s.poisonFar := rfl
@[simp] theorem modScript_place (s : State) (c : Nat) (f : Script → Script) : (modScript s c f).place = s.place := rfl
@[simp] theorem modScript_gangs (s : State) (c : Nat) (f : Script → Script) : (modScript s c f).gangs = s.gangs := rfl
@[simp] theorem modScript_teams (s : State) (c : Nat) (f : Script → Script) : (modScript s c f).teams = s.teams := rfl
@[simp] theorem modScript_cores (s : State) (c : Nat) (f : Script → Script) : (modScript s c f).cores = s.cores := rfl
@[simp] theorem modScript_dies (s : State) (c : Nat) (f : Script → Script) : (modScript s c f).dies = s.dies := rfl
@[simp] theorem modScript_islands (s : State) (c : Nat) (f : Script → Script) : (modScript s c f).islands = s.islands := rfl
@[simp] theorem modScript_matrix (s : State) (c : Nat) (f : Script → Script) : (modScript s c f).matrix = s.matrix := rfl
@[simp] theorem modScript_queues (s : State) (c : Nat) (f : Script → Script) : (modScript s c f).queues = s.queues := rfl
@[simp] theorem modScript_lastQ (s : State) (c : Nat) (f : Script → Script) : (modScript s c f).lastQ = s.lastQ := rfl
@[simp] theorem modScript_recQ (s : State) (c : Nat) (f : Script → Script) : (modScript s c f).recQ = s.recQ := rfl
@[simp] theorem modScript_pushed (s : State) (c : Nat) (f : Script → Script) : (modScript s c f).pushed = s.pushed := rfl
@[simp] theorem modScript_launches (s : State) (c : Nat) (f : Script → Script) : (modScript s c f).launches = s.launches := rfl
@[simp] theorem modScript_nextLaunch (s : State) (c : Nat) (f : Script → Script) : (modScript s c f).nextLaunch = s.nextLaunch := rfl
@[simp] theorem modScript_teamCnt (s : State) (c : Nat) (f : Script → Script) : (modScript s c f).teamCnt = s.teamCnt := rfl
@[simp] theorem modScript_waiting (s : State) (c : Nat) (f : Script → Script) : (modScript s c f).waiting = s.waiting := rfl
@[simp] theorem modScript_ports (s : State) (c : Nat) (f : Script → Script) : (modScript s c f).ports = s.ports := rfl
@[simp] theorem modScript_binds (s : State) (c : Nat) (f : Script → Script) : (modScript s c f).binds = s.binds := rfl
@[simp] theorem modScript_fsqSerial (s : State) (c : Nat) (f : Script → Script) : (modScript s c f).fsqSerial = s.fsqSerial := rfl
@[simp] theorem modScript_reqno (s : State) (c : Nat) (f : Script → Script) : (modScript s c f).reqno = s.reqno := rfl
@[simp] theorem modScript_fsqSeen (s : State) (c : Nat) (f : Script → Script) : (modScript s c f).fsqSeen = s.fsqSeen := rfl
@[simp] theorem modScript_fsqOut (s : State) (c : Nat) (f : Script → Script) : (modScript s c f).fsqOut = s.fsqOut := rfl
@[simp] theorem modScript_cxes (s : State) (c : Nat) (f : Script → Script) : (modScript s c f).cxes = s.cxes := rfl
@[simp] theorem modScript_sendRes (s : State) (c : Nat) (f : Script → Script) : (modScript s c f).sendRes = s.sendRes := rfl
@[simp] theorem modScript_sxes (s : State) (c : Nat) (f : Script → Script) : (modScript s c f).sxes = s.sxes := rfl
@[simp] theorem modScript_orphans (s : State) (c : Nat) (f : Script → Script) : (modScript s c f).orphans = s.orphans := rfl
@[simp] theorem modScript_finals (s : State) (c : Nat) (f : Script → Script) : (modScript s c f).finals = s.finals := rfl
@[simp] theorem modScript_incarnation (s : State) (c : Nat) (f : Script → Script) : (modScript s c f).incarnation = s.incarnation := rfl
@[simp] theorem modScript_warmBase (s : State) (c : Nat) (f : Script → Script) : (modScript s c f).warmBase = s.warmBase := rfl
@[simp] theorem modScript_incTable (s : State) (c : Nat) (f : Script → Script) : (modScript s c f).incTable = s.incTable := rfl
@[simp] theorem modScript_faultsOut (s : State) (c : Nat) (f : Script → Script) : (modScript s c f).faultsOut = s.faultsOut := rfl
@[simp] theorem modScript_pfWaiters (s : State) (c : Nat) (f : Script → Script) : (modScript s c f).pfWaiters = s.pfWaiters := rfl
@[simp] theorem modScript_nextPf (s : State) (c : Nat) (f : Script → Script) : (modScript s c f).nextPf = s.nextPf := rfl
@[simp] theorem modScript_pfNo (s : State) (c : Nat) (f : Script → Script) : (modScript s c f).pfNo = s.pfNo := rfl
@[simp] theorem modScript_farOps (s : State) (c : Nat) (f : Script → Script) : (modScript s c f).farOps = s.farOps := rfl
@[simp] theorem modScript_farTl (s : State) (c : Nat) (f : Script → Script) : (modScript s c f).farTl = s.farTl := rfl
@[simp] theorem modScript_privTaken (s : State) (c : Nat) (f : Script → Script) : (modScript s c f).privTaken = s.privTaken := rfl
@[simp] theorem modScript_invalid (s : State) (c : Nat) (f : Script → Script) : (modScript s c f).invalid = s.invalid := rfl
@[simp] theorem modScript_stops (s : State) (c : Nat) (f : Script → Script) : (modScript s c f).stops = s.stops := rfl
@[simp] theorem modScript_mgmt (s : State) (c : Nat) (f : Script → Script) : (modScript s c f).mgmt = s.mgmt := rfl
@[simp] theorem modScript_bufs (s : State) (c : Nat) (f : Script → Script) : (modScript s c f).bufs = s.bufs := rfl
@[simp] theorem modScript_cave (s : State) (c : Nat) (f : Script → Script) : (modScript s c f).cave = s.cave := rfl
@[simp] theorem modScript_pacing (s : State) (c : Nat) (f : Script → Script) : (modScript s c f).pacing = s.pacing := rfl
@[simp] theorem modScript_paceDown (s : State) (c : Nat) (f : Script → Script) : (modScript s c f).paceDown = s.paceDown := rfl
@[simp] theorem modScript_paceUp (s : State) (c : Nat) (f : Script → Script) : (modScript s c f).paceUp = s.paceUp := rfl
@[simp] theorem modScript_paceAt (s : State) (c : Nat) (f : Script → Script) : (modScript s c f).paceAt = s.paceAt := rfl
@[simp] theorem modScript_paceComm (s : State) (c : Nat) (f : Script → Script) : (modScript s c f).paceComm = s.paceComm := rfl
@[simp] theorem modScript_lastStep (s : State) (c : Nat) (f : Script → Script) : (modScript s c f).lastStep = s.lastStep := rfl
@[simp] theorem modScript_nonce (s : State) (c : Nat) (f : Script → Script) : (modScript s c f).nonce = s.nonce := rfl
@[simp] theorem modScript_hostSeen (s : State) (c : Nat) (f : Script → Script) : (modScript s c f).hostSeen = s.hostSeen := rfl
@[simp] theorem modScript_torn (s : State) (c : Nat) (f : Script → Script) : (modScript s c f).torn = s.torn := rfl
@[simp] theorem modScript_moves (s : State) (c : Nat) (f : Script → Script) : (modScript s c f).moves = s.moves := rfl
@[simp] theorem modScript_hostSeq (s : State) (c : Nat) (f : Script → Script) : (modScript s c f).hostSeq = s.hostSeq := rfl
@[simp] theorem modScript_hostOut (s : State) (c : Nat) (f : Script → Script) : (modScript s c f).hostOut = s.hostOut := rfl
@[simp] theorem modScript_out (s : State) (c : Nat) (f : Script → Script) : (modScript s c f).out = s.out := rfl
@[simp] theorem modScript_age (s : State) (c : Nat) (f : Script → Script) : (modScript s c f).age = s.age := rfl
@[simp] theorem modScript_nextId (s : State) (c : Nat) (f : Script → Script) : (modScript s c f).nextId = s.nextId := rfl

/-! ## modPort -/

@[simp] theorem modPort_power (s : State) (p : Nat) (f : Port → Port) : (modPort s p f).power = s.power := rfl
@[simp] theorem modPort_now (s : State) (p : Nat) (f : Port → Port) : (modPort s p f).now = s.now := rfl
@[simp] theorem modPort_tick (s : State) (p : Nat) (f : Port → Port) : (modPort s p f).tick = s.tick := rfl
@[simp] theorem modPort_tick0 (s : State) (p : Nat) (f : Port → Port) : (modPort s p f).tick0 = s.tick0 := rfl
@[simp] theorem modPort_free (s : State) (p : Nat) (f : Port → Port) : (modPort s p f).free = s.free := rfl
@[simp] theorem modPort_progress (s : State) (p : Nat) (f : Port → Port) : (modPort s p f).progress = s.progress := rfl
@[simp] theorem modPort_inputs (s : State) (p : Nat) (f : Port → Port) : (modPort s p f).inputs = s.inputs := rfl
@[simp] theorem modPort_cur (s : State) (p : Nat) (f : Port → Port) : (modPort s p f).cur = s.cur := rfl
@[simp] theorem modPort_script (s : State) (p : Nat) (f : Port → Port) : (modPort s p f).script = s.script := rfl
@[simp] theorem modPort_mem (s : State) (p : Nat) (f : Port → Port) : (modPort s p f).mem = s.mem := rfl
@[simp] theorem modPort_span (s : State) (p : Nat) (f : Port → Port) : (modPort s p f).span = s.span := rfl
@[simp] theorem modPort_spad (s : State) (p : Nat) (f : Port → Port) : (modPort s p f).spad = s.spad := rfl
@[simp] theorem modPort_poisonSp (s : State) (p : Nat) (f : Port → Port) : (modPort s p f).poisonSp = s.poisonSp := rfl
@[simp] theorem modPort_poisonL2 (s : State) (p : Nat) (f : Port → Port) : (modPort s p f).poisonL2 = s.poisonL2 := rfl
@[simp] theorem modPort_poisonFar (s : State) (p : Nat) (f : Port → Port) : (modPort s p f).poisonFar = s.poisonFar := rfl
@[simp] theorem modPort_place (s : State) (p : Nat) (f : Port → Port) : (modPort s p f).place = s.place := rfl
@[simp] theorem modPort_gangs (s : State) (p : Nat) (f : Port → Port) : (modPort s p f).gangs = s.gangs := rfl
@[simp] theorem modPort_teams (s : State) (p : Nat) (f : Port → Port) : (modPort s p f).teams = s.teams := rfl
@[simp] theorem modPort_cores (s : State) (p : Nat) (f : Port → Port) : (modPort s p f).cores = s.cores := rfl
@[simp] theorem modPort_dies (s : State) (p : Nat) (f : Port → Port) : (modPort s p f).dies = s.dies := rfl
@[simp] theorem modPort_islands (s : State) (p : Nat) (f : Port → Port) : (modPort s p f).islands = s.islands := rfl
@[simp] theorem modPort_matrix (s : State) (p : Nat) (f : Port → Port) : (modPort s p f).matrix = s.matrix := rfl
@[simp] theorem modPort_queues (s : State) (p : Nat) (f : Port → Port) : (modPort s p f).queues = s.queues := rfl
@[simp] theorem modPort_lastQ (s : State) (p : Nat) (f : Port → Port) : (modPort s p f).lastQ = s.lastQ := rfl
@[simp] theorem modPort_recQ (s : State) (p : Nat) (f : Port → Port) : (modPort s p f).recQ = s.recQ := rfl
@[simp] theorem modPort_pushed (s : State) (p : Nat) (f : Port → Port) : (modPort s p f).pushed = s.pushed := rfl
@[simp] theorem modPort_launches (s : State) (p : Nat) (f : Port → Port) : (modPort s p f).launches = s.launches := rfl
@[simp] theorem modPort_nextLaunch (s : State) (p : Nat) (f : Port → Port) : (modPort s p f).nextLaunch = s.nextLaunch := rfl
@[simp] theorem modPort_teamCnt (s : State) (p : Nat) (f : Port → Port) : (modPort s p f).teamCnt = s.teamCnt := rfl
@[simp] theorem modPort_waiting (s : State) (p : Nat) (f : Port → Port) : (modPort s p f).waiting = s.waiting := rfl
@[simp] theorem modPort_scripts (s : State) (p : Nat) (f : Port → Port) : (modPort s p f).scripts = s.scripts := rfl
@[simp] theorem modPort_binds (s : State) (p : Nat) (f : Port → Port) : (modPort s p f).binds = s.binds := rfl
@[simp] theorem modPort_fsqSerial (s : State) (p : Nat) (f : Port → Port) : (modPort s p f).fsqSerial = s.fsqSerial := rfl
@[simp] theorem modPort_reqno (s : State) (p : Nat) (f : Port → Port) : (modPort s p f).reqno = s.reqno := rfl
@[simp] theorem modPort_fsqSeen (s : State) (p : Nat) (f : Port → Port) : (modPort s p f).fsqSeen = s.fsqSeen := rfl
@[simp] theorem modPort_fsqOut (s : State) (p : Nat) (f : Port → Port) : (modPort s p f).fsqOut = s.fsqOut := rfl
@[simp] theorem modPort_cxes (s : State) (p : Nat) (f : Port → Port) : (modPort s p f).cxes = s.cxes := rfl
@[simp] theorem modPort_sendRes (s : State) (p : Nat) (f : Port → Port) : (modPort s p f).sendRes = s.sendRes := rfl
@[simp] theorem modPort_sxes (s : State) (p : Nat) (f : Port → Port) : (modPort s p f).sxes = s.sxes := rfl
@[simp] theorem modPort_orphans (s : State) (p : Nat) (f : Port → Port) : (modPort s p f).orphans = s.orphans := rfl
@[simp] theorem modPort_finals (s : State) (p : Nat) (f : Port → Port) : (modPort s p f).finals = s.finals := rfl
@[simp] theorem modPort_incarnation (s : State) (p : Nat) (f : Port → Port) : (modPort s p f).incarnation = s.incarnation := rfl
@[simp] theorem modPort_warmBase (s : State) (p : Nat) (f : Port → Port) : (modPort s p f).warmBase = s.warmBase := rfl
@[simp] theorem modPort_incTable (s : State) (p : Nat) (f : Port → Port) : (modPort s p f).incTable = s.incTable := rfl
@[simp] theorem modPort_faultsOut (s : State) (p : Nat) (f : Port → Port) : (modPort s p f).faultsOut = s.faultsOut := rfl
@[simp] theorem modPort_pfWaiters (s : State) (p : Nat) (f : Port → Port) : (modPort s p f).pfWaiters = s.pfWaiters := rfl
@[simp] theorem modPort_nextPf (s : State) (p : Nat) (f : Port → Port) : (modPort s p f).nextPf = s.nextPf := rfl
@[simp] theorem modPort_pfNo (s : State) (p : Nat) (f : Port → Port) : (modPort s p f).pfNo = s.pfNo := rfl
@[simp] theorem modPort_farOps (s : State) (p : Nat) (f : Port → Port) : (modPort s p f).farOps = s.farOps := rfl
@[simp] theorem modPort_farTl (s : State) (p : Nat) (f : Port → Port) : (modPort s p f).farTl = s.farTl := rfl
@[simp] theorem modPort_privTaken (s : State) (p : Nat) (f : Port → Port) : (modPort s p f).privTaken = s.privTaken := rfl
@[simp] theorem modPort_invalid (s : State) (p : Nat) (f : Port → Port) : (modPort s p f).invalid = s.invalid := rfl
@[simp] theorem modPort_stops (s : State) (p : Nat) (f : Port → Port) : (modPort s p f).stops = s.stops := rfl
@[simp] theorem modPort_mgmt (s : State) (p : Nat) (f : Port → Port) : (modPort s p f).mgmt = s.mgmt := rfl
@[simp] theorem modPort_bufs (s : State) (p : Nat) (f : Port → Port) : (modPort s p f).bufs = s.bufs := rfl
@[simp] theorem modPort_cave (s : State) (p : Nat) (f : Port → Port) : (modPort s p f).cave = s.cave := rfl
@[simp] theorem modPort_pacing (s : State) (p : Nat) (f : Port → Port) : (modPort s p f).pacing = s.pacing := rfl
@[simp] theorem modPort_paceDown (s : State) (p : Nat) (f : Port → Port) : (modPort s p f).paceDown = s.paceDown := rfl
@[simp] theorem modPort_paceUp (s : State) (p : Nat) (f : Port → Port) : (modPort s p f).paceUp = s.paceUp := rfl
@[simp] theorem modPort_paceAt (s : State) (p : Nat) (f : Port → Port) : (modPort s p f).paceAt = s.paceAt := rfl
@[simp] theorem modPort_paceComm (s : State) (p : Nat) (f : Port → Port) : (modPort s p f).paceComm = s.paceComm := rfl
@[simp] theorem modPort_lastStep (s : State) (p : Nat) (f : Port → Port) : (modPort s p f).lastStep = s.lastStep := rfl
@[simp] theorem modPort_nonce (s : State) (p : Nat) (f : Port → Port) : (modPort s p f).nonce = s.nonce := rfl
@[simp] theorem modPort_hostSeen (s : State) (p : Nat) (f : Port → Port) : (modPort s p f).hostSeen = s.hostSeen := rfl
@[simp] theorem modPort_torn (s : State) (p : Nat) (f : Port → Port) : (modPort s p f).torn = s.torn := rfl
@[simp] theorem modPort_moves (s : State) (p : Nat) (f : Port → Port) : (modPort s p f).moves = s.moves := rfl
@[simp] theorem modPort_hostSeq (s : State) (p : Nat) (f : Port → Port) : (modPort s p f).hostSeq = s.hostSeq := rfl
@[simp] theorem modPort_hostOut (s : State) (p : Nat) (f : Port → Port) : (modPort s p f).hostOut = s.hostOut := rfl
@[simp] theorem modPort_out (s : State) (p : Nat) (f : Port → Port) : (modPort s p f).out = s.out := rfl
@[simp] theorem modPort_age (s : State) (p : Nat) (f : Port → Port) : (modPort s p f).age = s.age := rfl
@[simp] theorem modPort_nextId (s : State) (p : Nat) (f : Port → Port) : (modPort s p f).nextId = s.nextId := rfl

/-! ## modCxe -/

@[simp] theorem modCxe_power (s : State) (d : Nat) (f : Cxe → Cxe) : (modCxe s d f).power = s.power := rfl
@[simp] theorem modCxe_now (s : State) (d : Nat) (f : Cxe → Cxe) : (modCxe s d f).now = s.now := rfl
@[simp] theorem modCxe_tick (s : State) (d : Nat) (f : Cxe → Cxe) : (modCxe s d f).tick = s.tick := rfl
@[simp] theorem modCxe_tick0 (s : State) (d : Nat) (f : Cxe → Cxe) : (modCxe s d f).tick0 = s.tick0 := rfl
@[simp] theorem modCxe_free (s : State) (d : Nat) (f : Cxe → Cxe) : (modCxe s d f).free = s.free := rfl
@[simp] theorem modCxe_progress (s : State) (d : Nat) (f : Cxe → Cxe) : (modCxe s d f).progress = s.progress := rfl
@[simp] theorem modCxe_inputs (s : State) (d : Nat) (f : Cxe → Cxe) : (modCxe s d f).inputs = s.inputs := rfl
@[simp] theorem modCxe_cur (s : State) (d : Nat) (f : Cxe → Cxe) : (modCxe s d f).cur = s.cur := rfl
@[simp] theorem modCxe_script (s : State) (d : Nat) (f : Cxe → Cxe) : (modCxe s d f).script = s.script := rfl
@[simp] theorem modCxe_mem (s : State) (d : Nat) (f : Cxe → Cxe) : (modCxe s d f).mem = s.mem := rfl
@[simp] theorem modCxe_span (s : State) (d : Nat) (f : Cxe → Cxe) : (modCxe s d f).span = s.span := rfl
@[simp] theorem modCxe_spad (s : State) (d : Nat) (f : Cxe → Cxe) : (modCxe s d f).spad = s.spad := rfl
@[simp] theorem modCxe_poisonSp (s : State) (d : Nat) (f : Cxe → Cxe) : (modCxe s d f).poisonSp = s.poisonSp := rfl
@[simp] theorem modCxe_poisonL2 (s : State) (d : Nat) (f : Cxe → Cxe) : (modCxe s d f).poisonL2 = s.poisonL2 := rfl
@[simp] theorem modCxe_poisonFar (s : State) (d : Nat) (f : Cxe → Cxe) : (modCxe s d f).poisonFar = s.poisonFar := rfl
@[simp] theorem modCxe_place (s : State) (d : Nat) (f : Cxe → Cxe) : (modCxe s d f).place = s.place := rfl
@[simp] theorem modCxe_gangs (s : State) (d : Nat) (f : Cxe → Cxe) : (modCxe s d f).gangs = s.gangs := rfl
@[simp] theorem modCxe_teams (s : State) (d : Nat) (f : Cxe → Cxe) : (modCxe s d f).teams = s.teams := rfl
@[simp] theorem modCxe_cores (s : State) (d : Nat) (f : Cxe → Cxe) : (modCxe s d f).cores = s.cores := rfl
@[simp] theorem modCxe_dies (s : State) (d : Nat) (f : Cxe → Cxe) : (modCxe s d f).dies = s.dies := rfl
@[simp] theorem modCxe_islands (s : State) (d : Nat) (f : Cxe → Cxe) : (modCxe s d f).islands = s.islands := rfl
@[simp] theorem modCxe_matrix (s : State) (d : Nat) (f : Cxe → Cxe) : (modCxe s d f).matrix = s.matrix := rfl
@[simp] theorem modCxe_queues (s : State) (d : Nat) (f : Cxe → Cxe) : (modCxe s d f).queues = s.queues := rfl
@[simp] theorem modCxe_lastQ (s : State) (d : Nat) (f : Cxe → Cxe) : (modCxe s d f).lastQ = s.lastQ := rfl
@[simp] theorem modCxe_recQ (s : State) (d : Nat) (f : Cxe → Cxe) : (modCxe s d f).recQ = s.recQ := rfl
@[simp] theorem modCxe_pushed (s : State) (d : Nat) (f : Cxe → Cxe) : (modCxe s d f).pushed = s.pushed := rfl
@[simp] theorem modCxe_launches (s : State) (d : Nat) (f : Cxe → Cxe) : (modCxe s d f).launches = s.launches := rfl
@[simp] theorem modCxe_nextLaunch (s : State) (d : Nat) (f : Cxe → Cxe) : (modCxe s d f).nextLaunch = s.nextLaunch := rfl
@[simp] theorem modCxe_teamCnt (s : State) (d : Nat) (f : Cxe → Cxe) : (modCxe s d f).teamCnt = s.teamCnt := rfl
@[simp] theorem modCxe_waiting (s : State) (d : Nat) (f : Cxe → Cxe) : (modCxe s d f).waiting = s.waiting := rfl
@[simp] theorem modCxe_scripts (s : State) (d : Nat) (f : Cxe → Cxe) : (modCxe s d f).scripts = s.scripts := rfl
@[simp] theorem modCxe_ports (s : State) (d : Nat) (f : Cxe → Cxe) : (modCxe s d f).ports = s.ports := rfl
@[simp] theorem modCxe_binds (s : State) (d : Nat) (f : Cxe → Cxe) : (modCxe s d f).binds = s.binds := rfl
@[simp] theorem modCxe_fsqSerial (s : State) (d : Nat) (f : Cxe → Cxe) : (modCxe s d f).fsqSerial = s.fsqSerial := rfl
@[simp] theorem modCxe_reqno (s : State) (d : Nat) (f : Cxe → Cxe) : (modCxe s d f).reqno = s.reqno := rfl
@[simp] theorem modCxe_fsqSeen (s : State) (d : Nat) (f : Cxe → Cxe) : (modCxe s d f).fsqSeen = s.fsqSeen := rfl
@[simp] theorem modCxe_fsqOut (s : State) (d : Nat) (f : Cxe → Cxe) : (modCxe s d f).fsqOut = s.fsqOut := rfl
@[simp] theorem modCxe_sendRes (s : State) (d : Nat) (f : Cxe → Cxe) : (modCxe s d f).sendRes = s.sendRes := rfl
@[simp] theorem modCxe_sxes (s : State) (d : Nat) (f : Cxe → Cxe) : (modCxe s d f).sxes = s.sxes := rfl
@[simp] theorem modCxe_orphans (s : State) (d : Nat) (f : Cxe → Cxe) : (modCxe s d f).orphans = s.orphans := rfl
@[simp] theorem modCxe_finals (s : State) (d : Nat) (f : Cxe → Cxe) : (modCxe s d f).finals = s.finals := rfl
@[simp] theorem modCxe_incarnation (s : State) (d : Nat) (f : Cxe → Cxe) : (modCxe s d f).incarnation = s.incarnation := rfl
@[simp] theorem modCxe_warmBase (s : State) (d : Nat) (f : Cxe → Cxe) : (modCxe s d f).warmBase = s.warmBase := rfl
@[simp] theorem modCxe_incTable (s : State) (d : Nat) (f : Cxe → Cxe) : (modCxe s d f).incTable = s.incTable := rfl
@[simp] theorem modCxe_faultsOut (s : State) (d : Nat) (f : Cxe → Cxe) : (modCxe s d f).faultsOut = s.faultsOut := rfl
@[simp] theorem modCxe_pfWaiters (s : State) (d : Nat) (f : Cxe → Cxe) : (modCxe s d f).pfWaiters = s.pfWaiters := rfl
@[simp] theorem modCxe_nextPf (s : State) (d : Nat) (f : Cxe → Cxe) : (modCxe s d f).nextPf = s.nextPf := rfl
@[simp] theorem modCxe_pfNo (s : State) (d : Nat) (f : Cxe → Cxe) : (modCxe s d f).pfNo = s.pfNo := rfl
@[simp] theorem modCxe_farOps (s : State) (d : Nat) (f : Cxe → Cxe) : (modCxe s d f).farOps = s.farOps := rfl
@[simp] theorem modCxe_farTl (s : State) (d : Nat) (f : Cxe → Cxe) : (modCxe s d f).farTl = s.farTl := rfl
@[simp] theorem modCxe_privTaken (s : State) (d : Nat) (f : Cxe → Cxe) : (modCxe s d f).privTaken = s.privTaken := rfl
@[simp] theorem modCxe_invalid (s : State) (d : Nat) (f : Cxe → Cxe) : (modCxe s d f).invalid = s.invalid := rfl
@[simp] theorem modCxe_stops (s : State) (d : Nat) (f : Cxe → Cxe) : (modCxe s d f).stops = s.stops := rfl
@[simp] theorem modCxe_mgmt (s : State) (d : Nat) (f : Cxe → Cxe) : (modCxe s d f).mgmt = s.mgmt := rfl
@[simp] theorem modCxe_bufs (s : State) (d : Nat) (f : Cxe → Cxe) : (modCxe s d f).bufs = s.bufs := rfl
@[simp] theorem modCxe_cave (s : State) (d : Nat) (f : Cxe → Cxe) : (modCxe s d f).cave = s.cave := rfl
@[simp] theorem modCxe_pacing (s : State) (d : Nat) (f : Cxe → Cxe) : (modCxe s d f).pacing = s.pacing := rfl
@[simp] theorem modCxe_paceDown (s : State) (d : Nat) (f : Cxe → Cxe) : (modCxe s d f).paceDown = s.paceDown := rfl
@[simp] theorem modCxe_paceUp (s : State) (d : Nat) (f : Cxe → Cxe) : (modCxe s d f).paceUp = s.paceUp := rfl
@[simp] theorem modCxe_paceAt (s : State) (d : Nat) (f : Cxe → Cxe) : (modCxe s d f).paceAt = s.paceAt := rfl
@[simp] theorem modCxe_paceComm (s : State) (d : Nat) (f : Cxe → Cxe) : (modCxe s d f).paceComm = s.paceComm := rfl
@[simp] theorem modCxe_lastStep (s : State) (d : Nat) (f : Cxe → Cxe) : (modCxe s d f).lastStep = s.lastStep := rfl
@[simp] theorem modCxe_nonce (s : State) (d : Nat) (f : Cxe → Cxe) : (modCxe s d f).nonce = s.nonce := rfl
@[simp] theorem modCxe_hostSeen (s : State) (d : Nat) (f : Cxe → Cxe) : (modCxe s d f).hostSeen = s.hostSeen := rfl
@[simp] theorem modCxe_torn (s : State) (d : Nat) (f : Cxe → Cxe) : (modCxe s d f).torn = s.torn := rfl
@[simp] theorem modCxe_moves (s : State) (d : Nat) (f : Cxe → Cxe) : (modCxe s d f).moves = s.moves := rfl
@[simp] theorem modCxe_hostSeq (s : State) (d : Nat) (f : Cxe → Cxe) : (modCxe s d f).hostSeq = s.hostSeq := rfl
@[simp] theorem modCxe_hostOut (s : State) (d : Nat) (f : Cxe → Cxe) : (modCxe s d f).hostOut = s.hostOut := rfl
@[simp] theorem modCxe_out (s : State) (d : Nat) (f : Cxe → Cxe) : (modCxe s d f).out = s.out := rfl
@[simp] theorem modCxe_age (s : State) (d : Nat) (f : Cxe → Cxe) : (modCxe s d f).age = s.age := rfl
@[simp] theorem modCxe_nextId (s : State) (d : Nat) (f : Cxe → Cxe) : (modCxe s d f).nextId = s.nextId := rfl

/-! ## modSxe -/

@[simp] theorem modSxe_power (s : State) (d : Nat) (f : Sxe → Sxe) : (modSxe s d f).power = s.power := rfl
@[simp] theorem modSxe_now (s : State) (d : Nat) (f : Sxe → Sxe) : (modSxe s d f).now = s.now := rfl
@[simp] theorem modSxe_tick (s : State) (d : Nat) (f : Sxe → Sxe) : (modSxe s d f).tick = s.tick := rfl
@[simp] theorem modSxe_tick0 (s : State) (d : Nat) (f : Sxe → Sxe) : (modSxe s d f).tick0 = s.tick0 := rfl
@[simp] theorem modSxe_free (s : State) (d : Nat) (f : Sxe → Sxe) : (modSxe s d f).free = s.free := rfl
@[simp] theorem modSxe_progress (s : State) (d : Nat) (f : Sxe → Sxe) : (modSxe s d f).progress = s.progress := rfl
@[simp] theorem modSxe_inputs (s : State) (d : Nat) (f : Sxe → Sxe) : (modSxe s d f).inputs = s.inputs := rfl
@[simp] theorem modSxe_cur (s : State) (d : Nat) (f : Sxe → Sxe) : (modSxe s d f).cur = s.cur := rfl
@[simp] theorem modSxe_script (s : State) (d : Nat) (f : Sxe → Sxe) : (modSxe s d f).script = s.script := rfl
@[simp] theorem modSxe_mem (s : State) (d : Nat) (f : Sxe → Sxe) : (modSxe s d f).mem = s.mem := rfl
@[simp] theorem modSxe_span (s : State) (d : Nat) (f : Sxe → Sxe) : (modSxe s d f).span = s.span := rfl
@[simp] theorem modSxe_spad (s : State) (d : Nat) (f : Sxe → Sxe) : (modSxe s d f).spad = s.spad := rfl
@[simp] theorem modSxe_poisonSp (s : State) (d : Nat) (f : Sxe → Sxe) : (modSxe s d f).poisonSp = s.poisonSp := rfl
@[simp] theorem modSxe_poisonL2 (s : State) (d : Nat) (f : Sxe → Sxe) : (modSxe s d f).poisonL2 = s.poisonL2 := rfl
@[simp] theorem modSxe_poisonFar (s : State) (d : Nat) (f : Sxe → Sxe) : (modSxe s d f).poisonFar = s.poisonFar := rfl
@[simp] theorem modSxe_place (s : State) (d : Nat) (f : Sxe → Sxe) : (modSxe s d f).place = s.place := rfl
@[simp] theorem modSxe_gangs (s : State) (d : Nat) (f : Sxe → Sxe) : (modSxe s d f).gangs = s.gangs := rfl
@[simp] theorem modSxe_teams (s : State) (d : Nat) (f : Sxe → Sxe) : (modSxe s d f).teams = s.teams := rfl
@[simp] theorem modSxe_cores (s : State) (d : Nat) (f : Sxe → Sxe) : (modSxe s d f).cores = s.cores := rfl
@[simp] theorem modSxe_dies (s : State) (d : Nat) (f : Sxe → Sxe) : (modSxe s d f).dies = s.dies := rfl
@[simp] theorem modSxe_islands (s : State) (d : Nat) (f : Sxe → Sxe) : (modSxe s d f).islands = s.islands := rfl
@[simp] theorem modSxe_matrix (s : State) (d : Nat) (f : Sxe → Sxe) : (modSxe s d f).matrix = s.matrix := rfl
@[simp] theorem modSxe_queues (s : State) (d : Nat) (f : Sxe → Sxe) : (modSxe s d f).queues = s.queues := rfl
@[simp] theorem modSxe_lastQ (s : State) (d : Nat) (f : Sxe → Sxe) : (modSxe s d f).lastQ = s.lastQ := rfl
@[simp] theorem modSxe_recQ (s : State) (d : Nat) (f : Sxe → Sxe) : (modSxe s d f).recQ = s.recQ := rfl
@[simp] theorem modSxe_pushed (s : State) (d : Nat) (f : Sxe → Sxe) : (modSxe s d f).pushed = s.pushed := rfl
@[simp] theorem modSxe_launches (s : State) (d : Nat) (f : Sxe → Sxe) : (modSxe s d f).launches = s.launches := rfl
@[simp] theorem modSxe_nextLaunch (s : State) (d : Nat) (f : Sxe → Sxe) : (modSxe s d f).nextLaunch = s.nextLaunch := rfl
@[simp] theorem modSxe_teamCnt (s : State) (d : Nat) (f : Sxe → Sxe) : (modSxe s d f).teamCnt = s.teamCnt := rfl
@[simp] theorem modSxe_waiting (s : State) (d : Nat) (f : Sxe → Sxe) : (modSxe s d f).waiting = s.waiting := rfl
@[simp] theorem modSxe_scripts (s : State) (d : Nat) (f : Sxe → Sxe) : (modSxe s d f).scripts = s.scripts := rfl
@[simp] theorem modSxe_ports (s : State) (d : Nat) (f : Sxe → Sxe) : (modSxe s d f).ports = s.ports := rfl
@[simp] theorem modSxe_binds (s : State) (d : Nat) (f : Sxe → Sxe) : (modSxe s d f).binds = s.binds := rfl
@[simp] theorem modSxe_fsqSerial (s : State) (d : Nat) (f : Sxe → Sxe) : (modSxe s d f).fsqSerial = s.fsqSerial := rfl
@[simp] theorem modSxe_reqno (s : State) (d : Nat) (f : Sxe → Sxe) : (modSxe s d f).reqno = s.reqno := rfl
@[simp] theorem modSxe_fsqSeen (s : State) (d : Nat) (f : Sxe → Sxe) : (modSxe s d f).fsqSeen = s.fsqSeen := rfl
@[simp] theorem modSxe_fsqOut (s : State) (d : Nat) (f : Sxe → Sxe) : (modSxe s d f).fsqOut = s.fsqOut := rfl
@[simp] theorem modSxe_cxes (s : State) (d : Nat) (f : Sxe → Sxe) : (modSxe s d f).cxes = s.cxes := rfl
@[simp] theorem modSxe_sendRes (s : State) (d : Nat) (f : Sxe → Sxe) : (modSxe s d f).sendRes = s.sendRes := rfl
@[simp] theorem modSxe_orphans (s : State) (d : Nat) (f : Sxe → Sxe) : (modSxe s d f).orphans = s.orphans := rfl
@[simp] theorem modSxe_finals (s : State) (d : Nat) (f : Sxe → Sxe) : (modSxe s d f).finals = s.finals := rfl
@[simp] theorem modSxe_incarnation (s : State) (d : Nat) (f : Sxe → Sxe) : (modSxe s d f).incarnation = s.incarnation := rfl
@[simp] theorem modSxe_warmBase (s : State) (d : Nat) (f : Sxe → Sxe) : (modSxe s d f).warmBase = s.warmBase := rfl
@[simp] theorem modSxe_incTable (s : State) (d : Nat) (f : Sxe → Sxe) : (modSxe s d f).incTable = s.incTable := rfl
@[simp] theorem modSxe_faultsOut (s : State) (d : Nat) (f : Sxe → Sxe) : (modSxe s d f).faultsOut = s.faultsOut := rfl
@[simp] theorem modSxe_pfWaiters (s : State) (d : Nat) (f : Sxe → Sxe) : (modSxe s d f).pfWaiters = s.pfWaiters := rfl
@[simp] theorem modSxe_nextPf (s : State) (d : Nat) (f : Sxe → Sxe) : (modSxe s d f).nextPf = s.nextPf := rfl
@[simp] theorem modSxe_pfNo (s : State) (d : Nat) (f : Sxe → Sxe) : (modSxe s d f).pfNo = s.pfNo := rfl
@[simp] theorem modSxe_farOps (s : State) (d : Nat) (f : Sxe → Sxe) : (modSxe s d f).farOps = s.farOps := rfl
@[simp] theorem modSxe_farTl (s : State) (d : Nat) (f : Sxe → Sxe) : (modSxe s d f).farTl = s.farTl := rfl
@[simp] theorem modSxe_privTaken (s : State) (d : Nat) (f : Sxe → Sxe) : (modSxe s d f).privTaken = s.privTaken := rfl
@[simp] theorem modSxe_invalid (s : State) (d : Nat) (f : Sxe → Sxe) : (modSxe s d f).invalid = s.invalid := rfl
@[simp] theorem modSxe_stops (s : State) (d : Nat) (f : Sxe → Sxe) : (modSxe s d f).stops = s.stops := rfl
@[simp] theorem modSxe_mgmt (s : State) (d : Nat) (f : Sxe → Sxe) : (modSxe s d f).mgmt = s.mgmt := rfl
@[simp] theorem modSxe_bufs (s : State) (d : Nat) (f : Sxe → Sxe) : (modSxe s d f).bufs = s.bufs := rfl
@[simp] theorem modSxe_cave (s : State) (d : Nat) (f : Sxe → Sxe) : (modSxe s d f).cave = s.cave := rfl
@[simp] theorem modSxe_pacing (s : State) (d : Nat) (f : Sxe → Sxe) : (modSxe s d f).pacing = s.pacing := rfl
@[simp] theorem modSxe_paceDown (s : State) (d : Nat) (f : Sxe → Sxe) : (modSxe s d f).paceDown = s.paceDown := rfl
@[simp] theorem modSxe_paceUp (s : State) (d : Nat) (f : Sxe → Sxe) : (modSxe s d f).paceUp = s.paceUp := rfl
@[simp] theorem modSxe_paceAt (s : State) (d : Nat) (f : Sxe → Sxe) : (modSxe s d f).paceAt = s.paceAt := rfl
@[simp] theorem modSxe_paceComm (s : State) (d : Nat) (f : Sxe → Sxe) : (modSxe s d f).paceComm = s.paceComm := rfl
@[simp] theorem modSxe_lastStep (s : State) (d : Nat) (f : Sxe → Sxe) : (modSxe s d f).lastStep = s.lastStep := rfl
@[simp] theorem modSxe_nonce (s : State) (d : Nat) (f : Sxe → Sxe) : (modSxe s d f).nonce = s.nonce := rfl
@[simp] theorem modSxe_hostSeen (s : State) (d : Nat) (f : Sxe → Sxe) : (modSxe s d f).hostSeen = s.hostSeen := rfl
@[simp] theorem modSxe_torn (s : State) (d : Nat) (f : Sxe → Sxe) : (modSxe s d f).torn = s.torn := rfl
@[simp] theorem modSxe_moves (s : State) (d : Nat) (f : Sxe → Sxe) : (modSxe s d f).moves = s.moves := rfl
@[simp] theorem modSxe_hostSeq (s : State) (d : Nat) (f : Sxe → Sxe) : (modSxe s d f).hostSeq = s.hostSeq := rfl
@[simp] theorem modSxe_hostOut (s : State) (d : Nat) (f : Sxe → Sxe) : (modSxe s d f).hostOut = s.hostOut := rfl
@[simp] theorem modSxe_out (s : State) (d : Nat) (f : Sxe → Sxe) : (modSxe s d f).out = s.out := rfl
@[simp] theorem modSxe_age (s : State) (d : Nat) (f : Sxe → Sxe) : (modSxe s d f).age = s.age := rfl
@[simp] theorem modSxe_nextId (s : State) (d : Nat) (f : Sxe → Sxe) : (modSxe s d f).nextId = s.nextId := rfl

/-! ## modMat -/

@[simp] theorem modMat_power (s : State) (p : Nat) (f : MatQueue → MatQueue) : (modMat s p f).power = s.power := rfl
@[simp] theorem modMat_now (s : State) (p : Nat) (f : MatQueue → MatQueue) : (modMat s p f).now = s.now := rfl
@[simp] theorem modMat_tick (s : State) (p : Nat) (f : MatQueue → MatQueue) : (modMat s p f).tick = s.tick := rfl
@[simp] theorem modMat_tick0 (s : State) (p : Nat) (f : MatQueue → MatQueue) : (modMat s p f).tick0 = s.tick0 := rfl
@[simp] theorem modMat_free (s : State) (p : Nat) (f : MatQueue → MatQueue) : (modMat s p f).free = s.free := rfl
@[simp] theorem modMat_progress (s : State) (p : Nat) (f : MatQueue → MatQueue) : (modMat s p f).progress = s.progress := rfl
@[simp] theorem modMat_inputs (s : State) (p : Nat) (f : MatQueue → MatQueue) : (modMat s p f).inputs = s.inputs := rfl
@[simp] theorem modMat_cur (s : State) (p : Nat) (f : MatQueue → MatQueue) : (modMat s p f).cur = s.cur := rfl
@[simp] theorem modMat_script (s : State) (p : Nat) (f : MatQueue → MatQueue) : (modMat s p f).script = s.script := rfl
@[simp] theorem modMat_mem (s : State) (p : Nat) (f : MatQueue → MatQueue) : (modMat s p f).mem = s.mem := rfl
@[simp] theorem modMat_span (s : State) (p : Nat) (f : MatQueue → MatQueue) : (modMat s p f).span = s.span := rfl
@[simp] theorem modMat_spad (s : State) (p : Nat) (f : MatQueue → MatQueue) : (modMat s p f).spad = s.spad := rfl
@[simp] theorem modMat_poisonSp (s : State) (p : Nat) (f : MatQueue → MatQueue) : (modMat s p f).poisonSp = s.poisonSp := rfl
@[simp] theorem modMat_poisonL2 (s : State) (p : Nat) (f : MatQueue → MatQueue) : (modMat s p f).poisonL2 = s.poisonL2 := rfl
@[simp] theorem modMat_poisonFar (s : State) (p : Nat) (f : MatQueue → MatQueue) : (modMat s p f).poisonFar = s.poisonFar := rfl
@[simp] theorem modMat_place (s : State) (p : Nat) (f : MatQueue → MatQueue) : (modMat s p f).place = s.place := rfl
@[simp] theorem modMat_gangs (s : State) (p : Nat) (f : MatQueue → MatQueue) : (modMat s p f).gangs = s.gangs := rfl
@[simp] theorem modMat_teams (s : State) (p : Nat) (f : MatQueue → MatQueue) : (modMat s p f).teams = s.teams := rfl
@[simp] theorem modMat_cores (s : State) (p : Nat) (f : MatQueue → MatQueue) : (modMat s p f).cores = s.cores := rfl
@[simp] theorem modMat_dies (s : State) (p : Nat) (f : MatQueue → MatQueue) : (modMat s p f).dies = s.dies := rfl
@[simp] theorem modMat_islands (s : State) (p : Nat) (f : MatQueue → MatQueue) : (modMat s p f).islands = s.islands := rfl
@[simp] theorem modMat_queues (s : State) (p : Nat) (f : MatQueue → MatQueue) : (modMat s p f).queues = s.queues := rfl
@[simp] theorem modMat_lastQ (s : State) (p : Nat) (f : MatQueue → MatQueue) : (modMat s p f).lastQ = s.lastQ := rfl
@[simp] theorem modMat_recQ (s : State) (p : Nat) (f : MatQueue → MatQueue) : (modMat s p f).recQ = s.recQ := rfl
@[simp] theorem modMat_pushed (s : State) (p : Nat) (f : MatQueue → MatQueue) : (modMat s p f).pushed = s.pushed := rfl
@[simp] theorem modMat_launches (s : State) (p : Nat) (f : MatQueue → MatQueue) : (modMat s p f).launches = s.launches := rfl
@[simp] theorem modMat_nextLaunch (s : State) (p : Nat) (f : MatQueue → MatQueue) : (modMat s p f).nextLaunch = s.nextLaunch := rfl
@[simp] theorem modMat_teamCnt (s : State) (p : Nat) (f : MatQueue → MatQueue) : (modMat s p f).teamCnt = s.teamCnt := rfl
@[simp] theorem modMat_waiting (s : State) (p : Nat) (f : MatQueue → MatQueue) : (modMat s p f).waiting = s.waiting := rfl
@[simp] theorem modMat_scripts (s : State) (p : Nat) (f : MatQueue → MatQueue) : (modMat s p f).scripts = s.scripts := rfl
@[simp] theorem modMat_ports (s : State) (p : Nat) (f : MatQueue → MatQueue) : (modMat s p f).ports = s.ports := rfl
@[simp] theorem modMat_binds (s : State) (p : Nat) (f : MatQueue → MatQueue) : (modMat s p f).binds = s.binds := rfl
@[simp] theorem modMat_fsqSerial (s : State) (p : Nat) (f : MatQueue → MatQueue) : (modMat s p f).fsqSerial = s.fsqSerial := rfl
@[simp] theorem modMat_reqno (s : State) (p : Nat) (f : MatQueue → MatQueue) : (modMat s p f).reqno = s.reqno := rfl
@[simp] theorem modMat_fsqSeen (s : State) (p : Nat) (f : MatQueue → MatQueue) : (modMat s p f).fsqSeen = s.fsqSeen := rfl
@[simp] theorem modMat_fsqOut (s : State) (p : Nat) (f : MatQueue → MatQueue) : (modMat s p f).fsqOut = s.fsqOut := rfl
@[simp] theorem modMat_cxes (s : State) (p : Nat) (f : MatQueue → MatQueue) : (modMat s p f).cxes = s.cxes := rfl
@[simp] theorem modMat_sendRes (s : State) (p : Nat) (f : MatQueue → MatQueue) : (modMat s p f).sendRes = s.sendRes := rfl
@[simp] theorem modMat_sxes (s : State) (p : Nat) (f : MatQueue → MatQueue) : (modMat s p f).sxes = s.sxes := rfl
@[simp] theorem modMat_orphans (s : State) (p : Nat) (f : MatQueue → MatQueue) : (modMat s p f).orphans = s.orphans := rfl
@[simp] theorem modMat_finals (s : State) (p : Nat) (f : MatQueue → MatQueue) : (modMat s p f).finals = s.finals := rfl
@[simp] theorem modMat_incarnation (s : State) (p : Nat) (f : MatQueue → MatQueue) : (modMat s p f).incarnation = s.incarnation := rfl
@[simp] theorem modMat_warmBase (s : State) (p : Nat) (f : MatQueue → MatQueue) : (modMat s p f).warmBase = s.warmBase := rfl
@[simp] theorem modMat_incTable (s : State) (p : Nat) (f : MatQueue → MatQueue) : (modMat s p f).incTable = s.incTable := rfl
@[simp] theorem modMat_faultsOut (s : State) (p : Nat) (f : MatQueue → MatQueue) : (modMat s p f).faultsOut = s.faultsOut := rfl
@[simp] theorem modMat_pfWaiters (s : State) (p : Nat) (f : MatQueue → MatQueue) : (modMat s p f).pfWaiters = s.pfWaiters := rfl
@[simp] theorem modMat_nextPf (s : State) (p : Nat) (f : MatQueue → MatQueue) : (modMat s p f).nextPf = s.nextPf := rfl
@[simp] theorem modMat_pfNo (s : State) (p : Nat) (f : MatQueue → MatQueue) : (modMat s p f).pfNo = s.pfNo := rfl
@[simp] theorem modMat_farOps (s : State) (p : Nat) (f : MatQueue → MatQueue) : (modMat s p f).farOps = s.farOps := rfl
@[simp] theorem modMat_farTl (s : State) (p : Nat) (f : MatQueue → MatQueue) : (modMat s p f).farTl = s.farTl := rfl
@[simp] theorem modMat_privTaken (s : State) (p : Nat) (f : MatQueue → MatQueue) : (modMat s p f).privTaken = s.privTaken := rfl
@[simp] theorem modMat_invalid (s : State) (p : Nat) (f : MatQueue → MatQueue) : (modMat s p f).invalid = s.invalid := rfl
@[simp] theorem modMat_stops (s : State) (p : Nat) (f : MatQueue → MatQueue) : (modMat s p f).stops = s.stops := rfl
@[simp] theorem modMat_mgmt (s : State) (p : Nat) (f : MatQueue → MatQueue) : (modMat s p f).mgmt = s.mgmt := rfl
@[simp] theorem modMat_bufs (s : State) (p : Nat) (f : MatQueue → MatQueue) : (modMat s p f).bufs = s.bufs := rfl
@[simp] theorem modMat_cave (s : State) (p : Nat) (f : MatQueue → MatQueue) : (modMat s p f).cave = s.cave := rfl
@[simp] theorem modMat_pacing (s : State) (p : Nat) (f : MatQueue → MatQueue) : (modMat s p f).pacing = s.pacing := rfl
@[simp] theorem modMat_paceDown (s : State) (p : Nat) (f : MatQueue → MatQueue) : (modMat s p f).paceDown = s.paceDown := rfl
@[simp] theorem modMat_paceUp (s : State) (p : Nat) (f : MatQueue → MatQueue) : (modMat s p f).paceUp = s.paceUp := rfl
@[simp] theorem modMat_paceAt (s : State) (p : Nat) (f : MatQueue → MatQueue) : (modMat s p f).paceAt = s.paceAt := rfl
@[simp] theorem modMat_paceComm (s : State) (p : Nat) (f : MatQueue → MatQueue) : (modMat s p f).paceComm = s.paceComm := rfl
@[simp] theorem modMat_lastStep (s : State) (p : Nat) (f : MatQueue → MatQueue) : (modMat s p f).lastStep = s.lastStep := rfl
@[simp] theorem modMat_nonce (s : State) (p : Nat) (f : MatQueue → MatQueue) : (modMat s p f).nonce = s.nonce := rfl
@[simp] theorem modMat_hostSeen (s : State) (p : Nat) (f : MatQueue → MatQueue) : (modMat s p f).hostSeen = s.hostSeen := rfl
@[simp] theorem modMat_torn (s : State) (p : Nat) (f : MatQueue → MatQueue) : (modMat s p f).torn = s.torn := rfl
@[simp] theorem modMat_moves (s : State) (p : Nat) (f : MatQueue → MatQueue) : (modMat s p f).moves = s.moves := rfl
@[simp] theorem modMat_hostSeq (s : State) (p : Nat) (f : MatQueue → MatQueue) : (modMat s p f).hostSeq = s.hostSeq := rfl
@[simp] theorem modMat_hostOut (s : State) (p : Nat) (f : MatQueue → MatQueue) : (modMat s p f).hostOut = s.hostOut := rfl
@[simp] theorem modMat_out (s : State) (p : Nat) (f : MatQueue → MatQueue) : (modMat s p f).out = s.out := rfl
@[simp] theorem modMat_age (s : State) (p : Nat) (f : MatQueue → MatQueue) : (modMat s p f).age = s.age := rfl
@[simp] theorem modMat_nextId (s : State) (p : Nat) (f : MatQueue → MatQueue) : (modMat s p f).nextId = s.nextId := rfl

/-! ## send -/

@[simp] theorem send_power (s : State) (m : Msg) : (send s m).power = s.power := rfl
@[simp] theorem send_now (s : State) (m : Msg) : (send s m).now = s.now := rfl
@[simp] theorem send_tick (s : State) (m : Msg) : (send s m).tick = s.tick := rfl
@[simp] theorem send_tick0 (s : State) (m : Msg) : (send s m).tick0 = s.tick0 := rfl
@[simp] theorem send_free (s : State) (m : Msg) : (send s m).free = s.free := rfl
@[simp] theorem send_progress (s : State) (m : Msg) : (send s m).progress = s.progress := rfl
@[simp] theorem send_inputs (s : State) (m : Msg) : (send s m).inputs = s.inputs := rfl
@[simp] theorem send_cur (s : State) (m : Msg) : (send s m).cur = s.cur := rfl
@[simp] theorem send_script (s : State) (m : Msg) : (send s m).script = s.script := rfl
@[simp] theorem send_mem (s : State) (m : Msg) : (send s m).mem = s.mem := rfl
@[simp] theorem send_span (s : State) (m : Msg) : (send s m).span = s.span := rfl
@[simp] theorem send_spad (s : State) (m : Msg) : (send s m).spad = s.spad := rfl
@[simp] theorem send_poisonSp (s : State) (m : Msg) : (send s m).poisonSp = s.poisonSp := rfl
@[simp] theorem send_poisonL2 (s : State) (m : Msg) : (send s m).poisonL2 = s.poisonL2 := rfl
@[simp] theorem send_poisonFar (s : State) (m : Msg) : (send s m).poisonFar = s.poisonFar := rfl
@[simp] theorem send_place (s : State) (m : Msg) : (send s m).place = s.place := rfl
@[simp] theorem send_gangs (s : State) (m : Msg) : (send s m).gangs = s.gangs := rfl
@[simp] theorem send_teams (s : State) (m : Msg) : (send s m).teams = s.teams := rfl
@[simp] theorem send_cores (s : State) (m : Msg) : (send s m).cores = s.cores := rfl
@[simp] theorem send_dies (s : State) (m : Msg) : (send s m).dies = s.dies := rfl
@[simp] theorem send_islands (s : State) (m : Msg) : (send s m).islands = s.islands := rfl
@[simp] theorem send_matrix (s : State) (m : Msg) : (send s m).matrix = s.matrix := rfl
@[simp] theorem send_queues (s : State) (m : Msg) : (send s m).queues = s.queues := rfl
@[simp] theorem send_lastQ (s : State) (m : Msg) : (send s m).lastQ = s.lastQ := rfl
@[simp] theorem send_recQ (s : State) (m : Msg) : (send s m).recQ = s.recQ := rfl
@[simp] theorem send_pushed (s : State) (m : Msg) : (send s m).pushed = s.pushed := rfl
@[simp] theorem send_launches (s : State) (m : Msg) : (send s m).launches = s.launches := rfl
@[simp] theorem send_nextLaunch (s : State) (m : Msg) : (send s m).nextLaunch = s.nextLaunch := rfl
@[simp] theorem send_teamCnt (s : State) (m : Msg) : (send s m).teamCnt = s.teamCnt := rfl
@[simp] theorem send_waiting (s : State) (m : Msg) : (send s m).waiting = s.waiting := rfl
@[simp] theorem send_scripts (s : State) (m : Msg) : (send s m).scripts = s.scripts := rfl
@[simp] theorem send_ports (s : State) (m : Msg) : (send s m).ports = s.ports := rfl
@[simp] theorem send_binds (s : State) (m : Msg) : (send s m).binds = s.binds := rfl
@[simp] theorem send_fsqSerial (s : State) (m : Msg) : (send s m).fsqSerial = s.fsqSerial := rfl
@[simp] theorem send_reqno (s : State) (m : Msg) : (send s m).reqno = s.reqno := rfl
@[simp] theorem send_fsqSeen (s : State) (m : Msg) : (send s m).fsqSeen = s.fsqSeen := rfl
@[simp] theorem send_fsqOut (s : State) (m : Msg) : (send s m).fsqOut = s.fsqOut := rfl
@[simp] theorem send_cxes (s : State) (m : Msg) : (send s m).cxes = s.cxes := rfl
@[simp] theorem send_sendRes (s : State) (m : Msg) : (send s m).sendRes = s.sendRes := rfl
@[simp] theorem send_sxes (s : State) (m : Msg) : (send s m).sxes = s.sxes := rfl
@[simp] theorem send_orphans (s : State) (m : Msg) : (send s m).orphans = s.orphans := rfl
@[simp] theorem send_finals (s : State) (m : Msg) : (send s m).finals = s.finals := rfl
@[simp] theorem send_incarnation (s : State) (m : Msg) : (send s m).incarnation = s.incarnation := rfl
@[simp] theorem send_warmBase (s : State) (m : Msg) : (send s m).warmBase = s.warmBase := rfl
@[simp] theorem send_incTable (s : State) (m : Msg) : (send s m).incTable = s.incTable := rfl
@[simp] theorem send_faultsOut (s : State) (m : Msg) : (send s m).faultsOut = s.faultsOut := rfl
@[simp] theorem send_pfWaiters (s : State) (m : Msg) : (send s m).pfWaiters = s.pfWaiters := rfl
@[simp] theorem send_nextPf (s : State) (m : Msg) : (send s m).nextPf = s.nextPf := rfl
@[simp] theorem send_pfNo (s : State) (m : Msg) : (send s m).pfNo = s.pfNo := rfl
@[simp] theorem send_farOps (s : State) (m : Msg) : (send s m).farOps = s.farOps := rfl
@[simp] theorem send_farTl (s : State) (m : Msg) : (send s m).farTl = s.farTl := rfl
@[simp] theorem send_privTaken (s : State) (m : Msg) : (send s m).privTaken = s.privTaken := rfl
@[simp] theorem send_invalid (s : State) (m : Msg) : (send s m).invalid = s.invalid := rfl
@[simp] theorem send_stops (s : State) (m : Msg) : (send s m).stops = s.stops := rfl
@[simp] theorem send_mgmt (s : State) (m : Msg) : (send s m).mgmt = s.mgmt := rfl
@[simp] theorem send_bufs (s : State) (m : Msg) : (send s m).bufs = s.bufs := rfl
@[simp] theorem send_cave (s : State) (m : Msg) : (send s m).cave = s.cave := rfl
@[simp] theorem send_pacing (s : State) (m : Msg) : (send s m).pacing = s.pacing := rfl
@[simp] theorem send_paceDown (s : State) (m : Msg) : (send s m).paceDown = s.paceDown := rfl
@[simp] theorem send_paceUp (s : State) (m : Msg) : (send s m).paceUp = s.paceUp := rfl
@[simp] theorem send_paceAt (s : State) (m : Msg) : (send s m).paceAt = s.paceAt := rfl
@[simp] theorem send_paceComm (s : State) (m : Msg) : (send s m).paceComm = s.paceComm := rfl
@[simp] theorem send_lastStep (s : State) (m : Msg) : (send s m).lastStep = s.lastStep := rfl
@[simp] theorem send_nonce (s : State) (m : Msg) : (send s m).nonce = s.nonce := rfl
@[simp] theorem send_hostSeen (s : State) (m : Msg) : (send s m).hostSeen = s.hostSeen := rfl
@[simp] theorem send_torn (s : State) (m : Msg) : (send s m).torn = s.torn := rfl
@[simp] theorem send_moves (s : State) (m : Msg) : (send s m).moves = s.moves := rfl
@[simp] theorem send_hostSeq (s : State) (m : Msg) : (send s m).hostSeq = s.hostSeq := rfl
@[simp] theorem send_hostOut (s : State) (m : Msg) : (send s m).hostOut = s.hostOut := rfl
@[simp] theorem send_age (s : State) (m : Msg) : (send s m).age = s.age := rfl
@[simp] theorem send_nextId (s : State) (m : Msg) : (send s m).nextId = s.nextId := rfl

/-! ## toHost -/

@[simp] theorem toHost_power (s : State) (m : Msg) : (toHost s m).power = s.power := rfl
@[simp] theorem toHost_now (s : State) (m : Msg) : (toHost s m).now = s.now := rfl
@[simp] theorem toHost_tick (s : State) (m : Msg) : (toHost s m).tick = s.tick := rfl
@[simp] theorem toHost_tick0 (s : State) (m : Msg) : (toHost s m).tick0 = s.tick0 := rfl
@[simp] theorem toHost_free (s : State) (m : Msg) : (toHost s m).free = s.free := rfl
@[simp] theorem toHost_progress (s : State) (m : Msg) : (toHost s m).progress = s.progress := rfl
@[simp] theorem toHost_inputs (s : State) (m : Msg) : (toHost s m).inputs = s.inputs := rfl
@[simp] theorem toHost_cur (s : State) (m : Msg) : (toHost s m).cur = s.cur := rfl
@[simp] theorem toHost_script (s : State) (m : Msg) : (toHost s m).script = s.script := rfl
@[simp] theorem toHost_mem (s : State) (m : Msg) : (toHost s m).mem = s.mem := rfl
@[simp] theorem toHost_span (s : State) (m : Msg) : (toHost s m).span = s.span := rfl
@[simp] theorem toHost_spad (s : State) (m : Msg) : (toHost s m).spad = s.spad := rfl
@[simp] theorem toHost_poisonSp (s : State) (m : Msg) : (toHost s m).poisonSp = s.poisonSp := rfl
@[simp] theorem toHost_poisonL2 (s : State) (m : Msg) : (toHost s m).poisonL2 = s.poisonL2 := rfl
@[simp] theorem toHost_poisonFar (s : State) (m : Msg) : (toHost s m).poisonFar = s.poisonFar := rfl
@[simp] theorem toHost_place (s : State) (m : Msg) : (toHost s m).place = s.place := rfl
@[simp] theorem toHost_gangs (s : State) (m : Msg) : (toHost s m).gangs = s.gangs := rfl
@[simp] theorem toHost_teams (s : State) (m : Msg) : (toHost s m).teams = s.teams := rfl
@[simp] theorem toHost_cores (s : State) (m : Msg) : (toHost s m).cores = s.cores := rfl
@[simp] theorem toHost_dies (s : State) (m : Msg) : (toHost s m).dies = s.dies := rfl
@[simp] theorem toHost_islands (s : State) (m : Msg) : (toHost s m).islands = s.islands := rfl
@[simp] theorem toHost_matrix (s : State) (m : Msg) : (toHost s m).matrix = s.matrix := rfl
@[simp] theorem toHost_queues (s : State) (m : Msg) : (toHost s m).queues = s.queues := rfl
@[simp] theorem toHost_lastQ (s : State) (m : Msg) : (toHost s m).lastQ = s.lastQ := rfl
@[simp] theorem toHost_recQ (s : State) (m : Msg) : (toHost s m).recQ = s.recQ := rfl
@[simp] theorem toHost_pushed (s : State) (m : Msg) : (toHost s m).pushed = s.pushed := rfl
@[simp] theorem toHost_launches (s : State) (m : Msg) : (toHost s m).launches = s.launches := rfl
@[simp] theorem toHost_nextLaunch (s : State) (m : Msg) : (toHost s m).nextLaunch = s.nextLaunch := rfl
@[simp] theorem toHost_teamCnt (s : State) (m : Msg) : (toHost s m).teamCnt = s.teamCnt := rfl
@[simp] theorem toHost_waiting (s : State) (m : Msg) : (toHost s m).waiting = s.waiting := rfl
@[simp] theorem toHost_scripts (s : State) (m : Msg) : (toHost s m).scripts = s.scripts := rfl
@[simp] theorem toHost_ports (s : State) (m : Msg) : (toHost s m).ports = s.ports := rfl
@[simp] theorem toHost_binds (s : State) (m : Msg) : (toHost s m).binds = s.binds := rfl
@[simp] theorem toHost_fsqSerial (s : State) (m : Msg) : (toHost s m).fsqSerial = s.fsqSerial := rfl
@[simp] theorem toHost_reqno (s : State) (m : Msg) : (toHost s m).reqno = s.reqno := rfl
@[simp] theorem toHost_fsqSeen (s : State) (m : Msg) : (toHost s m).fsqSeen = s.fsqSeen := rfl
@[simp] theorem toHost_fsqOut (s : State) (m : Msg) : (toHost s m).fsqOut = s.fsqOut := rfl
@[simp] theorem toHost_cxes (s : State) (m : Msg) : (toHost s m).cxes = s.cxes := rfl
@[simp] theorem toHost_sendRes (s : State) (m : Msg) : (toHost s m).sendRes = s.sendRes := rfl
@[simp] theorem toHost_sxes (s : State) (m : Msg) : (toHost s m).sxes = s.sxes := rfl
@[simp] theorem toHost_orphans (s : State) (m : Msg) : (toHost s m).orphans = s.orphans := rfl
@[simp] theorem toHost_finals (s : State) (m : Msg) : (toHost s m).finals = s.finals := rfl
@[simp] theorem toHost_incarnation (s : State) (m : Msg) : (toHost s m).incarnation = s.incarnation := rfl
@[simp] theorem toHost_warmBase (s : State) (m : Msg) : (toHost s m).warmBase = s.warmBase := rfl
@[simp] theorem toHost_incTable (s : State) (m : Msg) : (toHost s m).incTable = s.incTable := rfl
@[simp] theorem toHost_faultsOut (s : State) (m : Msg) : (toHost s m).faultsOut = s.faultsOut := rfl
@[simp] theorem toHost_pfWaiters (s : State) (m : Msg) : (toHost s m).pfWaiters = s.pfWaiters := rfl
@[simp] theorem toHost_nextPf (s : State) (m : Msg) : (toHost s m).nextPf = s.nextPf := rfl
@[simp] theorem toHost_pfNo (s : State) (m : Msg) : (toHost s m).pfNo = s.pfNo := rfl
@[simp] theorem toHost_farOps (s : State) (m : Msg) : (toHost s m).farOps = s.farOps := rfl
@[simp] theorem toHost_farTl (s : State) (m : Msg) : (toHost s m).farTl = s.farTl := rfl
@[simp] theorem toHost_privTaken (s : State) (m : Msg) : (toHost s m).privTaken = s.privTaken := rfl
@[simp] theorem toHost_invalid (s : State) (m : Msg) : (toHost s m).invalid = s.invalid := rfl
@[simp] theorem toHost_stops (s : State) (m : Msg) : (toHost s m).stops = s.stops := rfl
@[simp] theorem toHost_mgmt (s : State) (m : Msg) : (toHost s m).mgmt = s.mgmt := rfl
@[simp] theorem toHost_bufs (s : State) (m : Msg) : (toHost s m).bufs = s.bufs := rfl
@[simp] theorem toHost_cave (s : State) (m : Msg) : (toHost s m).cave = s.cave := rfl
@[simp] theorem toHost_pacing (s : State) (m : Msg) : (toHost s m).pacing = s.pacing := rfl
@[simp] theorem toHost_paceDown (s : State) (m : Msg) : (toHost s m).paceDown = s.paceDown := rfl
@[simp] theorem toHost_paceUp (s : State) (m : Msg) : (toHost s m).paceUp = s.paceUp := rfl
@[simp] theorem toHost_paceAt (s : State) (m : Msg) : (toHost s m).paceAt = s.paceAt := rfl
@[simp] theorem toHost_paceComm (s : State) (m : Msg) : (toHost s m).paceComm = s.paceComm := rfl
@[simp] theorem toHost_lastStep (s : State) (m : Msg) : (toHost s m).lastStep = s.lastStep := rfl
@[simp] theorem toHost_nonce (s : State) (m : Msg) : (toHost s m).nonce = s.nonce := rfl
@[simp] theorem toHost_hostSeen (s : State) (m : Msg) : (toHost s m).hostSeen = s.hostSeen := rfl
@[simp] theorem toHost_torn (s : State) (m : Msg) : (toHost s m).torn = s.torn := rfl
@[simp] theorem toHost_moves (s : State) (m : Msg) : (toHost s m).moves = s.moves := rfl
@[simp] theorem toHost_age (s : State) (m : Msg) : (toHost s m).age = s.age := rfl
@[simp] theorem toHost_nextId (s : State) (m : Msg) : (toHost s m).nextId = s.nextId := rfl

/-! ## mgmtPut -/

@[simp] theorem mgmtPut_power (s : State) (off : Nat) (w : Word) : (mgmtPut s off w).power = s.power := rfl
@[simp] theorem mgmtPut_now (s : State) (off : Nat) (w : Word) : (mgmtPut s off w).now = s.now := rfl
@[simp] theorem mgmtPut_tick (s : State) (off : Nat) (w : Word) : (mgmtPut s off w).tick = s.tick := rfl
@[simp] theorem mgmtPut_tick0 (s : State) (off : Nat) (w : Word) : (mgmtPut s off w).tick0 = s.tick0 := rfl
@[simp] theorem mgmtPut_free (s : State) (off : Nat) (w : Word) : (mgmtPut s off w).free = s.free := rfl
@[simp] theorem mgmtPut_progress (s : State) (off : Nat) (w : Word) : (mgmtPut s off w).progress = s.progress := rfl
@[simp] theorem mgmtPut_inputs (s : State) (off : Nat) (w : Word) : (mgmtPut s off w).inputs = s.inputs := rfl
@[simp] theorem mgmtPut_cur (s : State) (off : Nat) (w : Word) : (mgmtPut s off w).cur = s.cur := rfl
@[simp] theorem mgmtPut_script (s : State) (off : Nat) (w : Word) : (mgmtPut s off w).script = s.script := rfl
@[simp] theorem mgmtPut_mem (s : State) (off : Nat) (w : Word) : (mgmtPut s off w).mem = s.mem := rfl
@[simp] theorem mgmtPut_span (s : State) (off : Nat) (w : Word) : (mgmtPut s off w).span = s.span := rfl
@[simp] theorem mgmtPut_spad (s : State) (off : Nat) (w : Word) : (mgmtPut s off w).spad = s.spad := rfl
@[simp] theorem mgmtPut_poisonSp (s : State) (off : Nat) (w : Word) : (mgmtPut s off w).poisonSp = s.poisonSp := rfl
@[simp] theorem mgmtPut_poisonL2 (s : State) (off : Nat) (w : Word) : (mgmtPut s off w).poisonL2 = s.poisonL2 := rfl
@[simp] theorem mgmtPut_poisonFar (s : State) (off : Nat) (w : Word) : (mgmtPut s off w).poisonFar = s.poisonFar := rfl
@[simp] theorem mgmtPut_place (s : State) (off : Nat) (w : Word) : (mgmtPut s off w).place = s.place := rfl
@[simp] theorem mgmtPut_gangs (s : State) (off : Nat) (w : Word) : (mgmtPut s off w).gangs = s.gangs := rfl
@[simp] theorem mgmtPut_teams (s : State) (off : Nat) (w : Word) : (mgmtPut s off w).teams = s.teams := rfl
@[simp] theorem mgmtPut_cores (s : State) (off : Nat) (w : Word) : (mgmtPut s off w).cores = s.cores := rfl
@[simp] theorem mgmtPut_dies (s : State) (off : Nat) (w : Word) : (mgmtPut s off w).dies = s.dies := rfl
@[simp] theorem mgmtPut_islands (s : State) (off : Nat) (w : Word) : (mgmtPut s off w).islands = s.islands := rfl
@[simp] theorem mgmtPut_matrix (s : State) (off : Nat) (w : Word) : (mgmtPut s off w).matrix = s.matrix := rfl
@[simp] theorem mgmtPut_queues (s : State) (off : Nat) (w : Word) : (mgmtPut s off w).queues = s.queues := rfl
@[simp] theorem mgmtPut_lastQ (s : State) (off : Nat) (w : Word) : (mgmtPut s off w).lastQ = s.lastQ := rfl
@[simp] theorem mgmtPut_recQ (s : State) (off : Nat) (w : Word) : (mgmtPut s off w).recQ = s.recQ := rfl
@[simp] theorem mgmtPut_pushed (s : State) (off : Nat) (w : Word) : (mgmtPut s off w).pushed = s.pushed := rfl
@[simp] theorem mgmtPut_launches (s : State) (off : Nat) (w : Word) : (mgmtPut s off w).launches = s.launches := rfl
@[simp] theorem mgmtPut_nextLaunch (s : State) (off : Nat) (w : Word) : (mgmtPut s off w).nextLaunch = s.nextLaunch := rfl
@[simp] theorem mgmtPut_teamCnt (s : State) (off : Nat) (w : Word) : (mgmtPut s off w).teamCnt = s.teamCnt := rfl
@[simp] theorem mgmtPut_waiting (s : State) (off : Nat) (w : Word) : (mgmtPut s off w).waiting = s.waiting := rfl
@[simp] theorem mgmtPut_scripts (s : State) (off : Nat) (w : Word) : (mgmtPut s off w).scripts = s.scripts := rfl
@[simp] theorem mgmtPut_ports (s : State) (off : Nat) (w : Word) : (mgmtPut s off w).ports = s.ports := rfl
@[simp] theorem mgmtPut_binds (s : State) (off : Nat) (w : Word) : (mgmtPut s off w).binds = s.binds := rfl
@[simp] theorem mgmtPut_fsqSerial (s : State) (off : Nat) (w : Word) : (mgmtPut s off w).fsqSerial = s.fsqSerial := rfl
@[simp] theorem mgmtPut_reqno (s : State) (off : Nat) (w : Word) : (mgmtPut s off w).reqno = s.reqno := rfl
@[simp] theorem mgmtPut_fsqSeen (s : State) (off : Nat) (w : Word) : (mgmtPut s off w).fsqSeen = s.fsqSeen := rfl
@[simp] theorem mgmtPut_fsqOut (s : State) (off : Nat) (w : Word) : (mgmtPut s off w).fsqOut = s.fsqOut := rfl
@[simp] theorem mgmtPut_cxes (s : State) (off : Nat) (w : Word) : (mgmtPut s off w).cxes = s.cxes := rfl
@[simp] theorem mgmtPut_sendRes (s : State) (off : Nat) (w : Word) : (mgmtPut s off w).sendRes = s.sendRes := rfl
@[simp] theorem mgmtPut_sxes (s : State) (off : Nat) (w : Word) : (mgmtPut s off w).sxes = s.sxes := rfl
@[simp] theorem mgmtPut_orphans (s : State) (off : Nat) (w : Word) : (mgmtPut s off w).orphans = s.orphans := rfl
@[simp] theorem mgmtPut_finals (s : State) (off : Nat) (w : Word) : (mgmtPut s off w).finals = s.finals := rfl
@[simp] theorem mgmtPut_incarnation (s : State) (off : Nat) (w : Word) : (mgmtPut s off w).incarnation = s.incarnation := rfl
@[simp] theorem mgmtPut_warmBase (s : State) (off : Nat) (w : Word) : (mgmtPut s off w).warmBase = s.warmBase := rfl
@[simp] theorem mgmtPut_incTable (s : State) (off : Nat) (w : Word) : (mgmtPut s off w).incTable = s.incTable := rfl
@[simp] theorem mgmtPut_faultsOut (s : State) (off : Nat) (w : Word) : (mgmtPut s off w).faultsOut = s.faultsOut := rfl
@[simp] theorem mgmtPut_pfWaiters (s : State) (off : Nat) (w : Word) : (mgmtPut s off w).pfWaiters = s.pfWaiters := rfl
@[simp] theorem mgmtPut_nextPf (s : State) (off : Nat) (w : Word) : (mgmtPut s off w).nextPf = s.nextPf := rfl
@[simp] theorem mgmtPut_pfNo (s : State) (off : Nat) (w : Word) : (mgmtPut s off w).pfNo = s.pfNo := rfl
@[simp] theorem mgmtPut_farOps (s : State) (off : Nat) (w : Word) : (mgmtPut s off w).farOps = s.farOps := rfl
@[simp] theorem mgmtPut_farTl (s : State) (off : Nat) (w : Word) : (mgmtPut s off w).farTl = s.farTl := rfl
@[simp] theorem mgmtPut_privTaken (s : State) (off : Nat) (w : Word) : (mgmtPut s off w).privTaken = s.privTaken := rfl
@[simp] theorem mgmtPut_invalid (s : State) (off : Nat) (w : Word) : (mgmtPut s off w).invalid = s.invalid := rfl
@[simp] theorem mgmtPut_stops (s : State) (off : Nat) (w : Word) : (mgmtPut s off w).stops = s.stops := rfl
@[simp] theorem mgmtPut_bufs (s : State) (off : Nat) (w : Word) : (mgmtPut s off w).bufs = s.bufs := rfl
@[simp] theorem mgmtPut_cave (s : State) (off : Nat) (w : Word) : (mgmtPut s off w).cave = s.cave := rfl
@[simp] theorem mgmtPut_pacing (s : State) (off : Nat) (w : Word) : (mgmtPut s off w).pacing = s.pacing := rfl
@[simp] theorem mgmtPut_paceDown (s : State) (off : Nat) (w : Word) : (mgmtPut s off w).paceDown = s.paceDown := rfl
@[simp] theorem mgmtPut_paceUp (s : State) (off : Nat) (w : Word) : (mgmtPut s off w).paceUp = s.paceUp := rfl
@[simp] theorem mgmtPut_paceAt (s : State) (off : Nat) (w : Word) : (mgmtPut s off w).paceAt = s.paceAt := rfl
@[simp] theorem mgmtPut_paceComm (s : State) (off : Nat) (w : Word) : (mgmtPut s off w).paceComm = s.paceComm := rfl
@[simp] theorem mgmtPut_lastStep (s : State) (off : Nat) (w : Word) : (mgmtPut s off w).lastStep = s.lastStep := rfl
@[simp] theorem mgmtPut_nonce (s : State) (off : Nat) (w : Word) : (mgmtPut s off w).nonce = s.nonce := rfl
@[simp] theorem mgmtPut_hostSeen (s : State) (off : Nat) (w : Word) : (mgmtPut s off w).hostSeen = s.hostSeen := rfl
@[simp] theorem mgmtPut_torn (s : State) (off : Nat) (w : Word) : (mgmtPut s off w).torn = s.torn := rfl
@[simp] theorem mgmtPut_moves (s : State) (off : Nat) (w : Word) : (mgmtPut s off w).moves = s.moves := rfl
@[simp] theorem mgmtPut_hostSeq (s : State) (off : Nat) (w : Word) : (mgmtPut s off w).hostSeq = s.hostSeq := rfl
@[simp] theorem mgmtPut_hostOut (s : State) (off : Nat) (w : Word) : (mgmtPut s off w).hostOut = s.hostOut := rfl
@[simp] theorem mgmtPut_out (s : State) (off : Nat) (w : Word) : (mgmtPut s off w).out = s.out := rfl
@[simp] theorem mgmtPut_age (s : State) (off : Nat) (w : Word) : (mgmtPut s off w).age = s.age := rfl
@[simp] theorem mgmtPut_nextId (s : State) (off : Nat) (w : Word) : (mgmtPut s off w).nextId = s.nextId := rfl

/-! ## mgmtAdd -/

@[simp] theorem mgmtAdd_power (s : State) (off n : Nat) : (mgmtAdd s off n).power = s.power := rfl
@[simp] theorem mgmtAdd_now (s : State) (off n : Nat) : (mgmtAdd s off n).now = s.now := rfl
@[simp] theorem mgmtAdd_tick (s : State) (off n : Nat) : (mgmtAdd s off n).tick = s.tick := rfl
@[simp] theorem mgmtAdd_tick0 (s : State) (off n : Nat) : (mgmtAdd s off n).tick0 = s.tick0 := rfl
@[simp] theorem mgmtAdd_free (s : State) (off n : Nat) : (mgmtAdd s off n).free = s.free := rfl
@[simp] theorem mgmtAdd_progress (s : State) (off n : Nat) : (mgmtAdd s off n).progress = s.progress := rfl
@[simp] theorem mgmtAdd_inputs (s : State) (off n : Nat) : (mgmtAdd s off n).inputs = s.inputs := rfl
@[simp] theorem mgmtAdd_cur (s : State) (off n : Nat) : (mgmtAdd s off n).cur = s.cur := rfl
@[simp] theorem mgmtAdd_script (s : State) (off n : Nat) : (mgmtAdd s off n).script = s.script := rfl
@[simp] theorem mgmtAdd_mem (s : State) (off n : Nat) : (mgmtAdd s off n).mem = s.mem := rfl
@[simp] theorem mgmtAdd_span (s : State) (off n : Nat) : (mgmtAdd s off n).span = s.span := rfl
@[simp] theorem mgmtAdd_spad (s : State) (off n : Nat) : (mgmtAdd s off n).spad = s.spad := rfl
@[simp] theorem mgmtAdd_poisonSp (s : State) (off n : Nat) : (mgmtAdd s off n).poisonSp = s.poisonSp := rfl
@[simp] theorem mgmtAdd_poisonL2 (s : State) (off n : Nat) : (mgmtAdd s off n).poisonL2 = s.poisonL2 := rfl
@[simp] theorem mgmtAdd_poisonFar (s : State) (off n : Nat) : (mgmtAdd s off n).poisonFar = s.poisonFar := rfl
@[simp] theorem mgmtAdd_place (s : State) (off n : Nat) : (mgmtAdd s off n).place = s.place := rfl
@[simp] theorem mgmtAdd_gangs (s : State) (off n : Nat) : (mgmtAdd s off n).gangs = s.gangs := rfl
@[simp] theorem mgmtAdd_teams (s : State) (off n : Nat) : (mgmtAdd s off n).teams = s.teams := rfl
@[simp] theorem mgmtAdd_cores (s : State) (off n : Nat) : (mgmtAdd s off n).cores = s.cores := rfl
@[simp] theorem mgmtAdd_dies (s : State) (off n : Nat) : (mgmtAdd s off n).dies = s.dies := rfl
@[simp] theorem mgmtAdd_islands (s : State) (off n : Nat) : (mgmtAdd s off n).islands = s.islands := rfl
@[simp] theorem mgmtAdd_matrix (s : State) (off n : Nat) : (mgmtAdd s off n).matrix = s.matrix := rfl
@[simp] theorem mgmtAdd_queues (s : State) (off n : Nat) : (mgmtAdd s off n).queues = s.queues := rfl
@[simp] theorem mgmtAdd_lastQ (s : State) (off n : Nat) : (mgmtAdd s off n).lastQ = s.lastQ := rfl
@[simp] theorem mgmtAdd_recQ (s : State) (off n : Nat) : (mgmtAdd s off n).recQ = s.recQ := rfl
@[simp] theorem mgmtAdd_pushed (s : State) (off n : Nat) : (mgmtAdd s off n).pushed = s.pushed := rfl
@[simp] theorem mgmtAdd_launches (s : State) (off n : Nat) : (mgmtAdd s off n).launches = s.launches := rfl
@[simp] theorem mgmtAdd_nextLaunch (s : State) (off n : Nat) : (mgmtAdd s off n).nextLaunch = s.nextLaunch := rfl
@[simp] theorem mgmtAdd_teamCnt (s : State) (off n : Nat) : (mgmtAdd s off n).teamCnt = s.teamCnt := rfl
@[simp] theorem mgmtAdd_waiting (s : State) (off n : Nat) : (mgmtAdd s off n).waiting = s.waiting := rfl
@[simp] theorem mgmtAdd_scripts (s : State) (off n : Nat) : (mgmtAdd s off n).scripts = s.scripts := rfl
@[simp] theorem mgmtAdd_ports (s : State) (off n : Nat) : (mgmtAdd s off n).ports = s.ports := rfl
@[simp] theorem mgmtAdd_binds (s : State) (off n : Nat) : (mgmtAdd s off n).binds = s.binds := rfl
@[simp] theorem mgmtAdd_fsqSerial (s : State) (off n : Nat) : (mgmtAdd s off n).fsqSerial = s.fsqSerial := rfl
@[simp] theorem mgmtAdd_reqno (s : State) (off n : Nat) : (mgmtAdd s off n).reqno = s.reqno := rfl
@[simp] theorem mgmtAdd_fsqSeen (s : State) (off n : Nat) : (mgmtAdd s off n).fsqSeen = s.fsqSeen := rfl
@[simp] theorem mgmtAdd_fsqOut (s : State) (off n : Nat) : (mgmtAdd s off n).fsqOut = s.fsqOut := rfl
@[simp] theorem mgmtAdd_cxes (s : State) (off n : Nat) : (mgmtAdd s off n).cxes = s.cxes := rfl
@[simp] theorem mgmtAdd_sendRes (s : State) (off n : Nat) : (mgmtAdd s off n).sendRes = s.sendRes := rfl
@[simp] theorem mgmtAdd_sxes (s : State) (off n : Nat) : (mgmtAdd s off n).sxes = s.sxes := rfl
@[simp] theorem mgmtAdd_orphans (s : State) (off n : Nat) : (mgmtAdd s off n).orphans = s.orphans := rfl
@[simp] theorem mgmtAdd_finals (s : State) (off n : Nat) : (mgmtAdd s off n).finals = s.finals := rfl
@[simp] theorem mgmtAdd_incarnation (s : State) (off n : Nat) : (mgmtAdd s off n).incarnation = s.incarnation := rfl
@[simp] theorem mgmtAdd_warmBase (s : State) (off n : Nat) : (mgmtAdd s off n).warmBase = s.warmBase := rfl
@[simp] theorem mgmtAdd_incTable (s : State) (off n : Nat) : (mgmtAdd s off n).incTable = s.incTable := rfl
@[simp] theorem mgmtAdd_faultsOut (s : State) (off n : Nat) : (mgmtAdd s off n).faultsOut = s.faultsOut := rfl
@[simp] theorem mgmtAdd_pfWaiters (s : State) (off n : Nat) : (mgmtAdd s off n).pfWaiters = s.pfWaiters := rfl
@[simp] theorem mgmtAdd_nextPf (s : State) (off n : Nat) : (mgmtAdd s off n).nextPf = s.nextPf := rfl
@[simp] theorem mgmtAdd_pfNo (s : State) (off n : Nat) : (mgmtAdd s off n).pfNo = s.pfNo := rfl
@[simp] theorem mgmtAdd_farOps (s : State) (off n : Nat) : (mgmtAdd s off n).farOps = s.farOps := rfl
@[simp] theorem mgmtAdd_farTl (s : State) (off n : Nat) : (mgmtAdd s off n).farTl = s.farTl := rfl
@[simp] theorem mgmtAdd_privTaken (s : State) (off n : Nat) : (mgmtAdd s off n).privTaken = s.privTaken := rfl
@[simp] theorem mgmtAdd_invalid (s : State) (off n : Nat) : (mgmtAdd s off n).invalid = s.invalid := rfl
@[simp] theorem mgmtAdd_stops (s : State) (off n : Nat) : (mgmtAdd s off n).stops = s.stops := rfl
@[simp] theorem mgmtAdd_bufs (s : State) (off n : Nat) : (mgmtAdd s off n).bufs = s.bufs := rfl
@[simp] theorem mgmtAdd_cave (s : State) (off n : Nat) : (mgmtAdd s off n).cave = s.cave := rfl
@[simp] theorem mgmtAdd_pacing (s : State) (off n : Nat) : (mgmtAdd s off n).pacing = s.pacing := rfl
@[simp] theorem mgmtAdd_paceDown (s : State) (off n : Nat) : (mgmtAdd s off n).paceDown = s.paceDown := rfl
@[simp] theorem mgmtAdd_paceUp (s : State) (off n : Nat) : (mgmtAdd s off n).paceUp = s.paceUp := rfl
@[simp] theorem mgmtAdd_paceAt (s : State) (off n : Nat) : (mgmtAdd s off n).paceAt = s.paceAt := rfl
@[simp] theorem mgmtAdd_paceComm (s : State) (off n : Nat) : (mgmtAdd s off n).paceComm = s.paceComm := rfl
@[simp] theorem mgmtAdd_lastStep (s : State) (off n : Nat) : (mgmtAdd s off n).lastStep = s.lastStep := rfl
@[simp] theorem mgmtAdd_nonce (s : State) (off n : Nat) : (mgmtAdd s off n).nonce = s.nonce := rfl
@[simp] theorem mgmtAdd_hostSeen (s : State) (off n : Nat) : (mgmtAdd s off n).hostSeen = s.hostSeen := rfl
@[simp] theorem mgmtAdd_torn (s : State) (off n : Nat) : (mgmtAdd s off n).torn = s.torn := rfl
@[simp] theorem mgmtAdd_moves (s : State) (off n : Nat) : (mgmtAdd s off n).moves = s.moves := rfl
@[simp] theorem mgmtAdd_hostSeq (s : State) (off n : Nat) : (mgmtAdd s off n).hostSeq = s.hostSeq := rfl
@[simp] theorem mgmtAdd_hostOut (s : State) (off n : Nat) : (mgmtAdd s off n).hostOut = s.hostOut := rfl
@[simp] theorem mgmtAdd_out (s : State) (off n : Nat) : (mgmtAdd s off n).out = s.out := rfl
@[simp] theorem mgmtAdd_age (s : State) (off n : Nat) : (mgmtAdd s off n).age = s.age := rfl
@[simp] theorem mgmtAdd_nextId (s : State) (off n : Nat) : (mgmtAdd s off n).nextId = s.nextId := rfl

/-! ## vPut -/

@[simp] theorem vPut_core (G : Gang) (r l : Nat) (w : Word) : (vPut G r l w).core = G.core := rfl
@[simp] theorem vPut_slot (G : Gang) (r l : Nat) (w : Word) : (vPut G r l w).slot = G.slot := rfl
@[simp] theorem vPut_role (G : Gang) (r l : Nat) (w : Word) : (vPut G r l w).role = G.role := rfl
@[simp] theorem vPut_budget (G : Gang) (r l : Nat) (w : Word) : (vPut G r l w).budget = G.budget := rfl
@[simp] theorem vPut_sr (G : Gang) (r l : Nat) (w : Word) : (vPut G r l w).sr = G.sr := rfl
@[simp] theorem vPut_p (G : Gang) (r l : Nat) (w : Word) : (vPut G r l w).p = G.p := rfl
@[simp] theorem vPut_q (G : Gang) (r l : Nat) (w : Word) : (vPut G r l w).q = G.q := rfl
@[simp] theorem vPut_x (G : Gang) (r l : Nat) (w : Word) : (vPut G r l w).x = G.x := rfl
@[simp] theorem vPut_sreg (G : Gang) (r l : Nat) (w : Word) : (vPut G r l w).sreg = G.sreg := rfl
@[simp] theorem vPut_winPos (G : Gang) (r l : Nat) (w : Word) : (vPut G r l w).winPos = G.winPos := rfl
@[simp] theorem vPut_chain (G : Gang) (r l : Nat) (w : Word) : (vPut G r l w).chain = G.chain := rfl
@[simp] theorem vPut_chainEnd (G : Gang) (r l : Nat) (w : Word) : (vPut G r l w).chainEnd = G.chainEnd := rfl
@[simp] theorem vPut_threads (G : Gang) (r l : Nat) (w : Word) : (vPut G r l w).threads = G.threads := rfl
@[simp] theorem vPut_calls (G : Gang) (r l : Nat) (w : Word) : (vPut G r l w).calls = G.calls := rfl
@[simp] theorem vPut_formed (G : Gang) (r l : Nat) (w : Word) : (vPut G r l w).formed = G.formed := rfl
@[simp] theorem vPut_storeQ (G : Gang) (r l : Nat) (w : Word) : (vPut G r l w).storeQ = G.storeQ := rfl
@[simp] theorem vPut_reqs (G : Gang) (r l : Nat) (w : Word) : (vPut G r l w).reqs = G.reqs := rfl
@[simp] theorem vPut_loads (G : Gang) (r l : Nat) (w : Word) : (vPut G r l w).loads = G.loads := rfl
@[simp] theorem vPut_early (G : Gang) (r l : Nat) (w : Word) : (vPut G r l w).early = G.early := rfl
@[simp] theorem vPut_openRds (G : Gang) (r l : Nat) (w : Word) : (vPut G r l w).openRds = G.openRds := rfl
@[simp] theorem vPut_late (G : Gang) (r l : Nat) (w : Word) : (vPut G r l w).late = G.late := rfl
@[simp] theorem vPut_pin (G : Gang) (r l : Nat) (w : Word) : (vPut G r l w).pin = G.pin := rfl
@[simp] theorem vPut_ckSerial (G : Gang) (r l : Nat) (w : Word) : (vPut G r l w).ckSerial = G.ckSerial := rfl
@[simp] theorem vPut_handler (G : Gang) (r l : Nat) (w : Word) : (vPut G r l w).handler = G.handler := rfl
@[simp] theorem vPut_frozen (G : Gang) (r l : Nat) (w : Word) : (vPut G r l w).frozen = G.frozen := rfl
@[simp] theorem vPut_frozenRun (G : Gang) (r l : Nat) (w : Word) : (vPut G r l w).frozenRun = G.frozenRun := rfl
@[simp] theorem vPut_stopped (G : Gang) (r l : Nat) (w : Word) : (vPut G r l w).stopped = G.stopped := rfl
@[simp] theorem vPut_stopTrap (G : Gang) (r l : Nat) (w : Word) : (vPut G r l w).stopTrap = G.stopTrap := rfl
@[simp] theorem vPut_stopPc (G : Gang) (r l : Nat) (w : Word) : (vPut G r l w).stopPc = G.stopPc := rfl
@[simp] theorem vPut_pf (G : Gang) (r l : Nat) (w : Word) : (vPut G r l w).pf = G.pf := rfl
@[simp] theorem vPut_poisonV (G : Gang) (r l : Nat) (w : Word) : (vPut G r l w).poisonV = G.poisonV := rfl
@[simp] theorem vPut_poisonS (G : Gang) (r l : Nat) (w : Word) : (vPut G r l w).poisonS = G.poisonS := rfl
@[simp] theorem vPut_poisonQ (G : Gang) (r l : Nat) (w : Word) : (vPut G r l w).poisonQ = G.poisonQ := rfl
@[simp] theorem vPut_wroteV (G : Gang) (r l : Nat) (w : Word) : (vPut G r l w).wroteV = G.wroteV := rfl
@[simp] theorem vPut_wroteS (G : Gang) (r l : Nat) (w : Word) : (vPut G r l w).wroteS = G.wroteS := rfl
@[simp] theorem vPut_wroteQ (G : Gang) (r l : Nat) (w : Word) : (vPut G r l w).wroteQ = G.wroteQ := rfl
@[simp] theorem vPut_lastRun (G : Gang) (r l : Nat) (w : Word) : (vPut G r l w).lastRun = G.lastRun := rfl
@[simp] theorem vPut_turns (G : Gang) (r l : Nat) (w : Word) : (vPut G r l w).turns = G.turns := rfl
@[simp] theorem vPut_single (G : Gang) (r l : Nat) (w : Word) : (vPut G r l w).single = G.single := rfl
@[simp] theorem vPut_idle (G : Gang) (r l : Nat) (w : Word) : (vPut G r l w).idle = G.idle := rfl
@[simp] theorem vPut_overdue (G : Gang) (r l : Nat) (w : Word) : (vPut G r l w).overdue = G.overdue := rfl
@[simp] theorem vPut_stallAt (G : Gang) (r l : Nat) (w : Word) : (vPut G r l w).stallAt = G.stallAt := rfl
@[simp] theorem vPut_age (G : Gang) (r l : Nat) (w : Word) : (vPut G r l w).age = G.age := rfl
@[simp] theorem vPut_exiting (G : Gang) (r l : Nat) (w : Word) : (vPut G r l w).exiting = G.exiting := rfl
@[simp] theorem vPut_acks (G : Gang) (r l : Nat) (w : Word) : (vPut G r l w).acks = G.acks := rfl
@[simp] theorem vPut_lastPc (G : Gang) (r l : Nat) (w : Word) : (vPut G r l w).lastPc = G.lastPc := rfl
@[simp] theorem vPut_issuedN (G : Gang) (r l : Nat) (w : Word) : (vPut G r l w).issuedN = G.issuedN := rfl

/-! ## sPut -/

@[simp] theorem sPut_core (G : Gang) (r : Nat) (w : Word) : (sPut G r w).core = G.core := rfl
@[simp] theorem sPut_slot (G : Gang) (r : Nat) (w : Word) : (sPut G r w).slot = G.slot := rfl
@[simp] theorem sPut_role (G : Gang) (r : Nat) (w : Word) : (sPut G r w).role = G.role := rfl
@[simp] theorem sPut_budget (G : Gang) (r : Nat) (w : Word) : (sPut G r w).budget = G.budget := rfl
@[simp] theorem sPut_v (G : Gang) (r : Nat) (w : Word) : (sPut G r w).v = G.v := rfl
@[simp] theorem sPut_p (G : Gang) (r : Nat) (w : Word) : (sPut G r w).p = G.p := rfl
@[simp] theorem sPut_q (G : Gang) (r : Nat) (w : Word) : (sPut G r w).q = G.q := rfl
@[simp] theorem sPut_x (G : Gang) (r : Nat) (w : Word) : (sPut G r w).x = G.x := rfl
@[simp] theorem sPut_sreg (G : Gang) (r : Nat) (w : Word) : (sPut G r w).sreg = G.sreg := rfl
@[simp] theorem sPut_winPos (G : Gang) (r : Nat) (w : Word) : (sPut G r w).winPos = G.winPos := rfl
@[simp] theorem sPut_chain (G : Gang) (r : Nat) (w : Word) : (sPut G r w).chain = G.chain := rfl
@[simp] theorem sPut_chainEnd (G : Gang) (r : Nat) (w : Word) : (sPut G r w).chainEnd = G.chainEnd := rfl
@[simp] theorem sPut_threads (G : Gang) (r : Nat) (w : Word) : (sPut G r w).threads = G.threads := rfl
@[simp] theorem sPut_calls (G : Gang) (r : Nat) (w : Word) : (sPut G r w).calls = G.calls := rfl
@[simp] theorem sPut_formed (G : Gang) (r : Nat) (w : Word) : (sPut G r w).formed = G.formed := rfl
@[simp] theorem sPut_storeQ (G : Gang) (r : Nat) (w : Word) : (sPut G r w).storeQ = G.storeQ := rfl
@[simp] theorem sPut_reqs (G : Gang) (r : Nat) (w : Word) : (sPut G r w).reqs = G.reqs := rfl
@[simp] theorem sPut_loads (G : Gang) (r : Nat) (w : Word) : (sPut G r w).loads = G.loads := rfl
@[simp] theorem sPut_early (G : Gang) (r : Nat) (w : Word) : (sPut G r w).early = G.early := rfl
@[simp] theorem sPut_openRds (G : Gang) (r : Nat) (w : Word) : (sPut G r w).openRds = G.openRds := rfl
@[simp] theorem sPut_late (G : Gang) (r : Nat) (w : Word) : (sPut G r w).late = G.late := rfl
@[simp] theorem sPut_pin (G : Gang) (r : Nat) (w : Word) : (sPut G r w).pin = G.pin := rfl
@[simp] theorem sPut_ckSerial (G : Gang) (r : Nat) (w : Word) : (sPut G r w).ckSerial = G.ckSerial := rfl
@[simp] theorem sPut_handler (G : Gang) (r : Nat) (w : Word) : (sPut G r w).handler = G.handler := rfl
@[simp] theorem sPut_frozen (G : Gang) (r : Nat) (w : Word) : (sPut G r w).frozen = G.frozen := rfl
@[simp] theorem sPut_frozenRun (G : Gang) (r : Nat) (w : Word) : (sPut G r w).frozenRun = G.frozenRun := rfl
@[simp] theorem sPut_stopped (G : Gang) (r : Nat) (w : Word) : (sPut G r w).stopped = G.stopped := rfl
@[simp] theorem sPut_stopTrap (G : Gang) (r : Nat) (w : Word) : (sPut G r w).stopTrap = G.stopTrap := rfl
@[simp] theorem sPut_stopPc (G : Gang) (r : Nat) (w : Word) : (sPut G r w).stopPc = G.stopPc := rfl
@[simp] theorem sPut_pf (G : Gang) (r : Nat) (w : Word) : (sPut G r w).pf = G.pf := rfl
@[simp] theorem sPut_poisonV (G : Gang) (r : Nat) (w : Word) : (sPut G r w).poisonV = G.poisonV := rfl
@[simp] theorem sPut_poisonS (G : Gang) (r : Nat) (w : Word) : (sPut G r w).poisonS = G.poisonS := rfl
@[simp] theorem sPut_poisonQ (G : Gang) (r : Nat) (w : Word) : (sPut G r w).poisonQ = G.poisonQ := rfl
@[simp] theorem sPut_wroteV (G : Gang) (r : Nat) (w : Word) : (sPut G r w).wroteV = G.wroteV := rfl
@[simp] theorem sPut_wroteS (G : Gang) (r : Nat) (w : Word) : (sPut G r w).wroteS = G.wroteS := rfl
@[simp] theorem sPut_wroteQ (G : Gang) (r : Nat) (w : Word) : (sPut G r w).wroteQ = G.wroteQ := rfl
@[simp] theorem sPut_lastRun (G : Gang) (r : Nat) (w : Word) : (sPut G r w).lastRun = G.lastRun := rfl
@[simp] theorem sPut_turns (G : Gang) (r : Nat) (w : Word) : (sPut G r w).turns = G.turns := rfl
@[simp] theorem sPut_single (G : Gang) (r : Nat) (w : Word) : (sPut G r w).single = G.single := rfl
@[simp] theorem sPut_idle (G : Gang) (r : Nat) (w : Word) : (sPut G r w).idle = G.idle := rfl
@[simp] theorem sPut_overdue (G : Gang) (r : Nat) (w : Word) : (sPut G r w).overdue = G.overdue := rfl
@[simp] theorem sPut_stallAt (G : Gang) (r : Nat) (w : Word) : (sPut G r w).stallAt = G.stallAt := rfl
@[simp] theorem sPut_age (G : Gang) (r : Nat) (w : Word) : (sPut G r w).age = G.age := rfl
@[simp] theorem sPut_exiting (G : Gang) (r : Nat) (w : Word) : (sPut G r w).exiting = G.exiting := rfl
@[simp] theorem sPut_acks (G : Gang) (r : Nat) (w : Word) : (sPut G r w).acks = G.acks := rfl
@[simp] theorem sPut_lastPc (G : Gang) (r : Nat) (w : Word) : (sPut G r w).lastPc = G.lastPc := rfl
@[simp] theorem sPut_issuedN (G : Gang) (r : Nat) (w : Word) : (sPut G r w).issuedN = G.issuedN := rfl

/-! ## qPut -/

@[simp] theorem qPut_core (G : Gang) (l q e : Nat) (w : W32) : (qPut G l q e w).core = G.core := rfl
@[simp] theorem qPut_slot (G : Gang) (l q e : Nat) (w : W32) : (qPut G l q e w).slot = G.slot := rfl
@[simp] theorem qPut_role (G : Gang) (l q e : Nat) (w : W32) : (qPut G l q e w).role = G.role := rfl
@[simp] theorem qPut_budget (G : Gang) (l q e : Nat) (w : W32) : (qPut G l q e w).budget = G.budget := rfl
@[simp] theorem qPut_v (G : Gang) (l q e : Nat) (w : W32) : (qPut G l q e w).v = G.v := rfl
@[simp] theorem qPut_sr (G : Gang) (l q e : Nat) (w : W32) : (qPut G l q e w).sr = G.sr := rfl
@[simp] theorem qPut_p (G : Gang) (l q e : Nat) (w : W32) : (qPut G l q e w).p = G.p := rfl
@[simp] theorem qPut_x (G : Gang) (l q e : Nat) (w : W32) : (qPut G l q e w).x = G.x := rfl
@[simp] theorem qPut_sreg (G : Gang) (l q e : Nat) (w : W32) : (qPut G l q e w).sreg = G.sreg := rfl
@[simp] theorem qPut_winPos (G : Gang) (l q e : Nat) (w : W32) : (qPut G l q e w).winPos = G.winPos := rfl
@[simp] theorem qPut_chain (G : Gang) (l q e : Nat) (w : W32) : (qPut G l q e w).chain = G.chain := rfl
@[simp] theorem qPut_chainEnd (G : Gang) (l q e : Nat) (w : W32) : (qPut G l q e w).chainEnd = G.chainEnd := rfl
@[simp] theorem qPut_threads (G : Gang) (l q e : Nat) (w : W32) : (qPut G l q e w).threads = G.threads := rfl
@[simp] theorem qPut_calls (G : Gang) (l q e : Nat) (w : W32) : (qPut G l q e w).calls = G.calls := rfl
@[simp] theorem qPut_formed (G : Gang) (l q e : Nat) (w : W32) : (qPut G l q e w).formed = G.formed := rfl
@[simp] theorem qPut_storeQ (G : Gang) (l q e : Nat) (w : W32) : (qPut G l q e w).storeQ = G.storeQ := rfl
@[simp] theorem qPut_reqs (G : Gang) (l q e : Nat) (w : W32) : (qPut G l q e w).reqs = G.reqs := rfl
@[simp] theorem qPut_loads (G : Gang) (l q e : Nat) (w : W32) : (qPut G l q e w).loads = G.loads := rfl
@[simp] theorem qPut_early (G : Gang) (l q e : Nat) (w : W32) : (qPut G l q e w).early = G.early := rfl
@[simp] theorem qPut_openRds (G : Gang) (l q e : Nat) (w : W32) : (qPut G l q e w).openRds = G.openRds := rfl
@[simp] theorem qPut_late (G : Gang) (l q e : Nat) (w : W32) : (qPut G l q e w).late = G.late := rfl
@[simp] theorem qPut_pin (G : Gang) (l q e : Nat) (w : W32) : (qPut G l q e w).pin = G.pin := rfl
@[simp] theorem qPut_ckSerial (G : Gang) (l q e : Nat) (w : W32) : (qPut G l q e w).ckSerial = G.ckSerial := rfl
@[simp] theorem qPut_handler (G : Gang) (l q e : Nat) (w : W32) : (qPut G l q e w).handler = G.handler := rfl
@[simp] theorem qPut_frozen (G : Gang) (l q e : Nat) (w : W32) : (qPut G l q e w).frozen = G.frozen := rfl
@[simp] theorem qPut_frozenRun (G : Gang) (l q e : Nat) (w : W32) : (qPut G l q e w).frozenRun = G.frozenRun := rfl
@[simp] theorem qPut_stopped (G : Gang) (l q e : Nat) (w : W32) : (qPut G l q e w).stopped = G.stopped := rfl
@[simp] theorem qPut_stopTrap (G : Gang) (l q e : Nat) (w : W32) : (qPut G l q e w).stopTrap = G.stopTrap := rfl
@[simp] theorem qPut_stopPc (G : Gang) (l q e : Nat) (w : W32) : (qPut G l q e w).stopPc = G.stopPc := rfl
@[simp] theorem qPut_pf (G : Gang) (l q e : Nat) (w : W32) : (qPut G l q e w).pf = G.pf := rfl
@[simp] theorem qPut_poisonV (G : Gang) (l q e : Nat) (w : W32) : (qPut G l q e w).poisonV = G.poisonV := rfl
@[simp] theorem qPut_poisonS (G : Gang) (l q e : Nat) (w : W32) : (qPut G l q e w).poisonS = G.poisonS := rfl
@[simp] theorem qPut_poisonQ (G : Gang) (l q e : Nat) (w : W32) : (qPut G l q e w).poisonQ = G.poisonQ := rfl
@[simp] theorem qPut_wroteV (G : Gang) (l q e : Nat) (w : W32) : (qPut G l q e w).wroteV = G.wroteV := rfl
@[simp] theorem qPut_wroteS (G : Gang) (l q e : Nat) (w : W32) : (qPut G l q e w).wroteS = G.wroteS := rfl
@[simp] theorem qPut_wroteQ (G : Gang) (l q e : Nat) (w : W32) : (qPut G l q e w).wroteQ = G.wroteQ := rfl
@[simp] theorem qPut_lastRun (G : Gang) (l q e : Nat) (w : W32) : (qPut G l q e w).lastRun = G.lastRun := rfl
@[simp] theorem qPut_turns (G : Gang) (l q e : Nat) (w : W32) : (qPut G l q e w).turns = G.turns := rfl
@[simp] theorem qPut_single (G : Gang) (l q e : Nat) (w : W32) : (qPut G l q e w).single = G.single := rfl
@[simp] theorem qPut_idle (G : Gang) (l q e : Nat) (w : W32) : (qPut G l q e w).idle = G.idle := rfl
@[simp] theorem qPut_overdue (G : Gang) (l q e : Nat) (w : W32) : (qPut G l q e w).overdue = G.overdue := rfl
@[simp] theorem qPut_stallAt (G : Gang) (l q e : Nat) (w : W32) : (qPut G l q e w).stallAt = G.stallAt := rfl
@[simp] theorem qPut_age (G : Gang) (l q e : Nat) (w : W32) : (qPut G l q e w).age = G.age := rfl
@[simp] theorem qPut_exiting (G : Gang) (l q e : Nat) (w : W32) : (qPut G l q e w).exiting = G.exiting := rfl
@[simp] theorem qPut_acks (G : Gang) (l q e : Nat) (w : W32) : (qPut G l q e w).acks = G.acks := rfl
@[simp] theorem qPut_lastPc (G : Gang) (l q e : Nat) (w : W32) : (qPut G l q e w).lastPc = G.lastPc := rfl
@[simp] theorem qPut_issuedN (G : Gang) (l q e : Nat) (w : W32) : (qPut G l q e w).issuedN = G.issuedN := rfl

/-! ## srPut -/

@[simp] theorem srPut_core (G : Gang) (n : Nat) (w : Word) : (srPut G n w).core = G.core := rfl
@[simp] theorem srPut_slot (G : Gang) (n : Nat) (w : Word) : (srPut G n w).slot = G.slot := rfl
@[simp] theorem srPut_role (G : Gang) (n : Nat) (w : Word) : (srPut G n w).role = G.role := rfl
@[simp] theorem srPut_budget (G : Gang) (n : Nat) (w : Word) : (srPut G n w).budget = G.budget := rfl
@[simp] theorem srPut_v (G : Gang) (n : Nat) (w : Word) : (srPut G n w).v = G.v := rfl
@[simp] theorem srPut_sr (G : Gang) (n : Nat) (w : Word) : (srPut G n w).sr = G.sr := rfl
@[simp] theorem srPut_p (G : Gang) (n : Nat) (w : Word) : (srPut G n w).p = G.p := rfl
@[simp] theorem srPut_q (G : Gang) (n : Nat) (w : Word) : (srPut G n w).q = G.q := rfl
@[simp] theorem srPut_x (G : Gang) (n : Nat) (w : Word) : (srPut G n w).x = G.x := rfl
@[simp] theorem srPut_winPos (G : Gang) (n : Nat) (w : Word) : (srPut G n w).winPos = G.winPos := rfl
@[simp] theorem srPut_chain (G : Gang) (n : Nat) (w : Word) : (srPut G n w).chain = G.chain := rfl
@[simp] theorem srPut_chainEnd (G : Gang) (n : Nat) (w : Word) : (srPut G n w).chainEnd = G.chainEnd := rfl
@[simp] theorem srPut_threads (G : Gang) (n : Nat) (w : Word) : (srPut G n w).threads = G.threads := rfl
@[simp] theorem srPut_calls (G : Gang) (n : Nat) (w : Word) : (srPut G n w).calls = G.calls := rfl
@[simp] theorem srPut_formed (G : Gang) (n : Nat) (w : Word) : (srPut G n w).formed = G.formed := rfl
@[simp] theorem srPut_storeQ (G : Gang) (n : Nat) (w : Word) : (srPut G n w).storeQ = G.storeQ := rfl
@[simp] theorem srPut_reqs (G : Gang) (n : Nat) (w : Word) : (srPut G n w).reqs = G.reqs := rfl
@[simp] theorem srPut_loads (G : Gang) (n : Nat) (w : Word) : (srPut G n w).loads = G.loads := rfl
@[simp] theorem srPut_early (G : Gang) (n : Nat) (w : Word) : (srPut G n w).early = G.early := rfl
@[simp] theorem srPut_openRds (G : Gang) (n : Nat) (w : Word) : (srPut G n w).openRds = G.openRds := rfl
@[simp] theorem srPut_late (G : Gang) (n : Nat) (w : Word) : (srPut G n w).late = G.late := rfl
@[simp] theorem srPut_pin (G : Gang) (n : Nat) (w : Word) : (srPut G n w).pin = G.pin := rfl
@[simp] theorem srPut_ckSerial (G : Gang) (n : Nat) (w : Word) : (srPut G n w).ckSerial = G.ckSerial := rfl
@[simp] theorem srPut_handler (G : Gang) (n : Nat) (w : Word) : (srPut G n w).handler = G.handler := rfl
@[simp] theorem srPut_frozen (G : Gang) (n : Nat) (w : Word) : (srPut G n w).frozen = G.frozen := rfl
@[simp] theorem srPut_frozenRun (G : Gang) (n : Nat) (w : Word) : (srPut G n w).frozenRun = G.frozenRun := rfl
@[simp] theorem srPut_stopped (G : Gang) (n : Nat) (w : Word) : (srPut G n w).stopped = G.stopped := rfl
@[simp] theorem srPut_stopTrap (G : Gang) (n : Nat) (w : Word) : (srPut G n w).stopTrap = G.stopTrap := rfl
@[simp] theorem srPut_stopPc (G : Gang) (n : Nat) (w : Word) : (srPut G n w).stopPc = G.stopPc := rfl
@[simp] theorem srPut_pf (G : Gang) (n : Nat) (w : Word) : (srPut G n w).pf = G.pf := rfl
@[simp] theorem srPut_poisonV (G : Gang) (n : Nat) (w : Word) : (srPut G n w).poisonV = G.poisonV := rfl
@[simp] theorem srPut_poisonS (G : Gang) (n : Nat) (w : Word) : (srPut G n w).poisonS = G.poisonS := rfl
@[simp] theorem srPut_poisonQ (G : Gang) (n : Nat) (w : Word) : (srPut G n w).poisonQ = G.poisonQ := rfl
@[simp] theorem srPut_wroteV (G : Gang) (n : Nat) (w : Word) : (srPut G n w).wroteV = G.wroteV := rfl
@[simp] theorem srPut_wroteS (G : Gang) (n : Nat) (w : Word) : (srPut G n w).wroteS = G.wroteS := rfl
@[simp] theorem srPut_wroteQ (G : Gang) (n : Nat) (w : Word) : (srPut G n w).wroteQ = G.wroteQ := rfl
@[simp] theorem srPut_lastRun (G : Gang) (n : Nat) (w : Word) : (srPut G n w).lastRun = G.lastRun := rfl
@[simp] theorem srPut_turns (G : Gang) (n : Nat) (w : Word) : (srPut G n w).turns = G.turns := rfl
@[simp] theorem srPut_single (G : Gang) (n : Nat) (w : Word) : (srPut G n w).single = G.single := rfl
@[simp] theorem srPut_idle (G : Gang) (n : Nat) (w : Word) : (srPut G n w).idle = G.idle := rfl
@[simp] theorem srPut_overdue (G : Gang) (n : Nat) (w : Word) : (srPut G n w).overdue = G.overdue := rfl
@[simp] theorem srPut_stallAt (G : Gang) (n : Nat) (w : Word) : (srPut G n w).stallAt = G.stallAt := rfl
@[simp] theorem srPut_age (G : Gang) (n : Nat) (w : Word) : (srPut G n w).age = G.age := rfl
@[simp] theorem srPut_exiting (G : Gang) (n : Nat) (w : Word) : (srPut G n w).exiting = G.exiting := rfl
@[simp] theorem srPut_acks (G : Gang) (n : Nat) (w : Word) : (srPut G n w).acks = G.acks := rfl
@[simp] theorem srPut_lastPc (G : Gang) (n : Nat) (w : Word) : (srPut G n w).lastPc = G.lastPc := rfl
@[simp] theorem srPut_issuedN (G : Gang) (n : Nat) (w : Word) : (srPut G n w).issuedN = G.issuedN := rfl

/-! ## pPut -/

@[simp] theorem pPut_core (G : Gang) (p l : Nat) (b : Bool) : (pPut G p l b).core = G.core := by unfold pPut; split <;> rfl
@[simp] theorem pPut_slot (G : Gang) (p l : Nat) (b : Bool) : (pPut G p l b).slot = G.slot := by unfold pPut; split <;> rfl
@[simp] theorem pPut_role (G : Gang) (p l : Nat) (b : Bool) : (pPut G p l b).role = G.role := by unfold pPut; split <;> rfl
@[simp] theorem pPut_budget (G : Gang) (p l : Nat) (b : Bool) : (pPut G p l b).budget = G.budget := by unfold pPut; split <;> rfl
@[simp] theorem pPut_v (G : Gang) (p l : Nat) (b : Bool) : (pPut G p l b).v = G.v := by unfold pPut; split <;> rfl
@[simp] theorem pPut_sr (G : Gang) (p l : Nat) (b : Bool) : (pPut G p l b).sr = G.sr := by unfold pPut; split <;> rfl
@[simp] theorem pPut_q (G : Gang) (p l : Nat) (b : Bool) : (pPut G p l b).q = G.q := by unfold pPut; split <;> rfl
@[simp] theorem pPut_x (G : Gang) (p l : Nat) (b : Bool) : (pPut G p l b).x = G.x := by unfold pPut; split <;> rfl
@[simp] theorem pPut_sreg (G : Gang) (p l : Nat) (b : Bool) : (pPut G p l b).sreg = G.sreg := by unfold pPut; split <;> rfl
@[simp] theorem pPut_winPos (G : Gang) (p l : Nat) (b : Bool) : (pPut G p l b).winPos = G.winPos := by unfold pPut; split <;> rfl
@[simp] theorem pPut_chain (G : Gang) (p l : Nat) (b : Bool) : (pPut G p l b).chain = G.chain := by unfold pPut; split <;> rfl
@[simp] theorem pPut_chainEnd (G : Gang) (p l : Nat) (b : Bool) : (pPut G p l b).chainEnd = G.chainEnd := by unfold pPut; split <;> rfl
@[simp] theorem pPut_threads (G : Gang) (p l : Nat) (b : Bool) : (pPut G p l b).threads = G.threads := by unfold pPut; split <;> rfl
@[simp] theorem pPut_calls (G : Gang) (p l : Nat) (b : Bool) : (pPut G p l b).calls = G.calls := by unfold pPut; split <;> rfl
@[simp] theorem pPut_formed (G : Gang) (p l : Nat) (b : Bool) : (pPut G p l b).formed = G.formed := by unfold pPut; split <;> rfl
@[simp] theorem pPut_storeQ (G : Gang) (p l : Nat) (b : Bool) : (pPut G p l b).storeQ = G.storeQ := by unfold pPut; split <;> rfl
@[simp] theorem pPut_reqs (G : Gang) (p l : Nat) (b : Bool) : (pPut G p l b).reqs = G.reqs := by unfold pPut; split <;> rfl
@[simp] theorem pPut_loads (G : Gang) (p l : Nat) (b : Bool) : (pPut G p l b).loads = G.loads := by unfold pPut; split <;> rfl
@[simp] theorem pPut_early (G : Gang) (p l : Nat) (b : Bool) : (pPut G p l b).early = G.early := by unfold pPut; split <;> rfl
@[simp] theorem pPut_openRds (G : Gang) (p l : Nat) (b : Bool) : (pPut G p l b).openRds = G.openRds := by unfold pPut; split <;> rfl
@[simp] theorem pPut_late (G : Gang) (p l : Nat) (b : Bool) : (pPut G p l b).late = G.late := by unfold pPut; split <;> rfl
@[simp] theorem pPut_pin (G : Gang) (p l : Nat) (b : Bool) : (pPut G p l b).pin = G.pin := by unfold pPut; split <;> rfl
@[simp] theorem pPut_ckSerial (G : Gang) (p l : Nat) (b : Bool) : (pPut G p l b).ckSerial = G.ckSerial := by unfold pPut; split <;> rfl
@[simp] theorem pPut_handler (G : Gang) (p l : Nat) (b : Bool) : (pPut G p l b).handler = G.handler := by unfold pPut; split <;> rfl
@[simp] theorem pPut_frozen (G : Gang) (p l : Nat) (b : Bool) : (pPut G p l b).frozen = G.frozen := by unfold pPut; split <;> rfl
@[simp] theorem pPut_frozenRun (G : Gang) (p l : Nat) (b : Bool) : (pPut G p l b).frozenRun = G.frozenRun := by unfold pPut; split <;> rfl
@[simp] theorem pPut_stopped (G : Gang) (p l : Nat) (b : Bool) : (pPut G p l b).stopped = G.stopped := by unfold pPut; split <;> rfl
@[simp] theorem pPut_stopTrap (G : Gang) (p l : Nat) (b : Bool) : (pPut G p l b).stopTrap = G.stopTrap := by unfold pPut; split <;> rfl
@[simp] theorem pPut_stopPc (G : Gang) (p l : Nat) (b : Bool) : (pPut G p l b).stopPc = G.stopPc := by unfold pPut; split <;> rfl
@[simp] theorem pPut_pf (G : Gang) (p l : Nat) (b : Bool) : (pPut G p l b).pf = G.pf := by unfold pPut; split <;> rfl
@[simp] theorem pPut_poisonV (G : Gang) (p l : Nat) (b : Bool) : (pPut G p l b).poisonV = G.poisonV := by unfold pPut; split <;> rfl
@[simp] theorem pPut_poisonS (G : Gang) (p l : Nat) (b : Bool) : (pPut G p l b).poisonS = G.poisonS := by unfold pPut; split <;> rfl
@[simp] theorem pPut_poisonQ (G : Gang) (p l : Nat) (b : Bool) : (pPut G p l b).poisonQ = G.poisonQ := by unfold pPut; split <;> rfl
@[simp] theorem pPut_wroteV (G : Gang) (p l : Nat) (b : Bool) : (pPut G p l b).wroteV = G.wroteV := by unfold pPut; split <;> rfl
@[simp] theorem pPut_wroteS (G : Gang) (p l : Nat) (b : Bool) : (pPut G p l b).wroteS = G.wroteS := by unfold pPut; split <;> rfl
@[simp] theorem pPut_wroteQ (G : Gang) (p l : Nat) (b : Bool) : (pPut G p l b).wroteQ = G.wroteQ := by unfold pPut; split <;> rfl
@[simp] theorem pPut_lastRun (G : Gang) (p l : Nat) (b : Bool) : (pPut G p l b).lastRun = G.lastRun := by unfold pPut; split <;> rfl
@[simp] theorem pPut_turns (G : Gang) (p l : Nat) (b : Bool) : (pPut G p l b).turns = G.turns := by unfold pPut; split <;> rfl
@[simp] theorem pPut_single (G : Gang) (p l : Nat) (b : Bool) : (pPut G p l b).single = G.single := by unfold pPut; split <;> rfl
@[simp] theorem pPut_idle (G : Gang) (p l : Nat) (b : Bool) : (pPut G p l b).idle = G.idle := by unfold pPut; split <;> rfl
@[simp] theorem pPut_overdue (G : Gang) (p l : Nat) (b : Bool) : (pPut G p l b).overdue = G.overdue := by unfold pPut; split <;> rfl
@[simp] theorem pPut_stallAt (G : Gang) (p l : Nat) (b : Bool) : (pPut G p l b).stallAt = G.stallAt := by unfold pPut; split <;> rfl
@[simp] theorem pPut_age (G : Gang) (p l : Nat) (b : Bool) : (pPut G p l b).age = G.age := by unfold pPut; split <;> rfl
@[simp] theorem pPut_exiting (G : Gang) (p l : Nat) (b : Bool) : (pPut G p l b).exiting = G.exiting := by unfold pPut; split <;> rfl
@[simp] theorem pPut_acks (G : Gang) (p l : Nat) (b : Bool) : (pPut G p l b).acks = G.acks := by unfold pPut; split <;> rfl
@[simp] theorem pPut_lastPc (G : Gang) (p l : Nat) (b : Bool) : (pPut G p l b).lastPc = G.lastPc := by unfold pPut; split <;> rfl
@[simp] theorem pPut_issuedN (G : Gang) (p l : Nat) (b : Bool) : (pPut G p l b).issuedN = G.issuedN := by unfold pPut; split <;> rfl

/-! ## What the accessors read after an update -/

@[simp] theorem gangOf_setGang_same (s : State) (g : Nat) (G : Gang) : gangOf (setGang s g G) g = G := by
  simp [gangOf, setGang]

theorem gangOf_setGang_other (s : State) {g h : Nat} (G : Gang) (e : h ≠ g) : gangOf (setGang s g G) h = gangOf s h := by
  simp [gangOf, setGang, SMap.getD_put_other _ _ _ e]

@[simp] theorem gangOf_modGang_same (s : State) (g : Nat) (f : Gang → Gang) : gangOf (modGang s g f) g = f (gangOf s g) := by
  simp [modGang]

theorem gangOf_modGang_other (s : State) {g h : Nat} (f : Gang → Gang) (e : h ≠ g) :
    gangOf (modGang s g f) h = gangOf s h := gangOf_setGang_other s _ e

@[simp] theorem teamOf_setTeam_same (s : State) (t : Nat) (T : Team) : teamOf (setTeam s t T) t = T := by
  simp [teamOf, setTeam]

@[simp] theorem teamOf_modTeam_same (s : State) (t : Nat) (f : Team → Team) : teamOf (modTeam s t f) t = f (teamOf s t) := by
  simp [modTeam]

theorem teamOf_modTeam_other (s : State) {j k : Nat} (f : Team → Team) (e : j ≠ k) : teamOf (modTeam s k f) j = teamOf s j := by
  simp [teamOf, modTeam, setTeam, SMap.getD_put_other _ _ _ e]

@[simp] theorem coreOf_modCore_same (s : State) (k : Nat) (f : Core → Core) : coreOf (modCore s k f) k = f (coreOf s k) := by
  simp [coreOf, modCore]

theorem coreOf_modCore_other (s : State) {j k : Nat} (f : Core → Core) (e : j ≠ k) : coreOf (modCore s k f) j = coreOf s j := by
  simp [coreOf, modCore, SMap.getD_putD_other _ _ _ e]

@[simp] theorem dieOf_modDie_same (s : State) (k : Nat) (f : Die → Die) : dieOf (modDie s k f) k = f (dieOf s k) := by
  simp [dieOf, modDie]

theorem dieOf_modDie_other (s : State) {j k : Nat} (f : Die → Die) (e : j ≠ k) : dieOf (modDie s k f) j = dieOf s j := by
  simp [dieOf, modDie, SMap.getD_putD_other _ _ _ e]

@[simp] theorem islandOf_modIsland_same (s : State) (k : Nat) (f : Island → Island) : islandOf (modIsland s k f) k = f (islandOf s k) := by
  simp [islandOf, modIsland]

theorem islandOf_modIsland_other (s : State) {j k : Nat} (f : Island → Island) (e : j ≠ k) : islandOf (modIsland s k f) j = islandOf s j := by
  simp [islandOf, modIsland, SMap.getD_putD_other _ _ _ e]

@[simp] theorem queueOf_modQueue_same (s : State) (k : Nat) (f : CmdQueue → CmdQueue) : queueOf (modQueue s k f) k = f (queueOf s k) := by
  simp [queueOf, modQueue]

theorem queueOf_modQueue_other (s : State) {j k : Nat} (f : CmdQueue → CmdQueue) (e : j ≠ k) : queueOf (modQueue s k f) j = queueOf s j := by
  simp [queueOf, modQueue, SMap.getD_putD_other _ _ _ e]

@[simp] theorem scriptOf_modScript_same (s : State) (k : Nat) (f : Script → Script) : scriptOf (modScript s k f) k = f (scriptOf s k) := by
  simp [scriptOf, modScript]

theorem scriptOf_modScript_other (s : State) {j k : Nat} (f : Script → Script) (e : j ≠ k) : scriptOf (modScript s k f) j = scriptOf s j := by
  simp [scriptOf, modScript, SMap.getD_putD_other _ _ _ e]

@[simp] theorem portOf_modPort_same (s : State) (k : Nat) (f : Port → Port) : portOf (modPort s k f) k = f (portOf s k) := by
  simp [portOf, modPort]

theorem portOf_modPort_other (s : State) {j k : Nat} (f : Port → Port) (e : j ≠ k) : portOf (modPort s k f) j = portOf s j := by
  simp [portOf, modPort, SMap.getD_putD_other _ _ _ e]

@[simp] theorem cxeOf_modCxe_same (s : State) (k : Nat) (f : Cxe → Cxe) : cxeOf (modCxe s k f) k = f (cxeOf s k) := by
  simp [cxeOf, modCxe]

theorem cxeOf_modCxe_other (s : State) {j k : Nat} (f : Cxe → Cxe) (e : j ≠ k) : cxeOf (modCxe s k f) j = cxeOf s j := by
  simp [cxeOf, modCxe, SMap.getD_putD_other _ _ _ e]

@[simp] theorem sxeOf_modSxe_same (s : State) (k : Nat) (f : Sxe → Sxe) : sxeOf (modSxe s k f) k = f (sxeOf s k) := by
  simp [sxeOf, modSxe]

theorem sxeOf_modSxe_other (s : State) {j k : Nat} (f : Sxe → Sxe) (e : j ≠ k) : sxeOf (modSxe s k f) j = sxeOf s j := by
  simp [sxeOf, modSxe, SMap.getD_putD_other _ _ _ e]

@[simp] theorem matOf_modMat_same (s : State) (k : Nat) (f : MatQueue → MatQueue) : matOf (modMat s k f) k = f (matOf s k) := by
  simp [matOf, modMat]

theorem matOf_modMat_other (s : State) {j k : Nat} (f : MatQueue → MatQueue) (e : j ≠ k) : matOf (modMat s k f) j = matOf s j := by
  simp [matOf, modMat, SMap.getD_putD_other _ _ _ e]

@[simp] theorem teamOf_setGang (s : State) (g : Nat) (G : Gang) (k : Nat) : teamOf (setGang s g G) k = teamOf s k := rfl
@[simp] theorem coreOf_setGang (s : State) (g : Nat) (G : Gang) (k : Nat) : coreOf (setGang s g G) k = coreOf s k := rfl
@[simp] theorem dieOf_setGang (s : State) (g : Nat) (G : Gang) (k : Nat) : dieOf (setGang s g G) k = dieOf s k := rfl
@[simp] theorem islandOf_setGang (s : State) (g : Nat) (G : Gang) (k : Nat) : islandOf (setGang s g G) k = islandOf s k := rfl
@[simp] theorem queueOf_setGang (s : State) (g : Nat) (G : Gang) (k : Nat) : queueOf (setGang s g G) k = queueOf s k := rfl
@[simp] theorem scriptOf_setGang (s : State) (g : Nat) (G : Gang) (k : Nat) : scriptOf (setGang s g G) k = scriptOf s k := rfl
@[simp] theorem portOf_setGang (s : State) (g : Nat) (G : Gang) (k : Nat) : portOf (setGang s g G) k = portOf s k := rfl
@[simp] theorem cxeOf_setGang (s : State) (g : Nat) (G : Gang) (k : Nat) : cxeOf (setGang s g G) k = cxeOf s k := rfl
@[simp] theorem sxeOf_setGang (s : State) (g : Nat) (G : Gang) (k : Nat) : sxeOf (setGang s g G) k = sxeOf s k := rfl
@[simp] theorem matOf_setGang (s : State) (g : Nat) (G : Gang) (k : Nat) : matOf (setGang s g G) k = matOf s k := rfl
@[simp] theorem mgmtGet_setGang (s : State) (g : Nat) (G : Gang) (k : Nat) : mgmtGet (setGang s g G) k = mgmtGet s k := rfl
@[simp] theorem teamOf_modGang (s : State) (g : Nat) (f : Gang → Gang) (k : Nat) : teamOf (modGang s g f) k = teamOf s k := rfl
@[simp] theorem coreOf_modGang (s : State) (g : Nat) (f : Gang → Gang) (k : Nat) : coreOf (modGang s g f) k = coreOf s k := rfl
@[simp] theorem dieOf_modGang (s : State) (g : Nat) (f : Gang → Gang) (k : Nat) : dieOf (modGang s g f) k = dieOf s k := rfl
@[simp] theorem islandOf_modGang (s : State) (g : Nat) (f : Gang → Gang) (k : Nat) : islandOf (modGang s g f) k = islandOf s k := rfl
@[simp] theorem queueOf_modGang (s : State) (g : Nat) (f : Gang → Gang) (k : Nat) : queueOf (modGang s g f) k = queueOf s k := rfl
@[simp] theorem scriptOf_modGang (s : State) (g : Nat) (f : Gang → Gang) (k : Nat) : scriptOf (modGang s g f) k = scriptOf s k := rfl
@[simp] theorem portOf_modGang (s : State) (g : Nat) (f : Gang → Gang) (k : Nat) : portOf (modGang s g f) k = portOf s k := rfl
@[simp] theorem cxeOf_modGang (s : State) (g : Nat) (f : Gang → Gang) (k : Nat) : cxeOf (modGang s g f) k = cxeOf s k := rfl
@[simp] theorem sxeOf_modGang (s : State) (g : Nat) (f : Gang → Gang) (k : Nat) : sxeOf (modGang s g f) k = sxeOf s k := rfl
@[simp] theorem matOf_modGang (s : State) (g : Nat) (f : Gang → Gang) (k : Nat) : matOf (modGang s g f) k = matOf s k := rfl
@[simp] theorem mgmtGet_modGang (s : State) (g : Nat) (f : Gang → Gang) (k : Nat) : mgmtGet (modGang s g f) k = mgmtGet s k := rfl
@[simp] theorem gangOf_setTeam (s : State) (t : Nat) (T : Team) (k : Nat) : gangOf (setTeam s t T) k = gangOf s k := rfl
@[simp] theorem coreOf_setTeam (s : State) (t : Nat) (T : Team) (k : Nat) : coreOf (setTeam s t T) k = coreOf s k := rfl
@[simp] theorem dieOf_setTeam (s : State) (t : Nat) (T : Team) (k : Nat) : dieOf (setTeam s t T) k = dieOf s k := rfl
@[simp] theorem islandOf_setTeam (s : State) (t : Nat) (T : Team) (k : Nat) : islandOf (setTeam s t T) k = islandOf s k := rfl
@[simp] theorem queueOf_setTeam (s : State) (t : Nat) (T : Team) (k : Nat) : queueOf (setTeam s t T) k = queueOf s k := rfl
@[simp] theorem scriptOf_setTeam (s : State) (t : Nat) (T : Team) (k : Nat) : scriptOf (setTeam s t T) k = scriptOf s k := rfl
@[simp] theorem portOf_setTeam (s : State) (t : Nat) (T : Team) (k : Nat) : portOf (setTeam s t T) k = portOf s k := rfl
@[simp] theorem cxeOf_setTeam (s : State) (t : Nat) (T : Team) (k : Nat) : cxeOf (setTeam s t T) k = cxeOf s k := rfl
@[simp] theorem sxeOf_setTeam (s : State) (t : Nat) (T : Team) (k : Nat) : sxeOf (setTeam s t T) k = sxeOf s k := rfl
@[simp] theorem matOf_setTeam (s : State) (t : Nat) (T : Team) (k : Nat) : matOf (setTeam s t T) k = matOf s k := rfl
@[simp] theorem mgmtGet_setTeam (s : State) (t : Nat) (T : Team) (k : Nat) : mgmtGet (setTeam s t T) k = mgmtGet s k := rfl
@[simp] theorem gangOf_modTeam (s : State) (t : Nat) (f : Team → Team) (k : Nat) : gangOf (modTeam s t f) k = gangOf s k := rfl
@[simp] theorem coreOf_modTeam (s : State) (t : Nat) (f : Team → Team) (k : Nat) : coreOf (modTeam s t f) k = coreOf s k := rfl
@[simp] theorem dieOf_modTeam (s : State) (t : Nat) (f : Team → Team) (k : Nat) : dieOf (modTeam s t f) k = dieOf s k := rfl
@[simp] theorem islandOf_modTeam (s : State) (t : Nat) (f : Team → Team) (k : Nat) : islandOf (modTeam s t f) k = islandOf s k := rfl
@[simp] theorem queueOf_modTeam (s : State) (t : Nat) (f : Team → Team) (k : Nat) : queueOf (modTeam s t f) k = queueOf s k := rfl
@[simp] theorem scriptOf_modTeam (s : State) (t : Nat) (f : Team → Team) (k : Nat) : scriptOf (modTeam s t f) k = scriptOf s k := rfl
@[simp] theorem portOf_modTeam (s : State) (t : Nat) (f : Team → Team) (k : Nat) : portOf (modTeam s t f) k = portOf s k := rfl
@[simp] theorem cxeOf_modTeam (s : State) (t : Nat) (f : Team → Team) (k : Nat) : cxeOf (modTeam s t f) k = cxeOf s k := rfl
@[simp] theorem sxeOf_modTeam (s : State) (t : Nat) (f : Team → Team) (k : Nat) : sxeOf (modTeam s t f) k = sxeOf s k := rfl
@[simp] theorem matOf_modTeam (s : State) (t : Nat) (f : Team → Team) (k : Nat) : matOf (modTeam s t f) k = matOf s k := rfl
@[simp] theorem mgmtGet_modTeam (s : State) (t : Nat) (f : Team → Team) (k : Nat) : mgmtGet (modTeam s t f) k = mgmtGet s k := rfl
@[simp] theorem gangOf_modCore (s : State) (c : Nat) (f : Core → Core) (k : Nat) : gangOf (modCore s c f) k = gangOf s k := rfl
@[simp] theorem teamOf_modCore (s : State) (c : Nat) (f : Core → Core) (k : Nat) : teamOf (modCore s c f) k = teamOf s k := rfl
@[simp] theorem dieOf_modCore (s : State) (c : Nat) (f : Core → Core) (k : Nat) : dieOf (modCore s c f) k = dieOf s k := rfl
@[simp] theorem islandOf_modCore (s : State) (c : Nat) (f : Core → Core) (k : Nat) : islandOf (modCore s c f) k = islandOf s k := rfl
@[simp] theorem queueOf_modCore (s : State) (c : Nat) (f : Core → Core) (k : Nat) : queueOf (modCore s c f) k = queueOf s k := rfl
@[simp] theorem scriptOf_modCore (s : State) (c : Nat) (f : Core → Core) (k : Nat) : scriptOf (modCore s c f) k = scriptOf s k := rfl
@[simp] theorem portOf_modCore (s : State) (c : Nat) (f : Core → Core) (k : Nat) : portOf (modCore s c f) k = portOf s k := rfl
@[simp] theorem cxeOf_modCore (s : State) (c : Nat) (f : Core → Core) (k : Nat) : cxeOf (modCore s c f) k = cxeOf s k := rfl
@[simp] theorem sxeOf_modCore (s : State) (c : Nat) (f : Core → Core) (k : Nat) : sxeOf (modCore s c f) k = sxeOf s k := rfl
@[simp] theorem matOf_modCore (s : State) (c : Nat) (f : Core → Core) (k : Nat) : matOf (modCore s c f) k = matOf s k := rfl
@[simp] theorem mgmtGet_modCore (s : State) (c : Nat) (f : Core → Core) (k : Nat) : mgmtGet (modCore s c f) k = mgmtGet s k := rfl
@[simp] theorem gangOf_modTcu (s : State) (c x : Nat) (f : TcuCtx → TcuCtx) (k : Nat) : gangOf (modTcu s c x f) k = gangOf s k := rfl
@[simp] theorem teamOf_modTcu (s : State) (c x : Nat) (f : TcuCtx → TcuCtx) (k : Nat) : teamOf (modTcu s c x f) k = teamOf s k := rfl
@[simp] theorem dieOf_modTcu (s : State) (c x : Nat) (f : TcuCtx → TcuCtx) (k : Nat) : dieOf (modTcu s c x f) k = dieOf s k := rfl
@[simp] theorem islandOf_modTcu (s : State) (c x : Nat) (f : TcuCtx → TcuCtx) (k : Nat) : islandOf (modTcu s c x f) k = islandOf s k := rfl
@[simp] theorem queueOf_modTcu (s : State) (c x : Nat) (f : TcuCtx → TcuCtx) (k : Nat) : queueOf (modTcu s c x f) k = queueOf s k := rfl
@[simp] theorem scriptOf_modTcu (s : State) (c x : Nat) (f : TcuCtx → TcuCtx) (k : Nat) : scriptOf (modTcu s c x f) k = scriptOf s k := rfl
@[simp] theorem portOf_modTcu (s : State) (c x : Nat) (f : TcuCtx → TcuCtx) (k : Nat) : portOf (modTcu s c x f) k = portOf s k := rfl
@[simp] theorem cxeOf_modTcu (s : State) (c x : Nat) (f : TcuCtx → TcuCtx) (k : Nat) : cxeOf (modTcu s c x f) k = cxeOf s k := rfl
@[simp] theorem sxeOf_modTcu (s : State) (c x : Nat) (f : TcuCtx → TcuCtx) (k : Nat) : sxeOf (modTcu s c x f) k = sxeOf s k := rfl
@[simp] theorem matOf_modTcu (s : State) (c x : Nat) (f : TcuCtx → TcuCtx) (k : Nat) : matOf (modTcu s c x f) k = matOf s k := rfl
@[simp] theorem mgmtGet_modTcu (s : State) (c x : Nat) (f : TcuCtx → TcuCtx) (k : Nat) : mgmtGet (modTcu s c x f) k = mgmtGet s k := rfl
@[simp] theorem gangOf_modDie (s : State) (d : Nat) (f : Die → Die) (k : Nat) : gangOf (modDie s d f) k = gangOf s k := rfl
@[simp] theorem teamOf_modDie (s : State) (d : Nat) (f : Die → Die) (k : Nat) : teamOf (modDie s d f) k = teamOf s k := rfl
@[simp] theorem coreOf_modDie (s : State) (d : Nat) (f : Die → Die) (k : Nat) : coreOf (modDie s d f) k = coreOf s k := rfl
@[simp] theorem islandOf_modDie (s : State) (d : Nat) (f : Die → Die) (k : Nat) : islandOf (modDie s d f) k = islandOf s k := rfl
@[simp] theorem queueOf_modDie (s : State) (d : Nat) (f : Die → Die) (k : Nat) : queueOf (modDie s d f) k = queueOf s k := rfl
@[simp] theorem scriptOf_modDie (s : State) (d : Nat) (f : Die → Die) (k : Nat) : scriptOf (modDie s d f) k = scriptOf s k := rfl
@[simp] theorem portOf_modDie (s : State) (d : Nat) (f : Die → Die) (k : Nat) : portOf (modDie s d f) k = portOf s k := rfl
@[simp] theorem cxeOf_modDie (s : State) (d : Nat) (f : Die → Die) (k : Nat) : cxeOf (modDie s d f) k = cxeOf s k := rfl
@[simp] theorem sxeOf_modDie (s : State) (d : Nat) (f : Die → Die) (k : Nat) : sxeOf (modDie s d f) k = sxeOf s k := rfl
@[simp] theorem matOf_modDie (s : State) (d : Nat) (f : Die → Die) (k : Nat) : matOf (modDie s d f) k = matOf s k := rfl
@[simp] theorem mgmtGet_modDie (s : State) (d : Nat) (f : Die → Die) (k : Nat) : mgmtGet (modDie s d f) k = mgmtGet s k := rfl
@[simp] theorem gangOf_modIsland (s : State) (i : Nat) (f : Island → Island) (k : Nat) : gangOf (modIsland s i f) k = gangOf s k := rfl
@[simp] theorem teamOf_modIsland (s : State) (i : Nat) (f : Island → Island) (k : Nat) : teamOf (modIsland s i f) k = teamOf s k := rfl
@[simp] theorem coreOf_modIsland (s : State) (i : Nat) (f : Island → Island) (k : Nat) : coreOf (modIsland s i f) k = coreOf s k := rfl
@[simp] theorem dieOf_modIsland (s : State) (i : Nat) (f : Island → Island) (k : Nat) : dieOf (modIsland s i f) k = dieOf s k := rfl
@[simp] theorem queueOf_modIsland (s : State) (i : Nat) (f : Island → Island) (k : Nat) : queueOf (modIsland s i f) k = queueOf s k := rfl
@[simp] theorem scriptOf_modIsland (s : State) (i : Nat) (f : Island → Island) (k : Nat) : scriptOf (modIsland s i f) k = scriptOf s k := rfl
@[simp] theorem portOf_modIsland (s : State) (i : Nat) (f : Island → Island) (k : Nat) : portOf (modIsland s i f) k = portOf s k := rfl
@[simp] theorem cxeOf_modIsland (s : State) (i : Nat) (f : Island → Island) (k : Nat) : cxeOf (modIsland s i f) k = cxeOf s k := rfl
@[simp] theorem sxeOf_modIsland (s : State) (i : Nat) (f : Island → Island) (k : Nat) : sxeOf (modIsland s i f) k = sxeOf s k := rfl
@[simp] theorem matOf_modIsland (s : State) (i : Nat) (f : Island → Island) (k : Nat) : matOf (modIsland s i f) k = matOf s k := rfl
@[simp] theorem mgmtGet_modIsland (s : State) (i : Nat) (f : Island → Island) (k : Nat) : mgmtGet (modIsland s i f) k = mgmtGet s k := rfl
@[simp] theorem gangOf_modQueue (s : State) (q : Nat) (f : CmdQueue → CmdQueue) (k : Nat) : gangOf (modQueue s q f) k = gangOf s k := rfl
@[simp] theorem teamOf_modQueue (s : State) (q : Nat) (f : CmdQueue → CmdQueue) (k : Nat) : teamOf (modQueue s q f) k = teamOf s k := rfl
@[simp] theorem coreOf_modQueue (s : State) (q : Nat) (f : CmdQueue → CmdQueue) (k : Nat) : coreOf (modQueue s q f) k = coreOf s k := rfl
@[simp] theorem dieOf_modQueue (s : State) (q : Nat) (f : CmdQueue → CmdQueue) (k : Nat) : dieOf (modQueue s q f) k = dieOf s k := rfl
@[simp] theorem islandOf_modQueue (s : State) (q : Nat) (f : CmdQueue → CmdQueue) (k : Nat) : islandOf (modQueue s q f) k = islandOf s k := rfl
@[simp] theorem scriptOf_modQueue (s : State) (q : Nat) (f : CmdQueue → CmdQueue) (k : Nat) : scriptOf (modQueue s q f) k = scriptOf s k := rfl
@[simp] theorem portOf_modQueue (s : State) (q : Nat) (f : CmdQueue → CmdQueue) (k : Nat) : portOf (modQueue s q f) k = portOf s k := rfl
@[simp] theorem cxeOf_modQueue (s : State) (q : Nat) (f : CmdQueue → CmdQueue) (k : Nat) : cxeOf (modQueue s q f) k = cxeOf s k := rfl
@[simp] theorem sxeOf_modQueue (s : State) (q : Nat) (f : CmdQueue → CmdQueue) (k : Nat) : sxeOf (modQueue s q f) k = sxeOf s k := rfl
@[simp] theorem matOf_modQueue (s : State) (q : Nat) (f : CmdQueue → CmdQueue) (k : Nat) : matOf (modQueue s q f) k = matOf s k := rfl
@[simp] theorem mgmtGet_modQueue (s : State) (q : Nat) (f : CmdQueue → CmdQueue) (k : Nat) : mgmtGet (modQueue s q f) k = mgmtGet s k := rfl
@[simp] theorem gangOf_modScript (s : State) (c : Nat) (f : Script → Script) (k : Nat) : gangOf (modScript s c f) k = gangOf s k := rfl
@[simp] theorem teamOf_modScript (s : State) (c : Nat) (f : Script → Script) (k : Nat) : teamOf (modScript s c f) k = teamOf s k := rfl
@[simp] theorem coreOf_modScript (s : State) (c : Nat) (f : Script → Script) (k : Nat) : coreOf (modScript s c f) k = coreOf s k := rfl
@[simp] theorem dieOf_modScript (s : State) (c : Nat) (f : Script → Script) (k : Nat) : dieOf (modScript s c f) k = dieOf s k := rfl
@[simp] theorem islandOf_modScript (s : State) (c : Nat) (f : Script → Script) (k : Nat) : islandOf (modScript s c f) k = islandOf s k := rfl
@[simp] theorem queueOf_modScript (s : State) (c : Nat) (f : Script → Script) (k : Nat) : queueOf (modScript s c f) k = queueOf s k := rfl
@[simp] theorem portOf_modScript (s : State) (c : Nat) (f : Script → Script) (k : Nat) : portOf (modScript s c f) k = portOf s k := rfl
@[simp] theorem cxeOf_modScript (s : State) (c : Nat) (f : Script → Script) (k : Nat) : cxeOf (modScript s c f) k = cxeOf s k := rfl
@[simp] theorem sxeOf_modScript (s : State) (c : Nat) (f : Script → Script) (k : Nat) : sxeOf (modScript s c f) k = sxeOf s k := rfl
@[simp] theorem matOf_modScript (s : State) (c : Nat) (f : Script → Script) (k : Nat) : matOf (modScript s c f) k = matOf s k := rfl
@[simp] theorem mgmtGet_modScript (s : State) (c : Nat) (f : Script → Script) (k : Nat) : mgmtGet (modScript s c f) k = mgmtGet s k := rfl
@[simp] theorem gangOf_modPort (s : State) (p : Nat) (f : Port → Port) (k : Nat) : gangOf (modPort s p f) k = gangOf s k := rfl
@[simp] theorem teamOf_modPort (s : State) (p : Nat) (f : Port → Port) (k : Nat) : teamOf (modPort s p f) k = teamOf s k := rfl
@[simp] theorem coreOf_modPort (s : State) (p : Nat) (f : Port → Port) (k : Nat) : coreOf (modPort s p f) k = coreOf s k := rfl
@[simp] theorem dieOf_modPort (s : State) (p : Nat) (f : Port → Port) (k : Nat) : dieOf (modPort s p f) k = dieOf s k := rfl
@[simp] theorem islandOf_modPort (s : State) (p : Nat) (f : Port → Port) (k : Nat) : islandOf (modPort s p f) k = islandOf s k := rfl
@[simp] theorem queueOf_modPort (s : State) (p : Nat) (f : Port → Port) (k : Nat) : queueOf (modPort s p f) k = queueOf s k := rfl
@[simp] theorem scriptOf_modPort (s : State) (p : Nat) (f : Port → Port) (k : Nat) : scriptOf (modPort s p f) k = scriptOf s k := rfl
@[simp] theorem cxeOf_modPort (s : State) (p : Nat) (f : Port → Port) (k : Nat) : cxeOf (modPort s p f) k = cxeOf s k := rfl
@[simp] theorem sxeOf_modPort (s : State) (p : Nat) (f : Port → Port) (k : Nat) : sxeOf (modPort s p f) k = sxeOf s k := rfl
@[simp] theorem matOf_modPort (s : State) (p : Nat) (f : Port → Port) (k : Nat) : matOf (modPort s p f) k = matOf s k := rfl
@[simp] theorem mgmtGet_modPort (s : State) (p : Nat) (f : Port → Port) (k : Nat) : mgmtGet (modPort s p f) k = mgmtGet s k := rfl
@[simp] theorem gangOf_modCxe (s : State) (d : Nat) (f : Cxe → Cxe) (k : Nat) : gangOf (modCxe s d f) k = gangOf s k := rfl
@[simp] theorem teamOf_modCxe (s : State) (d : Nat) (f : Cxe → Cxe) (k : Nat) : teamOf (modCxe s d f) k = teamOf s k := rfl
@[simp] theorem coreOf_modCxe (s : State) (d : Nat) (f : Cxe → Cxe) (k : Nat) : coreOf (modCxe s d f) k = coreOf s k := rfl
@[simp] theorem dieOf_modCxe (s : State) (d : Nat) (f : Cxe → Cxe) (k : Nat) : dieOf (modCxe s d f) k = dieOf s k := rfl
@[simp] theorem islandOf_modCxe (s : State) (d : Nat) (f : Cxe → Cxe) (k : Nat) : islandOf (modCxe s d f) k = islandOf s k := rfl
@[simp] theorem queueOf_modCxe (s : State) (d : Nat) (f : Cxe → Cxe) (k : Nat) : queueOf (modCxe s d f) k = queueOf s k := rfl
@[simp] theorem scriptOf_modCxe (s : State) (d : Nat) (f : Cxe → Cxe) (k : Nat) : scriptOf (modCxe s d f) k = scriptOf s k := rfl
@[simp] theorem portOf_modCxe (s : State) (d : Nat) (f : Cxe → Cxe) (k : Nat) : portOf (modCxe s d f) k = portOf s k := rfl
@[simp] theorem sxeOf_modCxe (s : State) (d : Nat) (f : Cxe → Cxe) (k : Nat) : sxeOf (modCxe s d f) k = sxeOf s k := rfl
@[simp] theorem matOf_modCxe (s : State) (d : Nat) (f : Cxe → Cxe) (k : Nat) : matOf (modCxe s d f) k = matOf s k := rfl
@[simp] theorem mgmtGet_modCxe (s : State) (d : Nat) (f : Cxe → Cxe) (k : Nat) : mgmtGet (modCxe s d f) k = mgmtGet s k := rfl
@[simp] theorem gangOf_modSxe (s : State) (d : Nat) (f : Sxe → Sxe) (k : Nat) : gangOf (modSxe s d f) k = gangOf s k := rfl
@[simp] theorem teamOf_modSxe (s : State) (d : Nat) (f : Sxe → Sxe) (k : Nat) : teamOf (modSxe s d f) k = teamOf s k := rfl
@[simp] theorem coreOf_modSxe (s : State) (d : Nat) (f : Sxe → Sxe) (k : Nat) : coreOf (modSxe s d f) k = coreOf s k := rfl
@[simp] theorem dieOf_modSxe (s : State) (d : Nat) (f : Sxe → Sxe) (k : Nat) : dieOf (modSxe s d f) k = dieOf s k := rfl
@[simp] theorem islandOf_modSxe (s : State) (d : Nat) (f : Sxe → Sxe) (k : Nat) : islandOf (modSxe s d f) k = islandOf s k := rfl
@[simp] theorem queueOf_modSxe (s : State) (d : Nat) (f : Sxe → Sxe) (k : Nat) : queueOf (modSxe s d f) k = queueOf s k := rfl
@[simp] theorem scriptOf_modSxe (s : State) (d : Nat) (f : Sxe → Sxe) (k : Nat) : scriptOf (modSxe s d f) k = scriptOf s k := rfl
@[simp] theorem portOf_modSxe (s : State) (d : Nat) (f : Sxe → Sxe) (k : Nat) : portOf (modSxe s d f) k = portOf s k := rfl
@[simp] theorem cxeOf_modSxe (s : State) (d : Nat) (f : Sxe → Sxe) (k : Nat) : cxeOf (modSxe s d f) k = cxeOf s k := rfl
@[simp] theorem matOf_modSxe (s : State) (d : Nat) (f : Sxe → Sxe) (k : Nat) : matOf (modSxe s d f) k = matOf s k := rfl
@[simp] theorem mgmtGet_modSxe (s : State) (d : Nat) (f : Sxe → Sxe) (k : Nat) : mgmtGet (modSxe s d f) k = mgmtGet s k := rfl
@[simp] theorem gangOf_modMat (s : State) (p : Nat) (f : MatQueue → MatQueue) (k : Nat) : gangOf (modMat s p f) k = gangOf s k := rfl
@[simp] theorem teamOf_modMat (s : State) (p : Nat) (f : MatQueue → MatQueue) (k : Nat) : teamOf (modMat s p f) k = teamOf s k := rfl
@[simp] theorem coreOf_modMat (s : State) (p : Nat) (f : MatQueue → MatQueue) (k : Nat) : coreOf (modMat s p f) k = coreOf s k := rfl
@[simp] theorem dieOf_modMat (s : State) (p : Nat) (f : MatQueue → MatQueue) (k : Nat) : dieOf (modMat s p f) k = dieOf s k := rfl
@[simp] theorem islandOf_modMat (s : State) (p : Nat) (f : MatQueue → MatQueue) (k : Nat) : islandOf (modMat s p f) k = islandOf s k := rfl
@[simp] theorem queueOf_modMat (s : State) (p : Nat) (f : MatQueue → MatQueue) (k : Nat) : queueOf (modMat s p f) k = queueOf s k := rfl
@[simp] theorem scriptOf_modMat (s : State) (p : Nat) (f : MatQueue → MatQueue) (k : Nat) : scriptOf (modMat s p f) k = scriptOf s k := rfl
@[simp] theorem portOf_modMat (s : State) (p : Nat) (f : MatQueue → MatQueue) (k : Nat) : portOf (modMat s p f) k = portOf s k := rfl
@[simp] theorem cxeOf_modMat (s : State) (p : Nat) (f : MatQueue → MatQueue) (k : Nat) : cxeOf (modMat s p f) k = cxeOf s k := rfl
@[simp] theorem sxeOf_modMat (s : State) (p : Nat) (f : MatQueue → MatQueue) (k : Nat) : sxeOf (modMat s p f) k = sxeOf s k := rfl
@[simp] theorem mgmtGet_modMat (s : State) (p : Nat) (f : MatQueue → MatQueue) (k : Nat) : mgmtGet (modMat s p f) k = mgmtGet s k := rfl
@[simp] theorem gangOf_send (s : State) (m : Msg) (k : Nat) : gangOf (send s m) k = gangOf s k := rfl
@[simp] theorem teamOf_send (s : State) (m : Msg) (k : Nat) : teamOf (send s m) k = teamOf s k := rfl
@[simp] theorem coreOf_send (s : State) (m : Msg) (k : Nat) : coreOf (send s m) k = coreOf s k := rfl
@[simp] theorem dieOf_send (s : State) (m : Msg) (k : Nat) : dieOf (send s m) k = dieOf s k := rfl
@[simp] theorem islandOf_send (s : State) (m : Msg) (k : Nat) : islandOf (send s m) k = islandOf s k := rfl
@[simp] theorem queueOf_send (s : State) (m : Msg) (k : Nat) : queueOf (send s m) k = queueOf s k := rfl
@[simp] theorem scriptOf_send (s : State) (m : Msg) (k : Nat) : scriptOf (send s m) k = scriptOf s k := rfl
@[simp] theorem portOf_send (s : State) (m : Msg) (k : Nat) : portOf (send s m) k = portOf s k := rfl
@[simp] theorem cxeOf_send (s : State) (m : Msg) (k : Nat) : cxeOf (send s m) k = cxeOf s k := rfl
@[simp] theorem sxeOf_send (s : State) (m : Msg) (k : Nat) : sxeOf (send s m) k = sxeOf s k := rfl
@[simp] theorem matOf_send (s : State) (m : Msg) (k : Nat) : matOf (send s m) k = matOf s k := rfl
@[simp] theorem mgmtGet_send (s : State) (m : Msg) (k : Nat) : mgmtGet (send s m) k = mgmtGet s k := rfl
@[simp] theorem gangOf_toHost (s : State) (m : Msg) (k : Nat) : gangOf (toHost s m) k = gangOf s k := rfl
@[simp] theorem teamOf_toHost (s : State) (m : Msg) (k : Nat) : teamOf (toHost s m) k = teamOf s k := rfl
@[simp] theorem coreOf_toHost (s : State) (m : Msg) (k : Nat) : coreOf (toHost s m) k = coreOf s k := rfl
@[simp] theorem dieOf_toHost (s : State) (m : Msg) (k : Nat) : dieOf (toHost s m) k = dieOf s k := rfl
@[simp] theorem islandOf_toHost (s : State) (m : Msg) (k : Nat) : islandOf (toHost s m) k = islandOf s k := rfl
@[simp] theorem queueOf_toHost (s : State) (m : Msg) (k : Nat) : queueOf (toHost s m) k = queueOf s k := rfl
@[simp] theorem scriptOf_toHost (s : State) (m : Msg) (k : Nat) : scriptOf (toHost s m) k = scriptOf s k := rfl
@[simp] theorem portOf_toHost (s : State) (m : Msg) (k : Nat) : portOf (toHost s m) k = portOf s k := rfl
@[simp] theorem cxeOf_toHost (s : State) (m : Msg) (k : Nat) : cxeOf (toHost s m) k = cxeOf s k := rfl
@[simp] theorem sxeOf_toHost (s : State) (m : Msg) (k : Nat) : sxeOf (toHost s m) k = sxeOf s k := rfl
@[simp] theorem matOf_toHost (s : State) (m : Msg) (k : Nat) : matOf (toHost s m) k = matOf s k := rfl
@[simp] theorem mgmtGet_toHost (s : State) (m : Msg) (k : Nat) : mgmtGet (toHost s m) k = mgmtGet s k := rfl
@[simp] theorem gangOf_mgmtPut (s : State) (off : Nat) (w : Word) (k : Nat) : gangOf (mgmtPut s off w) k = gangOf s k := rfl
@[simp] theorem teamOf_mgmtPut (s : State) (off : Nat) (w : Word) (k : Nat) : teamOf (mgmtPut s off w) k = teamOf s k := rfl
@[simp] theorem coreOf_mgmtPut (s : State) (off : Nat) (w : Word) (k : Nat) : coreOf (mgmtPut s off w) k = coreOf s k := rfl
@[simp] theorem dieOf_mgmtPut (s : State) (off : Nat) (w : Word) (k : Nat) : dieOf (mgmtPut s off w) k = dieOf s k := rfl
@[simp] theorem islandOf_mgmtPut (s : State) (off : Nat) (w : Word) (k : Nat) : islandOf (mgmtPut s off w) k = islandOf s k := rfl
@[simp] theorem queueOf_mgmtPut (s : State) (off : Nat) (w : Word) (k : Nat) : queueOf (mgmtPut s off w) k = queueOf s k := rfl
@[simp] theorem scriptOf_mgmtPut (s : State) (off : Nat) (w : Word) (k : Nat) : scriptOf (mgmtPut s off w) k = scriptOf s k := rfl
@[simp] theorem portOf_mgmtPut (s : State) (off : Nat) (w : Word) (k : Nat) : portOf (mgmtPut s off w) k = portOf s k := rfl
@[simp] theorem cxeOf_mgmtPut (s : State) (off : Nat) (w : Word) (k : Nat) : cxeOf (mgmtPut s off w) k = cxeOf s k := rfl
@[simp] theorem sxeOf_mgmtPut (s : State) (off : Nat) (w : Word) (k : Nat) : sxeOf (mgmtPut s off w) k = sxeOf s k := rfl
@[simp] theorem matOf_mgmtPut (s : State) (off : Nat) (w : Word) (k : Nat) : matOf (mgmtPut s off w) k = matOf s k := rfl
@[simp] theorem gangOf_mgmtAdd (s : State) (off n : Nat) (k : Nat) : gangOf (mgmtAdd s off n) k = gangOf s k := rfl
@[simp] theorem teamOf_mgmtAdd (s : State) (off n : Nat) (k : Nat) : teamOf (mgmtAdd s off n) k = teamOf s k := rfl
@[simp] theorem coreOf_mgmtAdd (s : State) (off n : Nat) (k : Nat) : coreOf (mgmtAdd s off n) k = coreOf s k := rfl
@[simp] theorem dieOf_mgmtAdd (s : State) (off n : Nat) (k : Nat) : dieOf (mgmtAdd s off n) k = dieOf s k := rfl
@[simp] theorem islandOf_mgmtAdd (s : State) (off n : Nat) (k : Nat) : islandOf (mgmtAdd s off n) k = islandOf s k := rfl
@[simp] theorem queueOf_mgmtAdd (s : State) (off n : Nat) (k : Nat) : queueOf (mgmtAdd s off n) k = queueOf s k := rfl
@[simp] theorem scriptOf_mgmtAdd (s : State) (off n : Nat) (k : Nat) : scriptOf (mgmtAdd s off n) k = scriptOf s k := rfl
@[simp] theorem portOf_mgmtAdd (s : State) (off n : Nat) (k : Nat) : portOf (mgmtAdd s off n) k = portOf s k := rfl
@[simp] theorem cxeOf_mgmtAdd (s : State) (off n : Nat) (k : Nat) : cxeOf (mgmtAdd s off n) k = cxeOf s k := rfl
@[simp] theorem sxeOf_mgmtAdd (s : State) (off n : Nat) (k : Nat) : sxeOf (mgmtAdd s off n) k = sxeOf s k := rfl
@[simp] theorem matOf_mgmtAdd (s : State) (off n : Nat) (k : Nat) : matOf (mgmtAdd s off n) k = matOf s k := rfl

@[simp] theorem mgmtGet_mgmtPut_same (s : State) (off : Nat) (w : Word) : mgmtGet (mgmtPut s off w) off = w := by
  simp [mgmtGet, mgmtPut]

theorem mgmtGet_mgmtPut_other (s : State) {o off : Nat} (w : Word) (e : o ≠ off) :
    mgmtGet (mgmtPut s off w) o = mgmtGet s o := by
  simp [mgmtGet, mgmtPut, SMap.getD, SMap.putD]
  split
  · rw [SMap.find_erase_other _ e]
  · rw [SMap.find_put_other _ _ e]

@[simp] theorem vGet_vPut_same (G : Gang) (r l : Nat) (w : Word) : vGet (vPut G r l w) r l = w := by
  simp [vGet, vPut]

theorem vGet_vPut_other (G : Gang) {r l q m : Nat} (w : Word) (e : vKey q m ≠ vKey r l) : vGet (vPut G r l w) q m = vGet G q m := by
  simp [vGet, vPut, SMap.getD_putD_other _ _ _ e]

@[simp] theorem sGet_sPut_same (G : Gang) (r : Nat) (w : Word) : sGet (sPut G r w) r = w := by
  simp [sGet, sPut]

theorem sGet_sPut_other (G : Gang) {r q : Nat} (w : Word) (e : q ≠ r) : sGet (sPut G r w) q = sGet G q := by
  simp [sGet, sPut, SMap.getD_putD_other _ _ _ e]

@[simp] theorem srGet_srPut_same (G : Gang) (n : Nat) (w : Word) : srGet (srPut G n w) n = w := by
  simp [srGet, srPut]

theorem srGet_srPut_other (G : Gang) {n m : Nat} (w : Word) (e : m ≠ n) : srGet (srPut G n w) m = srGet G m := by
  simp [srGet, srPut, SMap.getD_putD_other _ _ _ e]

@[simp] theorem qGet_qPut_same (G : Gang) (l q e : Nat) (w : W32) : qGet (qPut G l q e w) l q e = w := by
  simp [qGet, qPut]

end Sys2Proof.Machine
end

