-- ==== Sys2Proof/Laws/Course.lean ====
section
/-!
SUPPORT. What the shared operations of issuing change: payment, events, counting, loops and the fall-through.
-/
namespace Sys2Proof.Machine

theorem issueOf_self (G : Gang) : issueOf G G = G := rfl

/-- What issuing may change is taken from the second gang alone. -/
theorem issueOf_issueOf (G H K : Gang) : issueOf (issueOf G H) K = issueOf G K := rfl

theorem SameRegs.refl (G : Gang) : SameRegs G G := ⟨rfl, fun _ _ => rfl⟩

theorem SameRegs.trans {G H K : Gang} (a : SameRegs G H) (b : SameRegs H K) : SameRegs G K :=
  ⟨by have h := b.rest; rw [a.rest, issueOf_issueOf] at h; exact h, fun n h => (b.sreg n h).trans (a.sreg n h)⟩

theorem SameRegs.v {G H : Gang} (h : SameRegs G H) : H.v = G.v := (congrArg Gang.v h.rest).trans rfl
theorem SameRegs.s {G H : Gang} (h : SameRegs G H) : H.sr = G.sr := (congrArg Gang.sr h.rest).trans rfl
theorem SameRegs.p {G H : Gang} (h : SameRegs G H) : H.p = G.p := (congrArg Gang.p h.rest).trans rfl
theorem SameRegs.q {G H : Gang} (h : SameRegs G H) : H.q = G.q := (congrArg Gang.q h.rest).trans rfl
theorem SameRegs.storeQ {G H : Gang} (h : SameRegs G H) : H.storeQ = G.storeQ := (congrArg Gang.storeQ h.rest).trans rfl
theorem SameRegs.core {G H : Gang} (h : SameRegs G H) : H.core = G.core := (congrArg Gang.core h.rest).trans rfl

theorem Kept.refl (s : State) : Kept s s := rfl
theorem Kept.trans {s t u : State} (a : Kept s t) (b : Kept t u) : Kept s u := by
  unfold Kept at a b ⊢; rw [a] at b; exact b
theorem Kept.mem {s t : State} (h : Kept s t) : t.mem = s.mem := (congrArg State.mem h).trans rfl
theorem Kept.spad {s t : State} (h : Kept s t) : t.spad = s.spad := (congrArg State.spad h).trans rfl

theorem SameUnits.refl (C : Core) : SameUnits C C := rfl
theorem SameUnits.trans {C D E : Core} (a : SameUnits C D) (b : SameUnits D E) : SameUnits C E := by
  unfold SameUnits at a b ⊢; rw [a] at b; exact b
theorem SameTeam.refl (T : Team) : SameTeam T T := rfl
theorem SameTeam.trans {T U V : Team} (a : SameTeam T U) (b : SameTeam U V) : SameTeam T V := by
  unfold SameTeam at a b ⊢; rw [a] at b; exact b

theorem Quiet.refl (s : State) : Quiet s s :=
  ⟨.refl s, fun _ => .refl _, fun _ => .refl _, fun _ => rfl, fun _ => .refl _⟩

theorem Quiet.trans {s t u : State} (a : Quiet s t) (b : Quiet t u) : Quiet s u :=
  ⟨a.kept.trans b.kept, fun h => (a.regs h).trans (b.regs h), fun k => (a.units k).trans (b.units k),
    fun k => (b.sli k).trans (a.sli k), fun k => (a.teams k).trans (b.teams k)⟩

theorem Quiet.mem {s t : State} (h : Quiet s t) : t.mem = s.mem := h.kept.mem
theorem Quiet.spad {s t : State} (h : Quiet s t) : t.spad = s.spad := h.kept.spad

/-- A state whose gangs, cores and teams are the same is quiet. -/
theorem Quiet.of_eq {s t : State} (g : t.gangs = s.gangs) (c : t.cores = s.cores) (m : t.teams = s.teams) (k : Kept s t) :
    Quiet s t :=
  ⟨k, fun h => by simp only [gangOf, g]; exact .refl _, fun _ => by simp only [coreOf, c],
    fun _ => by simp only [coreOf, c], fun _ => by simp only [teamOf, m]⟩

theorem Quiet.of_setGang (s : State) (g : Nat) {G : Gang} (h : SameRegs (gangOf s g) G) : Quiet s (setGang s g G) := by
  refine ⟨rfl, fun k => ?_, fun _ => .refl _, fun _ => rfl, fun _ => .refl _⟩
  by_cases e : k = g
  · subst e; simpa using h
  · rw [gangOf_setGang_other s G e]; exact SameRegs.refl _

theorem Quiet.of_modGang (s : State) (g : Nat) {f : Gang → Gang} (h : SameRegs (gangOf s g) (f (gangOf s g))) :
    Quiet s (modGang s g f) := Quiet.of_setGang s g h

theorem Quiet.of_modCore (s : State) (c : Nat) {f : Core → Core} (h : SameUnits (coreOf s c) (f (coreOf s c)))
    (b : (f (coreOf s c)).sliBusy = (coreOf s c).sliBusy) : Quiet s (modCore s c f) := by
  refine ⟨rfl, fun k => .refl _, fun k => ?_, fun k => ?_, fun _ => .refl _⟩
  all_goals by_cases e : k = c
  · subst e; simpa using h
  · rw [coreOf_modCore_other s f e]
  · subst e; simpa using b
  · rw [coreOf_modCore_other s f e]

theorem Quiet.of_modTeam (s : State) (c : Nat) {f : Team → Team} (h : SameTeam (teamOf s c) (f (teamOf s c))) :
    Quiet s (modTeam s c f) := by
  refine ⟨rfl, fun k => .refl _, fun k => .refl _, fun k => rfl, fun k => ?_⟩
  by_cases e : k = c
  · subst e; simpa using h
  · rw [teamOf_modTeam_other s f e]

theorem Quiet.of_toHost (s : State) (m : Msg) : Quiet s (toHost s m) := .of_eq rfl rfl rfl rfl
theorem Quiet.of_mgmtAdd (s : State) (o n : Nat) : Quiet s (mgmtAdd s o n) := .of_eq rfl rfl rfl rfl

/-- A fold ends related to where it starts, when each of its steps does so in a relation that is a preorder. -/
theorem fold_within {α β : Type} {R : α → α → Prop} (refl : ∀ a, R a a) (tr : ∀ {a b c}, R a b → R b c → R a c)
    {f : α → β → α} (l : List β) (h : ∀ a, ∀ b ∈ l, R a (f a b)) (a : α) : R a (l.foldl f a) :=
  List.foldlRecOn l f (refl a) fun x hx b hb => tr hx (h x b hb)

theorem Quiet.of_pmcCount (s : State) (c code n : Nat) : Quiet s (pmcCount s c code n) := by
  refine fold_within Quiet.refl Quiet.trans _ (fun s i _ => ?_) s
  dsimp only
  split
  · exact Quiet.of_mgmtAdd _ _ _
  · exact Quiet.refl _

/-! ## Bookkeeping before an instruction counts -/

/-- Quiet, and neither the issuing run nor the gang's latches and CAVE.COUNT have changed. -/
structure Still (g : Nat) (s t : State) : Prop where
  quiet : Quiet s t
  cur : t.cur = s.cur
  cave : srGet (gangOf t g) rCave = srGet (gangOf s g) rCave
  latch : (gangOf t g).x = (gangOf s g).x

theorem Still.refl (g : Nat) (s : State) : Still g s s := ⟨Quiet.refl s, rfl, rfl, rfl⟩

theorem Still.trans {g : Nat} {s t u : State} (a : Still g s t) (b : Still g t u) : Still g s u :=
  ⟨a.quiet.trans b.quiet, b.cur.trans a.cur, b.cave.trans a.cave, b.latch.trans a.latch⟩

theorem Still.of_eq {g : Nat} {s t : State} (h : t.gangs = s.gangs) (d : t.cores = s.cores) (m : t.teams = s.teams)
    (k : Kept s t) (c : t.cur = s.cur) : Still g s t :=
  ⟨.of_eq h d m k, c, by simp only [gangOf, h], by simp only [gangOf, h]⟩

theorem Still.of_modCore (g : Nat) (s : State) (c : Nat) {f : Core → Core} (h : SameUnits (coreOf s c) (f (coreOf s c)))
    (b : (f (coreOf s c)).sliBusy = (coreOf s c).sliBusy) : Still g s (modCore s c f) := ⟨.of_modCore s c h b, rfl, rfl, rfl⟩
theorem Still.of_modTeam (g : Nat) (s : State) (c : Nat) {f : Team → Team} (h : SameTeam (teamOf s c) (f (teamOf s c))) :
    Still g s (modTeam s c f) := ⟨.of_modTeam s c h, rfl, rfl, rfl⟩
theorem Still.of_toHost (g : Nat) (s : State) (m : Msg) : Still g s (toHost s m) := .of_eq rfl rfl rfl rfl rfl

theorem Still.of_pmcCount (g : Nat) (s : State) (c code n : Nat) : Still g s (pmcCount s c code n) := by
  refine fold_within (Still.refl g) Still.trans _ (fun s i _ => ?_) s
  dsimp only
  split
  · exact .of_eq rfl rfl rfl rfl rfl
  · exact Still.refl _ _

/-- Same registers, latches and CAVE.COUNT. -/
structure SameCount (G H : Gang) : Prop where
  regs : SameRegs G H
  cave : srGet H rCave = srGet G rCave
  latch : H.x = G.x

theorem SameCount.refl (G : Gang) : SameCount G G := ⟨SameRegs.refl G, rfl, rfl⟩

theorem SameCount.trans {G H K : Gang} (a : SameCount G H) (b : SameCount H K) : SameCount G K :=
  ⟨a.regs.trans b.regs, b.cave.trans a.cave, b.latch.trans a.latch⟩

/-- A gang is written that holds the same registers. -/
theorem Still.of_setGang (g : Nat) (s : State) (k : Nat) {G : Gang} (h : SameRegs (gangOf s k) G)
    (c : g = k → SameCount (gangOf s k) G) : Still g s (setGang s k G) := by
  refine ⟨Quiet.of_setGang s k h, rfl, ?_, ?_⟩
  · by_cases e : g = k
    · have := c e; subst e; simpa using this.cave
    · rw [gangOf_setGang_other s G e]
  · by_cases e : g = k
    · have := c e; subst e; simpa using this.latch
    · rw [gangOf_setGang_other s G e]

theorem Still.sameGang (g : Nat) (s : State) (k : Nat) {f : Gang → Gang} (h : SameCount (gangOf s k) (f (gangOf s k))) :
    Still g s (modGang s k f) := Still.of_setGang g s k h.regs fun _ => h

theorem sameRegs_srPut (G : Gang) (n : Nat) (w : Word) (h : issueReg n = true) : SameRegs G (srPut G n w) :=
  ⟨rfl, fun m hm => srGet_srPut_other G w (by intro e; subst e; simp_all)⟩

/-- The event classes' controls are no registers of issuing, so quiet states agree on what traps. -/
theorem NoEventTraps.of_regs {G H : Gang} (h : SameRegs G H) (n : NoEventTraps G) : NoEventTraps H := by
  intro e he
  have : issueReg (rEvt e) = false := by interval_cases e <;> rfl
  rw [h.sreg _ this]
  exact n e he

/-! ## Payment (R265, R268) -/

theorem sameRegs_tokens (G : Gang) (a b : Word) : SameRegs G (srPut (srPut G rTokPrice a) rTokSpent b) :=
  (sameRegs_srPut _ _ _ rfl).trans (sameRegs_srPut _ _ _ rfl)

theorem sameCount_tokens (G : Gang) (a b : Word) : SameCount G (srPut (srPut G rTokPrice a) rTokSpent b) :=
  ⟨sameRegs_tokens G a b, by rw [srGet_srPut_other _ _ (by decide), srGet_srPut_other _ _ (by decide)], rfl⟩

theorem spendTokens_still (s : State) (g price n : Nat) : Still g s (spendTokens s g price n) := by
  unfold spendTokens
  exact (Still.of_modCore _ _ _ rfl rfl).trans (Still.sameGang _ _ _ (sameCount_tokens _ _ _))

/-- A payment changes the station and the gang's token registers alone. -/
theorem payTokens_still {s t : State} {g price : Nat} {credit : Bool} (h : payTokens s g price credit = some t) :
    Still g s t := by
  unfold payTokens at h
  split at h
  · cases h; exact Still.refl _ _
  · obtain ⟨n, -, rfl⟩ := Option.map_eq_some_iff.mp h
    exact spendTokens_still _ _ _ _

/-- A station that owes nothing and holds the price is paid at once. -/
theorem payTokens_some {s : State} {g price : Nat} (credit : Bool) (h : CanPay s g price) :
    ∃ t, payTokens s g price credit = some t := by
  have due : tokensDue (coreOf s (gangOf s g).core) g price credit = some price := by
    cases credit <;> simp [tokensDue, h.1, h.2]
  unfold payTokens
  split
  · exact ⟨_, rfl⟩
  · exact ⟨_, by rw [due]; rfl⟩

/-! ## Events (R82, R83) -/

theorem sameCount_addClass (G : Gang) (evs : List (Evt × Nat)) (e : Nat) (he : e < 9) :
    SameCount G (addClass G evs e).1 := by
  unfold addClass
  dsimp only
  split
  · exact SameCount.refl _
  · refine ⟨sameRegs_srPut _ _ _ ?_, srGet_srPut_other _ _ ?_, rfl⟩
    · interval_cases e <;> rfl
    · simp only [rCave, rEvtCnt]; omega

theorem addClass_act (G : Gang) (evs : List (Evt × Nat)) (e : Nat) (h : NoEventTraps G) (he : e < 9) :
    (addClass G evs e).2.2 ≠ 1 := by
  unfold addClass
  dsimp only
  split
  · simp
  · exact h e he

/-- What adding the events of one class leaves: bookkeeping, and a lane that traps only where a class of the gang traps. -/
theorem addOne_still (g : Nat) (evs : List (Evt × Nat)) (pc tl : Word) (acc : State × Option Nat) (e : Nat) (he : e < 9) :
    Still g acc.1 (addOne g evs pc tl acc e).1 ∧ (NoEventTraps (gangOf acc.1 g) → (addOne g evs pc tl acc e).2 = acc.2) := by
  have put : Still g acc.1 (if countEvt evs e == 0 then acc.1 else setGang acc.1 g (addClass (gangOf acc.1 g) evs e).1) := by
    have hc := sameCount_addClass (gangOf acc.1 g) evs e he
    split
    · exact .refl _ _
    · exact .of_setGang g _ g hc.regs fun _ => hc
  unfold addOne
  dsimp only
  split
  · exact ⟨put.trans (.of_toHost _ _ _), fun _ => rfl⟩
  · split
    · rename_i act
      exact ⟨put, fun q => absurd (by simp_all) (addClass_act (gangOf acc.1 g) evs e q he)⟩
    · exact ⟨put, fun _ => rfl⟩

/-- Adding events is bookkeeping; where no class traps, nothing crosses into a trap. -/
theorem addEvents_still (s : State) (g : Nat) (evs : List (Evt × Nat)) (pc tl : Word) :
    Still g s (addEvents s g evs pc tl).1 ∧ (NoEventTraps (gangOf s g) → (addEvents s g evs pc tl).2 = none) := by
  refine List.foldlRecOn (motive := fun acc : State × Option Nat =>
    Still g s acc.1 ∧ (NoEventTraps (gangOf s g) → acc.2 = none))
    (List.range 9) (addOne g evs pc tl) ⟨.refl g s, fun _ => rfl⟩ fun acc hacc e he => ?_
  have one := addOne_still g evs pc tl acc e (by simpa using he)
  exact ⟨hacc.1.trans one.1, fun q => (one.2 (.of_regs (hacc.1.quiet.regs g) q)).trans (hacc.2 q)⟩

/-! ## Loops (R257) -/

theorem SameCount.loopPut (G : Gang) (n : Nat) (w : Word) (h : loopReg n = true) : SameCount G (srPut G n w) := by
  refine ⟨sameRegs_srPut G n w (by simp [issueReg, h]), srGet_srPut_other G w ?_, rfl⟩
  rintro rfl; exact absurd h (by decide)

/-- A gang that differs in none of its registers. -/
theorem SameCount.of_eq {G H : Gang} (a : H = issueOf G H) (e : H.sreg = G.sreg) (f : H.x = G.x) : SameCount G H :=
  ⟨⟨a, fun n _ => by simp only [srGet, e]⟩, by simp only [srGet, e], f⟩

theorem SameCount.of_modThreads (G : Gang) (m : W32) (f : Thread → Thread) : SameCount G (modThreads G m f) :=
  .of_eq rfl rfl rfl

theorem sameCount_endAction (G : Gang) (fuel : Nat) : SameCount G (endAction G fuel) := by
  induction fuel generalizing G with
  | zero => exact .refl G
  | succ n ih =>
    unfold endAction
    dsimp only
    have lp : ∀ (G : Gang) (n : Nat) (w : Word), loopReg n = true → SameCount G (srPut G n w) := SameCount.loopPut
    split
    · exact .refl G
    split
    · exact (lp _ _ _ rfl).trans (.of_modThreads _ _ _)
    split
    · have a := ((((((SameCount.of_modThreads G (loopSet G) fun t => { t with held := false }).trans
        (lp _ rLoopCount (srGet (modThreads G (loopSet G) fun t => { t with held := false }) rLoopCount1) rfl)).trans
        (lp _ rLoopStart (srGet (modThreads G (loopSet G) fun t => { t with held := false }) rLoopStart1) rfl)).trans
        (lp _ rLoopEnd (srGet (modThreads G (loopSet G) fun t => { t with held := false }) rLoopEnd1) rfl)).trans
        (lp _ rLoopCount1 0 rfl)).trans (lp _ rLoopStart1 0 rfl)).trans ((lp _ rLoopEnd1 0 rfl).trans (lp _ rLoopDepth 1 rfl))
      split
      · exact (a.trans (.of_modThreads _ _ _)).trans (ih _)
      · exact a.trans (ih _)
    · exact ((((SameCount.of_modThreads _ _ _).trans (lp _ rLoopCount 0 rfl)).trans (lp _ rLoopStart 0 rfl)).trans
        (lp _ rLoopEnd 0 rfl)).trans (lp _ rLoopDepth 0 rfl)

theorem sameCount_loopSettle (G : Gang) : SameCount G (loopSettle G) := by
  unfold loopSettle
  split
  · refine SameCount.trans ?_ (sameCount_endAction _ _)
    exact .of_eq rfl rfl rfl
  · exact .refl G

theorem sameCount_loopArrive (G : Gang) (run : W32) (pc fall : Word) : SameCount G (loopArrive G run pc fall) := by
  unfold loopArrive
  split
  · exact .refl G
  · exact (SameCount.of_modThreads _ _ _).trans (sameCount_loopSettle _)

theorem sameCount_loopDrop (G : Gang) (m : W32) : SameCount G (loopDrop G m) := by
  unfold loopDrop
  split
  · exact .refl G
  · dsimp only
    refine SameCount.trans ?_ (sameCount_loopSettle _)
    have a := SameCount.loopPut G rLoopCount (loopWord (loopSet G &&& ~~~m) (loopCnt G)) rfl
    split
    · exact a.trans (SameCount.loopPut _ _ _ rfl)
    · exact a

theorem sameCount_loopLeave (G : Gang) (m : W32) : SameCount G (loopLeave G m) := by
  unfold loopLeave
  split
  · exact .refl G
  · exact sameCount_loopDrop _ _

theorem sameCount_branchTo (G : Gang) (m : W32) (target : Word) (leave : Bool) : SameCount G (branchTo G m target leave) := by
  unfold branchTo
  dsimp only
  split
  · exact (SameCount.of_modThreads _ _ _).trans (sameCount_loopLeave _ _)
  · exact SameCount.of_modThreads _ _ _

/-! ## Counting (R82, R390) -/

theorem sameCount_stepWindow (G : Gang) (e : Nat) (he : e < 9) : SameCount G (stepWindow G e) := by
  unfold stepWindow
  dsimp only
  split
  · refine (SameCount.of_eq (G := G) (H := { G with winPos := SMap.putD G.winPos 0 e 0 }) rfl rfl rfl).trans ?_
    exact ⟨sameRegs_srPut _ _ _ (by interval_cases e <;> rfl), srGet_srPut_other _ _ (by interval_cases e <;> decide), rfl⟩
  · exact .of_eq rfl rfl rfl

theorem sameCount_windows (G : Gang) : SameCount G ((List.range 9).foldl stepWindow G) :=
  fold_within SameCount.refl SameCount.trans _ (fun a b hb => sameCount_stepWindow a b (by simpa using hb)) G

theorem sameCount_countTurn (G : Gang) (run : W32) : SameCount G (countTurn G run) := by
  unfold countTurn
  dsimp only
  split
  · exact .of_eq rfl rfl rfl
  · split <;> exact .of_eq rfl rfl rfl

/-- An issued instruction is counted: bookkeeping, one more in CAVE.COUNT, and the run has issued. -/
theorem countIssue_spec (s : State) (c : Issue) : Issued s (countIssue s c) c := by
  have h1 := sameCount_windows (gangOf s c.g)
  have hg : ∀ (s : State) (G : Gang), gangOf (modCore (modTeam (setGang s c.g G) (teamKey c.g) fun T => { T with issued := T.issued + 1 })
      G.core fun C => { C with sliceN := C.sliceN + 1, sliceAt := cyclesOf (modTeam (setGang s c.g G) (teamKey c.g) fun T =>
        { T with issued := T.issued + 1 }) G.core }) c.g = G := fun s G => by simp
  let G1 := (List.range 9).foldl stepWindow (gangOf s c.g)
  let G2 := srPut G1 rCave (srGet G1 rCave + 1)
  let G3 := countTurn { G2 with issuedN := G2.issuedN + 1, idle := 0, overdue := false, lastPc := c.pc, stopPc := none } c.run
  have h2 : SameRegs G1 G2 := sameRegs_srPut _ _ _ rfl
  have h3 : SameCount G2 G3 :=
    (SameCount.of_eq (G := G2) (H := { G2 with issuedN := G2.issuedN + 1, idle := 0, overdue := false, lastPc := c.pc, stopPc := none })
      rfl rfl rfl).trans (sameCount_countTurn _ _)
  have hx : G3.x = (gangOf s c.g).x := by rw [h3.latch]; exact h1.latch
  have hq : Quiet s (setGang s c.g G3) := Quiet.of_setGang s c.g ((h1.regs.trans h2).trans h3.regs)
  have hc : srGet G3 rCave = srGet (gangOf s c.g) rCave + 1 := by
    rw [h3.cave]; simp only [G2, srGet_srPut_same]; rw [h1.cave]
  have hs : Still c.g (setGang s c.g G3) (pmcCount (modCore (modTeam (setGang s c.g G3) (teamKey c.g) fun T =>
      { T with issued := T.issued + 1 }) G3.core fun C => { C with sliceN := C.sliceN + 1, sliceAt := cyclesOf (modTeam
        (setGang s c.g G3) (teamKey c.g) fun T => { T with issued := T.issued + 1 }) G3.core }) G3.core 0 1) :=
    ((Still.of_modTeam _ _ _ rfl).trans (Still.of_modCore _ _ _ rfl rfl)).trans (Still.of_pmcCount _ _ _ _ _)
  refine ⟨(hq.trans hs.quiet).trans (.of_eq rfl rfl rfl rfl), ⟨?_, _, rfl⟩, ?_⟩
  · have h5 := hs.cave
    rw [gangOf_setGang_same, hc] at h5
    exact h5
  · have h5 := hs.latch
    rw [gangOf_setGang_same, hx] at h5
    exact h5

theorem Issued.after {s t u : State} {c : Issue} (a : Still c.g s t) (b : Issued t u c) : Issued s u c :=
  ⟨a.quiet.trans b.quiet, ⟨by rw [b.ret.cave, a.cave], b.ret.cur⟩, b.latch.trans a.latch⟩

theorem Issued.then {s t u : State} {c : Issue} (a : Issued s t c) (b : Still c.g t u) : Issued s u c :=
  ⟨a.quiet.trans b.quiet, ⟨by rw [b.cave, a.ret.cave], a.ret.cur.imp fun _ h => b.cur.trans h⟩, b.latch.trans a.latch⟩

theorem retire_spec (s : State) (c : Issue) (fall : Word) : Issued s (retire s c fall) c := by
  unfold retire
  exact (countIssue_spec s c).then (Still.sameGang _ _ _ (sameCount_loopArrive _ _ _ _))

theorem fallThrough_spec (s : State) (c : Issue) (len : Nat) : Issued s (fallThrough s c len) c := by
  unfold fallThrough
  exact Issued.after (Still.sameGang _ _ _ (SameCount.of_modThreads _ _ _)) (retire_spec _ c _)

/-- The end of an instruction with events, where no class traps. -/
theorem fallEvents_spec (s : State) (c : Issue) (len : Nat) (evs : List (Evt × Nat)) (q : NoEventTraps (gangOf s c.g)) :
    Issued s (fallEvents s c len evs) c := by
  have h := addEvents_still s c.g evs c.pc 0
  unfold fallEvents
  dsimp only
  rw [h.2 q]
  exact Issued.after h.1 (fallThrough_spec _ c len)

theorem addOne_nil (g : Nat) (pc tl : Word) (acc : State × Option Nat) (e : Nat) : addOne g [] pc tl acc e = acc := rfl

theorem addEvents_nil (s : State) (g : Nat) (pc tl : Word) : addEvents s g [] pc tl = (s, none) := by
  have same : addOne g [] pc tl = fun acc _ => acc := funext fun acc => funext (addOne_nil g pc tl acc)
  rw [addEvents, same, List.foldl_fixed]

/-- The end of an instruction without events. -/
theorem fallNone_spec (s : State) (c : Issue) (len : Nat) : Issued s (fallEvents s c len []) c := by
  unfold fallEvents
  simp only [addEvents_nil]
  exact fallThrough_spec _ c len

/-! ## The course of an instruction -/

theorem loseLatches_still (s : State) (g : Nat) : Still g s (loseLatches s g) := by
  unfold loseLatches
  dsimp only
  refine fold_within (Still.refl g) Still.trans _ (fun s k hk => ?_) s
  have hne : g ≠ k := by
    simp only [List.mem_map, List.mem_filter, Bool.and_eq_true, bne_iff_ne] at hk
    obtain ⟨e, ⟨_, h⟩, rfl⟩ := hk
    exact fun h2 => h.1.1.1 h2.symm
  refine Still.of_setGang _ _ _ ?_ (fun h => absurd h hne)
  exact ⟨rfl, fun _ _ => rfl⟩

theorem sameCount_nextChain (G : Gang) (c : Issue) (u : LaneUse) : SameCount G (nextChain G c u) := by
  unfold nextChain
  dsimp only
  split <;> exact .of_eq rfl rfl rfl

theorem sameCount_uniChain (G : Gang) (run : W32) (a : Bool) : SameCount G (uniChain G run a) := by
  unfold uniChain
  split
  · exact .refl G
  · split
    · exact .of_eq rfl rfl rfl
    · split <;> exact .of_eq rfl rfl rfl

theorem keepChain_still (s : State) (g : Nat) (es : List (Evt × Nat)) (j : Bool) : Still g s (keepChain s g es j) :=
  Still.sameGang _ _ _ (.of_eq rfl rfl rfl)

/-- An instruction issued with a note of what it has read and written retires as itself. -/
theorem Issued.undo {s t : State} {c : Issue} {d : Option LaneDid} (h : Issued s t { c with did := d }) : Issued s t c :=
  ⟨h.quiet, ⟨h.ret.cave, h.ret.cur⟩, h.latch⟩

/-- The end of a lane-set instruction, where no class traps. -/
theorem laneDone_spec (s : State) (c : Issue) (u : LaneUse) (evs : List (Evt × Nat)) (q : NoEventTraps (gangOf s c.g)) :
    Issued s (laneDone s c u evs) c := by
  have a : ∀ d, Still c.g s (modGang (loseLatches s c.g) c.g fun G => nextChain G { c with did := d } u) := fun d =>
    (loseLatches_still s c.g).trans (Still.sameGang _ _ _ (sameCount_nextChain _ _ _))
  unfold laneDone
  dsimp only
  split
  · exact .after ((a _).trans (keepChain_still _ c.g _ true)) (fallThrough_spec _ { c with did := some u.did } u.len).undo
  · have h := (a (some u.did)).trans (keepChain_still _ c.g [] false)
    exact .after h (fallEvents_spec _ { c with did := some u.did } u.len _ (NoEventTraps.of_regs (h.quiet.regs c.g) q)).undo

end Sys2Proof.Machine
end

