-- ==== Sys2Proof/Laws/Lane.lean ====
section
/-!
SUPPORT. What a lane-set instruction does when nothing holds it up, and what its vector and predicate results write.
-/
namespace Sys2Proof.Machine

/-- A gang's change leaves what issuing looks at: its core and slot, its event controls and its CAVE.COUNT. -/
structure Tame (G H : Gang) : Prop where
  core : H.core = G.core
  slot : H.slot = G.slot
  evt : ∀ e, e < 9 → srGet H (rEvt e) = srGet G (rEvt e)
  cave : srGet H rCave = srGet G rCave

theorem Tame.of_eq {G H : Gang} (a : H.core = G.core) (m : H.slot = G.slot) (b : H.sreg = G.sreg) :
    Tame G H :=
  ⟨a, m, fun _ _ => by simp only [srGet, b], by simp only [srGet, b]⟩

/-- A lane-set instruction that acts in given lanes and whose effect `body` answers `s1`. -/
theorem runLaneOn_next {s s1 : State} {c : Issue} {u : LaneUse} {act zer : W32}
    {body : State → W32 → W32 → Chk (State × List (Evt × Nat))} {evs : List (Evt × Nat)}
    (r : LaneDoes s c u act (act ||| zer) s1) (hb : body s act zer = .ok (s1, evs)) :
    Issued s1 (runLaneOn s c u act zer body) c := by
  obtain ⟨hcur, hchk, hpay, hq⟩ := r
  obtain ⟨t, h1⟩ := payTokens_some u.member hpay
  have h2 := payTokens_still h1
  have h3 := laneDone_spec t c u evs (NoEventTraps.of_regs (h2.quiet.regs c.g) hq)
  have h4 : runLaneOn s c u act zer body = laneDone t c u evs := by
    simp only [runLaneOn, hchk]
    simp only [bind, Except.bind]
    rw [hb]
    simp only [h1]
  rw [h4]
  exact Issued.after h2 h3

/-- A lane-set instruction whose effect `body` answers `s1`, where it can pay and no event class traps. -/
theorem runLane_next {s s1 : State} {c : Issue} {u : LaneUse} {body : Issue → State → W32 → W32 → Chk (State × List (Evt × Nat))}
    {evs : List (Evt × Nat)} (r : LaneReady s c u)
    (hb : body c s (actLanes s c u.lead) (zerLanes s c u.lead) = .ok (s1, evs))
    (hpay : CanPay s1 c.g (lanePrice u.price (actLanes s c u.lead ||| zerLanes s c u.lead)))
    (hq : NoEventTraps (gangOf s1 c.g)) :
    ∃ t, issuing s (fun c => runLane s c u (body c)) = .next t ∧ Issued s1 t c :=
  ⟨_, by simp only [issuing, r.cur]; rfl, runLaneOn_next ⟨r.cur, r.checks, hpay, hq⟩ hb⟩

/-- A tame change of the gang leaves its event controls and its station as they were. -/
theorem Tame.ready {s : State} {c : Issue} {price : Nat} {G : Gang} (ht : Tame (gangOf s c.g) G) (p : CanPay s c.g price)
    (q : NoEventTraps (gangOf s c.g)) :
    CanPay (setGang s c.g G) c.g price ∧ NoEventTraps (gangOf (setGang s c.g G) c.g) := by
  refine ⟨by simpa [CanPay, ht.core] using p, fun e he => ?_⟩
  rw [gangOf_setGang_same, ht.evt e he]
  exact q e he

/-- A lane-set instruction whose effect is on its gang: it retires, and nothing but the effect and the bookkeeping of issuing
differs. -/
theorem laneGang_next {s : State} {c : Issue} {u : LaneUse} {f : Gang → W32 → W32 → Gang × List (Evt × Nat)}
    (r : LaneReady s c u) (ht : Tame (gangOf s c.g) (f (gangOf s c.g) (actLanes s c u.lead) (zerLanes s c u.lead)).1) :
    ∃ t, laneGang s u f = .next t ∧
      Issued (setGang s c.g (f (gangOf s c.g) (actLanes s c u.lead) (zerLanes s c u.lead)).1) t c :=
  runLane_next (evs := (f (gangOf s c.g) (actLanes s c u.lead) (zerLanes s c u.lead)).2)
    (body := fun c s act zer => .ok (setGang s c.g (f (gangOf s c.g) act zer).1, (f (gangOf s c.g) act zer).2)) r rfl
    (ht.ready r.pays r.quiet).1 (ht.ready r.pays r.quiet).2

/-! ## Writing vector registers (R336, R339) -/

/-- What a vector write leaves: every part of a gang but v, the brine, the poison and the late answers. -/
abbrev VecOnly (G H : Gang) : Prop := H = vecOf G H

theorem VecOnly.refl (G : Gang) : VecOnly G G := rfl

theorem VecOnly.trans {G H K : Gang} (a : VecOnly G H) (b : VecOnly H K) : VecOnly G K := by
  unfold VecOnly vecOf at a b ⊢; rw [a] at b; exact b

theorem wrV_rest (G : Gang) (reg lane : Nat) (x : Word) (bits : Nat) : VecOnly G (wrV G reg lane x bits) := by
  unfold wrV
  dsimp only
  refine VecOnly.trans (H := vPut { G with late := G.late.filter fun f => !f.dest.isLane lane reg } reg lane x)
    rfl (fold_within VecOnly.refl VecOnly.trans _ ?_ _)
  exact fun _ _ _ => rfl

theorem wrV_v (G : Gang) (reg lane : Nat) (x : Word) (bits : Nat) : (wrV G reg lane x bits).v = (vPut G reg lane x).v := by
  unfold wrV
  dsimp only
  refine Eq.trans (fold_within (R := fun a b : Gang => b.v = a.v) (fun _ => rfl) (fun a b => b.trans a) _ ?_ _) ?_
  · exact fun _ _ _ => rfl
  · rfl

theorem vGet_wrV_same (G : Gang) (reg lane : Nat) (x : Word) (bits : Nat) : vGet (wrV G reg lane x bits) reg lane = x := by
  simp only [vGet, wrV_v]; exact vGet_vPut_same G reg lane x

theorem vGet_wrV_other (G : Gang) (reg lane : Nat) (x : Word) (bits : Nat) {r l : Nat} (h : vKey r l ≠ vKey reg lane) :
    vGet (wrV G reg lane x bits) r l = vGet G r l := by
  simp only [vGet, wrV_v]; exact vGet_vPut_other G x h

theorem vKey_inj {r l q m : Nat} (hl : l < 32) (hm : m < 32) : vKey r l = vKey q m ↔ r = q ∧ l = m := by
  unfold vKey; omega

/-- What one place holds after a fold whose step for `m` alone writes it, and only where `P` holds. -/
theorem fold_place {γ V : Type} (step : γ → Nat → γ) (get : γ → V) (P : Prop) [Decidable P] (m : Nat) (x : V) (L : List Nat)
    (h : ∀ a, ∀ l ∈ L, get (step a l) = if P ∧ m = l then x else get a) (a : γ) :
    get (L.foldl step a) = if P ∧ m ∈ L then x else get a := by
  induction L using List.reverseRecOn with
  | nil => simp
  | append_singleton done l before =>
    have last := h (done.foldl step a) l (by simp)
    rw [before fun a j hj => h a j (by simp [hj])] at last
    rw [List.foldl_concat, last]
    by_cases p : P <;> by_cases e : m = l <;> simp [p, e]

/-- Writing a register in the lanes of a list. -/
theorem fold_wrV (act zer : W32) (d : Nat) (new : Nat → Word) (a b : Nat) (L : List Nat) (hL : ∀ l ∈ L, l < 32) (G : Gang) :
    let W := L.foldl (fun H l => if hasLane act l then wrV H d l (new l) a
      else if hasLane zer l then wrV H d l (new l) b else H) G
    VecOnly G W ∧
      (∀ r m, m < 32 → vGet W r m = if (r = d ∧ (hasLane act m = true ∨ hasLane zer m = true)) ∧ m ∈ L then new m
        else vGet G r m) := by
  refine ⟨fold_within VecOnly.refl VecOnly.trans L (fun H l _ => ?_) G, fun r m hm => ?_⟩
  · split
    · exact wrV_rest _ _ _ _ _
    · split
      · exact wrV_rest _ _ _ _ _
      · exact .refl H
  · refine fold_place _ (fun H => vGet H r m) _ m (new m) L (fun H l hl => ?_) G
    have wr : ∀ x, vGet (wrV H d l (new l) x) r m = if r = d ∧ m = l then new m else vGet H r m := by
      intro x
      by_cases e : r = d ∧ m = l
      · obtain ⟨rfl, rfl⟩ := e; simp [vGet_wrV_same]
      · rw [if_neg e, vGet_wrV_other]; rw [ne_eq, vKey_inj hm (hL l hl)]; exact e
    by_cases h1 : hasLane act l = true
    · by_cases e : m = l <;> simp_all
    · by_cases h2 : hasLane zer l = true <;> by_cases e : m = l <;> simp_all

/-! ## Vector and predicate results (R6, R27, R35, R98) -/

theorem mem_lanes {l : Nat} : l ∈ lanes ↔ l < 32 := by simp [lanes]

theorem mem_lanesOf {m : W32} {l : Nat} : l ∈ lanesOf m ↔ l < 32 ∧ hasLane m l = true := by
  simp [lanesOf, lanes]

theorem putOuts_eq (G : Gang) (act zer : W32) (d w : Nat) (ks zks : List Nat) (nowb push : Bool) (val : Nat → Nat → Out) {l : Nat} (hl : l < 32) :
    putOuts (laneOuts act ks val) zer w zks (vGet G d l) l = vecNew G act zer ⟨d, w, ks, zks, nowb, push, val⟩ l := by
  have seek : (lanesOf act).find? (fun n => n == l) = if l ∈ lanesOf act then some l else none := by
    cases h : (lanesOf act).find? fun n => n == l with
    | none => simp at h; rw [if_neg fun hm => h l hm rfl]
    | some n =>
      obtain rfl : n = l := by simpa using List.find?_some h
      rw [if_pos (List.mem_of_find?_eq_some h)]
  unfold putOuts laneOuts
  rw [List.find?_map, show ((fun r : Nat × List (Nat × Out) => r.1 == l) ∘ fun l => (l, ks.map fun k => (k, val l k)))
    = fun n => n == l from rfl, seek]
  unfold vecNew
  by_cases h : hasLane act l = true
  · have : l ∈ lanesOf act := mem_lanesOf.mpr ⟨hl, h⟩
    simp [this, h, List.map_map, Function.comp_def]
  · have : l ∉ lanesOf act := fun k => h (mem_lanesOf.mp k).2
    simp [this, h]

theorem writeLanes_spec (G : Gang) (act zer : W32) (d a b : Nat) (new : Nat → Word) :
    VecOnly G (writeLanes G act zer d a b new) ∧
      (∀ r m, m < 32 → vGet (writeLanes G act zer d a b new) r m
        = if r = d ∧ (hasLane act m = true ∨ hasLane zer m = true) then new m else vGet G r m) := by
  have h := fold_wrV act zer d new a b lanes (fun l hl => mem_lanes.mp hl) G
  refine ⟨h.1, fun r m hm => ?_⟩
  rw [writeLanes, h.2 r m hm]
  simp [mem_lanes, hm]

theorem pushLatch_congr (G : Gang) {f h : Nat → Word} (e : ∀ l, l < 32 → f l = h l) : pushLatch G f = pushLatch G h := by
  unfold pushLatch
  have : (lanes.map fun l => (l, f l)) = lanes.map fun l => (l, h l) :=
    List.map_congr_left fun l hl => by rw [e l (mem_lanes.mp hl)]
  rw [this]

/-- The gang after a vector result. -/
structure VecSpec (G H : Gang) (act zer : W32) (r : VecRes) : Prop where
  only : VecOnly { G with x := H.x } H
  wrote : VecWritten G H act zer r

theorem VecSpec.sreg {G H : Gang} {act zer : W32} {r : VecRes} (h : VecSpec G H act zer r) : H.sreg = G.sreg :=
  (congrArg Gang.sreg h.only).trans rfl

theorem VecSpec.tame {G H : Gang} {act zer : W32} {r : VecRes} (h : VecSpec G H act zer r) : Tame G H :=
  .of_eq ((congrArg Gang.core h.only).trans rfl) ((congrArg Gang.slot h.only).trans rfl) h.sreg

theorem vecOf_x {G H : Gang} (h : VecOnly G H) (x : SMap Word) : VecOnly { G with x := x } { H with x := x } := by
  unfold VecOnly vecOf at h ⊢; rw [h]

theorem vecResult_spec (G : Gang) (act zer : W32) (d w : Nat) (ks zks : List Nat) (nowb push : Bool) (val : Nat → Nat → Out) :
    VecSpec G (vecResult G act zer d w ks zks nowb push val).1 act zer ⟨d, w, ks, zks, nowb, push, val⟩ := by
  have hnew : ∀ l, l < 32 → (fun l => putOuts (laneOuts act ks val) zer w zks (vGet G d l) l) l
      = vecNew G act zer ⟨d, w, ks, zks, nowb, push, val⟩ l := fun l hl => putOuts_eq G act zer d w ks zks nowb push val hl
  have hW : ∃ W, W = (if nowb then G else writeLanes G act zer d (bitsOf w ks) (bitsOf w zks)
      (fun l => putOuts (laneOuts act ks val) zer w zks (vGet G d l) l)) ∧ VecOnly G W ∧
      ∀ x l, l < 32 → vGet W x l = if x = d ∧ nowb = false then vecNew G act zer ⟨d, w, ks, zks, nowb, push, val⟩ l
        else vGet G x l := by
    refine ⟨_, rfl, ?_⟩
    cases nowb with
    | true => exact ⟨.refl G, fun r l hl => by simp⟩
    | false =>
      have h := writeLanes_spec G act zer d (bitsOf w ks) (bitsOf w zks)
        (fun l => putOuts (laneOuts act ks val) zer w zks (vGet G d l) l)
      refine ⟨h.1, fun r l hl => ?_⟩
      simp only [Bool.false_eq_true, if_false, and_true]
      rw [h.2 r l hl]
      by_cases e : r = d
      · subst e
        simp only [true_and, if_true]
        rw [putOuts_eq G act zer r w ks zks false push val hl]
        split
        · rfl
        · rename_i n
          simp only [not_or] at n
          simp only [vecNew, n.1, n.2, if_false, Bool.false_eq_true]
      · simp only [e, false_and, if_false]
  obtain ⟨W, e, ho, hv⟩ := hW
  unfold vecResult
  dsimp only
  rw [← e]
  cases push with
  | false => exact ⟨by simpa using vecOf_x ho W.x, ⟨hv, by have hx : W.x = G.x := (congrArg Gang.x ho).trans rfl; simpa using hx⟩⟩
  | true =>
    simp only [if_true]
    refine ⟨vecOf_x ho _, ⟨hv, ?_⟩⟩
    rw [pushLatch_congr _ hnew]
    have hx : W.x = G.x := (congrArg Gang.x ho).trans rfl
    simp only [pushLatch, if_true, hx]

/-! ## Complete lane-set instructions -/

/-- An effect on one gang, then the bookkeeping of issuing. -/
theorem LaneLeft.of_issued {s t : State} {c : Issue} {G : Gang} (h : Issued (setGang s c.g G) t c)
    (ht : Tame (gangOf s c.g) G) : LaneLeft s t c none := by
  have q := h.quiet
  refine ⟨⟨?_, h.ret.cur⟩, Kept.trans (t := setGang s c.g G) rfl q.kept, q.units, q.sli, q.teams, fun k ne => ?_⟩
  · rw [h.ret.cave, gangOf_setGang_same, ht.cave]
  · have := q.regs k; rwa [gangOf_setGang_other s G ne] at this

/-- A vector result and then the bookkeeping of issuing. -/
theorem own_rest {G H K : Gang} (a : VecOnly { G with x := H.x } H) (b : K = issueOf H K) : K = issueOf (vecOf G K) K := by
  unfold VecOnly vecOf at a
  unfold issueOf at b ⊢
  unfold vecOf
  rw [a] at b; rw [b]

/-- A gang whose state registers are the same. -/
theorem RegsLeft.of_eq {G H K : Gang} (h : H.sreg = G.sreg) (r : ∀ n, issueReg n = false → srGet K n = srGet H n) :
    RegsLeft G K 0 := by
  intro n hn
  rw [r n hn]
  simp [srGet, h]

theorem VecDoneOn.of_issued {s t : State} {c : Issue} {G : Gang} {act zer : W32} {r : VecRes} (i : Issued (setGang s c.g G) t c)
    (h : VecSpec (gangOf s c.g) G act zer r) : VecDoneOn s t c act zer r := by
  have hr := i.quiet.regs c.g
  have hx := i.latch
  rw [gangOf_setGang_same] at hr hx
  refine ⟨.of_issued i h.tame, own_rest h.only hr.rest, .of_eq h.sreg hr.sreg, ⟨fun y l hl => ?_, ?_⟩⟩
  · simp only [vGet, hr.v]; exact h.wrote.v y l hl
  · rw [hx, h.wrote.latch]

/-- A lane-set instruction whose effect is a vector result. -/
theorem laneGang_vec {s : State} {c : Issue} {u : LaneUse} {f : Gang → W32 → W32 → Gang × List (Evt × Nat)}
    {lead : Lead} {d w : Nat} {ks zks : List Nat} {nowb push : Bool} {val : Nat → Nat → Out} (r : LaneReady s c u)
    (hl : u.lead = lead)
    (hf : (f (gangOf s c.g) (actLanes s c lead) (zerLanes s c lead)).1
      = (vecResult (gangOf s c.g) (actLanes s c lead) (zerLanes s c lead) d w ks zks nowb push val).1) :
    ∃ t, laneGang s u f = .next t ∧ VecDone s t c lead ⟨d, w, ks, zks, nowb, push, val⟩ := by
  subst hl
  have spec := hf ▸ vecResult_spec (gangOf s c.g) (actLanes s c u.lead) (zerLanes s c u.lead) d w ks zks nowb push val
  obtain ⟨t, h1, h2⟩ := laneGang_next (f := f) r spec.tame
  exact ⟨t, h1, .of_issued h2 spec⟩

/-! ## Predicate results (R98) -/

theorem hasLane_put (m : W32) (b : Bool) {l k : Nat} (hk : k < 32) :
    hasLane (if b then m ||| laneBit l else m &&& ~~~(laneBit l)) k = if k = l then b else hasLane m k := by
  have one : (laneBit l).getLsbD k = decide (k = l) := by
    simp only [laneBit, BitVec.getLsbD_ofNat, Nat.testBit_two_pow, hk, decide_true, Bool.true_and]
    exact decide_eq_decide.mpr eq_comm
  cases b <;> simp only [hasLane, Bool.false_eq_true, if_false, if_true, BitVec.getLsbD_or, BitVec.getLsbD_and,
    BitVec.getLsbD_not, one, hk, decide_true, Bool.true_and]
  all_goals by_cases e : k = l <;> simp [e]

theorem pGet_pPut (G : Gang) (p : Nat) {l k : Nat} (b : Bool) (q : Nat) (hk : k < 32) :
    pGet (pPut G p l b) q k = if q = p ∧ q ≠ 7 ∧ k = l then b else pGet G q k := by
  unfold pPut pGet
  by_cases h7 : p = 7
  · subst h7; by_cases e : q = 7 <;> simp [e]
  · simp only [h7, if_false]
    by_cases e : q = 7
    · simp [e]
    · simp only [e, if_false]
      by_cases e2 : q = p
      · subst e2
        rw [SMap.getD_putD_same, hasLane_put _ _ hk]
        simp [h7]
      · rw [SMap.getD_putD_other _ _ _ e2]; simp [e2]

/-- What a predicate write leaves. -/
abbrev PredOnly (G H : Gang) : Prop := H = { G with p := H.p }

theorem PredOnly.refl (G : Gang) : PredOnly G G := rfl

theorem PredOnly.trans {G H K : Gang} (a : PredOnly G H) (b : PredOnly H K) : PredOnly G K := by
  unfold PredOnly at a b ⊢; rw [a] at b; exact b

theorem pPut_only (G : Gang) (p l : Nat) (b : Bool) : PredOnly G (pPut G p l b) := by
  unfold pPut; split <;> rfl

theorem fold_pPut (p : Nat) (val : Nat → Bool) (L : List Nat) (G : Gang) :
    PredOnly G (L.foldl (fun G l => pPut G p l (val l)) G) ∧ ∀ q k, k < 32 →
      pGet (L.foldl (fun G l => pPut G p l (val l)) G) q k = if (q = p ∧ q ≠ 7) ∧ k ∈ L then val k else pGet G q k := by
  refine ⟨fold_within PredOnly.refl PredOnly.trans L (fun H l _ => pPut_only H p l _) G, fun q k hk => ?_⟩
  refine fold_place _ (fun H => pGet H q k) _ k (val k) L (fun H l _ => ?_) G
  show pGet (pPut H p l (val l)) q k = _
  rw [pGet_pPut H p _ q hk]
  by_cases e : k = l <;> simp [e]

theorem predResult_spec (G : Gang) (act zer : W32) (p : Nat) (val : Nat → Bool × List Evt) :
    PredOnly G (predResult G act zer p val).1 ∧ PredWritten G (predResult G act zer p val).1 act zer p fun l => (val l).1 := by
  unfold predResult
  dsimp only
  simp only [List.foldl_map]
  have h1 := fold_pPut p (fun l => (val l).1) (lanesOf act) G
  have h2 := fold_pPut p (fun _ => false) (lanesOf zer)
    ((lanesOf act).foldl (fun G l => pPut G p l (val l).1) G)
  refine ⟨h1.1.trans h2.1, fun q k hk => ?_⟩
  rw [h2.2 q k hk, h1.2 q k hk]
  simp only [mem_lanesOf, hk, true_and]
  by_cases e : q = p ∧ q ≠ 7
  · obtain ⟨rfl, h7⟩ := e; simp [h7]
  · simp only [e, false_and, if_false]

theorem PredOnly.sreg {G H : Gang} (h : PredOnly G H) : H.sreg = G.sreg := (congrArg Gang.sreg h).trans rfl
theorem PredOnly.tame {G H : Gang} (h : PredOnly G H) : Tame G H :=
  .of_eq ((congrArg Gang.core h).trans rfl) ((congrArg Gang.slot h).trans rfl) ((congrArg Gang.sreg h).trans rfl)

/-- A predicate result and then the bookkeeping of issuing. -/
theorem own_pred {G H K : Gang} (a : PredOnly G H) (b : K = issueOf H K) : K = issueOf { G with p := K.p } K := by
  unfold PredOnly at a
  unfold issueOf at b ⊢
  rw [a] at b; rw [b]

theorem PredDone.of_issued {s t : State} {c : Issue} {G : Gang} {lead : Lead} {pd : Nat} {val : Nat → Bool}
    (i : Issued (setGang s c.g G) t c) (o : PredOnly (gangOf s c.g) G)
    (w : PredWritten (gangOf s c.g) G (actLanes s c lead) (zerLanes s c lead) pd val) : PredDone s t c lead pd val := by
  have hr := i.quiet.regs c.g
  have hx := i.latch
  rw [gangOf_setGang_same] at hr hx
  refine ⟨.of_issued i o.tame, own_pred o hr.rest, .of_eq o.sreg hr.sreg, hx.trans ((congrArg Gang.x o).trans rfl), fun y l hl => ?_⟩
  simp only [pGet, hr.p]; exact w y l hl

/-- A lane-set instruction whose effect is a predicate result. -/
theorem laneGang_pred {s : State} {c : Issue} {u : LaneUse} {f : Gang → W32 → W32 → Gang × List (Evt × Nat)}
    {lead : Lead} {pd : Nat} {val : Nat → Bool} {evs : Nat → List Evt} (r : LaneReady s c u) (hl : u.lead = lead)
    (hf : f (gangOf s c.g) (actLanes s c lead) (zerLanes s c lead)
      = predResult (gangOf s c.g) (actLanes s c lead) (zerLanes s c lead) pd fun l => (val l, evs l)) :
    ∃ t, laneGang s u f = .next t ∧ PredDone s t c lead pd val := by
  subst hl
  have spec := hf ▸ predResult_spec (gangOf s c.g) (actLanes s c u.lead) (zerLanes s c u.lead) pd fun l => (val l, evs l)
  obtain ⟨t, h1, h2⟩ := laneGang_next (f := f) r spec.1.tame
  exact ⟨t, h1, .of_issued h2 spec.1 spec.2⟩

/-! ## Cross-lane moves (R104 to R107) -/

/-- A cross-lane move whose reads meet neither poison nor a late fault. -/
theorem runShuffle_vec {s : State} {c : Issue} {lead : Lead} {w : Nat} {a : Src} {rb : List Rd} {d : Nat} {nowb : Bool} {len : Nat}
    {low : Gang → W32 → Option Halt} {at_ : Gang → W32 → Nat → Nat → Nat × Nat} (r : LaneReady s c (useShuffle lead a rb d nowb len))
    (nl : low (gangOf s c.g) (actLanes s c lead) = none)
    (np : pairRead (gangOf s c.g) 1 a w ((lanesOf (actLanes s c lead)).flatMap fun l =>
      (maskKs lead (64 / w)).map fun k => at_ (gangOf s c.g) (actLanes s c lead) l k) = none) :
    ∃ t, runShuffle s lead w a rb d nowb len low at_ = .next t ∧ VecDone s t c lead ⟨d, w, maskKs lead (64 / w), maskKs lead (64 / w),
      nowb, true, fun l k => (elem (srcVal (gangOf s c.g) (at_ (gangOf s c.g) (actLanes s c lead) l k).1 a) w
        (at_ (gangOf s c.g) (actLanes s c lead) l k).2, [])⟩ := by
  have spec := vecResult_spec (gangOf s c.g) (actLanes s c lead) (zerLanes s c lead) d w (maskKs lead (64 / w)) (maskKs lead (64 / w))
    nowb true fun l k => (elem (srcVal (gangOf s c.g) (at_ (gangOf s c.g) (actLanes s c lead) l k).1 a) w
      (at_ (gangOf s c.g) (actLanes s c lead) l k).2, [])
  obtain ⟨t, h1, h2⟩ := runLane_next (body := fun c s act zer => do
      noHalt (low (gangOf s c.g) act)
      noHalt (pairRead (gangOf s c.g) 1 a w ((lanesOf act).flatMap fun l =>
        (maskKs lead (64 / w)).map fun k => at_ (gangOf s c.g) act l k))
      let r := vecResult (gangOf s c.g) act zer d w (maskKs lead (64 / w)) (maskKs lead (64 / w)) nowb true fun l k =>
        (elem (srcVal (gangOf s c.g) (at_ (gangOf s c.g) act l k).1 a) w (at_ (gangOf s c.g) act l k).2, [])
      .ok (setGang s c.g r.1, r.2)) r
    (by show (do noHalt _; noHalt _; Except.ok _) = _; simp only [useShuffle]; rw [nl, np]; rfl)
    (spec.tame.ready r.pays r.quiet).1 (spec.tame.ready r.pays r.quiet).2
  exact ⟨t, h1, .of_issued h2 spec⟩

/-! ## The SLI unit (R127) -/

/-- A lane-set instruction of the SLI class whose quarter's unit is free and whose effect is on its gang. -/
theorem runSli_next {s : State} {c : Issue} {u : LaneUse} {occ : Gang → W32 → Nat} {f : Gang → W32 → W32 → Gang × List (Evt × Nat)}
    (r : LaneReady s c u) (free : sliTaken s c.g = false)
    (ht : Tame (gangOf s c.g) (f (gangOf s c.g) (actLanes s c u.lead) (zerLanes s c u.lead)).1) :
    ∃ t, runSli s u occ f = .next t ∧
      Issued (occupySli (setGang s c.g (f (gangOf s c.g) (actLanes s c u.lead) (zerLanes s c u.lead)).1) c.g
        (occ (gangOf s c.g) (actLanes s c u.lead))) t c := by
  have rd := ht.ready r.pays r.quiet
  refine runLane_next (evs := (f (gangOf s c.g) (actLanes s c u.lead) (zerLanes s c u.lead)).2)
    (body := fun c s act zer =>
      if sliTaken s c.g then .error .hold
      else .ok (occupySli (setGang s c.g (f (gangOf s c.g) act zer).1) c.g (occ (gangOf s c.g) act), (f (gangOf s c.g) act zer).2)) r
    (by simp only [free]; rfl) ?_ rd.2
  have h := rd.1
  simp only [CanPay, occupySli, gangOf_modCore, gangOf_setGang_same, coreOf_modCore_same] at h ⊢
  exact h

/-- An effect on one gang and the occupancy of its quarter's SLI unit, then the bookkeeping of issuing. -/
theorem LaneLeft.of_sli {s t : State} {c : Issue} {G : Gang} {n : Nat} (h : Issued (occupySli (setGang s c.g G) c.g n) t c)
    (ht : Tame (gangOf s c.g) G) : LaneLeft s t c (some n) := by
  have q := h.quiet
  refine ⟨⟨?_, h.ret.cur⟩, Kept.trans (t := occupySli (setGang s c.g G) c.g n) rfl q.kept, fun k => ?_, fun k => ?_, q.teams,
    fun k ne => ?_⟩
  · rw [h.ret.cave]; simp only [occupySli, gangOf_modCore, gangOf_setGang_same, ht.cave]
  · have := q.units k
    rw [occupySli] at this
    by_cases e : k = (gangOf s c.g).core
    · subst e
      simp only [gangOf_setGang_same, ht.core, coreOf_modCore_same, coreOf_setGang] at this
      exact this
    · rw [gangOf_setGang_same, coreOf_modCore_other _ _ (by rw [ht.core]; exact e)] at this
      exact this
  · rw [q.sli k, occupySli]
    by_cases e : k = (gangOf s c.g).core
    · subst e
      simp only [gangOf_setGang_same, ht.core, ht.slot, coreOf_modCore_same, coreOf_setGang, if_true]
      rfl
    · rw [gangOf_setGang_same, coreOf_modCore_other _ _ (by rw [ht.core]; exact e)]
      simp [e]
  · have := q.regs k; simp only [occupySli, gangOf_modCore] at this; rwa [gangOf_setGang_other s G ne] at this

/-- A vector result and the bits of SLI.LX, then the bookkeeping of issuing. -/
theorem own_lx {G H K : Gang} {m : W32} (a : VecOnly { G with x := H.x } H) (b : K = issueOf (setLx H m) K) :
    K = issueOf (vecOf G K) K := by
  refine own_rest (H := { H with sreg := (setLx H m).sreg }) (G := { G with sreg := (setLx H m).sreg }) ?_ b
  unfold VecOnly vecOf at a ⊢
  rw [a]

/-- A vector result on the SLI unit, with the lanes `lx` whose results cross a level (R79, R122). -/
theorem runSli_vec {s : State} {c : Issue} {u : LaneUse} {occ : Gang → W32 → Nat} {f : Gang → W32 → W32 → Gang × List (Evt × Nat)}
    {lead : Lead} {d w : Nat} {ks zks : List Nat} {nowb push : Bool} {val : Nat → Nat → Out} {n : Nat} {lx : W32} (r : LaneReady s c u)
    (free : sliTaken s c.g = false) (hl : u.lead = lead) (hn : occ (gangOf s c.g) (actLanes s c lead) = n)
    (hf : (f (gangOf s c.g) (actLanes s c lead) (zerLanes s c lead)).1
      = setLx (vecResult (gangOf s c.g) (actLanes s c lead) (zerLanes s c lead) d w ks zks nowb push val).1 lx) :
    ∃ t, runSli s u occ f = .next t ∧ VecDone s t c lead ⟨d, w, ks, zks, nowb, push, val⟩ (some n) lx := by
  subst hl hn
  have spec := vecResult_spec (gangOf s c.g) (actLanes s c u.lead) (zerLanes s c u.lead) d w ks zks nowb push val
  have tame : Tame (gangOf s c.g) (f (gangOf s c.g) (actLanes s c u.lead) (zerLanes s c u.lead)).1 := by
    rw [hf]
    refine ⟨spec.tame.core, spec.tame.slot, fun e he => ?_, ?_⟩
    · rw [setLx, srGet_srPut_other _ _ (by simp only [rEvt, rSliLx]; omega)]; exact spec.tame.evt e he
    · rw [setLx, srGet_srPut_other _ _ (by decide)]; exact spec.tame.cave
  obtain ⟨t, h1, i⟩ := runSli_next (occ := occ) r free tame
  have left := LaneLeft.of_sli i tame
  have hr := i.quiet.regs c.g
  have hx := i.latch
  simp only [occupySli, gangOf_modCore, gangOf_setGang_same] at hr hx
  rw [hf] at hr hx
  refine ⟨t, h1, left, own_lx spec.only hr.rest, fun m hm => ?_, ⟨fun y l hl => ?_, ?_⟩⟩
  · rw [hr.sreg m hm, setLx]
    by_cases e : m = rSliLx
    · subst e; rw [srGet_srPut_same]; simp [srGet, spec.sreg]
    · rw [srGet_srPut_other _ _ e]; simp [srGet, spec.sreg, e]
  · simp only [vGet, hr.v]; exact spec.wrote.v y l hl
  · rw [hx]; exact spec.wrote.latch

/-- A vector result on the SLI unit of an instruction that crosses no level (R125, R126). -/
theorem runSli_plain {s : State} {c : Issue} {u : LaneUse} {occ : Gang → W32 → Nat} {f : Gang → W32 → W32 → Gang × List (Evt × Nat)}
    {lead : Lead} {d w : Nat} {ks zks : List Nat} {nowb push : Bool} {val : Nat → Nat → Out} {n : Nat} (r : LaneReady s c u)
    (free : sliTaken s c.g = false) (hl : u.lead = lead) (hn : occ (gangOf s c.g) (actLanes s c lead) = n)
    (hf : (f (gangOf s c.g) (actLanes s c lead) (zerLanes s c lead)).1
      = (vecResult (gangOf s c.g) (actLanes s c lead) (zerLanes s c lead) d w ks zks nowb push val).1) :
    ∃ t, runSli s u occ f = .next t ∧ VecDone s t c lead ⟨d, w, ks, zks, nowb, push, val⟩ (some n) := by
  subst hl hn
  have spec := hf ▸ vecResult_spec (gangOf s c.g) (actLanes s c u.lead) (zerLanes s c u.lead) d w ks zks nowb push val
  obtain ⟨t, h1, i⟩ := runSli_next (occ := occ) r free spec.tame
  have hr := i.quiet.regs c.g
  have hx := i.latch
  simp only [occupySli, gangOf_modCore, gangOf_setGang_same] at hr hx
  refine ⟨t, h1, .of_sli i spec.tame, own_rest spec.only hr.rest, .of_eq spec.sreg hr.sreg,
    ⟨fun y l hl => ?_, hx.trans spec.wrote.latch⟩⟩
  simp only [vGet, hr.v]; exact spec.wrote.v y l hl

/-- A predicate result on the SLI unit (R125). -/
theorem runSli_pred {s : State} {c : Issue} {u : LaneUse} {occ : Gang → W32 → Nat} {f : Gang → W32 → W32 → Gang × List (Evt × Nat)}
    {lead : Lead} {pd : Nat} {val : Nat → Bool} {evs : Nat → List Evt} {n : Nat} (r : LaneReady s c u)
    (free : sliTaken s c.g = false) (hl : u.lead = lead) (hn : occ (gangOf s c.g) (actLanes s c lead) = n)
    (hf : f (gangOf s c.g) (actLanes s c lead) (zerLanes s c lead)
      = predResult (gangOf s c.g) (actLanes s c lead) (zerLanes s c lead) pd fun l => (val l, evs l)) :
    ∃ t, runSli s u occ f = .next t ∧ PredDone s t c lead pd val (some n) := by
  subst hl hn
  have spec := hf ▸ predResult_spec (gangOf s c.g) (actLanes s c u.lead) (zerLanes s c u.lead) pd fun l => (val l, evs l)
  obtain ⟨t, h1, i⟩ := runSli_next (occ := occ) r free spec.1.tame
  have hr := i.quiet.regs c.g
  have hx := i.latch
  simp only [occupySli, gangOf_modCore, gangOf_setGang_same] at hr hx
  refine ⟨t, h1, .of_sli i spec.1.tame, own_pred spec.1 hr.rest, .of_eq spec.1.sreg hr.sreg,
    hx.trans ((congrArg Gang.x spec.1).trans rfl), fun y l hl => ?_⟩
  simp only [pGet, hr.p]; exact spec.2 y l hl

end Sys2Proof.Machine
end

