-- ==== Sys2Proof/Laws/Uni.lean ====
section
/-!
SUPPORT. What a uniform-set instruction does when nothing holds it up.
-/
namespace Sys2Proof.Machine

/-- A uniform-set instruction whose effect `body` answers `s1` with events, and that falls through: no event class traps. -/
theorem runUni_events {s s1 : State} {c : Issue} {u : UniUse} {body : Issue → State → Chk (State × List (Evt × Nat))}
    {evs : List (Evt × Nat)} (r : UniDoes s c u s1) (q : evs = [] ∨ NoEventTraps (gangOf s1 c.g)) (hb : body c s = .ok (s1, evs)) :
    ∃ t, issuing s (fun c => runUni s c u (body c)) = .next t ∧ Issued s1 t c := by
  obtain ⟨hcur, hchk, hpay⟩ := r
  obtain ⟨t, h1⟩ := payTokens_some false hpay
  have h2 := payTokens_still h1
  have h3 : Still c.g s1 (modGang t c.g fun G => uniChain G c.run u.arith) :=
    h2.trans (Still.sameGang _ _ _ (sameCount_uniChain _ _ _))
  refine ⟨fallEvents (modGang t c.g fun G => uniChain G c.run u.arith) c u.len evs, ?_, Issued.after h3 ?_⟩
  · simp only [issuing, hcur, runUni, runUniTo, hchk]
    simp only [bind, Except.bind]
    rw [hb]
    simp only [h1]
  · rcases q with rfl | hq
    · exact fallNone_spec _ c u.len
    · exact fallEvents_spec _ c u.len evs (NoEventTraps.of_regs (h3.quiet.regs c.g) hq)

/-- One without events. -/
theorem runUni_next {s s1 : State} {c : Issue} {u : UniUse} {body : Issue → State → Chk (State × List (Evt × Nat))}
    (r : UniDoes s c u s1) (hb : body c s = .ok (s1, [])) :
    ∃ t, issuing s (fun c => runUni s c u (body c)) = .next t ∧ Issued s1 t c := runUni_events r (.inl rfl) hb

/-- One whose effect is that of `body`. -/
theorem runPlain_next {s s1 : State} {c : Issue} {u : UniUse} {body : Issue → State → Chk State}
    (r : UniDoes s c u s1) (hb : body c s = .ok s1) :
    ∃ t, issuing s (fun c => runPlain s c u (body c)) = .next t ∧ Issued s1 t c :=
  runUni_next (body := fun c s => do let r ← body c s; .ok (r, [])) r (by simp [hb, bind, Except.bind])

/-- A change of the gang leaves its core as it was. -/
theorem UniDoes.ofGang {s : State} {c : Issue} {u : UniUse} {G : Gang} (r : UniReady s c u) (hc : G.core = (gangOf s c.g).core) :
    UniDoes s c u (setGang s c.g G) := by
  refine ⟨r.cur, r.checks, ?_⟩
  have := r.pays; simpa [CanPay, hc] using this

/-- A uniform-set instruction that writes one s register (R238). -/
theorem runUni_wrS {s : State} {c : Issue} {u : UniUse} {sd : Nat} {x : Word} {body : Issue → State → Chk (State × List (Evt × Nat))}
    (r : UniReady s c u) (hb : body c s = .ok (modGang s c.g fun G => wrS G sd x, [])) :
    ∃ t, issuing s (fun c => runUni s c u (body c)) = .next t ∧ Issued (modGang s c.g fun G => wrS G sd x) t c :=
  runUni_next (r.ofGang (G := wrS (gangOf s c.g) sd x) rfl) hb

end Sys2Proof.Machine
end

