-- ==== Sys2Proof/Tests/Slice0.lean ====
section
/-!
SUPPORT. States and operands that meet the hypotheses of the statements, clause by clause; words of the specification's encodings
with what they decode to; an ill-formed term for each check; and single issues with values worked out from the specification.
-/
namespace Sys2Proof.Tests
open Sys2Proof Sys2Proof.Machine
set_option Elab.async false

/-! ## Small states -/

/-- A thread at `pc`. -/
def thrAt (pc : Word) : Thread := { pc := pc, held := false, wait := .none }

/-- The issue of lanes 0 and 1 at 0x10000. -/
def c0 : Issue := { g := 0, run := 3, pc := 0x10000, issued := false }

/-- A gang with threads 0 and 1 at 0x10000. -/
def gang0 : Gang :=
  { srPut (srPut Gang.blank rVoteLast 3) rTsLane 0xFF with threads := [(0, thrAt 0x10000), (1, thrAt 0x10000)] }

/-- A state whose gang 0 is `G`, in team `T`, with instruction `c0` in course, 16,384 tokens, and page 1 at frame 1. -/
def stOf (G : Gang) (T : Team) : State :=
  let s := setTeam (setGang { State.reset with power := .on, cur := some c0 } 0 G) 0 T
  modCore s 0 fun C =>
    { C with tokens := 16384, tlb := [{ ctx := 0, page := 1, big := false, leaf := BitVec.ofNat 64 (2 ^ 63 + 2 ^ 54 + 2 ^ 52 + 2 ^ 12) }] }

/-- One team of one gang. -/
def team0 : Team := { Team.blank with ngang := 1 }

/-- The state of most tests. -/
def st0 : State := stOf gang0 team0

/-- What an answer's next state holds. -/
def after {α : Type} (r : Res) (f : State → α) : Option α := match r with | .next t => some (f t) | _ => none

/-- A check that answers `a`. -/
theorem ok_of {ε α : Type} {x : Except ε α} {a : α} (h : x.toOption = some a) : x = .ok a := by
  cases x with
  | ok b => simpa [Except.toOption] using h
  | error e => simp [Except.toOption] at h

/-- A check that stops with `e`. -/
theorem stop_of {α : Type} {x : Chk α} {e : Halt} (h : (match x with | .error h => some h | .ok _ => none) = some e) : x = .error e := by
  cases x with
  | ok a => cases h
  | error h => simpa using h

/-- A lane-set instruction is held up by nothing where these can be decided. -/
theorem readyOn {s : State} {c : Issue} {u : LaneUse} {act paid : W32} (h : s.cur = some c)
    (k : ((laneChecks (gangOf s c.g) c u act).toOption = some () ∧ (coreOf s (gangOf s c.g).core).resv = [] ∧
      (lanePrice u.price paid : Int) ≤ (coreOf s (gangOf s c.g).core).tokens ∧
      ∀ e, e < 9 → Word.fld (srGet (gangOf s c.g) (rEvt e)) 8 2 ≠ 1) := by decide +kernel) : ReadyOn s c u act paid :=
  ⟨h, ok_of k.1, ⟨k.2.1, k.2.2.1⟩, k.2.2.2⟩

/-- In the state of most tests. -/
theorem ready0 {u : LaneUse} (k : ((laneChecks (gangOf st0 0) c0 u (guardLanes (gangOf st0 0) u.lead 3)).toOption = some () ∧
    (lanePrice u.price (actLanes st0 c0 u.lead ||| zerLanes st0 c0 u.lead) : Int) ≤ (coreOf st0 (gangOf st0 c0.g).core).tokens) := by
      decide +kernel) : LaneReady st0 c0 u :=
  ⟨rfl, ok_of k.1, ⟨by decide +kernel, k.2⟩, by unfold NoEventTraps; decide +kernel⟩

/-- The same for a uniform-set instruction. -/
theorem uniReady {s : State} {c : Issue} {u : UniUse} (h : s.cur = some c)
    (k : ((uniChecks (gangOf s c.g) c u).toOption = some () ∧ (coreOf s (gangOf s c.g).core).resv = [] ∧
      (u.price : Int) ≤ (coreOf s (gangOf s c.g).core).tokens) := by decide +kernel) : UniReady s c u :=
  ⟨h, ok_of k.1, k.2⟩

theorem ctlReady {s : State} {c : Issue} {u : UniUse} (h : s.cur = some c)
    (k : (uniChecks (gangOf s c.g) c u).toOption = some () := by decide +kernel) : CtlReady s c u := ⟨h, ok_of k⟩

/-- A prefix that guards with `p`, with fourth source `c`. -/
def pfx (p : Fin 8) (zero : Bool) (c : Option Src) : Lead := ⟨some ⟨false, p, zero, .rne, c, 0xFF⟩, none⟩

/-! ## Hypotheses are met: one theorem for each statement that has some -/

/-- States and operands that meet the hypotheses of `IntegerArithmetic`. -/
theorem witness_IntegerArithmetic :
    LaneReady st0 c0 (useLr2 (⟨.bare, .i32, .v 1, .src (.s 2), 3, false⟩ : Lr2 IFmt) 1 false) ∧
    LaneReady st0 c0 (useLr2 (⟨pfx 0 true (some (.v 63)), .n8, .v 1, .lit 5, 63, true⟩ : Lr2 IFmt) 3 true) ∧
    LaneReady st0 c0 (useLr1 (⟨.bare, .i8, .v 63, 0, false⟩ : Lr1 IFmt) 1) ∧
    LaneReady st0 c0 (useLi (⟨.bare, .i64, .v 1, 0x40, 3, false⟩ : Lri) 2) ∧
    LaneReady st0 c0 (useVmulw ⟨.bare, .n32, .v 1, .src (.v 2), 3, false⟩) ∧
    LaneReady st0 c0 (useLr2 (⟨.bare, .i32, .v 1, .src (.v 2), 3, false⟩ : Lr2 IFmt) 12 false) ∧
    (IFmt.minVal .i32 ≠ 0 ∧ ¬ (IFmt.i32.signed = true ∧ (0 : Int) = IFmt.minVal .i32 ∧ IFmt.minVal .i32 = -1)) :=
  ⟨ready0, ready0, ready0, ready0, ready0, ready0, by decide⟩

/-- States and operands that meet the hypotheses of `BitOperations`. -/
theorem witness_BitOperations :
    LaneReady st0 c0 (useLr2 (⟨.bare, .n64, .v 1, .src (.s 31), 3, false⟩ : Lr2 IFmt) 1 false) ∧
    LaneReady st0 c0 (useLi (⟨pfx 1 false none, .n16, .v 1, 0x7F, 3, false⟩ : Lri) 1) ∧
    LaneReady st0 c0 (useLr1 (⟨.bare, .n8, .v 63, 0, false⟩ : Lr1 IFmt) 1) ∧
    LaneReady st0 c0 (useLr2 (⟨pfx 7 false (some (.v 9)), .n32, .v 1, .src (.v 2), 3, false⟩ : Lr2 IFmt) 1 true) ∧
    LaneReady st0 c0 (useVbfi ⟨pfx 7 false (some (.v 9)), .n32, .v 1, .src (.v 2), 3, false⟩) :=
  ⟨ready0, ready0, ready0, ready0, ready0⟩

/-- States and operands that meet the hypotheses of `ComparesAndPredicateLogic`. -/
theorem witness_ComparesAndPredicateLogic :
    LaneReady st0 c0 (useCmpB (⟨.bare, .i32, .v 1, .src (.v 2), .lt, 7, true⟩ : LCmp IFmt ICond SrcB) 32) ∧
    LaneReady st0 c0 (useCmp (⟨.bare, .n8, .v 1, 0x7F, .ntst, 0, false⟩ : LCmp IFmt ICond (BitVec 7)) 8 [] (lenOf .bare false)) ∧
    LaneReady st0 c0 (useCmpB (⟨.bare, .h16, .v 1, .lit 0, .uo, 6, true⟩ : LCmp FFmt FCond SrcB) 16) ∧
    (let o : LPlog := ⟨.bare, 0, 8, 7, 7⟩; LaneReady st0 c0 (useVplog o) ∧ bitOf (maskOf o.lead) 0 = true) ∧
    (let o : LPlog := ⟨⟨some ⟨false, 7, false, .rne, none, 0xFE⟩, none⟩, 0, 8, 7, 1⟩
     LaneReady st0 c0 (useVplog o) ∧ bitOf (maskOf o.lead) 0 = false) :=
  ⟨ready0, ready0, ready0, ⟨ready0, by decide⟩, ⟨ready0, by decide⟩⟩

/-- States and operands that meet the hypotheses of `MovesAndConversions`. -/
theorem witness_MovesAndConversions :
    LaneReady st0 c0 (useLr1 (⟨.bare, .i16, .s 0, 1, false⟩ : Lr1 IFmt) 1) ∧
    LaneReady st0 c0 (useVmovi ⟨.bare, .n8, 0x40, 63, true⟩) ∧
    LaneReady st0 c0 (useConv (⟨.bare, .i64, .v 1, .n8, 0, false⟩ : LrX IFmt IFmt) 1 8 64) ∧
    LaneReady st0 c0 (useVpack ⟨.bare, .i64, .v 1, .src (.v 2), 3, false⟩) ∧
    LaneReady st0 c0 (useVunpk ⟨.bare, .n8, .v 1, .lit 1, 3, false⟩) :=
  ⟨ready0, ready0, ready0, ready0, ready0⟩

/-- States and operands that meet the hypotheses of `SelectWritesEveryLane`. -/
theorem witness_SelectWritesEveryLane :
    (let o : Lr2 IFmt := ⟨⟨some ⟨true, 0, false, .rne, none, 0x0F⟩, none⟩, .n16, .v 1, .src (.v 2), 3, false⟩
     ReadyOn st0 c0 (useLr2 o 1 false) 0 c0.run ∧
       selChecks (gangOf st0 0) c0 (useLr2 o 1 false) (actLanes st0 c0 o.lead) = .ok ()) ∧
    (⟨.bare, .i64, .v 1, .src (.v 2), 3, false⟩ : Lr2 IFmt).lead.pw = none ∧
    (pfx 1 true none).pw = some ⟨false, 1, true, .rne, none, 0xFF⟩ :=
  ⟨⟨readyOn rfl, ok_of (by decide +kernel)⟩, rfl, rfl⟩

/-- States and operands that meet the hypotheses of `FloatArithmetic`. -/
theorem witness_FloatArithmetic :
    LaneReady st0 c0 (useF2 (⟨.bare, .f64, .v 1, .src (.v 2), 3, false⟩ : Lr2 FFmt) 4 false) ∧
    LaneReady st0 c0 (useF2 (⟨pfx 7 false (some (.s 1)), .f32, .v 1, .src (.v 2), 3, false⟩ : Lr2 FFmt) 4 true) ∧
    LaneReady st0 c0 (useF1 (⟨.bare, .h16, .v 1, 3, false⟩ : Lr1 FFmt) 6) ∧
    LaneReady st0 c0 (useF1 (⟨.bare, .e16, .v 1, 3, false⟩ : Lr1 FFmt) 1) ∧
    LaneReady st0 c0 (useConv (⟨.bare, .f32, .v 1, true, 3, false⟩ : LrX FFmt Bool) 1 32 32) ∧
    (let o : LrX FFmt FCvtKind := ⟨.bare, .f64, .v 1, .fromInt .i8, 3, false⟩
     LaneReady st0 c0 (useConv o 2 (cvtWidths o.fmt o.x).1 (cvtWidths o.fmt o.x).2)) :=
  ⟨ready0, ready0, ready0, ready0, ready0, ready0⟩

/-- The SLI unit of quarter 0 of core 0 is occupied. -/
def stSli : State := modCore st0 0 fun C => { C with sliBusy := [(0, 1)] }

/-- States and operands that meet the hypotheses of `LevelIndexInstructions`. -/
theorem witness_LevelIndexInstructions :
    sliTaken st0 0 = false ∧
    LaneReady st0 c0 (useF2 (⟨.bare, .s32, .v 1, .src (.v 2), 3, false⟩ : Lr2 FFmt) 18 false) ∧
    LaneReady st0 c0 (useF1 (⟨.bare, .s32, .v 1, 3, false⟩ : Lr1 FFmt) 6) ∧
    LaneReady st0 c0 (useF1 (⟨.bare, .s32, .v 1, 3, false⟩ : Lr1 FFmt) 1) ∧
    LaneReady st0 c0 (useCmpB (⟨.bare, .s32, .v 1, .src (.v 2), .ge, 0, true⟩ : LCmp FFmt FCond SrcB) 32) ∧
    (let o : LrX Unit SCvtKind := ⟨.bare, (), .v 1, .toI .i16, 3, false⟩
     LaneReady st0 c0 (useConv o 4 (scvtWidths o.x).1 (scvtWidths o.x).2)) ∧
    sliTaken stSli 0 = true ∧ LaneReady stSli c0 (useF2 (⟨.bare, .s32, .v 1, .src (.v 2), 3, false⟩ : Lr2 FFmt) 18 false) ∧
    LaneReady stSli c0 (useF1 (⟨.bare, .s32, .v 1, 3, false⟩ : Lr1 FFmt) 6) :=
  ⟨by decide +kernel, ready0, ready0, ready0, ready0, ready0, by decide +kernel, readyOn rfl, readyOn rfl⟩

/-- States and operands that meet the hypotheses of `CrossLaneMoves`. -/
theorem witness_CrossLaneMoves :
    (let o : Lr2 IFmt := ⟨.bare, .i32, .v 1, .src (.v 2), 3, false⟩
     LaneReady st0 c0 (useShuffle o.lead o.a (rdB o.b (bitsOf o.fmt.bits (selKs o.lead o.fmt.bits))) o.d.val o.k
       (lenOf o.lead (SrcB.isLit o.b))) ∧ pairRead (gangOf st0 0) 1 o.a 32 [(0, 0), (0, 1), (1, 0), (1, 1)] = none) ∧
    (let o : LrX IFmt ShflOp := ⟨pfx 0 true none, .n8, .v 1, ⟨.rot, 31⟩, 3, true⟩
     LaneReady st0 c0 (useShuffle o.lead o.a [] o.d.val o.k (lenOf o.lead false)) ∧ pairRead (gangOf st0 0) 1 o.a 8 [] = none) ∧
    (let o : Lr2 IFmt := ⟨.bare, .i64, .v 1, .src (.s 2), 3, false⟩
     LaneReady st0 c0 (useShuffle o.lead o.a (rdB o.b 0) o.d.val o.k (lenOf o.lead (SrcB.isLit o.b))) ∧
     lowRead (gangOf st0 0) o.b 64 3 = none ∧ pairRead (gangOf st0 0) 1 o.a 64 [(0, 0), (1, 0)] = none) :=
  ⟨⟨ready0, by decide +kernel⟩, ⟨ready0, by decide +kernel⟩, ⟨ready0, by decide +kernel⟩⟩

/-- States and operands that meet the hypotheses of `ReductionsAndScans`. -/
theorem witness_ReductionsAndScans :
    LaneReady st0 c0 (useX .bare 64 (.v 1) 3 2 false) ∧ LaneReady st0 c0 (useX (pfx 0 true none) 16 (.v 1) 3 3 true) := ⟨ready0, ready0⟩

/-- A matrix gang. -/
def stMat : State := stOf { gang0 with role := .matrix } team0

/-- States and operands that meet the hypotheses of `AccumulatorInstructions`. -/
theorem witness_AccumulatorInstructions :
    (LaneReady stMat c0 (useQ .bare 1 [] none) ∧ accChecks stMat 0 1 = .ok ()) ∧
    (LaneReady stMat c0 (useQ .bare 2 [⟨1, .v 1, bitsOf 32 (maskKs .bare 2)⟩] none) ∧ accChecks stMat 0 3 = .ok () ∧
      poisonQ (gangOf stMat 0) (actLanes stMat c0 .bare) 7 ((maskKs .bare 2).map (2 * 3 + ·)) 3 = none) ∧
    (LaneReady stMat c0 (useQ .bare 3 [] (some (63, 3))) ∧
      poisonQ (gangOf stMat 0) (actLanes stMat c0 .bare) 7 ((selKs .bare 16).map (4 * 1 + ·)) 1 = none) :=
  ⟨⟨readyOn rfl, ok_of (by decide +kernel)⟩, ⟨readyOn rfl, ok_of (by decide +kernel), by decide +kernel⟩,
   ⟨readyOn rfl, by decide +kernel⟩⟩

/-- An event class of gang 0 traps; 64 instructions have fallen into the window of class 0. -/
def gangEvt : Gang := { srPut gang0 (rEvt 0) (BitVec.ofNat 64 (2 ^ 16 * 5 + 2 ^ 8 + 6)) with winPos := [(0, 64)] }

/-- States and operands that meet the hypotheses of `UniformArithmetic`. -/
theorem witness_UniformArithmetic :
    UniReady st0 c0 (useUarith 63 [(8, 0), (9, 63)] 4) ∧ UniReady st0 c0 (useUarith 0 [(8, 63)] 4) ∧
    UniReady st0 c0 (useUarith 5 [(8, 1), (9, 2), (10, 3)] 4) ∧ UniReady st0 c0 (useUarith 5 [] 12) ∧
    NoEventTraps (gangOf st0 0) ∧ (1 : Word) ≠ 0 :=
  ⟨uniReady rfl, uniReady rfl, uniReady rfl, uniReady rfl, by unfold NoEventTraps; decide +kernel, by decide⟩

/-- s1 holds the condition word of 1 and 2. -/
def stCond : State := stOf (sPut gang0 1 (condWord 1 2)) team0

/-- States and operands that meet the hypotheses of `UcmpWritesTheConditionWord`. -/
theorem witness_UcmpWritesTheConditionWord :
    UniReady st0 c0 (useUarith 6 [(8, 4), (9, 5)] 4) ∧ UniReady st0 c0 (useUarith 6 [(8, 4)] 4) ∧
    CtlReady stCond c0 (ctlUse [(8, 1)] 4) ∧ loopDepth (gangOf stCond 0) = 0 ∧
    sGet (gangOf stCond 0) 1 = condWord 1 2 ∧ (condHolds 1 2)[0]? = some false ∧ (condHolds 1 2)[11]? = some true :=
  ⟨uniReady rfl, uniReady rfl, ctlReady rfl, by decide +kernel, by decide +kernel, by decide, by decide⟩

/-- States and operands that meet the hypotheses of `VotesAndLaneMoves`. -/
theorem witness_VotesAndLaneMoves :
    UniReady st0 c0 (uniUse 1 [] (some 63)) ∧
    (UniReady st0 c0 (useLaneGet 5 63 6) ∧ (sGet (gangOf st0 0) 6).toNat % 32 = 0 ∧ hasLane c0.run 0 = true ∧
      lateRead (gangOf st0 0) (laneBit 0) [(8, .v 63)] = none ∧ poisonV (gangOf st0 0) (laneBit 0) 63 (2 ^ 64 - 1) 8 = none) ∧
    (let s := stOf (sPut gang0 6 31) team0
     UniReady s c0 (useLaneGet 5 63 6) ∧ hasLane c0.run ((sGet (gangOf s 0) 6).toNat % 32) = false) ∧
    UniReady st0 c0 (useLanePut 5 63 6) ∧ UniReady st0 c0 (uniUse 0 [] (some 3)) :=
  ⟨uniReady rfl, ⟨uniReady rfl, by decide +kernel⟩, ⟨uniReady rfl, by decide +kernel⟩, uniReady rfl, uniReady rfl⟩

/-- States and operands that meet the hypotheses of `StateRegisterAccess`. -/
theorem witness_StateRegisterAccess :
    (UniReady st0 c0 (uniUse 0 [] (some 2)) ∧ stateReg st0 0 0 ≠ none) ∧
    (usetOk rFpMode = true ∧ UniReady st0 c0 (uniUse 0 [(7, 7)] none)) ∧
    (8 < 9 ∧ rFpMode ≠ rSliLx ∧ ∀ e, e < 9 → rFpMode = rEvt e → rSliLx ≠ rEvtCnt e) :=
  ⟨⟨uniReady rfl, by decide +kernel⟩, ⟨by decide, uniReady rfl⟩, by decide⟩

/-- v1 of every lane and s1 hold 0x10100, v9 and s9 0xFFFFFFFFFFFFFFF8; lane 1's p0 reads 1. -/
def gangMem : Gang :=
  let G := { gang0 with p := [(0, 2)] }
  let G := vPut (vPut G 1 0 0x10100) 1 1 0x10108
  sPut (sPut G 1 0x10100) 9 0xFFFFFFFFFFFFFFF8
def stMem : State := stOf gangMem { team0 with spSize := 4096, spBase := 8192 }

/-- A check that answers one access for each of two lanes. -/
def oLd : Lm := ⟨.bare, .n64, 1, 0xFF, 63, false⟩

/-- The same gang where the page of the accesses is MMIO. -/
def stMmio : State := modCore stMem 0 fun C =>
  { C with tlb := [{ ctx := 0, page := 1, big := false, leaf := BitVec.ofNat 64 (2 ^ 63 + 2 ^ 54 + 2 ^ 53 + 2 ^ 12) }] }
def stSp : State := { stMem with gangs := [(0, vPut (vPut gang0 1 0 8) 1 1 16)] }

/-- States and operands that meet the hypotheses of `LaneLoads`. -/
theorem witness_LaneLoads :
    (∃ as_, let r := readyLoad stMem 0 (vldAccs oLd stMem c0 (actLanes stMem c0 oLd.lead))
      LoadReady stMem r c0 oLd 2 as_ ∧ vldAccs oLd r c0 (actLanes stMem c0 oLd.lead) = .ok as_ ∧
      as_.any (LaneAcc.onMmio stMem 0) = false ∧ as_.any LaneAcc.far = false) ∧
    (∃ as_, let r := readyLoad stSp 0 (spadAccs stSp c0 oLd (actLanes stSp c0 oLd.lead))
      LoadReady stSp r c0 oLd 1 as_ ∧ spadAccs r c0 oLd (actLanes stSp c0 oLd.lead) = .ok as_) ∧
    (∃ as_, vldAccs oLd stMmio c0 (actLanes stMmio c0 oLd.lead) = .ok as_ ∧ as_.any (LaneAcc.onMmio stMmio 0) = true) ∧
    ReadyOn st0 c0 (useM .bare 1 0 1 [] none) c0.run c0.run := by
  refine ⟨?_, ?_, ?_, readyOn rfl⟩
  · exact ⟨((vldAccs oLd stMem c0 (actLanes stMem c0 oLd.lead)).toOption).getD [], ⟨rfl, ok_of (by decide +kernel), ok_of (by decide +kernel),
      by decide +kernel, by decide +kernel, by unfold CanPay; decide +kernel, by unfold NoEventTraps; decide +kernel⟩,
      ok_of (by decide +kernel), by decide +kernel, by decide +kernel⟩
  · exact ⟨((spadAccs stSp c0 oLd (actLanes stSp c0 oLd.lead)).toOption).getD [], ⟨rfl, ok_of (by decide +kernel), ok_of (by decide +kernel),
      by decide +kernel, by decide +kernel, by unfold CanPay; decide +kernel, by unfold NoEventTraps; decide +kernel⟩, ok_of (by decide +kernel)⟩
  · exact ⟨((vldAccs oLd stMmio c0 (actLanes stMmio c0 oLd.lead)).toOption).getD [], ok_of (by decide +kernel), by decide +kernel⟩

/-- Two stores of gang 0 in its queue, one of the core outbound. -/
def entW (l : Loc) (b : Byte) : StoreEnt := { bytes := [(l, b)], va := 0, lane := 0, pc := 0, by_ := 0, nth := 0, mmio := false }
def stQueue : State := modCore (stOf { gangMem with storeQ := [entW (.phys 0x10100) 1, entW (.spad 5) 2] } team0) 0 fun C =>
  { C with outb := [entW (.phys 0x10101) 3] }

def oSt : Lm := ⟨pfx 0 false none, .n64, 1, 0, 4, false⟩

/-- An operation on the array, and a store of core 0 to a line that it reads. -/
def stPinned : State :=
  { modCore stMem 0 fun C => { C with outb := [entW (.phys 0x10101) 3] } with
    matrix := [(0, { ops := [{ num := 1, team := 0, gang := 0, lane := 0, pc := 0, aBase := 0, aLay := 0, bBase := 0, bLay := 0, acc := true,
                               grp := false, sparse := false, image := [], spans := [], late := [], pins := [0x404], far := [], farNo := [],
                               running := true, struck := false, gone := false }], faults := [], events := [] })] }

/-- A request of gang 0 has no answer yet. -/
def stAsked : State := stOf { gangMem with reqs := [{
  hdr := Header.blank
  dest := .none, owner := 1, pc := 0, sentAt := 0, wait := 0, full := false, quiet := false, acq := true, locs := [], item := none, nth := 0 }] } team0

/-- States and operands that meet the hypotheses of `StoresQueueAndDrain`. -/
theorem witness_StoresQueueAndDrain :
    (∃ as_, vstAccs oSt stMem c0 (bit0 oSt.lead (actLanes stMem c0 oSt.lead)) = .ok as_ ∧ as_ ≠ [] ∧
      ReadyOn stMem c0 (useStore oSt 2) (bit0 oSt.lead (actLanes stMem c0 oSt.lead)) (bit0 oSt.lead (actLanes stMem c0 oSt.lead)) ∧
      orderGate stMem 0 (as_.flatMap (·.locs)) = .ok ()) ∧
    (∃ as_, ReadyOn stSp c0 (useStore oLd 1) 3 3 ∧ bit0 oLd.lead (actLanes stSp c0 oLd.lead) = 3 ∧ spadAccs stSp c0 oLd 3 = .ok as_ ∧
      as_ ≠ [] ∧ orderGate stSp 0 (as_.flatMap (·.locs)) = .ok ()) ∧
    (queuedByte ((gangOf stQueue 0).storeQ.take 1) (.spad 5) = none ∧ (coreOf stQueue 0).outb = entW (.phys 0x10101) 3 :: [] ∧
      pinned stQueue ((entW (.phys 0x10101) 3).bytes.map (·.1)) = false ∧ (Loc.phys 0x10101).near = true) ∧
    ((coreOf stPinned 0).outb[0]? = some (entW (.phys 0x10101) 3) ∧ outWaits stPinned 0 0 (entW (.phys 0x10101) 3) = true) ∧
    (UniDoes (readyFence stQueue 0 .system) c0 (uniUse 1 [] none) (drainFor (readyFence stQueue 0 .system) 0 .system) ∧
      fenceGate (readyFence stQueue 0 .system) 0 .system = .ok () ∧ owesFar stQueue 0 = false ∧ keptBack stQueue 0 = false) ∧
    (uniChecks (gangOf (readyFence stAsked 0 .gang) 0) c0 (uniUse 1 [] none) = .ok () ∧
      fenceGate (readyFence stAsked 0 .gang) 0 .gang = .error .hold) := by
  refine ⟨⟨((vstAccs oSt stMem c0 (bit0 oSt.lead (actLanes stMem c0 oSt.lead))).toOption).getD [],
      ok_of (by decide +kernel), by decide +kernel, readyOn rfl, ok_of (by decide +kernel)⟩,
    ⟨((spadAccs stSp c0 oLd 3).toOption).getD [], readyOn rfl, by decide +kernel, ok_of (by decide +kernel), by decide +kernel,
      ok_of (by decide +kernel)⟩, by decide +kernel, by decide +kernel,
    ⟨⟨by decide +kernel, ok_of (by decide +kernel), by unfold CanPay; decide +kernel⟩, ok_of (by decide +kernel), by decide +kernel, by decide +kernel⟩,
    ok_of (by decide +kernel), stop_of (by decide +kernel)⟩

/-- Addresses of the uniform accesses below. -/
def vaU : Word := sGet (gangOf stMem 0) 1 + BitVec.ofInt 64 (sext 9 0x1FF * 8)
def vaUs : Word := sGet (gangOf stMem 0) 9 + BitVec.ofInt 64 (sext 8 1 * 8)

/-- States and operands that meet the hypotheses of `UniformLoadsAndStores`. -/
theorem witness_UniformLoadsAndStores :
    (∃ ls, plainBytes stMem 0 (lowThread c0) vaU accRead 8 8 = .ok ls ∧
      UniLoadReady (readyLoad stMem 0 (.ok [uniAcc c0 vaU ls])) c0 1 1 63 vaU ls) ∧
    (∃ ls, spadBytes stMem 0 (lowThread c0) vaUs false 8 8 = .ok ls ∧
      UniLoadReady (readyLoad stMem 0 (.ok [uniAcc c0 vaUs ls])) c0 1 9 63 vaUs ls ∧ orderGate stMem 0 ls = .ok ()) ∧
    UniReady stMem c0 (uniUse 1 [(8, 1), (7, 63)] none) ∧ UniReady stMem c0 (uniUse 1 [(8, 9), (7, 63)] none) ∧
    (∃ ls, plainBytes stMem 0 (lowThread c0) 0x10100 accWrite 8 1 = .ok ls ∧ orderGate stMem 0 ls = .ok ()) := by
  refine ⟨⟨((plainBytes stMem 0 (lowThread c0) vaU accRead 8 8).toOption).getD [], ok_of (by decide +kernel),
      uniReady (by decide +kernel), ok_of (by decide +kernel), by decide +kernel, by decide +kernel⟩,
    ⟨((spadBytes stMem 0 (lowThread c0) vaUs false 8 8).toOption).getD [], ok_of (by decide +kernel),
      ⟨uniReady (by decide +kernel), ok_of (by decide +kernel), by decide +kernel, by decide +kernel⟩, ok_of (by decide +kernel)⟩,
    uniReady rfl, uniReady rfl,
    ⟨((plainBytes stMem 0 (lowThread c0) 0x10100 accWrite 8 1).toOption).getD [], ok_of (by decide +kernel), ok_of (by decide +kernel)⟩⟩

/-- An effect that succeeds and whose price is there. -/
theorem does_of {s : State} {c : Issue} {u : UniUse} {x : Chk State} (h : s.cur = some c)
    (k : (uniChecks (gangOf s c.g) c u).toOption = some () ∧ x.toOption.isSome = true ∧
      (coreOf (x.toOption.getD s) (gangOf (x.toOption.getD s) c.g).core).resv = [] ∧
      (u.price : Int) ≤ (coreOf (x.toOption.getD s) (gangOf (x.toOption.getD s) c.g).core).tokens := by decide +kernel) :
    ∃ s1, UniDoes s c u s1 ∧ x = .ok s1 := by
  obtain ⟨h1, h2, h3⟩ := k
  cases x with
  | error e => cases h2
  | ok s1 => exact ⟨s1, ⟨h, ok_of h1, h3⟩, rfl⟩

/-- A check that succeeds. -/
theorem some_ok {ε α : Type} {x : Except ε α} (h : x.toOption.isSome = true) : ∃ a, x = .ok a := by
  cases x with
  | ok a => exact ⟨a, rfl⟩
  | error e => cases h

/-- Threads 0 and 1 with v1 at 0 and 8 in the team's scratchpad window, s1 at 16 there. -/
def stWin : State :=
  stOf (sPut (vPut (vPut gang0 1 0 0x01FF000000000000) 1 1 0x01FF000000000008) 1 0x01FF000000000010)
    { team0 with spSize := 4096, spBase := 8192 }
/-- v1 at 0 and 8. -/
def stOffs : State := stOf (vPut gang0 1 1 8) { team0 with spSize := 4096, spBase := 8192 }

/-- An addition of v63 at v1, behind a release. -/
def oAt (sp : Bool) : La := ⟨pfx 0 true (some (.v 9)), .i64, 1, .add, ⟨true, true⟩, .device, 63, sp⟩
/-- The same without a prefix. -/
def oAtb (sp : Bool) : La := ⟨.bare, .i64, 1, .cas, ⟨true, true⟩, .device, 63, sp⟩

/-- A check that stops with `e`. -/
theorem is_error {ε α : Type} {x : Except ε α} (h : x.toOption.isNone = true) : ∃ e, x = .error e := by
  cases x with
  | error e => exact ⟨e, rfl⟩
  | ok b => simp [Except.toOption] at h

theorem error_of {ε α : Type} {x : Except ε α} {e : ε} (h : (match x with | .error e => some e | .ok _ => none) = some e) :
    x = .error e := by
  cases x with
  | ok a => cases h
  | error e => simpa using h

/-- The price is there and no event class traps. -/
def payable (t : State) (g price : Nat) : Bool :=
  decide ((coreOf t (gangOf t g).core).resv = [] ∧ (price : Int) ≤ (coreOf t (gangOf t g).core).tokens)
def quietEvents (t : State) (g : Nat) : Bool := (List.range 9).all fun e => Word.fld (srGet (gangOf t g) (rEvt e)) 8 2 != 1

theorem pays_of {t : State} {g price : Nat} (h : payable t g price = true) : CanPay t g price := by
  unfold payable at h; unfold CanPay; exact of_decide_eq_true h
theorem quiet_of {t : State} {g : Nat} (h : quietEvents t g = true) : NoEventTraps (gangOf t g) := by
  intro e he
  have := List.all_eq_true.mp h e (List.mem_range.mpr he)
  simpa using this

/-- A lane atomic that is held up by nothing. -/
theorem atom_of {s : State} {c : Issue} {o : La} {price : Nat} {ld wr st : Bool} {act : W32} {as_ : Chk (List AtomAcc)}
    (h : s.cur = some c) (k : (match as_ with
      | .ok bs => match doAtomics s c o.w o.op ld st o.ord bs with
        | .ok s1 =>
          let t := if bs.isEmpty then s1 else caveNote s1 c.g 3 c.pc
          decide ((atomPoison s c.g 5 bs).toOption = some () ∧
            (laneChecks (gangOf s c.g) c (useAtom o price ld wr) act).toOption = some () ∧
            payable t c.g (lanePrice (useAtom o price ld wr).price act) = true ∧ quietEvents t c.g = true)
        | .error _ => false
      | .error _ => false) = true := by decide +kernel) :
    ∃ bs s1, as_ = .ok bs ∧ atomPoison s c.g 5 bs = .ok () ∧ doAtomics s c o.w o.op ld st o.ord bs = .ok s1 ∧
      LaneDoes s c (useAtom o price ld wr) act act (if bs.isEmpty then s1 else caveNote s1 c.g 3 c.pc) := by
  split at k
  · rename_i bs
    split at k
    · rename_i s1 e
      obtain ⟨h1, h2, h3, h4⟩ := of_decide_eq_true k
      exact ⟨bs, s1, rfl, ok_of h1, e, h, ok_of h2, pays_of h3, quiet_of h4⟩
    · cases k
  · cases k

/-- States and operands that meet the hypotheses of `AtomicsUpdateOneLocation`. -/
theorem witness_AtomicsUpdateOneLocation :
    (let ls := (List.range 8).map Loc.spad; (∀ l ∈ ls, l.near = true) ∧ ls.Nodup ∧ ls.length = IFmt.bits .i64 / 8) ∧
    (let ls := (List.range 4).map fun i => Loc.phys (2 ^ 52 - 4 + i)
     (∀ l ∈ ls, l.near = true) ∧ ls.Nodup ∧ ls.length = IFmt.bits .n32 / 8) := by decide

/-- Places on this device. -/
theorem not_remote {x : Chk (List Loc)} (h : (x.toOption.getD []).all Loc.near = true) : ∀ d c a ls, x ≠ .ok (.remote d c a :: ls) := by
  rintro d c a ls rfl
  simp [Except.toOption, Loc.near] at h

/-- States and operands that meet the hypotheses of `AtomicsUpdateOneLocation`. -/
theorem witness_AtomicsUpdateOneLocation_AtomicInstructions :
    (let o := oAt true; let act := bit0 o.lead (actLanes stWin c0 o.lead)
     let r := readyAtomic stWin 0 o.ord.rel ((lanesOf act).flatMap fun l => (vatmPlace o stWin c0 l).toOption.getD [])
     (∀ l, hasLane act l = true → farLane stWin c0 (vatmPlace o) l = false) ∧
     ∃ as_ s1, laneAtoms r c0 o true (vatmPlace o) act = .ok as_ ∧ atomPoison r c0.g 5 as_ = .ok () ∧
      doAtomics r c0 o.w o.op o.sp false o.ord as_ = .ok s1 ∧
      LaneDoes r c0 (useAtom o 3 o.sp true) act act (if as_.isEmpty then s1 else caveNote s1 c0.g 3 c0.pc)) ∧
    (let o := oAtb false; let act := bit0 o.lead (actLanes stOffs c0 o.lead)
     let r := readyAtomic stOffs 0 o.ord.rel ((lanesOf act).flatMap fun l => (vatmsPlace o stOffs c0 l).toOption.getD [])
     ∃ as_ s1, laneAtoms r c0 o true (vatmsPlace o) act = .ok as_ ∧ atomPoison r c0.g 5 as_ = .ok () ∧
      doAtomics r c0 o.w o.op false false o.ord as_ = .ok s1 ∧
      LaneDoes r c0 (useAtom o 2 false true) act act (if as_.isEmpty then s1 else caveNote s1 c0.g 3 c0.pc)) ∧
    (let o := oAt false; let act := bit0 o.lead (actLanes stWin c0 o.lead)
     let r := readyAtomic stWin 0 o.ord.rel ((lanesOf act).flatMap fun l => (vredPlace o stWin c0 l).toOption.getD [])
     ∃ as_ s1, laneAtoms r c0 o false (vredPlace o) act = .ok as_ ∧ atomPoison r c0.g 5 as_ = .ok () ∧
      doAtomics r c0 o.w o.op false o.sp o.ord as_ = .ok s1 ∧
      LaneDoes r c0 (useAtom o 3 false false) act act (if as_.isEmpty then s1 else caveNote s1 c0.g 3 c0.pc)) ∧
    (let o : UAtm := ⟨63, 1, .team, ⟨true, true⟩, true, .max, false, false⟩
     let r := readyAtomic stWin 0 o.ord.rel ((uatmPlace o c0 stWin).toOption.getD [])
     (∀ d x a ls, uatmPlace o c0 stWin ≠ .ok (.remote d x a :: ls)) ∧ ∃ s1, UniDoes r c0 (useUatm o) s1 ∧ uatmBody o c0 r = .ok s1) ∧
    owesFar stWin 0 = false ∧
    (let a : AtomAcc := { lane := 1, va := 0, locs := [.spad 8, .spad 9], d := 5, c := 7, dest := .lane 1 63 .i16 }
     a.locs = .spad 8 :: [.spad 9] ∧ a.locs.Nodup ∧ a.locs.length = IFmt.bits .i16 / 8 ∧ (thr (gangOf st0 c0.g) a.lane).isSome = true) :=
  ⟨⟨fun l h => by
      have e : bit0 (oAt true).lead (actLanes stWin c0 (oAt true).lead) = 0 := by decide +kernel
      rw [e] at h; simp [hasLane] at h, atom_of rfl⟩, atom_of rfl, atom_of rfl,
   ⟨not_remote (by decide +kernel), does_of rfl⟩, by decide +kernel, by decide +kernel⟩

/-- The partner of team 0 has 64 bytes of scratchpad. -/
def stPair : State :=
  setTeam (stOf gangMem { team0 with spSize := 4096, spBase := 8192, partner := some 1 }) 1 { team0 with core := 1, spSize := 64 }

/-- The places and protections at the windows' edges (R151 to R153). -/
theorem witness_WindowsPlaceBytes :
    genByte stPair 0 0 0x01FF000000000FFF accRead 5 = .ok (.spad (8192 + 4095)) ∧
    genByte stPair 0 0 0x01FF000000001000 accRead 5 = .error (prot 5 0x01FF000000001000 0) ∧
    genByte stPair 0 0 0x01FF80000000003F accWrite 5 = .ok (.spad (2 ^ 18 + 63)) ∧
    genByte stPair 0 0 0x01FF800000000040 accWrite 5 = .error (prot 5 0x01FF800000000040 0) ∧
    genByte stMem 0 0 0x01FF800000000000 accRead 5 = .error (prot 5 0x01FF800000000000 0) ∧
    genByte stMem 0 0 0x01FE000000000000 accRead 5 = .error (prot 5 0x01FE000000000000 0) ∧
    genByte stMem 0 0 0x01F0000000000000 accRead 5 = .error (prot 5 0x01F0000000000000 0) ∧
    genByte stMem 0 0 0x0200000000000000 accRead 5 = .error (prot 5 0x0200000000000000 0) ∧
    (match leafAt stMem 0 0 0x1FFFF with | .leaf _ _ => true | _ => false) = true ∧
    (match leafAt stMem 0 0 0x20000 with | .absent _ _ _ => true | _ => false) = true := by
  refine ⟨ok_of (by decide +kernel), error_of (by decide +kernel), ok_of (by decide +kernel), error_of (by decide +kernel),
    error_of (by decide +kernel), error_of (by decide +kernel), error_of (by decide +kernel), error_of (by decide +kernel),
    by decide +kernel⟩

/-! ### Control -/

/-- Lane 1 has p1 set, lanes 0 and 1 p2; s1 reads 0 and s2 bit 62 alone. -/
def stCtl : State := stOf (sPut { gang0 with p := [(1, 2), (2, 3)] } 2 (2 ^ 62)) team0

/-- States and operands that meet the hypotheses of `BranchesMoveTheRun`. -/
theorem witness_BranchesMoveTheRun :
    CtlReady stCtl c0 (ctlUse [] 4) ∧ loopDepth (gangOf stCtl 0) = 0 ∧
    voters (gangOf stCtl 0) c0.run 1 ≠ 0 ∧ voters (gangOf stCtl 0) c0.run 0 = 0 ∧
    CtlReady stCtl c0 (ctlUse [(8, 63)] 4) ∧ sGet (gangOf stCtl 0) 1 = 0 ∧ sGet (gangOf stCtl 0) 2 ≠ 0 ∧
    (sGet (gangOf stCtl 0) 2).getLsbD (63 - 1) = true ∧ (sGet (gangOf stCtl 0) 2).getLsbD (62 - 1) = false :=
  ⟨ctlReady rfl, by decide +kernel, by decide +kernel, by decide +kernel, ctlReady rfl, by decide +kernel⟩

/-- States and operands that meet the hypotheses of `BranchesMoveTheRun`. -/
theorem witness_BranchesMoveTheRun_VoteBranches :
    CtlReady stCtl c0 (ctlUse [] 4) ∧ CtlReady stCtl c0 (ctlUse [] 8) ∧ loopDepth (gangOf stCtl 0) = 0 ∧
    (c0.run &&& ~~~(voters (gangOf stCtl 0) c0.run 2) = 0) ∧
    (c0.run &&& ~~~(voters (gangOf stCtl 0) c0.run 0) ≠ 0 ∧ voters (gangOf stCtl 0) c0.run 0 = 0) ∧
    (c0.run &&& ~~~(voters (gangOf stCtl 0) c0.run 1) ≠ 0 ∧ voters (gangOf stCtl 0) c0.run 1 ≠ 0) :=
  ⟨ctlReady rfl, ctlReady rfl, by decide +kernel⟩

/-- States and operands that meet the hypotheses of `CallsAndReturns`. -/
theorem witness_CallsAndReturns :
    CtlReady stMem c0 { ctlUse [] 4 with vregs := [(12, 8 * 6 + 7)] } ∧ loopDepth (gangOf stMem 0) = 0 ∧
    (CtlReady stMem c0 { ctlUse [(8, 1)] 4 with vregs := [(7, 63)] } ∧ (sGet (gangOf stMem 0) 1).toNat % 4 = 0) ∧
    (CtlReady stMem c0 { ctlUse [] 4 with vregs := [(8, 1)] } ∧ readTargets stMem c0 1 = .ok ()) :=
  ⟨ctlReady rfl, by decide +kernel, ⟨ctlReady rfl, by decide +kernel⟩, ctlReady rfl, ok_of (by decide +kernel)⟩

/-- States and operands that meet the hypotheses of `NopYieldExit`. -/
theorem witness_NopYieldExit :
    CtlReady st0 c0 (ctlUse [] 4) ∧ loopDepth (gangOf st0 0) = 0 ∧ (gangOf st0 0).role ≠ .worker ∧
    (gangOf st0 0).late.all (fun f => f.dest != .none) = true ∧ (gangOf st0 0).reqs.all (fun r => r.dest != .none) = true ∧
    (gangOf st0 0).calls = [] := ⟨ctlReady rfl, by decide +kernel⟩

/-- Gang 0 in a loop of both threads up to `last`, of `n` iterations. -/
def gangLoop (n : Nat) (last : Word) : Gang :=
  srPut (srPut (srPut (srPut (sPut gang0 1 0) rLoopCount (loopWord 3 n)) rLoopStart 0x10000) rLoopEnd last) rLoopDepth 1
/-- Page 1 holds NOPs at 0x10020. -/
def stLoop0 : State :=
  { stOf gang0 team0 with mem := Memory.write (Memory.write (stOf gang0 team0).mem 0x10023 0xCB) 0x10023 0xCB }

/-- States and operands that meet the hypotheses of `HardwareLoops`. -/
theorem witness_HardwareLoops_LoopsOpen :
    (CtlReady st0 c0 (ctlUse [] 8) ∧ loopDepth (gangOf st0 0) = 0 ∧ 1 ≤ (1 : BitVec 11).toNat ∧ (2047 : BitVec 11).toNat < 2 ^ 32 ∧
      8 ≤ (8 : W32).toInt) ∧
    (let s := stOf (sPut gang0 1 0xFFFFFFFF) team0
     CtlReady s c0 (ctlUse [(8, 1)] 8) ∧ 1 ≤ (sGet (gangOf s 0) 1).toNat ∧ (sGet (gangOf s 0) 1).toNat < 2 ^ 32) ∧
    (let s := stOf (gangLoop 5 0x10020) team0
     CtlReady s c0 (ctlUse [] 8) ∧ loopDepth (gangOf s 0) = 1 ∧ c0.run &&& ~~~(loopSet (gangOf s 0)) = 0 ∧
      (c0.pc + BitVec.signExtend 64 (0x20 : W32)).toNat ≤ (srGet (gangOf s 0) rLoopEnd).toNat) ∧
    (CtlReady stLoop0 c0 (ctlUse [(8, 1)] 8) ∧ 0 = (sGet (gangOf stLoop0 0) 1).toNat ∧
      ∃ k, lengthAt stLoop0 c0.g (c0.pc + BitVec.signExtend 64 (0x20 : W32)) = .ok k) :=
  ⟨⟨ctlReady rfl, by decide +kernel⟩, ⟨ctlReady rfl, by decide +kernel⟩, ⟨ctlReady rfl, by decide +kernel⟩,
   ctlReady rfl, by decide +kernel, some_ok (by decide +kernel)⟩

/-- States and operands that meet the hypotheses of `HardwareLoops`. -/
theorem witness_HardwareLoops_LoopsRepeat :
    let H := fun n => moveThreads (gangLoop n 0x10000) 3 0x10004
    ∀ n, n ∈ [1, 2, 2 ^ 32 - 1] → let s := stOf (H n) team0
      loopDepth (gangOf s 0) = 1 ∧ srGet (gangOf s 0) rLoopEnd = c0.pc ∧ loopSet (gangOf s 0) ≠ 0 ∧ loopCnt (gangOf s 0) = n ∧
      (∀ l, l < 32 → hasLane (loopSet (gangOf s 0)) l = true → hasLane c0.run l = true ∧
        ((thr (gangOf s 0) l).map (·.pc) = some 0x10004 ∧ (thr (gangOf s 0) l).map (·.held) = some false)) := by decide +kernel

/-- v1 of lane 0 names 0x10200, of lane 1 0x10100; gang 1 of the team is a worker gang. -/
def stCall : State :=
  let G := vPut (vPut gang0 1 0 0x10200) 1 1 0x10100
  setGang (stOf G { team0 with ngang := 2 }) 1 { Gang.blank with role := .worker }
/-- The same, with no worker gang, in an inline call. -/
def stIn : State :=
  stOf { vPut (vPut gang0 1 0 0x10200) 1 1 0x10100 with
    calls := [{ ret := 0x10004, active := 3, done := 0, returned := 0, pending := [] }] } team0

/-- States and operands that meet the hypotheses of `LaneVaryingCalls`. -/
theorem witness_LaneVaryingCalls :
    (let r := sendFar stCall 0
     UniDoes r c0 (useDispatch 1) (caveNote (drainGang r 0) 0 4 c0.pc) ∧ readTargets r c0 1 = .ok () ∧
      releaseGate r 0 = .ok () ∧ dispatchesAway r 0 = true) ∧
    (let r := sendFar stIn 0
     UniDoes r c0 (useDispatch 1) (caveNote (drainGang r 0) 0 4 c0.pc) ∧ readTargets r c0 1 = .ok () ∧
      releaseGate r 0 = .ok () ∧ dispatchesAway r 0 = false ∧
      ∀ l, l < 32 → hasLane c0.run l = true → inlineDepth (gangOf r 0) l < 8) ∧
    (let r := sendFar stIn 0
     CtlReady r c0 (ctlUse [] 4) ∧ releaseGate r 0 = .ok () ∧
      ∀ l, l < 32 → hasLane c0.run l = true → (inlineOf (gangOf r 0) l).isSome ∨ (SMap.find (gangOf r 0).formed l).isSome) ∧
    byTarget (gangOf stIn 0) c0.run 1 = (0x10100, 2) :: [(0x10200, 1)] :=
  ⟨⟨⟨by decide +kernel, ok_of (by decide +kernel), by unfold CanPay; decide +kernel⟩, ok_of (by decide +kernel), ok_of (by decide +kernel), by decide +kernel⟩,
   ⟨⟨by decide +kernel, ok_of (by decide +kernel), by unfold CanPay; decide +kernel⟩, ok_of (by decide +kernel), ok_of (by decide +kernel), by decide +kernel⟩,
   ⟨ctlReady (by decide +kernel), ok_of (by decide +kernel), by decide +kernel⟩, by decide +kernel⟩

/-- States and operands that meet the hypotheses of `LaneVaryingCalls`. -/
theorem witness_LaneVaryingCalls_WorkersTakeQueuedItems :
    (let it : DispItem := { caller := { gang := 0, lane := 31 }, regs := [7] }
     let s := setTeam stCall 0 { team0 with ngang := 2, queues := [(0x10200, [it]), (0x10100, List.replicate 33 it)] }
     (SMap.find s.gangs 1).isSome = true ∧ (gangOf s 1).role = .worker ∧ (gangOf s 1).threads = [] ∧
      (teamOf s (teamKey 1)).st = .running ∧ (gangOf s 1).stopped = false ∧ (gangOf s 1).frozen = none ∧
      (gangOf s 1).exiting = false ∧ fullestQueue (teamOf s (teamKey 1)).queues = some (0x10100, List.replicate 33 it)) ∧
    (let th : Thread := { pc := 0x10000, held := false, wait := .dispatchLate 0x10200 }
     (31 : Nat) < 32 ∧ thr (gangOf (stOf { gang0 with threads := [(31, th)] } team0) 0) 31 = some th) := by decide +kernel

/-! ### Barriers, waits, timelines, engine commands -/

/-- A body that answers a state and something more. -/
theorem does_of₂ {α : Type} {s : State} {c : Issue} {u : UniUse} {x : Chk (State × α)} (h : s.cur = some c)
    (k : (uniChecks (gangOf s c.g) c u).toOption = some () ∧
      (match x with | .ok r => payable r.1 c.g u.price | .error _ => false) = true := by decide +kernel) :
    ∃ s1 a, UniDoes s c u s1 ∧ x = .ok (s1, a) := by
  cases x with
  | error e => cases k.2
  | ok r => exact ⟨r.1, r.2, ⟨h, ok_of k.1, pays_of k.2⟩, rfl⟩

/-- Team 0 with 4,096 bytes of scratchpad from 8,192 on. -/
def team4k : Team := { team0 with spSize := 4096, spBase := 8192 }
/-- Writes bytes. -/
def poke (s : State) (mk : Nat → Loc) (at_ : Nat) (bs : List Byte) : State :=
  locWrites s (bs.zipIdx.map fun e => (mk (at_ + e.2), e.1))
/-- s1 names a barrier of two arrivals at 0x100 of the team's scratchpad, in phase 7; s2 is 1, s3 is 7, s5 is 2. -/
def stBar : State :=
  let G := sPut (sPut (sPut (sPut gang0 1 0x01FF000000000100) 2 1) 3 7) 5 2
  poke (stOf G team4k) .spad (8192 + 0x100) (leBytes 16 (barNat { freshBar 2 1 with phase := 7 }))

/-- States and operands that meet the hypotheses of `PhaseBarriers`. -/
theorem witness_PhaseBarriers_BarrierObject :
    let b : Bar := { phase := 2 ^ 32 - 1, expect := 2 ^ 16 - 1, pend := 0, bytes := -(2 ^ 31), init := true, fault := true, scope := 7, low := 2 ^ 27 - 1 }
    b.phase < 2 ^ 32 ∧ b.expect < 2 ^ 16 ∧ b.pend < 2 ^ 16 ∧ -(2 ^ 31) ≤ b.bytes ∧ b.bytes < 2 ^ 31 ∧ b.scope < 8 ∧ b.low < 2 ^ 27 := by
  decide

/-- States and operands that meet the hypotheses of `PhaseBarriers`. -/
theorem witness_PhaseBarriers_BarrierInstructions :
    (∃ s1, UniDoes stBar c0 (uniUse 1 [(8, 1), (9, 5)] none) s1 ∧ binitBody stBar c0 1 5 2 = .ok s1) ∧
    (∃ s1 ck, UniDoes (sendFar stBar 0) c0 (useArrive 63 1 (.reg 5)) s1 ∧
      barBody (sendFar stBar 0) c0 63 1 true true (arriveBar c0 (.reg 5)) = .ok (s1, ck)) ∧
    (∃ s1 ck, UniDoes (sendFar stBar 0) c0 (uniUse 1 [(8, 1), (9, 3)] (some 63)) s1 ∧
      barBody (sendFar stBar 0) c0 63 1 true true (expectBar c0 3 true) = .ok (s1, ck)) ∧
    (1 ≤ arrivals c0 gang0 .one ∧ arrivals c0 gang0 .run ≤ 65535 ∧ arrivals c0 gang0 .run ≤ (freshBar 2 1).pend) ∧
    arrivals c0 gang0 (.reg 0) = 0 ∧ 65535 < arrivals c0 (sPut gang0 0 65536) (.reg 0) ∧ (freshBar 1 1).pend < arrivals c0 gang0 .run ∧
    (let G := sPut gang0 3 (2 ^ 31 - 1); (sGet G 3).toNat ≤ 2 ^ 31 - 1 ∧ (freshBar 1 1).bytes + ((sGet G 3).toNat : Int) ≤ 2 ^ 31 - 1 ∧
      1 ≤ (freshBar 1 1).pend) :=
  ⟨does_of rfl, does_of₂ (by decide +kernel), does_of₂ (by decide +kernel), by decide +kernel⟩

/-- The same with gang 0's threads waiting for phase `p`. -/
def stWait (p : Word) : State :=
  modGang stBar 0 fun G => modThreads G 3 fun t => { t with wait := .phase .bar 0x01FF000000000100 p true }

/-- Places of the barrier. -/
def barLs : List Loc := (List.range 16).map fun i => .spad (8192 + 0x100 + i)
/-- The same barrier, in phase 7, has FAULT set, and gang 0 is in its handler. -/
def stFailed : State :=
  modGang (poke (stWait 7) .spad (8192 + 0x100) (leBytes 16 (barNat { freshBar 2 1 with phase := 7, fault := true }))) 0 fun G =>
    { G with handler := some 1 }
/-- s4 names completion timeline 3 of class 1. -/
def stTl : State := modGang stBar 0 fun G => sPut G 4 (2 ^ 60 + 3)

/-- States and operands that meet the hypotheses of `PhaseWaits`. -/
theorem witness_PhaseWaits :
    (let s := modGang stBar 0 fun G => sPut G 3 6
     let s0 := readyWait s c0 .bar (sGet (gangOf s 0) 1)
     uniChecks (gangOf s 0) c0 (uniUse 0 [(8, 1), (9, 3)] none) = .ok () ∧
      waitChecks s0 c0 .bar (sGet (gangOf s 0) 1) (sGet (gangOf s 0) 3) = .ok barLs ∧ writeGate s0 0 barLs = .ok () ∧
      waitRule s0 c0 .bar (sGet (gangOf s 0) 1) (sGet (gangOf s 0) 3) barLs = .done [] ∧ loopDepth (gangOf s0 0) = 0) ∧
    (let s0 := readyWait stTl c0 .tl (sGet (gangOf stTl 0) 4)
     uniChecks (gangOf stTl 0) c0 (uniUse 0 [(8, 4), (9, 3)] none) = .ok () ∧
      waitChecks s0 c0 .tl (sGet (gangOf stTl 0) 4) (sGet (gangOf stTl 0) 3) = .ok [] ∧ orderGate s0 0 [] = .ok () ∧
      waitRule s0 c0 .tl (sGet (gangOf stTl 0) 4) (sGet (gangOf stTl 0) 3) [] = .yet) ∧
    (∀ p : Word, p = 6 ∨ p = 7 → let s := stWait p
      (thr (gangOf s 0) 1).map (·.wait) = some (.phase .bar 0x01FF000000000100 p true) ∧ (gangOf s 0).frozen = none ∧
      (gangOf s 0).stopped = false ∧ (teamOf s (teamKey 0)).st = .running ∧ (gangOf s 0).handler = none ∧
      waitGroup (gangOf s 0) 1 = 3 ∧ waitChecks s c0 .bar 0x01FF000000000100 p = .ok barLs ∧
        waitRule s c0 .bar 0x01FF000000000100 p barLs = if p = 6 then .done [] else .yet) ∧
    ((thr (gangOf stFailed 0) 1).map (·.wait) = some (.phase .bar 0x01FF000000000100 7 true) ∧ waitAway stFailed 0 1 = true ∧
      (waitFault stFailed 0 1).isSome = true) ∧
    (∃ x, thr (gangOf st0 0) 0 = some x ∧ x.wait = .none) := by
  refine ⟨⟨ok_of (by decide +kernel), ok_of (by decide +kernel), ok_of (by decide +kernel), by decide +kernel⟩,
    ⟨ok_of (by decide +kernel), ok_of (by decide +kernel), ok_of (by decide +kernel), by decide +kernel⟩, ?_, by decide +kernel, ⟨_, rfl, rfl⟩⟩
  rintro p (rfl | rfl)
  · exact ⟨by decide +kernel, by decide +kernel, by decide +kernel, by decide +kernel, by decide +kernel, by decide +kernel,
      ok_of (by decide +kernel), by decide +kernel⟩
  · exact ⟨by decide +kernel, by decide +kernel, by decide +kernel, by decide +kernel, by decide +kernel, by decide +kernel,
      ok_of (by decide +kernel), by decide +kernel⟩

/-- States and operands that meet the hypotheses of `TimelinesCachesPages`. -/
theorem witness_TimelinesCachesPages_TimelinesAdvance :
    (let o : Ur3 := ⟨63, 1, 2⟩
     let r := sendFar stMem 0
     (∀ d x a ls, tladvPlaces r c0 (sGet (gangOf stMem 0) o.sa.val) ≠ .ok (.remote d x a :: ls)) ∧
     ∃ s1, UniDoes r c0 (uniUse 1 [(8, o.sa.val), (9, o.sb.val)] (some o.sd.val)) s1 ∧ tladvBody o c0 r = .ok s1) ∧
    tladvPlaces stMem c0 (sGet (gangOf stMem 0) 1) = .ok ((List.range 8).map fun i => .phys (0x10100 + i)) :=
  ⟨⟨not_remote (by decide +kernel), does_of (by decide +kernel)⟩, ok_of (by decide +kernel)⟩

/-- States and operands that meet the hypotheses of `TimelinesCachesPages`. -/
theorem witness_TimelinesCachesPages_CacheAndPageq :
    (let s := stOf (sPut (sPut gang0 1 0x10100) 2 64) team0
     (∃ ps, zeroLines s c0 1 2 = .ok ps) ∧ UniReady s c0 (uniUse 2 [(8, 1), (9, 2)] none) ∧ UniReady s c0 (uniUse 1 [(8, 1)] (some 63)) ∧
     (match leafAt s 0 0 0x10100 with
      | .leaf e big => (placeOf s (leafPhys e big 0x10100 / 65536)).home.blt 4 && (placeOf s (leafPhys e big 0x10100 / 65536)).res.blt 4
      | .absent .. => false) = true) ∧
    (∀ e big, leafAt st0 0 0 (0x20000 : Word).toNat ≠ .leaf e big) :=
  ⟨⟨some_ok (by decide +kernel), uniReady rfl, uniReady rfl, by decide +kernel⟩, fun e big h => by
    have k : (match leafAt st0 0 0 (0x20000 : Word).toNat with | .leaf _ _ => true | _ => false) = false := by decide +kernel
    rw [h] at k; cases k⟩

/-- A tile of 64 bytes from 0x10200, of one dimension; a list of one request for it at 0x40 of the scratchpad; s8 names the
record, s11 to s14 the command words with a barrier at 0x100, s1 the list, s2 is 1. -/
def stCopy : State :=
  let G := sPut (sPut (sPut (sPut gang0 8 0x10100) 14 0x01FF000000000100) 1 0x40) 2 1
  let s := poke (stOf G team4k) .phys 0x10100 (leBytes 40 (0x10200 + 2 ^ 121 + 64 * 2 ^ 128 + 64 * 2 ^ 288))
  poke s .spad (8192 + 0x40) (leBytes 8 0x10100)
def oCopy (bar : Bool) : Eng := ⟨63, 8, 11, 3, bar⟩

/-- Two cores of a pair with eight matrix gangs each; s0 and s4 name operands at 0x10100, s3 a sparse layout. -/
def stPairs : State :=
  let M := { gang0 with role := .matrix, threads := [] }
  let s := stOf (sPut (sPut (sPut { gang0 with role := .matrix } 0 0x10100) 4 0x10100) 3 (2 ^ 56)) { team0 with ngang := 8, partner := some 1, leader := true }
  let s := setTeam s 1 { team0 with core := 1, ngang := 8, partner := some 0, number := 1 }
  { s with gangs := s.gangs ++ ((List.range 7).map fun i => (i + 1, M)) ++ ((List.range 8).map fun i => (32 + i, { M with core := 1 })) }

/-- A record at 0x10100 whose join counter lies at 0x20020, on another device by the context's tables. -/
def stSpawn : State :=
  let w := fun s (a n : Nat) => poke s .phys a (leBytes 8 n)
  w (w (w (w (w (w stMem 0x10110 0x20020) 0 0x1000) 0x1000 (2 ^ 63 + 0x2000)) 0x2000 (2 ^ 63 + 0x3000)) 0x3000 (2 ^ 63 + 0x4000))
    0x4010 (2 ^ 63 + 3 * 2 ^ 60 + 2 ^ 52 + 5 * 2 ^ 40)

/-- A command that is held up by nothing, whose record is at hand. -/
theorem runs_of {s : State} {c : Issue} {u : UniUse} {x : Chk State} (h : (sendFar s c.g).cur = some c)
    (k : (uniChecks (gangOf (sendFar s c.g) c.g) c u).toOption = some () ∧ (match x with | .ok t => payable t c.g u.price | .error _ => false) = true :=
      by decide +kernel) : ∃ s1, UniDoes (sendFar s c.g) c u s1 ∧ x = .ok s1 := by
  cases x with
  | error e => cases k.2
  | ok t => exact ⟨t, ⟨h, ok_of k.1, pays_of k.2⟩, rfl⟩

/-- A record of this device is at hand. -/
theorem atHand_of {sa : Fin 64} {s : State} {c : Issue}
    (k : (match recordPlaces s c.g (lowThread c) (sGet (gangOf s c.g) sa.val) with
      | .ok ls => (uniAcc c (sGet (gangOf s c.g) sa.val) ls).far | .error _ => false) = false := by decide +kernel) : recordAtHand sa s c := by
  intro ls e f
  rw [e] at k
  simp_all

/-- Places of the record, of the list and of the code record below. -/
def recLs : List Loc := (List.range 128).map fun i => .phys (0x10100 + i)
def listLs : List Loc := (List.range 64).map fun i => .spad (8192 + 0x40 + i)
def itemLs : List Loc := (List.range 32).map fun i => .phys (0x10100 + i)

/-- States and operands that meet the hypotheses of `EngineCommandsIssue`. -/
theorem witness_EngineCommandsIssue :
    (11 : Fin 64).val ≤ 60 ∧ recordAtHand 8 stCopy c0 ∧
    (∃ s1, UniDoes (sendFar stCopy c0.g) c0 (useCopy (oCopy true) 4) s1 ∧ copyBody (oCopy true) .ld c0 (sendFar stCopy c0.g) = .ok s1) ∧
    (∃ s1, UniDoes (sendFar stCopy c0.g) c0 (useCopy (oCopy false) 4) s1 ∧ copyBody (oCopy false) .st c0 (sendFar stCopy c0.g) = .ok s1) ∧
    (∃ s1, UniDoes (sendFar stCopy c0.g) c0 (useCopy (oCopy true) 6) s1 ∧ copyBody (oCopy true) .xfer c0 (sendFar stCopy c0.g) = .ok s1) ∧
    (kickFar ⟨63, 1, 2⟩ c0 stCopy = [] ∧
      ∃ s1, UniDoes (sendFar stCopy c0.g) c0 (uniUse 4 [(8, 1), (9, 2)] (some 63)) s1 ∧ kickBody ⟨63, 1, 2⟩ 0 c0 (sendFar stCopy c0.g) = .ok s1) ∧
    (∃ s1, UniDoes (sendFar stCopy c0.g) c0 (uniUse 6 [(8, 8)] (some 63)) s1 ∧ abortBody 63 8 1 c0 (sendFar stCopy c0.g) = .ok s1) :=
  ⟨by decide, atHand_of, runs_of (by decide +kernel), runs_of (by decide +kernel), runs_of (by decide +kernel),
   ⟨by decide +kernel, runs_of (by decide +kernel)⟩, runs_of (by decide +kernel)⟩

/-- States and operands that meet the hypotheses of `EngineCommandsIssue`. -/
theorem witness_EngineCommandsIssue_others :
    (∃ s1, UniDoes (sendFar stPairs c0.g) c0 (useMma ⟨63, 0, 4, true, false⟩) s1 ∧ acceptMatrix (sendFar stPairs c0.g) c0 ⟨63, 0, 4, true, false⟩ false = .ok s1) ∧
    (let s := modGang stPairs 0 fun G => sPut G 1 (2 ^ 56)
     ∃ s1, UniDoes (sendFar s c0.g) c0 (useMma ⟨63, 0, 4, true, false⟩) s1 ∧ acceptMatrix (sendFar s c0.g) c0 ⟨63, 0, 4, true, false⟩ true = .ok s1) ∧
    (UniReady stCopy c0 (uniUse 1 [(8, 8)] (some 63)) ∧ (cancelled stCopy 0 8 0).any inFlight = false) ∧
    CtlReady stCopy c0 (uniUse 0 [] (some 62)) ∧
    ((∀ ls, spawnPlaces stSpawn c0 (sGet (gangOf stSpawn 0) 1) = .ok ls → (uniAcc c0 (sGet (gangOf stSpawn 0) 1) ls).far = false) ∧
      ∃ s1, UniDoes (sendFar stSpawn c0.g) c0 (uniUse 2 [(8, 1)] none) s1 ∧ spawnBody 1 true c0 (sendFar stSpawn c0.g) = .ok s1) :=
  ⟨runs_of (by decide +kernel), runs_of (by decide +kernel),
   ⟨uniReady rfl, by decide +kernel⟩, ctlReady rfl,
   fun ls h => by
     have e : spawnPlaces stSpawn c0 (sGet (gangOf stSpawn 0) 1) = .ok itemLs := ok_of (by decide +kernel)
     rw [← Except.ok.inj (e.symm.trans h)]; decide +kernel, runs_of (by decide +kernel)⟩

/-- A command that is held up by nothing. -/
theorem commandReady {s : State} {c : Issue} {u : UniUse} (h : s.cur = some c)
    (k : (uniChecks (gangOf s c.g) c u).toOption = some () ∧ payable s c.g u.price = true ∧ (releaseGate s c.g).toOption = some () ∧
      owesFar s c.g = false ∧ (gangOf s c.g).loads = [] := by decide +kernel) : CommandReady s c u :=
  ⟨h, ok_of k.1, fun _ => pays_of k.2.1, ok_of k.2.2.1, k.2.2.2.1, k.2.2.2.2⟩

theorem copyReady {o : Eng} {price : Nat} (h : CommandReady stCopy c0 (useCopy o price)) (k : o.sb.val ≤ 60 ∧ o.sa.val = 8 ∧
    (blockChecks stCopy 0 (lowThread c0) (blockWords (gangOf stCopy 0) o.sb.val) o.bar).toOption = some () ∧
    (tcuOf stCopy (gangOf stCopy 0).core o.ctx.val).cmds.length < 64 := by decide +kernel) : CopyReady stCopy c0 o price recLs :=
  ⟨h, k.1, by rw [show o.sa.val = 8 from k.2.1]; exact ok_of (by decide +kernel), by decide +kernel, ok_of k.2.2.1, k.2.2.2⟩

theorem not_absent {α : Type} {x : Except (Cause × Nat × Word) α}
    (h : (match x with | .error (.pagef, _, _) => true | _ => false) = false) : ∀ k a, x ≠ .error (.pagef, k, a) := by
  rintro k a rfl
  simp at h

/-- States and operands that meet the hypotheses of `EngineCommandsComplete`. -/
theorem witness_EngineCommandsComplete :
    CopyReady stCopy c0 (oCopy true) 4 recLs ∧ CopyReady stCopy c0 (oCopy false) 4 recLs ∧
    (CopyReady stCopy c0 (oCopy true) 6 recLs ∧
      let u := endLoads (drainAll stCopy 0) 0
      let p := prepare u 0 0 .xfer (leNat (recLs.map (locRead u))) (blockWords (gangOf stCopy 0) 11)
        ((recLs.findSome? (locPoison u)).map fun k => (.spue, k, 0x10100))
      p.bad = none ∧ p.count = 0 ∧ SerialsFit stCopy 0 0) ∧
    (let o : Ur3 := ⟨63, 1, 2⟩
     let u := drainAll stCopy 0
     CommandReady stCopy c0 (uniUse 4 [(8, 1), (9, 2)] (some 63)) ∧ kickPlaces o c0 stCopy = .ok listLs ∧
      spuePoison stCopy 0 8 (uniAcc c0 (sGet (gangOf stCopy 0) 1) listLs) = none ∧ kickFar o c0 stCopy = [] ∧
      (sGet (gangOf stCopy 0) 2).toNat = 1 ∧ (tcuOf stCopy 0 0).cmds.length + 1 ≤ 64 ∧
      blockChecks u 0 (lowThread c0) ((List.range 4).map fun k => BitVec.ofNat 64 (fld (kickReq (listLs.map (locRead u)) 0) (64 + 64 * k) 64))
        (bitOf (fld (kickReq (listLs.map (locRead u)) 0) 320 64) 1) = .ok () ∧
      recordPlaces u 0 (lowThread c0) (BitVec.ofNat 64 (fld (kickReq (listLs.map (locRead u)) 0) 0 64)) = .ok recLs) ∧
    (CommandReady stCopy c0 (uniUse 6 [(8, 14)] (some 63)) ∧ (tcuOf stCopy 0 1).cmds.length < 64 ∧
      ∀ k a, readComm (drainAll stCopy 0) (teamOf (drainAll stCopy 0) 0).ctx (sGet (gangOf stCopy 0) 14) ≠ .error (.pagef, k, a)) ∧
    (let G := gangOf stPairs 0
     CommandReady stPairs c0 (useMma ⟨63, 0, 4, true, false⟩) ∧ G.role = .matrix ∧ (teamOf stPairs 0).partner.isSome = true ∧
      (teamOf stPairs 0).leader = true ∧ (groupGangs stPairs 0 false).length = 16 ∧
      operandOk (sGet G 0) (sGet G 1) false (layFmt (sGet G 1)) = true ∧ operandOk (sGet G 4) (sGet G 5) false (layFmt (sGet G 1)) = true ∧
      (matOf stPairs (pairOfCore (teamOf stPairs 0).core)).ops.length < 4) ∧
    (let s := modGang stPairs 0 fun G => sPut G 1 (2 ^ 56)
     let G := gangOf s 0
     CommandReady s c0 (useMma ⟨63, 0, 4, true, false⟩) ∧ operandOk (sGet G 0) (sGet G 1) true (layFmt (sGet G 1)) = true ∧
      operandOk (sGet G 4) (sGet G 5) false (layFmt (sGet G 1)) = true) ∧
    (UniReady stCopy c0 (uniUse 1 [(8, 8)] (some 63)) ∧ (cancelled stCopy 0 8 0).any inFlight = false) ∧
    CtlReady stCopy c0 (uniUse 0 [] (some 62)) ∧
    (let n := leNat ((gangBytes stSpawn 0 itemLs).getD [])
     CommandReady stSpawn c0 (uniUse 2 [(8, 1)] none) ∧ spawnPlaces stSpawn c0 (sGet (gangOf stSpawn 0) 1) = .ok itemLs ∧
      itemLs.all Loc.near = true ∧ spuePoison stSpawn 0 8 (uniAcc c0 (sGet (gangOf stSpawn 0) 1) itemLs) = none ∧ spawnOk n true = true ∧
      spawnCounter stSpawn c0 true (recordOf n).join = .ok () ∧ recordRoom stSpawn (ctxOfTeam (teamKey 0)) = true ∧ SerialsFit stSpawn 0 1) :=
  ⟨copyReady (commandReady rfl), copyReady (commandReady rfl), ⟨copyReady (commandReady rfl), by unfold SerialsFit; decide +kernel⟩,
   ⟨commandReady rfl, ok_of (by decide +kernel), by decide +kernel, by decide +kernel, by decide +kernel, by decide +kernel,
    ok_of (by decide +kernel), ok_of (by decide +kernel)⟩,
   ⟨commandReady rfl, by decide +kernel, not_absent (by decide +kernel)⟩,
   ⟨commandReady rfl, by decide +kernel⟩, ⟨commandReady (by decide +kernel), by decide +kernel⟩, ⟨uniReady rfl, by decide +kernel⟩, ctlReady rfl,
   commandReady rfl, ok_of (by decide +kernel), by decide +kernel, by decide +kernel, by decide +kernel, ok_of (by decide +kernel),
   by simp [recordRoom]; decide +kernel, by unfold SerialsFit; decide +kernel⟩

/-- The accepted copy and matrix operation, and a command that TCANCEL takes out. -/
theorem witness_EngineCommandsIssue_EngineContextsHoldCommands :
    (∃ s1, copyBody (oCopy true) .ld c0 stCopy = .ok s1) ∧
    (let s := modTcu stCopy 0 3 fun t => { t with issued := 5, cmds := [blankCmd .ld 5 0 0 0x10000] }
     cancelled s 0 10 3 = [blankCmd .ld 5 0 0 0x10000]) := ⟨some_ok (by decide +kernel), by decide +kernel⟩

/-- States and operands that meet the hypotheses of `MatrixUnit`. -/
theorem witness_MatrixUnit_MatrixAcceptance : ∃ s1, acceptMatrix stPairs c0 ⟨63, 0, 4, true, false⟩ false = .ok s1 := some_ok (by decide +kernel)

/-- States and operands that meet the hypotheses of `WindowsPlaceBytes`. -/
theorem witness_WindowsPlaceBytes_PagesRefuse :
    ((2 ^ 51 : Word).getLsbD 51 = true) ∧ ((2 ^ 63 + 2 ^ 55 + 2 ^ 53 : Word).getLsbD 51 = false) := by decide

/-! ### Traps, chains, events, tokens -/

/-- A handler at 0x20000. -/
def stTrap : State := stOf (srPut gang0 rTsVec 0x20000) team0
/-- Gang 0 in its handler, to return to 0x10040. -/
def stHandler : State := stOf { srPut gang0 rTsRpc 0x10040 with handler := some 3 } team0
/-- Error recovery is host-assisted. -/
def stAssist : State := mgmtPut stTrap offMode 32
/-- Debugging is enabled on core 0. -/
def stDbg : State := mgmtPut st0 (offDbg 0) (2 ^ 63)

/-- States and operands that meet the hypotheses of `TakingATrap`. -/
theorem witness_TakingATrap_TakingATrapEntersTheHandler :
    (gangOf stTrap 0).handler = none ∧ srGet (gangOf stTrap 0) rTsVec ≠ 0 ∧ hostMode stTrap 5 = false := by decide +kernel

/-- States and operands that meet the hypotheses of `TakingATrap`. -/
theorem witness_TakingATrap_FaultsWithoutHandlerFreeze :
    ((gangOf st0 0).handler = none ∧ srGet (gangOf st0 0) rTsVec = 0) ∧
    ((gangOf stAssist 0).handler = none ∧ srGet (gangOf stAssist 0) rTsVec ≠ 0 ∧ hostMode stAssist 5 = true) ∧
    (gangOf stHandler 0).handler.isSome = true := by decide +kernel

/-- States and operands that meet the hypotheses of `TrapsAndReturns`. -/
theorem witness_TrapsAndReturns_TrapInstruction :
    CtlReady stTrap c0 (ctlUse [] 4) ∧ loopDepth (gangOf stTrap 0) = 0 ∧ c0.run ≠ 0 ∧ (gangOf stTrap 0).handler = none ∧
    srGet (gangOf stTrap 0) rTsVec ≠ 0 ∧ hostMode stTrap 5 = false := ⟨ctlReady rfl, by decide +kernel⟩

/-- States and operands that meet the hypotheses of `TrapsAndReturns`. -/
theorem witness_TrapsAndReturns_ReturnFromATrap :
    (CtlReady stHandler c0 (ctlUse [] 4) ∧ loopDepth (gangOf stHandler 0) = 0 ∧ (gangOf stHandler 0).handler.isSome = true ∧
      (srGet (gangOf stHandler 0) rTsRpc).toNat % 4 = 0 ∧ (gangOf stHandler 0).stopTrap = false) ∧
    (CtlReady st0 c0 (ctlUse [] 4) ∧ (gangOf st0 0).handler = none) ∧
    (∃ G, gangOf (takeTrap st0 0 3 (gangRec st0 0 0x10000 .swtrap 0 0 0xFF 0 false) 0x10004) 0 = G ∧ G.frozen.isSome = true) :=
  ⟨⟨ctlReady rfl, by decide +kernel⟩, ⟨ctlReady rfl, by decide +kernel⟩, _, rfl, by decide +kernel⟩

/-- States and operands that meet the hypotheses of `TrapsAndReturns`. -/
theorem witness_TrapsAndReturns_BreakpointInstruction :
    (CtlReady st0 c0 (ctlUse [] 4) ∧ loopDepth (gangOf st0 0) = 0 ∧ dbgEn st0 (gangOf st0 0).core = false) ∧
    (CtlReady stDbg c0 (ctlUse [] 4) ∧ loopDepth (gangOf stDbg 0) = 0 ∧ dbgEn stDbg (gangOf stDbg 0).core = true) :=
  ⟨⟨ctlReady rfl, by decide +kernel⟩, ⟨ctlReady rfl, by decide +kernel⟩⟩

/-- A budget of eight registers. -/
def gangSmall : Gang := { gang0 with budget := 0 }
/-- An addition that reads latch x1 and writes v8. -/
def oX : Lr2 IFmt := ⟨.bare, .i32, .x 1, .src (.v 2), 8, false⟩
def oV : Lr2 IFmt := ⟨.bare, .i32, .v 7, .src (.v 2), 8, false⟩

/-- States and operands that meet the hypotheses of `FailedChecksTrap`. -/
theorem witness_FailedChecksTrap :
    laneChecks (gangOf st0 0) c0 (useLr2 oX 1 false) 3 = .error (.bad .illchain 1 1 0xFF 0) ∧
    (let s := stOf gangSmall team0; uniChecks (gangOf s 0) c0 { ctlUse [] 4 with vregs := [(8, 8)] } = .error (prot 8)) ∧
    (∀ v ∈ [(8, 7)], v.2 < 8 * gangSmall.budget + 8) ∧ (∃ v ∈ [(8, 8)], 8 * gangSmall.budget + 8 ≤ v.2) ∧
    (let s := stOf gangSmall team0
     s.cur = some c0 ∧ chainCheck (gangOf s 0) c0 (useLr2 oV 1 false) = .ok () ∧
      (∀ v ∈ (useLr2 oV 1 false).vregs, v.2 ≠ oV.d.val → v.2 < 8 * (gangOf s 0).budget + 8) ∧
      8 * (gangOf s 0).budget + 8 ≤ oV.d.val) :=
  ⟨error_of (by decide +kernel), error_of (by decide +kernel), by decide +kernel, ⟨(8, 8), by decide +kernel⟩, rfl, ok_of (by decide +kernel),
    by decide +kernel⟩

/-- A chain of `n` members of run `m`. -/
def gangChain (m : W32) (n : Nat) : Gang :=
  { gang0 with chain := some { head := 0x10000, run := m, members := n, joins := false, vRead := [], pRead := [], events := [] } }

/-- States and operands that meet the hypotheses of `LatchChains`. -/
theorem witness_LatchChains_LatchChainChecks :
    (∃ r ∈ (useLr2 oX 1 false).reads, ∃ k, r.src = .x k) ∧ gang0.chain = none ∧
    (∃ k, (gangChain 1 2).chain = some k ∧ k.run ≠ c0.run) ∧
    (∃ k, (gangChain 3 4).chain = some k ∧ k.run = c0.run ∧ (gangChain 3 4).chainEnd = .never ∧
      (∀ r ∈ (useLr2 oX 1 false).reads, ∀ j, r.src = .x j → j.val + 1 ≤ k.members) ∧ 4 ≤ k.members) ∧
    (∃ k, (gangChain 3 1).chain = some k ∧ k.run = c0.run ∧ (gangChain 3 1).chainEnd = .never ∧
      ∃ r ∈ (useLr2 oX 1 false).reads, ∃ j, r.src = .x j ∧ k.members < j.val + 1) := by
  refine ⟨⟨⟨1, .x 1, _⟩, List.mem_cons_self .., 1, rfl⟩, rfl, ⟨_, rfl, by decide⟩, ⟨_, rfl, rfl, rfl, ?_, by decide⟩,
    _, rfl, rfl, rfl, ⟨1, .x 1, _⟩, List.mem_cons_self .., 1, rfl, by decide⟩
  intro r _ j _
  have := j.isLt
  change j.val + 1 ≤ 4
  omega

/-- States and operands that meet the hypotheses of `LatchChains`. -/
theorem witness_LatchChains_LatchesShift : SMap.sorted gang0.x = true := by decide

/-- Class 0 of gang 0 counts two events at a time, traps past 5 and has seen 5 in a window of 64 instructions. -/
def stEvt : State := stOf { srPut (srPut gang0 (rEvt 0) (BitVec.ofNat 64 (2 ^ 16 * 5 + 2 ^ 8 + 6))) (rEvtCnt 0) 5 with winPos := [(0, 64)] } team0

/-- States and operands that meet the hypotheses of `EventsCount`. -/
theorem witness_EventsCount :
    countEvt [(.ovf, 3)] 2 ≠ 0 ∧
    ((SMap.find stEvt.gangs 0).isSome = true ∧ 2 ^ Word.fld (srGet (gangOf stEvt 0) (rEvt 0)) 0 6 ≤ SMap.getD (gangOf stEvt 0).winPos 0 0) ∧
    (SMap.find stEvt.gangs 1).isNone = true ∧
    SMap.getD (gangOf stEvt 0).winPos 1 0 < 2 ^ Word.fld (srGet (gangOf stEvt 0) (rEvt 1)) 0 6 := by decide +kernel

/-- A core that holds no tokens. -/
def stPoor : State := modCore st0 0 fun C => { C with tokens := -1 }

/-- States and operands that meet the hypotheses of `TokensFlow`. -/
theorem witness_TokensFlow_PricesArePaid :
    CanPay st0 0 16384 ∧ ((coreOf stPoor (gangOf stPoor 0).core).tokens < ((1 : Nat) : Int) ∧ (coreOf stPoor (gangOf stPoor 0).core).resv = []) ∧
    (coreOf st0 0).resv.any (fun r => r.holder == .gang 0 && r.price == 4) = false ∧
    (coreOf (placeResv st0 (.gang 0) 0 4) 0).resv.any (fun r => r.holder == .gang 0 && r.price == 4) = true ∧
    (laneChecks (gangOf stPoor 0) c0 (useLr2 oV 1 false) 3 = .ok () ∧
      payTokens stPoor 0 (lanePrice (useLr2 oV 1 false).price (3 ||| 0)) (useLr2 oV 1 false).member = none) :=
  ⟨by unfold CanPay; decide +kernel, by decide +kernel, by decide +kernel, by decide +kernel, ok_of (by decide +kernel), by decide +kernel⟩

/-! ### Scripts and ports -/

/-- A state whose context 0 maps virtual page 0 at frame 0 by tables at address 0, and page 1 as a SYS page of frame 0. -/
def mapped (s : State) : State :=
  mgmtPut { s with mem := [(7, 0x80), (14, 0x08), (15, 0x80)] } offRootBase 0x100

/-- Script context 1 runs at word 1 of four; port 3 is its own and live, port 4 armed by it with a request refused. -/
def stScript : State :=
  let s := { State.reset with power := .on, script := some 1 }
  let s := modScript s 1 fun S => { S with store := [0, 0, 0, 0], pc := 1, st := .running, f := [(2, 9), (6, 0x3000000000000000), (8, 0x4000000000010000)] }
  let s := modPort s 3 fun P => { P with st := .live, armed := true, owner := 1 }
  modPort s 4 fun P => { P with armed := true, owner := 1, reqst := 3 }

/-- States and operands that meet the hypotheses of `FabricWords`. -/
theorem witness_FabricWords :
    stScript.script = some 1 ∧
    (0 ≤ ((scriptOf stScript 1).pc : Int) + (2 : BitVec 24).toInt ∧ ((scriptOf stScript 1).pc : Int) + (2 : BitVec 24).toInt < (scriptOf stScript 1).store.length) ∧
    (0 ≤ ((scriptOf stScript 1).pc : Int) + (0xFFFFFF : BitVec 24).toInt) ∧
    ¬ (((scriptOf stScript 1).pc : Int) + (3 : BitVec 24).toInt < (scriptOf stScript 1).store.length) ∧
    ¬ (0 ≤ ((scriptOf stScript 1).pc : Int) + (0xFFFFFE : BitVec 24).toInt) ∧
    fGet (scriptOf stScript 1) 2 ≠ 0 ∧ ¬ (fGet (scriptOf stScript 1) 3 ≠ 0) ∧
    (fGet (scriptOf stScript 1) 2).getLsbD 3 = true ∧ (fGet (scriptOf stScript 1) 2).getLsbD 63 = false ∧ (7 : Nat) < 8 := by decide +kernel

/-- The waits of script 1. -/
def stScriptWaits (i : Instr) : State :=
  modScript { stScript with now := 2 ^ 30 } 1 fun S => { S with st := .waiting, wait := some i, since := 2 ^ 30 - 5000, f := [(4, 5), (6, 0x3000000000000000)] }
/-- The bindings of a full table. -/
def stBinds : State := { stScript with binds := List.replicate 1024 { ctx := 9, commid := 0, rank := 0, port := 0 } }
def fmsg (type : BitVec 8) (no : BitVec 16) : FsqMsg :=
  { payload := 0, serial := 7, digest := 0, ident := 5, type := type, dev := 0, port := 3, peerDev := 0, peerPort := 0, reqno := no }
/-- A chunk of a command is in flight on port 3. -/
def stBusy : State := modTcu stScript 0 0 fun t =>
  { t with cmds := [{ blankCmd .xfer 1 0 0 0 with chunks := [{ rank := 0, idx := 0, serial := 0, phase := .flying 3 0, held := none }] }] }
/-- Script 0 waits for the acknowledgement of serial 7. -/
def stEmsg0 : State :=
  modScript { State.reset with now := 10000 } 0 fun S => { S with st := .waiting, wait := some (.emsg 1 2 .cm 9), serial := 8 }
def emsgOut : FsqOut := { msg := { fmsg 0x10 9 with ident := scriptIdent stEmsg0 0 }, sentAt := 0, sends := 64 }
def stEmsg : State := { stEmsg0 with fsqOut := [emsgOut] }

theorem emsgOf_stEmsg : emsgOf stEmsg (scriptIdent stEmsg0 0) 7 = some 0 := by
  have h : (scriptOf stEmsg 0).st = .waiting ∧ (scriptOf stEmsg 0).wait = some (.emsg 1 2 .cm 9) := by decide +kernel
  have k : scriptIdent stEmsg 0 = scriptIdent stEmsg0 0 := by
    have e : (scriptOf stEmsg 0).actx = (scriptOf stEmsg0 0).actx := by decide +kernel
    unfold scriptIdent; rw [e]
  have l : lastEmsg stEmsg (scriptIdent stEmsg0 0) = some 7 := by
    have f : stEmsg.fsqOut = [emsgOut] := rfl
    have e : isEmsg emsgOut.msg = true := rfl
    have i : emsgOut.msg.ident = scriptIdent stEmsg0 0 := rfl
    have n : emsgOut.msg.serial = 7 := rfl
    simp [lastEmsg, f, e, i, n]
  simp [emsgOf, List.range_succ_eq_map, l, h.1, h.2, k]

theorem find_stEmsg : (stEmsg.fsqOut.find? fun o => emsgOf stEmsg o.msg.ident o.msg.serial == some 0 && isEmsg o.msg) = some emsgOut := by
  have k : stEmsg.fsqOut = [emsgOut] := rfl
  have h : emsgOf stEmsg emsgOut.msg.ident emsgOut.msg.serial = some 0 := emsgOf_stEmsg
  have e : isEmsg emsgOut.msg = true := rfl
  simp [k, h, e]

/-- States and operands that meet the hypotheses of `FabricWaits`. -/
theorem witness_FabricWaits :
    (stScript.script = some 1 ∧ (portOf stScript 3).armed = true ∧ (portOf stScript 5).armed = false ∧ (portOf stScript 3).st = .live ∧
      (portOf stScript 4).st ≠ .live ∧ (portOf stScript 4).reqst = 3 ∧ (portOf stScript 5).reqst ≠ 3 ∧ (portOf stScript 3).owner = 1 ∧
      bindingOf stScript 0 5 7 = none ∧ stScript.binds.length < 1024 ∧ 1024 ≤ stBinds.binds.length ∧ bindingOf stBinds 0 5 7 = none ∧
      (bindingOf { stScript with binds := [{ ctx := 0, commid := 5, rank := 7, port := 4 }] } 0 5 7) = some 4) ∧
    ((portOf (modPort stScript 3 fun P => { P with drain := some 9 }) 3).drain.isSome = true ∧ (portOf stScript 3).drain = none ∧
      (releasePort stScript 4).2 = true ∧ (releasePort stBusy 3).2 = false) ∧
    (mailFor (scriptOf (modScript stScript 1 fun S => { S with mailbox := [fmsg 0x11 8] }) 1) 0xFFFF = some 0 ∧
      mailFor (scriptOf stScript 1) 0xFFFF = none ∧ mailFor (scriptOf (modScript stScript 1 fun S => { S with mailbox := [fmsg 0x11 8] }) 1) 9 = none) ∧
    (∃ x, namedTimeline stScript 0 (fGet (scriptOf stScript 1) 6) = some x ∧
      (fabricValue (scriptOf stScript 1) (.imm 0)).toNat ≤ x.toNat) ∧
    (∃ x ls, waitName stScript 0 (fGet (scriptOf stScript 1) 6) = .value x ls ∧
      x.toNat < (fabricValue (scriptOf stScript 1) (.imm 1)).toNat ∧ (scriptOf stScript 1).st ≠ .waiting) ∧
    waitName stScript 0 (fGet (scriptOf stScript 1) 7) = .badName ∧
    (∃ e, waitName (mapped stScript) 0 (fGet (scriptOf (mapped stScript) 1) 8) = .refused e ∧ e ≠ .pagef) ∧
    (let s := stScriptWaits (.cwait 1 3 .live 5 0)
     (scriptOf s 1).st = .waiting ∧ (scriptOf s 1).wait = some (.cwait 1 3 .live 5 0) ∧ (portOf s 3).st = .live) ∧
    (let s := stScriptWaits (.cwait 1 5 .live 5 0)
     (portOf s 5).st ≠ .live ∧ (scriptOf s 1).since + 1000 * (5 : BitVec 14).toNat ≤ s.now) ∧
    (let s := stScriptWaits (.erecv 1 4 7 0)
     (scriptOf s 1).wait = some (.erecv 1 4 7 0) ∧ (fGet (scriptOf s 1) 4).toNat ≠ 0 ∧
      (scriptOf s 1).since + 1000 * (fGet (scriptOf s 1) 4).toNat ≤ s.now) ∧
    (let s := stScriptWaits (.tlwait 6 (.imm 0))
     (scriptOf s 1).wait = some (.tlwait 6 (.imm 0)) ∧ ∃ x, namedTimeline s 0 (fGet (scriptOf s 1) 6) = some x) ∧
    ((scriptOf stEmsg 0).st = .waiting ∧ (scriptOf stEmsg 0).wait = some (.emsg 1 2 .cm 9) ∧
      ∃ o, (stEmsg.fsqOut.find? fun o => emsgOf stEmsg o.msg.ident o.msg.serial == some 0 && isEmsg o.msg) = some o ∧
        64 ≤ o.sends ∧ o.sentAt + 10000 ≤ stEmsg.now) := by
  refine ⟨by decide +kernel, by decide +kernel, by decide +kernel, ⟨0, by decide +kernel⟩, ⟨0, [], by decide +kernel⟩,
    by decide +kernel, ⟨.prot, by decide +kernel⟩, by decide +kernel, by decide +kernel, by decide +kernel, ⟨by decide +kernel, 0, by decide +kernel⟩, by decide +kernel, by decide +kernel, emsgOut, find_stEmsg, by decide +kernel, by decide +kernel⟩

/-- A port in a state, since 0. -/
def stPort (P : Port) : State := { modPort { State.reset with power := .on } 3 (fun _ => P) with now := 30000 }

/-- States and operands that meet the hypotheses of `PortsAndMessages`. -/
theorem witness_PortsAndMessages_Ports :
    (portOf (stPort { Port.blank with st := .locking }) 3).st = .locking ∧ (portOf (stPort { Port.blank with st := .locking }) 3).since + 25000 < 30000 ∧
    (portOf (stPort { Port.blank with st := .locking, since := 5000 }) 3).st = .locking ∧
    30000 ≤ (portOf (stPort { Port.blank with st := .locking, since := 5000 }) 3).since + 25000 ∧
    (portOf (stPort { Port.blank with st := .trained }) 3).st = .trained ∧ (portOf (stPort { Port.blank with st := .trained }) 3).since + 3000 < 30000 ∧
    (portOf (stPort { Port.blank with st := .trained, since := 27000 }) 3).st = .trained ∧
    30000 ≤ (portOf (stPort { Port.blank with st := .trained, since := 27000 }) 3).since + 3000 ∧
    (portOf (stPort { Port.blank with st := .dark }) 3).st = .dark ∧ (portOf (stPort { Port.blank with st := .dark }) 3).drain = none ∧
    (portOf (stPort { Port.blank with st := .live, crc := 31 }) 3).st = .live ∧
    (let P := portOf (stPort { Port.blank with armed := true }) 3; P.st = .dark ∧ P.armed = true ∧ P.light = false ∧ P.drain = none) ∧
    (portOf State.reset 3).armed = false ∧ (portOf (stPort { Port.blank with st := .live, armed := true }) 3).st ≠ .dark ∧
    (let P := portOf (stPort { Port.blank with st := .live, drain := some 30000 }) 3
     P.drain.isSome = true ∧ P.drain = some 30000 ∧ portBusy (stPort { Port.blank with st := .live, drain := some 30000 }) 3 = false) ∧
    (let P := portOf (stPort { Port.blank with st := .live, crc := 30, armed := true, owner := 8 }) 3
     P.st = .live ∧ P.drain = none ∧ P.crc < 31 ∧ P.owner = 8 ∧ P.armed = true) ∧
    31 ≤ (portOf (stPort { Port.blank with st := .live, crc := 31 }) 3).crc ∧
    (portOf (stPort { Port.blank with st := .live, crc := 31 }) 3).drain = none ∧ bindingOf State.reset 0 0 0 = none := by decide +kernel

/-- States and operands that meet the hypotheses of `PortsAndMessages`. -/
theorem witness_PortsAndMessages_FabricMessages :
    (let m := fmsg 0x02 9
     let s := modPort State.reset 3 fun P => { P with armed := true, reqno := 9 }
     (m.ident, m.serial) ∉ s.fsqSeen ∧ (portOf s m.port.toNat).armed = true ∧ (portOf s m.port.toNat).reqno = m.reqno.toNat ∧
      (portOf State.reset m.port.toNat).armed = false ∧ (3 = m.port.toNat % 8 ∧ (scriptOf s 3).mailbox.length < 16 ∧ (scriptOf s 3).st ≠ .waiting)) ∧
    (let s := modScript State.reset 3 fun S => { S with mailbox := List.replicate 16 (fmsg 0x11 9) }
     16 ≤ (scriptOf s 3).mailbox.length) ∧
    (let s := modScript State.reset 3 fun S => { S with st := .waiting, wait := some (.erecv 1 4 9 0) }
     (scriptOf s 3).mailbox = [] ∧ (scriptOf s 3).wait = some (.erecv 1 4 9 0) ∧ (fmsg 0x11 9).type = 0x11 ∧ (fmsg 0x11 9).reqno = (9 : BitVec 16)) ∧
    (let m := fmsg 0x02 9; (m.ident, m.serial) ∈ ({ State.reset with fsqSeen := [(m.ident, m.serial)] } : State).fsqSeen) ∧
    (∀ o ∈ State.reset.fsqOut, ¬ (o.msg.ident = 5 ∧ o.msg.serial = 7)) ∧
    (let o : FsqOut := { msg := fmsg 0x11 9, sentAt := 0, sends := 63 }
     let s : State := { State.reset with fsqOut := [o], now := 10000 }
     s.fsqOut[0]? = some o ∧ o.sentAt + 10000 ≤ s.now ∧ o.sends < 64) ∧
    ((∃ o ∈ stEmsg.fsqOut, o.msg.ident = scriptIdent stEmsg0 0 ∧ o.msg.serial = 7) ∧ emsgOf stEmsg (scriptIdent stEmsg0 0) 7 = some 0 ∧
      (scriptOf stEmsg 0).wait = some (.emsg 1 2 .cm 9)) :=
  ⟨by decide +kernel, by decide +kernel, by decide +kernel, by decide +kernel, by decide +kernel, by decide +kernel,
   ⟨emsgOut, List.mem_cons_self .., rfl, rfl⟩, emsgOf_stEmsg, by decide +kernel⟩

/-! ### Commands, admission, the end of teams -/

/-- Command queue 5 of context 0 with one command of the words `w0`, `w1`, `w2`, 0 in a ring at 2^20. -/
def stCmd (w0 w1 w2 : Word) : State :=
  let s := modQueue { State.reset with power := .on } 5 fun Q => { Q with en := true, ring := 1, tail := 1 }
  poke (poke (poke s .phys (2 ^ 20) (leBytes 8 w0.toNat)) .phys (2 ^ 20 + 8) (leBytes 8 w1.toNat)) .phys (2 ^ 20 + 16) (leBytes 8 w2.toNat)
/-- The same with command processing assisted by the host. -/
def stCmdHost (w0 : Word) : State := mgmtPut (stCmd w0 0 0) offMode 1
/-- Tables of context 0 in which page 2 lies at frame 1. -/
def tables (s : State) : State :=
  let w := fun s (a n : Nat) => poke s .phys a (leBytes 8 n)
  w (w (w (w (w s 0 0x1000) 0x1000 (2 ^ 63 + 0x2000)) 0x2000 (2 ^ 63 + 0x3000)) 0x3000 (2 ^ 63 + 0x4000)) 0x4010 (2 ^ 63 + 2 ^ 52 + 2 ^ 12)
/-- The queue waits at a command. -/
def stQWait (ws : List Word) : State := modQueue (tables (stCmd 0 0 0)) 5 fun Q => { Q with waiting := true, asked := true, cmd := ws }

/-- States and operands that meet the hypotheses of `QueueCommands`. -/
theorem witness_QueueCommands :
    (∀ k : Nat, k < 6 → let s := stCmd (BitVec.ofNat 64 k) 0 0
      s.power = .on ∧ queueNext s = some 5 ∧ hostMode s 0 = false ∧ cmdKind (cmdWords s 5) = k) ∧
    (let s := stCmdHost 1
     queueNext s = some 5 ∧ hostMode s 0 = true ∧ (queueOf s 5).verdict ≠ 1 ∧ cmdKind (cmdWords s 5) = 1) ∧
    (Word.fld 3 8 56 = 0 ∧ tlClass 0x3000000000000001 = 3 ∧ (namedTimeline State.reset 0 0x3000000000000001).isSome = true) ∧
    Word.fld 0x103 8 56 ≠ 0 ∧
    (let s := stQWait [3, 0x3000000000000001, 0, 0]
     (queueOf s 5).waiting = true ∧ (queueOf s 5).asked = true ∧ cmdKind (queueOf s 5).cmd = 3 ∧
      (namedTimeline s (queueOf s 5).ctx (cmdWord (queueOf s 5).cmd 1)).any (fun x => (cmdWord (queueOf s 5).cmd 2).toNat ≤ x.toNat) = true) ∧
    (let s := stQWait [2 ^ 32 + 0x102, 0x20000, 0, 0]
     (queueOf s 5).waiting = true ∧ cmdKind (queueOf s 5).cmd = 2 ∧ (queueOf s 5).en = true ∧
      (scriptOf s (Word.fld (cmdWord (queueOf s 5).cmd 0) 8 3)).st = .idle ∧
      (scriptWords s 5 (queueOf s 5).cmd).toOption = some [0]) ∧
    (queueOf (modQueue State.reset 5 fun Q => { Q with halt := true }) 5).halt = true := by decide +kernel

/-- States and operands that meet the hypotheses of `QueueCommands`. -/
theorem witness_QueueCommands_LowestPriorityQueueFirst :
    queueNext (stCmd 1 0 0) = some 5 ∧ queueNext State.reset = none ∧ queueEligible (stCmd 1 0 0) 5 = true := by decide +kernel

/-- A code record of one gang, in the record queue of die 1 of context 0. -/
def codeRec : Record := { Record.blank with cls := 2, code := 0x10000 }
def stRec : State := { State.reset with power := .on, now := 2000, recQ := [(1, [{ item := codeRec, order := 0, at_ := 0 }])] }
/-- A resident launch of one team of class 2. -/
def launch0 : Launch :=
  { ctx := 0, queue := 0, lpbAddr := 0, lpb := 2 ^ 320 + 2 ^ 397 + 2 * 2 ^ 398, image := [], value := 0, counter := 0, tbase := 0,
    killed := false, retired := [], complete := false }
/-- It waits. -/
def stRes : State :=
  { State.reset with power := .on, launches := [(7, launch0)], waiting := [7], recQ := [(4, [{ item := { codeRec with launch := some 7, frame := rangeFrame 0 1 }, order := 0, at_ := 0 }])] }

/-- States and operands that meet the hypotheses of `Admission`. -/
theorem witness_Admission :
    (let w : Waiting := { key := 1, idx := 0, ent := { item := codeRec, order := 0, at_ := 0 } }
     firstRecord stRec ((recordsIn stRec fun d => d == 1 || d == 4).filter fun w => !residentRec stRec w.ent.item) = some w ∧
     noPool stRec w.ent.item.cls = false ∧ heldBack stRec w.ent.item = false ∧
     coreFor stRec 0 1 2 (askOf stRec 0 w.ent.item) = some 80 ∧ (askOf stRec 0 w.ent.item).pair = false ∧
     fits stRec 0 80 2 (askOf stRec 0 w.ent.item) = true ∧ (admitHead stRec 0 80 w.ent.item).isSome = true) ∧
    (let w : Waiting := { key := 1, idx := 0, ent := { item := codeRec, order := 0, at_ := 0 } }
     recordsIn stRec (fun d => d == 0) = [] ∧ w.key % 5 = 1 ∧ heldBack stRec w.ent.item = false ∧
     firstRecord stRec (dieRecords stRec (fun d => d == 4) ++
       (dieRecords stRec fun d => d == 1).filter fun w => w.ent.at_ + 2000 ≤ stRec.now) = some w ∧
     coreFor stRec 0 0 2 (askOf stRec 0 w.ent.item) = some 0 ∧ (admitHead stRec 0 0 w.ent.item).isSome = true) ∧
    (let w : Waiting := { key := 4, idx := 0, ent := { item := codeRec, order := 0, at_ := 0 } }
     let s := { stRec with recQ := [(1, [{ item := codeRec, order := 1, at_ := 0 }]), (4, [w.ent])] }
     firstRecord s (dieRecords s (fun d => d == 4) ++ (dieRecords s fun d => d == 1).filter fun w => w.ent.at_ + 2000 ≤ s.now) = some w ∧
     w.key % 5 ≠ 1) ∧
    (let s := { stRec with recQ := [(1, [{ item := { codeRec with cls := 1 }, order := 0, at_ := 0 }])] }
     (firstRecord s ((recordsIn s fun d => d == 1 || d == 4).filter fun w => !residentRec s w.ent.item)).any
       (fun w => noPool s w.ent.item.cls && w.key % 5 == 1) = true) ∧
    (let s : State := { stRes with launches := (3, { (SMap.getD stRes.launches 7 launch0) with queue := 1 }) :: stRes.launches, waiting := [3, 7] }
     waitsFirst s 7 = true ∧ 3 ∈ s.waiting ∧ launchPrio (modQueue s 1 fun Q => { Q with prio := 5 }) 3 < launchPrio (modQueue s 1 fun Q => { Q with prio := 5 }) 7) ∧
    (stRes.waiting.contains 7 = true ∧ stRes.power = .on ∧ savedTeams stRes 7 = [] ∧ waitsFirst stRes 7 = false ∧
      noPool stRes (launchClass stRes 7) = false ∧
     ∃ w, (recordsIn stRes fun _ => true).filter (fun w => w.ent.item.launch == some 7) = [w] ∧
      (admitRange stRes w (rangeCount w.ent.item + 1) w.ent.item).isSome = true ∧
      (let v : Waiting := { w with ent := { w.ent with item := { w.ent.item with cls := 1 } } }
       let s : State := { stRes with recQ := [(4, [v.ent])] }
       noPool s (launchClass s 7) = false ∧
       (recordsIn s fun _ => true).filter (fun w => w.ent.item.launch == some 7) = [v] ∧
        (admitRange s v (rangeCount v.ent.item + 1) v.ent.item).isNone = true)) :=
  ⟨by decide +kernel, by decide +kernel, by decide +kernel, by decide +kernel, by decide +kernel, by decide +kernel, by decide +kernel,
   by decide +kernel, by decide +kernel, by decide +kernel,
   { key := 4, idx := 0, ent := { item := { codeRec with launch := some 7, frame := rangeFrame 0 1 }, order := 0, at_ := 0 } }, by decide +kernel⟩

/-- States and operands that meet the hypotheses of `Admission`. -/
theorem witness_Admission_GangsStart : (admitTeam stRec 0 80 0 0 codeRec none false).isSome = true ∧ slotsFor stRec 80 1 = some [0] := by decide +kernel

/-- Gang 0 may issue, has been passed over for 256 cycles, and its head run has issued 4,096 times. -/
def stBound : State :=
  stOf { gang0 with idle := 256, turns := 4096, threads := [(0, thrAt 0x10000), (1, thrAt 0x10040)] } team0

/-- States and operands that meet the hypotheses of `SchedulingBounds`. -/
theorem witness_SchedulingBounds :
    (∃ G, SMap.find stBound.gangs 0 = some G ∧ 256 ≤ G.idle ∧ G.overdue = false ∧ 4096 ≤ G.turns ∧ G.single = none ∧ midChain G = false ∧
      (runPcs G).head? = some 0x10000 ∧ nextRun G 0x10000 = some 0x10040) ∧
    (∃ G, SMap.find st0.gangs 0 = some G ∧ G.turns < 4096) ∧
    (let s := modCore st0 0 fun C => { C with sliceN := 2 ^ 22 }; 2 ^ 22 ≤ (coreOf s 0).sliceN ∧ coreInChain s 0 = false) ∧
    (coreOf st0 0).sliceN < 2 ^ 22 ∧
    (∃ t, SMap.find (coreOf (modCore st0 0 fun C => { C with sliBusy := [(3, 0)] }) 0).sliBusy 3 = some t ∧ t ≤ cyclesOf st0 0) :=
  ⟨⟨gangOf stBound 0, by decide +kernel⟩, ⟨gangOf st0 0, by decide +kernel⟩, by decide +kernel, by decide +kernel, 0, by decide +kernel, Nat.zero_le _⟩

/-- States and operands that meet the hypotheses of `TeamsEnd`. -/
theorem witness_TeamsEnd :
    (let s := stOf { gang0 with threads := [], exiting := true } team0
     ∃ G, SMap.find s.gangs 0 = some G ∧ G.exiting = true ∧ (G.role = .matrix → matrixBusy s (teamKey 0) = false)) ∧
    (let s := stOf { gang0 with threads := [] } team0
     (SMap.find s.teams 0).isSome = true ∧ teamDone s 0 = true) ∧ teamDone st0 0 = false ∧ (SMap.find st0.teams 0).isSome = true :=
  ⟨⟨{ gang0 with threads := [], exiting := true }, by decide +kernel⟩, by decide +kernel⟩

/-! ### Power, translation, placement -/

/-- Core 0 owes gang 0 a price of 9, of which 4 are paid. -/
def stResv : State := modCore st0 0 fun C => { C with resv := [{ holder := .gang 0, price := 9, paid := 4, placed := 0 }] }

/-- States and operands that meet the hypotheses of `TokensFlow`. -/
theorem witness_TokensFlow :
    (let s : State := { State.reset with power := .on, now := 64 }
     (dieOf s 3).revAt + 64 ≤ s.now ∧ (coreOf s 319).tokens + ((coreOf s 319).ringEnt - (coreOf s 319).ringGot : Nat) ≤ 16384 ∧
      (coreOf s 319).resv = [] ∧ heldTokens (coreOf s 319) ≤ 16384) ∧
    (let s : State := { State.reset with power := .on }
     s.now < (dieOf s 0).revAt + 64 ∧ (coreOf s 79).tokens + ringDue s 79 ≤ 16384 ∧ (coreOf s 79).resv = [] ∧ (coreOf s 79).ringGot = 0) ∧
    (∃ r, (coreOf stResv 0).resv = [r] ∧ r.holder = .gang 0 ∧ r.paid < r.price ∧ (r.price : Int) - r.paid ≤ (coreOf stResv 0).tokens) ∧
    (let s : State := { State.reset with now := 1000 }; (dieOf s 0).budgetAt < s.now / 1000) :=
  ⟨by decide +kernel, by decide +kernel, ⟨_, rfl, by decide +kernel⟩, by decide +kernel⟩

/-- States and operands that meet the hypotheses of `ClassesPoolsAndHeat`. -/
theorem witness_ClassesPoolsAndHeat_ClassesAndPools :
    (let s := modIsland { State.reset with now := 7 } 31 fun I => { I with moving := some 7 }
     (islandOf s 31).moving = some 7 ∧ (7 : Nat) ≤ s.now ∧ (islandOf s 31).nextPool = none ∧ (islandOf s 31).moving.isSome = true) ∧
    (let s := modIsland State.reset 31 fun I => { I with moving := some 7 }; (islandOf s 31).moving = some 7 ∧ s.now < 7) ∧
    (islandOf State.reset 0).moving = none ∧
    (hostMode (mgmtPut State.reset offMode 16) 4 = true ∧ (31 : Nat) < 32) ∧ hostMode State.reset 4 = false ∧
    (let s := modDie State.reset 2 fun D => { D with drain := some 17 }
     (dieOf s 2).drain = some 17 ∧ teamsOnIsland s 17 = []) := by decide +kernel

/-- States and operands that meet the hypotheses of `ClassesPoolsAndHeat`. -/
theorem witness_ClassesPoolsAndHeat_Heat :
    ((3 : Nat) < 4 ∧ ({ State.reset with power := .on } : State).power = .on ∧ (117 : Nat) < 118) ∧
    (let s : State := { State.reset with power := .tripped 5 }; s.power = .tripped 5 ∧ s.inputs = []) := by decide +kernel

/-- Die 0 walks page 2 of context 0, whose tables map it, and page 3, which they do not. -/
def stWalk : State := modDie (tables { State.reset with power := .on }) 0 fun D => { D with walks := [(0, 2), (0, 3)] }

/-- States and operands that meet the hypotheses of `TranslationAndPlacement`. -/
theorem witness_TranslationAndPlacement_TranslationEvents :
    (let s := modDie State.reset 0 fun D => { D with tlb := [{ ctx := 0, page := 2, big := false, leaf := 0x8000000000000000 }] }
     tlbFind (coreOf s 79).tlb 0 (2 * 65536) = none ∧ tlbFind (dieOf s (79 / 80)).tlb 0 (2 * 65536) = some (0x8000000000000000, false)) ∧
    (tlbFind (dieOf State.reset (319 / 80)).tlb 0 (2 * 65536) = none ∧ (dieOf State.reset (319 / 80)).walks = []) ∧
    ((0, 2) ∈ (dieOf stWalk 0).walks.take 64 ∧ walk stWalk 0 (2 * 65536) = .leaf (2 ^ 63 + 2 ^ 52 + 2 ^ 12) false) ∧
    ((0, 3) ∈ (dieOf stWalk 0).walks.take 64 ∧ (0, 4) ∉ (dieOf stWalk 0).walks.take 64 ∧ (match walk stWalk 0 (3 * 65536) with | .absent .. => true | _ => false) = true) ∧
    (State.reset.invalid = none ∧ (2 ^ 63 : Word).getLsbD 63 = true) ∧
    (let s : State := { State.reset with invalid := some (2 ^ 63) }
     s.invalid.isSome = true ∧ checkedAccesses s (Word.fld (2 ^ 63) 50 12) = false) ∧
    (let s : State := { stOf { gang0 with storeQ := [entW (.phys 0x10100) 1] } team0 with invalid := some (2 ^ 63) }
     checkedAccesses s (Word.fld (2 ^ 63) 50 12) = true) ∧
    (let s := (raisePageFault st0 0 0x20000 0 0).2
     s.pfWaiters = [(0, 0)] ∧ (∃ f ∈ s.faultsOut, f.id = 0) ∧ (s.faultsOut.find? (fun f => f.id == 0)).isSome = true ∧
      (SMap.find s.gangs 0).isSome = true) := by
  refine ⟨by decide +kernel, by decide +kernel, by decide +kernel, by decide +kernel, by decide +kernel, by decide +kernel, by decide +kernel,
    by decide +kernel⟩

/-- Page 1 of context 0 is an MMIO page of frame 0. -/
def stMmioPage : State := { mapped State.reset with mem := [(7, 0x80), (14, 0x20), (15, 0x80)] }
/-- The identity of a requester of device `n`. -/
def identFrom (n : Nat) : Word := BitVec.ofNat 64 (n % 1024 * 18014398509481984)

theorem identFrom_fld (n : Nat) : Word.fld (identFrom n) 54 10 = n % 1024 := by
  have h : (identFrom n).toNat = n % 1024 * 18014398509481984 := by
    rw [identFrom, BitVec.toNat_ofNat]
    exact Nat.mod_eq_of_lt (by omega)
  change (identFrom n).toNat / 18014398509481984 % 1024 = n % 1024
  rw [h]
  omega

/-- A rind entry of an update at frame 2 by another device. -/
def rindAt (i : Word) : RindEnt :=
  { addr := 0x20000, ident := i, result := 0, serial := 0, digest := 0, inc := 0, kind := 1, ref := true }
/-- It lies at die 0. -/
def stRindMove (i : Word) : State :=
  { State.reset with
    place := [(2, { home := 0, res := 0, dest := 0 })], sxes := [(0, { rind := [rindAt i], recs := [], extra := 0, warned := false })] }

theorem rindAt_moves (i : Word) (h : Word.fld i 54 10 ≠ Config.deviceId.toNat) : movesWith (stRindMove i) 2 (rindAt i) = true := by
  have b : (Word.fld (rindAt i).ident 54 10 == Config.deviceId.toNat) = false := beq_eq_false_iff_ne.2 h
  have k : rindPage (stRindMove i) (rindAt i) = some 2 := by
    unfold rindPage
    rw [if_neg (by rw [b]; exact Bool.false_ne_true)]
    exact congrArg some (by decide : BitVec.toNat (0x20000 : Word) / 2 ^ 16 = 2)
  unfold movesWith
  rw [k]
  rfl

theorem mayMove_stRindMove (i : Word) : mayMove (stRindMove i) 2 0 = true := by
  have h : leavesOf (stRindMove i) 2 = leavesOf State.reset 2 := rfl
  have k : leavesOf State.reset 2 = [] := by decide +kernel
  rw [mayMove, h, k]
  rfl

theorem leaf_stMmioPage : (2 ^ 63 + 2 ^ 53 : Word) ∈ leavesOf stMmioPage 0 :=
  List.mem_flatMap.2 ⟨0, List.mem_range.2 (by decide), by decide +kernel⟩

/-- States and operands that meet the hypotheses of `TranslationAndPlacement`. -/
theorem witness_TranslationAndPlacement_PagesMove :
    (let s := State.reset
     (2 : Nat) ∉ pinnedFrames s ∧ mayMove s 2 1 = true ∧ (placeOf s 2).home < 3 ∧ (placeOf s 2).res ≠ 2 ∧ (placeOf s 2).res ≠ 1 ∧
      l2Room s (placeOf s 2).home = true ∧ l2Room s ((placeOf s 2).home + 1) = true) ∧
    ((2 ^ 63 + 2 ^ 53 : Word) ∈ leavesOf stMmioPage 0 ∧ leafMmio (2 ^ 63 + 2 ^ 53) = true ∧ mayMove stMmioPage 0 0 = false) ∧
    (∃ i, rindAt i ∈ (sxeOf (stRindMove i) 0).rind ∧ movesWith (stRindMove i) 2 (rindAt i) = true ∧ (placeOf (stRindMove i) 2).home = 0 ∧
      (2 : Nat) ∉ pinnedFrames (stRindMove i) ∧ mayMove (stRindMove i) 2 0 = true ∧ inL2 (placeOf (stRindMove i) 2) = false) ∧
    (let s : State := { State.reset with place := [(9, { home := 0, res := 2, dest := 1 })] }; (placeOf s 9).res = 2) :=
  ⟨by decide +kernel, ⟨leaf_stMmioPage, by decide +kernel, List.all_eq_false.2 ⟨_, leaf_stMmioPage, by decide +kernel⟩⟩,
    ⟨identFrom (Config.deviceId.toNat + 1), List.mem_singleton.2 rfl,
      rindAt_moves _ (by rw [identFrom_fld]; omega), rfl, List.not_mem_nil, mayMove_stRindMove _, rfl⟩, by decide +kernel⟩

/-! ### Matrix unit, copies, collectives -/

/-- An operation of the leader's gang 0 with operands of FMT 3 at 0x10100, paid for or not. -/
def opAt (run : Bool) (a lay : Word) : MatOp :=
  { num := 1, team := 0, gang := 0, lane := 0, pc := 0x10000, aBase := a, aLay := lay, bBase := 0x10100, bLay := 0x6000000000000000, acc := true,
    grp := false, sparse := false, image := [], spans := [], late := [], pins := [], far := [], farNo := [], running := run, struck := false, gone := false }
def stOp (o : MatOp) : State := modMat stPairs 0 fun q => { q with ops := [o] }

/-- The chunks of rows that all lie at `base`. -/
theorem rowChunks_same {base rows bytes la : Nat} (h : la ∈ rowChunks base 0 rows bytes) : ∃ c, c < bytes / 16 ∧ la = base + 16 * c := by
  simp only [rowChunks, List.mem_flatMap, List.mem_map, List.mem_range, Nat.mul_zero, Nat.add_zero] at h
  obtain ⟨_, _, c, hc, e⟩ := h
  exact ⟨c, hc, e.symm⟩

/-- An operand whose rows all lie at `base`, each chunk of which is there. -/
theorem chunks_fine {s : State} {o : MatOp} {p : Operand} {base rows bytes : Nat} (e : p.chunks = rowChunks base 0 rows bytes)
    (h : ∀ c, c < bytes / 16 → chunkFault s o p (base + 16 * c) = none) : chunkFaults s o p = [] := by
  unfold chunkFaults
  rw [List.filterMap_eq_nil_iff, e]
  intro la hl
  obtain ⟨c, hc, rfl⟩ := rowChunks_same hl
  exact h c hc

/-- Whether an operand's byte lies on another device. -/
def farAt (s : State) (o : MatOp) (a : Nat) : Bool := match opLoc s o a with | some (.remote ..) => true | _ => false

theorem chunks_near {s : State} {o : MatOp} {p : Operand} {base rows bytes : Nat} (e : p.chunks = rowChunks base 0 rows bytes)
    (h : ∀ c, c < bytes / 16 → ∀ a ∈ chunkAddrs p (base + 16 * c), farAt s o a = false) :
    ∀ la ∈ p.chunks, ∀ a ∈ chunkAddrs p la, farAt s o a = false := by
  intro la hl
  rw [e] at hl
  obtain ⟨c, hc, rfl⟩ := rowChunks_same hl
  exact h c hc

theorem wants_nothing {s : State} {o : MatOp}
    (h : ∀ p ∈ [operandA o, operandB o, operandM o], ∀ la ∈ p.chunks, ∀ a ∈ chunkAddrs p la, farAt s o a = false) : farWanted s o = [] := by
  unfold farWanted
  rw [List.flatMap_eq_nil_iff]
  intro p hp
  rw [List.filterMap_eq_nil_iff]
  intro a ha
  obtain ⟨la, hl, ha⟩ := List.mem_flatMap.mp ha
  have k := h p hp la hl a ha
  unfold farAt at k
  split
  · simp_all
  · rfl

theorem lowest_mem : ∀ fs : List OpFault, ∀ r : OpFault, ∃ f, (f = r ∨ f ∈ fs) ∧
    fs.foldl (fun r f => match r with | none => some f | some g => if f.addr < g.addr then some f else r) (some r) = some f
  | [], r => ⟨r, .inl rfl, rfl⟩
  | a :: fs, r => by
    simp only [List.foldl_cons]
    by_cases h : a.addr < r.addr
    · obtain ⟨f, m, e⟩ := lowest_mem fs a
      refine ⟨f, .inr ?_, by simpa [h] using e⟩
      rcases m with rfl | m
      · exact List.mem_cons_self ..
      · exact List.mem_cons_of_mem _ m
    · obtain ⟨f, m, e⟩ := lowest_mem fs r
      exact ⟨f, m.imp id (List.mem_cons_of_mem _), by simpa [h] using e⟩

/-- Where every chunk faults with one cause, so does the operand. -/
theorem chunks_fault {s : State} {o : MatOp} {p : Operand} {base rows bytes : Nat} {k : Cause} (e : p.chunks = rowChunks base 0 rows bytes)
    (hr : 0 < rows) (hb : 0 < bytes / 16) (h : ∀ c, c < bytes / 16 → (chunkFault s o p (base + 16 * c)).map (·.cause) = some k) :
    ∃ f, lowestFault (chunkFaults s o p) = some f ∧ f.cause = k := by
  have hall : ∀ f ∈ chunkFaults s o p, f.cause = k := by
    intro f hf
    obtain ⟨la, hl, i⟩ := List.mem_filterMap.mp hf
    rw [e] at hl
    obtain ⟨c, hc, rfl⟩ := rowChunks_same hl
    simpa [i] using h c hc
  have hne : chunkFaults s o p ≠ [] := by
    intro i
    unfold chunkFaults at i
    rw [List.filterMap_eq_nil_iff, e] at i
    have m : base + 16 * 0 ∈ rowChunks base 0 rows bytes := by
      simp only [rowChunks, List.mem_flatMap, List.mem_map, List.mem_range]
      exact ⟨0, hr, 0, hb, by simp⟩
    have := h 0 hb
    rw [i _ m] at this
    cases this
  match hq : chunkFaults s o p with
  | [] => exact absurd hq hne
  | a :: fs =>
    obtain ⟨f, m, i⟩ := lowest_mem fs a
    rw [hq] at hall
    exact ⟨f, i, hall f (m.elim (fun h => h ▸ List.mem_cons_self ..) (List.mem_cons_of_mem _))⟩

/-- A and B whose rows all lie at their bases, none on another device. -/
def NearOperands (s : State) (o : MatOp) : Prop :=
  layStride o.aLay = 0 ∧ layStride o.bLay = 0 ∧
  (∀ c, c < rowBytes (layFmt o.aLay) / 16 → ∀ a ∈ chunkAddrs (operandA o) (o.aBase.toNat + 16 * c), farAt s o a = false) ∧
  (∀ c, c < rowBytes (layFmt o.bLay) / 16 → ∀ a ∈ chunkAddrs (operandB o) (o.bBase.toNat + 16 * c), farAt s o a = false)

theorem rows_a {o : MatOp} (h : layStride o.aLay = 0) : (operandA o).chunks = rowChunks o.aBase.toNat 0 256 (rowBytes (layFmt o.aLay)) := by
  simp only [operandA, h]
theorem rows_b {o : MatOp} (h : layStride o.bLay = 0) : (operandB o).chunks = rowChunks o.bBase.toNat 0 128 (rowBytes (layFmt o.bLay)) := by
  simp only [operandB, h]
theorem rows_m {o : MatOp} (h : o.sparse = false) : (operandM o).chunks = [] := by simp [operandM, h]

theorem wants_none {s : State} {o : MatOp} (hs : o.sparse = false) (k : NearOperands s o) : farWanted s o = [] := by
  apply wants_nothing
  intro p hp
  simp only [List.mem_cons, List.not_mem_nil, or_false] at hp
  rcases hp with rfl | rfl | rfl
  · exact chunks_near (rows_a k.1) k.2.2.1
  · exact chunks_near (rows_b k.2.1) k.2.2.2
  · rw [rows_m hs]; exact fun _ h => absurd h List.not_mem_nil

/-- Operands whose chunks are all there. -/
theorem operands_fine {s : State} {o : MatOp} (hs : o.sparse = false)
    (k : layStride o.aLay = 0 ∧ layStride o.bLay = 0 ∧
      (∀ c, c < rowBytes (layFmt o.aLay) / 16 → chunkFault s o (operandA o) (o.aBase.toNat + 16 * c) = none) ∧
      (∀ c, c < rowBytes (layFmt o.bLay) / 16 → chunkFault s o (operandB o) (o.bBase.toNat + 16 * c) = none)) :
    operandFault s o = none := by
  have g : ∀ bad, groupFaults s o bad = [] := fun bad => by simp [groupFaults, hs]
  have m : chunkFaults s o (operandM o) = [] := by unfold chunkFaults; rw [rows_m hs]; rfl
  unfold operandFault
  rw [chunks_fine (rows_a k.1) k.2.2.1, chunks_fine (rows_b k.2.1) k.2.2.2]
  simp only [m, g]
  rfl

/-- An operand A all of whose chunks fault. -/
theorem operand_faults {s : State} {o : MatOp} (c : Cause) (k : layStride o.aLay = 0 ∧ 0 < rowBytes (layFmt o.aLay) / 16 ∧
      (∀ i, i < rowBytes (layFmt o.aLay) / 16 → (chunkFault s o (operandA o) (o.aBase.toNat + 16 * i)).map (·.cause) = some c)) :
    ∃ f, operandFault s o = some f ∧ f.cause = c := by
  obtain ⟨f, e, h⟩ := chunks_fault (rows_a k.1) (by omega) k.2.1 k.2.2
  refine ⟨f, ?_, h⟩
  unfold operandFault
  rw [e]
  rfl

/-- Page 3 of context 0 lies on device 5. -/
def stOpFar : State :=
  modCore (stOp (opAt false 0x30000 0x6000000000000000)) 0 fun C =>
    { C with tlb := { ctx := 0, page := 3, big := false, leaf := BitVec.ofNat 64 (2 ^ 63 + 3 * 2 ^ 60 + 5 * 2 ^ 40) } :: C.tlb }

/-- States and operands that meet the hypotheses of `MatrixUnit`. -/
theorem witness_MatrixUnit_MatrixOperations :
    (let o := opAt false 0x10100 0x6000000000000000
     let s := stOp o
     headOp s 0 = some o ∧ o.running = false ∧ farWanted s o = [] ∧ operandFault s o = none ∧ (coreOf s (opCore s o)).resv = [] ∧
      (matPrice o.aLay o.sparse : Int) ≤ (coreOf s (opCore s o)).tokens ∧ (SMap.find s.gangs o.gang).isSome = true) ∧
    (let o := opAt false 0x10100 0x6000000000000000
     let s := modCore (stOp o) 0 fun C => { C with tokens := 1359 }
     headOp s 0 = some o ∧ farWanted s o = [] ∧ operandFault s o = none ∧ (∀ r ∈ (coreOf s (opCore s o)).resv, r.holder ≠ .matrix) ∧
      ((coreOf s (opCore s o)).tokens : Int) < (matPrice o.aLay o.sparse : Nat)) ∧
    (let o := opAt true 0x10100 0x6000000000000000
     let s := stOp o
     headOp s 0 = some o ∧ o.running = true ∧ o.gone = false ∧ (groupGangs s o.team o.grp).Nodup ∧ (groupGangs s o.team o.grp)[15]? = some 39) ∧
    (let o := opAt false 0x20000 0x6000000000000000
     let s := stOp o
     headOp s 0 = some o ∧ farWanted s o = [] ∧ (∃ f, operandFault s o = some f ∧ f.cause = .pagef) ∧ hostMode s 1 = false) ∧
    (let o := { opAt false 0x10100 0 with bLay := 0 }
     let s := stOp o
     headOp s 0 = some o ∧ farWanted s o = [] ∧ ∃ f, operandFault s o = some f ∧ f.cause = .copyf) ∧
    (∃ o, headOp stOpFar 0 = some o ∧ o.running = false ∧ (farWanted stOpFar o).isEmpty = false) ∧
    (let o := { opAt true 0x10100 0x6000000000000000 with gone := true }
     headOp (stOp o) 0 = some o ∧ o.running = true ∧ o.gone = true) :=
  ⟨⟨by decide +kernel, rfl, wants_none rfl (by unfold NearOperands; decide +kernel), operands_fine rfl (by decide +kernel), by decide +kernel⟩,
   ⟨by decide +kernel, wants_none rfl (by unfold NearOperands; decide +kernel), operands_fine rfl (by decide +kernel), by decide +kernel, by decide +kernel⟩,
   by decide +kernel,
   ⟨by decide +kernel, wants_none rfl (by unfold NearOperands; decide +kernel), operand_faults .pagef (by decide +kernel), by decide +kernel⟩,
   ⟨by decide +kernel, wants_none rfl (by unfold NearOperands; decide +kernel), operand_faults .copyf (by decide +kernel)⟩,
   ⟨opAt false 0x30000 0x6000000000000000, by decide +kernel⟩, by decide +kernel⟩

/-- The state after the copy of `stCopy` is accepted, and its command. -/
def stCopied (bar : Bool) : State := (copyBody (oCopy bar) .ld c0 stCopy).toOption.getD stCopy
def theCmd (s : State) : Cmd := (cmdOf s 0 3 1).getD (blankCmd .ld 0 0 0 0)
/-- A command of context 0 of core 0. -/
def stWith (m : Cmd) : State := modTcu stCopy 0 0 fun t => { t with issued := 1, cmds := [m] }
/-- The record of a tile of 64 bytes at `base`. -/
def tileAt (base : Nat) : List Byte := leBytes 128 (base + 2 ^ 121 + 64 * 2 ^ 128 + 64 * 2 ^ 288)
/-- A communicator of two ranks, on devices `d` and `d`, with a timeout of 1 µs. -/
def commOf2 (d : Nat) : List Byte := leBytes 260 (2 + 2 ^ 96 + (d + d * 2 ^ 16) * 2 ^ 2048)
/-- A TXFER on it whose chunk to rank 1 waits. -/
def cmdX (d : Nat) : Cmd := { blankCmd .xfer 1 0 0 0 with comm := commOf2 d, chunks := [{ rank := 1, idx := 0, serial := 0, phase := .waiting 0, held := none }] }

theorem noPath {s : State} {d e : Nat} (h : e ≠ ownDev)
    (k : coDev (leNat (commOf2 d)) 1 = e ∧ coEplane (leNat (commOf2 d)) = false ∧ bindingOf s 0 0 1 = none ∧ coId (leNat (commOf2 d)) = 0) :
    chunkPath s { core := 0, x := 0, m := cmdX d, co := leNat (commOf2 d), k := { rank := 1, idx := 0, serial := 0, phase := .waiting 0, held := none } } = none := by
  obtain ⟨h1, h2, h3, h4⟩ := k
  simp [chunkPath, Cand.dev, Cand.ctx, h1, h, h2, h4, cmdX, blankCmd, ctxOfTeam, teamKey, h3]

/-- Page 3 of context 0 lies on device 5. -/
def far3 (s : State) : State :=
  modCore s 0 fun C => { C with tlb := { ctx := 0, page := 3, big := false, leaf := BitVec.ofNat 64 (2 ^ 63 + 3 * 2 ^ 60 + 5 * 2 ^ 40) } :: C.tlb }

/-- States and operands that meet the hypotheses of `CopiesLand`. -/
theorem witness_CopiesLand :
    (let m := { blankCmd .ld 1 0 0 0 with shape := tileAt 0x30000, words := [0, 0, 0, 0], left := [(0, 64)] }
     let s := far3 (stWith m)
     cmdOf s 0 0 1 = some m ∧ ((landable s 0 0 m 0 64).map (copyWants m)).any (fun l => !l.isEmpty) = true) ∧
    (∀ bar, ∃ us s1, let s := stCopied bar
      cmdOf s 0 3 1 = some (theCmd s) ∧ landable s 0 3 (theCmd s) 0 64 = some us ∧ copyWants (theCmd s) us = [] ∧
        (us.flatMap fun u => (unitWrites s1 (theCmd s) u).1).all (fun e => e.1.near) = true ∧
        grantLines s 0 (us.flatMap fun u => u.elems ++ u.pair) = some s1 ∧ (theCmd s).bar = if bar then some 0x01FF000000000100 else none) ∧
    (let m := { blankCmd .ld 1 0 0 0 with shape := tileAt 0x10200 }
     cmdOf (stWith m) 0 0 1 = some m ∧ recordFault (stWith m) m = none ∧ (m.kind = .ld ∨ m.kind = .st) ∧ m.left = [] ∧ m.outs = [] ∧ m.cut = none) ∧
    (let m := { blankCmd .abort 1 0 0 0 with sent := true }
     cmdOf (stWith m) 0 0 1 = some m ∧ recordFault (stWith m) m = none ∧ m.acks = [] ∧ m.cut = none) ∧
    ((theCmd (stCopied true)).left ≠ [] ∧ (theCmd (stCopied true)).cut = none) ∧
    (let m := blankCmd .ld 1 0 0 0
     cmdOf (stWith m) 0 0 1 = some m ∧ (copyFault (stWith m) m).any (fun f => f.1 != .pagef) = true) ∧
    (let m := { blankCmd .ld 1 0 0 0 with shape := tileAt 0x20000, left := [(0, 64)] }
     cmdOf (stWith m) 0 0 1 = some m ∧ (copyFault (stWith m) m).any (fun f => f.1 == .pagef) = true ∧ m.bad = none ∧ hostMode (stWith m) 1 = false) ∧
    (∃ d, let m := cmdX d
     let s := { stWith m with now := 1000 }
     cmdOf s 0 0 1 = some m ∧ cmdComm m = some (leNat m.comm) ∧ m.kind = .xfer ∧ coTimeout (leNat m.comm) = 1 ∧ m.cut = none ∧
      ∃ k, m.chunks = [k] ∧ k.phase = .waiting 0 ∧
        chunkPath s { core := 0, x := 0, m := m, co := leNat m.comm, k := k } = none) := by
  refine ⟨by decide +kernel, ?_, by decide +kernel, by decide +kernel, by decide +kernel, by decide +kernel, by decide +kernel, ?_⟩
  · intro bar
    cases bar
    · obtain ⟨us, h⟩ : ∃ us, landable (stCopied false) 0 3 (theCmd (stCopied false)) 0 64 = some us := Option.isSome_iff_exists.mp (by decide +kernel)
      have e : us = (landable (stCopied false) 0 3 (theCmd (stCopied false)) 0 64).getD [] := by rw [h]; rfl
      obtain ⟨s1, k⟩ : ∃ s1, grantLines (stCopied false) 0 (us.flatMap fun u => u.elems ++ u.pair) = some s1 := by
        rw [e]; exact Option.isSome_iff_exists.mp (by decide +kernel)
      have e1 : s1 = (grantLines (stCopied false) 0 (((landable (stCopied false) 0 3 (theCmd (stCopied false)) 0 64).getD []).flatMap
          fun u => u.elems ++ u.pair)).getD State.reset := by rw [← e, k]; rfl
      exact ⟨us, s1, by decide +kernel, h, by rw [e]; decide +kernel, by rw [e, e1]; decide +kernel, k, by decide +kernel⟩
    · obtain ⟨us, h⟩ : ∃ us, landable (stCopied true) 0 3 (theCmd (stCopied true)) 0 64 = some us := Option.isSome_iff_exists.mp (by decide +kernel)
      have e : us = (landable (stCopied true) 0 3 (theCmd (stCopied true)) 0 64).getD [] := by rw [h]; rfl
      obtain ⟨s1, k⟩ : ∃ s1, grantLines (stCopied true) 0 (us.flatMap fun u => u.elems ++ u.pair) = some s1 := by
        rw [e]; exact Option.isSome_iff_exists.mp (by decide +kernel)
      have e1 : s1 = (grantLines (stCopied true) 0 (((landable (stCopied true) 0 3 (theCmd (stCopied true)) 0 64).getD []).flatMap
          fun u => u.elems ++ u.pair)).getD State.reset := by rw [← e, k]; rfl
      exact ⟨us, s1, by decide +kernel, h, by rw [e]; decide +kernel, by rw [e, e1]; decide +kernel, k, by decide +kernel⟩
  · by_cases h : ownDev = 5
    · exact ⟨6, by decide +kernel, by decide +kernel, rfl, by decide +kernel, rfl, _, rfl, rfl, noPath (e := 6) (by omega) (by decide +kernel)⟩
    · exact ⟨5, by decide +kernel, by decide +kernel, rfl, by decide +kernel, rfl, _, rfl, rfl, noPath (e := 5) (by omega) (by decide +kernel)⟩

/-- A message, a chunk and the books of a sender and a receiver on the E-plane. -/
def msg0 : ResvMsg := { ctx := 0, commid := 3, sender := 9, window := 1, chunk := 12, trees := 1 }
def chunk0 : Chunk := { hdr := { Header.blank with commid := 3, kind := 6, attempt := 1 }, dstBar := 0, etype := 0, segs := [], span := 0, count := 0, data := [] }
def unans0 : Unans := { cseq := 0, path := 32, sentAt := 0, full := false, lost := false, chunk := chunk0 }
def tx0 : TxResv := { ctx := 0, commid := 3, peer := 9, die := 0, msg := msg0, paths := [32], ask := some (32, 0), credits := 1, seq := 0, unans := [unans0] }
def rx0 (free : Nat) (seen : List (Nat × Reply)) : RxResv := { ctx := 0, commid := 3, sender := 9, bytes := 4096, slots := 1, free := free, lent := 0, asked := [], base := some 0, high := none, seen := seen }
def stE (r : List RxResv) (st : List Staged) (latest : SMap Nat) : State :=
  modCxe { State.reset with power := .on, now := 10000, sendRes := [tx0] } 0 fun x => { x with rx := r, staged := st, latest := latest }
def reply0 (status : BitVec 8) : Reply := { ident := 0, serial := 0, inc := 0, result := 0, status := status, cseq := 0 }
def cand0 : Cand := { core := 0, x := 0, m := cmdX 5, co := 0, k := { rank := 1, idx := 0, serial := 0, phase := .waiting 0, held := none } }

/-- States and operands that meet the hypotheses of `CollectiveSending`. -/
theorem witness_CollectiveSending :
    (let s := stE [] [] []
     s.power = .on ∧ pathUp s 32 = true ∧ 0 = dieOfPath 32 ∧ firstChunks s = [] ∧ arbitrate (SMap.getD (cxeOf s 0).lastVc 32 15) [] = none) ∧
    (pathUp State.reset 31 = false ∧ 1 ≠ dieOfPath 31) ∧ arbitrate 15 [cand0] = some cand0 ∧
    (∃ r, rxFind (stE [rx0 1 []] [] []) 0 msg0.ctx msg0.commid msg0.sender = some r ∧ r.lent ≤ r.free ∧ SMap.getD r.asked 32 0 = 0) ∧
    (rxFind (stE [] [] []) 0 msg0.ctx msg0.commid msg0.sender = none ∧
      2 ^ 23 < ((cxeOf (stE [] [] []) 0).rx.map (·.bytes)).sum + 64 * 15 * 2 ^ 20 ∧
      ((cxeOf (stE [] [] []) 0).rx.map (·.bytes)).sum + msg0.window * msg0.trees * 2 ^ msg0.chunk ≤ 2 ^ 23) ∧
    (let s := stE [] [] []
     txFind s msg0.ctx msg0.commid 9 (peerDie s 32) = some tx0 ∧ tx0.ask.map (·.1) = some 32 ∧ tx0.unans ≠ [] ∧ tx0.ask = some (32, 0) ∧ 0 + 10000 ≤ s.now ∧
      s.sendRes = [tx0] ∧ tx0.unans = [unans0] ∧ unans0.sentAt + 10000 ≤ s.now ∧ unans0.chunk.hdr.kind ≠ 2) ∧
    ({ stE [] [] [] with now := 9999 } : State).now < unans0.sentAt + 10000 :=
  ⟨by decide +kernel, by decide +kernel, by decide +kernel, ⟨rx0 1 [], by decide +kernel⟩, by decide +kernel, by decide +kernel, by decide⟩

/-- Tables in which page 3 of context 0 is filled on demand from a list of one free frame. -/
def stDz (c : Chunk) : State :=
  let s := poke (tables (stE [rx0 1 []] [{ path := 32, sender := 9, chunk := c, more := [], ids := none, no := none }] [])) .phys 0x4018 (leBytes 8 (2 ^ 62))
  mgmtPut s offFreeIdx (2 ^ 32)

/-- States and operands that meet the hypotheses of `CollectiveReceiving`. -/
theorem witness_CollectiveReceiving :
    ((SMap.find (cxeOf (stE [] [] [(3, 2)]) 0).latest (attemptKey 0 3)).any (fun l => olderAttempt l chunk0.hdr.attempt.toNat) = true) ∧
    (let s := stE [] [] []
     SMap.find (cxeOf s 0).latest (attemptKey 0 3) = none ∧ rxFind s 0 0 3 9 = none ∧ chunk0.hdr.kind ≠ 2) ∧
    (let s := stE [rx0 1 []] [] []
     let s1 := modCxe s 0 fun x => { x with latest := SMap.put x.latest (attemptKey 0 3) chunk0.hdr.attempt.toNat }
     rxFind s1 0 0 3 9 = some (rx0 1 []) ∧ tooOld (rx0 1 []) 0 = false ∧ isStaged s1 0 9 chunk0 = false ∧ (rx0 1 []).free ≠ 0) ∧
    (let s := stE [rx0 1 []] [{ path := 32, sender := 9, chunk := chunk0, more := [], ids := none, no := none }] []
     let s1 := modCxe s 0 fun x => { x with latest := SMap.put x.latest (attemptKey 0 3) chunk0.hdr.attempt.toNat }
     SMap.find (cxeOf s 0).latest (attemptKey 0 3) = none ∧ rxFind s1 0 0 3 9 = some (rx0 1 []) ∧ tooOld (rx0 1 []) 0 = false ∧
      isStaged s1 0 9 chunk0 = true) ∧
    (let s := stE [rx0 1 [(0, reply0 0)]] [] []
     let s1 := modCxe s 0 fun x => { x with latest := SMap.put x.latest (attemptKey 0 3) chunk0.hdr.attempt.toNat }
     rxFind s1 0 0 3 9 = some (rx0 1 [(0, reply0 0)]) ∧ (rx0 1 [(0, reply0 0)]).seen = [(0, reply0 0)]) ∧
    (let t : Staged := { path := 32, sender := 9, chunk := chunk0, more := [], ids := none, no := none }
     let s := stE [rx0 1 []] [t] []
     (cxeOf s 0).staged[0]? = some t ∧ chunkAhead s 0 0 t = false ∧ isTile t.chunk = false ∧ checkChunk s 0 t = .fine [] none ∧
      chunkWaits s t [] none = false ∧ (chunkAway s 0 0 t []).isNone = true) ∧
    (let t : Staged := { path := 32, sender := 9, chunk := { chunk0 with dstBar := 8 }, more := [], ids := none, no := none }
     let s := stE [rx0 1 []] [t] []
     (cxeOf s 0).staged[0]? = some t ∧ chunkAhead s 0 0 t = false ∧ isTile t.chunk = false ∧ checkChunk s 0 t = .refuse (refusalWord .prot 0) 8) ∧
    (let c : Chunk := { chunk0 with segs := [(0x30000, 1)], data := [7] }
     let t : Staged := { path := 32, sender := 9, chunk := c, more := [], ids := none, no := none }
     checkChunk (stDz c) 0 t = .page 0x30000 ∧ chunkAhead (stDz c) 0 0 t = false ∧ isTile c = false ∧ hostMode (stDz c) 1 = false ∧
      (zeroFill (stDz c) 0 0x30000).isSome = true) ∧
    (let t : Staged := { path := 32, sender := 9, chunk := { chunk0 with hdr := { chunk0.hdr with cseq := 1 } }, more := [], ids := none, no := none }
     chunkAhead (stE [{ rx0 1 [] with slots := 2 }] [t] []) 0 0 t = true) ∧
    (chunk0.hdr.op = 0 ∧ ([.phys 0] : List Loc).length = ([7] : List Byte).length) ∧
    (let s := stE [] [] []
     s.sendRes = [tx0] ∧ tx0.die = peerDie s 32 ∧ answers (reply0 0) unans0 = true ∧ answers (reply0 4) unans0 = true ∧
      stillCombining (hearInc s 9 (reply0 0).inc) unans0.chunk (reply0 0) none = false) ∧
    (SMap.find (cxeOf (stE [] [] [(3, 2)]) 0).latest (attemptKey 0 3) = some ((1 + 1) % 65536)) ∧
    (let m := blankCmd .abort 1 0 0 0
     cmdOf (stWith m) 0 0 1 = some m ∧ m.kind = .abort) := by
  refine ⟨by decide +kernel, by decide +kernel, by decide +kernel, by decide +kernel, by decide +kernel, by decide +kernel, by decide +kernel,
    by decide +kernel, by decide +kernel, by decide +kernel, by decide +kernel, by decide +kernel, by decide +kernel⟩

/-! ### Other devices, recovery, restarts -/

/-- Page 1 lies at frame 1 of device 9. -/
def stFar : State := modCore stMem 0 fun C =>
  { C with tlb := [{ ctx := 0, page := 1, big := false, leaf := BitVec.ofNat 64 (2 ^ 63 + 3 * 2 ^ 60 + 9 * 2 ^ 40 + 2 ^ 12) }] }
/-- A load of lane 1 awaits 8 bytes of device 9. -/
def farLoad : PendLoad :=
  { id := 4, lane := 1, dest := .lane 1 63 .n64, loc := (List.range 8).map fun i => .remote 9 0 (0x10100 + i), fmt := 0, sel := [], va := 0x10100,
    pc := 0x10000, run := 3, zer := 0, len := 4, got := none, no := none }

/-- States and operands that meet the hypotheses of `RequestsServed`. -/
theorem witness_RequestsServed_RemoteLoads :
    (∃ ls, plainBytes stFar 0 (lowThread c0) (sGet (gangOf stFar 0) 1 + BitVec.ofInt 64 (sext 9 0x1FF * 8)) accRead 8 8 = .ok ls ∧
      (uniAcc c0 (sGet (gangOf stFar 0) 1 + BitVec.ofInt 64 (sext 9 0x1FF * 8)) ls).far = true ∧
      orderGate (readyLoad stFar 0 (.ok [uniAcc c0 (sGet (gangOf stFar 0) 1 + BitVec.ofInt 64 (sext 9 0x1FF * 8)) ls])) 0 ls = .ok () ∧
      UniReady stFar c0 (uniUse 1 [(8, 1)] (some 63))) ∧
    (let s := stOf { gang0 with loads := [farLoad] } team0
     (gangOf s 0).loads = [farLoad] ∧ hasLane farLoad.zer 1 = false ∧ (∀ x ∈ farLoad.loc, x.near = false) ∧ (List.replicate 8 (7 : Byte)).length = farLoad.loc.length) ∧
    ((∀ p ∈ (gangOf st0 0).loads, p.id ≠ 4) ∧ ∀ o ∈ st0.farOps, o.id ≠ 4) := by
  refine ⟨⟨((plainBytes stFar 0 (lowThread c0) (sGet (gangOf stFar 0) 1 + BitVec.ofInt 64 (sext 9 0x1FF * 8)) accRead 8 8).toOption).getD [],
    ok_of (by decide +kernel), by decide +kernel, ok_of (by decide +kernel), uniReady rfl⟩, by decide +kernel, by decide +kernel⟩

/-- An atomic of a gang of context 0 of device 9 at 0x10100, of serial 40. -/
def hdr9 : Header := { Header.blank with addr := 0x10100, ident := BitVec.ofNat 64 (9 * 2 ^ 54), serial := 40, floor := 30, inc := 1, kind := 1, digest := 77, width := 3 }
def ent9 : RindEnt := { addr := 0x10100, ident := hdr9.ident, result := 6, serial := 40, digest := 77, inc := 1, kind := 1, ref := false }
def sxe9 (e : List RindEnt) (f : W32) : State := modSxe (tables { State.reset with power := .on, warmBase := 1 }) 0 fun x =>
  { x with rind := e, recs := [{ ident := hdr9.ident, floor := f, emptyAt := none }] }

/-- States and operands that meet the hypotheses of `RequestsServed`. -/
theorem witness_RequestsServed_ServedOnce :
    ((sxeOf (sxe9 [] 41) 0).recs.find? (fun r => r.ident == hdr9.ident) = some ⟨hdr9.ident, 41, none⟩ ∧ serialBelow hdr9.serial 41 = true) ∧
    (∃ r, (sxeOf (sxe9 [ent9] 40) 0).recs.find? (fun r => r.ident == hdr9.ident) = some r ∧ serialBelow hdr9.serial r.floor = false ∧
      rindFind (sxeOf (sxe9 [ent9] 40) 0) hdr9.ident hdr9.serial = some ent9) ∧
    (∃ r, (sxeOf (sxe9 [] 40) 0).recs.find? (fun r => r.ident == hdr9.ident) = some r ∧ serialBelow hdr9.serial r.floor = false ∧
      rindFind (sxeOf (sxe9 [] 40) 0) hdr9.ident hdr9.serial = none ∧ serialBelow hdr9.inc (sxe9 [] 40).warmBase = false ∧
      (sxeOf (sxe9 [] 40) 0).rind.length < rindCapacity (sxeOf (sxe9 [] 40) 0)) ∧
    serialBelow ({ hdr9 with inc := 0 } : Header).inc (sxe9 [] 40).warmBase = true :=
  ⟨by decide +kernel, ⟨⟨hdr9.ident, 40, none⟩, by decide +kernel⟩, ⟨⟨hdr9.ident, 40, none⟩, by decide +kernel⟩, by decide +kernel⟩

/-- A rind with as many entries as it holds. -/
theorem witness_RequestsServed_ServedOnce_full :
    let s : State := { State.reset with sxes := [(0, { rind := List.replicate 5592405 { ent9 with serial := 41 }, recs := [], extra := 0, warned := false })] }
    rindCapacity (sxeOf s 0) ≤ (sxeOf s 0).rind.length ∧ rindFind (sxeOf s 0) hdr9.ident hdr9.serial = none := by
  have h : ∀ x : Sxe, sxeOf { State.reset with sxes := [(0, x)] } 0 = x := fun x => rfl
  simp only [h]
  refine ⟨by rw [rindCapacity, List.length_replicate]; decide, ?_⟩
  rw [rindFind, List.find?_eq_none]
  intro e he
  rw [List.eq_of_mem_replicate he]
  decide

/-- A read and a write of 8 bytes of frame 1. -/
def accR (data : Option (List Byte)) : RemoteAcc := { ctx := 0, frame := 1, off := 0x100, size := 8, data := data }

/-- States and operands that meet the hypotheses of `RequestsServed`. -/
theorem witness_RequestsServed :
    (∀ k : Nat, k < 5 → (sxe9 [] 40).power = .on ∧ homeDie (sxe9 [] 40) ({ hdr9 with kind := BitVec.ofNat 4 k } : Header).addr.toNat = homeDie (sxe9 [] 40) 0x10100) ∧
    pinned (sxe9 [] 40) (physBytes 0x10100 8) = false ∧
    (∃ die, die ≠ homeDie (sxe9 [] 40) hdr9.addr.toNat) ∧
    ownerCheck State.reset (identCtx hdr9.ident) (hdr9.addr.toNat / 65536) accAtomic = none ∧
    ownerCheck (sxe9 [] 40) (accR none).ctx (accR none).frame accRead = some 0x20000 ∧
    ownerCheck (sxe9 [] 40) (accR (some [1])).ctx (accR (some [1])).frame accWrite = some 0x20000 ∧
    ((accR none).off + (accR none).size ≤ 65536 ∧ (accR (some [1])).off + [1].length ≤ 65536 ∧ pinned (sxe9 [] 40) (physBytes (65536 + 0x100) 1) = false) ∧
    ownerCheck State.reset (accR none).ctx (accR none).frame accRead = none :=
  ⟨by decide +kernel, by decide +kernel, ⟨4, by decide +kernel⟩, by decide +kernel, by decide +kernel, by decide +kernel, by decide +kernel, by decide +kernel⟩

theorem ident_parts (d : BitVec 10) : Word.fld (BitVec.ofNat 64 (d.toNat * 2 ^ 54 + 0 % 2 ^ 54)) 54 10 = d.toNat ∧
    (BitVec.ofNat 64 (d.toNat * 2 ^ 54 + 0 % 2 ^ 54)).toNat % 2 ^ 54 = 0 := by
  have h := d.isLt
  simp only [Word.fld, Machine.fld, BitVec.toNat_ofNat]
  omega

theorem ident_own : Word.fld (identOf 0) 54 10 = Config.deviceId.toNat ∧ (identOf 0).toNat % 2 ^ 54 = 0 := by
  rw [identOf]
  exact ident_parts Config.deviceId

theorem awaiting_own {s : State} {q : OutReq} {w : Word} {n : W32} (a : Word.fld w 54 10 = Config.deviceId.toNat ∧ w.toNat % 2 ^ 54 = 0)
    (c : (SMap.find s.gangs 0).isSome = true) (d : (teamOf s (teamKey 0)).st = .running)
    (e : (gangOf s 0).reqs = [q]) (f : q.is w n = true) : awaiting s w n = some (0, q) := by
  have c' : (SMap.find s.gangs 0).isNone = false := by
    cases h : SMap.find s.gangs 0 with
    | none => rw [h] at c; exact absurd c (by decide)
    | some G => rfl
  unfold awaiting
  rw [a.2]
  show (if (Word.fld w 54 10 != Config.deviceId.toNat || (SMap.find s.gangs 0).isNone || (teamOf s (teamKey 0)).st == .saved) = true then none
    else ((gangOf s 0).reqs.find? fun q => q.is w n).map fun q => ((0 : Nat), q)) = some (0, q)
  rw [a.1, d, e, c']
  simp [f]

/-- Gang 0 awaits the answer to request 5 of `owner`, made at time 0. -/
def req5 (owner : Nat) (full : Bool) : OutReq :=
  { hdr := { Header.blank with ident := identOf 0, serial := 5, kind := 1, width := 3, addr := 0x10100 }, dest := .lane 1 63 .n64, owner := owner,
    pc := 0x10000, sentAt := 0, wait := 10000, full := full, quiet := false, acq := false, locs := [], item := none, nth := 0 }
def stReq (owner : Nat) (full : Bool) : State :=
  { State.reset with power := .on, now := 20000, gangs := [(0, { gang0 with reqs := [req5 owner full] })] }

theorem req5_is (owner : Nat) (full : Bool) : (req5 owner full).is (identOf 0) 5 = true := by simp [OutReq.is, req5]

theorem stReq_find (owner : Nat) (full : Bool) : (SMap.find (stReq owner full).gangs 0).isSome = true := by simp [stReq, SMap.find]

theorem stReq_team (owner : Nat) (full : Bool) : (teamOf (stReq owner full) (teamKey 0)).st = .running := by
  have h : teamOf (stReq owner full) (teamKey 0) = teamOf State.reset (teamKey 0) := by simp only [stReq, teamOf]
  rw [h]; decide +kernel

theorem stReq_reqs (owner : Nat) (full : Bool) : (gangOf (stReq owner full) 0).reqs = [req5 owner full] := by
  simp [stReq, gangOf, SMap.find, SMap.getD]

theorem stReq_awaiting (owner : Nat) (full : Bool) : awaiting (stReq owner full) (identOf 0) 5 = some (0, req5 owner full) :=
  awaiting_own ident_own (stReq_find owner full) (stReq_team owner full) (stReq_reqs owner full) (req5_is owner full)

theorem open_of {s : State} {g h : Nat} {n : W32} {q : OutReq} (e : awaiting s (identOf g) n = some (h, q)) : openReq s g n = some q := by
  simp [openReq, e]

theorem stReq_open (owner : Nat) (full : Bool) : openReq (stReq owner full) 0 (BitVec.ofNat 32 5) = some (req5 owner full) :=
  open_of (h := 0) (n := BitVec.ofNat 32 5) (by rw [show (BitVec.ofNat 32 5 : W32) = 5 from by decide]; exact stReq_awaiting owner full)

theorem not_own {owner : Nat} (h : 1024 ≤ owner) : owner ≠ Config.deviceId.toNat := by
  have := Config.deviceId.isLt
  omega

theorem stReq_unpinned (owner : Nat) : againPinned (stReq owner true) 0 (req5 owner true) = false := by
  unfold againPinned
  have h : ∀ ls, pinned (stReq owner true) ls = false := fun ls => rfl
  cases againBytes (stReq owner true) 0 (req5 owner true) <;> simp [h]

/-- States and operands that meet the hypotheses of `RequestersCourse`. -/
theorem witness_RequestersCourse :
    (∀ f, awaiting (stReq 1024 f) (req5 1024 f).hdr.ident (req5 1024 f).hdr.serial = some (0, req5 1024 f)) ∧
    (∀ ident serial, awaiting State.reset ident serial = none ∧ orphanOf State.reset ident serial = none) ∧
    ((req5 1024 false).dest = .lane 1 63 .n64 ∧ (thr (gangOf (stReq 1024 false) 0) 1).isSome = true) ∧
    (openReq (stReq 1024 false) 0 (BitVec.ofNat 32 5) = some (req5 1024 false) ∧ (req5 1024 false).owner ≠ Config.deviceId.toNat ∧ (req5 1024 false).full = false ∧
      (req5 1024 false).sentAt + (req5 1024 false).wait ≤ (stReq 1024 false).now ∧
      ({ stReq 1024 false with now := 9999 } : State).now < (req5 1024 false).sentAt + (req5 1024 false).wait) ∧
    (openReq (stReq 1024 true) 0 (BitVec.ofNat 32 5) = some (req5 1024 true) ∧ (req5 1024 true).full = true ∧
      (req5 1024 true).sentAt + 10000 ≤ (stReq 1024 true).now ∧ (req5 1024 true).owner ≠ Config.deviceId.toNat) ∧
    (∃ d, d = Config.deviceId.toNat ∧ openReq (stReq d true) 0 (BitVec.ofNat 32 5) = some (req5 d true) ∧
      awaiting (stReq d true) (req5 d true).hdr.ident (req5 d true).hdr.serial = some (0, req5 d true) ∧
      (req5 d true).hdr.kind ≠ 4 ∧ againPinned (stReq d true) 0 (req5 d true) = false ∧ (req5 d true).sentAt + 10000 ≤ (stReq d true).now) ∧
    (let s : State := { stOf { srPut gang0 rSerNext 9 with acks := [(7, { at_ := 0, floor := 4 })], ckSerial := 9 } team0 with now := 10000 }
     ∃ G, SMap.find s.gangs 0 = some G ∧ SMap.find G.acks 7 = some { at_ := 0, floor := 4 } ∧ 0 + 10000 ≤ s.now ∧
      (gangOf s 0).reqs = [] ∧ (teamOf s (teamKey 0)).st ≠ .saved) ∧
    (let r : ReqRec := { ident := 3, floor := 4, emptyAt := none }
     ({ rind := [], recs := [r], extra := 0, warned := false } : Sxe).recs.find? (fun r => r.ident == 3) = some r ∧ serialBelow r.floor 9 = true) ∧
    hostMode (mgmtPut State.reset offMode 4) 2 = true :=
  ⟨fun f => stReq_awaiting 1024 f, fun ident serial => ⟨by
    have h : ∀ g, SMap.find State.reset.gangs g = none := fun _ => rfl
    simp [awaiting, h], rfl⟩,
   ⟨rfl, by decide +kernel⟩, ⟨stReq_open 1024 false, not_own (Nat.le_refl _), rfl, by decide +kernel, by decide +kernel⟩,
   ⟨stReq_open 1024 true, rfl, by decide +kernel, not_own (Nat.le_refl _)⟩, ⟨_, rfl, stReq_open _ true, stReq_awaiting _ true, show (1 : BitVec 4) ≠ 4 by decide, stReq_unpinned _, by decide +kernel⟩,
   ⟨_, rfl, rfl, by decide +kernel, rfl, by decide +kernel⟩, by decide +kernel, by decide +kernel⟩

/-- The floor of that gang stands above what it told device 7. -/
theorem witness_RequestersCourse_floor :
    let s : State := { stOf { srPut gang0 rSerNext 9 with acks := [(7, { at_ := 0, floor := 4 })], ckSerial := 9 } team0 with now := 10000 }
    serialBelow 4 (floorOf s 0) = true := by decide +kernel

/-! ### Restarts, recovery -/

/-- States and operands that meet the hypotheses of `RestartsAndBoot`. -/
theorem witness_RestartsAndBoot_Restarts :
    ({ State.reset with power := .on } : State).power = .on ∧ State.reset.power = .booting true ∧
    ({ State.reset with power := .booting false } : State).power = .booting false ∧
    ({ State.reset with power := .bootFailed } : State).power = .bootFailed ∧ Instr.boot ≠ .coldRestart ∧ Instr.boot ≠ .powerRemoval ∧
    (∀ n, Instr.boot ≠ .transportAck n) ∧ (∀ n, Instr.boot ≠ .transportResend n) ∧ (∀ a b c d, Instr.boot ≠ .read a b c d) :=
  ⟨rfl, rfl, rfl, rfl, by simp, by simp, by simp, by simp, by simp⟩

/-- States and operands that meet the hypotheses of `RestartsAndBoot`. -/
theorem witness_RestartsAndBoot_BootStartsTheDeviceOrNothing :
    (let s : State := { State.reset with power := .bootFailed, inputs := [.turn 0, .script 1] }
     s.power = .bootFailed ∧ s.inputs = .turn 0 :: [.script 1]) ∧ offEvent .bootFailed .boot = false := ⟨⟨rfl, rfl⟩, by decide +kernel⟩

/-- A team that a checkpoint can take back. -/
def stCkpt : State := takeCkpt st0 0
/-- The same team, saved. -/
def stSaved : State := modTeam stCkpt 0 fun T => { T with st := .saved, record := codeRec }
/-- A team with a save area at 0x20000. -/
def teamSave (st : TeamSt) : Team := { team0 with st := st, prBase := 0x20000, prSize := 0 }
/-- Tables of context 0 that map the first 32 MiB at physical address 0. -/
def bigMap (s : State) : State :=
  mgmtPut { s with mem := [(1, 0x10), (7, 0x80), (0x1001, 0x20), (0x1007, 0x80), (0x2006, 0x04), (0x2007, 0x80)] } offRootBase 0x100
/-- A team whose save is due. -/
def stSaving : State := bigMap (stOf gang0 (teamSave .saving))

theorem walkFrom_big {s : State} {va vb : Nat} (h : va / 2 ^ 25 = vb / 2 ^ 25) {e : Word} :
    ∀ l, l ≤ 3 → ∀ t, walkFrom s va l t = .leaf e true → walkFrom s vb l t = .leaf e true := by
  have f : ∀ k n, 25 ≤ k → fld va k n = fld vb k n := by
    intro k n hk
    obtain ⟨m, rfl⟩ := Nat.exists_eq_add_of_le hk
    simp only [Machine.fld, Nat.pow_add, ← Nat.div_div_eq_div_mul, h]
  intro l
  induction l with
  | zero =>
    intro _ t
    unfold walkFrom
    simp only [Nat.reduceBEq, Bool.false_eq_true, if_false]
    split <;> intro w <;> cases w
  | succ l ih =>
    intro hl t
    have k := ih (by omega)
    have hl' : l = 0 ∨ l = 1 ∨ l = 2 := by omega
    rcases hl' with rfl | rfl | rfl <;>
    · unfold walkFrom
      simp only [Nat.reduceAdd, Nat.reduceBEq, Bool.false_eq_true, if_false, if_true, beq_self_eq_true,
        f 45 12 (by omega), f 34 11 (by omega), f 25 9 (by omega)]
      split
      · exact id
      · split
        · exact id
        · split
          · exact id
          · exact k _

theorem walk_big {s : State} {ctx va : Nat} {e : Word} (w : walk s ctx 0x20000 = .leaf e true) (h : va < 2 ^ 25) : walk s ctx va = .leaf e true :=
  walkFrom_big (by omega) 3 (Nat.le_refl _) _ w

theorem ctxBytes_big {s : State} {ctx kind : Nat} {sys : Bool} {e : Word} (w : walk s ctx 0x20000 = .leaf e true)
    (r : leafRefuses e kind sys = none) (p : leafPlace e ≠ 3) : ∀ n va, va + n ≤ 2 ^ 25 →
      ctxBytes s ctx va kind sys n = .ok ((List.range' va n).map fun a => .phys (leafPhys e true a)) := by
  intro n
  induction n with
  | zero => intro va _; rfl
  | succ n ih =>
    intro va h
    unfold ctxBytes
    have q : (leafPlace e == 3) = false := beq_eq_false_iff_ne.2 p
    simp only [ctxByte, walk_big w (show va < 2 ^ 25 by omega), r, q, ih (va + 1) (by omega)]
    rfl

theorem ownPages_big {s : State} {ctx kind m : Nat} {sys : Bool} {e : Word} (w : walk s ctx 0x20000 = .leaf e true)
    (r : leafRefuses e kind sys = none) (n va : Nat) (h : va + n ≤ 2 ^ 25) : ownPages s ctx va n kind m sys = (s, .there) := by
  have one : ∀ a, a < 2 ^ 25 → ownPage s ctx a kind m sys = (s, .there) := by
    intro a ha
    unfold ownPage ctxByte
    simp only [walk_big w ha, r]
  have all : ∀ l : List Nat, (∀ a ∈ l, a < 2 ^ 25) →
      l.foldl (fun r a => if r.2 == .there then ownPage r.1 ctx a kind m sys else r) (s, PageRes.there) = (s, .there) := by
    intro l
    induction l with
    | nil => intro _; rfl
    | cons a l ih =>
      intro hl
      rw [List.foldl_cons]
      simp only [beq_self_eq_true, if_true, one a (hl a (List.mem_cons_self ..))]
      exact ih fun b hb => hl b (List.mem_cons_of_mem _ hb)
  unfold ownPages
  apply all
  intro a ha
  obtain ⟨i, hi, rfl⟩ := List.mem_map.mp ha
  rw [List.mem_range] at hi
  split at hi
  · omega
  · rename_i hn
    have : n ≠ 0 := by simpa using hn
    exact Nat.max_lt.2 ⟨by omega, by omega⟩

/-- Where the first page gives no answer but a wait or a refusal, so do all. -/
theorem ownPages_stops {s u : State} {ctx va kind m n : Nat} {sys : Bool} {q : PageRes} (hq : q ≠ .there) (hn : n ≠ 0)
    (h : ownPage s ctx va kind m sys = (u, q)) : ownPages s ctx va n kind m sys = (u, q) := by
  have all : ∀ l : List Nat, l.foldl (fun r a => if r.2 == .there then ownPage r.1 ctx a kind m sys else r) (u, q) = (u, q) := by
    intro l
    induction l with
    | nil => rfl
    | cons a l ih => rw [List.foldl_cons]; simpa [hq] using ih
  have e : ∃ k, (if (n == 0) = true then 0 else (va + n - 1) / 65536 - va / 65536 + 1) = k + 1 :=
    ⟨_, if_neg (by simpa using hn)⟩
  obtain ⟨k, e⟩ := e
  unfold ownPages
  simp only [e, List.range_succ_eq_map, List.map_cons, List.foldl_cons, beq_self_eq_true, if_true, Nat.add_zero]
  rw [show Nat.max va (va / 65536 * 65536) = va from Nat.max_eq_left (Nat.div_mul_le_self ..), h]
  exact all _

@[simp] theorem padTo_length (n : Nat) (b : List Byte) : (padTo n b).length = Nat.max n b.length := by
  have := Nat.le_max_left n b.length
  simp only [padTo, List.length_append, List.length_replicate, Nat.max_def]
  split <;> omega

@[simp] theorem leBytes_length : ∀ n x, (leBytes n x).length = n
  | 0, _ => rfl
  | n + 1, x => by simp [leBytes, leBytes_length n]

theorem flat_length {α : Type} {f : α → List Byte} {c : Nat} : ∀ l : List α, (∀ a, (f a).length = c) → (l.flatMap f).length = l.length * c
  | [], _ => by simp
  | a :: l, h => by rw [List.flatMap_cons, List.length_append, h, flat_length l h, List.length_cons, Nat.succ_mul, Nat.add_comm]

theorem saveThread_length (G : Gang) (l : Nat) : (saveThread G l).length = 128 := by
  unfold saveThread
  dsimp only
  rw [List.length_append, List.length_append, List.length_append, List.length_append, leBytes_length, leBytes_length, leBytes_length,
    flat_length (c := 8) _ fun _ => leBytes_length .., List.length_range, List.length_replicate]

/-- A gang's block of the save area is at most 64 KiB long. -/
theorem saveGang_length (s : State) (g : Nat) (h : (gangOf s g).budget ≤ 7) : (saveGang s g).length ≤ 60000 := by
  have v : ((List.range (8 * ((gangOf s g).budget + 1))).flatMap fun k => lanes.flatMap fun l => leBytes 8 (vGet (gangOf s g) k l).toNat).length
      = 8 * ((gangOf s g).budget + 1) * 256 := by
    rw [flat_length (c := 256) _ fun k => flat_length (c := 8) _ fun _ => leBytes_length .., List.length_range]
  have q : (lanes.flatMap fun t => (List.range 8).flatMap fun m => (List.range 8).flatMap fun e =>
      leBytes 4 (qGet (gangOf s g) t m e).toNat).length = 8192 := by
    rw [flat_length (c := 256) _ fun t => flat_length (c := 32) _ fun m => flat_length (c := 4) _ fun _ => leBytes_length ..]
    rfl
  have m : (if ((gangOf s g).role == .matrix) = true then lanes.flatMap fun t => (List.range 8).flatMap fun m => (List.range 8).flatMap fun e =>
      leBytes 4 (qGet (gangOf s g) t m e).toNat else []).length ≤ 8192 := by
    split
    · exact Nat.le_of_eq q
    · exact Nat.zero_le _
  have n : saveRegs.length = 53 := rfl
  have k : lanes.length = 32 := rfl
  unfold saveGang
  simp only [List.length_append, leBytes_length, List.length_replicate, bitMap, v,
    flat_length (c := 128) lanes (saveThread_length (gangOf s g)),
    flat_length (c := 8) saveRegs fun n => leBytes_length 8 ((stateReg s g n).getD 0).toNat,
    flat_length (c := 8) (List.range 9) fun e => leBytes_length 8 (SMap.getD (gangOf s g).winPos e 0),
    flat_length (c := 8) (List.range 64) fun i => leBytes_length 8 (sGet (gangOf s g) i).toNat,
    flat_length (c := 1) lanes fun l => leBytes_length 1 ((List.range 7).foldl (fun a p => a + b2n (pGet (gangOf s g) p l) * 2 ^ p) 0), n, k,
    List.length_range]
  omega

/-- The image of a team of one gang, with nothing cancelled and nothing outstanding. -/
theorem saveImage_length {s : State} {t g : Nat} (hg : gangsOf s t = [g]) (hb : (gangOf s g).budget ≤ 7) (hr : (gangOf s g).reqs = [])
    (hw : (gangOf s g).role ≠ .worker) (hc : (teamOf s t).cut = []) (hs : (teamOf s t).spSize = 0) :
    0 < (saveImage s t).length ∧ (saveImage s t).length ≤ 200000 := by
  have k := saveGang_length s g hb
  have h : (saveHeader s t).length = 256 := by unfold saveHeader; exact leBytes_length ..
  have w : ((gangOf s g).role == .worker) = false := beq_eq_false_iff_ne.2 hw
  unfold saveImage
  simp only [hg, hr, hc, hs, w, List.flatMap_cons, List.flatMap_nil, List.append_nil, List.any_cons, List.any_nil, Bool.or_false,
    Bool.false_eq_true, if_false, List.length_append, padTo_length, h, bitMap, leBytes_length, List.length_map, List.length_range,
    List.length_nil, Nat.max_def]
  repeat' split
  all_goals omega

/-- The state whose team is saved once its stores are drained. -/
def drained (s : State) : State := (gangsOf s 0).foldl drainAll s

/-- Where the pages of a save area of at most 200,000 bytes lie. -/
theorem saving_there {s : State} {n : Nat} (hn : 0 < n ∧ n ≤ 200000) (a : saveAddr (teamOf s 0) = 0x20000)
    (w : walk (drained s) (teamOf s 0).ctx 0x20000 = .leaf (BitVec.ofNat 64 (2 ^ 63 + 2 ^ 50)) true) :
    ∃ ls, ownPages (drained s) (teamOf s 0).ctx (saveAddr (teamOf s 0)) n accWrite (masterSave 0) true = (drained s, .there) ∧
    ctxBytes (drained s) (teamOf s 0).ctx (saveAddr (teamOf s 0)) accWrite true n = .ok ls ∧
    Loc.phys 0x20000 ∈ ls ∧ ∀ l ∈ ls, ∃ a, l = .phys a := by
  rw [a]
  refine ⟨_, ownPages_big w (by decide +kernel) _ _ (by omega), ctxBytes_big w (by decide +kernel) (by decide +kernel) _ _ (by omega), ?_, ?_⟩
  · rw [List.mem_map]
    exact ⟨0x20000, List.mem_range'_1.2 ⟨Nat.le_refl _, by omega⟩, by decide +kernel⟩
  · intro l hl
    obtain ⟨_, -, rfl⟩ := List.mem_map.mp hl
    exact ⟨_, rfl⟩

/-- The line at 0x20000 of far memory holds poison. -/
def stSavePoison : State := { stSaving with poisonFar := [(0x800, 1)] }
/-- A store of the team awaits another device's answer. -/
def stSaveFar : State := { stSaving with farOps := [{ id := 1, who := .store 0 0 0 0, dev := 9, ctx := 0, loc := 0, len := 1, va := 0 }] }
/-- No page is there, and the host, or the device, serves page faults. -/
def stSaveAbsent (host : Bool) : State := mgmtPut (stOf gang0 (teamSave .saving)) offMode (if host then 2 else 0)

theorem image_bounded {s : State} (k : gangsOf s 0 = [0] ∧ (gangOf s 0).budget ≤ 7 ∧ (gangOf s 0).reqs = [] ∧ (gangOf s 0).role ≠ .worker ∧
    (teamOf s 0).cut = [] ∧ (teamOf s 0).spSize = 0) : 0 < (saveImage s 0).length ∧ (saveImage s 0).length ≤ 200000 :=
  saveImage_length k.1 k.2.1 k.2.2.1 k.2.2.2.1 k.2.2.2.2.1 k.2.2.2.2.2

theorem no_poison {s : State} (h : s.poisonSp = [] ∧ s.poisonL2 = [] ∧ s.poisonFar = []) (l : Loc) : locPoison s l = none := by
  cases l <;> simp [locPoison, h, SMap.find]

theorem absent_stops (host : Bool) : ∃ u, ownPages (drained (stSaveAbsent host)) (teamOf (stSaveAbsent host) 0).ctx
    (saveAddr (teamOf (stSaveAbsent host) 0)) (saveImage (drained (stSaveAbsent host)) 0).length accWrite (masterSave 0) true =
      (u, if host then .wait else .refused) := by
  have n := image_bounded (s := drained (stSaveAbsent host)) (by cases host <;> decide +kernel)
  refine ⟨(ownPage (drained (stSaveAbsent host)) (teamOf (stSaveAbsent host) 0).ctx (saveAddr (teamOf (stSaveAbsent host) 0)) accWrite
    (masterSave 0) true).1, ownPages_stops (by cases host <;> decide) (by omega) (Prod.ext rfl ?_)⟩
  cases host <;> decide +kernel

/-- States and operands that meet the hypotheses of `Recovery`. -/
theorem witness_Recovery_save :
    saveDue st0 0 = false ∧
    (saveDue stSaveFar 0 = true ∧ storesDone (drained stSaveFar) 0 = false) ∧
    (∀ host, saveDue (stSaveAbsent host) 0 = true ∧ storesDone (drained (stSaveAbsent host)) 0 = true ∧
      (ownPages (drained (stSaveAbsent host)) (teamOf (stSaveAbsent host) 0).ctx (saveAddr (teamOf (stSaveAbsent host) 0))
        (saveImage (drained (stSaveAbsent host)) 0).length accWrite (masterSave 0) true).2 = if host then .wait else .refused) ∧
    (∀ s, s = stSaving ∨ s = stSavePoison → saveDue s 0 = true ∧ storesDone (drained s) 0 = true ∧
      ∃ ls, ownPages (drained s) (teamOf s 0).ctx (saveAddr (teamOf s 0)) (saveImage (drained s) 0).length accWrite (masterSave 0) true =
          (drained s, .there) ∧
        ctxBytes (drained s) (teamOf s 0).ctx (saveAddr (teamOf s 0)) accWrite true (saveImage (drained s) 0).length = .ok ls ∧
        (s = stSaving → ∀ l ∈ ls, locPoison (drained s) l = none) ∧ (s = stSavePoison → ∃ l ∈ ls, locPoison (drained s) l ≠ none)) := by
  refine ⟨by decide +kernel, by decide +kernel, ?_, ?_⟩
  · intro host
    obtain ⟨u, h⟩ := absent_stops host
    exact ⟨by cases host <;> decide +kernel, by cases host <;> decide +kernel, by rw [h]⟩
  · rintro s (rfl | rfl)
    · obtain ⟨ls, h, k, -, -⟩ := saving_there (s := stSaving) (image_bounded (s := drained stSaving) (by decide +kernel)) (by decide +kernel)
        (by decide +kernel)
      exact ⟨by decide +kernel, by decide +kernel, ls, h, k, fun _ l _ => no_poison (by decide +kernel) l,
        fun e => absurd (congrArg State.poisonFar e) (by decide +kernel)⟩
    · obtain ⟨ls, h, k, m, -⟩ := saving_there (s := stSavePoison) (image_bounded (s := drained stSavePoison) (by decide +kernel)) (by decide +kernel)
        (by decide +kernel)
      exact ⟨by decide +kernel, by decide +kernel, ls, h, k, fun e => absurd (congrArg State.poisonFar e) (by decide +kernel),
        fun _ => ⟨_, m, by decide +kernel⟩⟩

/-- The last line of the save area, in the brine, is poisoned. -/
def stBrine : State :=
  let s := takeCkpt (bigMap (stOf gang0 (teamSave .running))) 0
  { s with poisonFar := [((0x20000 + saveSize s 0 - 1) / 64, 1)] }

/-- The team is to be rolled back once its matrix operations have retired. -/
def stRolling (m : Bool) : State := modTeam stCkpt 0 fun T => { T with st := .rolling m }

/-- States and operands that meet the hypotheses of `Recovery`. -/
theorem witness_Recovery_rollback :
    ((teamOf stCkpt 0).st = .running ∧ canRollback stCkpt 0 = true ∧ matrixBusy stCkpt 0 = false) ∧
    ((teamOf st0 0).st = .running ∧ canRollback st0 0 = false) ∧
    ((teamOf stSaved 0).st = .saved ∧ (∀ st, st = .saving ∨ st = .quiescing 5 →
      let s := modTeam stCkpt 0 fun T => { T with st := st }
      (teamOf s 0).st = st ∧ canRollback s 0 = true ∧ matrixBusy s 0 = false)) ∧
    (areaBad stBrine 0 (saveSize stBrine 0 - brineSize stBrine 0) (brineSize stBrine 0) = true ∧ canRollback stBrine 0 = false ∧
      (teamOf stBrine 0).taint = false) ∧
    (∀ m, (teamOf (stRolling m) 0).st = .rolling m ∧ matrixBusy (stRolling m) 0 = false ∧
      matrixBusy (modMat (stRolling m) 0 fun q => { q with ops := [opAt true 0x10100 0] }) 0 = true) ∧
    ∃ k, (teamOf stCkpt 0).ckpt = some k ∧ (SMap.find k.gangs 0).isSome = true ∧ k.gangs.map (·.1) = [0] ∧ gangsOf stCkpt 0 = [0] :=
  ⟨by decide +kernel, by decide +kernel, ⟨by decide +kernel, by rintro st (rfl | rfl) <;> decide +kernel⟩, by decide +kernel, fun m => by cases m <;> decide +kernel, ((teamOf stCkpt 0).ckpt).getD ⟨[], [], [], 0, [], []⟩, by decide +kernel⟩

/-- States and operands that meet the hypotheses of `Recovery`. -/
theorem witness_Recovery_quiesce :
    let s := stOf gang0 (teamSave (.quiescing 5))
    (teamOf s 0).st = .quiescing 5 ∧ s.now < 5 ∧ (5 : Nat) ≤ ({ s with now := 5 } : State).now ∧
    (teamCmds s 0).filter (fun e => cancellable e.2) = [] := by decide +kernel

/-- A saved pair, and a saved team of a resident launch. -/
def stSavedPair : State := setTeam (modTeam stSaved 0 fun T => { T with partner := some 1 }) 1 { team0 with st := .saved, partner := some 0 }
def stSavedRes : State := modTeam stSaved 0 fun T => { T with resident := true }

/-- States and operands that meet the hypotheses of `Recovery`. -/
theorem witness_Recovery_resume :
    (∃ slots sp k, (teamOf stSaved 0).st = .saved ∧ (teamOf stSaved 0).partner = none ∧ (teamOf stSaved 0).resident = false ∧
      fits stSaved (teamOf stSaved 0).ctx 80 (teamOf stSaved 0).record.cls (askOf stSaved (teamOf stSaved 0).ctx (teamOf stSaved 0).record) = true ∧
      slotsFor stSaved 80 (teamOf stSaved 0).ngang = some slots ∧ spadFind stSaved 80 (teamOf stSaved 0).spSize = some sp ∧
      (teamOf stSaved 0).ckpt = some k ∧ (teamOf stSaved 0).cut = [] ∧ slots[0]?.isSome = true ∧ (SMap.find stSaved.gangs 0).isSome = true) ∧
    savedBad stSaved 0 = false ∧ (teamOf st0 0).st ≠ .saved ∧
    (let s := modTeam stBrine 0 fun T => { T with st := .saved }
     (teamOf s 0).st = .saved ∧ (teamOf s 0).resident = false ∧ savedBad s 0 = true) ∧ savedBad stSavedPair 0 = false ∧
    ((teamOf stSavedPair 0).partner = some 1 ∧ (SMap.find stSavedPair.teams 1).isSome = true ∧ (resumeTeam stSavedPair 0 400).isNone = true) ∧
    (teamOf stSavedRes 0).resident = true :=
  ⟨⟨((slotsFor stSaved 80 1)).getD [], ((spadFind stSaved 80 0)).getD 0, ((teamOf stCkpt 0).ckpt).getD ⟨[], [], [], 0, [], []⟩, by decide +kernel⟩,
   by decide +kernel, by decide +kernel, by decide +kernel, by decide +kernel, by decide +kernel, by decide +kernel⟩

/-- The gang's next instruction, at 0x10000, mismatched already. -/
def stTwice : State := takeCkpt (stOf { gang0 with stopPc := some 0x10000 } team0) 0
def stTwiceBusy : State := modMat stTwice 0 fun q => { q with ops := [opAt true 0x10100 0] }
/-- A matrix operation is on the array of a pair that has a checkpoint. -/
def stArray (struck : Bool) : State := modMat (takeCkpt (takeCkpt stPairs 0) 1) 0 fun q => { q with ops := [{ opAt true 0x10100 0 with struck := struck }] }
def stArrayGone : State := modMat stPairs 0 fun q => { q with ops := [{ opAt true 0x10100 0 with struck := true, gone := true }] }

/-- States and operands that meet the hypotheses of `Recovery`. -/
theorem witness_Recovery_errors :
    (∃ G, SMap.find st0.gangs 0 = some G ∧ chooseRun G = some (0x10000, 3) ∧ G.stopPc ≠ some 0x10000) ∧
    (∃ G, SMap.find stTwice.gangs 0 = some G ∧ chooseRun G = some (0x10000, 3) ∧ G.stopPc = some 0x10000 ∧ canRollback stTwice (teamKey 0) = true ∧
      matrixBusy stTwice (teamKey 0) = false ∧ SMap.find stTwiceBusy.gangs 0 = some G ∧ canRollback stTwiceBusy (teamKey 0) = true ∧
      matrixBusy stTwiceBusy (teamKey 0) = true) ∧
    (let s := stOf { gang0 with stopPc := some 0x10000 } team0
     ∃ G, SMap.find s.gangs 0 = some G ∧ chooseRun G = some (0x10000, 3) ∧ G.stopPc = some 0x10000 ∧ canRollback s (teamKey 0) = false) ∧
    (∀ b, ∃ G o, SMap.find (stArray b).gangs 0 = some G ∧ (matOf (stArray b) (pairOfCore G.core)).ops.head? = some o ∧ o.running = true ∧ o.gang = 0 ∧
      o.struck = b ∧ o.gone = false ∧ (killSet (stArray b) o.team).all (undoes (stArray b) o.num) = true) ∧
    (∃ G o, SMap.find stArrayGone.gangs 0 = some G ∧ (matOf stArrayGone (pairOfCore G.core)).ops.head? = some o ∧ o.running = true ∧ o.gang = 0 ∧
      o.struck = true ∧ o.gone = true) ∧
    (placeOf { State.reset with place := [(9, { home := 0, res := 0, dest := 0 })] } (9216 / 1024)).res = 0 ∧
    (placeOf { State.reset with place := [(9, { home := 0, res := 1, dest := 1 })] } (9216 / 1024)).res ≠ 0 :=
  ⟨⟨gangOf st0 0, by decide +kernel⟩, ⟨gangOf stTwice 0, by decide +kernel⟩, ⟨gangOf (stOf { gang0 with stopPc := some 0x10000 } team0) 0, by decide +kernel⟩,
   fun b => ⟨gangOf (stArray b) 0, { opAt true 0x10100 0 with struck := b }, by cases b <;> decide +kernel⟩,
   ⟨gangOf stArrayGone 0, { opAt true 0x10100 0 with struck := true, gone := true }, by decide +kernel⟩, by decide +kernel, by decide +kernel⟩

/-! ### The host, observation, encodings, steps -/

/-- A powered device with page tables that has taken host message 3. -/
def stHost : State := { tables { State.reset with power := .on } with hostSeen := [3] }
def mv (toHost : Bool) : HostMove :=
  { seq := 8, space := .physical, addr := 0x10100, slot := 2, off := 16, len := 2, toHost := toHost, data := [1, 2] }

/-- A matrix operation on the array pins the line at 0x10100. -/
def stHostPinned : State := modMat stHost 0 fun q => { q with ops := [{ opAt true 0 0 with pins := [0x10100 / 64] }] }

/-- States and operands that meet the hypotheses of `HostTransport`. -/
theorem witness_HostTransport :
    (pinned stHost ((hostLeft stHost 4 .physical 0x10100 2 accWrite).filterMap (·.2)) = false ∧ stHost.torn = [] ∧
      (∀ i, i < 2 → pinned stHost [.phys (0x10100 + i)] = false)) ∧
    (stHostPinned.power = .on ∧ 4 ∉ stHostPinned.hostSeen ∧
      pinned stHostPinned ((hostLeft stHostPinned 4 .physical 0x10100 2 accWrite).filterMap (·.2)) = true) ∧
    pinned stHost ([0x10100, 0x10101].map Loc.phys) = false ∧
    (stHost.power = .on ∧ ([1, 2] : List Byte).length ≤ 8192 ∧ 3 ∈ stHost.hostSeen ∧ 4 ∉ stHost.hostSeen) ∧
    hostPlaces stHost (.virt 0) 0x20100 2 accWrite = [0x10100, 0x10101].map (some ∘ Loc.phys) ∧
    (¬ ((0x18 : Nat) = 0x20 ∧ ([1] : List Byte).length = 32) ∧ (List.replicate 32 (1 : Byte)).length = 32) ∧
    ((let s : State := { State.reset with power := .bootFailed }; s.power = .bootFailed ∧ 4 ∉ s.hostSeen) ∧ 0x10000 < 0x10000 + 1 ∧ 0xFF00 + 0x100 ≤ 0x10000) ∧
    (∀ d, let s : State := { stHost with moves := [mv d], bufs := [(2, { base := 0, len := 18 })] }
     s.moves.find? (fun m => m.seq == 8) = some (mv d) ∧ SMap.find s.bufs (mv d).slot = some { base := 0, len := 18 } ∧
      (mv d).off + (mv d).len ≤ 18 ∧ (mv d).data.length = (mv d).len ∧ (mv d).space = .physical ∧ s.torn = [] ∧
      pinned s ((hostLeft s 8 .physical (mv d).addr (mv d).len accWrite).filterMap (·.2)) = false) ∧
    (∀ b, SMap.find ({ stHost with moves := [mv true], bufs := [] } : State).bufs (mv true).slot = some b → b.len < (mv true).off + (mv true).len) ∧
    (let m : HostOut := { seq := 5, msg := .ack 1, sentAt := 0 }
     ({ stHost with hostOut := [m], now := 20000 } : State).hostOut.find? (fun m => m.seq == 5) = some m ∧ m.sentAt + 20000 ≤ 20000 ∧
      ({ stHost with hostOut := [m] } : State).now < m.sentAt + 20000) ∧
    (∃ n, ({ stHost with nonce := some n } : State).nonce = some n) ∧ stHost.nonce = none :=
  ⟨by decide +kernel, by decide +kernel, by decide +kernel, by decide +kernel, by decide +kernel, by decide +kernel, by decide +kernel, by intro d; cases d <;> decide +kernel, fun b h => by simp [SMap.find] at h,
   by decide +kernel, ⟨7, rfl⟩, by decide +kernel⟩

/-- Gang 0 of core 0, frozen by a stop. -/
def stStop : State := stOf { gang0 with stopped := true } team0
/-- A stop on its way to core 0. -/
def stop0 : Stop := { cores := [0], ctx := 0, fault := stopRec State.reset none 0 0 0xFF 0 0 0, base := [], told := true }
def stStops : State := { st0 with stops := [stop0] }
/-- The sampler of core 0, on, with period 1, by time or by instructions. -/
def stSamp (byTime : Bool) : State :=
  modCore (mgmtPut State.reset (offSamp 0) (if byTime then 0xC000000000000000 else 0x8000000000000001)) 0 fun C => { C with tag := some c0 }

/-- States and operands that meet the hypotheses of `StopsAndSamples`. -/
theorem witness_StopsAndSamples :
    (st0.gangs.map (·.1)).Nodup ∧ (0 ∈ stopGroup st0 0 ∧ 319 ∉ stopGroup st0 0) ∧
    (gangAt stStop 0 0 = some 0 ∧ (gangOf stStop 0).stopped = true ∧ (coreOf stStop 0).stepOf = none ∧ (gangOf stStop 0).frozen = none ∧
      stepWould stStop 0 = true) ∧
    (let s := stOf { gang0 with stopped := true, threads := [] } team0
     gangAt s 0 0 = some 0 ∧ (gangOf s 0).stopped = true ∧ (coreOf s 0).stepOf = none ∧ stepWould s 0 = false) ∧
    (gangAt st0 0 0 = some 0 ∧ (gangOf st0 0).stopped = false) ∧
    (let r : StepRun := { slot := 0, handler := false, base := 0, blocked := true }
     let s := modCore stStop 0 fun C => { C with stepOf := some r }
     (coreOf s 0).stepOf = some r ∧ gangAt s 0 r.slot = some 0 ∧ (gangOf s 0).stopped = true) ∧
    (stStops.stops = [stop0] ∧ stop0.cores = [0] ∧ stop0.told = true ∧ (SMap.find stStops.gangs 0).isSome = true ∧ (gangOf stStops 0).core = 0 ∧
      ctxOfTeam (teamKey 0) = stop0.ctx ∧ (teamOf stStops (teamKey 0)).st ≠ .saved ∧ (gangOf stStops 0).threads ≠ []) ∧
    (∀ t ∈ st0.stops, 0 ∉ t.cores) :=
  ⟨by decide +kernel, by decide +kernel, by decide +kernel, by decide +kernel, by decide +kernel, by decide +kernel,
   ⟨rfl, rfl, rfl, by decide +kernel, by decide +kernel, by decide +kernel, by decide +kernel, by decide +kernel⟩, by decide +kernel⟩

/-- States and operands that meet the hypotheses of `StopsAndSamples`. -/
theorem witness_StopsAndSamples_Samples :
    sampleDue st0 0 = false ∧
    (sampleDue (stSamp false) 0 = true ∧ sampByTime (stSamp false) 0 = false ∧ (coreOf (stSamp false) 0).tag = some c0) ∧
    (sampleDue (stSamp true) 0 = true ∧ sampByTime (stSamp true) 0 = true ∧ nextSlot (stSamp true) 0 = none) ∧
    (∃ x, (coreOf (followSample st0 0 { newSample st0 0 0x10000 3 with nth := some 0 }) 0).samples.find? (fun x => x.id == st0.nextId) = some x ∧
      sampleOver (followSample st0 0 { newSample st0 0 0x10000 3 with nth := some 0 }) 0 x = true) ∧
    (∃ x, (coreOf (followSample st0 0 (newSample st0 0 0x10000 3)) 0).samples.find? (fun x => x.id == st0.nextId) = some x ∧
      sampleOver (followSample st0 0 (newSample st0 0 0x10000 3)) 0 x = false) :=
  ⟨by decide +kernel, by decide +kernel, by decide +kernel, ⟨{ newSample st0 0 0x10000 3 with nth := some 0 }, by decide +kernel⟩,
   ⟨newSample st0 0 0x10000 3, by decide +kernel⟩⟩

/-- States and operands that meet the hypotheses of `HostTransport`. -/
theorem witness_HostTransport_ManagementSpace : (63 : Nat) < 64 ∧ (7 : Nat) < 8 ∧ (31 : Nat) < 32 ∧ (0x38 : Nat) ∈ [(0x38 : Nat), 0x10040] ∧ (1 : Word).getLsbD 63 = false ∧
    (0x20 : Nat) ≠ 0x18 ∧ (319 : Nat) < 320 := by decide

/-- An instruction with both lead words and an operand of the tail literal. -/
def iBoth : Instr := .vfma ⟨⟨some ⟨false, 3, false, .rtz, some (.v 9), 0xFF⟩, some ⟨true, false, false, false, false, false, 0⟩⟩, .f32, .v 1, .src (.v 2), 4, false⟩

/-- States and operands that meet the hypotheses of `EncodingsRoundTrip`. -/
theorem witness_EncodingsRoundTrip_DecodingInvertsEncoding :
    wf iBoth = true ∧ encode iBoth ≠ [] ∧ isFabric iBoth = false ∧ wfFabric (.creq 1 31 1023 255) = true := by decide +kernel

/-- States and operands that meet the hypotheses of `EncodingsRoundTrip`. -/
theorem witness_EncodingsRoundTrip_EncodingInvertsDecoding :
    (∀ w ∈ [0x0121BF8A, 0x00012345], w < 2 ^ 32) ∧
    ([0x0121BF8A, 0x00012345] : List Nat).length = (encode (.vadd ⟨.bare, .i32, .v 6, .lit 0x12345, 5, false⟩)).length ∧
    decode [0x0121BF8A, 0x00012345] = .ok (.vadd ⟨.bare, .i32, .v 6, .lit 0x12345, 5, false⟩) ∧
    decodeFabric 0x011005030E000000 = some (.creq 1 5 12 7) := by
  have h : (decode [0x0121BF8A, 0x00012345]).toOption = some (.vadd ⟨.bare, .i32, .v 6, .lit 0x12345, 5, false⟩) := by decide +kernel
  exact ⟨by decide, by decide +kernel, ok_of h, by decide +kernel⟩

/-- States and operands that meet the hypotheses of `ReservedEncodingsAreRefused`. -/
theorem witness_ReservedEncodingsAreRefused :
    (0x7F000000 < 2 ^ 31 ∧ fld 0x7F000000 24 7 ∉ laneOps ∧ fld 0x7F000000 24 7 ≠ 0x7D ∧ fld 0x7F000000 24 7 ≠ 0x7E) ∧
    (2 ^ 31 ≤ 0xFF000000 ∧ 0xFF000000 < 2 ^ 32 ∧ fld 0xFF000000 24 7 ∉ uniOps) ∧ fld 0xFF00000000000000 56 8 ∉ fabricOps ∧
    ((100 : Nat) ≤ 100 ∧ (100 : Nat) < 128) ∧
    (0x06E000 < 2 ^ 24 ∧ fld (6 * 65536 + 2 * 512) 16 3 = 6 ∧ fld (7 * 65536 + 99 * 512) 16 3 = 7 ∧ fld (7 * 65536 + 99 * 512) 9 7 < 100 ∧
      (7 * 65536 + 99 * 512) % 2 = 0 ∧ 7 * 65536 + 99 * 512 < 2 ^ 24) := by decide +kernel

/-- A uniform addition, and a word that no table assigns, at the PC of gang 0. -/
def stAt (w : Nat) : State := { State.reset.withFetchWord 32 w with cur := some { g := 0, run := 0xFFFFFFFF, pc := 0x10000, issued := false } }

/-- States and operands that meet the hypotheses of `AStepRunsTheDecodedInstruction`. -/
theorem witness_AStepRunsTheDecodedInstruction :
    (chooseRun (gangOf (stAt 0x810C1080) 0) = some (0x10000, 0xFFFFFFFF) ∧ (bpStop (stAt 0x810C1080) 0 0xFFFFFFFF 0x10000).isNone = true ∧
      ∃ ws, fetchInstr (stAt 0x810C1080) 0 0x10000 = .ok ws ∧ decode ws = .ok (.uadd ⟨3, 1, 2⟩) ∧
        (serveAhead (stAt 0x810C1080) { g := 0, run := 0xFFFFFFFF, pc := 0x10000, issued := false } ws).isNone = true) ∧
    ((gangOf (stAt 0x810C1080) 0).early = [] ∧ (gangOf (stAt 0x810C1080) 0).openRds = []) ∧
    (State.reset.cur = none ∧ (stAt 0x810C1080).cur = some { g := 0, run := 0xFFFFFFFF, pc := 0x10000, issued := false } ∧
      (packWith (stAt 0x810C1080) 0).isNone = true ∧
      (coWith (stAt 0x810C1080) (stAt 0x810C1080) { g := 0, run := 0xFFFFFFFF, pc := 0x10000, issued := false }).isNone = true) ∧
    (chooseRun (gangOf (stAt 0x7F000000) 0) = some (0x10000, 0xFFFFFFFF) ∧ (bpStop (stAt 0x7F000000) 0 0xFFFFFFFF 0x10000).isNone = true ∧
      ∃ ws e, fetchInstr (stAt 0x7F000000) 0 0x10000 = .ok ws ∧ decode ws = .error e) ∧
    (let s := modCore (stAt 0) 0 fun C => { C with tlb := [] }
     chooseRun (gangOf s 0) = some (0x10000, 0xFFFFFFFF) ∧ (bpStop s 0 0xFFFFFFFF 0x10000).isNone = true ∧ ∃ h, fetchInstr s 0 0x10000 = .error h) := by
  refine ⟨⟨by decide +kernel, by decide +kernel, (fetchInstr (stAt 0x810C1080) 0 0x10000).toOption.getD [], ok_of (by decide +kernel), ok_of ?_, by decide +kernel⟩,
    by decide +kernel, by decide +kernel,
    ⟨by decide +kernel, by decide +kernel, (fetchInstr (stAt 0x7F000000) 0 0x10000).toOption.getD [], (0x01, 13), ok_of (by decide +kernel), ?_⟩,
    by decide +kernel, by decide +kernel, is_error (by decide +kernel)⟩
  · decide +kernel
  · exact error_of (by decide +kernel)

/-- A running script whose next word is FNOP, or no word at all. -/
def stWord (w : Word) : State := modScript { State.reset with power := .on } 1 fun S => { S with st := .running, store := [w], pc := 0 }

/-- States and operands that meet the hypotheses of `AStepRunsTheDecodedInstruction`. -/
theorem witness_AStepRunsTheDecodedInstruction_AStepRunsTheDecodedWord :
    (let s := stWord 0x3000000000000000
     (scriptOf s 1).st = .running ∧ (scriptOf s 1).store[(scriptOf s 1).pc]? = some 0x3000000000000000 ∧
      decodeFabric (0x3000000000000000 : Word).toNat = some .fnop) ∧
    (let s := stWord 0xFF00000000000000
     (scriptOf s 1).st = .running ∧ (((scriptOf s 1).store[(scriptOf s 1).pc]?).bind (fun w => decodeFabric w.toNat)).isNone = true) ∧
    (let s : State := { stWord 0 with inputs := [.script 1] }
     s.power = .on ∧ dueEvent s = none ∧ s.inputs = .script 1 :: []) ∧
    (let s := stWord 0
     s.power = .on ∧ dueEvent s = none ∧ s.inputs = [] ∧ (choices s)[s.tick % (choices s).length]? = some (.script 1)) ∧
    (let s : State := { stBound with cur := none }; s.power = .on ∧ (dueEvent s).isSome = true) ∧ State.reset.power = .booting true := by
  refine ⟨by decide +kernel, by decide +kernel, by decide +kernel, by decide +kernel, by decide +kernel, rfl⟩

theorem next_of {r : Res} (h : (match r with | .next _ => true | _ => false) = true) : ∃ t, r = .next t := by
  cases r with
  | next t => exact ⟨t, rfl⟩
  | _ => cases h

/-- States and operands that meet the hypotheses of `AStepRunsTheDecodedInstruction`. -/
theorem witness_AStepRunsTheDecodedInstruction_turn : ∃ t, issueTurn (stAt 0x7F000000) 0 = .next t := next_of (by decide +kernel)

/-- States and operands that meet the hypotheses of `EveryStepKeepsTheBalance`. -/
theorem witness_EveryStepKeepsTheBalance : ∃ s t, Balanced s ∧ step s = .next t := by
  refine ⟨State.reset, ?_⟩
  have h : Balanced State.reset := ⟨rfl, rfl, fun e he => by simp [State.reset] at he⟩
  have p : State.reset.power = .booting true := rfl
  by_cases b : Config.bootGood State.reset.incarnation.toNat = true
  · exact ⟨_, h, by simp [step, p, execBoot, b, onNext]; rfl⟩
  · exact ⟨_, h, by simp [step, p, execBoot, b, onNext]; rfl⟩

/-! ### Decoding: words written from the encodings of the specification's tables (R33 to R39, R47, R48) -/

/-- Every word sequence decodes to its instruction. -/
def readsAs (rows : List (List Nat × Instr)) : Bool := rows.all fun r => (decode r.1).toOption == some r.2

/-- Lane words: two sources, one source, an immediate. -/
theorem test_decode_lane : readsAs [
  ([0x0151A177], .vadd ⟨.bare, .i16, .s 6, .src (.s 2), 59, true⟩),
  ([0x02787174], .vsub ⟨.bare, .i8, .x 1, .src (.x 2), 58, false⟩),
  ([0x05AA02F3], .vmul ⟨.bare, .n32, .v 40, .src (.v 5), 57, true⟩),
  ([0x06C0E170], .vmulh ⟨.bare, .n16, .v 3, .src (.s 2), 56, false⟩),
  ([0x07F1B16F], .vmulw ⟨.bare, .n8, .s 6, .src (.x 2), 55, true⟩),
  ([0x093842EC], .vdiv ⟨.bare, .i32, .x 1, .src (.v 5), 54, false⟩),
  ([0x0A4A216B], .vrem ⟨.bare, .i16, .v 40, .src (.s 2), 53, true⟩),
  ([0x0B20F168], .vmin ⟨.bare, .i32, .v 3, .src (.x 2), 52, false⟩),
  ([0x0C5182E7], .vmax ⟨.bare, .i16, .s 6, .src (.v 5), 51, true⟩),
  ([0x0D786164], .vabsd ⟨.bare, .i8, .x 1, .src (.s 2), 50, false⟩),
  ([0x10AA3163], .vand ⟨.bare, .n32, .v 40, .src (.x 2), 49, true⟩),
  ([0x11C0C2E0], .vor ⟨.bare, .n16, .v 3, .src (.v 5), 48, false⟩),
  ([0x12F1A15F], .vxor ⟨.bare, .n8, .s 6, .src (.s 2), 47, true⟩),
  ([0x1338715C], .vandn ⟨.bare, .i32, .x 1, .src (.x 2), 46, false⟩),
  ([0x154A02DB], .vshl ⟨.bare, .i16, .v 40, .src (.v 5), 45, true⟩),
  ([0x1620E158], .vshr ⟨.bare, .i32, .v 3, .src (.s 2), 44, false⟩),
  ([0x1751B157], .vsar ⟨.bare, .i16, .s 6, .src (.x 2), 43, true⟩),
  ([0x187842D4], .vrot ⟨.bare, .i8, .x 1, .src (.v 5), 42, false⟩),
  ([0x1FAA2153], .vbytp ⟨.bare, .n32, .v 40, .src (.s 2), 41, true⟩),
  ([0x4AC0F150], .vpack ⟨.bare, .n16, .v 3, .src (.x 2), 40, false⟩),
  ([0x4BF182CF], .vunpk ⟨.bare, .n8, .s 6, .src (.v 5), 39, true⟩),
  ([0x5038614C], .vshfl ⟨.bare, .i32, .x 1, .src (.s 2), 38, false⟩),
  ([0x524A314B], .vbcast ⟨.bare, .i16, .v 40, .src (.x 2), 37, true⟩),
  ([0x5720C2C8], .vmatch ⟨.bare, .i32, .v 3, .src (.v 5), 36, false⟩),
  ([0x03318047], .vneg ⟨.bare, .i32, .s 6, 35, true⟩),
  ([0x04584044], .vabs ⟨.bare, .i16, .x 1, 34, false⟩),
  ([0x146A0043], .vnot ⟨.bare, .i8, .v 40, 33, true⟩),
  ([0x1900C040], .vpopc ⟨.bare, .i64, .v 3, 32, false⟩),
  ([0x1A31803F], .vclz ⟨.bare, .i32, .s 6, 31, true⟩),
  ([0x1B58403C], .vctz ⟨.bare, .i16, .x 1, 30, false⟩),
  ([0x1C6A003B], .vbrev ⟨.bare, .i8, .v 40, 29, true⟩),
  ([0x4600C038], .vmov ⟨.bare, .i64, .v 3, 28, false⟩),
  ([0x6051B0C3], .vaddLi ⟨.bare, .i16, .s 6, 0x61, 33, true⟩),
  ([0x61787144], .vmulLi ⟨.bare, .i8, .x 1, 0x62, 34, false⟩),
  ([0x69AA31C7], .vminLi ⟨.bare, .n32, .v 40, 0x63, 35, true⟩),
  ([0x6AC0F248], .vmaxLi ⟨.bare, .n16, .v 3, 0x64, 36, false⟩),
  ([0x62F1B2CB], .vandLi ⟨.bare, .n8, .s 6, 0x65, 37, true⟩),
  ([0x6338734C], .vorLi ⟨.bare, .i32, .x 1, 0x66, 38, false⟩),
  ([0x644A33CF], .vxorLi ⟨.bare, .i16, .v 40, 0x67, 39, true⟩),
  ([0x6520F450], .vshlLi ⟨.bare, .i32, .v 3, 0x68, 40, false⟩),
  ([0x6651B4D3], .vshrLi ⟨.bare, .i16, .s 6, 0x69, 41, true⟩),
  ([0x67787554], .vsarLi ⟨.bare, .i8, .x 1, 0x6a, 42, false⟩),
  ([0x68AA35D7], .vrotLi ⟨.bare, .n32, .v 40, 0x6b, 43, true⟩)] = true := by decide +kernel

/-- Lane words: floats, level indices, compares, conversions, across lanes, a fourth operand. -/
theorem test_decode_lane2 : readsAs [
  ([0x20006658], .vfadd ⟨.bare, .f64, .v 1, .src (.s 12), 44, false⟩),
  ([0x212066DA], .vfsub ⟨.bare, .f32, .v 1, .src (.s 13), 45, false⟩),
  ([0x2240675C], .vfmul ⟨.bare, .h16, .v 1, .src (.s 14), 46, false⟩),
  ([0x246067DE], .vfdiv ⟨.bare, .e16, .v 1, .src (.s 15), 47, false⟩),
  ([0x28006860], .vfmin ⟨.bare, .f64, .v 1, .src (.s 16), 48, false⟩),
  ([0x292068E2], .vfmax ⟨.bare, .f32, .v 1, .src (.s 17), 49, false⟩),
  ([0x2558C065], .vfsqrt ⟨.bare, .h16, .x 3, 50, true⟩),
  ([0x2678C067], .vfrcp ⟨.bare, .e16, .x 3, 51, true⟩),
  ([0x2718C069], .vfrsq ⟨.bare, .f64, .x 3, 52, true⟩),
  ([0x2B38C06B], .vfcls ⟨.bare, .f32, .x 3, 53, true⟩),
  ([0x2C2F806C], .vfex2 ⟨.bare, .f32, .v 62, 54, false⟩),
  ([0x2D4F806E], .vflg2 ⟨.bare, .h16, .v 62, 55, false⟩),
  ([0x2E6F8070], .vfsin ⟨.bare, .e16, .v 62, 56, false⟩),
  ([0x2F2F8072], .vfcos ⟨.bare, .f32, .v 62, 57, false⟩),
  ([0x304F8074], .vftnh ⟨.bare, .h16, .v 62, 58, false⟩),
  ([0x38804177], .vsadd ⟨.bare, .s32, .v 1, .src (.v 2), 59, true⟩),
  ([0x39804178], .vssub ⟨.bare, .s32, .v 1, .src (.v 2), 60, false⟩),
  ([0x3A80417B], .vsmul ⟨.bare, .s32, .v 1, .src (.v 2), 61, true⟩),
  ([0x3B80417C], .vsdiv ⟨.bare, .s32, .v 1, .src (.v 2), 62, false⟩),
  ([0x3D81407E], .vsexp ⟨.bare, .s32, .v 5, 63, false⟩),
  ([0x3E814000], .vsln ⟨.bare, .s32, .v 5, 0, false⟩),
  ([0x40814002], .vslvl ⟨.bare, .s32, .v 5, 1, false⟩),
  ([0x2A4102E2], .vfcmp ⟨.bare, .h16, .v 4, .src (.v 5), .uo, 1, false⟩),
  ([0x3C81205F], .vscmp ⟨.bare, .s32, .v 4, .src (.s 0), .ge, 7, true⟩),
  ([0x44204122], .vcmp ⟨.bare, .i32, .v 1, .src (.v 2), .lt, 1, false⟩),
  ([0x6BE07FE5], .vcmpLi ⟨.bare, .n8, .v 1, 0x7F, .tst, 2, true⟩),
  ([0x31004084], .vfcvt ⟨.bare, .f64, .v 1, .ff .f32, 2, false⟩),
  ([0x31405304], .vfcvt ⟨.bare, .h16, .v 1, .fromInt .n16, 2, false⟩),
  ([0x31206185], .vfcvt ⟨.bare, .f32, .v 1, .toInt .i8, 2, true⟩),
  ([0x32204084], .vfrnd ⟨.bare, .f32, .v 1, true, 2, false⟩),
  ([0x3F204004], .vscvt ⟨.bare, (), .v 1, .fromF .f32, 2, false⟩),
  ([0x3F004804], .vscvt ⟨.bare, (), .v 1, .toF .f64, 2, false⟩),
  ([0x3F804104], .vscvt ⟨.bare, (), .v 1, .fromI .i16, 2, false⟩),
  ([0x3F804A85], .vscvt ⟨.bare, (), .v 1, .toI .n32, 2, true⟩),
  ([0x47402A93], .vmovi ⟨.bare, .i16, 0x55, 9, true⟩),
  ([0x48006106], .vplog ⟨.bare, 1, 8, 2, 3⟩),
  ([0x49004385], .vcvt ⟨.bare, .i64, .v 1, .n8, 2, true⟩),
  ([0x51204804], .vshfli ⟨.bare, .i32, .v 1, ⟨.xor, 16⟩, 2, false⟩),
  ([0x51E07F85], .vshfli ⟨.bare, .n8, .v 1, ⟨.rot, 31⟩, 2, true⟩),
  ([0x53204284], .vrdc ⟨.bare, .i32, .v 1, .xor, 2, false⟩),
  ([0x5421400C], .vrdcFloat ⟨.bare, .f32, .v 5, .add, 6, false⟩),
  ([0x55804504], .vscan ⟨.bare, .n64, .v 1, ⟨.max, true⟩, 2, false⟩),
  ([0x5681408F], .vscanFloat ⟨.bare, .s32, .v 5, ⟨.min, false⟩, 7, true⟩),
  ([0x7E3013FE, 0x08404108], .vmad ⟨⟨some ⟨false, 3, false, .rne, some (.v 9), 0xFF⟩, none⟩, .i16, .v 1, .src (.v 2), 4, false⟩),
  ([0x7E3083FE, 0x1DA04108], .vbfx ⟨⟨some ⟨false, 3, false, .rne, some (.s 1), 0xFF⟩, none⟩, .n32, .v 1, .src (.v 2), 4, false⟩),
  ([0x7E30C3FE, 0x1E804108], .vbfi ⟨⟨some ⟨false, 3, false, .rne, some (.x 1), 0xFF⟩, none⟩, .n64, .v 1, .src (.v 2), 4, false⟩),
  ([0x7E3013FE, 0x23204108], .vfma ⟨⟨some ⟨false, 3, false, .rne, some (.v 9), 0xFF⟩, none⟩, .f32, .v 1, .src (.v 2), 4, false⟩),
  ([0x7E90FE1E, 0x4520C20A], .vsel ⟨⟨some ⟨true, 1, false, .rne, none, 0x0F⟩, none⟩, .i32, .v 3, .src (.v 4), 5, false⟩)] = true := by decide +kernel

/-- Lane words: memory and accumulators. -/
theorem test_decode_mem : readsAs [
  ([0x70DFFF91], .vld ⟨.bare, .n16, 63, 0xFF, 8, true⟩),
  ([0x71DFFF93], .vst ⟨.bare, .n16, 63, 0xFF, 9, true⟩),
  ([0x72DFFF95], .vlds ⟨.bare, .n16, 63, 0xFF, 10, true⟩),
  ([0x73DFFF97], .vsts ⟨.bare, .n16, 63, 0xFF, 11, true⟩),
  ([0x77040080], .vprf ⟨.bare, .i64, 8, 1, 0, false⟩),
  ([0x74230D86], .vatm ⟨.bare, .i32, 6, .add, ⟨true, true⟩, .die, 3, false⟩),
  ([0x75835487], .vatms ⟨.bare, .n64, 6, .max, ⟨true, false⟩, .team, 3, true⟩),
  ([0x76036B07], .vred ⟨.bare, .i64, 6, .exch, ⟨false, true⟩, .system, 3, true⟩),
  ([0x78000380], .qzero ⟨.bare, 0, 7⟩),
  ([0x7921C02C], .qwide ⟨.bare, .v 7, 2, 3, false⟩),
  ([0x7A40C08A], .qnarr ⟨.bare, .h16, 3, .f32, 1, 5⟩)] = true := by decide +kernel

/-- Uniform words: arithmetic, memory, state. -/
theorem test_decode_uni : readsAs [
  ([0x810BD1C0], .uadd ⟨2, 61, 7⟩),
  ([0x820FD1C0], .usub ⟨3, 61, 7⟩),
  ([0x8313D1C0], .umul ⟨4, 61, 7⟩),
  ([0x8717D1C0], .uand ⟨5, 61, 7⟩),
  ([0x881BD1C0], .uor ⟨6, 61, 7⟩),
  ([0x891FD1C0], .uxor ⟨7, 61, 7⟩),
  ([0x8A23D1C0], .uandn ⟨8, 61, 7⟩),
  ([0x8B27D1C0], .ushl ⟨9, 61, 7⟩),
  ([0x8C2BD1C0], .ushr ⟨10, 61, 7⟩),
  ([0x8D2FD1C0], .usar ⟨11, 61, 7⟩),
  ([0x9033D1C0], .ucmp ⟨12, 61, 7⟩),
  ([0x8437D1C1], .umulh ⟨13, 61, 7, true⟩),
  ([0x853BD1C0], .udiv ⟨14, 61, 7, false⟩),
  ([0x863FD1C1], .urem ⟨15, 61, 7, true⟩),
  ([0x8E43D1C0], .umin ⟨16, 61, 7, false⟩),
  ([0x8F47D1C1], .umax ⟨17, 61, 7, true⟩),
  ([0x984BD852], .uaddUi ⟨18, 61, 0x852⟩),
  ([0x994FD853], .umulUi ⟨19, 61, 0x853⟩),
  ([0x9A53D854], .uandUi ⟨20, 61, 0x854⟩),
  ([0x9B57D855], .uorUi ⟨21, 61, 0x855⟩),
  ([0x9C5BD856], .uxorUi ⟨22, 61, 0x856⟩),
  ([0x9D5FD857], .ushlUi ⟨23, 61, 0x857⟩),
  ([0x9E63D858], .ushrUi ⟨24, 61, 0x858⟩),
  ([0x9F67D859], .usarUi ⟨25, 61, 0x859⟩),
  ([0xA06BD85A], .uminUi ⟨26, 61, 0x85a⟩),
  ([0xA16FD85B], .umaxUi ⟨27, 61, 0x85b⟩),
  ([0xA273D85C], .ucmpUi ⟨28, 61, 0x85c⟩),
  ([0x910420FF], .usel ⟨1, 2, 3⟩ 63),
  ([0x9207E000], .umov ⟨1, 62⟩),
  ([0x9307E000], .upopc ⟨1, 62⟩),
  ([0x9407E000], .uclz ⟨1, 62⟩),
  ([0xA3140FFF], .umovi 5 0xFFF),
  ([0xA4140000, 0x40000000, 0x3F800000], .ulit 5 0x40000000 0x3F800000),
  ([0xA8042DFF], .uld ⟨.n16, 1, 2, 0x1FF⟩),
  ([0xA90426FF], .ust ⟨.i8, 1, 2, 0x0FF⟩),
  ([0xAB042980], .ulds ⟨.n64, 1, 2, true, 0x80⟩),
  ([0xAC04227F], .usts ⟨.i32, 1, 2, false, 0x7F⟩),
  ([0xAA0429E0], .uatm ⟨1, 2, .device, ⟨true, true⟩, true, .min, false, false⟩),
  ([0xAAFC2084], .uatm ⟨63, 2, .gang, ⟨true, false⟩, false, .add, true, false⟩),
  ([0xB0200001], .uvote 8 1 .ballot),
  ([0xB024001F], .uvote 9 7 .count),
  ([0xB114C180], .ulaneGet 5 12 6),
  ([0xB114C181], .ulanePut 5 12 6),
  ([0xC60C0002], .elect 3 2),
  ([0xF0080000], .uget 2 0),
  ([0xF11C0140], .uset 7 0x140)] = true := by decide +kernel

/-- Uniform words: control and synchronisation. -/
theorem test_decode_ctl : readsAs [
  ([0xB87FFFFF], .ubr 3 0x1FFFFF),
  ([0xB9303800], .ubrz 12 3 0x800),
  ([0xBAFC37FF], .ubrnz 63 3 0x7FF),
  ([0xBB200002], .brv 1 2),
  ([0xBD100000], .ujmp 0x100000),
  ([0xBEE00003], .call 7 3),
  ([0xBF1C3000], .calli 7 3),
  ([0xC0007000], .ret 7),
  ([0xC1009000], .dispatch 9),
  ([0xC2000000], .dret),
  ([0xC4000000], .exit),
  ([0xC5000000], .yield),
  ([0xC7000000], .nop),
  ([0xC8002001], .spawn 2 true),
  ([0xD0001081], .binit 1 2 1),
  ([0xD1244020], .arrive 9 4 .one true),
  ([0xD1244008], .arrive 9 4 .run false),
  ([0xD12440D0], .arrive 9 4 (.reg 3) false),
  ([0xD20420D0], .bexpect ⟨1, 2, 3⟩ true false),
  ([0xD20420F0], .bexpect ⟨1, 2, 3⟩ true true),
  ([0xD3004260], .waitph 4 9 .bar true),
  ([0xD3004242], .waitph 4 9 .gate false),
  ([0xD4000003], .fence .die),
  ([0xD50420C0], .tladv ⟨1, 2, 3⟩),
  ([0xC3004000, 0x00000014], .uloop (.reg 4) 0x14),
  ([0xC3000FFF, 0x00000008], .uloop (.const 0x7FF) 8)] = true := by decide +kernel

/-- Uniform words: engines, caches, traps. -/
theorem test_decode_sys : readsAs [
  ([0xE0508312], .tcopyLd ⟨20, 8, 12, 1, true⟩),
  ([0xE0508334], .tcopySt ⟨20, 8, 12, 3, false⟩),
  ([0xE1503100], .tkick ⟨20, 3, 4⟩ 0),
  ([0xE2548322], .txfer ⟨21, 8, 12, 2, true⟩),
  ([0xE2548024], .txferAbort 21 8 2),
  ([0xE5146010], .tcancel 5 6 1),
  ([0xE6280030], .tprobe 10 3),
  ([0xE3284180, 0x00000002], .tmma ⟨10, 4, 6, true, false⟩),
  ([0xE4284180, 0x00000001], .tmmas ⟨10, 4, 6, false, true⟩),
  ([0xF2004140], .cacheL1drop 4 5),
  ([0xF2004141], .cacheL2fetch 4 5),
  ([0xF2004142], .cacheFarhint 4 5),
  ([0xF2004143], .cacheZero 4 5),
  ([0xF3105000], .pageq ⟨4, 5⟩),
  ([0xF400002A], .trap 0x2A),
  ([0xF5000000], .eret),
  ([0xF6000007], .bkpt 7)] = true := by decide +kernel

/-- BRV with a divergent target: a literal follows (R249). -/
theorem test_decode_brv_divergent : (decode [0xBC200002, 0x20]).toOption = some (.brvDivergent 1 2 0x20) := by decide +kernel

/-- Fabric words: the script of the chapter on scripts (Table 5 there), and words by R291 to R303. -/
theorem test_decode_fabric : ([
  (0x1040400000000003, .fmov 4 (.imm 3)), (0x011005030E000000, .creq 1 5 12 7), (0x022005C064000004, .cwait 2 5 .live 100 4),
  (0x0330050040084000, .cuse 3 5 1 0x21), (0x2000000000000001, .tlsig (.imm 1)), (0x3100000000000000, .fhalt false 0),
  (0x0430050000000000, .crel 3 5), (0x1244800000000001, .fsub 4 4 (.imm 1)), (0x1904000000FFFFF9, .fbrc false 4 0 0xFFFFF9),
  (0x3102000000000001, .fhalt true 2), (0x3000000000000000, .fnop), (0x0510050000000000, .cstat 1 5),
  (0x1012000000000000, .fmov 1 (.reg 2)), (0x1010800011223344, .fmov 1 (.hi 0x11223344)), (0x1112000000000003, .fadd 1 2 (.reg 3)),
  (0x1312FFFFFFFFFFFF, .fcmp 1 2 (.imm 0x7FFFFFFFFFFF)), (0x1800000000FFFFFF, .fbr 0xFFFFFF), (0x1903820000000001, .fbrc true 3 1 1),
  (0x2002800000000000, .tlsig (.reg 2)), (0x2101000000000009, .tlwait 1 (.imm 9)), (0x2121800000000000, .tlwait 1 (.reg 2)),
  (0x2830000000000000, .ftime 3), (0x290300000000002A, .fint 3 0x2A), (0x0812000C20001234, .emsg 1 2 (.script 12 1) 0x1234),
  (0x0812800000001234, .emsg 1 2 .cm 0x1234), (0x09125A5A00000003, .erecv 1 2 0x5A5A 3)] : List (Nat × Instr)).all
    (fun r => decodeFabric r.1 == some r.2) = true := by decide +kernel

/-! ### Well-formedness: an ill-formed term for each check, and the sub-code and field that refuse it (R41, R45) -/

/-- A prefix with all its fields, and a modifier word. -/
def pw (zero : Bool) (rnd : Rnd) (c : Option Src) : Lead := ⟨some ⟨false, 1, zero, rnd, c, 0xFF⟩, none⟩
def mw (sat clamp negA negB : Bool) (scale : BitVec 6) : Lead := ⟨none, some ⟨sat, clamp, negA, negB, false, false, scale⟩⟩

/-- Each instruction is refused by the one check that is named. -/
def refusedBy (rows : List (Instr × Err)) : Bool := rows.all fun r => errsOf r.1 == [r.2] && !wf r.1

theorem test_wf_formats : refusedBy [
  (.vneg ⟨.bare, .n32, .v 1, 2, false⟩, (0x02, 12)), (.vabs ⟨.bare, .n8, .v 1, 2, false⟩, (0x02, 12)),
  (.vmulw ⟨.bare, .i64, .v 1, .src (.v 2), 3, false⟩, (0x02, 12)), (.vfadd ⟨.bare, .s32, .v 1, .src (.v 2), 3, false⟩, (0x02, 12)),
  (.vfsub ⟨.bare, .s32, .v 1, .src (.v 2), 3, false⟩, (0x02, 12)), (.vfmul ⟨.bare, .s32, .v 1, .src (.v 2), 3, false⟩, (0x02, 12)),
  (.vfma ⟨pw false .rne (some (.v 1)), .s32, .v 1, .src (.v 2), 3, false⟩, (0x02, 12)),
  (.vfdiv ⟨.bare, .s32, .v 1, .src (.v 2), 3, false⟩, (0x02, 12)), (.vfsqrt ⟨.bare, .s32, .v 1, 3, false⟩, (0x02, 12)),
  (.vfrcp ⟨.bare, .s32, .v 1, 3, false⟩, (0x02, 12)), (.vfrsq ⟨.bare, .s32, .v 1, 3, false⟩, (0x02, 12)),
  (.vfmin ⟨.bare, .s32, .v 1, .src (.v 2), 3, false⟩, (0x02, 12)), (.vfmax ⟨.bare, .s32, .v 1, .src (.v 2), 3, false⟩, (0x02, 12)),
  (.vfcmp ⟨.bare, .s32, .v 1, .src (.v 2), .eq, 3, false⟩, (0x02, 12)), (.vfcls ⟨.bare, .s32, .v 1, 3, false⟩, (0x02, 12)),
  (.vfex2 ⟨.bare, .f64, .v 1, 3, false⟩, (0x02, 12)), (.vflg2 ⟨.bare, .f64, .v 1, 3, false⟩, (0x02, 12)),
  (.vfsin ⟨.bare, .f64, .v 1, 3, false⟩, (0x02, 12)), (.vfcos ⟨.bare, .s32, .v 1, 3, false⟩, (0x02, 12)),
  (.vftnh ⟨.bare, .f64, .v 1, 3, false⟩, (0x02, 12)), (.vfcvt ⟨.bare, .s32, .v 1, .ff .f32, 3, false⟩, (0x02, 12)),
  (.vfcvt ⟨.bare, .f32, .v 1, .ff .s32, 3, false⟩, (0x03, 2)), (.vfrnd ⟨.bare, .s32, .v 1, false, 3, false⟩, (0x02, 12)),
  (.vsadd ⟨.bare, .f32, .v 1, .src (.v 2), 3, false⟩, (0x02, 12)), (.vssub ⟨.bare, .f32, .v 1, .src (.v 2), 3, false⟩, (0x02, 12)),
  (.vsmul ⟨.bare, .f32, .v 1, .src (.v 2), 3, false⟩, (0x02, 12)), (.vsdiv ⟨.bare, .f64, .v 1, .src (.v 2), 3, false⟩, (0x02, 12)),
  (.vscmp ⟨.bare, .f32, .v 1, .src (.v 2), .eq, 3, false⟩, (0x02, 12)), (.vsexp ⟨.bare, .f32, .v 1, 3, false⟩, (0x02, 12)),
  (.vsln ⟨.bare, .f32, .v 1, 3, false⟩, (0x02, 12)), (.vscvt ⟨.bare, (), .v 1, .fromF .h16, 3, false⟩, (0x02, 12)),
  (.vslvl ⟨.bare, .h16, .v 1, 3, false⟩, (0x02, 12)), (.qnarr ⟨.bare, .f64, 3, .f32, 0, 5⟩, (0x02, 12)),
  (.qnarr ⟨.bare, .h16, 3, .raw, 0, 5⟩, (0x02, 12)), (.qnarr ⟨.bare, .e16, 3, .i32, 2, 5⟩, (0x03, 2))] = true := by decide +kernel

theorem test_wf_fields : refusedBy [
  (.vplog ⟨.bare, 1, 15, 7, 3⟩, (0x03, 2)), (.vatm ⟨.bare, .i16, 6, .add, ⟨false, false⟩, .gang, 3, false⟩, (0x02, 12)),
  (.vatm ⟨.bare, .i32, 6, .and, ⟨false, false⟩, .gang, 3, true⟩, (0x02, 6)), (.vatms ⟨.bare, .n8, 6, .add, ⟨false, false⟩, .gang, 3, true⟩, (0x02, 12)),
  (.vred ⟨.bare, .n16, 6, .add, ⟨false, false⟩, .gang, 3, false⟩, (0x02, 12)), (.vred ⟨.bare, .n32, 6, .add, ⟨true, false⟩, .gang, 3, false⟩, (0x02, 6)),
  (.vprf ⟨.bare, .i64, 8, 1, 1, false⟩, (0x04, 6)), (.qzero ⟨.bare, 4, 3⟩, (0x03, 2)),
  (.uatm ⟨63, 2, .gang, ⟨false, false⟩, false, .cas, false, false⟩, (0x03, 7)), (.uatm ⟨1, 2, .gang, ⟨false, false⟩, true, .add, false, false⟩, (0x09, 9)),
  (.uatm ⟨1, 2, .gang, ⟨false, false⟩, false, .add, true, true⟩, (0x09, 10)), (.brvDivergent 1 2 0x22, (0x04, 10)),
  (.uloop (.reg 1) 0x22, (0x04, 10)), (.tcopyLd ⟨1, 2, 61, 0, false⟩, (0x03, 9)), (.tcopySt ⟨1, 2, 61, 0, false⟩, (0x03, 9)),
  (.txfer ⟨1, 2, 61, 0, false⟩, (0x03, 9)), (.tmma ⟨1, 63, 2, false, false⟩, (0x03, 8)), (.tmma ⟨1, 2, 63, false, false⟩, (0x03, 9)),
  (.tmmas ⟨1, 63, 2, false, false⟩, (0x03, 8)), (.tmmas ⟨1, 2, 63, false, false⟩, (0x03, 9)), (.tprobe 63 0, (0x03, 7)),
  (.uget 1 0x007, (0x0A, 10)), (.uset 1 0x000, (0x0A, 10))] = true := by decide +kernel

theorem test_wf_lead_words : refusedBy [
  (.vst ⟨pw true .rne none, .n64, 1, 0, 2, false⟩, (0x04, 14)), (.vprf ⟨pw false .rne none, .i64, 8, 1, 0, false⟩, (0x05, 14)),
  (.vand ⟨pw false .rtz none, .i32, .v 1, .src (.v 2), 3, false⟩, (0x06, 15)), (.vadd ⟨pw false .rne (some (.v 1)), .i32, .v 1, .src (.v 2), 3, false⟩, (0x07, 4)),
  (.vmad ⟨.bare, .i32, .v 1, .src (.v 2), 3, false⟩, (0x07, 4)), (.vsel ⟨mw false false false false 0, .i32, .v 1, .src (.v 2), 3, false⟩, (0x05, 14)),
  (.vand ⟨mw true false false false 0, .i32, .v 1, .src (.v 2), 3, false⟩, (0x08, 14)),
  (.vadd ⟨mw false true false false 0, .i32, .v 1, .src (.v 2), 3, false⟩, (0x08, 14)),
  (.vshl ⟨mw false false true false 0, .i32, .v 1, .src (.v 2), 3, false⟩, (0x08, 14)),
  (.vneg ⟨mw false false false true 0, .i32, .v 1, 3, false⟩, (0x08, 14)),
  (.vdiv ⟨mw false false false false 1, .i32, .v 1, .src (.v 2), 3, false⟩, (0x08, 14))] = true ∧
  wfFabric (.fhalt false 1) = false ∧ wfFabric .nop = false := by decide +kernel

/-! ### Single issues. Expected values are the worked examples of the chapters, or follow by hand from the rule named. -/

/-- What a gang holds after one instruction of lanes 0 and 1 at 0x10000. -/
def runs {α : Type} (G : Gang) (i : Instr) (f : Gang → α) : Option α := after (exec i (stOf G team0)) fun t => f (gangOf t 0)
/-- The same on lanes 0 to 3. -/
def runs4 {α : Type} (G : Gang) (i : Instr) (f : Gang → α) : Option α :=
  after (exec i { stOf { G with threads := [(0, thrAt 0x10000), (1, thrAt 0x10000), (2, thrAt 0x10000), (3, thrAt 0x10000)] } team0 with
    cur := some { c0 with run := 15 } }) fun t => f (gangOf t 0)
/-- Windows of 2^20 instructions in every class, without an action (R81). -/
def wide (G : Gang) : Gang := (List.range 9).foldl (fun G e => srPut G (0x180 + e) 0x14) G
/-- v1 and v2 of lanes 0 and 1. -/
def vv (a b : Word) : Gang := vPut (vPut (vPut (vPut gang0 1 0 a) 1 1 a) 2 0 b) 2 1 b
/-- s1 and s2. -/
def ss (a b : Word) : Gang := sPut (sPut gang0 1 a) 2 b
def lr2 (f : IFmt) : Lr2 IFmt := ⟨.bare, f, .v 1, .src (.v 2), 3, false⟩
def fr2 (f : FFmt) : Lr2 FFmt := ⟨.bare, f, .v 1, .src (.v 2), 3, false⟩
/-- v3 of lane 0. -/
def v3 (G : Gang) : Word := vGet G 3 0
def s3 (G : Gang) : Word := sGet G 3
def satM : Lead := mw true false false false 0

/-- The worked example of integer division (R92): 100/7, −128/−1, 7/0, −7/2; two IDZ events in each of two lanes. -/
theorem test_vdiv : runs (wide (vv 0x00000000F9078064 0x010101010200FF07)) (.vdiv (lr2 .i8)) (fun G => (v3 G, srGet G 0x197)) =
    some (0xFDFF800E, 4) := by decide +kernel

theorem test_vdiv_sat : runs (wide (vv 0x00000000F9078064 0x010101010200FF07)) (.vdiv ⟨satM, .i8, .v 1, .src (.v 2), 3, false⟩)
    (fun G => (v3 G, srGet G 0x197, srGet G 0x195)) = some (0xFDFF7F0E, 4, 2) := by decide +kernel

theorem test_vrem : runs (wide (vv 0x00000000F9078064 0x010101010200FF07)) (.vrem (lr2 .i8)) (fun G => (v3 G, srGet G 0x197)) =
    some (0xFF070002, 4) := by decide +kernel

/-- 0x0101 × 0x0101 × 2^−8 rounds to 258 (R65, worked example). -/
theorem test_vmul_scale : runs (vv 0x0101 0x0101) (.vmul ⟨mw false false false false 0x38, .i16, .v 1, .src (.v 2), 3, false⟩) v3 = some 0x0102 := by
  decide +kernel

/-- VABSD.i8 of −128 and 127 wraps to −1, and gives 127 under SAT (R90). -/
theorem test_vabsd : runs (vv 0x80 0x7F) (.vabsd (lr2 .i8)) v3 = some 0xFF ∧
    runs (vv 0x80 0x7F) (.vabsd ⟨satM, .i8, .v 1, .src (.v 2), 3, false⟩) v3 = some 0x7F := by decide +kernel

/-- A negation wraps before the operation (R36, R90). -/
theorem test_vadd_neg : runs (vv 0x80 0x01) (.vadd ⟨mw false false true false 0, .i8, .v 1, .src (.v 2), 3, false⟩) v3 = some 0x81 := by decide +kernel

/-- The sum of a sub-element does not carry into the next (R90); a literal is read at the fmt's width (R34). -/
theorem test_vadd_wraps : runs (vv 0x00000001FFFFFFFF 1) (.vadd (lr2 .i32)) v3 = some 0x0000000100000000 ∧
    runs (vv 0xFF 1) (.vadd ⟨.bare, .i8, .v 1, .lit 0x01, 3, false⟩) v3 = some 0x0101010101010100 := by decide +kernel

theorem test_vmulh : runs (vv 0xFFFFFFFFFFFFFFFF 2) (.vmulh (lr2 .i64)) v3 = some 0xFFFFFFFFFFFFFFFF ∧
    runs (vv 0xFFFFFFFFFFFFFFFF 2) (.vmulh (lr2 .n64)) v3 = some 1 := by decide +kernel

/-- The low half sub-elements times each other (R91). -/
theorem test_vmulw : runs (vv 0x00000000FFFFFFFE 3) (.vmulw (lr2 .i32)) v3 = some 0xFFFFFFFFFFFFFFFA := by decide +kernel

/-- Shift counts beyond the width, a rotation, and bytes by selector (R94, R97). -/
theorem test_shifts : runs (vv 0x80 9) (.vsar (lr2 .i8)) v3 = some 0xFF ∧ runs (vv 0x80 9) (.vshr (lr2 .i8)) v3 = some 0 ∧
    runs (vv 0x81 9) (.vrot (lr2 .n8)) v3 = some 0x03 ∧ runs (vv 0x0000000012345678 0x00010203) (.vbytp (lr2 .n32)) v3 = some 0x78563412 := by
  decide +kernel

theorem test_counts : runs (vv 0x00F0 0) (.vpopc ⟨.bare, .i16, .v 1, 3, false⟩) v3 = some 4 ∧
    runs (vv 0x00F0 0) (.vclz ⟨.bare, .i16, .v 1, 3, false⟩) v3 = some 0x0010001000100008 ∧
    runs (vv 0x00F0 0) (.vctz ⟨.bare, .i16, .v 1, 3, false⟩) v3 = some 0x0010001000100004 ∧
    runs (vv 0x00F0 0) (.vbrev ⟨.bare, .i16, .v 1, 3, false⟩) v3 = some 0x0F00 := by decide +kernel

/-- Sub-elements that MASK clears keep what they held; ZERO writes zeros to lanes that the guard leaves out (R85). -/
theorem test_mask_and_zero :
    runs (vPut (vv 1 1) 3 0 0x5555) (.vadd ⟨⟨some ⟨false, 7, false, .rne, none, 0xFD⟩, none⟩, .i8, .v 1, .src (.v 2), 3, false⟩) v3 = some 0x5502 ∧
    runs (vPut (vv 1 1) 3 0 0x5555) (.vadd ⟨⟨some ⟨false, 1, true, .rne, none, 0xFF⟩, none⟩, .i8, .v 1, .src (.v 2), 3, false⟩) v3 = some 0 := by
  decide +kernel

/-- VCMP.lt over sub-elements: any and all (R98). -/
theorem test_vcmp : runs (vv 0x0000000200000000 0x0000000100000001) (.vcmp ⟨.bare, .i32, .v 1, .src (.v 2), .lt, 1, true⟩) (fun G => pGet G 1 0) = some true ∧
    runs (vv 0x0000000200000000 0x0000000100000001) (.vcmp ⟨.bare, .i32, .v 1, .src (.v 2), .lt, 1, false⟩) (fun G => pGet G 1 0) = some false := by
  decide +kernel

/-- Narrowing with saturation, packing and widening (R102, R103). -/
theorem test_vcvt : runs (vv 0xFFFFFFFFFFFFFF00 0) (.vcvt ⟨satM, .i8, .v 1, .i64, 3, false⟩) (fun G => v3 G &&& 0xFF) = some 0x80 := by decide +kernel

/-- The rows of the worked example of VFADD.f32 with saturation (R71). -/
theorem test_vfadd_sat : (fun r => runs (vv r.1 r.2) (.vfadd ⟨satM, .f32, .v 1, .src (.v 2), 3, false⟩) (fun G => v3 G &&& 0xFFFFFFFF)) <$>
    [((0x7F61B1E6, 0x7F61B1E6) : Word × Word), (0x7F800000, 0xFF800000), (0x7FC00001, 0x3F800000), (0x7F800000, 0x3F800000), (0x3F800000, 0x33800000)] =
    [some 0x7F7FFFFF, some 0x7FC00000, some 0x7FC00000, some 0x7F7FFFFF, some 0x3F800000] := by decide +kernel

/-- One rounding against two (R113, worked example). -/
theorem test_vfma : runs (vPut (vv 0x3F800800 0x3F800800) 4 0 0xBF801000)
    (.vfma ⟨⟨some ⟨false, 7, false, .rne, some (.v 4), 0xFF⟩, none⟩, .f32, .v 1, .src (.v 2), 3, false⟩) (fun G => v3 G &&& 0xFFFFFFFF) = some 0x33800000 ∧
    runs (vv 0x3F800800 0x3F800800) (.vfmul (fr2 .f32)) v3 = some 0x3F801000 ∧
    runs (vv 0x3F801000 0xBF801000) (.vfadd (fr2 .f32)) v3 = some 0 ∧
    runs (vv 0x3F801000 0xBF801000) (.vfadd ⟨⟨some ⟨false, 7, false, .rdn, none, 0xFF⟩, none⟩, .f32, .v 1, .src (.v 2), 3, false⟩) v3 = some 0x0000000080000000 := by
  decide +kernel

/-- 1 / 3 rounds to 0x3EAAAAAB, the root of 2 to 0x3FB504F3 in binary32 (R113, R114). -/
theorem test_vfdiv_vfsqrt : runs (vv 0x3F800000 0x40400000) (.vfdiv (fr2 .f32)) (fun G => v3 G &&& 0xFFFFFFFF) = some 0x3EAAAAAB ∧
    runs (vv 0x40000000 0) (.vfsqrt ⟨.bare, .f32, .v 1, 3, false⟩) (fun G => v3 G &&& 0xFFFFFFFF) = some 0x3FB504F3 := by decide +kernel

/-- 2 to the power 3, the logarithm of 8, sin(π / 2) and cos(π) (R120). -/
theorem test_functions : runs (vv 0x40400000 0) (.vfex2 ⟨.bare, .f32, .v 1, 3, false⟩) (fun G => v3 G &&& 0xFFFFFFFF) = some 0x41000000 ∧
    runs (vv 0x41000000 0) (.vflg2 ⟨.bare, .f32, .v 1, 3, false⟩) (fun G => v3 G &&& 0xFFFFFFFF) = some 0x40400000 ∧
    runs (vv 0x3F000000 0) (.vfsin ⟨.bare, .f32, .v 1, 3, false⟩) (fun G => v3 G &&& 0xFFFFFFFF) = some 0x3F800000 ∧
    runs (vv 0x3F800000 0) (.vfcos ⟨.bare, .f32, .v 1, 3, false⟩) (fun G => v3 G &&& 0xFFFFFFFF) = some 0xBF800000 := by decide +kernel

/-- e², e⁻² with two INX events a lane; the exponential and the logarithm by a shift of level (R123, R124, worked example). -/
theorem test_level_index : runs (wide (vv 0x4800000008000000 0x4800000008000000)) (.vsmul (fr2 .s32)) (fun G => (v3 G, srGet G 0x194)) = some (0x4D8B90C00D8B90C0, 4) ∧
    runs (vv 0x858B90C0058B90C0 0) (.vsexp ⟨.bare, .s32, .v 1, 3, false⟩) v3 = some 0x4D8B90C00D8B90C0 ∧
    runs (vv 0x4D8B90C00D8B90C0 0) (.vsln ⟨.bare, .s32, .v 1, 3, false⟩) v3 = some 0x858B90C0058B90C0 := by decide +kernel

/-- The tree and the serial order of 2^24, 1, 1, −2^24 (R108, R109, worked example). -/
def treeIn : Gang := vPut (vPut (vPut (vPut gang0 5 0 0x4B800000) 5 1 0x3F800000) 5 2 0x3F800000) 5 3 0xCB800000
theorem test_reductions : runs4 (wide treeIn) (.vrdcFloat ⟨.bare, .f32, .v 5, .add, 6, false⟩) (fun G => (vGet G 6 0 &&& 0xFFFFFFFF, vGet G 6 3 &&& 0xFFFFFFFF, srGet G 0x194)) =
      some (0x3F800000, 0x3F800000, 1) ∧
    runs4 (wide treeIn) (.vscanFloat ⟨.bare, .f32, .v 5, ⟨.add, false⟩, 7, false⟩) (fun G => (vGet G 7 0 &&& 0xFFFFFFFF, vGet G 7 2 &&& 0xFFFFFFFF, vGet G 7 3 &&& 0xFFFFFFFF, srGet G 0x194)) =
      some (0x4B800000, 0x4B800000, 0, 2) := by decide +kernel

/-- Lane 0 takes the value of lane 0 xor 1 (R106); VMATCH and VBCAST (R107). -/
theorem test_vshfli : runs (vPut (vv 5 0) 1 1 7) (.vshfli ⟨.bare, .i32, .v 1, ⟨.xor, 1⟩, 3, false⟩) (fun G => (vGet G 3 0, vGet G 3 1)) = some (7, 5) := by decide +kernel

/-- The tests of uniform arithmetic (R239, R240). -/
theorem test_uniform : runs (ss 0xFFFFFFFFFFFFFFFF 2) (.uadd ⟨3, 1, 2⟩) s3 = some 1 ∧ runs (ss 0xFFFFFFFFFFFFFFFF 2) (.umulh ⟨3, 1, 2, true⟩) s3 = some 1 ∧
    runs (ss 0xFFFFFFFFFFFFFFFF 2) (.umulh ⟨3, 1, 2, false⟩) s3 = some 0xFFFFFFFFFFFFFFFF ∧ runs (ss 7 0) (.udiv ⟨3, 1, 2, false⟩) s3 = some 0xFFFFFFFFFFFFFFFF ∧
    runs (ss 7 0) (.urem ⟨3, 1, 2, false⟩) s3 = some 7 ∧ runs (ss 0x8000000000000000 0xFFFFFFFFFFFFFFFF) (.udiv ⟨3, 1, 2, false⟩) s3 = some 0x8000000000000000 ∧
    runs (ss 1 64) (.ushl ⟨3, 1, 2⟩) s3 = some 0 ∧ runs (ss 0x8000000000000000 64) (.usar ⟨3, 1, 2⟩) s3 = some 0xFFFFFFFFFFFFFFFF ∧
    runs (ss 0xFFFFFFFFFFFFFFF9 2) (.urem ⟨3, 1, 2, false⟩) s3 = some 0xFFFFFFFFFFFFFFFF ∧ runs (ss 0 5) (.uclz ⟨3, 1⟩) s3 = some 64 ∧
    runs (ss 1 0) (.umovi 3 0x800) s3 = some 0xFFFFFFFFFFFFF800 := by decide +kernel

/-- −1 against 1: ne, lt, le, gtu and geu hold, and the two have a bit in common (R241, Table 2). -/
theorem test_ucmp : runs (ss 0xFFFFFFFFFFFFFFFF 1) (.ucmp ⟨3, 1, 2⟩) s3 = some 0x70E := by decide +kernel

/-- A ballot of p1 in lane 1 (R242); a lane's register read (R243). -/
theorem test_votes : runs (pPut gang0 1 1 true) (.uvote 3 1 .ballot) s3 = some 2 ∧ runs (pPut gang0 1 1 true) (.uvote 3 1 .any) s3 = some 1 ∧
    runs (pPut gang0 1 1 true) (.uvote 3 1 .all) s3 = some 0 ∧ runs (vPut (sPut gang0 2 1) 9 1 77) (.ulaneGet 3 9 2) s3 = some 77 := by decide +kernel

/-- Lane 0, whose p1 is set, goes to the taken target, lane 1 falls through; VOTE.LAST 2 is divergent (R249). -/
theorem test_brv : runs (pPut gang0 1 0 true) (.brv 1 4) (fun G => (((thr G 0).map (·.pc)), ((thr G 1).map (·.pc)), srGet G rVoteLast)) =
    some (some 0x10010, some 0x10004, 2) := by decide +kernel

/-- UBRZ.eq on a condition word without bit 0 moves the run back by four words (R248). -/
theorem test_ubrz : runs (sPut gang0 1 0x70E) (.ubrz 1 1 0xFFC) (fun G => (thr G 1).map (·.pc)) = some (some 0xFFF0) ∧
    runs (sPut gang0 1 0x70E) (.ubrnz 1 1 0xFFC) (fun G => (thr G 1).map (·.pc)) = some (some 0x10004) := by decide +kernel

/-- CALL v31 writes the return address to that register of each lane and moves the run (R250). -/
theorem test_call : runs gang0 (.call 3 (BitVec.ofInt 21 (-2))) (fun G => ((thr G 0).map (·.pc), [(7 : Nat), 15, 23, 31, 39, 47, 55, 63].filter fun r => vGet G r 1 == 0x10004)) =
    some (some 0xFFF8, [31]) := by decide +kernel

/-- ULOOP with a count of 3 and END at 0x14: DEPTH 1, COUNT 3, SET of the run, the body from the next instruction (R254, R256). -/
theorem test_uloop : runs (sPut gang0 4 3) (.uloop (.reg 4) 0x14) (fun G => (srGet G 0x0C0, srGet G 0x0C1, srGet G 0x0C2, loopDepth G, (thr G 0).map (·.pc))) =
    some (0x0000000300000003, 0x10008, 0x10014, 1, some 0x10008) := by decide +kernel

/-- p1 AND p2 by truth table 0b1000 (R101). -/
theorem test_vplog : runs (pPut (pPut (pPut gang0 1 0 true) 2 0 true) 1 1 true) (.vplog ⟨.bare, 1, 8, 2, 3⟩) (fun G => (pGet G 3 0, pGet G 3 1)) = some (true, false) := by
  decide +kernel

/-- VSEL takes A in lanes where the guard holds and B in the others (R99). -/
theorem test_vsel : runs (pPut (vv 5 6) 1 0 true) (.vsel ⟨⟨some ⟨false, 1, false, .rne, none, 0xFF⟩, none⟩, .i64, .v 1, .src (.v 2), 3, false⟩)
    (fun G => (vGet G 3 0, vGet G 3 1)) = some (5, 6) := by decide +kernel

/-- Bytes are little-endian (R3): a load of a word at 0x10100, and of a signed byte at 0x10101. -/
def stBytes : State := poke stMem .phys 0x10100 [0x78, 0x56, 0xF4, 0x12]
theorem test_loads : (after (exec (.uld ⟨.n32, 3, 1, 0⟩) stBytes) fun t => sGet (gangOf t 0) 3) = some 0x12F45678 ∧
    (after (exec (.uld ⟨.i8, 3, 1, 2⟩) stBytes) fun t => sGet (gangOf t 0) 3) = some 0xFFFFFFFFFFFFFFF4 ∧
    (after (exec (.vld ⟨.bare, .n16, 1, 0, 3, false⟩) stBytes) fun t => vGet (gangOf t 0) 3 0) = some 0x5678 := by decide +kernel

/-- A store waits in its gang's queue (R158) and a load of the same gang takes its bytes. -/
theorem test_store : (after (exec (.ust ⟨.n16, 1, 1, 0⟩) stMem) fun t =>
      ((gangOf t 0).storeQ.map (·.bytes), Memory.read t.mem 0x10100, (gangBytes t 0 [.phys 0x10100, .phys 0x10101]))) =
    some ([[(.phys 0x10100, 0x00), (.phys 0x10101, 0x01)]], 0, some [0x00, 0x01]) := by decide +kernel

/-- Old values and new ones of the atomic operations (R182, Table 3). -/
theorem test_atomics : (fun r : AOp × Nat × Nat => let a := atomicAt (poke State.reset .phys 0x10100 [10, 0, 0, 0]) [.phys 0x10100, .phys 0x10101, .phys 0x10102, .phys 0x10103] r.1 .i32 r.2.1 r.2.2 false
      (a.1, Memory.read a.2.mem 0x10100)) <$> [(.add, 3, 0), (.min, 0xFFFFFFFF, 0), (.max, 0xFFFFFFFF, 0), (.exch, 7, 0), (.cas, 7, 10), (.cas, 7, 11)] =
    [(10, 13), (10, 0xFF), (10, 10), (10, 7), (10, 7), (10, 10)] := by decide +kernel

/-- TRAP 0x2A enters the handler at TS.VEC; TS.PC names the TRAP, TS.RPC the next instruction, and cause and code are noted (R330, R332). -/
theorem test_trap : runs (srPut gang0 rTsVec 0x20000) (.trap 0x2A) (fun G => ((thr G 0).map (·.pc), srGet G rTsPc, srGet G rTsRpc, G.handler)) =
    some (some 0x20000, 0x10000, 0x10004, some 3) := by decide +kernel

/-- A script adds and branches (R292, R293). -/
def stFab : State := { modScript { State.reset with power := .on } 1 fun S => { S with st := .running, store := [0, 0, 0, 0], pc := 2, f := [(4, 7)] } with script := some 1 }
theorem test_script : (after (exec (.fsub 4 4 (.imm 1)) stFab) fun t => ((SMap.getD (scriptOf t 1).f 4 0), (scriptOf t 1).pc)) = some (6, 3) ∧
    (after (exec (.fbrc false 4 0 0xFFFFFE) stFab) fun t => (scriptOf t 1).pc) = some 0 := by decide +kernel

/-- The step fetches, decodes and runs the word at the gang's PC: UMOVI s3, −2048. -/
theorem test_step : (after (step (State.reset.withFetchWord 32 0xA30C0800)) fun t => (sGet (gangOf t 0) 3, (thr (gangOf t 0) 31).map (·.pc))) =
    some (0xFFFFFFFFFFFFF800, some 0x10004) := by decide +kernel

/-- Poison that a copy of this interval consumed is repaired by a rollback at its WAITPH (R337): the granule was written in the
interval, and its earlier value is back (R339, R340). -/
def stConsumed (wrote : SMap Nat) : State :=
  let s := { takeCkpt (stOf gang0 { team0 with spSize := 4096 }) 0 with spad := [(16, 9)], poisonSp := [(1, 1)] }
  modTeam s 0 fun T => { T with wroteSp := wrote }
def spueRec (s : State) : FaultRec :=
  { gangRec s 0 0x10000 .spue 0 1 0xFF 0x01FF000000000010 false with tl := 1, master := 1 }
theorem test_mends : (let s := stConsumed [(1, 1)]
    let t := settleWait s c0 .tl 0 1 false [] (.fails (spueRec s) none)
    (engineMends s 0 (spueRec s), t.spad.isEmpty, t.poisonSp.isEmpty, (teamOf t 0).st == .running, (gangOf t 0).handler, (gangOf t 0).frozen.isNone)) =
      (true, true, true, true, none, true) ∧
    (let s := stConsumed []
     (engineMends s 0 (spueRec s), (gangOf (settleWait s c0 .tl 0 1 false [] (.fails (spueRec s) none)) 0).frozen.isSome)) =
      (false, true) := by decide +kernel

end Sys2Proof.Tests
end

section
/-!
PROOFS. VSEL (R99): its words read back with the faults of its lead words, its selector, and its course when nothing holds it up.
-/
namespace Sys2Proof
open Machine (fld bitOf b2n)

/-! ## Codes are read back (R22, R34, R35) -/

@[simp] theorem IFmt.ofCode_code (f : IFmt) : IFmt.ofCode f.code = f := by cases f <;> rfl
theorem IFmt.code_lt (f : IFmt) : f.code < 8 := by cases f <;> decide

@[simp] theorem Rnd.ofCode_code (r : Rnd) : Rnd.ofCode r.code = some r := by cases r <;> rfl
theorem Rnd.code_lt (r : Rnd) : r.code < 8 := by cases r <;> decide

@[simp] theorem b2n_beq_one (b : Bool) : (b2n b == 1) = b := by cases b <;> rfl
theorem b2n_lt (b : Bool) : b2n b < 2 := by cases b <;> decide

theorem bitOf_of_b2n {w i : Nat} {b : Bool} (h : w / 2 ^ i % 2 = b2n b) : bitOf w i = b := by rw [bitOf, h, b2n_beq_one]

theorem Src.code_lt (x : Src) : x.code < 100 := by
  cases x with
  | v r | s r | x r => have := r.isLt; simp only [Src.code]; omega

@[simp] theorem Src.ofCode_code (x : Src) : Src.ofCode x.code = some x := by
  cases x with
  | v r => simp [Src.code, Src.ofCode]
  | s r =>
    have below : 64 + r.val < 96 := by omega
    simp [Src.code, Src.ofCode, below]
  | x r =>
    have above : ¬ 96 + r.val < 64 := by omega
    have below : 96 + r.val < 100 := by omega
    simp [Src.code, Src.ofCode, above, below]

theorem SrcB.code_lt (b : SrcB) : b.code < 128 := by
  cases b with
  | src x => exact (Src.code_lt x).trans (by decide)
  | lit w => simp [SrcB.code]

theorem gotA_of_code {w : Nat} {x : Src} (h : fA w = x.code) : gotA w = ([], some x) := by
  simp only [gotA, h, Src.ofCode_code]

theorem gotB_of_code {w : Nat} {b : SrcB} (h : fB w = b.code) : gotB w b.words.head? = ([], some b) := by
  cases b with
  | src x =>
    have := Src.code_lt x
    have noLiteral : x.code ≠ 0x7F := by omega
    simp [gotB, h, SrcB.code, noLiteral]
  | lit w => simp [gotB, h, SrcB.code, SrcB.words]

/-! ## The fields of a lane word (R33) -/

section LaneFields
variable {op f a b d k : Nat} (hop : op < 128) (hf : f < 8) (ha : a < 128) (hb : b < 128) (hd : d < 64) (hk : k < 2)

include hop hf ha hb hd hk in
theorem fld_laneWord_opcode : fld (laneWord op f a b d k) 24 7 = op := by unfold fld laneWord; omega

include hop hf ha hb hd hk in
theorem bitOf_laneWord_31 : bitOf (laneWord op f a b d k) 31 = false := by
  unfold bitOf laneWord; rw [beq_eq_false_iff_ne]; omega

include hf ha hb hd hk in
theorem fF_laneWord : fF (laneWord op f a b d k) = f := by unfold fF fld laneWord; omega

include ha hb hd hk in
theorem fA_laneWord : fA (laneWord op f a b d k) = a := by unfold fA fld laneWord; omega

include hb hd hk in
theorem fB_laneWord : fB (laneWord op f a b d k) = b := by unfold fB fld laneWord; omega

include hk in
theorem fK_laneWord : fK (laneWord op f a b d k) = (k == 1) := by
  have : laneWord op f a b d k % 2 = k := by unfold laneWord; omega
  simp only [fK, bitOf, pow_zero, Nat.div_one, this]

end LaneFields

theorem fD_laneWord {op f a b k : Nat} (d : Fin 64) (hk : k < 2) : fD (laneWord op f a b d.val k) = d := by
  have := d.isLt
  have : fld (laneWord op f a b d.val k) 1 6 = d.val := by unfold fld laneWord; omega
  simp [fD, this]

/-- The base word of an LR instruction with two sources, whose fmt has code `f`. -/
def lr2Word {F : Type} (op f : Nat) (o : Lr2 F) : Nat := laneWord op f o.a.code o.b.code o.d.val (b2n o.k)

section Lr2Word
variable {F : Type} {op f : Nat} (o : Lr2 F)

theorem fld_lr2Word_opcode (hop : op < 128) (hf : f < 8) : fld (lr2Word op f o) 24 7 = op :=
  fld_laneWord_opcode hop hf ((Src.code_lt _).trans (by decide)) (SrcB.code_lt _) o.d.isLt (b2n_lt _)

theorem bitOf_lr2Word_31 (hop : op < 128) (hf : f < 8) : bitOf (lr2Word op f o) 31 = false :=
  bitOf_laneWord_31 hop hf ((Src.code_lt _).trans (by decide)) (SrcB.code_lt _) o.d.isLt (b2n_lt _)

theorem fF_lr2Word (hf : f < 8) : fF (lr2Word op f o) = f :=
  fF_laneWord hf ((Src.code_lt _).trans (by decide)) (SrcB.code_lt _) o.d.isLt (b2n_lt _)

theorem gotA_lr2Word : gotA (lr2Word op f o) = ([], some o.a) :=
  gotA_of_code (fA_laneWord ((Src.code_lt _).trans (by decide)) (SrcB.code_lt _) o.d.isLt (b2n_lt _))

theorem gotB_lr2Word : gotB (lr2Word op f o) o.b.words.head? = ([], some o.b) :=
  gotB_of_code (fB_laneWord (SrcB.code_lt _) o.d.isLt (b2n_lt _))

/-- The decoder reads an LR instruction back from its words, where the fmt is read back. -/
theorem lr2_lr2Word {got : List Err × Option F} (hgot : got = ([], some o.fmt)) (mk : Lr2 F → Instr) :
    lr2 o.lead (lr2Word op f o) o.b.words.head? got mk = ([], some (mk o)) := by
  have hD : fD (lr2Word op f o) = o.d := fD_laneWord _ (b2n_lt _)
  have hK : fK (lr2Word op f o) = o.k := (fK_laneWord (b2n_lt _)).trans (b2n_beq_one _)
  simp only [lr2, hgot, gotA_lr2Word, gotB_lr2Word, hD, hK, List.nil_append]

end Lr2Word

theorem gotI_lr2Word (op : Nat) (o : Lr2 IFmt) : gotI (lr2Word op o.fmt.code o) = ([], some o.fmt) := by
  simp [gotI, gotIk, check, fF_lr2Word o (IFmt.code_lt _)]

/-! ## Lead words are read back (R35, R36) -/

section GuardWord
variable (p : PWord)

/-- The code of the fourth operand in a word P: 0x7F where there is none. -/
def PWord.cCode (p : PWord) : Nat := match p.c with | some x => x.code | none => 0x7F

theorem PWord.cCode_lt : p.cCode < 128 := by
  cases h : p.c with
  | none => simp [PWord.cCode, h]
  | some x => simp only [PWord.cCode, h]; exact (Src.code_lt x).trans (by decide)

theorem PWord.ofCode_cCode : Src.ofCode p.cCode = p.c := by
  cases h : p.c with
  | none => simp only [PWord.cCode, h]; rfl
  | some x => simp only [PWord.cCode, h, Src.ofCode_code]

theorem PWord.word_eq : p.word =
    126 * 2 ^ 24 + b2n p.inv * 2 ^ 23 + p.guard.val * 2 ^ 20 + b2n p.zero * 2 ^ 19 + p.rnd.code * 2 ^ 16 + p.cCode * 2 ^ 9
      + p.mask.toNat * 2 := rfl

/-- Every field of a word P holds what was put there. -/
theorem PWord.word_fields : isLead 0x7E p.word = true ∧ bitOf p.word 23 = p.inv ∧ fld p.word 20 3 = p.guard.val ∧
    bitOf p.word 19 = p.zero ∧ fld p.word 16 3 = p.rnd.code ∧ fld p.word 9 7 = p.cCode ∧ fld p.word 1 8 = p.mask.toNat ∧
    bitOf p.word 0 = false := by
  have hi := b2n_lt p.inv
  have hg := p.guard.isLt
  have hz := b2n_lt p.zero
  have hr := Rnd.code_lt p.rnd
  have hc := PWord.cCode_lt p
  have hm := p.mask.isLt
  have top : p.word / 2 ^ 31 % 2 = 0 := by rw [PWord.word_eq]; omega
  have op : p.word / 2 ^ 24 % 2 ^ 7 = 0x7E := by rw [PWord.word_eq]; omega
  have low : p.word / 2 ^ 0 % 2 = b2n false := by rw [PWord.word_eq]; show _ = 0; omega
  refine ⟨?_, bitOf_of_b2n ?_, ?_, bitOf_of_b2n ?_, ?_, ?_, ?_, bitOf_of_b2n low⟩
  · simp only [isLead, bitOf, fld, top, op]; rfl
  all_goals simp only [fld, PWord.word_eq]; omega

theorem pOf_word : pOf p.word = p := by
  obtain ⟨-, inv, guard, zero, rnd, c, mask, -⟩ := PWord.word_fields p
  simp [pOf, inv, guard, zero, rnd, c, mask, pNo, PWord.ofCode_cCode]

theorem rawP_word : rawP p.word = [] := by
  obtain ⟨-, -, -, -, rnd, c, -, low⟩ := PWord.word_fields p
  have src : (p.cCode == 0x7F || p.c.isSome) = true := by cases h : p.c <;> simp [PWord.cCode, h]
  simp [rawP, check, rnd, c, low, PWord.ofCode_cCode, src]

end GuardWord

section ModifierWord
variable (m : MWord)

theorem MWord.word_eq : m.word =
    125 * 2 ^ 24 + b2n m.sat * 2 ^ 23 + b2n m.clamp * 2 ^ 22 + b2n m.negA * 2 ^ 21 + b2n m.negB * 2 ^ 20 + b2n m.absA * 2 ^ 19
      + b2n m.absB * 2 ^ 18 + m.scale.toNat * 2 ^ 12 := rfl

/-- Every field of a word M holds what was put there. -/
theorem MWord.word_fields : isLead 0x7D m.word = true ∧ isLead 0x7E m.word = false ∧ bitOf m.word 23 = m.sat ∧
    bitOf m.word 22 = m.clamp ∧ bitOf m.word 21 = m.negA ∧ bitOf m.word 20 = m.negB ∧ bitOf m.word 19 = m.absA ∧
    bitOf m.word 18 = m.absB ∧ fld m.word 12 6 = m.scale.toNat ∧ fld m.word 0 12 = 0 := by
  have h1 := b2n_lt m.sat
  have h2 := b2n_lt m.clamp
  have h3 := b2n_lt m.negA
  have h4 := b2n_lt m.negB
  have h5 := b2n_lt m.absA
  have h6 := b2n_lt m.absB
  have h7 := m.scale.isLt
  have top : m.word / 2 ^ 31 % 2 = 0 := by rw [MWord.word_eq]; omega
  have op : m.word / 2 ^ 24 % 2 ^ 7 = 0x7D := by rw [MWord.word_eq]; omega
  refine ⟨?_, ?_, bitOf_of_b2n ?_, bitOf_of_b2n ?_, bitOf_of_b2n ?_, bitOf_of_b2n ?_, bitOf_of_b2n ?_,
    bitOf_of_b2n ?_, ?_, ?_⟩
  · simp only [isLead, bitOf, fld, top, op]; rfl
  · simp only [isLead, bitOf, fld, top, op]; rfl
  all_goals simp only [fld, MWord.word_eq]; omega

theorem mOf_word : mOf m.word = m := by
  obtain ⟨-, -, sat, clamp, negA, negB, absA, absB, scale, -⟩ := MWord.word_fields m
  simp [mOf, sat, clamp, negA, negB, absA, absB, scale]

theorem rawM_word : rawM m.word = [] := by
  obtain ⟨-, -, -, -, -, -, -, -, -, low⟩ := MWord.word_fields m
  simp [rawM, check, low]

end ModifierWord

/-- The lead words in front of a base word are taken off it. -/
theorem takeLeads_words (l : Lead) {w : Nat} (ls : List Nat) (hp : isLead 0x7E w = false) (hm : isLead 0x7D w = false) :
    takeLeads (l.words ++ w :: ls) = (l.pw.map PWord.word, l.mw.map MWord.word, w :: ls) := by
  obtain ⟨pw, mw⟩ := l
  cases pw with
  | none =>
    cases mw with
    | none => simp [Lead.words, takeLeads, hp, hm]
    | some m =>
      obtain ⟨isM, notP, -⟩ := MWord.word_fields m
      simp [Lead.words, takeLeads, isM, notP]
  | some p =>
    obtain ⟨isP, -⟩ := PWord.word_fields p
    cases mw with
    | none => simp [Lead.words, takeLeads, isP, hm]
    | some m =>
      obtain ⟨isM, -⟩ := MWord.word_fields m
      simp [Lead.words, takeLeads, isP, isM]

/-- A lane instruction whose base word is read back without a fault: its own checks alone remain (R42). -/
theorem readWords_lane {l : Lead} {w : Nat} {ls : List Nat} {i : Instr} (top : bitOf w 31 = false)
    (hp : fld w 24 7 ≠ 0x7E) (hm : fld w 24 7 ≠ 0x7D) (back : decLane l w ls.head? = ([], some i)) :
    readWords (l.words ++ w :: ls) = (errsOf i, some i) := by
  have notP : isLead 0x7E w = false := by simp [isLead, hp]
  have notM : isLead 0x7D w = false := by simp [isLead, hm]
  obtain ⟨pw, mw⟩ := l
  have lead : (⟨(pw.map PWord.word).map pOf, (mw.map MWord.word).map mOf⟩ : Lead) = ⟨pw, mw⟩ := by
    cases pw <;> cases mw <;> simp [pOf_word, mOf_word]
  simp only [readWords, takeLeads_words _ ls notP notM, lead, top, back, Bool.false_eq_true, if_false]
  cases pw <;> cases mw <;> simp [rawP_word, rawM_word]

/-! ## The fault that a decoder reports (R42) -/

theorem mem_check {ok : Bool} {sub field : Nat} {x : Err} : x ∈ check ok sub field ↔ ok = false ∧ x = (sub, field) := by
  cases ok <;> simp [check]

/-- Fault `a` is reported before `b`, or is `b`: a lower sub-code, or a field that is no higher of the same sub-code. -/
def notAfter (a b : Err) : Prop := a.1 < b.1 ∨ a.1 = b.1 ∧ a.2 ≤ b.2

theorem lowErr_left {e x : Err} (h : notAfter e x) : lowErr e x = e := by
  have : ¬ (x.1 < e.1 ∨ x.1 = e.1 ∧ x.2 < e.2) := by unfold notAfter at h; omega
  simp [lowErr, this]

theorem lowErr_right {e x : Err} (h : notAfter e x) : lowErr x e = e := by
  unfold lowErr
  split
  · rfl
  · rename_i stays
    simp only [Bool.or_eq_true, decide_eq_true_eq, Bool.and_eq_true, beq_iff_eq] at stays
    unfold notAfter at h
    exact Prod.ext (by omega) (by omega)

theorem lowErr_cases (a b : Err) : lowErr a b = a ∨ lowErr a b = b := by
  unfold lowErr; split
  · exact .inr rfl
  · exact .inl rfl

theorem foldl_lowErr_eq {e : Err} (es : List Err) (a : Err) (low : ∀ x ∈ a :: es, notAfter e x) (mem : e ∈ a :: es) :
    es.foldl lowErr a = e := by
  induction es generalizing a with
  | nil => exact (List.mem_singleton.mp mem).symm
  | cons b t ih =>
    simp only [List.forall_mem_cons] at low
    obtain ⟨ha, hb, ht⟩ := low
    refine ih (lowErr a b) (List.forall_mem_cons.mpr ⟨?_, ht⟩) ?_
    · rcases lowErr_cases a b with h | h <;> rw [h] <;> assumption
    · simp only [List.mem_cons] at mem
      rcases mem with rfl | rfl | h
      · rw [lowErr_left hb]; exact List.mem_cons_self
      · rw [lowErr_right ha]; exact List.mem_cons_self
      · exact List.mem_cons_of_mem _ h

/-- Of the faults that the words show, the decoder answers the lowest. -/
theorem decode_lowest {ws : List Nat} {es : List Err} {i : Option Instr} {e : Err} (r : readWords ws = (es, i))
    (mem : e ∈ es) (low : ∀ x ∈ es, notAfter e x) : decode ws = .error e := by
  cases es with
  | nil => simp at mem
  | cons a t => simp only [decode, r, foldl_lowErr_eq t a low mem]

theorem mem_leadErrs {r : LeadRule} {l : Lead} {p : PWord} (hp : l.pw = some p) {x : Err} :
    x ∈ leadErrs r l ↔ x ∈ pErrs r p ∨ ∃ m, l.mw = some m ∧ x ∈ mErrs r m := by
  simp only [leadErrs, hp, List.mem_append]
  cases l.mw <;> simp

/-- Where an opcode does not take ZERO, a word P that sets it is a fault, and no fault of the lead words is lower (R35). -/
theorem leadErrs_zero_lowest {r : LeadRule} {l : Lead} {p : PWord} (hr : r.zero = false) (hp : l.pw = some p)
    (hz : p.zero = true) : (0x04, 14) ∈ leadErrs r l ∧ ∀ x ∈ leadErrs r l, notAfter (0x04, 14) x := by
  simp only [mem_leadErrs hp, pErrs, mErrs, List.mem_append, mem_check]
  refine ⟨.inl (.inl (.inl (.inl (by simp [hr, hz])))), ?_⟩
  rintro x ((((⟨-, rfl⟩ | ⟨-, rfl⟩) | ⟨-, rfl⟩) | ⟨-, rfl⟩) | ⟨m, -, ⟨-, rfl⟩ | ⟨-, rfl⟩⟩) <;> simp [notAfter]

/-! ## The words of VSEL -/

theorem encode_vsel (o : Lr2 IFmt) : encode (.vsel o) = o.lead.words ++ lr2Word 0x45 o.fmt.code o :: o.b.words := by
  simp [encode, encLr2, lr2Word]

theorem readWords_encode_vsel (o : Lr2 IFmt) : readWords (encode (.vsel o)) = (errsOf (.vsel o), some (.vsel o)) := by
  have op : fld (lr2Word 0x45 o.fmt.code o) 24 7 = 0x45 := fld_lr2Word_opcode o (by decide) (IFmt.code_lt _)
  rw [encode_vsel]
  refine readWords_lane (bitOf_lr2Word_31 o (by decide) (IFmt.code_lt _)) (by rw [op]; decide) (by rw [op]; decide) ?_
  simp only [decLane, op]
  exact lr2_lr2Word o (gotI_lr2Word _ o) _

/-- VSEL has no fault but those of its lead words. -/
theorem errsOf_vsel (o : Lr2 IFmt) : errsOf (.vsel o) = leadErrs { LeadRule.plain with zero := false } o.lead := rfl

theorem decode_vsel_zero {o : Lr2 IFmt} {p : PWord} (hp : o.lead.pw = some p) (hz : p.zero = true) :
    decode (encode (.vsel o)) = .error (0x04, 14) := by
  have read := readWords_encode_vsel o
  rw [errsOf_vsel] at read
  obtain ⟨mem, low⟩ := leadErrs_zero_lowest (r := { LeadRule.plain with zero := false }) rfl hp hz
  exact decode_lowest read mem low

end Sys2Proof

namespace Sys2Proof.Machine

/-! ## The lanes of a guard (R6, R35) -/

theorem hasLane_laneSet (f : Nat → Bool) {l : Nat} (hl : l < 32) : hasLane (laneSet f) l = f l := by
  have step : ∀ (m : W32), ∀ k ∈ lanes, hasLane (if f k then m ||| laneBit k else m) l
      = if f l = true ∧ l = k then true else hasLane m l := by
    intro m k _
    cases hk : f k with
    | true =>
      have put := hasLane_put m true (l := k) hl
      by_cases e : l = k
      · subst e; simpa [hk] using put
      · simpa [e] using put
    | false => by_cases e : l = k <;> simp [e, hk]
  have all := fold_place (fun m k => if f k then m ||| laneBit k else m) (fun m => hasLane m l) (f l = true) l true lanes step 0
  have zero : hasLane 0 l = false := by simp [hasLane]
  rw [laneSet, all, zero]
  cases f l <;> simp [mem_lanes, hl]

/-- Without a word P the guard is p7, which reads 1 (R35). -/
theorem actLanes_of_no_pw (s : State) (c : Issue) {lead : Lead} (h : lead.pw = none) : actLanes s c lead = c.run := by
  simp only [actLanes, guardLanes, h]

theorem hasLane_actLanes (s : State) (c : Issue) {lead : Lead} {p : PWord} (h : lead.pw = some p) {l : Nat} (hl : l < 32) :
    hasLane (actLanes s c lead) l = (hasLane c.run l && (pGet (gangOf s c.g) p.guard.val l != p.inv)) := by
  simp only [actLanes, guardLanes, h, hasLane_laneSet _ hl]

/-! ## The course of VSEL -/

theorem exec_vsel (o : Lr2 IFmt) (s : State) : exec (.vsel o) s = execVsel o s := rfl

/-- VSEL's result (R99): each selected sub-element from A in the lanes that its selector names, and from B in the others. -/
def selRes (G : Gang) (sel : W32) (o : Lr2 IFmt) : VecRes :=
  ⟨o.d.val, o.fmt.bits, selKs o.lead o.fmt.bits, [], o.k, true, fun l k =>
    (elem (if hasLane sel l then srcVal G l o.a else bInt o.fmt G l o.b) o.fmt.bits k, [])⟩

/-- The gang after VSEL's result, written in the whole run, with its events. -/
def selWritten (G : Gang) (run sel : W32) (o : Lr2 IFmt) : Gang × List (Evt × Nat) :=
  let r := selRes G sel o
  vecResult G run 0 r.d r.w r.ks r.zks r.nowb r.push r.val

theorem selWritten_spec (G : Gang) (run sel : W32) (o : Lr2 IFmt) : VecSpec G (selWritten G run sel o).1 run 0 (selRes G sel o) :=
  vecResult_spec ..

/-- VSEL whose checks pass and whose price is paid ends as any lane-set instruction. -/
theorem execVsel_next {s paid : State} {c : Issue} {o : Lr2 IFmt} (cur : s.cur = some c)
    (checks : selChecks (gangOf s c.g) c (useLr2 o 1 false) (guardLanes (gangOf s c.g) o.lead c.run) = .ok ())
    (pay : payTokens (setGang s c.g (selWritten (gangOf s c.g) c.run (guardLanes (gangOf s c.g) o.lead c.run) o).1) c.g
      (lanePrice 1 c.run) (useLr2 o 1 false).member = some paid) :
    execVsel o s = .next (laneDone paid c (useLr2 o 1 false)
      (selWritten (gangOf s c.g) c.run (guardLanes (gangOf s c.g) o.lead c.run) o).2) := by
  simp only [selWritten, selRes, selKs] at pay ⊢
  simp only [execVsel, issuing, cur, checks, pay]

/-- VSEL that nothing holds up makes its result in every lane of the run, and nothing else. -/
theorem vsel_yields {s : State} {c : Issue} {o : Lr2 IFmt} (r : ReadyOn s c (useLr2 o 1 false) 0 c.run)
    (checks : selChecks (gangOf s c.g) c (useLr2 o 1 false) (actLanes s c o.lead) = .ok ()) :
    Yields (.vsel o) s fun t => VecDoneOn s t c c.run 0 (selRes (gangOf s c.g) (actLanes s c o.lead) o) := by
  have spec := selWritten_spec (gangOf s c.g) c.run (actLanes s c o.lead) o
  obtain ⟨canPay, noTrap⟩ := spec.tame.ready r.pays r.quiet
  obtain ⟨paid, pay⟩ := payTokens_some (useLr2 o 1 false).member canPay
  have still := payTokens_still pay
  have done := laneDone_spec paid c (useLr2 o 1 false) (selWritten (gangOf s c.g) c.run (actLanes s c o.lead) o).2
    (.of_regs (still.quiet.regs c.g) noTrap)
  exact ⟨_, (exec_vsel o s).trans (execVsel_next r.cur checks pay), .of_issued (.after still done) spec⟩

/-! ## The statement -/

/-- Settles O5: the course of VSEL is its checks, its payment and one vector result over the whole run; the decoder reads its
words back, so that ZERO is the first fault it reports. -/
theorem selectWritesEveryLane : Obligations.SelectWritesEveryLane := by
  exact ⟨fun s c o r checks => vsel_yields r checks, fun s c o => actLanes_of_no_pw s c,
    fun s c o p hp l hl => hasLane_actLanes s c hp hl, encode_vsel, fun o p hp hz => decode_vsel_zero hp hz⟩

end Sys2Proof.Machine
end

section
/-!
PROOFS. UCMP (R241): the bits of its condition word; the course of an instruction that moves its run outside loops (R246); and
the branches that test a bit of the word (R248).
-/
namespace Sys2Proof.Machine

/-! ## The condition word (R241, Table 2) -/

/-- Bits summed from weight `2^k` on stand above a number that ends below it. -/
theorem testBit_sum_bits (cs : List Bool) {k n : Nat} (below : n < 2 ^ k) (i : Nat) :
    ((cs.zipIdx k).foldl (fun n e => n + b2n e.1 * 2 ^ e.2) n).testBit i
      = if i < k then n.testBit i else (cs[i - k]?).getD false := by
  induction cs generalizing k n with
  | nil =>
    by_cases lt : i < k
    · simp [lt]
    · have clear : n.testBit i = false :=
        Nat.testBit_lt_two_pow (below.trans_le (Nat.pow_le_pow_right (by decide) (Nat.le_of_not_lt lt)))
      simp [lt, clear]
  | cons b cs ih =>
    have sum : n + b2n b * 2 ^ k = 2 ^ k * b2n b + n := by ring
    have below' : 2 ^ k * b2n b + n < 2 ^ (k + 1) := by cases b <;> simp [b2n] <;> omega
    rw [List.zipIdx_cons, List.foldl_cons, sum, ih below', Nat.testBit_two_pow_mul_add _ below]
    rcases Nat.lt_trichotomy i k with lt | rfl | gt
    · simp [lt, lt.trans k.lt_succ_self]
    · cases b <;> simp [b2n]
    · have next : i - k = i - (k + 1) + 1 := by omega
      simp [gt.not_gt, Nat.not_lt.mpr (Nat.succ_le_of_lt gt), next]

/-- The condition word is the sum of Table 2's bits: `≤` is the negation of the reversed `<`. -/
theorem condWord_eq (a b : Word) :
    condWord a b = BitVec.ofNat 64 ((condHolds a b).zipIdx.foldl (fun n e => n + b2n e.1 * 2 ^ e.2) 0) := by
  simp only [condWord, condHolds, BitVec.sle_eq_not_slt, BitVec.ule_eq_not_ult]

theorem getLsbD_condWord (a b : Word) (i : Nat) : (condWord a b).getLsbD i = ((condHolds a b)[i]?).getD false := by
  rw [condWord_eq, BitVec.getLsbD_ofNat, testBit_sum_bits _ (by decide)]
  by_cases h : i < 64
  · simp [h]
  · have none : (condHolds a b)[i]? = none := List.getElem?_eq_none (by simp only [condHolds, List.length]; omega)
    simp [h, none]

/-! ## UCMP -/

theorem exec_ucmp (o : Ur3) (s : State) : exec (.ucmp o) s = uarith3 o s condWord := rfl
theorem exec_ucmpUi (o : Ui) (s : State) : exec (.ucmpUi o) s = uarithUi o s condWord := rfl

/-- An instruction of UR with two sources writes its result alone (R238). -/
theorem uArith3_of_exec {mk : Ur3 → Instr} {f : Word → Word → Word} (h : ∀ o s, exec (mk o) s = uarith3 o s f) : UArith3 mk f := by
  intro o s c ready
  rw [Yields, h]
  exact runUni_wrS ready rfl

/-- One of UI does so with its sign-extended immediate. -/
theorem uArithUi_of_exec {mk : Ui → Instr} {f : Word → Word → Word} (h : ∀ o s, exec (mk o) s = uarithUi o s f) : UArithUi mk f := by
  intro o s c ready
  rw [Yields, h]
  exact runUni_wrS ready rfl

/-! ## A gang written twice -/

theorem SMap.put_put {α : Type} (m : SMap α) (k : Nat) (v w : α) : put (put m k v) k w = put m k w := by
  fun_induction put m k v with
  | case1 => simp [put]
  | case2 => simp [put]
  | case3 _ _ _ _ _ ne lt ih => simp [put, ne, lt, ih]
  | case4 _ _ _ _ _ ne ge => simp [put, ne, ge]

@[simp] theorem setGang_setGang (s : State) (g : Nat) (G H : Gang) : setGang (setGang s g G) g H = setGang s g H := by
  simp only [setGang, SMap.put_put]

@[simp] theorem modGang_modGang (s : State) (g : Nat) (f h : Gang → Gang) :
    modGang (modGang s g f) g h = modGang s g fun G => h (f G) := by
  simp only [modGang, gangOf_setGang_same, setGang_setGang]

/-! ## What retiring leaves of the control flow -/

/-- Two gangs with the same threads, the same latch chain and the same depth of loops. -/
structure SameFlow (G H : Gang) : Prop where
  threads : H.threads = G.threads
  chain : H.chain = G.chain
  depth : loopDepth H = loopDepth G

theorem SameFlow.refl (G : Gang) : SameFlow G G := ⟨rfl, rfl, rfl⟩

theorem SameFlow.trans {G H K : Gang} (a : SameFlow G H) (b : SameFlow H K) : SameFlow G K :=
  ⟨b.threads.trans a.threads, b.chain.trans a.chain, b.depth.trans a.depth⟩

theorem SameFlow.of_srPut (G : Gang) {n : Nat} (w : Word) (h : rLoopDepth ≠ n) : SameFlow G (srPut G n w) :=
  ⟨rfl, rfl, by rw [loopDepth, srGet_srPut_other G w h, loopDepth]⟩

theorem sameFlow_stepWindow (G : Gang) (e : Nat) : SameFlow G (stepWindow G e) := by
  have other : rLoopDepth ≠ rEvtCnt e := by simp only [rLoopDepth, rEvtCnt]; omega
  unfold stepWindow
  dsimp only
  split
  · refine .trans ?_ (.of_srPut _ 0 other)
    exact ⟨rfl, rfl, rfl⟩
  · exact ⟨rfl, rfl, rfl⟩

theorem sameFlow_countTurn (G : Gang) (run : W32) : SameFlow G (countTurn G run) := by
  unfold countTurn
  dsimp only
  split
  · exact ⟨rfl, rfl, rfl⟩
  · split <;> exact ⟨rfl, rfl, rfl⟩

theorem gangOf_pmcCount (s : State) (c code n g : Nat) : gangOf (pmcCount s c code n) g = gangOf s g :=
  List.foldlRecOn (motive := fun t => gangOf t g = gangOf s g) _ _ rfl fun t ht i _ => by
    dsimp only
    split
    · rw [gangOf_mgmtAdd, ht]
    · exact ht

theorem sameFlow_countIssue (s : State) (c : Issue) : SameFlow (gangOf s c.g) (gangOf (countIssue s c) c.g) := by
  have windows : SameFlow (gangOf s c.g) ((List.range 9).foldl stepWindow (gangOf s c.g)) :=
    fold_within .refl .trans _ (fun G e _ => sameFlow_stepWindow G e) _
  unfold countIssue
  dsimp only
  change SameFlow _ (gangOf (pmcCount ..) _)
  rw [gangOf_pmcCount, gangOf_modCore, gangOf_modTeam, gangOf_setGang_same]
  refine .trans ?_ (sameFlow_countTurn _ _)
  have cave := windows.trans (.of_srPut _ (srGet ((List.range 9).foldl stepWindow (gangOf s c.g)) rCave + 1) (n := rCave) (by decide))
  exact ⟨cave.threads, cave.chain, cave.depth⟩

/-- Outside loops no thread arrives at a loop's end (R257). -/
theorem loopArrive_outside {G : Gang} (outside : loopDepth G = 0) (run : W32) (pc fall : Word) : loopArrive G run pc fall = G := by
  simp [loopArrive, outside]

theorem sameFlow_retire_setGang {s : State} {c : Issue} {G : Gang} (outside : loopDepth G = 0) (fall : Word) :
    SameFlow G (gangOf (retire (setGang s c.g G) c fall) c.g) := by
  have counted := sameFlow_countIssue (setGang s c.g G) c
  rw [gangOf_setGang_same] at counted
  rw [retire, gangOf_modGang_same, loopArrive_outside (counted.depth.trans outside)]
  exact counted

/-! ## The course of an instruction that moves its run -/

/-- A control instruction that nothing holds up retires with its gang moved. -/
theorem runMove_next {s : State} {c : Issue} {u : UniUse} {body : Issue → State → Chk (State × (Gang → Gang))} {move : Gang → Gang}
    (r : CtlReady s c u) (free : u.price = 0) (hb : body c s = .ok (s, move)) :
    issuing s (fun c => runMove s c u (body c)) = .next
      (retire (setGang s c.g (move (uniChain (gangOf s c.g) c.run u.arith))) c (c.pc + BitVec.ofNat 64 u.len)) := by
  obtain ⟨cur, checks⟩ := r
  simp only [issuing, cur, runMove, runUniTo, checks, bind, Except.bind, hb, payTokens, free, beq_self_eq_true, if_true]
  rw [modGang_modGang, modGang]

/-- Retiring outside loops from a gang that differs from `G` in bookkeeping has moved the gang to `G`. -/
theorem retire_moved {s : State} {c : Issue} {G H : Gang} (same : SameCount G H) (threads : H.threads = G.threads)
    (outside : loopDepth H = 0) (fall : Word) : Moved s (retire (setGang s c.g H) c fall) c G := by
  have still : Still c.g (setGang s c.g G) (setGang s c.g H) := by
    rw [← setGang_setGang s c.g G H]
    exact .sameGang _ _ _ (f := fun _ => H) (by rwa [gangOf_setGang_same])
  refine ⟨.after still (retire_spec _ c fall), ?_⟩
  rw [gangOf_setGang_same, (sameFlow_retire_setGang outside fall).threads, threads]

/-! ## A taken branch (R246) -/

/-- Outside loops a branch moves its threads and does nothing else. -/
theorem branchTo_outside {G : Gang} (outside : loopDepth G = 0) (m : W32) (target : Word) (leave : Bool) :
    branchTo G m target leave = moveThreads G m target := by
  have outside' : loopDepth (moveThreads G m target) = 0 := outside
  simp [branchTo, loopLeave, loopDrop, outside']

theorem takeBranch_eq (m : W32) (target : Word) (leave : Bool) (G : Gang) :
    takeBranch m target leave G = branchTo (endChain G) m target leave := rfl

theorem endChain_uniChain (G : Gang) (run : W32) (arith : Bool) : endChain (uniChain G run arith) = endChain G := by
  unfold uniChain
  split
  · rfl
  · split
    · rfl
    · split <;> rfl

/-- Whatever the instruction does to its chain, a branch taken outside loops ends it and moves its threads. -/
theorem takeBranch_uniChain {G : Gang} (outside : loopDepth G = 0) (run : W32) (arith : Bool) (m : W32) (target : Word) (leave : Bool) :
    takeBranch m target leave (uniChain G run arith) = endChain (moveThreads G m target) := by
  have outside' : loopDepth (endChain G) = 0 := outside
  rw [takeBranch_eq, endChain_uniChain, branchTo_outside outside']
  rfl

theorem sameCount_endChain (G : Gang) : SameCount G (endChain G) := .of_eq rfl rfl rfl

/-- A branch taken outside loops moves its threads and ends the chains of its run. -/
theorem runMove_branched {s : State} {c : Issue} {u : UniUse} {body : Issue → State → Chk (State × (Gang → Gang))} {m : W32}
    {target : Word} {leave : Bool} (r : CtlReady s c u) (free : u.price = 0) (outside : loopDepth (gangOf s c.g) = 0)
    (hb : body c s = .ok (s, takeBranch m target leave)) :
    ∃ t, issuing s (fun c => runMove s c u (body c)) = .next t ∧ Branched s t c (moveThreads (gangOf s c.g) m target) := by
  have outside' : loopDepth (endChain (moveThreads (gangOf s c.g) m target)) = 0 := outside
  refine ⟨_, runMove_next r free hb, ?_⟩
  rw [takeBranch_uniChain outside]
  exact ⟨retire_moved (sameCount_endChain _) rfl outside' _, (sameFlow_retire_setGang outside' _).chain⟩

/-! ## UBRZ and UBRNZ (R248) -/

/-- The model's reading of a signed offset. -/
theorem sext_toNat {n : Nat} (x : BitVec n) : sext n x.toNat = x.toInt := by
  rw [sext, BitVec.toInt_eq_toNat_cond, Nat.mod_eq_of_lt x.isLt]
  cases n with
  | zero => simp [BitVec.of_length_zero]
  | succ n =>
    have half : x.toNat < 2 ^ (n + 1 - 1) ↔ 2 * x.toNat < 2 ^ (n + 1) := by rw [Nat.add_sub_cancel, pow_succ]; omega
    simp only [half, Nat.cast_pow, Nat.cast_ofNat]

theorem exec_ubrz (sel sa : Fin 64) (off : BitVec 12) (s : State) : exec (.ubrz sel sa off) s = runTest s sel sa off true := rfl
theorem exec_ubrnz (sel sa : Fin 64) (off : BitVec 12) (s : State) : exec (.ubrnz sel sa off) s = runTest s sel sa off false := rfl

/-- SEL of `i + 1` tests bit `i`. -/
theorem testZero_bit {G : Gang} {sel sa : Fin 64} {i : Nat} (h : sel.val = i + 1) :
    testZero G sel sa = !(sGet G sa.val).getLsbD i := by
  simp [testZero, h]

/-- A branch on a test that answers as it asks is taken. -/
theorem runTest_branched {s : State} {c : Issue} {sel sa : Fin 64} {off : BitVec 12} {onZero : Bool}
    (r : CtlReady s c (ctlUse [(8, sa.val)] 4)) (outside : loopDepth (gangOf s c.g) = 0)
    (test : testZero (gangOf s c.g) sel sa = onZero) :
    ∃ t, runTest s sel sa off onZero = .next t ∧
      Branched s t c (moveThreads (gangOf s c.g) c.run (c.pc + BitVec.ofInt 64 (off.toInt * 4))) := by
  unfold runTest
  refine runMove_branched (leave := true) r rfl outside ?_
  simp only [test, beq_self_eq_true, if_true, sext_toNat]

/-! ## The statement -/

/-- Settles O12: UCMP's word has the bits of Table 2, and UBRNZ (UBRZ) with SEL of a bit's number plus 1 is taken where that bit
is 1 (0). -/
theorem ucmpWritesTheConditionWord : Obligations.UcmpWritesTheConditionWord := by
  refine ⟨uArith3_of_exec exec_ucmp, uArithUi_of_exec exec_ucmpUi, getLsbD_condWord, ?_⟩
  intro s c sel sa off a b i ready outside word _ bit
  have test : testZero (gangOf s c.g) sel sa = !((condHolds a b)[i]?).getD false := by
    rw [testZero_bit bit, word, getLsbD_condWord]
  constructor
  · intro holds
    rw [Yields, exec_ubrnz]
    exact runTest_branched ready outside (by simp [test, holds])
  · intro fails
    rw [Yields, exec_ubrz]
    exact runTest_branched ready outside (by simp [test, fails])

end Sys2Proof.Machine
end
